-- ==== Sys2Proof/Word.lean ====
section
/-! DEFINITION. The words of the machine: bytes, 32-bit words, 64-bit pairs (00_scope R4, R5; 02_encoding R17). -/

namespace Sys2Proof

/-- One byte of memory. -/
abbrev Byte := BitVec 8

/-- A 32-bit register, instruction word or literal. -/
abbrev Word := BitVec 32

/-- A 64-bit register pair or system register. -/
abbrev DWord := BitVec 64

end Sys2Proof
end

