-- ==== Sys2Proof/Syntax.lean ====
section
/-! DEFINITION. The syntax of the machine's steps: one constructor of `Instr` for each row of spec/opcode_table.json.
Instruction words first (02_encoding R17 to R34), then the device events. -/

namespace Sys2Proof

/-! ## Operands -/

/-- A lane-set source field, R22: a v or s register, one of the fourteen fixed constants of R23, the literal, none. -/
inductive Src where
  | v (n : Fin 192)
  | s (n : Fin 48)
  | k (n : Fin 14)
  | lit (w : Word)
  | none
  deriving DecidableEq, Repr

/-- A lane-set destination field, R26. -/
inductive Dst where
  | v (n : Fin 192)
  | s (n : Fin 48)
  | p (n : Fin 8)
  | none
  deriving DecidableEq, Repr

/-- A predicate prefix, R20, R21: the predicate register and whether it is negated. -/
structure Pred where
  r : Fin 8
  neg : Bool
  deriving DecidableEq, Repr

/-- The operand fields that every ordinary lane-set word has, R19, R20. -/
structure Ops where
  d : Dst
  a : Src
  b : Src
  c : Src
  pr : Pred
  deriving DecidableEq, Repr

/-- A uniform operand field, R33. -/
inductive USrc where
  | s (n : Fin 48)
  | q (n : Fin 8)
  | k (n : Fin 4)
  | lit (w : Word)
  | none
  deriving DecidableEq, Repr

/-- The operand fields of a uniform-set word, R32. -/
structure UOps where
  d : USrc
  a : USrc
  b : USrc
  deriving DecidableEq, Repr

/-- The offset of a uniform branch, R34: in its 12-bit field, or in the literal. -/
inductive UOff where
  | short (o : BitVec 12)
  | long (o : Word)
  deriving DecidableEq, Repr

/-! ## Modifier fields -/

/-- MOD of the I family, R133. -/
structure IMod where
  w64 : Bool
  u : Bool
  sat : Bool
  ce : Bool
  co : Fin 8
  ci : Fin 8
  deriving DecidableEq, Repr

/-- PART of IM, R134. -/
inductive Part where
  | lo | hi | wide
  deriving DecidableEq, Repr

/-- COND of CMP.I, R138. -/
inductive ICond where
  | eq | ne | lt | le | gt | ge | ltu | leu | gtu | geu
  deriving DecidableEq, Repr

/-- COND of CMP.F and CMP.D, R138. -/
inductive FCond where
  | eq | ne | lt | le | gt | ge | equ | neu | ltu | leu | gtu | geu | num | nan
  deriving DecidableEq, Repr

/-- COMB of CMP, R138. -/
inductive CombOp where
  | none | and | or | xor
  deriving DecidableEq, Repr

/-- The combining predicate of CMP, R138. -/
structure Comb where
  op : CombOp
  cp : Fin 8
  cn : Bool
  deriving DecidableEq, Repr

/-- Rounding modes, R83. -/
inductive RM where
  | rn | rz | ru | rd | sr
  deriving DecidableEq, Repr

/-- MOD of F, FH and D, R132. -/
structure FMod where
  rm : RM
  fz : Bool
  sat : Bool
  na : Bool
  nb : Bool
  nc : Bool
  bf : Bool
  deriving DecidableEq, Repr

/-- Integer types of CV, R141. -/
inductive ITy where
  | s32 | u32 | s64 | u64 | s16 | u16 | s8 | u8
  deriving DecidableEq, Repr

/-- Float types of CV, R141. -/
inductive FTy where
  | f32 | f64 | f16 | bf16
  deriving DecidableEq, Repr

/-- RM, FZ and SAT of CV, R141. -/
structure CvMod where
  rm : RM
  fz : Bool
  sat : Bool
  deriving DecidableEq, Repr

/-- MOD of DOT, R146. -/
structure DotMod where
  ua : Bool
  ub : Bool
  sc : Bool
  fz : Bool
  sat : Bool
  deriving DecidableEq, Repr

/-- Element format codes, R78. -/
inductive Fmt where
  | e4m3 | e5m2 | e3m2 | e2m3 | e2m1 | i8 | i4 | f16 | bf16
  deriving DecidableEq, Repr

/-- MOD of PK.CVT, R147. -/
structure PkCvtMod where
  fmt : Fmt
  rm : RM
  fz : Bool
  sat : Bool
  k : Fin 4
  deriving DecidableEq, Repr

/-- MODE of WV.VOTE, R116. -/
inductive VoteMode where
  | all | any | uni
  deriving DecidableEq, Repr

/-- Mode of XL.SHFL, R117. -/
inductive ShflMode where
  | idx | up | dn | bfly
  deriving DecidableEq, Repr

/-- Direction of Q.SWAP, R118. -/
inductive SwapDir where
  | h | v | diag
  deriving DecidableEq, Repr

/-- OP of WR, R119. -/
inductive WrOp where
  | add | min | max | minu | maxu | and | or | xor | fadd | fmin | fmax
  deriving DecidableEq, Repr

/-- Special registers, R111. -/
inductive SReg where
  | lane | warp | tid | block | bx | by | cluster | cblock | nthread | nblock | rank | nrank | chip | die | core
  | subcore | live | helper | emask | depth | held | time | clock | gwct | rsp
  deriving DecidableEq, Repr

/-- Coherence policies, R209. -/
inductive Pol where
  | own | thru | lease | track
  deriving DecidableEq, Repr

/-- MOD of LD and ST, R232. -/
structure GMod where
  pol : Pol
  fs : Bool
  deriving DecidableEq, Repr

/-- MOD of AT, R232. -/
structure AtMod where
  pol : Pol
  u : Bool
  w64 : Bool
  fs : Bool
  deriving DecidableEq, Repr

/-- MOD of RD, R232: policy LOC or THRU. -/
structure RdMod where
  thru : Bool
  u : Bool
  w64 : Bool
  ord : Bool
  fs : Bool
  deriving DecidableEq, Repr

/-- Fence scopes, R238. -/
inductive Scope where
  | core | die | package | fabric | system
  deriving DecidableEq, Repr

/-- POL of FN.PRE, R239 (THRU is reserved). -/
inductive PrePol where
  | own | lease | track
  deriving DecidableEq, Repr

/-- Load widths, R169, R234. -/
inductive LdW where
  | u8 | s8 | u16 | s16 | b32 | b64 | b128
  deriving DecidableEq, Repr

/-- Store widths, R169, R235. -/
inductive StW where
  | b8 | b16 | b32 | b64 | b128
  deriving DecidableEq, Repr

/-- OP of LS.AT, R169. -/
inductive LsAtOp where
  | add | min | max | and | or | xor | xchg | cas | fadd | minu | maxu
  deriving DecidableEq, Repr

/-- VS of H.INS and H.ACC, R171. -/
inductive Vs where
  | v64 | lo | hi
  deriving DecidableEq, Repr

/-- OP of H.ACC, R171. -/
inductive AccOp where
  | add | min | max
  deriving DecidableEq, Repr

/-- TY of H.ACC, R171. -/
inductive AccTy where
  | i32 | i64 | f32
  deriving DecidableEq, Repr

/-- OF of ACC.LD and ACC.ST, R198. -/
inductive AccFmt where
  | f32 | f16 | bf16
  deriving DecidableEq, Repr

/-- MOD of M.SCL, R197. -/
structure SclMod where
  row : Bool
  rm : RM
  fz : Bool
  sat : Bool
  deriving DecidableEq, Repr

/-- MOD shared by CP.TILE, CP.STORE, CP.LIN and CP.GATH, R287: the guard slot when GD = 1, the ring when ARV = 1. -/
structure CpMod where
  guard : Option (Fin 8)
  arv : Option (Fin 8)
  sl : Bool
  dl : Bool
  fs : Bool
  deriving DecidableEq, Repr

/-- A ring barrier, R292. -/
inductive Bar where
  | full | empty
  deriving DecidableEq, Repr

/-- SEL of W.QSTAT, R320. -/
inductive QSel where
  | pend | miss | eprio | faults | last | dlo | dhi
  deriving DecidableEq, Repr

/-- System registers, R337. -/
inductive SysReg where
  | tvb | tcs | tpc | tad | tlm | tch
  | tsv (n : Fin 8)
  | leasens | dpri | ctxid | mxc | slb | sls
  | weir (n : Fin 16)
  deriving DecidableEq, Repr

/-- The value that G.SET gives a slot, R291. -/
inductive GVal where
  | q (n : Fin 8)
  | fls | tru
  deriving DecidableEq, Repr

/-- The fields of a clause header, R38. -/
structure ClauseHdr where
  wait : BitVec 12
  seta : Option (Fin 12)
  setb : Option (Fin 12)
  len : Fin 32
  yld : Bool
  deriving DecidableEq, Repr

/-! ## What arrives from outside the chip -/

/-- The metadata value of a host MemRd, R351, R357. -/
inductive MemMeta where
  | i | s | a
  deriving DecidableEq, Repr

/-- What a chip keeps of a line after a store that its home applies, R210, R211. -/
inductive Keep where
  | none | track
  | lease (len : Nat)
  deriving DecidableEq, Repr

/-- A request that a chip sends to a line homed on another, R212, R262, R263. -/
inductive ChipReq where
  | own | thru | lease (len : Nat) | track
  | ownAll                                      -- ownership for a store that writes every byte of the line (R205)
  | write (bytes : List Byte) (at_ : Nat) (keep : Keep) (whole : Bool)  -- `whole`: such a store, a piece of it
  | writeBack (mask : Word) (data : List Byte)
  | colour                                      -- a colour query
  | recolour (c : Nat) (held : List Nat)        -- UC.SET by a thread that holds these colours
  deriving DecidableEq, Repr

/-- A home's answer to another chip, R202, R220. -/
structure ChipAns where
  data : List Byte := []                        -- the line; none where the answer carries none
  gwct : Nat := 0                               -- GWCT of a write, or Lx with a grant of ownership
  lease : Nat := 0                              -- expiry of a lease; 0 for none
  colour : Nat := 0
  ok : Bool := true                             -- false: MONNH at a line to be coloured (R262); a poisoned line (R205)
  deriving DecidableEq, Repr

/-- What one chip asks of the record of a monitor on another, R271, R272, R276. A thread is named by a number that its own
chip gave it. -/
inductive MonReq where
  | ask (id : Nat)                                                    -- R271: granted, or queued
  | free (id : Nat)                                                   -- R268
  | wait (id depth : Nat) (deadline : Option Nat)                     -- R272: freed, into the condition queue
  | notify (all : Bool)
  | leave (id : Nat)                                                  -- the thread has ended
  deriving DecidableEq, Repr

/-- What a record answers. -/
inductive MonAns where
  | granted (id : Nat) (back : Option (Nat × Bool))                   -- DEPTH kept and notified, of a former waiter
  | queued (id : Nat)
  | full (id : Nat)                                                   -- R277
  | lost (id : Nat)                                                   -- the request has not reached the record (R363)
  deriving DecidableEq, Repr

/-- A message between chips, R361. -/
inductive FabMsg where
  | req (id line : Nat) (r : ChipReq)                                 -- a coherence request
  | rsp (id line : Nat) (a : ChipAns)                                 -- its answer
  | recall (line : Nat) (downgrade : Bool)                            -- a recall of a line that the chip owns
  | inval (line : Nat)
  | ack (line : Nat) (data : List Byte)                               -- the answer to either; with the data of an owner
  | mon (ctx colour : Nat) (r : MonReq)
  | monAns (ctx colour : Nat) (a : MonAns)
  | record (ctx gen : Nat) (image : List Byte)                          -- R314, of a context
  | accept (ctx gen : Nat)
  | refuse (disp ctx gen cause : Nat)                                   -- of a launch that the chip `disp` has sent
  | start (ctx gen : Nat)
  | join (id ctx pa : Nat) (n : Int)                                    -- a change of a join record homed here (R313)
  | joined (id : Nat) (old : DWord)                                     -- its answer
  | tlbi (id ctx lo n : Nat) (all : Bool)                              -- a shootdown over DOMAIN (R329)
  | tlbiDone (id : Nat)
  | poison (id line : Nat)                                              -- a request completed with poison (R363)
  | time (off : Int)
  deriving DecidableEq, Repr

/-- The classes of messages, R361. -/
inductive FabClass where
  | req | rsp | ctl | time
  deriving DecidableEq, Repr

def FabMsg.cls : FabMsg → FabClass
  | .req _ _ _ | .mon _ _ _ => .req
  | .rsp _ _ _ | .recall _ _ | .inval _ | .ack _ _ | .monAns _ _ _ | .poison _ _ => .rsp
  | .record _ _ _ | .accept _ _ | .refuse _ _ _ _ | .start _ _ | .join _ _ _ _ | .joined _ _ | .tlbi _ _ _ _ _
  | .tlbiDone _ => .ctl
  | .time _ => .time

/-- A message with the chips that it is from and for, R362. -/
structure Packet where
  src : Nat
  dst : Nat
  msg : FabMsg
  deriving DecidableEq, Repr

/-- A slot of a flit, R360: a message's first, followed by `n` slots of its data, or 16 bytes of data. -/
inductive FlitSlot where
  | empty
  | head (p : Packet) (n : Nat)
  | data (bytes : List Byte)
  deriving DecidableEq, Repr

/-- A flit, R360. -/
structure Flit where
  seq : Word
  ack : BitVec 16
  slots : List FlitSlot                          -- 15
  crc : BitVec 64
  deriving DecidableEq, Repr

/-- The chip that refuses a launch, and the chip that has sent it, R314. -/
structure Refuser where
  src : Nat
  disp : Nat
  deriving DecidableEq, Repr

/-- What a host access names: a function, an offset in its BAR0, and a width in bytes (R353). -/
structure BarAt where
  fn : Nat
  off : Nat
  len : Nat
  deriving DecidableEq, Repr

/-! ## Steps -/

/-- Every step of the machine, one constructor per row of spec/opcode_table.json. -/
inductive Instr where
  -- clauses (R38, R97, R40)
  | clauseHeader (h : ClauseHdr)
  | promoted (w l : Nat)
  | flagClear (work : Nat)
  -- I (R133)
  | iAdd (o : Ops) (m : IMod)
  | iSub (o : Ops) (m : IMod)
  | iAddc (o : Ops) (m : IMod)
  | iSubb (o : Ops) (m : IMod)
  | iNeg (o : Ops) (m : IMod)
  | iAbs (o : Ops) (m : IMod)
  | iMin (o : Ops) (m : IMod)
  | iMax (o : Ops) (m : IMod)
  | iSad (o : Ops) (m : IMod)
  -- IM (R134)
  | imMul (o : Ops) (part : Part) (u : Bool)
  | imMad (o : Ops) (part : Part) (u : Bool)
  | imMadw (o : Ops) (u : Bool)
  -- LOG (R135)
  | logAnd (o : Ops) (w64 : Bool)
  | logOr (o : Ops) (w64 : Bool)
  | logXor (o : Ops) (w64 : Bool)
  | logAndn (o : Ops) (w64 : Bool)
  | logNot (o : Ops) (w64 : Bool)
  -- SH (R136)
  | shShl (o : Ops) (w64 : Bool)
  | shShr (o : Ops) (w64 arith : Bool)
  | shRot (o : Ops) (w64 : Bool)
  | shFun (o : Ops) (left : Bool)
  -- BF (R137)
  | bfExt (o : Ops) (sx : Bool)
  | bfIns (o : Ops)
  | bfPopc (o : Ops)
  | bfClz (o : Ops)
  | bfBrev (o : Ops)
  | bfFfs (o : Ops)
  -- CMP, PR (R138, R139)
  | cmpI (o : Ops) (c : ICond) (w64 : Bool) (k : Comb)
  | cmpF (o : Ops) (c : FCond) (fz : Bool) (k : Comb)
  | cmpD (o : Ops) (c : FCond) (fz : Bool) (k : Comb)
  | prLog (o : Ops) (pa pb pc : Fin 8)
  -- MV (R140)
  | mvMov (o : Ops) (w64 : Bool)
  | mvSel (o : Ops) (ps : Fin 8) (sn w64 : Bool)
  | mvPrm (o : Ops)
  | mvLea (o : Ops) (sh : Fin 8) (u : Bool)
  -- CV (R141)
  | cvI2f (o : Ops) (m : CvMod) (src : ITy) (dst : FTy)
  | cvF2i (o : Ops) (m : CvMod) (src : FTy) (dst : ITy)
  | cvF2f (o : Ops) (m : CvMod) (src dst : FTy)
  | cvI2i (o : Ops) (wrap : Bool) (src dst : ITy)
  -- F, FH, D (R142 to R144)
  | fAdd (o : Ops) (m : FMod)
  | fSub (o : Ops) (m : FMod)
  | fMul (o : Ops) (m : FMod)
  | fFma (o : Ops) (m : FMod)
  | fMin (o : Ops) (m : FMod)
  | fMax (o : Ops) (m : FMod)
  | fCls (o : Ops)
  | fhAdd2 (o : Ops) (m : FMod)
  | fhMul2 (o : Ops) (m : FMod)
  | fhFma2 (o : Ops) (m : FMod)
  | fhMin2 (o : Ops) (m : FMod)
  | fhMax2 (o : Ops) (m : FMod)
  | dAdd (o : Ops) (m : FMod)
  | dMul (o : Ops) (m : FMod)
  | dFma (o : Ops) (m : FMod)
  | dMin (o : Ops) (m : FMod)
  | dMax (o : Ops) (m : FMod)
  -- SF (R145)
  | sfRcp (o : Ops) (fz : Bool)
  | sfRsq (o : Ops) (fz : Bool)
  | sfSqrt (o : Ops) (fz : Bool)
  | sfExp2 (o : Ops) (fz : Bool)
  | sfLog2 (o : Ops) (fz : Bool)
  | sfSin (o : Ops) (fz : Bool)
  | sfCos (o : Ops) (fz : Bool)
  | sfTanh (o : Ops) (fz : Bool)
  -- DOT, PK (R146, R147)
  | dotI8x4 (o : Ops) (m : DotMod)
  | dotI4x8 (o : Ops) (m : DotMod)
  | dotE4m3x4 (o : Ops) (m : DotMod)
  | dotE5m2x4 (o : Ops) (m : DotMod)
  | dotE2m1x8 (o : Ops) (m : DotMod)
  | pkCvt (o : Ops) (m : PkCvtMod)
  | pkUnp (o : Ops) (fmt : Fmt) (fz : Bool)
  | pkScl (o : Ops) (fmt : Fmt)
  | pkPl6 (o : Ops) (join : Bool)
  -- BR, CL, X, UB (R112 to R115)
  | brRel (off : BitVec 24) (pr : Pred)
  | brInd (o : Ops)
  | clCall (off : BitVec 24) (pr : Pred)
  | clCalli (o : Ops)
  | clRet (o : Ops)
  | xExit (o : Ops)
  | xYield (o : Ops)
  | xNap (o : Ops)
  | napWake (w l : Nat)
  | yieldExpiry (w l : Nat)
  | ubBra (cnd : Option (Fin 8)) (off : UOff)
  | ubLoop (sx : Fin 48) (off : UOff)
  -- WV, XL, Q, WR (R116 to R119, R148)
  | wvVote (o : Ops) (sp : Fin 8) (sn : Bool) (mode : VoteMode)
  | wvBallot (o : Ops) (sp : Fin 8) (sn : Bool)
  | wvMatch (o : Ops) (all : Bool)
  | wvElect (o : Ops)
  | xlShfl (o : Ops) (mode : ShflMode) (b64 : Bool)
  | xlRdl (o : Ops) (b64 : Bool)
  | qSwap (o : Ops) (dir : SwapDir)
  | qBcast (o : Ops)
  | wrRed (o : Ops) (op : WrOp)
  | wrScan (o : Ops) (op : WrOp) (excl : Bool)
  | srRead (o : Ops) (r : SReg)
  -- B (R120)
  | bBar (o : Ops) (id : Fin 16)
  | bCbar (o : Ops) (id : Fin 4)
  -- U, ULD (R149, R150)
  | uAdd (o : UOps)
  | uSub (o : UOps)
  | uMul (o : UOps)
  | uLogAnd (o : UOps)
  | uLogOr (o : UOps)
  | uLogXor (o : UOps)
  | uLogAndn (o : UOps)
  | uShfShl (o : UOps)
  | uShfShr (o : UOps)
  | uShfSar (o : UOps)
  | uShfRot (o : UOps)
  | uCmpEq (o : UOps)
  | uCmpNe (o : UOps)
  | uCmpLt (o : UOps)
  | uCmpLe (o : UOps)
  | uCmpGt (o : UOps)
  | uCmpGe (o : UOps)
  | uCmpLtu (o : UOps)
  | uCmpGeu (o : UOps)
  | uMov (o : UOps)
  | uSel (o : UOps) (n : Fin 8)
  | uldC (o : UOps)
  -- LD, ST, AT, RD (R234 to R237)
  | ldU8 (o : Ops) (m : GMod)
  | ldS8 (o : Ops) (m : GMod)
  | ldU16 (o : Ops) (m : GMod)
  | ldS16 (o : Ops) (m : GMod)
  | ldB32 (o : Ops) (m : GMod)
  | ldB64 (o : Ops) (m : GMod)
  | ldB128 (o : Ops) (m : GMod)
  | stB8 (o : Ops) (m : GMod)
  | stB16 (o : Ops) (m : GMod)
  | stB32 (o : Ops) (m : GMod)
  | stB64 (o : Ops) (m : GMod)
  | stB128 (o : Ops) (m : GMod)
  | atAdd (o : Ops) (m : AtMod)
  | atMin (o : Ops) (m : AtMod)
  | atMax (o : Ops) (m : AtMod)
  | atAnd (o : Ops) (m : AtMod)
  | atOr (o : Ops) (m : AtMod)
  | atXor (o : Ops) (m : AtMod)
  | atXchg (o : Ops) (m : AtMod)
  | atCas (o : Ops) (m : AtMod)
  | atFadd (o : Ops) (m : AtMod)
  | rdAdd (o : Ops) (m : RdMod)
  | rdMin (o : Ops) (m : RdMod)
  | rdMax (o : Ops) (m : RdMod)
  | rdAnd (o : Ops) (m : RdMod)
  | rdOr (o : Ops) (m : RdMod)
  | rdXor (o : Ops) (m : RdMod)
  | rdFadd (o : Ops) (m : RdMod)
  -- FN (R238, R239)
  | fnFence (o : Ops) (scope : Scope)
  | fenceComplete (g : Nat)
  | fnInv (o : Ops) (allc fs : Bool)
  | fnWb (o : Ops) (fs : Bool)
  | fnPre (o : Ops) (pol : PrePol) (fs : Bool)
  -- LS (R169)
  | lsLd (o : Ops) (w : LdW) (fs : Bool)
  | lsSt (o : Ops) (w : StW) (fs : Bool)
  | lsAt (o : Ops) (op : LsAtOp) (w64 fs : Bool)
  | remoteLsPerformed (msg : Nat)
  -- HC, H (R170 to R172)
  | hcClaim (o : UOps)
  | churnClearDone (block : Nat)
  | hcFree
  | hIns (o : Ops) (vs : Vs) (fs : Bool)
  | hPrb (o : Ops) (fs : Bool)
  | hDel (o : Ops) (fs : Bool)
  | hAcc (o : Ops) (vs : Vs) (op : AccOp) (ty : AccTy) (fs : Bool)
  | spillAtomicReturn (spill : Nat)
  | hDrn (o : Ops) (clr fs : Bool)
  | hSta (o : Ops)
  -- M, ACC (R181 to R199)
  | mMma (o : Ops) (tile : Fin 64)
  | mSmma (o : Ops) (tile : Fin 64)
  | sluiceWindow (core : Nat)
  | mSpc (o : Ops) (fmt : Fmt)
  | mZero (o : Ops) (tile : Fin 64)
  | mScl (o : Ops) (tile : Fin 64) (m : SclMod)
  | accLd (o : Ops) (tile : Fin 64) (f : AccFmt) (fs : Bool)
  | accSt (o : Ops) (tile : Fin 64) (f : AccFmt) (rm : RM) (fs : Bool)
  | accRd (o : Ops) (tile : Fin 64) (x4 : Bool)
  | accWr (o : Ops) (tile : Fin 64) (x4 add : Bool)
  -- C, UC and monitors (R262, R268 to R273)
  | cGet (o : Ops)
  | cWait (o : Ops)
  | cNtf (o : Ops)
  | cNta (o : Ops)
  | cHeld (o : Ops)
  | waitDeadline (ctx colour w l : Nat)
  | ucSet (o : UOps)
  | ucSetWaitEnd (g : Nat)
  | monitorGrant (ctx colour : Nat)
  | colourReleaseComplete (rel : Nat)
  -- CP, G, RG and the engine (R280 to R297)
  | cpTile (o : Ops) (m : CpMod)
  | cpStore (o : Ops) (m : CpMod)
  | cpLin (o : Ops) (m : CpMod)
  | cpGath (o : Ops) (m : CpMod)
  | cpSeal (o : Ops)
  | cpWait (o : Ops)
  | engineStart (core : Nat)
  | engineDiscard (core : Nat)
  | engineComplete (cmd : Nat)
  | ownershipGrant (msg : Nat)
  | gSet (slot : Fin 8) (v : GVal)
  | gClr (slot : Fin 8)
  | rgInit (o : Ops)
  | rgArv (o : Ops) (bar : Bar)
  | rgWait (o : Ops) (bar : Bar)
  | gatherSplit (g : Nat)
  -- W (R318 to R320)
  | wSpawn (o : Ops) (fs : Bool)
  | wLaunch (o : Ops) (fs : Bool)
  | wJoin (o : Ops) (fs : Bool)
  | wDead (o : Ops)
  | wQstat (o : Ops) (sel : QSel)
  -- TR and translation (R325 to R350)
  | trTrap (o : Ops)
  | trBkpt (o : Ops)
  | trRett (o : Ops) (endd : Bool)
  | trMfs (o : Ops) (r : SysReg)
  | trMts (o : Ops) (r : SysReg)
  | trTlbi (o : Ops) (domain all : Bool)
  | shootdownComplete (sd : Nat)
  | trHalt (o : Ops)
  | pageWalkRead (walk : Nat)
  -- the homes and the caches (R208 to R224, R263)
  | ownRequest (msg : Nat)
  | thruRead (msg : Nat)
  | leaseRequest (msg : Nat)
  | trackRequest (msg : Nat)
  | applyWrite (msg : Nat)
  | rdLocRequest (msg : Nat)
  | rdThruRequest (msg : Nat)
  | pushedPartial (msg : Nat)
  | writeBack (msg : Nat)
  | recall (msg : Nat)
  | invalidate (msg : Nat)
  | recallAck (msg : Nat)
  | colourQuery (msg : Nat)
  | dataReply (msg : Nat)
  | writeAck (msg : Nat)
  | l1Drop (agent line : Nat)
  | l2Evict (line : Nat)
  | proxyEvict (line : Nat)
  | weirTick (slice : Nat)
  | poolReset (slice : Nat)
  -- allocation (R129, R154, R175)
  | compactorMove (core sub bank : Nat)
  | lsCompaction (core : Nat)
  | tileCompaction (core sub : Nat)
  -- queues, dispatch, completion (R300 to R315)
  | dispatch (part : Nat)
  | queueLate (part q : Nat)
  | blockRetire (block : Nat)
  | joinPush (n : Nat)
  | ordApply (block : Nat)
  | launchRecord (src ctx gen : Nat) (image : List Byte)
  | accept (src ctx gen : Nat)
  | refuse (src : Refuser) (ctx gen cause : Nat)
  | start (src ctx gen : Nat)
  | tailRegisterWrite (part q : Nat) (v : DWord)
  -- contexts and partitions (R341, R342, R352, R355)
  | preload (part : Nat) (desc : Nat)
  | switch (part : Nat) (desc : Nat)
  | unbind (part : Nat)
  | switchFlip (part : Nat)
  | contextResumable (ctx : Nat)
  | pcoresWrite (part die : Nat) (v : DWord)
  | functionLevelReset (n : Nat)
  -- host link (R351 to R359)
  | bflip (v : DWord)
  | flipStart
  | flipComplete
  | memrd (md : MemMeta) (off : Nat)
  | memrddata (off : Nat)
  | meminv (off : Nat)
  | memwr (off : Nat) (data : List Byte)
  | memwrptl (off : Nat) (mask : BitVec 64) (data : List Byte)
  | snpinv (pa : Nat)
  | snpdata (pa : Nat)
  | snpcur (pa : Nat)
  | bisnpResponse (line : Nat) (wr : Option (List Byte))
  | hostRegCompletion (req : Nat) (ok : Bool) (data : DWord)
  | hostRegTimeout (req : Nat)
  -- fabric and time (R360 to R365, R388)
  | flit (link : Nat) (head : Word × BitVec 16) (crc : BitVec 64) (slots : List FlitSlot)  -- the head: SEQ and ACK
  | linkDown (link : Nat)
  | timeExchange
  | timeMessage (link : Nat) (offs : Int) (fromMaster : Bool)
  | lockTimeout
  | rillWake (link : Nat)
  -- power and management (R378 to R389)
  | powerIdleTimer
  | wake
  | powerExitComplete
  | powerOn (flash : List Byte)
  | powerLoss
  | loadfw
  | stagefw
  | attest
  | reset
  | commandComplete
  | sensorUpdate (readings : List (BitVec 16))
  -- counters, stops and reports (R367 to R377)
  | strig (core : Nat)
  | stop (core : Nat) (mask : BitVec 4)
  | relh (core : Nat) (mask : BitVec 4)
  | dumpWritten (core sub : Nat)
  | blockRelaunch (block : Nat)
  | registerWrite (at_ : BarAt) (v : DWord)
  | preloadComplete (part : Nat)
  | linkTrained (link peer : Nat)
  | diesReleased (ok : Bool)
  | ecmpMatch (core : Nat)
  | placementZeroingDone (launch cluster : Nat)
  deriving DecidableEq, Repr

end Sys2Proof
end

