-- ==== Sys2Proof/WellFormed.lean ====
section
/-! DEFINITION. Which operand forms each instruction admits (02_encoding R25 to R27, R33, R35, and the entries): a
word whose fields break these is no instruction and raises ILLEGAL. -/

namespace Sys2Proof

/-- What a lane-set source field may hold. `w32` and `w64` are general sources (R22, R24, R25). -/
inductive SK where
  | none                                    -- unused: must hold "no operand"
  | w32 | w64                               -- v, s (pair), constant, literal
  | o32                                     -- w32 or no operand
  | r32 | r64 | r128                        -- v or s register, pair, quadruple
  | v32 | v64 | v128                        -- v register, pair, quadruple
  | s32                                     -- s register
  | k32                                     -- s register, constant, literal, or no operand
  deriving DecidableEq, Repr

/-- What a lane-set destination field may hold. -/
inductive DK where
  | none
  | v32 | v64 | v128
  | ov32 | ov64                             -- the result may be discarded
  | s32 | s64
  | p
  | vp                                      -- a predicate or a v register
  deriving DecidableEq, Repr

/-- A register of a pair or quadruple: aligned and inside its file, R25. -/
def regOk (n file width : Nat) : Bool := n % width == 0 && decide (n + width ≤ file)

/-- Does a source field meet a kind? -/
def Src.ok (k : SK) : Src → Bool
  | .v n => match k with
    | .w32 | .o32 | .r32 | .v32 => true
    | .w64 | .r64 | .v64 => regOk n.val 192 2
    | .r128 | .v128 => regOk n.val 192 4
    | .none | .s32 | .k32 => false
  | .s n => match k with
    | .w32 | .o32 | .r32 | .s32 | .k32 => true
    | .w64 | .r64 => regOk n.val 48 2
    | .r128 => regOk n.val 48 4
    | .none | .v32 | .v64 | .v128 => false
  | .k _ => match k with
    | .w32 | .w64 | .o32 | .k32 => true
    | .none | .r32 | .r64 | .r128 | .v32 | .v64 | .v128 | .s32 => false
  | .lit _ => match k with
    | .w32 | .w64 | .o32 | .k32 => true
    | .none | .r32 | .r64 | .r128 | .v32 | .v64 | .v128 | .s32 => false
  | .none => match k with
    | .none | .o32 | .k32 => true
    | .w32 | .w64 | .r32 | .r64 | .r128 | .v32 | .v64 | .v128 | .s32 => false

/-- Does a destination field meet a kind? R26. -/
def Dst.ok (k : DK) : Dst → Bool
  | .v n => match k with
    | .v32 | .ov32 | .vp => true
    | .v64 | .ov64 => regOk n.val 192 2
    | .v128 => regOk n.val 192 4
    | .none | .s32 | .s64 | .p => false
  | .s n => match k with
    | .s32 => true
    | .s64 => regOk n.val 48 2
    | .none | .v32 | .v64 | .v128 | .ov32 | .ov64 | .p | .vp => false
  | .p _ => match k with
    | .p | .vp => true
    | .none | .v32 | .v64 | .v128 | .ov32 | .ov64 | .s32 | .s64 => false
  | .none => match k with
    | .none | .ov32 | .ov64 => true
    | .v32 | .v64 | .v128 | .s32 | .s64 | .p | .vp => false

def Src.isLit : Src → Bool
  | .lit _ => true
  | .v _ | .s _ | .k _ | .none => false

/-- The operand kinds of a form: D, A, B, C. -/
structure Shape where
  d : DK
  a : SK
  b : SK
  c : SK
  deriving DecidableEq, Repr

/-- At most one literal, R27. -/
def Ops.oneLit (o : Ops) : Bool :=
  !(o.a.isLit && o.b.isLit) && !(o.a.isLit && o.c.isLit) && !(o.b.isLit && o.c.isLit)

/-- The fields of a word meet a shape, R25 to R27, R35. -/
def Ops.ok (o : Ops) (sh : Shape) : Bool :=
  o.d.ok sh.d && o.a.ok sh.a && o.b.ok sh.b && o.c.ok sh.c && o.oneLit

def USrc.isLit : USrc → Bool
  | .lit _ => true
  | .s _ | .q _ | .k _ | .none => false

/-- An s register, a constant or the literal: the numeric sources of R149. -/
def USrc.num : USrc → Bool
  | .s _ | .k _ | .lit _ => true
  | .q _ | .none => false

/-- A q register or the constants false and true, R149. -/
def USrc.truth : USrc → Bool
  | .q _ => true
  | .k n => decide (n.val < 2)
  | .s _ | .lit _ | .none => false

def USrc.isS : USrc → Bool
  | .s _ => true
  | .q _ | .k _ | .lit _ | .none => false

def USrc.isQ : USrc → Bool
  | .q _ => true
  | .s _ | .k _ | .lit _ | .none => false

def USrc.isNone : USrc → Bool
  | .none => true
  | .s _ | .q _ | .k _ | .lit _ => false

/-- An even s register naming a pair. -/
def USrc.isSPair : USrc → Bool
  | .s n => n.val % 2 == 0
  | .q _ | .k _ | .lit _ | .none => false

/-- An s register or the literal: the ctl operand of HC.CLAIM and UC.SET. -/
def USrc.isCtl : USrc → Bool
  | .s _ | .lit _ => true
  | .q _ | .k _ | .none => false

def UOps.oneLit (o : UOps) : Bool := !o.d.isLit && !(o.a.isLit && o.b.isLit)

/-- Two numeric sources and an s destination. -/
def UOps.arith (o : UOps) : Bool := o.d.isS && o.a.num && o.b.num && o.oneLit

/-- U.LOG: numbers into an s register, or truth values into a q register (R149). -/
def UOps.logic (o : UOps) : Bool :=
  (o.arith || (o.d.isQ && o.a.truth && o.b.truth)) && o.oneLit

/-- U.CMP: numbers into a q register. -/
def UOps.cmp (o : UOps) : Bool := o.d.isQ && o.a.num && o.b.num && o.oneLit

/-- The kind of a source as wide as an instruction's W64 says. -/
def wk (w64 : Bool) : SK := if w64 then .w64 else .w32

def dk (w64 : Bool) : DK := if w64 then .v64 else .v32

def odk (w64 : Bool) : DK := if w64 then .ov64 else .ov32

def LdW.dk : LdW → DK
  | .u8 | .s8 | .u16 | .s16 | .b32 => .v32
  | .b64 => .v64
  | .b128 => .v128

def StW.sk : StW → SK
  | .b8 | .b16 | .b32 => .w32
  | .b64 => .w64
  | .b128 => .r128

/-- Is a CV integer type 64 bits wide? -/
def ITy.wide : ITy → Bool
  | .s64 | .u64 => true
  | .s32 | .u32 | .s16 | .u16 | .s8 | .u8 => false

def FTy.wide : FTy → Bool
  | .f64 => true
  | .f32 | .f16 | .bf16 => false

/-- 16-bit float types, the only ones SR may round to (R88). -/
def FTy.half : FTy → Bool
  | .f16 | .bf16 => true
  | .f32 | .f64 => false

/-- Elements of a format in one register, R79. -/
def Fmt.perReg : Fmt → Nat
  | .e4m3 | .e5m2 | .e3m2 | .e2m3 | .i8 => 4
  | .e2m1 | .i4 => 8
  | .f16 | .bf16 => 2

def Fmt.isInt : Fmt → Bool
  | .i8 | .i4 => true
  | .e4m3 | .e5m2 | .e3m2 | .e2m3 | .e2m1 | .f16 | .bf16 => false

def SReg.wide : SReg → Bool
  | .time | .clock | .gwct | .rsp => true
  | .lane | .warp | .tid | .block | .bx | .by | .cluster | .cblock | .nthread | .nblock | .rank | .nrank | .chip
  | .die | .core | .subcore | .live | .helper | .emask | .depth | .held => false

/-- CE, CO and CI of I (R133): CO is 0 when CE = 0, and CI is 0 outside ADDC and SUBB. -/
def IMod.carryOk (m : IMod) (ci : Bool) : Bool := (m.ce || m.co == 0) && (ci || m.ci == 0)

/-- NC, RM, SAT and BF of F, FH and D (R132, R142 to R144). -/
def FMod.ok (m : FMod) (nc minmax bf : Bool) : Bool :=
  m.rm != .sr && (nc || !m.nc) && (!minmax || (m.rm == .rn && !m.sat)) && (bf || !m.bf)

def Comb.ok (k : Comb) : Bool := k.op != .none || (k.cp == 0 && !k.cn)

/-- SL, DL and ARV of CP (R287). -/
def CpMod.ok (m : CpMod) (lin store : Bool) : Bool :=
  (lin || (!m.sl && !m.dl)) && (m.arv == none || (!store && (!lin || m.dl)))

/-- VS and TY of H.ACC that go together (R171). -/
def accPair : Vs → AccTy → Bool
  | .v64, .i64 | .lo, .i32 | .hi, .i32 | .lo, .f32 | .hi, .f32 => true
  | .v64, .i32 | .v64, .f32 | .lo, .i64 | .hi, .i64 => false

/-- The modifiers of DOT: UA and UB for integer elements only, FZ for integers only with scales (R146). -/
def DotMod.ok (m : DotMod) (int : Bool) : Bool :=
  (int || (!m.ua && !m.ub)) && (!int || m.sc || !m.fz)

def DotMod.shape (m : DotMod) : Shape := ⟨.v32, .w32, .w32, if m.sc then .w32 else .o32⟩

/-- The operand shape of a CV form: B is the seed when RM = SR. -/
def cvShape (rm : RM) (wd ws : Bool) : Shape := ⟨dk wd, wk ws, if rm == .sr then .w32 else .none, .none⟩

def noOps : Shape := ⟨.none, .none, .none, .none⟩

/-- The operand shape of AT and the C of its compare-and-swap. -/
def atShape (w64 cas : Bool) : Shape :=
  ⟨odk w64, .r64, .w32, match cas, w64 with
    | true, true => .r128
    | true, false => .r64
    | false, true => .w64
    | false, false => .w32⟩

def lsAtShape (w64 cas : Bool) : Shape := { atShape w64 cas with a := .r32 }

/-- Well-formedness: the operand form and modifiers are ones the instruction's entry admits (R35). The event rows carry
no encoding; each is well formed. -/
def Instr.wf : Instr → Bool
  | .clauseHeader h => h.setb == none || (h.seta != none && h.seta != h.setb)
  | .promoted _ _ | .flagClear _ => true
  | .iAdd o m | .iSub o m => o.ok ⟨dk m.w64, wk m.w64, wk m.w64, .none⟩ && m.carryOk false && !(m.sat && m.ce)
  | .iAddc o m | .iSubb o m =>
    o.ok ⟨dk m.w64, wk m.w64, wk m.w64, .none⟩ && m.carryOk true && !m.sat && !m.u
  | .iNeg o m | .iAbs o m =>
    o.ok ⟨dk m.w64, wk m.w64, .none, .none⟩ && m.carryOk false && !m.ce && !m.u
  | .iMin o m | .iMax o m =>
    o.ok ⟨dk m.w64, wk m.w64, wk m.w64, .none⟩ && m.carryOk false && !m.ce && !m.sat
  | .iSad o m => o.ok ⟨.v32, .w32, .w32, .o32⟩ && m.carryOk false && !m.ce && !m.sat && !m.w64
  | .imMul o part _ => o.ok ⟨dk (part == .wide), .w32, .w32, .none⟩
  | .imMad o part _ => o.ok ⟨.v32, .w32, .w32, .w32⟩ && part != .wide
  | .imMadw o _ => o.ok ⟨.v64, .w32, .w32, .w64⟩
  | .logAnd o w | .logOr o w | .logXor o w | .logAndn o w => o.ok ⟨dk w, wk w, wk w, .none⟩
  | .logNot o w => o.ok ⟨dk w, wk w, .none, .none⟩
  | .shShl o w | .shRot o w => o.ok ⟨dk w, wk w, .w32, .none⟩
  | .shShr o w _ => o.ok ⟨dk w, wk w, .w32, .none⟩
  | .shFun o _ => o.ok ⟨.v32, .w32, .w32, .w32⟩
  | .bfExt o _ => o.ok ⟨.v32, .w32, .w32, .none⟩
  | .bfIns o => o.ok ⟨.v32, .w32, .w32, .w32⟩
  | .bfPopc o | .bfClz o | .bfBrev o | .bfFfs o => o.ok ⟨.v32, .w32, .none, .none⟩
  | .cmpI o _ w k => o.ok ⟨.vp, wk w, wk w, .none⟩ && k.ok
  | .cmpF o _ _ k => o.ok ⟨.vp, .w32, .w32, .none⟩ && k.ok
  | .cmpD o _ _ k => o.ok ⟨.vp, .w64, .w64, .none⟩ && k.ok
  | .prLog o _ _ _ => o.ok ⟨.p, .w32, .none, .none⟩
  | .mvMov o w => o.ok ⟨dk w, wk w, .none, .none⟩
  | .mvSel o _ _ w => o.ok ⟨dk w, wk w, wk w, .none⟩
  | .mvPrm o => o.ok ⟨.v32, .w32, .w32, .w32⟩
  | .mvLea o _ _ => o.ok ⟨.v64, .w64, .w32, .none⟩
  | .cvI2f o m src dst => o.ok (cvShape m.rm dst.wide src.wide) && (m.rm != .sr || dst.half)
  | .cvF2i o m src dst => o.ok (cvShape m.rm dst.wide src.wide) && m.rm != .sr && !m.sat
  | .cvF2f o m src dst => o.ok (cvShape m.rm dst.wide src.wide) && (m.rm != .sr || dst.half)
  | .cvI2i o _ src dst => o.ok (cvShape .rn dst.wide src.wide)
  | .fAdd o m | .fSub o m | .fMul o m => o.ok ⟨.v32, .w32, .w32, .none⟩ && m.ok false false false
  | .fFma o m => o.ok ⟨.v32, .w32, .w32, .w32⟩ && m.ok true false false
  | .fMin o m | .fMax o m => o.ok ⟨.v32, .w32, .w32, .none⟩ && m.ok false true false
  | .fCls o => o.ok ⟨.vp, .w32, .w32, .none⟩
  | .fhAdd2 o m | .fhMul2 o m => o.ok ⟨.v32, .w32, .w32, .none⟩ && m.ok false false true
  | .fhFma2 o m => o.ok ⟨.v32, .w32, .w32, .w32⟩ && m.ok true false true
  | .fhMin2 o m | .fhMax2 o m => o.ok ⟨.v32, .w32, .w32, .none⟩ && m.ok false true true
  | .dAdd o m | .dMul o m => o.ok ⟨.v64, .w64, .w64, .none⟩ && m.ok false false false
  | .dFma o m => o.ok ⟨.v64, .w64, .w64, .w64⟩ && m.ok true false false
  | .dMin o m | .dMax o m => o.ok ⟨.v64, .w64, .w64, .none⟩ && m.ok false true false
  | .sfRcp o _ | .sfRsq o _ | .sfSqrt o _ | .sfExp2 o _ | .sfLog2 o _ | .sfSin o _ | .sfCos o _ | .sfTanh o _ =>
    o.ok ⟨.v32, .w32, .none, .none⟩
  | .dotI8x4 o m | .dotI4x8 o m => o.ok m.shape && m.ok true
  | .dotE4m3x4 o m | .dotE5m2x4 o m | .dotE2m1x8 o m => o.ok m.shape && m.ok false
  | .pkCvt o m =>
    o.ok ⟨.v32, .w32, .w32, .o32⟩ && decide (2 * m.k.val < m.fmt.perReg) && (m.rm != .sr || !m.fmt.isInt)
  | .pkUnp o _ _ => o.ok ⟨.v32, .w32, .w32, .o32⟩
  | .pkScl o fmt => o.ok ⟨.v32, .w32, .none, .none⟩ && fmt != .f16 && fmt != .bf16
  | .pkPl6 o _ => o.ok ⟨.v64, .w32, .w32, .none⟩
  | .brRel _ _ | .clCall _ _ => true
  | .brInd o | .clCalli o => o.ok ⟨.none, .r64, .none, .none⟩
  | .clRet o | .xExit o | .xYield o => o.ok noOps
  | .xNap o => o.ok ⟨.none, .w32, .none, .none⟩
  | .napWake _ _ | .yieldExpiry _ _ => true
  | .ubBra _ _ | .ubLoop _ _ => true
  | .wvVote o _ _ _ | .wvElect o => o.ok ⟨.p, .none, .w32, .none⟩
  | .wvBallot o _ _ => o.ok ⟨.v32, .none, .w32, .none⟩
  | .wvMatch o _ => o.ok ⟨.v32, .r32, .w32, .none⟩
  | .xlShfl o _ w => o.ok ⟨dk w, if w then .r64 else .r32, .w32, .w32⟩
  | .xlRdl o w => o.ok ⟨if w then .s64 else .s32, if w then .v64 else .v32, .k32, .none⟩
  | .qSwap o _ => o.ok ⟨.v32, .v32, .none, .none⟩
  | .qBcast o => o.ok ⟨.v32, .v32, .w32, .none⟩
  | .wrRed o _ | .wrScan o _ _ => o.ok ⟨.v32, .r32, .w32, .none⟩
  | .srRead o r => o.ok ⟨dk r.wide, .none, .none, .none⟩
  | .bBar o _ => o.ok ⟨.none, .none, .k32, .none⟩
  | .bCbar o _ => o.ok noOps
  | .uAdd o | .uSub o | .uMul o => o.arith
  | .uLogAnd o | .uLogOr o | .uLogXor o | .uLogAndn o => o.logic
  | .uShfShl o | .uShfShr o | .uShfSar o | .uShfRot o => o.arith
  | .uCmpEq o | .uCmpNe o | .uCmpLt o | .uCmpLe o | .uCmpGt o | .uCmpGe o | .uCmpLtu o | .uCmpGeu o => o.cmp
  | .uMov o => (o.d.isS || o.d.isQ) && (o.a.num || o.a.isQ) && o.b.isNone && o.oneLit
  | .uSel o _ => o.arith
  | .uldC o => o.d.isS && o.a.num && !o.a.isLit && o.b.num && o.oneLit
  | .ldU8 o _ | .ldS8 o _ | .ldU16 o _ | .ldS16 o _ | .ldB32 o _ => o.ok ⟨.v32, .r64, .w32, .none⟩
  | .ldB64 o _ => o.ok ⟨.v64, .r64, .w32, .none⟩
  | .ldB128 o _ => o.ok ⟨.v128, .r64, .w32, .none⟩
  | .stB8 o _ | .stB16 o _ | .stB32 o _ => o.ok ⟨.none, .r64, .w32, .w32⟩
  | .stB64 o _ => o.ok ⟨.none, .r64, .w32, .w64⟩
  | .stB128 o _ => o.ok ⟨.none, .r64, .w32, .r128⟩
  | .atMin o m | .atMax o m => o.ok (atShape m.w64 false)
  | .atAdd o m | .atAnd o m | .atOr o m | .atXor o m | .atXchg o m | .atFadd o m =>
    o.ok (atShape m.w64 false) && !m.u
  | .atCas o m => o.ok (atShape m.w64 true) && !m.u
  | .rdMin o m | .rdMax o m => o.ok { atShape m.w64 false with d := .none } && !(m.ord && m.thru)
  | .rdAdd o m | .rdAnd o m | .rdOr o m | .rdXor o m | .rdFadd o m =>
    o.ok { atShape m.w64 false with d := .none } && !(m.ord && m.thru) && !m.u
  | .fnFence o _ => o.ok noOps
  | .fenceComplete _ => true
  | .fnInv o _ _ | .fnWb o _ | .fnPre o _ _ => o.ok ⟨.none, .r64, .w32, .none⟩
  | .lsLd o w _ => o.ok ⟨w.dk, .r32, .w32, .none⟩
  | .lsSt o w _ => o.ok ⟨.none, .r32, .w32, w.sk⟩
  | .lsAt o op w _ => o.ok (lsAtShape w (op == .cas)) && !(w && op == .fadd)
  | .remoteLsPerformed _ => true
  | .hcClaim o => o.d.isNone && (o.a.isSPair || o.a == .k 0) && o.b.isCtl && o.oneLit
  | .churnClearDone _ => true
  | .hcFree => true
  | .hIns o vs _ => o.ok ⟨.ov32, .w64, wk (vs == .v64), .none⟩
  | .hPrb o _ => o.ok ⟨.v128, .w64, .none, .none⟩
  | .hDel o _ => o.ok ⟨.ov32, .w64, .none, .none⟩
  | .hAcc o vs _ ty _ => o.ok ⟨.ov32, .w64, wk (vs == .v64), .none⟩ && accPair vs ty
  | .spillAtomicReturn _ => true
  | .hDrn o _ _ => o.ok ⟨.v128, .s32, .none, .none⟩
  | .hSta o => o.ok ⟨.v32, .w32, .none, .none⟩
  | .mMma o _ | .mSmma o _ => o.ok ⟨.none, .v128, .v128, .r64⟩
  | .sluiceWindow _ => true
  | .mSpc o _ => o.ok ⟨.v128, .v128, .none, .none⟩
  | .mZero o _ => o.ok noOps
  | .mScl o _ m => o.ok ⟨.none, .w32, .none, .none⟩ && m.rm != .sr
  | .accLd o _ _ _ => o.ok ⟨.none, .r32, .w32, .none⟩
  | .accSt o _ f rm _ =>
    o.ok ⟨.none, .r32, .w32, if rm == .sr then .r32 else .none⟩ && (f != .f32 || rm == .rn)
  | .accRd o _ x4 => o.ok ⟨if x4 then .v128 else .v32, .w32, .none, .none⟩
  | .accWr o _ x4 _ => o.ok ⟨.none, .w32, if x4 then .v128 else .w32, .none⟩
  | .cGet o => o.ok ⟨.v32, .r64, .w32, .none⟩
  | .cWait o => o.ok ⟨.ov32, .w32, .o32, .none⟩
  | .cNtf o | .cNta o => o.ok ⟨.none, .w32, .none, .none⟩
  | .cHeld o => o.ok ⟨.v32, .w32, .none, .none⟩
  | .waitDeadline _ _ _ _ => true
  | .ucSet o => o.d.isNone && o.a.isSPair && o.b.isCtl && o.oneLit
  | .ucSetWaitEnd _ | .monitorGrant _ _ | .colourReleaseComplete _ => true
  | .cpTile o m => o.ok ⟨.none, .r64, .w32, .r128⟩ && m.ok false false
  | .cpStore o m => o.ok ⟨.none, .r64, .w32, .r128⟩ && m.ok false true
  | .cpLin o m => o.ok ⟨.none, .r64, .r64, .w32⟩ && m.ok true false
  | .cpGath o m => o.ok ⟨.none, .r64, .w32, .r64⟩ && m.ok false false
  | .cpSeal o => o.ok noOps
  | .cpWait o => o.ok ⟨.none, .w32, .none, .none⟩
  | .engineStart _ | .engineDiscard _ | .engineComplete _ | .ownershipGrant _ => true
  | .gSet _ _ | .gClr _ => true
  | .rgInit o | .rgWait o _ => o.ok ⟨.none, .w32, .w32, .w32⟩
  | .rgArv o _ => o.ok ⟨.none, .w32, .w32, .none⟩
  | .gatherSplit _ => true
  | .wSpawn o _ | .wLaunch o _ | .wJoin o _ => o.ok ⟨.ov32, .r64, .w32, .w32⟩
  | .wDead o => o.ok ⟨.none, .w32, .w64, .none⟩
  | .wQstat o _ => o.ok ⟨.v32, .none, .w32, .none⟩
  | .trTrap o => o.ok ⟨.none, .w32, .none, .none⟩
  | .trBkpt o | .trRett o _ | .trHalt o => o.ok noOps
  | .trMfs o _ => o.ok ⟨.v64, .none, .none, .none⟩
  | .trMts o _ => o.ok ⟨.none, .w64, .none, .none⟩
  | .trTlbi o _ all => o.ok (if all then noOps else ⟨.none, .r64, .w32, .none⟩)
  | .shootdownComplete _ | .pageWalkRead _ => true
  | .ownRequest _ | .thruRead _ | .leaseRequest _ | .trackRequest _ | .applyWrite _ | .rdLocRequest _
  | .rdThruRequest _ | .pushedPartial _ | .writeBack _ | .recall _ | .invalidate _ | .recallAck _
  | .colourQuery _ | .dataReply _ | .writeAck _ | .l1Drop _ _ | .l2Evict _ | .proxyEvict _ | .weirTick _
  | .poolReset _ => true
  | .compactorMove _ _ _ | .lsCompaction _ | .tileCompaction _ _ => true
  | .dispatch _ | .queueLate _ _ | .blockRetire _ | .joinPush _ | .ordApply _ | .launchRecord _ _ _ _ | .accept _ _ _
  | .refuse _ _ _ _ | .start _ _ _ | .tailRegisterWrite _ _ _ => true
  | .preload _ _ | .switch _ _ | .unbind _ | .switchFlip _ | .contextResumable _ | .pcoresWrite _ _ _
  | .functionLevelReset _ => true
  | .bflip _ | .flipStart | .flipComplete | .memrd _ _ | .memrddata _ | .meminv _ | .memwr _ _ | .memwrptl _ _ _
  | .snpinv _ | .snpdata _ | .snpcur _ | .bisnpResponse _ _ | .hostRegCompletion _ _ _ | .hostRegTimeout _ => true
  | .flit _ _ _ _ | .linkDown _ | .timeExchange | .timeMessage _ _ _ | .lockTimeout | .rillWake _ => true
  | .powerIdleTimer | .wake | .powerExitComplete | .powerOn _ | .powerLoss | .loadfw | .stagefw | .attest | .reset
  | .commandComplete | .sensorUpdate _ => true
  | .strig _ | .stop _ _ | .relh _ _ | .dumpWritten _ _ | .blockRelaunch _ | .registerWrite _ _
  | .preloadComplete _ | .linkTrained _ _ | .diesReleased _ | .ecmpMatch _ | .placementZeroingDone _ _ => true

/-- A well-formed instruction. -/
abbrev WellFormed (i : Instr) : Prop := i.wf = true

/-- TR.RETT, TR.MFS, TR.MTS, TR.TLBI and TR.HALT are privileged, R29. -/
def Instr.privileged : Instr → Bool
  | .trRett _ _ | .trMfs _ _ | .trMts _ _ | .trTlbi _ _ _ | .trHalt _ => true
  | _ => false

/-- BR, CL, X and UB are the control transfers, R36. -/
def Instr.control : Instr → Bool
  | .brRel _ _ | .brInd _ | .clCall _ _ | .clCalli _ | .clRet _ | .xExit _ | .xYield _ | .xNap _ | .ubBra _ _
  | .ubLoop _ _ => true
  | _ => false

end Sys2Proof
end

