-- ==== Sys2Proof/Decode.lean ====
section
/-! DEFINITION. From words to instructions and back (02_encoding R17 to R38, and the encoding of each entry). The
decoder is total; what it refuses it names. The encoder below it is written from the same tables. -/

namespace Sys2Proof

/-! ## Fields -/

/-- The fields of a lane-set instruction, R19, R20; without a modifier word they hold the defaults of R20. -/
structure LaneRaw where
  fam : BitVec 6
  d : BitVec 8
  a : BitVec 8
  b : BitVec 8
  c : BitVec 8
  neg : Bool
  pr : BitVec 3
  fn : BitVec 8
  mod : BitVec 12
  lit : Word
  deriving DecidableEq, Repr

/-- The fields of a uniform-set instruction, R32. -/
structure UniRaw where
  ufam : BitVec 5
  d : BitVec 6
  a : BitVec 6
  b : BitVec 6
  ufn : BitVec 7
  l : Bool
  lit : Word
  deriving DecidableEq, Repr

/-- Is this lane-set word one of the branch layout of R30, where no literal is implied? -/
def branchLayout (fam : BitVec 6) (fn : BitVec 8) : Bool := (fam == 0x10 || fam == 0x11) && fn == 0

/-- FN of the modifier word. -/
def fnOf (m : Word) : BitVec 8 := m.extractLsb' 12 8

/-- How many words an instruction has, R17 and the procedure that ends chapter 02. `w1` is the word after the first. -/
def wordCount (w0 w1 : Word) : Nat :=
  if w0.getLsbD 31 then 1 + (w0.getLsbD 0).toNat
  else
    let m := w0.getLsbD 0
    let fn : BitVec 8 := if m then fnOf w1 else 0
    let lit := !branchLayout (w0.extractLsb' 25 6) fn &&
      (w0.extractLsb' 9 8 == 254 || w0.extractLsb' 1 8 == 254 || (m && w1.extractLsb' 24 8 == 254))
    1 + m.toNat + lit.toNat

/-- The fields of a lane-set instruction from its words. -/
def LaneRaw.ofWords (w0 w1 w2 : Word) : LaneRaw :=
  let m := w0.getLsbD 0
  { fam := w0.extractLsb' 25 6, d := w0.extractLsb' 17 8, a := w0.extractLsb' 9 8, b := w0.extractLsb' 1 8,
    c := if m then w1.extractLsb' 24 8 else 255, neg := m && w1.getLsbD 23,
    pr := if m then w1.extractLsb' 20 3 else 7, fn := if m then fnOf w1 else 0,
    mod := if m then w1.extractLsb' 0 12 else 0, lit := if m then w2 else w1 }

def UniRaw.ofWords (w0 w1 : Word) : UniRaw :=
  { ufam := w0.extractLsb' 26 5, d := w0.extractLsb' 20 6, a := w0.extractLsb' 14 6, b := w0.extractLsb' 8 6,
    ufn := w0.extractLsb' 1 7, l := w0.getLsbD 0, lit := w1 }

/-- A lane-set source field, R22. -/
def decSrc (f : BitVec 8) (lit : Word) : Src :=
  if h : f.toNat < 192 then .v ⟨f.toNat, h⟩
  else if h : f.toNat - 192 < 48 then .s ⟨f.toNat - 192, h⟩
  else if h : f.toNat - 240 < 14 then .k ⟨f.toNat - 240, h⟩
  else if f.toNat = 254 then .lit lit
  else .none

/-- A lane-set destination field, R26; 248 to 254 are reserved. -/
def decDst (f : BitVec 8) : Option Dst :=
  if h : f.toNat < 192 then some (.v ⟨f.toNat, h⟩)
  else if h : f.toNat - 192 < 48 then some (.s ⟨f.toNat - 192, h⟩)
  else if h : f.toNat - 240 < 8 then some (.p ⟨f.toNat - 240, h⟩)
  else if f.toNat = 255 then some .none
  else none

/-- A uniform operand field, R33; 61 and 62 are reserved. -/
def decUSrc (f : BitVec 6) (lit : Word) : Option USrc :=
  if h : f.toNat < 48 then some (.s ⟨f.toNat, h⟩)
  else if h : f.toNat - 48 < 8 then some (.q ⟨f.toNat - 48, h⟩)
  else if h : f.toNat - 56 < 4 then some (.k ⟨f.toNat - 56, h⟩)
  else if f.toNat = 60 then some (.lit lit)
  else if f.toNat = 63 then some .none
  else none

/-- A predicate number from its three bits. -/
def decP (f : BitVec 3) : Fin 8 := f.toFin

def LaneRaw.pred (r : LaneRaw) : Pred := ⟨decP r.pr, r.neg⟩

def LaneRaw.ops (r : LaneRaw) : Option Ops :=
  (decDst r.d).map fun d => ⟨d, decSrc r.a r.lit, decSrc r.b r.lit, decSrc r.c r.lit, r.pred⟩

/-- The operands of a word that defines no bit of MOD outside `mask`: the others are RZ (R35). -/
def LaneRaw.opsIn (r : LaneRaw) (mask : BitVec 12) : Option Ops :=
  if r.mod &&& ~~~mask = 0 then r.ops else none

/-- The operands of a uniform word; L must be 1 exactly when a source holds 60 (R33). -/
def UniRaw.ops (r : UniRaw) : Option UOps :=
  if r.l = (r.a == 60 || r.b == 60) then do
    let d ← decUSrc r.d r.lit
    let a ← decUSrc r.a r.lit
    let b ← decUSrc r.b r.lit
    pure ⟨d, a, b⟩
  else none

/-! ## Modifier codes: each list holds a field's values in the order of its codes -/

def Part.codes : List Part := [.lo, .hi, .wide]
def ICond.codes : List ICond := [.eq, .ne, .lt, .le, .gt, .ge, .ltu, .leu, .gtu, .geu]
def FCond.codes : List FCond :=
  [.eq, .ne, .lt, .le, .gt, .ge, .equ, .neu, .ltu, .leu, .gtu, .geu, .num, .nan]
def CombOp.codes : List CombOp := [.none, .and, .or, .xor]
def RM.codes : List RM := [.rn, .rz, .ru, .rd, .sr]
def ITy.codes : List ITy := [.s32, .u32, .s64, .u64, .s16, .u16, .s8, .u8]
def FTy.codes : List FTy := [.f32, .f64, .f16, .bf16]
def Fmt.codes : List Fmt := [.e4m3, .e5m2, .e3m2, .e2m3, .e2m1, .i8, .i4, .f16, .bf16]
def VoteMode.codes : List VoteMode := [.all, .any, .uni]
def ShflMode.codes : List ShflMode := [.idx, .up, .dn, .bfly]
/-- Code 0 of Q.SWAP's direction is reserved: the codes start at 1. -/
def SwapDir.codes : List SwapDir := [.h, .v, .diag]
def WrOp.codes : List WrOp := [.add, .min, .max, .minu, .maxu, .and, .or, .xor, .fadd, .fmin, .fmax]
def Pol.codes : List Pol := [.own, .thru, .lease, .track]
def Scope.codes : List Scope := [.core, .die, .package, .fabric, .system]
def LdW.codes : List LdW := [.u8, .s8, .u16, .s16, .b32, .b64, .b128]
def StW.codes : List StW := [.b8, .b16, .b32, .b64, .b128]
def LsAtOp.codes : List LsAtOp := [.add, .min, .max, .and, .or, .xor, .xchg, .cas, .fadd, .minu, .maxu]
def Vs.codes : List Vs := [.v64, .lo, .hi]
def AccOp.codes : List AccOp := [.add, .min, .max]
def AccTy.codes : List AccTy := [.i32, .i64, .f32]
def AccFmt.codes : List AccFmt := [.f32, .f16, .bf16]
def QSel.codes : List QSel := [.pend, .miss, .eprio, .faults, .last, .dlo, .dhi]

/-- SREG numbers, R111. -/
def SReg.code : SReg → Nat
  | .lane => 0 | .warp => 1 | .tid => 2 | .block => 3 | .bx => 4 | .by => 5 | .cluster => 6 | .cblock => 7
  | .nthread => 8 | .nblock => 9 | .rank => 10 | .nrank => 11 | .chip => 12 | .die => 13 | .core => 14
  | .subcore => 15 | .live => 16 | .helper => 17 | .emask => 18 | .depth => 19 | .held => 20
  | .time => 0x20 | .clock => 0x21 | .gwct => 0x22 | .rsp => 0x23

def decSReg : Nat → Option SReg
  | 0 => some .lane | 1 => some .warp | 2 => some .tid | 3 => some .block | 4 => some .bx | 5 => some .by
  | 6 => some .cluster | 7 => some .cblock | 8 => some .nthread | 9 => some .nblock | 10 => some .rank
  | 11 => some .nrank | 12 => some .chip | 13 => some .die | 14 => some .core | 15 => some .subcore
  | 16 => some .live | 17 => some .helper | 18 => some .emask | 19 => some .depth | 20 => some .held
  | 0x20 => some .time | 0x21 => some .clock | 0x22 => some .gwct | 0x23 => some .rsp
  | _ => none

/-- SYS numbers, R337. -/
def SysReg.code : SysReg → Nat
  | .tvb => 0 | .tcs => 1 | .tpc => 2 | .tad => 3 | .tlm => 4 | .tch => 5
  | .tsv n => 8 + n.val
  | .leasens => 0x10 | .dpri => 0x11 | .ctxid => 0x12 | .mxc => 0x20 | .slb => 0x21 | .sls => 0x22
  | .weir n => 0x30 + n.val

def decSys (n : Nat) : Option SysReg :=
  if h : 8 ≤ n ∧ n - 8 < 8 then some (.tsv ⟨n - 8, h.2⟩)
  else if h : 0x30 ≤ n ∧ n - 0x30 < 16 then some (.weir ⟨n - 0x30, h.2⟩)
  else match n with
    | 0 => some .tvb | 1 => some .tcs | 2 => some .tpc | 3 => some .tad | 4 => some .tlm | 5 => some .tch
    | 0x10 => some .leasens | 0x11 => some .dpri | 0x12 => some .ctxid
    | 0x20 => some .mxc | 0x21 => some .slb | 0x22 => some .sls
    | _ => none

/-! ## MOD layouts -/

/-- Bits `lo` to `lo + n - 1` of MOD as a number. -/
def fld (m : BitVec 12) (lo n : Nat) : Nat := (m.extractLsb' lo n).toNat

def p3 (m : BitVec 12) (lo : Nat) : Fin 8 := (m.extractLsb' lo 3 : BitVec 3).toFin

def tileOf (m : BitVec 12) : Fin 64 := (m.extractLsb' 0 6 : BitVec 6).toFin

/-- R133. Bits [11:10] are RZ (see `LaneRaw.opsIn`). -/
def IMod.dec (m : BitVec 12) : IMod :=
  ⟨m.getLsbD 0, m.getLsbD 1, m.getLsbD 2, m.getLsbD 3, p3 m 4, p3 m 7⟩

/-- R132. -/
def FMod.dec (m : BitVec 12) : Option FMod :=
  (RM.codes[fld m 0 3]?).map fun rm =>
    ⟨rm, m.getLsbD 3, m.getLsbD 4, m.getLsbD 5, m.getLsbD 6, m.getLsbD 7, m.getLsbD 8⟩

/-- R138. -/
def Comb.dec (m : BitVec 12) : Option Comb :=
  (CombOp.codes[fld m 8 2]?).map fun op => ⟨op, p3 m 5, m.getLsbD 10⟩

/-- R141. -/
def CvMod.dec (m : BitVec 12) : Option CvMod :=
  (RM.codes[fld m 0 3]?).map fun rm => ⟨rm, m.getLsbD 3, m.getLsbD 4⟩

/-- R146: [0] UA, [1] UB, [2] SC, [3] FZ, [4] SAT. -/
def DotMod.dec (m : BitVec 12) : DotMod :=
  ⟨m.getLsbD 0, m.getLsbD 1, m.getLsbD 2, m.getLsbD 3, m.getLsbD 4⟩

/-- R147. K stands in [10:9]. -/
def PkCvtMod.dec (m : BitVec 12) : Option PkCvtMod := do
  let fmt ← Fmt.codes[fld m 0 4]?
  let rm ← RM.codes[fld m 4 3]?
  pure ⟨fmt, rm, m.getLsbD 7, m.getLsbD 8, (m.extractLsb' 9 2 : BitVec 2).toFin⟩

/-- R232, LD and ST. -/
def GMod.dec (m : BitVec 12) : Option GMod :=
  (Pol.codes[fld m 0 2]?).map fun p => ⟨p, m.getLsbD 11⟩

/-- R232, AT. -/
def AtMod.dec (m : BitVec 12) : Option AtMod :=
  (Pol.codes[fld m 0 2]?).map fun p => ⟨p, m.getLsbD 2, m.getLsbD 3, m.getLsbD 11⟩

/-- R232, RD; POL 2 and 3 are reserved. -/
def RdMod.dec (m : BitVec 12) : Option RdMod :=
  if m.getLsbD 1 then none
  else some ⟨m.getLsbD 0, m.getLsbD 2, m.getLsbD 3, m.getLsbD 4, m.getLsbD 11⟩

/-- R287. GS must be 0 when GD = 0, and RING 0 when ARV = 0. -/
def CpMod.dec (m : BitVec 12) : Option CpMod :=
  if !m.getLsbD 3 && p3 m 0 != 0 then none
  else if !m.getLsbD 4 && p3 m 5 != 0 then none
  else some ⟨if m.getLsbD 3 then some (p3 m 0) else none, if m.getLsbD 4 then some (p3 m 5) else none,
    m.getLsbD 8, m.getLsbD 9, m.getLsbD 11⟩

/-- POL of FN.PRE, R239. -/
def decPrePol : Nat → Option PrePol
  | 0 => some .own | 2 => some .lease | 3 => some .track
  | _ => none

/-! ## The lane-set families, R28 -/

def LaneRaw.decI (r : LaneRaw) : Option Instr := do
  let o ← r.opsIn 0x3FF
  let m := IMod.dec r.mod
  match r.fn.toNat with
  | 0 => some (.iAdd o m) | 1 => some (.iSub o m) | 2 => some (.iAddc o m) | 3 => some (.iSubb o m)
  | 4 => some (.iNeg o m) | 5 => some (.iAbs o m) | 6 => some (.iMin o m) | 7 => some (.iMax o m)
  | 8 => some (.iSad o m)
  | _ => none

def LaneRaw.decIM (r : LaneRaw) : Option Instr := do
  let o ← r.opsIn 0x007
  let u := r.mod.getLsbD 2
  let part ← Part.codes[fld r.mod 0 2]?
  match r.fn.toNat with
  | 0 => some (.imMul o part u)
  | 1 => some (.imMad o part u)
  | 2 => if part = .lo then some (.imMadw o u) else none
  | _ => none

def LaneRaw.decLog (r : LaneRaw) : Option Instr := do
  let o ← r.opsIn 0x001
  let w := r.mod.getLsbD 0
  match r.fn.toNat with
  | 0 => some (.logAnd o w) | 1 => some (.logOr o w) | 2 => some (.logXor o w) | 3 => some (.logAndn o w)
  | 4 => some (.logNot o w)
  | _ => none

def LaneRaw.decSh (r : LaneRaw) : Option Instr :=
  match r.fn.toNat with
  | 0 => (r.opsIn 0x001).map (.shShl · (r.mod.getLsbD 0))
  | 1 => (r.opsIn 0x003).map (.shShr · (r.mod.getLsbD 0) (r.mod.getLsbD 1))
  | 2 => (r.opsIn 0x001).map (.shRot · (r.mod.getLsbD 0))
  | 3 => (r.opsIn 0x004).map (.shFun · (r.mod.getLsbD 2))
  | _ => none

def LaneRaw.decBf (r : LaneRaw) : Option Instr :=
  match r.fn.toNat with
  | 0 => (r.opsIn 0x001).map (.bfExt · (r.mod.getLsbD 0))
  | 1 => (r.opsIn 0).map .bfIns
  | 2 => (r.opsIn 0).map .bfPopc
  | 3 => (r.opsIn 0).map .bfClz
  | 4 => (r.opsIn 0).map .bfBrev
  | 5 => (r.opsIn 0).map .bfFfs
  | _ => none

def LaneRaw.decCmp (r : LaneRaw) : Option Instr := do
  let k ← Comb.dec r.mod
  match r.fn.toNat with
  | 0 => do
    let o ← r.opsIn 0x7FF
    let c ← ICond.codes[fld r.mod 0 4]?
    pure (.cmpI o c (r.mod.getLsbD 4) k)
  | 1 => do
    let o ← r.opsIn 0xFEF
    let c ← FCond.codes[fld r.mod 0 4]?
    pure (.cmpF o c (r.mod.getLsbD 11) k)
  | 2 => do
    let o ← r.opsIn 0xFEF
    let c ← FCond.codes[fld r.mod 0 4]?
    pure (.cmpD o c (r.mod.getLsbD 11) k)
  | _ => none

def LaneRaw.decPr (r : LaneRaw) : Option Instr :=
  match r.fn.toNat with
  | 0 => (r.opsIn 0x1FF).map (.prLog · (p3 r.mod 0) (p3 r.mod 3) (p3 r.mod 6))
  | _ => none

def LaneRaw.decMv (r : LaneRaw) : Option Instr :=
  match r.fn.toNat with
  | 0 => (r.opsIn 0x001).map (.mvMov · (r.mod.getLsbD 0))
  | 1 => (r.opsIn 0x01F).map (.mvSel · (p3 r.mod 0) (r.mod.getLsbD 3) (r.mod.getLsbD 4))
  | 2 => (r.opsIn 0).map .mvPrm
  | 3 => (r.opsIn 0x00F).map (.mvLea · (p3 r.mod 0) (r.mod.getLsbD 3))
  | _ => none

def LaneRaw.decCv (r : LaneRaw) : Option Instr := do
  let m ← CvMod.dec r.mod
  let st := fld r.mod 5 3
  let dt := fld r.mod 8 3
  match r.fn.toNat with
  | 0 => do
    let o ← r.opsIn 0x7FF
    pure (.cvI2f o m (← ITy.codes[st]?) (← FTy.codes[dt]?))
  | 1 => do
    let o ← r.opsIn 0x7EF
    pure (.cvF2i o m (← FTy.codes[st]?) (← ITy.codes[dt]?))
  | 2 => do
    let o ← r.opsIn 0x7FF
    pure (.cvF2f o m (← FTy.codes[st]?) (← FTy.codes[dt]?))
  | 3 => do
    let o ← r.opsIn 0x7F0
    pure (.cvI2i o (r.mod.getLsbD 4) (← ITy.codes[st]?) (← ITy.codes[dt]?))
  | _ => none

def LaneRaw.decF (r : LaneRaw) : Option Instr :=
  match r.fn.toNat with
  | 6 => (r.opsIn 0).map .fCls
  | fn => do
    let o ← r.opsIn 0x0FF
    let m ← FMod.dec r.mod
    match fn with
    | 0 => some (.fAdd o m) | 1 => some (.fSub o m) | 2 => some (.fMul o m) | 3 => some (.fFma o m)
    | 4 => some (.fMin o m) | 5 => some (.fMax o m)
    | _ => none

def LaneRaw.decFh (r : LaneRaw) : Option Instr := do
  let o ← r.opsIn 0x1FF
  let m ← FMod.dec r.mod
  match r.fn.toNat with
  | 0 => some (.fhAdd2 o m) | 1 => some (.fhMul2 o m) | 2 => some (.fhFma2 o m) | 3 => some (.fhMin2 o m)
  | 4 => some (.fhMax2 o m)
  | _ => none

def LaneRaw.decD (r : LaneRaw) : Option Instr := do
  let o ← r.opsIn 0x0FF
  let m ← FMod.dec r.mod
  match r.fn.toNat with
  | 0 => some (.dAdd o m) | 1 => some (.dMul o m) | 2 => some (.dFma o m) | 3 => some (.dMin o m)
  | 4 => some (.dMax o m)
  | _ => none

def LaneRaw.decSf (r : LaneRaw) : Option Instr := do
  let o ← r.opsIn 0x008
  let z := r.mod.getLsbD 3
  match r.fn.toNat with
  | 0 => some (.sfRcp o z) | 1 => some (.sfRsq o z) | 2 => some (.sfSqrt o z) | 3 => some (.sfExp2 o z)
  | 4 => some (.sfLog2 o z) | 5 => some (.sfSin o z) | 6 => some (.sfCos o z) | 7 => some (.sfTanh o z)
  | _ => none

def LaneRaw.decDot (r : LaneRaw) : Option Instr := do
  let o ← r.opsIn 0x01F
  let m := DotMod.dec r.mod
  match r.fn.toNat with
  | 0 => some (.dotI8x4 o m) | 1 => some (.dotI4x8 o m) | 2 => some (.dotE4m3x4 o m)
  | 3 => some (.dotE5m2x4 o m) | 4 => some (.dotE2m1x8 o m)
  | _ => none

def LaneRaw.decPk (r : LaneRaw) : Option Instr :=
  match r.fn.toNat with
  | 0 => do
    let o ← r.opsIn 0x7FF
    pure (.pkCvt o (← PkCvtMod.dec r.mod))
  | 1 => do
    let o ← r.opsIn 0x08F
    pure (.pkUnp o (← Fmt.codes[fld r.mod 0 4]?) (r.mod.getLsbD 7))
  | 2 => do
    let o ← r.opsIn 0x00F
    pure (.pkScl o (← Fmt.codes[fld r.mod 0 4]?))
  | 3 => (r.opsIn 0x001).map (.pkPl6 · (r.mod.getLsbD 0))
  | _ => none

/-- OFF of the branch layout, R30: the bits of D, A and B. -/
def LaneRaw.off (r : LaneRaw) : BitVec 24 := r.d ++ r.a ++ r.b

def LaneRaw.decBr (r : LaneRaw) : Option Instr :=
  match r.fn.toNat with
  | 0 => if r.c = 255 ∧ r.mod = 0 then some (.brRel r.off r.pred) else none
  | 1 => (r.opsIn 0).map .brInd
  | _ => none

def LaneRaw.decCl (r : LaneRaw) : Option Instr :=
  match r.fn.toNat with
  | 0 => if r.c = 255 ∧ r.mod = 0 then some (.clCall r.off r.pred) else none
  | 1 => (r.opsIn 0).map .clCalli
  | 2 => (r.opsIn 0).map .clRet
  | _ => none

def LaneRaw.decX (r : LaneRaw) : Option Instr := do
  let o ← r.opsIn 0
  match r.fn.toNat with
  | 0 => some (.xExit o) | 1 => some (.xYield o) | 2 => some (.xNap o)
  | _ => none

def LaneRaw.decWv (r : LaneRaw) : Option Instr :=
  match r.fn.toNat with
  | 0 => do
    let o ← r.opsIn 0x03F
    pure (.wvVote o (p3 r.mod 0) (r.mod.getLsbD 3) (← VoteMode.codes[fld r.mod 4 2]?))
  | 1 => (r.opsIn 0x00F).map (.wvBallot · (p3 r.mod 0) (r.mod.getLsbD 3))
  | 2 => (r.opsIn 0x010).map (.wvMatch · (r.mod.getLsbD 4))
  | 3 => (r.opsIn 0).map .wvElect
  | _ => none

def LaneRaw.decXl (r : LaneRaw) : Option Instr :=
  match r.fn.toNat with
  | 0 => do
    let o ← r.opsIn 0x007
    pure (.xlShfl o (← ShflMode.codes[fld r.mod 0 2]?) (r.mod.getLsbD 2))
  | 1 => (r.opsIn 0x001).map (.xlRdl · (r.mod.getLsbD 0))
  | _ => none

def LaneRaw.decQ (r : LaneRaw) : Option Instr :=
  match r.fn.toNat with
  | 0 => do
    let o ← r.opsIn 0x003
    if fld r.mod 0 2 = 0 then none
    else pure (.qSwap o (← SwapDir.codes[fld r.mod 0 2 - 1]?))
  | 1 => (r.opsIn 0).map .qBcast
  | _ => none

def LaneRaw.decWr (r : LaneRaw) : Option Instr := do
  let op ← WrOp.codes[fld r.mod 0 4]?
  match r.fn.toNat with
  | 0 => (r.opsIn 0x00F).map (.wrRed · op)
  | 1 => (r.opsIn 0x01F).map (.wrScan · op (r.mod.getLsbD 4))
  | _ => none

def LaneRaw.decSr (r : LaneRaw) : Option Instr :=
  match r.fn.toNat with
  | 0 => do
    let o ← r.opsIn 0x0FF
    pure (.srRead o (← decSReg (fld r.mod 0 8)))
  | _ => none

def LaneRaw.decLd (r : LaneRaw) : Option Instr := do
  let o ← r.opsIn 0x803
  let m ← GMod.dec r.mod
  match r.fn.toNat with
  | 0 => some (.ldU8 o m) | 1 => some (.ldS8 o m) | 2 => some (.ldU16 o m) | 3 => some (.ldS16 o m)
  | 4 => some (.ldB32 o m) | 5 => some (.ldB64 o m) | 6 => some (.ldB128 o m)
  | _ => none

def LaneRaw.decSt (r : LaneRaw) : Option Instr := do
  let o ← r.opsIn 0x803
  let m ← GMod.dec r.mod
  match r.fn.toNat with
  | 0 => some (.stB8 o m) | 1 => some (.stB16 o m) | 2 => some (.stB32 o m) | 3 => some (.stB64 o m)
  | 4 => some (.stB128 o m)
  | _ => none

def LaneRaw.decAt (r : LaneRaw) : Option Instr := do
  let o ← r.opsIn 0x80F
  let m ← AtMod.dec r.mod
  match r.fn.toNat with
  | 0 => some (.atAdd o m) | 1 => some (.atMin o m) | 2 => some (.atMax o m) | 3 => some (.atAnd o m)
  | 4 => some (.atOr o m) | 5 => some (.atXor o m) | 6 => some (.atXchg o m) | 7 => some (.atCas o m)
  | 8 => some (.atFadd o m)
  | _ => none

def LaneRaw.decRd (r : LaneRaw) : Option Instr := do
  let o ← r.opsIn 0x81F
  let m ← RdMod.dec r.mod
  match r.fn.toNat with
  | 0 => some (.rdAdd o m) | 1 => some (.rdMin o m) | 2 => some (.rdMax o m) | 3 => some (.rdAnd o m)
  | 4 => some (.rdOr o m) | 5 => some (.rdXor o m) | 6 => some (.rdFadd o m)
  | _ => none

def LaneRaw.decFn (r : LaneRaw) : Option Instr :=
  match r.fn.toNat with
  | 0 => do
    let o ← r.opsIn 0x007
    pure (.fnFence o (← Scope.codes[fld r.mod 0 3]?))
  | 1 => (r.opsIn 0x801).map (.fnInv · (r.mod.getLsbD 0) (r.mod.getLsbD 11))
  | 2 => (r.opsIn 0x800).map (.fnWb · (r.mod.getLsbD 11))
  | 3 => do
    let o ← r.opsIn 0x803
    pure (.fnPre o (← decPrePol (fld r.mod 0 2)) (r.mod.getLsbD 11))
  | _ => none

def LaneRaw.decLs (r : LaneRaw) : Option Instr :=
  match r.fn.toNat with
  | 0 => do
    let o ← r.opsIn 0x807
    pure (.lsLd o (← LdW.codes[fld r.mod 0 3]?) (r.mod.getLsbD 11))
  | 1 => do
    let o ← r.opsIn 0x807
    pure (.lsSt o (← StW.codes[fld r.mod 0 3]?) (r.mod.getLsbD 11))
  | 2 => do
    let o ← r.opsIn 0x81F
    pure (.lsAt o (← LsAtOp.codes[fld r.mod 0 4]?) (r.mod.getLsbD 4) (r.mod.getLsbD 11))
  | _ => none

def LaneRaw.decH (r : LaneRaw) : Option Instr :=
  match r.fn.toNat with
  | 0 => do
    let o ← r.opsIn 0x803
    pure (.hIns o (← Vs.codes[fld r.mod 0 2]?) (r.mod.getLsbD 11))
  | 1 => (r.opsIn 0x800).map (.hPrb · (r.mod.getLsbD 11))
  | 2 => (r.opsIn 0x800).map (.hDel · (r.mod.getLsbD 11))
  | 3 => do
    let o ← r.opsIn 0x83F
    pure (.hAcc o (← Vs.codes[fld r.mod 0 2]?) (← AccOp.codes[fld r.mod 2 2]?) (← AccTy.codes[fld r.mod 4 2]?)
      (r.mod.getLsbD 11))
  | 4 => (r.opsIn 0x840).map (.hDrn · (r.mod.getLsbD 6) (r.mod.getLsbD 11))
  | 5 => (r.opsIn 0).map .hSta
  | _ => none

def LaneRaw.decM (r : LaneRaw) : Option Instr :=
  match r.fn.toNat with
  | 0 => (r.opsIn 0x03F).map (.mMma · (tileOf r.mod))
  | 1 => (r.opsIn 0x03F).map (.mSmma · (tileOf r.mod))
  | 2 => do
    let o ← r.opsIn 0x00F
    pure (.mSpc o (← Fmt.codes[fld r.mod 0 4]?))
  | 3 => (r.opsIn 0x03F).map (.mZero · (tileOf r.mod))
  | 4 => do
    let o ← r.opsIn 0xFFF
    let rm ← RM.codes[fld r.mod 7 3]?
    pure (.mScl o (tileOf r.mod) ⟨r.mod.getLsbD 6, rm, r.mod.getLsbD 10, r.mod.getLsbD 11⟩)
  | _ => none

def LaneRaw.decAcc (r : LaneRaw) : Option Instr :=
  match r.fn.toNat with
  | 0 => do
    let o ← r.opsIn 0x8FF
    pure (.accLd o (tileOf r.mod) (← AccFmt.codes[fld r.mod 6 2]?) (r.mod.getLsbD 11))
  | 1 => do
    let o ← r.opsIn 0xFFF
    pure (.accSt o (tileOf r.mod) (← AccFmt.codes[fld r.mod 6 2]?) (← RM.codes[fld r.mod 8 3]?)
      (r.mod.getLsbD 11))
  | 2 => (r.opsIn 0x07F).map (.accRd · (tileOf r.mod) (r.mod.getLsbD 6))
  | 3 => (r.opsIn 0x0FF).map (.accWr · (tileOf r.mod) (r.mod.getLsbD 6) (r.mod.getLsbD 7))
  | _ => none

def LaneRaw.decC (r : LaneRaw) : Option Instr := do
  let o ← r.opsIn 0
  match r.fn.toNat with
  | 0 => some (.cGet o) | 1 => some (.cWait o) | 2 => some (.cNtf o) | 3 => some (.cNta o) | 4 => some (.cHeld o)
  | _ => none

def LaneRaw.decCp (r : LaneRaw) : Option Instr :=
  match r.fn.toNat with
  | 4 => (r.opsIn 0).map .cpSeal
  | 5 => (r.opsIn 0).map .cpWait
  | fn => do
    let o ← r.opsIn 0xBFF
    let m ← CpMod.dec r.mod
    match fn with
    | 0 => some (.cpTile o m) | 1 => some (.cpStore o m) | 2 => some (.cpLin o m) | 3 => some (.cpGath o m)
    | _ => none

def LaneRaw.decRg (r : LaneRaw) : Option Instr :=
  let bar : Bar := if r.mod.getLsbD 0 then .empty else .full
  match r.fn.toNat with
  | 0 => (r.opsIn 0).map .rgInit
  | 1 => (r.opsIn 0x001).map (.rgArv · bar)
  | 2 => (r.opsIn 0x001).map (.rgWait · bar)
  | _ => none

def LaneRaw.decB (r : LaneRaw) : Option Instr :=
  match r.fn.toNat with
  | 0 => (r.opsIn 0x00F).map (.bBar · (r.mod.extractLsb' 0 4 : BitVec 4).toFin)
  | 1 => (r.opsIn 0x003).map (.bCbar · (r.mod.extractLsb' 0 2 : BitVec 2).toFin)
  | _ => none

def LaneRaw.decW (r : LaneRaw) : Option Instr :=
  match r.fn.toNat with
  | 0 => (r.opsIn 0x800).map (.wSpawn · (r.mod.getLsbD 11))
  | 1 => (r.opsIn 0x800).map (.wLaunch · (r.mod.getLsbD 11))
  | 2 => (r.opsIn 0x800).map (.wJoin · (r.mod.getLsbD 11))
  | 3 => (r.opsIn 0).map .wDead
  | 4 => do
    let o ← r.opsIn 0x007
    pure (.wQstat o (← QSel.codes[fld r.mod 0 3]?))
  | _ => none

def LaneRaw.decTr (r : LaneRaw) : Option Instr :=
  match r.fn.toNat with
  | 0 => (r.opsIn 0).map .trTrap
  | 1 => (r.opsIn 0x001).map (.trRett · (r.mod.getLsbD 0))
  | 2 => do
    let o ← r.opsIn 0x0FF
    pure (.trMfs o (← decSys (fld r.mod 0 8)))
  | 3 => do
    let o ← r.opsIn 0x0FF
    pure (.trMts o (← decSys (fld r.mod 0 8)))
  | 4 => (r.opsIn 0x003).map (.trTlbi · (r.mod.getLsbD 0) (r.mod.getLsbD 1))
  | 5 => (r.opsIn 0).map .trBkpt
  | 6 => (r.opsIn 0).map .trHalt
  | _ => none

/-- The form of a lane-set word by family and function, R28; none where either is reserved. -/
def LaneRaw.form (r : LaneRaw) : Option Instr :=
  match r.fam.toNat with
  | 0x01 => r.decI | 0x02 => r.decIM | 0x03 => r.decLog | 0x04 => r.decSh | 0x05 => r.decBf | 0x06 => r.decCmp
  | 0x07 => r.decPr | 0x08 => r.decMv | 0x09 => r.decCv | 0x0A => r.decF | 0x0B => r.decFh | 0x0C => r.decD
  | 0x0D => r.decSf | 0x0E => r.decDot | 0x0F => r.decPk | 0x10 => r.decBr | 0x11 => r.decCl | 0x12 => r.decX
  | 0x13 => r.decWv | 0x14 => r.decXl | 0x15 => r.decQ | 0x16 => r.decWr | 0x17 => r.decSr | 0x18 => r.decLd
  | 0x19 => r.decSt | 0x1A => r.decAt | 0x1B => r.decRd | 0x1C => r.decFn | 0x1D => r.decLs | 0x1E => r.decH
  | 0x1F => r.decM | 0x20 => r.decAcc | 0x21 => r.decC | 0x22 => r.decCp | 0x23 => r.decRg | 0x24 => r.decB
  | 0x25 => r.decW | 0x26 => r.decTr
  | _ => none

/-! ## The uniform-set families, R34 -/

def UniRaw.decU (r : UniRaw) : Option Instr := do
  let o ← r.ops
  match r.ufn.toNat with
  | 0x00 => some (.uAdd o) | 0x01 => some (.uSub o) | 0x02 => some (.uMul o)
  | 0x08 => some (.uLogAnd o) | 0x09 => some (.uLogOr o) | 0x0A => some (.uLogXor o) | 0x0B => some (.uLogAndn o)
  | 0x10 => some (.uShfShl o) | 0x11 => some (.uShfShr o) | 0x12 => some (.uShfSar o) | 0x13 => some (.uShfRot o)
  | 0x18 => some (.uCmpEq o) | 0x19 => some (.uCmpNe o) | 0x1A => some (.uCmpLt o) | 0x1B => some (.uCmpLe o)
  | 0x1C => some (.uCmpGt o) | 0x1D => some (.uCmpGe o) | 0x1E => some (.uCmpLtu o) | 0x1F => some (.uCmpGeu o)
  | 0x20 => some (.uMov o)
  | n => if h : 0x28 ≤ n ∧ n - 0x28 < 8 then some (.uSel o ⟨n - 0x28, h.2⟩) else none

/-- OFF of a uniform branch, R34: [19:8]. -/
def UniRaw.off (r : UniRaw) : Option UOff :=
  let o : BitVec 12 := r.a ++ r.b
  if r.l then (if o = 0 then some (.long r.lit) else none) else some (.short o)

def UniRaw.decUb (r : UniRaw) : Option Instr := do
  let off ← r.off
  match r.ufn.toNat with
  | 0 =>
    if h : 48 ≤ r.d.toNat ∧ r.d.toNat - 48 < 8 then some (.ubBra (some ⟨r.d.toNat - 48, h.2⟩) off)
    else if r.d.toNat = 63 then some (.ubBra none off)
    else none
  | 1 => if h : r.d.toNat < 48 then some (.ubLoop ⟨r.d.toNat, h⟩ off) else none
  | _ => none

/-- G.SET and G.CLR, R291: D is the slot number itself. -/
def UniRaw.decG (r : UniRaw) : Option Instr :=
  if h : r.d.toNat < 8 ∧ r.b = 63 ∧ r.l = false then
    match r.ufn.toNat with
    | 0 =>
      if g : 48 ≤ r.a.toNat ∧ r.a.toNat - 48 < 8 then some (.gSet ⟨r.d.toNat, h.1⟩ (.q ⟨r.a.toNat - 48, g.2⟩))
      else if r.a.toNat = 56 then some (.gSet ⟨r.d.toNat, h.1⟩ .fls)
      else if r.a.toNat = 57 then some (.gSet ⟨r.d.toNat, h.1⟩ .tru)
      else none
    | 1 => if r.a.toNat = 63 then some (.gClr ⟨r.d.toNat, h.1⟩) else none
    | _ => none
  else none

/-- The form of a uniform word that is no header. -/
def UniRaw.form (r : UniRaw) : Option Instr :=
  match r.ufam.toNat with
  | 0x01 => r.decU
  | 0x02 => r.decUb
  | 0x03 => if r.ufn = 0 then r.ops.map .uldC else none
  | 0x04 =>
    match r.ufn.toNat with
    | 0 => r.ops.map .hcClaim
    | 1 => if r.d = 63 ∧ r.a = 63 ∧ r.b = 63 ∧ r.l = false then some .hcFree else none
    | _ => none
  | 0x05 => if r.ufn = 0 then r.ops.map .ucSet else none
  | 0x06 => r.decG
  | _ => none

/-! ## Instructions -/

/-- The instruction that three words give, whatever follows it: none where R35 makes them ILLEGAL (the checks that
depend on the warp's allocation are made at issue). -/
def decodeWords (w0 w1 w2 : Word) : Option Instr :=
  ((if w0.getLsbD 31 then (UniRaw.ofWords w0 w1).form else (LaneRaw.ofWords w0 w1 w2).form)).filter Instr.wf

/-- Is this first word a clause header, R38? -/
def isHeader (w : Word) : Bool := w.getLsbD 31 && w.extractLsb' 26 5 == 0x1F

/-- Is this first word a control transfer, by its family alone (R36)? -/
def isControl (w : Word) : Bool :=
  if w.getLsbD 31 then w.extractLsb' 26 5 == 0x02
  else w.extractLsb' 25 6 == 0x10 || w.extractLsb' 25 6 == 0x11 || w.extractLsb' 25 6 == 0x12

/-- What the issue stage finds at a first word inside a clause; the rejections carry the trap they raise (R35, R36). -/
inductive Decoded where
  | ok (i : Instr) (n : Nat)
  /-- A header inside a clause: CLAUSE. -/
  | header
  /-- The instruction runs past the clause's last word: CLAUSE. -/
  | truncated
  /-- A control transfer that is not the last instruction: CLAUSE. -/
  | notLast
  /-- Not a valid instruction or operand form: ILLEGAL. -/
  | illegal
  deriving DecidableEq, Repr

/-- Decode the first of the words that remain of a clause, by the procedure that ends chapter 02.
DESIGN CHOICE, log 68. -/
def decode (ws : List Word) : Decoded :=
  match ws with
  | [] => .truncated
  | w0 :: rest =>
    let w1 := rest.headD 0
    let n := wordCount w0 w1
    if isHeader w0 then .header
    else if w0 = 0 then .illegal
    else if ws.length < n then .truncated
    else if isControl w0 && n != ws.length then .notLast
    else match decodeWords w0 w1 (rest.tail.headD 0) with
      | some i => .ok i n
      | none => .illegal

/-- A flag field of a header: 0 to 11, or 15 for none; 12 to 14 break R36. -/
def decFlag (f : BitVec 4) : Option (Option (Fin 12)) :=
  if h : f.toNat < 12 then some (some ⟨f.toNat, h⟩) else if f.toNat = 15 then some none else none

/-- A clause header, R38; none where R36 raises CLAUSE. -/
def decodeHeader (w : Word) : Option ClauseHdr :=
  if isHeader w then do
    let a ← decFlag (w.extractLsb' 10 4)
    let b ← decFlag (w.extractLsb' 6 4)
    if b == none || (a != none && a != b) then
      pure ⟨w.extractLsb' 14 12, a, b, (w.extractLsb' 1 5 : BitVec 5).toFin, w.getLsbD 0⟩
    else none
  else none

/-- Words from bytes as memory holds them, R5; a part of a word at the end is dropped. -/
def wordsOfBytes : List Byte → List Word
  | a :: b :: c :: d :: rest => (d ++ c ++ b ++ a) :: wordsOfBytes rest
  | _ => []

/-- The instruction that a byte sequence starts with, taking the clause to end where the instruction ends. -/
def decodeBytes (bs : List Byte) : Option Instr :=
  match wordsOfBytes bs with
  | [] => none
  | w0 :: rest =>
    if isHeader w0 then (decodeHeader w0).map .clauseHeader
    else match decode ((w0 :: rest).take (wordCount w0 (rest.headD 0))) with
      | .ok i _ => some i
      | .header | .truncated | .notLast | .illegal => none

/-- The bytes of `n` words whose bits are those of `w`, the first word lowest, each little-endian (R5). -/
def bytesOfNat : Nat → Nat → List Byte
  | 0, _ => []
  | n + 1, w => BitVec.ofNat 8 w :: bytesOfNat n (w / 256)

/-- The instruction that the decoder reads from words whose bits are `w`, the bits above `nbits` zero. -/
def decodeTableWord (nbits w : Nat) : Option Instr := decodeBytes (bytesOfNat 12 (w % 2 ^ nbits))

/-! ## The encoder -/

/-- The code of a value in its field's list. -/
def codeOf {α : Type} [DecidableEq α] (l : List α) (x : α) : Nat := l.idxOf x

def Src.enc : Src → BitVec 8
  | .v n => BitVec.ofNat 8 n.val
  | .s n => BitVec.ofNat 8 (192 + n.val)
  | .k n => BitVec.ofNat 8 (240 + n.val)
  | .lit _ => 254
  | .none => 255

def Src.litOf : Src → Word
  | .lit w => w
  | .v _ | .s _ | .k _ | .none => 0

def Dst.enc : Dst → BitVec 8
  | .v n => BitVec.ofNat 8 n.val
  | .s n => BitVec.ofNat 8 (192 + n.val)
  | .p n => BitVec.ofNat 8 (240 + n.val)
  | .none => 255

def USrc.enc : USrc → BitVec 6
  | .s n => BitVec.ofNat 6 n.val
  | .q n => BitVec.ofNat 6 (48 + n.val)
  | .k n => BitVec.ofNat 6 (56 + n.val)
  | .lit _ => 60
  | .none => 63

def USrc.litOf : USrc → Word
  | .lit w => w
  | .s _ | .q _ | .k _ | .none => 0

/-- The literal of an instruction that has one. -/
def Ops.litOf (o : Ops) : Word := o.a.litOf ||| o.b.litOf ||| o.c.litOf

def UOps.litOf (o : UOps) : Word := o.a.litOf ||| o.b.litOf

def Ops.raw (o : Ops) (fam fn : Nat) (mod : BitVec 12) : LaneRaw :=
  { fam := BitVec.ofNat 6 fam, d := o.d.enc, a := o.a.enc, b := o.b.enc, c := o.c.enc, neg := o.pr.neg,
    pr := BitVec.ofNat 3 o.pr.r.val, fn := BitVec.ofNat 8 fn, mod := mod, lit := o.litOf }

/-- A branch of the layout of R30. -/
def branchRaw (fam : Nat) (off : BitVec 24) (p : Pred) : LaneRaw :=
  { fam := BitVec.ofNat 6 fam, d := off.extractLsb' 16 8, a := off.extractLsb' 8 8, b := off.extractLsb' 0 8,
    c := 255, neg := p.neg, pr := BitVec.ofNat 3 p.r.val, fn := 0, mod := 0, lit := 0 }

def UOps.raw (o : UOps) (ufam ufn : Nat) : UniRaw :=
  { ufam := BitVec.ofNat 5 ufam, d := o.d.enc, a := o.a.enc, b := o.b.enc, ufn := BitVec.ofNat 7 ufn,
    l := o.a.isLit || o.b.isLit, lit := o.litOf }

/-- A value placed at bit `lo` of MOD. -/
def at_ (lo n : Nat) : BitVec 12 := BitVec.ofNat 12 n <<< lo

/-- A bit of MOD. -/
def bit_ (lo : Nat) (b : Bool) : BitVec 12 := at_ lo b.toNat

def IMod.enc (m : IMod) : BitVec 12 :=
  bit_ 0 m.w64 ||| bit_ 1 m.u ||| bit_ 2 m.sat ||| bit_ 3 m.ce ||| at_ 4 m.co.val ||| at_ 7 m.ci.val

def FMod.enc (m : FMod) : BitVec 12 :=
  at_ 0 (codeOf RM.codes m.rm) ||| bit_ 3 m.fz ||| bit_ 4 m.sat ||| bit_ 5 m.na ||| bit_ 6 m.nb ||| bit_ 7 m.nc |||
    bit_ 8 m.bf

def Comb.enc (k : Comb) : BitVec 12 := at_ 5 k.cp.val ||| at_ 8 (codeOf CombOp.codes k.op) ||| bit_ 10 k.cn

def CvMod.enc (m : CvMod) : BitVec 12 := at_ 0 (codeOf RM.codes m.rm) ||| bit_ 3 m.fz ||| bit_ 4 m.sat

def cvTypes (st dt : Nat) : BitVec 12 := at_ 5 st ||| at_ 8 dt

def DotMod.enc (m : DotMod) : BitVec 12 :=
  bit_ 0 m.ua ||| bit_ 1 m.ub ||| bit_ 2 m.sc ||| bit_ 3 m.fz ||| bit_ 4 m.sat

def PkCvtMod.enc (m : PkCvtMod) : BitVec 12 :=
  at_ 0 (codeOf Fmt.codes m.fmt) ||| at_ 4 (codeOf RM.codes m.rm) ||| bit_ 7 m.fz ||| bit_ 8 m.sat ||| at_ 9 m.k.val

def GMod.enc (m : GMod) : BitVec 12 := at_ 0 (codeOf Pol.codes m.pol) ||| bit_ 11 m.fs

def AtMod.enc (m : AtMod) : BitVec 12 :=
  at_ 0 (codeOf Pol.codes m.pol) ||| bit_ 2 m.u ||| bit_ 3 m.w64 ||| bit_ 11 m.fs

def RdMod.enc (m : RdMod) : BitVec 12 :=
  bit_ 0 m.thru ||| bit_ 2 m.u ||| bit_ 3 m.w64 ||| bit_ 4 m.ord ||| bit_ 11 m.fs

def optP (lo flag : Nat) : Option (Fin 8) → BitVec 12
  | some n => at_ lo n.val ||| bit_ flag true
  | none => 0

def CpMod.enc (m : CpMod) : BitVec 12 :=
  optP 0 3 m.guard ||| optP 5 4 m.arv ||| bit_ 8 m.sl ||| bit_ 9 m.dl ||| bit_ 11 m.fs

def PrePol.enc : PrePol → BitVec 12
  | .own => at_ 0 0
  | .lease => at_ 0 2
  | .track => at_ 0 3

def Bar.enc : Bar → BitVec 12
  | .full => 0
  | .empty => 1

def SclMod.enc (m : SclMod) : BitVec 12 :=
  bit_ 6 m.row ||| at_ 7 (codeOf RM.codes m.rm) ||| bit_ 10 m.fz ||| bit_ 11 m.sat

/-- The fields of a lane-set instruction; none for every other step. -/
def Instr.laneRaw : Instr → Option LaneRaw
  | .iAdd o m => some (o.raw 0x01 0 m.enc)
  | .iSub o m => some (o.raw 0x01 1 m.enc)
  | .iAddc o m => some (o.raw 0x01 2 m.enc)
  | .iSubb o m => some (o.raw 0x01 3 m.enc)
  | .iNeg o m => some (o.raw 0x01 4 m.enc)
  | .iAbs o m => some (o.raw 0x01 5 m.enc)
  | .iMin o m => some (o.raw 0x01 6 m.enc)
  | .iMax o m => some (o.raw 0x01 7 m.enc)
  | .iSad o m => some (o.raw 0x01 8 m.enc)
  | .imMul o p u => some (o.raw 0x02 0 (at_ 0 (codeOf Part.codes p) ||| bit_ 2 u))
  | .imMad o p u => some (o.raw 0x02 1 (at_ 0 (codeOf Part.codes p) ||| bit_ 2 u))
  | .imMadw o u => some (o.raw 0x02 2 (bit_ 2 u))
  | .logAnd o w => some (o.raw 0x03 0 (bit_ 0 w))
  | .logOr o w => some (o.raw 0x03 1 (bit_ 0 w))
  | .logXor o w => some (o.raw 0x03 2 (bit_ 0 w))
  | .logAndn o w => some (o.raw 0x03 3 (bit_ 0 w))
  | .logNot o w => some (o.raw 0x03 4 (bit_ 0 w))
  | .shShl o w => some (o.raw 0x04 0 (bit_ 0 w))
  | .shShr o w ar => some (o.raw 0x04 1 (bit_ 0 w ||| bit_ 1 ar))
  | .shRot o w => some (o.raw 0x04 2 (bit_ 0 w))
  | .shFun o l => some (o.raw 0x04 3 (bit_ 2 l))
  | .bfExt o s => some (o.raw 0x05 0 (bit_ 0 s))
  | .bfIns o => some (o.raw 0x05 1 0)
  | .bfPopc o => some (o.raw 0x05 2 0)
  | .bfClz o => some (o.raw 0x05 3 0)
  | .bfBrev o => some (o.raw 0x05 4 0)
  | .bfFfs o => some (o.raw 0x05 5 0)
  | .cmpI o c w k => some (o.raw 0x06 0 (at_ 0 (codeOf ICond.codes c) ||| bit_ 4 w ||| k.enc))
  | .cmpF o c z k => some (o.raw 0x06 1 (at_ 0 (codeOf FCond.codes c) ||| k.enc ||| bit_ 11 z))
  | .cmpD o c z k => some (o.raw 0x06 2 (at_ 0 (codeOf FCond.codes c) ||| k.enc ||| bit_ 11 z))
  | .prLog o x y z => some (o.raw 0x07 0 (at_ 0 x.val ||| at_ 3 y.val ||| at_ 6 z.val))
  | .mvMov o w => some (o.raw 0x08 0 (bit_ 0 w))
  | .mvSel o ps sn w => some (o.raw 0x08 1 (at_ 0 ps.val ||| bit_ 3 sn ||| bit_ 4 w))
  | .mvPrm o => some (o.raw 0x08 2 0)
  | .mvLea o sh u => some (o.raw 0x08 3 (at_ 0 sh.val ||| bit_ 3 u))
  | .cvI2f o m s d => some (o.raw 0x09 0 (m.enc ||| cvTypes (codeOf ITy.codes s) (codeOf FTy.codes d)))
  | .cvF2i o m s d => some (o.raw 0x09 1 (m.enc ||| cvTypes (codeOf FTy.codes s) (codeOf ITy.codes d)))
  | .cvF2f o m s d => some (o.raw 0x09 2 (m.enc ||| cvTypes (codeOf FTy.codes s) (codeOf FTy.codes d)))
  | .cvI2i o w s d => some (o.raw 0x09 3 (bit_ 4 w ||| cvTypes (codeOf ITy.codes s) (codeOf ITy.codes d)))
  | .fAdd o m => some (o.raw 0x0A 0 m.enc)
  | .fSub o m => some (o.raw 0x0A 1 m.enc)
  | .fMul o m => some (o.raw 0x0A 2 m.enc)
  | .fFma o m => some (o.raw 0x0A 3 m.enc)
  | .fMin o m => some (o.raw 0x0A 4 m.enc)
  | .fMax o m => some (o.raw 0x0A 5 m.enc)
  | .fCls o => some (o.raw 0x0A 6 0)
  | .fhAdd2 o m => some (o.raw 0x0B 0 m.enc)
  | .fhMul2 o m => some (o.raw 0x0B 1 m.enc)
  | .fhFma2 o m => some (o.raw 0x0B 2 m.enc)
  | .fhMin2 o m => some (o.raw 0x0B 3 m.enc)
  | .fhMax2 o m => some (o.raw 0x0B 4 m.enc)
  | .dAdd o m => some (o.raw 0x0C 0 m.enc)
  | .dMul o m => some (o.raw 0x0C 1 m.enc)
  | .dFma o m => some (o.raw 0x0C 2 m.enc)
  | .dMin o m => some (o.raw 0x0C 3 m.enc)
  | .dMax o m => some (o.raw 0x0C 4 m.enc)
  | .sfRcp o z => some (o.raw 0x0D 0 (bit_ 3 z))
  | .sfRsq o z => some (o.raw 0x0D 1 (bit_ 3 z))
  | .sfSqrt o z => some (o.raw 0x0D 2 (bit_ 3 z))
  | .sfExp2 o z => some (o.raw 0x0D 3 (bit_ 3 z))
  | .sfLog2 o z => some (o.raw 0x0D 4 (bit_ 3 z))
  | .sfSin o z => some (o.raw 0x0D 5 (bit_ 3 z))
  | .sfCos o z => some (o.raw 0x0D 6 (bit_ 3 z))
  | .sfTanh o z => some (o.raw 0x0D 7 (bit_ 3 z))
  | .dotI8x4 o m => some (o.raw 0x0E 0 m.enc)
  | .dotI4x8 o m => some (o.raw 0x0E 1 m.enc)
  | .dotE4m3x4 o m => some (o.raw 0x0E 2 m.enc)
  | .dotE5m2x4 o m => some (o.raw 0x0E 3 m.enc)
  | .dotE2m1x8 o m => some (o.raw 0x0E 4 m.enc)
  | .pkCvt o m => some (o.raw 0x0F 0 m.enc)
  | .pkUnp o f z => some (o.raw 0x0F 1 (at_ 0 (codeOf Fmt.codes f) ||| bit_ 7 z))
  | .pkScl o f => some (o.raw 0x0F 2 (at_ 0 (codeOf Fmt.codes f)))
  | .pkPl6 o j => some (o.raw 0x0F 3 (bit_ 0 j))
  | .brRel off p => some (branchRaw 0x10 off p)
  | .brInd o => some (o.raw 0x10 1 0)
  | .clCall off p => some (branchRaw 0x11 off p)
  | .clCalli o => some (o.raw 0x11 1 0)
  | .clRet o => some (o.raw 0x11 2 0)
  | .xExit o => some (o.raw 0x12 0 0)
  | .xYield o => some (o.raw 0x12 1 0)
  | .xNap o => some (o.raw 0x12 2 0)
  | .wvVote o sp sn m => some (o.raw 0x13 0 (at_ 0 sp.val ||| bit_ 3 sn ||| at_ 4 (codeOf VoteMode.codes m)))
  | .wvBallot o sp sn => some (o.raw 0x13 1 (at_ 0 sp.val ||| bit_ 3 sn))
  | .wvMatch o a => some (o.raw 0x13 2 (bit_ 4 a))
  | .wvElect o => some (o.raw 0x13 3 0)
  | .xlShfl o m w => some (o.raw 0x14 0 (at_ 0 (codeOf ShflMode.codes m) ||| bit_ 2 w))
  | .xlRdl o w => some (o.raw 0x14 1 (bit_ 0 w))
  | .qSwap o d => some (o.raw 0x15 0 (at_ 0 (codeOf SwapDir.codes d + 1)))
  | .qBcast o => some (o.raw 0x15 1 0)
  | .wrRed o op => some (o.raw 0x16 0 (at_ 0 (codeOf WrOp.codes op)))
  | .wrScan o op e => some (o.raw 0x16 1 (at_ 0 (codeOf WrOp.codes op) ||| bit_ 4 e))
  | .srRead o r => some (o.raw 0x17 0 (at_ 0 r.code))
  | .ldU8 o m => some (o.raw 0x18 0 m.enc)
  | .ldS8 o m => some (o.raw 0x18 1 m.enc)
  | .ldU16 o m => some (o.raw 0x18 2 m.enc)
  | .ldS16 o m => some (o.raw 0x18 3 m.enc)
  | .ldB32 o m => some (o.raw 0x18 4 m.enc)
  | .ldB64 o m => some (o.raw 0x18 5 m.enc)
  | .ldB128 o m => some (o.raw 0x18 6 m.enc)
  | .stB8 o m => some (o.raw 0x19 0 m.enc)
  | .stB16 o m => some (o.raw 0x19 1 m.enc)
  | .stB32 o m => some (o.raw 0x19 2 m.enc)
  | .stB64 o m => some (o.raw 0x19 3 m.enc)
  | .stB128 o m => some (o.raw 0x19 4 m.enc)
  | .atAdd o m => some (o.raw 0x1A 0 m.enc)
  | .atMin o m => some (o.raw 0x1A 1 m.enc)
  | .atMax o m => some (o.raw 0x1A 2 m.enc)
  | .atAnd o m => some (o.raw 0x1A 3 m.enc)
  | .atOr o m => some (o.raw 0x1A 4 m.enc)
  | .atXor o m => some (o.raw 0x1A 5 m.enc)
  | .atXchg o m => some (o.raw 0x1A 6 m.enc)
  | .atCas o m => some (o.raw 0x1A 7 m.enc)
  | .atFadd o m => some (o.raw 0x1A 8 m.enc)
  | .rdAdd o m => some (o.raw 0x1B 0 m.enc)
  | .rdMin o m => some (o.raw 0x1B 1 m.enc)
  | .rdMax o m => some (o.raw 0x1B 2 m.enc)
  | .rdAnd o m => some (o.raw 0x1B 3 m.enc)
  | .rdOr o m => some (o.raw 0x1B 4 m.enc)
  | .rdXor o m => some (o.raw 0x1B 5 m.enc)
  | .rdFadd o m => some (o.raw 0x1B 6 m.enc)
  | .fnFence o sc => some (o.raw 0x1C 0 (at_ 0 (codeOf Scope.codes sc)))
  | .fnInv o al fs => some (o.raw 0x1C 1 (bit_ 0 al ||| bit_ 11 fs))
  | .fnWb o fs => some (o.raw 0x1C 2 (bit_ 11 fs))
  | .fnPre o p fs => some (o.raw 0x1C 3 (p.enc ||| bit_ 11 fs))
  | .lsLd o w fs => some (o.raw 0x1D 0 (at_ 0 (codeOf LdW.codes w) ||| bit_ 11 fs))
  | .lsSt o w fs => some (o.raw 0x1D 1 (at_ 0 (codeOf StW.codes w) ||| bit_ 11 fs))
  | .lsAt o op w fs => some (o.raw 0x1D 2 (at_ 0 (codeOf LsAtOp.codes op) ||| bit_ 4 w ||| bit_ 11 fs))
  | .hIns o vs fs => some (o.raw 0x1E 0 (at_ 0 (codeOf Vs.codes vs) ||| bit_ 11 fs))
  | .hPrb o fs => some (o.raw 0x1E 1 (bit_ 11 fs))
  | .hDel o fs => some (o.raw 0x1E 2 (bit_ 11 fs))
  | .hAcc o vs op ty fs =>
    some (o.raw 0x1E 3 (at_ 0 (codeOf Vs.codes vs) ||| at_ 2 (codeOf AccOp.codes op) |||
      at_ 4 (codeOf AccTy.codes ty) ||| bit_ 11 fs))
  | .hDrn o clr fs => some (o.raw 0x1E 4 (bit_ 6 clr ||| bit_ 11 fs))
  | .hSta o => some (o.raw 0x1E 5 0)
  | .mMma o t => some (o.raw 0x1F 0 (at_ 0 t.val))
  | .mSmma o t => some (o.raw 0x1F 1 (at_ 0 t.val))
  | .mSpc o f => some (o.raw 0x1F 2 (at_ 0 (codeOf Fmt.codes f)))
  | .mZero o t => some (o.raw 0x1F 3 (at_ 0 t.val))
  | .mScl o t m => some (o.raw 0x1F 4 (at_ 0 t.val ||| m.enc))
  | .accLd o t f fs => some (o.raw 0x20 0 (at_ 0 t.val ||| at_ 6 (codeOf AccFmt.codes f) ||| bit_ 11 fs))
  | .accSt o t f rm fs =>
    some (o.raw 0x20 1 (at_ 0 t.val ||| at_ 6 (codeOf AccFmt.codes f) ||| at_ 8 (codeOf RM.codes rm) ||| bit_ 11 fs))
  | .accRd o t x => some (o.raw 0x20 2 (at_ 0 t.val ||| bit_ 6 x))
  | .accWr o t x a => some (o.raw 0x20 3 (at_ 0 t.val ||| bit_ 6 x ||| bit_ 7 a))
  | .cGet o => some (o.raw 0x21 0 0)
  | .cWait o => some (o.raw 0x21 1 0)
  | .cNtf o => some (o.raw 0x21 2 0)
  | .cNta o => some (o.raw 0x21 3 0)
  | .cHeld o => some (o.raw 0x21 4 0)
  | .cpTile o m => some (o.raw 0x22 0 m.enc)
  | .cpStore o m => some (o.raw 0x22 1 m.enc)
  | .cpLin o m => some (o.raw 0x22 2 m.enc)
  | .cpGath o m => some (o.raw 0x22 3 m.enc)
  | .cpSeal o => some (o.raw 0x22 4 0)
  | .cpWait o => some (o.raw 0x22 5 0)
  | .rgInit o => some (o.raw 0x23 0 0)
  | .rgArv o b => some (o.raw 0x23 1 b.enc)
  | .rgWait o b => some (o.raw 0x23 2 b.enc)
  | .bBar o id => some (o.raw 0x24 0 (at_ 0 id.val))
  | .bCbar o id => some (o.raw 0x24 1 (at_ 0 id.val))
  | .wSpawn o fs => some (o.raw 0x25 0 (bit_ 11 fs))
  | .wLaunch o fs => some (o.raw 0x25 1 (bit_ 11 fs))
  | .wJoin o fs => some (o.raw 0x25 2 (bit_ 11 fs))
  | .wDead o => some (o.raw 0x25 3 0)
  | .wQstat o s => some (o.raw 0x25 4 (at_ 0 (codeOf QSel.codes s)))
  | .trTrap o => some (o.raw 0x26 0 0)
  | .trRett o e => some (o.raw 0x26 1 (bit_ 0 e))
  | .trMfs o r => some (o.raw 0x26 2 (at_ 0 r.code))
  | .trMts o r => some (o.raw 0x26 3 (at_ 0 r.code))
  | .trTlbi o d a => some (o.raw 0x26 4 (bit_ 0 d ||| bit_ 1 a))
  | .trBkpt o => some (o.raw 0x26 5 0)
  | .trHalt o => some (o.raw 0x26 6 0)
  | _ => none

def UOff.l : UOff → Bool
  | .short _ => false
  | .long _ => true

def UOff.field : UOff → BitVec 12
  | .short o => o
  | .long _ => 0

def UOff.lit : UOff → Word
  | .short _ => 0
  | .long w => w

def ubRaw (d : Nat) (off : UOff) (ufn : Nat) : UniRaw :=
  { ufam := 0x02, d := BitVec.ofNat 6 d, a := off.field.extractLsb' 6 6, b := off.field.extractLsb' 0 6,
    ufn := BitVec.ofNat 7 ufn, l := off.l, lit := off.lit }

def gRaw (d : Fin 8) (a : BitVec 6) (ufn : Nat) : UniRaw :=
  { ufam := 0x06, d := BitVec.ofNat 6 d.val, a := a, b := 63, ufn := BitVec.ofNat 7 ufn, l := false, lit := 0 }

def GVal.enc : GVal → BitVec 6
  | .q n => BitVec.ofNat 6 (48 + n.val)
  | .fls => 56
  | .tru => 57

/-- The fields of a uniform-set instruction; none for every other step. -/
def Instr.uniRaw : Instr → Option UniRaw
  | .uAdd o => some (o.raw 1 0x00)
  | .uSub o => some (o.raw 1 0x01)
  | .uMul o => some (o.raw 1 0x02)
  | .uLogAnd o => some (o.raw 1 0x08)
  | .uLogOr o => some (o.raw 1 0x09)
  | .uLogXor o => some (o.raw 1 0x0A)
  | .uLogAndn o => some (o.raw 1 0x0B)
  | .uShfShl o => some (o.raw 1 0x10)
  | .uShfShr o => some (o.raw 1 0x11)
  | .uShfSar o => some (o.raw 1 0x12)
  | .uShfRot o => some (o.raw 1 0x13)
  | .uCmpEq o => some (o.raw 1 0x18)
  | .uCmpNe o => some (o.raw 1 0x19)
  | .uCmpLt o => some (o.raw 1 0x1A)
  | .uCmpLe o => some (o.raw 1 0x1B)
  | .uCmpGt o => some (o.raw 1 0x1C)
  | .uCmpGe o => some (o.raw 1 0x1D)
  | .uCmpLtu o => some (o.raw 1 0x1E)
  | .uCmpGeu o => some (o.raw 1 0x1F)
  | .uMov o => some (o.raw 1 0x20)
  | .uSel o n => some (o.raw 1 (0x28 + n.val))
  | .ubBra c off => some (ubRaw (match c with | some n => 48 + n.val | none => 63) off 0)
  | .ubLoop s off => some (ubRaw s.val off 1)
  | .uldC o => some (o.raw 3 0)
  | .hcClaim o => some (o.raw 4 0)
  | .hcFree => some { ufam := 4, d := 63, a := 63, b := 63, ufn := 1, l := false, lit := 0 }
  | .ucSet o => some (o.raw 5 0)
  | .gSet n v => some (gRaw n v.enc 0)
  | .gClr n => some (gRaw n 63 1)
  | _ => none

/-- Does the instruction need a modifier word, R20? -/
def LaneRaw.needsM (r : LaneRaw) : Bool := r.c != 255 || r.neg || r.pr != 7 || r.fn != 0 || r.mod != 0

/-- Does a source field hold 254, in a layout that has sources? -/
def LaneRaw.hasLit (r : LaneRaw) : Bool :=
  !branchLayout r.fam r.fn && (r.a == 254 || r.b == 254 || r.c == 254)

/-- The words of lane-set fields, with a modifier word only where one is needed. -/
def LaneRaw.words (r : LaneRaw) : List Word :=
  let m := r.needsM
  [(BitVec.ofBool false ++ r.fam ++ r.d ++ r.a ++ r.b ++ BitVec.ofBool m : Word)] ++
  (if m then [(r.c ++ BitVec.ofBool r.neg ++ r.pr ++ r.fn ++ r.mod : Word)] else []) ++
  (if r.hasLit then [r.lit] else [])

def UniRaw.words (r : UniRaw) : List Word :=
  [(BitVec.ofBool true ++ r.ufam ++ r.d ++ r.a ++ r.b ++ r.ufn ++ BitVec.ofBool r.l : Word)] ++
  (if r.l then [r.lit] else [])

def encFlag : Option (Fin 12) → BitVec 4
  | some n => BitVec.ofNat 4 n.val
  | none => 15

/-- A header's word, R38. -/
def ClauseHdr.word (h : ClauseHdr) : Word :=
  (0x3F : BitVec 6) ++ h.wait ++ encFlag h.seta ++ encFlag h.setb ++ BitVec.ofNat 5 h.len.val ++ BitVec.ofBool h.yld

/-- The words of an instruction; none for a step that has no encoding. -/
def encode (i : Instr) : List Word :=
  match i with
  | .clauseHeader h => [h.word]
  | i =>
    match i.laneRaw, i.uniRaw with
    | some r, _ => r.words
    | none, some r => r.words
    | none, none => []

end Sys2Proof
end

