-- ==== Sys2Proof/Machine/Float.lean ====
section
/-! DEFINITION. Number formats, rounding and conversion, exactly (04_number_formats R72 to R90). Finite values are
handled as a sign, a magnitude and a power of two; every operation is exact until it is rounded once. -/

namespace Sys2Proof.Machine

/-- What a format keeps beside its numbers, R74. -/
inductive Special where
  | ieee                                    -- infinities and NaNs
  | nanOnly                                 -- E4M3
  | none                                    -- FP6 and FP4
  deriving DecidableEq, Repr

/-- A floating-point format, R72. -/
structure FFmt where
  e : Nat
  m : Nat
  sp : Special := .ieee
  deriving DecidableEq, Repr

def fp64 : FFmt := ⟨11, 52, .ieee⟩
def fp32 : FFmt := ⟨8, 23, .ieee⟩
def fp16 : FFmt := ⟨5, 10, .ieee⟩
def bf16 : FFmt := ⟨8, 7, .ieee⟩
def e4m3 : FFmt := ⟨4, 3, .nanOnly⟩
def e5m2 : FFmt := ⟨5, 2, .ieee⟩
def e3m2 : FFmt := ⟨3, 2, .none⟩
def e2m3 : FFmt := ⟨2, 3, .none⟩
def e2m1 : FFmt := ⟨2, 1, .none⟩

def FFmt.bias (f : FFmt) : Nat := 2 ^ (f.e - 1) - 1
/-- Exponent of the smallest normal. -/
def FFmt.emin (f : FFmt) : Int := 1 - (f.bias : Int)
/-- The largest exponent field of a finite number. -/
def FFmt.topE (f : FFmt) : Nat :=
  match f.sp with
  | .ieee => 2 ^ f.e - 2
  | .nanOnly | .none => 2 ^ f.e - 1
/-- The largest mantissa field of a finite number at that exponent. -/
def FFmt.topM (f : FFmt) : Nat :=
  match f.sp with
  | .nanOnly => 2 ^ f.m - 2
  | .ieee | .none => 2 ^ f.m - 1
def FFmt.signBit (f : FFmt) (neg : Bool) : Nat := if neg then 2 ^ (f.e + f.m) else 0
/-- The largest finite value's bits, without sign. -/
def FFmt.maxBits (f : FFmt) : Nat := f.topE * 2 ^ f.m + f.topM
/-- Infinity's bits in a format that has it. -/
def FFmt.infBits (f : FFmt) : Nat := (2 ^ f.e - 1) * 2 ^ f.m
/-- The canonical NaN, R74; +0 in a format that has none (R84). -/
def FFmt.nanBits (f : FFmt) : Nat :=
  match f.sp with
  | .ieee => (2 ^ f.e - 1) * 2 ^ f.m + 2 ^ (f.m - 1)
  | .nanOnly => 2 ^ (f.e + f.m) - 1
  | .none => 0

/-- An exact value: NaN, an infinity, or (-1)^neg * num * 2^exp. -/
inductive FVal where
  | nan
  | inf (neg : Bool)
  | fin (neg : Bool) (num : Nat) (exp : Int)
  deriving DecidableEq, Repr

/-- The value of a bit pattern, R73, R74. -/
def FFmt.dec (f : FFmt) (x : Nat) : FVal :=
  let m := x % 2 ^ f.m
  let e := x / 2 ^ f.m % 2 ^ f.e
  let neg := x / 2 ^ (f.e + f.m) % 2 == 1
  let special := e == 2 ^ f.e - 1
  let num := FVal.fin neg (if e = 0 then m else 2 ^ f.m + m) ((if e = 0 then 1 else (e : Int)) - f.bias - f.m)
  match f.sp with
  | .ieee => if special then (if m = 0 then .inf neg else .nan) else num
  | .nanOnly => if special && m == 2 ^ f.m - 1 then .nan else num
  | .none => num

/-- FZ on an operand: a subnormal reads as zero with its sign, R85. -/
def FFmt.flushIn (f : FFmt) (fz : Bool) (v : FVal) : FVal :=
  match v with
  | .fin neg num exp =>
    if fz && decide (num < 2 ^ f.m) then .fin neg 0 exp else .fin neg num exp
  | .nan => .nan
  | .inf n => .inf n

/-- An operand read under FZ. -/
def FFmt.read (f : FFmt) (fz : Bool) (x : Nat) : FVal := f.flushIn fz (f.dec x)

/-- The rounding controls of an instruction: mode, FZ, SAT, and the number h that SR draws (R83 to R87). -/
structure RCtl where
  rm : RM := .rn
  fz : Bool := false
  sat : Bool := false
  h : Nat := 0
  deriving DecidableEq, Repr

/-- The result of an overflow, R84. -/
def FFmt.overflow (f : FFmt) (c : RCtl) (neg : Bool) : Nat :=
  let big := f.signBit neg + f.maxBits
  let edge := match f.sp with
    | .ieee => f.signBit neg + f.infBits
    | .nanOnly => f.signBit neg + f.nanBits
    | .none => big
  if c.sat then big
  else match c.rm with
    | .rn | .sr => edge
    | .rz => big
    | .ru => if neg then big else edge
    | .rd => if neg then edge else big

/-- Choose between the grid neighbours lo and lo + 1 when 0 < rem < 2^k, R84, R87. -/
def roundUp (c : RCtl) (neg : Bool) (lo rem k : Nat) : Bool :=
  match c.rm with
  | .rn => decide (2 ^ k < 2 * rem) || (decide (2 * rem = 2 ^ k) && lo % 2 == 1)
  | .rz => false
  | .ru => !neg
  | .rd => neg
  | .sr => decide (c.h < rem * 2 ^ 32 / 2 ^ k)

/-- round(x, fmt, mode) of R84 for a nonzero finite x, FZ of R85 applied first. -/
def FFmt.round (f : FFmt) (c : RCtl) (neg : Bool) (num : Nat) (exp : Int) : Nat :=
  let top := (Nat.log2 num : Int) + exp
  if c.fz && decide (top < f.emin) then f.signBit neg
  else
    let q := max top f.emin - f.m
    let r : Nat :=
      if q ≤ exp then num * 2 ^ (exp - q).toNat
      else
        let k := (q - exp).toNat
        let lo := num / 2 ^ k
        let rem := num % 2 ^ k
        if rem = 0 then lo else if roundUp c neg lo rem k then lo + 1 else lo
    -- r is at most 2^(m+1); its bits follow by adding to the exponent field
    let e : Int := q - f.emin + f.m
    let bits := if r < 2 ^ f.m then r else (e + 1).toNat * 2 ^ f.m + (r - 2 ^ f.m)
    if f.maxBits < bits then f.overflow c neg else f.signBit neg + bits

/-- An exact result into a format: an arithmetic result, whose infinities stay (R84, R132). -/
def FFmt.put (f : FFmt) (c : RCtl) (v : FVal) : Nat :=
  match v with
  | .nan => f.nanBits
  | .inf neg => if c.sat then f.signBit neg + f.maxBits else f.signBit neg + f.infBits
  | .fin neg num exp => if num = 0 then f.signBit neg else f.round c neg num exp

/-- A value converted into a format: an infinity acts as an overflow to nearest, but for RZ and SAT (R84), where the
row of R89 for a wider format says Exact. DEDUCED, log 75. -/
def FFmt.conv (f : FFmt) (c : RCtl) (v : FVal) : Nat :=
  match v with
  | .nan => f.nanBits
  | .inf neg => f.overflow { c with rm := if c.rm == .rz then .rz else .rn } neg
  | .fin neg num exp => if num = 0 then f.signBit neg else f.round c neg num exp

/-! ## Exact arithmetic -/

def FVal.neg (v : FVal) (flip : Bool) : FVal :=
  match v with
  | .nan => .nan
  | .inf n => .inf (n != flip)
  | .fin n m e => .fin (n != flip) m e

/-- An integer's zero has no sign (R77). -/
def FVal.plusZero (x : FVal) : FVal :=
  match x with
  | .fin true 0 e => .fin false 0 e
  | x => x

/-- Exact product, R132. -/
def FVal.mul (a b : FVal) : FVal :=
  match a, b with
  | .nan, _ | _, .nan => .nan
  | .inf n, .inf k => .inf (n != k)
  | .inf n, .fin k m _ => if m = 0 then .nan else .inf (n != k)
  | .fin k m _, .inf n => if m = 0 then .nan else .inf (n != k)
  | .fin n m e, .fin k p x => .fin (n != k) (m * p) (e + x)

/-- Signed magnitude over 2^e. -/
def signed (neg : Bool) (m : Nat) : Int := if neg then -(m : Int) else m

/-- Exact sum; an exact zero of nonzero addends, or of zeros of both signs, is +0, and -0 in RD (R84, R132). -/
def FVal.add (rm : RM) (a b : FVal) : FVal :=
  match a, b with
  | .nan, _ | _, .nan => .nan
  | .inf n, .inf k => if n = k then .inf n else .nan
  | .inf n, .fin _ _ _ => .inf n
  | .fin _ _ _, .inf n => .inf n
  | .fin n m e, .fin k p x =>
    if m = 0 ∧ p = 0 ∧ n = k then .fin n 0 0
    else
      let lo := min e x
      let s := signed n (m * 2 ^ (e - lo).toNat) + signed k (p * 2 ^ (x - lo).toNat)
      if s = 0 then .fin (rm == .rd) 0 0 else .fin (decide (s < 0)) s.natAbs lo

/-- Compare exact finite or infinite values: a < b. NaN compares false. -/
def FVal.lt (a b : FVal) : Bool :=
  match a, b with
  | .nan, _ | _, .nan => false
  | .inf n, .inf k => n && !k
  | .inf n, .fin _ _ _ => n
  | .fin _ _ _, .inf k => !k
  | .fin n m e, .fin k p x =>
    let lo := min e x
    decide (signed n (m * 2 ^ (e - lo).toNat) < signed k (p * 2 ^ (x - lo).toNat))

def FVal.isNan : FVal → Bool
  | .nan => true
  | .inf _ | .fin _ _ _ => false

/-- Equal and ordered: -0 equals +0 (R73). -/
def FVal.eqv (a b : FVal) : Bool := !a.isNan && !b.isNan && !a.lt b && !b.lt a

def FVal.isNeg : FVal → Bool
  | .nan => false
  | .inf n => n
  | .fin n _ _ => n

/-- a below b with -0 below +0, for MIN and MAX (R142). -/
def FVal.below (a b : FVal) : Bool := a.lt b || (a.eqv b && a.isNeg && !b.isNeg)

/-! ## FP32 and FP64 words -/

def f32 (fz : Bool) (x : Word) : FVal := fp32.read fz x.toNat
def f64 (fz : Bool) (x : DWord) : FVal := fp64.read fz x.toNat
def w32 (n : Nat) : Word := BitVec.ofNat 32 n
def w64 (n : Nat) : DWord := BitVec.ofNat 64 n

/-- An FP32 add with RN and subnormals kept: WR.RED, atomics, reductions (R119, R236). -/
def fadd32 (a b : Word) : Word := w32 (fp32.put {} (FVal.add .rn (f32 false a) (f32 false b)))
def fadd64 (a b : DWord) : DWord := w64 (fp64.put {} (FVal.add .rn (f64 false a) (f64 false b)))

/-- FADD of an element of 32 or 64 bits. -/
def faddEl (wide : Bool) (a b : DWord) : DWord :=
  if wide then fadd64 a b else (fadd32 (a.extractLsb' 0 32) (b.extractLsb' 0 32)).setWidth 64

/-- F.MIN and F.MAX, R142: the other operand when one is NaN; the value chosen is rounded into the format, which
changes a number only by FZ. -/
def fminmax (f : FFmt) (c : RCtl) (isMax : Bool) (a b : FVal) : Nat :=
  f.put c (match a.isNan, b.isNan with
    | true, true => .nan
    | true, false => b
    | false, true => a
    | false, false => if isMax then (if a.below b then b else a) else (if b.below a then b else a))

/-- The class of an FP32 operand, R142 CLS: 0 to 9. -/
def fclass (x : Word) : Nat :=
  match fp32.dec x.toNat with
  | .nan => if x.getLsbD 22 then 9 else 8
  | .inf true => 0
  | .inf false => 7
  | .fin neg num _ =>
    if num = 0 then (if neg then 3 else 4)
    else if num < 2 ^ 23 then (if neg then 2 else 5)
    else (if neg then 1 else 6)

/-! ## Integers -/

/-- A value rounded to an integer by RM, R89; NaN gives 0, infinities saturate. -/
def FVal.toInt (rm : RM) (v : FVal) (lo hi : Int) : Int :=
  match v with
  | .nan => 0
  | .inf n => if n then lo else hi
  | .fin neg num exp =>
    let r : Nat :=
      if 0 ≤ exp then num * 2 ^ exp.toNat
      else
        let k := (-exp).toNat
        let q := num / 2 ^ k
        let rem := num % 2 ^ k
        if rem = 0 then q else if roundUp { rm := rm } neg q rem k then q + 1 else q
    max lo (min hi (signed neg r))

/-- An integer as an exact value. -/
def FVal.ofInt (x : Int) : FVal := .fin (decide (x < 0)) x.natAbs 0

/-! ## Scales, R77, R81 -/

/-- The value of a UE8 scale; 0xFF is NaN. -/
def ue8 (e : BitVec 8) : FVal := if e = 0xFF then .nan else .fin false 1 ((e.toNat : Int) - 127)

/-- A scaled value, R81: NaN whenever the scale is. -/
def FVal.scale (v : FVal) (s : FVal) : FVal :=
  match s with
  | .nan => .nan
  | .inf n => .inf n
  | .fin _ num exp =>
    match v with
    | .nan => .nan
    | .inf n => .inf n
    | .fin n m e => .fin n (m * num) (e + exp)

/-! ## Element formats, R78, R79 -/

/-- A float element format. -/
def fmtF : Fmt → Option FFmt
  | .e4m3 => some e4m3
  | .e5m2 => some e5m2
  | .e3m2 => some e3m2
  | .e2m3 => some e2m3
  | .e2m1 => some e2m1
  | .f16 => some fp16
  | .bf16 => some bf16
  | .i8 | .i4 => none

/-- Bits of an element's slot in a register. -/
def fmtSlot : Fmt → Nat
  | .e4m3 | .e5m2 | .e3m2 | .e2m3 | .i8 => 8
  | .e2m1 | .i4 => 4
  | .f16 | .bf16 => 16

/-- Bits that the element uses of its slot. -/
def fmtBits : Fmt → Nat
  | .e4m3 | .e5m2 | .i8 => 8
  | .e3m2 | .e2m3 => 6
  | .e2m1 | .i4 => 4
  | .f16 | .bf16 => 16

/-- Element j of a register, R79: its bits. -/
def elemBits (f : Fmt) (x : Word) (j : Nat) : Nat := x.toNat / 2 ^ (fmtSlot f * j) % 2 ^ fmtBits f

/-- Put element j's bits into a register. -/
def elemPut (f : Fmt) (x : Word) (j : Nat) (b : Nat) : Word :=
  let mask : Word := BitVec.ofNat 32 ((2 ^ fmtSlot f - 1) * 2 ^ (fmtSlot f * j))
  (x &&& ~~~mask) ||| BitVec.ofNat 32 (b % 2 ^ fmtBits f * 2 ^ (fmtSlot f * j))

/-- A two's complement field of n bits. -/
def sext (n b : Nat) : Int := if b % 2 ^ n < 2 ^ (n - 1) then b % 2 ^ n else (b % 2 ^ n : Int) - 2 ^ n

/-- The value of an element; integers are unsigned where `uns`. -/
def elemVal (f : Fmt) (fz uns : Bool) (b : Nat) : FVal :=
  match fmtF f with
  | some g => g.read fz b
  | none => if uns then .fin false (b % 2 ^ fmtBits f) 0 else FVal.ofInt (sext (fmtBits f) b)

/-- R86: the number that stochastic rounding draws. -/
def srHash (seed : Word) (i : Nat) : Nat :=
  let h := seed ^^^ (BitVec.ofNat 32 i * 0x9E3779B9)
  let h := h ^^^ (h >>> 16)
  let h := h * 0x85EBCA6B
  let h := h ^^^ (h >>> 13)
  let h := h * 0xC2B2AE35
  let h := h ^^^ (h >>> 16)
  h.toNat

/-- A value into an element format: floats by R84 (with SAT as given), integers by R89. -/
def elemPutVal (f : Fmt) (c : RCtl) (v : FVal) : Nat :=
  match fmtF f with
  | some g => g.conv c v
  | none =>
    let r := v.toInt c.rm (-(2 ^ (fmtBits f - 1))) (2 ^ (fmtBits f - 1) - 1)
    (r % 2 ^ fmtBits f).toNat

/-- floor(log2 |x|) of a finite nonzero value. -/
def FVal.log2 (v : FVal) : Int :=
  match v with
  | .fin _ num exp => (Nat.log2 num : Int) + exp
  | .nan | .inf _ => 0

/-- emax of R82. -/
def fmtEmax : Fmt → Int
  | .e4m3 => 8
  | .e5m2 => 15
  | .e3m2 => 4
  | .e2m3 => 2
  | .e2m1 => 2
  | .i8 => 6
  | .i4 => 2
  | .f16 => 15
  | .bf16 => 127

/-- The canonical scale of R82 from the largest magnitude. -/
def canonScale (f : Fmt) (amax : FVal) : BitVec 8 :=
  match amax with
  | .nan | .inf _ => 0xFF
  | .fin _ num _ =>
    if num = 0 then 127
    else BitVec.ofNat 8 (max 0 (min 254 (amax.log2 - fmtEmax f + 127))).toNat

end Sys2Proof.Machine
end

