-- ==== Sys2Proof/Config.lean ====
section
/-! DEFINITION. What the UX9-3M768 fixes (01_device R10, R14) and the values this model leaves free: an opaque
constant has no body, so nothing proved here rests on a value of it. -/

namespace Sys2Proof.Config

/-- Cores of the module, R10. -/
def nCore : Nat := 192
/-- Sub-cores of a core, R10. -/
def nSub : Nat := 4
/-- Home slices of the module, R10. -/
def nSlice : Nat := 192
/-- Rill links of the module, R11. -/
def nLink : Nat := 24
/-- Bytes of a line at every level, R10. -/
def lineBytes : Nat := 128
/-- Lines of a core's L1, R10: 128 KiB. -/
def l1Lines : Nat := 1024
/-- Lines of a slice's L2, R10: 2 MiB. -/
def l2Lines : Nat := 16384
/-- Device-memory offsets at or above this name no memory, R200: 768 GiB. -/
def memBytes : Nat := 768 * 2 ^ 30
/-- Churn budget of a core in bytes, R152. -/
def churnBudget : Nat := 262144
/-- Tiles of one accumulator store, R173. -/
def nTile : Nat := 64
/-- Entries of an engine's command queue, R280. -/
def engineQueue : Nat := 64
/-- Warps resident on one sub-core, R10. -/
def subWarps : Nat := 16
/-- Cycles after which a runnable entry is promoted, R97. -/
def promoteCycles : Nat := 1024
/-- Cycles that a yielded entry waits at most, R114. -/
def yieldCycles : Nat := 64
/-- Cycles of one Sluice window, R192. -/
def sluiceWindow : Nat := 64
/-- Units a core's arrays can absorb in one window, R192. -/
def sluiceMax : Nat := 1024

/-- The vendor's public key of 68 bytes, in fuses (R383): OID, root and seed. A free value (assumption log 13). -/
opaque vendorKey : List Byte
/-- The secrets of the module's identity key (R384), generated in the factory: the first element of each chain of each leaf,
the key of the randomizer, and the public seed. Free values (assumption log 13). -/
opaque identitySecret (leaf chain : Nat) : List Byte
opaque identityPrf : List Byte
opaque identitySeed : List Byte
/-- A value that the spec leaves open, drawn afresh at each use: the argument is the model's own counter (assumption
log 7). -/
opaque freeValue (n : Nat) : Word
/-- A core image as the device writes it to a save area (R339, R342): its layout is the device's own. A free value
(assumption log 34). -/
opaque coreImage (n : Nat) : List Byte
/-- The 64-bit CRC of a flit over its bytes 0 to 247 (R360): the spec does not give its polynomial. A free value
(assumption log 55). -/
opaque crc64 (bytes : List Byte) : BitVec 64
/-- The 16 bytes of a message's first slot (R360): the spec does not give their layout. A free value (assumption log
55). -/
opaque headBytes (p : Packet) (n : Nat) : List Byte
/-- What the ACK field of a flit says (R360): the flits that it acknowledges, the credits that it returns in a class, and
whether it asks for the oldest flit not acknowledged to be sent again. The spec does not give its layout: free values
(assumption log 55). -/
opaque ackFlits (ack : BitVec 16) : Nat
opaque ackCredits (ack : BitVec 16) (c : FabClass) : Nat
opaque ackAgain (ack : BitVec 16) : Bool
/-- The ACK field that acknowledges some flits, returns some credits and may ask for a flit again. A free value (assumption
log 55). -/
opaque ackField (flits : Nat) (credits : FabClass → Nat) (again : Bool) : BitVec 16
/-- Messages of one class that a link may carry beyond the first without a credit returned (R361). A free value
(assumption log 55). -/
opaque linkCredits : Nat
/-- The place of a monitor's record among the chips of its context, a hash of context and colour (R276): the spec does not
give the hash. A free value (assumption log 76). -/
opaque monHash (ctx colour : Nat) : Nat

end Sys2Proof.Config
end

