-- ==== Sys2Proof/Machine/Map.lean ====
section
/-! DEFINITION. Finite maps from numbers: lists of pairs in rising order of key. A map read with a default lists no
entry equal to it, so equal contents are equal lists. -/

namespace Sys2Proof.Machine

/-- A finite map: keys strictly rising. -/
abbrev AMap (α : Type) := List (Nat × α)

/-- The entry at a key. -/
def AMap.get? {α : Type} : AMap α → Nat → Option α
  | [], _ => none
  | (k, v) :: m, i => if i < k then none else if i = k then some v else AMap.get? m i

/-- Set the entry at a key. -/
def AMap.set {α : Type} : AMap α → Nat → α → AMap α
  | [], i, x => [(i, x)]
  | (k, v) :: m, i, x =>
    if i < k then (i, x) :: (k, v) :: m else if i = k then (i, x) :: m else (k, v) :: AMap.set m i x

/-- Remove the entry at a key. -/
def AMap.del {α : Type} : AMap α → Nat → AMap α
  | [], _ => []
  | (k, v) :: m, i => if i = k then m else (k, v) :: AMap.del m i

/-- The entry at a key, or the default. -/
def AMap.getD {α : Type} (m : AMap α) (i : Nat) (d : α) : α := (m.get? i).getD d

/-- Set the entry at a key of a map read with a default: an entry equal to the default is not listed. -/
def AMap.putD {α : Type} [DecidableEq α] (m : AMap α) (i : Nat) (x d : α) : AMap α :=
  if x = d then m.del i else m.set i x

/-- Change the entry at a key, where there is one. -/
def AMap.modify {α : Type} (m : AMap α) (i : Nat) (f : α → α) : AMap α :=
  match m.get? i with
  | some x => m.set i (f x)
  | none => m

/-- Keys rise strictly. -/
def AMap.sorted {α : Type} : AMap α → Bool
  | [] => true
  | [_] => true
  | a :: b :: m => decide (a.1 < b.1) && AMap.sorted (b :: m)

/-- The canonical form of a map read with a default. -/
def AMap.canon {α : Type} [DecidableEq α] (m : AMap α) (d : α) : Bool := m.sorted && m.all (fun e => decide (e.2 ≠ d))

def AMap.keys {α : Type} (m : AMap α) : List Nat := m.map (·.1)
def AMap.vals {α : Type} (m : AMap α) : List α := m.map (·.2)

/-- Insert into a list in rising order of a key. -/
def insertBy {α : Type} (key : α → Nat) (x : α) : List α → List α
  | [] => [x]
  | y :: l => if key x ≤ key y then x :: y :: l else y :: insertBy key x l

/-- A list in rising order of a key. -/
def sortBy {α : Type} (key : α → Nat) : List α → List α
  | [] => []
  | x :: l => insertBy key x (sortBy key l)

/-- Numbers in rising order. -/
def sortNat (l : List Nat) : List Nat := sortBy id l

end Sys2Proof.Machine
end

