-- ==== Sys2Proof/Machine/State.lean ====
section
/-! DEFINITION. The state of one module: all the spec gives it, as plain data (01_device to 17_management_power), and
the few fields of the model's own that say who moves next. -/

namespace Sys2Proof.Machine

/-! ## Lanes and warps -/

/-- States of a lane, R93. -/
inductive Life where
  | live | exited | helper | absent
  deriving DecidableEq, Repr

/-- State of a program-counter table entry, R94, and where a lane that is not in the table stands. -/
inductive Entry where
  | runnable
  | flagBlocked (wait : BitVec 12)
  | fetching (walk : Nat)                   -- waits for the translation of its clause address (R328)
  | group (g : Nat)                         -- inside the issue group g, moving or parked at a word
  | napping (t : Nat)                       -- until sr.time >= t (R114)
  | yielded (cycle : Nat)                   -- held by X.YIELD; at most until that cycle (R114)
  | trapped                                 -- stopped at a word by a trap held pending (R331)
  | gone                                    -- exited or absent: removed from the table
  deriving DecidableEq, Repr

/-- An entry of the return stack, R109, R110. -/
structure RetEntry where
  ret : DWord
  held : BitVec 8
  deriving DecidableEq, Repr

/-- An occupied colour slot, R264. -/
structure Slot where
  colour : Nat
  depth : Nat
  deriving DecidableEq, Repr

/-- One logical lane of a warp: R93, R94, R97, R108 to R110, R114, R122, R264, R288, R331, R404. -/
structure Lane where
  life : Life := .absent
  entry : Entry := .gone
  handler : Bool := false
  pc : DWord := 0                           -- clause address
  since : Nat := 0                          -- cycle since which the entry is runnable
  promoted : Bool := false
  led : Option DWord := none                -- the transferring instruction that led to pc (R36)
  v : AMap Word := []                       -- v registers that are not 0
  vBad : List Nat := []                     -- v registers and, at 240 + n, predicates with an uncorrectable error (R125)
  p : BitVec 8 := 0x80                      -- p0 to p7; p7 reads true (R26)
  emask : Word := 0
  depth : Nat := 0
  stack : List RetEntry := []               -- the most recent entries, newest first, at most 16
  rsp : DWord := 0
  stkBase : DWord := 0                      -- base of the thread's stack region (R110, R307)
  slots : List Slot := []                   -- ascending colour
  oldCode : AMap (AMap Byte) := []          -- code lines invalidated since its last control transfer, as they were (R43)
  credit : Option DWord := none             -- reached this meeting word without executing, for a meeting to come (R404)
  opened : List Nat := []                   -- commands queued since the last CP.SEAL (R288)
  batches : List (List Nat) := []           -- unfinished batches, oldest first: their unfinished commands
  deriving DecidableEq, Repr

/-- A guard slot, R290. -/
inductive Guard where
  | opened | tru | fls
  deriving DecidableEq, Repr

/-- What a trap sets, R331, R335, R337. -/
structure Trap where
  code : Nat
  info : BitVec 8 := 0
  fetch : Bool := false
  write : Bool := false
  tpc : DWord
  tad : DWord := 0
  tch : DWord
  lanes : List Nat := []                    -- the stopped thread lanes
  stop : Nat := 0                           -- the group that stopped (R96); 0: lanes at a clause start
  deriving DecidableEq, Repr

/-- A resident warp. -/
structure Warp where
  block : Nat := 0                          -- id of its block
  num : Nat := 0                            -- sr.warp
  core : Nat := 0
  sub : Nat := 0                            -- sub-core within the core
  regs : Nat := 0                           -- allocated v registers per lane, 8 x granules (R126)
  quarters : AMap Nat := []                 -- allocated quarters and their base slices (R126)
  quarterSet : List Nat := []               -- quarters that hold a thread lane (R93, R182)
  lanes : AMap Lane := []                   -- lanes that are not absent
  s : AMap Word := []
  q : BitVec 8 := 0
  sBad : List Nat := []                     -- s registers and, at 48 + n, q registers with an uncorrectable error (R125)
  flags : AMap Nat := []                    -- outstanding attachments of f0 to f11 that are not 0
  guards : AMap Guard := []                 -- guard slots that are not open
  gwct : Nat := 0
  tcs : DWord := 0
  tpc : DWord := 0
  tad : DWord := 0
  tlm : Word := 0
  tch : DWord := 0
  tsv : AMap DWord := []
  stop : Nat := 0                           -- the group whose stop the handler serves (R96)
  pending : List Trap := []                 -- traps held pending, earliest first (R331)
  stall : AMap Nat := []                    -- the 16 stall counters that are not 0 (R371)
  tileNeed : Nat := 0
  tileBase : Nat := 0
  tiles : AMap Word := []                   -- element 256 t + 16 row + col, not +0
  tileBad : List Nat := []                  -- elements with an uncorrectable error (R177)
  ordCount : Nat := 0                       -- RD.ORD instructions executed (R225)
  doubleTrap : Bool := false                -- ended by a double trap (R372)
  lsecc : Option (Nat × Nat) := none        -- the block and word of the LSECC that its handler serves (R160)
  counts : List (DWord × Nat) := []         -- lanes that a meeting pending at a word has counted (R404)
  dbgHalt : Bool := false                   -- halted by a stop of its sub-core (R344, R374)
  deriving DecidableEq, Repr

/-! ## Issue groups -/

/-- Why an issue group does not move, R94, R106. -/
inductive Park where
  | run
  | meeting                                 -- R106, R107, R181
  | barrier (id : Nat)
  | cbarrier (id : Nat)
  | fence (scope : Scope)
  | arrive (wide : Bool)                    -- waits for its own earlier work before an arrival (R120, R294)
  | release                                 -- a return or C.WAIT waits for its release (R113)
  | walk (ids : List Nat)
  | lines (core : Nat) (ls : List Nat)      -- waits for accesses of its core to these lines that may change its copies
  | flag (f : Nat)                          -- waits for room in a flag's count (R40)
  | colours                                 -- waits for colour queries (R266)
  | monitor (colour : Nat)                  -- queued for a monitor (R271)
  | condition (colour : Nat)                -- in C.WAIT (R272)
  | engineQueue                             -- R280
  | seal                                    -- R288
  | batch (n : Nat)                         -- CP.WAIT
  | guardClear (slot : Nat)                 -- G.CLR
  | ring (r st : Nat) (bar : Bar) (parity : Bool)
  | claim                                   -- waits for the clearing of a Churn region (R165)
  | hold (block : Nat)                      -- a local-store access waits for a block's relaunch (R377)
  | until_ (t : Nat)                        -- UC.SET waits for a time (R262)
  | sluice
  | shootdown (id : Nat)
  | gather                                  -- waits for transfers of its tiles (R176)
  | operands                                -- waits in a meeting for registers that it reads of other lanes (R40, R181)
  | remote                                  -- waits for its own earlier accesses to another core's store (R159, R160)
  | load                                    -- waits for its own accesses to other chips and host registers
  | spill                                   -- waits for words that it reads: stack entries (R110), records
  | device (lines : List Nat)               -- waits for lines that the device reads or takes for it (R301, R313)
  | halt                                    -- TR.HALT
  | helpers                                 -- helper lanes of a warp whose lanes are in a handler (R331)
  deriving DecidableEq, Repr

/-- The result of an access whose instruction may still trap: it takes effect once every access has returned (R42). -/
structure HeldRes where
  warp : Nat
  lane : Nat
  dst : Option Nat                          -- first register
  n : Nat                                   -- registers
  val : DWord
  work : Nat
  deriving DecidableEq, Repr

/-- What an instruction that waited already knows when it is executed again. -/
structure Memo where
  asked : Bool := false                     -- its colour queries have been sent
  colours : AMap Nat := []                  -- determined colour, by 32 x warp id + lane
  waiting : Nat := 0                        -- queries not yet answered
  fenced : Bool := false                    -- its fence has completed
  passed : Bool := false                    -- the wait of its park has ended
  notified : Bool := false                  -- C.WAIT: moved by a notification, not by its deadline
  arrived : Bool := false                   -- it has arrived on its barrier, or at its meeting
  delayed : List Nat := []                  -- warps whose delay by the Sluice has been counted (R194)
  refill : AMap DWord := []                 -- return addresses refilled, by 32 x warp id + lane (R110); words of records
  who : List (Nat × Nat) := []              -- the lanes whose work a fence or a barrier waits for
  left : Nat := 0                           -- accesses that it waits for in the park `load`
  bad : AMap DWord := []                    -- addresses of those that failed, by 32 x warp id + lane
  results : List HeldRes := []              -- what has returned (R42)
  pushes : List Nat := []                   -- partials on their way that a fence waits for (R238)
  full : List (Nat × Nat) := []             -- lanes that a full monitor table has turned away (R277)
  asks : List (Nat × Nat × Nat) := []       -- lanes that a record on another chip has still to answer (R271): warp, lane, colour
  xl : AMap Nat := []                       -- frames of its accesses as translated at issue (R328), by `xlKey`
  shots : List Nat := []                    -- shootdowns that wait for those accesses (R329)
  needs : List (Nat × Nat × Nat) := []      -- registers of lanes whose results a meeting waits for (R40): warp, lane, register
  deriving DecidableEq, Repr

/-- An issue group, R95, R96: its lanes as (warp id, lane), its clause as fetched (R43), and where it stands. -/
structure Group where
  core : Nat := 0
  sub : Nat := 0
  block : Nat := 0
  lanes : List (Nat × Nat) := []
  handler : Bool := false
  hdr : DWord := 0                          -- the header's address
  words : List Word := []                   -- the words after the header
  seta : Option (Fin 12) := none
  setb : Option (Fin 12) := none
  pc : DWord := 0                           -- the current word
  next : DWord := 0                         -- the word after the current instruction
  word0 : Word := 0                         -- the current instruction's first word
  park : Park := .run
  memo : Memo := {}
  split : Nat := 0                          -- the parts of a group that has split by R296 share this number; 0: not split
  deriving DecidableEq, Repr

/-! ## Blocks, clusters, launches -/

/-- A claimed Churn region, R161, R165, R170, R172. -/
structure Churn where
  off : Nat
  k : Nat
  hdr : DWord                               -- Spillway header address; 0: none
  base : DWord := 0
  limit : Nat := 0
  spilled : Nat := 0
  full : Nat := 0
  clearing : Bool := true
  id : Nat := 0                             -- the model's own: which claim of the block
  deriving DecidableEq, Repr

/-- The barriers of one ring stage, R292. -/
structure Stage where
  fp : Bool := false
  fn : Nat := 0
  ep : Bool := false
  en : Nat := 0
  adm : Nat := 0
  deriving DecidableEq, Repr

/-- A ring record, R292. -/
structure Ring where
  base : Nat
  s : Nat
  sz : Nat
  fc : Nat
  ec : Nat
  stages : AMap Stage := []
  deriving DecidableEq, Repr

/-- A barrier's phase in progress, R120: the count its first arrival fixed, and the arrivals. -/
structure Phase where
  count : Nat
  arrived : List (Nat × Nat) := []          -- (warp id, lane), in order of arrival
  deriving DecidableEq, Repr

/-- Global atomic and reduction operations, R236, R237. -/
inductive GOp where
  | add | min | max | and | or | xor | xchg | cas | fadd
  deriving DecidableEq, Repr

/-- A record of RD.ORD, R225: its key within the block, and its effect. -/
structure OrdRec where
  warp : Nat
  n : Nat
  lane : Nat
  pa : Nat
  op : GOp
  u : Bool
  w64 : Bool
  val : DWord
  vpage : Nat
  deriving DecidableEq, Repr

/-- A resident block: R91, R111, R120, R150, R151, R161, R225, R292, R307, R372, R377. -/
structure Block where
  ctx : Nat := 0
  launch : Nat := 0
  core : Nat := 0
  b : Nat := 0                              -- sub-core offset (R91)
  block : Nat := 0
  bx : Nat := 0
  by_ : Nat := 0
  cluster : Nat := 0
  cblock : Nat := 0
  nthread : Nat := 1
  nblock : Nat := 1
  rank : Nat := 0
  nrank : Nat := 1
  code : DWord := 0
  warps : List Nat := []                    -- warp ids, warp 0 first
  lsBase : Nat := 0                         -- local base in the core's store, in granules of 1 KiB
  lsGran : Nat := 0
  lsSize : Nat := 0                         -- local size in bytes
  churnSize : Nat := 0                      -- Churn budget taken (R152)
  ls : AMap Byte := []                      -- local-store bytes that are not 0
  lsBad : List Nat := []                    -- 8-byte words with an uncorrectable error (R160)
  churn : Option Churn := none
  rings : AMap Ring := []
  bars : AMap Phase := []
  param : AMap Byte := []                   -- parameter block copy
  paramLen : Nat := 0
  stkBase : DWord := 0
  stack : Nat := 0
  ordBase : DWord := 0
  ordSize : Nat := 0
  ords : List OrdRec := []
  ordDone : Bool := false
  det : Bool := false
  idem : Bool := false
  redun : Bool := false
  run : Nat := 1
  tstart : Nat := 0
  regs : Nat := 1                           -- REGS of its record
  tiles : Nat := 0
  zeroing : Bool := false                   -- placement zeroing not yet done (R153)
  failed : Bool := false
  recorded : Bool := false                  -- the record of its last run has been written (R372)
  ended : Bool := false                     -- ended by LSECC; its accesses are held (R377)
  endWord : Nat := 0                        -- the word of that LSECC
  told : Bool := false                      -- and its records have been written
  retired : Bool := false
  deriving DecidableEq, Repr

/-- A launch or continuation taken from a queue: R303, R304, R308, R314. -/
structure Launch where
  ctx : Nat := 0
  queue : Nat := 0
  index : Nat := 0                          -- queue index of its entry
  cont : Bool := false                      -- a continuation
  prio : Nat := 0
  curve : Nat := 0
  gcx : Nat := 1
  gcy : Nat := 1
  tilew : Nat := 0
  tileh : Nat := 0
  csize : Nat := 1                          -- blocks per cluster
  cx : Nat := 1
  threads : Nat := 1
  regs : Nat := 1
  tiles : Nat := 0
  lstore : Nat := 0
  churn : Nat := 0
  stack : Nat := 0
  stkBase : DWord := 0
  ordBase : DWord := 0
  ordSize : Nat := 0
  code : DWord := 0
  paramp : DWord := 0
  paramLen : Nat := 0
  frame : DWord := 0
  join : DWord := 0
  det : Bool := false
  idem : Bool := false
  redun : Bool := false
  chips : BitVec 64 := 0
  gen : Nat := 0
  src : Nat := 0                            -- the dispatching chip
  started : Bool := true                    -- START received, or not replicated
  answers : List Nat := []                  -- chips whose ACCEPT is still awaited (R314)
  nextK : Nat := 0                          -- next curve index to place
  nextD : Nat := 0                          -- where on the curve's square its point is sought (R306)
  placed : AMap Nat := []                   -- clusters placed and not retired, with the blocks not yet retired
  retired : Nat := 0                        -- clusters retired
  ordNext : Nat := 0                        -- blocks whose ordered records have been applied (R225)
  deriving DecidableEq, Repr

/-! ## Memory accesses in flight -/

/-- What an element access does. -/
inductive Act where
  | ld (signed : Bool)
  | st
  | at_ (op : GOp) (u : Bool)
  | rd (op : GOp) (u : Bool)
  | pre                                     -- FN.PRE: returns nothing
  | refill (group key : Nat)                -- a word that a waiting group reads: return-stack entries (R110), records
  | engine (cmd pos : Nat)                  -- bytes that an engine command reads, from this position on (R287)
  deriving DecidableEq, Repr

/-- How far an element access has come, R238. -/
inductive OpStage where
  | waiting                                 -- waits for ownership or a copy
  | path                                    -- in the ordered path to its home
  | applied                                 -- applied or returned
  deriving DecidableEq, Repr

/-- An element access in flight: at most 8 bytes of one line, R226. -/
structure Op where
  work : Nat
  warp : Nat
  lane : Nat
  core : Nat
  agent : Nat                               -- the L1 it goes through
  ctx : Nat
  act : Act
  pol : Pol
  pa : Nat
  len : Nat
  val : DWord := 0
  cmp : DWord := 0                          -- compare value of CAS
  dst : Option Nat := none                  -- first destination register
  dstLen : Nat := 0                         -- destination registers
  stage : OpStage := .waiting
  vpage : Nat := 0                          -- virtual page, for shootdowns
  va : DWord := 0
  hold : Option Nat := none                 -- the group that stays at the word until it returns
  spill : Option Nat := none                -- the spill that waits for its TAIL (R167)
  part : Option Nat := none                 -- the spill whose record it stores (R167)
  chain : List Nat := []                    -- later lanes' reductions into its element, combined with it (R227)
  stale : Bool := false                     -- its context has left the core since: it leaves no copy there (R254)
  whole : Bool := false                     -- a piece of a store that writes every byte of its line (R205)
  deriving DecidableEq, Repr

/-- The work of one instruction for one warp, attached to a flag, R40, R233. -/
structure Work where
  warp : Nat
  flag : Option Nat
  left : Nat
  deriving DecidableEq, Repr

/-- What a local-store access does, R169. -/
inductive LsAct where
  | ld (signed : Bool)
  | st
  | at_ (op : LsAtOp)
  deriving DecidableEq, Repr

/-- A remote local-store access, R159: performed later at the other core. -/
structure RemoteLs where
  work : Nat
  warp : Nat
  lane : Nat
  block : Nat                               -- the block whose local store it names
  addr : Nat
  len : Nat
  act : LsAct
  val : DWord
  cmp : DWord
  dst : Option Nat
  dstLen : Nat
  acc : Option (Nat × AccFmt) := none       -- ACC.LD and ACC.ST: its first tile element, and the format in the store
  deriving DecidableEq, Repr

/-- A spill in flight, R167: the record group of one H instruction waiting for its TAIL. -/
structure Spill where
  work : Nat
  warp : Nat
  block : Nat
  claim : Nat                               -- the claim it belongs to
  recs : List (Nat × DWord × DWord × DWord) -- lane, key, value, OPW and ORIG
  dsts : List (Nat × Nat)                   -- lane and status register
  core : Nat
  base : DWord
  limit : Nat
  tail : Option Nat := none                 -- the old TAIL, once the atomic has returned
  walks : List Nat := []                    -- walks that its record addresses wait for
  deriving DecidableEq, Repr

/-! ## Caches, homes, messages -/

/-- L1 line states, R206; state I is absence. -/
inductive CState where
  | e | m | t | l | u
  deriving DecidableEq, Repr

/-- A reduction partial, R223: its operator, the elements it holds by offset in the line, and whose they are. -/
structure Partial where
  op : GOp
  u : Bool
  w64 : Bool
  vals : AMap DWord
  who : List (Nat × Nat)
  deriving DecidableEq, Repr

/-- A line in the L1 of a core (agent c) or held by its engine (agent 256 + c), R206. -/
structure CLine where
  st : CState
  colour : Nat := 0
  dirty : List Nat := []                    -- dirty words
  data : AMap Byte := []                    -- bytes that are not 0, by offset
  expiry : Nat := 0
  lx : Nat := 0                             -- Lx passed with the grant of ownership (R211)
  partial_ : Option Partial := none
  ctx : Nat := 0
  deriving DecidableEq, Repr

/-- Package state of a line, R207: the holders are agents. -/
inductive Pkg where
  | i
  | t (who : List Nat)
  | o (who : Nat)
  | u (who : List Nat)
  deriving DecidableEq, Repr

/-- The rights that this chip's proxy holds on a remote line, R202. -/
inductive ChipRight where
  | none | tracked | own
  deriving DecidableEq, Repr

/-- What a transient line waits for, R208. -/
structure Busy where
  msg : Nat                                 -- the request being served
  from_ : List Nat                          -- agents whose acknowledgement is awaited
  host : Bool := false                      -- waits for the host's back-invalidation response (R357)
  chips : List Nat := []                    -- chips whose acknowledgement is awaited (R212)
  toAsk : Option ChipReq := none            -- what the remote home is asked once the package has answered (R202, R211)
  sent : Option ChipReq := none             -- what it has been asked
  remote : Bool := false                    -- waits for the remote home (R202)
  parts : AMap Partial := []                -- partials gathered for a fold, by agent (R224)
  gathered : List Nat := []                 -- the messages that brought them
  ans : ChipAns := {}                       -- what the remote home has answered (R202, R220)
  dead : Bool := false                      -- the remote home cannot answer: the request ends with poison (R363)
  deriving DecidableEq, Repr

/-- A line at its home or proxy: metadata R203, poison R205, tag R207, transient state R208, proxy rights R202. -/
structure HLine where
  st : Nat := 0                             -- 0 I, 1 S, 2 E, 3 O, 4 M
  who : Nat := 0
  hs : Bool := false
  colour : Nat := 0
  poison : Bool := false
  inL2 : Bool := false
  pkg : Pkg := .i
  lx : Nat := 0
  busy : Option Busy := none
  queue : List Nat := []
  chip : ChipRight := .none
  lease : Nat := 0                          -- expiry of the chip's own lease of a remote line, or 0 (R202)
  deriving DecidableEq, Repr

/-- What one message carries, R208, R211. -/
inductive Body where
  | own (op : Option Nat)                   -- ownership for an access; none: for an engine
  | thruRd (op : Nat)
  | leaseReq (op : Nat) (len : Nat)
  | trackReq (op : Nat)
  | write (op : Nat) (len : Nat)            -- a store or atomic applied at the home
  | rdLoc (op : Nat)
  | rdThru (op : Nat)
  | pushed (p : Partial) (drop : Bool) (ack : Bool)
  | wb (mask : List Nat) (data : AMap Byte) (drop : Bool) (work : Option Nat)
  | ack
  | colourQ (group : Nat) (slot : Nat)
  | recall (downgrade : Bool) (fold : Bool)
  | inval
  | data (op : Nat) (val : DWord) (line : Option CLine)
  | grant (op : Option Nat) (fresh : Bool) (line : CLine)
  | grantU (op : Nat)
  | wack (op : Nat) (gwct : Nat) (val : DWord) (line : Option CLine)
  | poisoned (op : Nat)                     -- completed with poison (R205, R363)
  | chipReq (chip id : Nat) (r : ChipReq)   -- from another chip (R212)
  | hostReq (n : Nat) (half : Bool)         -- a host request of one half of the line (R204, R357)
  | clear (off : Bool)                      -- the package's holders give the line up; `off`: those off the package too
  | devRd                                   -- the device reads the line of its own accord
  | devWr (at_ : Nat) (bytes : List Byte) (work : Option Nat) -- the device writes there of its own accord
  | recolour (group key c : Nat) (held : List Nat) -- UC.SET of a remote line (R262)
  deriving DecidableEq, Repr

/-- A message between a core (agent c), an engine (256 + c), the device itself (2999) and a home (1000 + slice), R208. -/
structure Msg where
  src : Nat
  dst : Nat
  line : Nat
  cls : Nat := 0                            -- Weir class of a request that takes a token
  ctx : Nat := 0
  metered : Bool := false
  body : Body
  deriving DecidableEq, Repr

/-! ## Translation -/

/-- What an access needs of a leaf, R324. -/
structure Need where
  rd : Bool := false
  wr : Bool := false
  ex : Bool := false
  deriving DecidableEq, Repr

/-- A cached translation, R327: level, virtual index at that level, entry word. -/
structure Tlb where
  ctx : Nat
  lvl : Nat
  idx : Nat
  ent : DWord
  deriving DecidableEq, Repr

/-- A walk in progress or finished with a fault, R325, R326, R327. -/
structure Walk where
  ctx : Nat
  va : Nat
  need : Need
  lvl : Nat := 3
  table : Nat
  fresh : Bool := false                     -- the second walk, from the homes
  fault : Option Nat := none                -- cause code once it has failed
  deriving DecidableEq, Repr

/-- A shootdown in progress, R329: the accesses and commands it waits for. -/
structure Shootdown where
  ctx : Nat
  all : Bool
  lo : Nat                                  -- first page
  n : Nat                                   -- pages
  domain : Bool
  group : Nat
  ops : List Nat
  cmds : List Nat
  pushes : List Nat := []                   -- partials on their way that it waits for
  ords : List (Nat × Nat) := []             -- by block, the first RD.ORD records, which are still to be applied (R225)
  joins : List Nat := []                    -- join changes on their way to other chips
  chips : List Nat := []                    -- chips of the domain that have still to answer
  origin : Option (Nat × Nat) := none       -- a shootdown of another chip: the chip, and its number there
  deriving DecidableEq, Repr

/-! ## Engines -/

/-- A tensor shape record, R285. -/
structure Shape4 where
  base : DWord
  dim : List Nat
  str : List Int
  box : List Nat
  esz : Nat
  rank : Nat
  fill : DWord
  deriving DecidableEq, Repr

/-- What a command copies, R287. -/
inductive CmdKind where
  | tile (sh : Shape4) (ls : Nat) (c : List Int)
  | store (sh : Shape4) (ls : Nat) (c : List Int)
  | lin (sl dl : Bool) (src dst : Nat) (len : Nat)
  | gath (sh : Shape4) (ls : Nat) (c0 : Nat) (rows : List Int)
  deriving DecidableEq, Repr

/-- A command in an engine's queue, R280 to R283, R287, R288, R290. -/
structure Cmd where
  ctx : Nat
  core : Nat
  block : Nat
  warp : Nat
  lane : Nat
  work : Nat
  kind : CmdKind
  xl : AMap Nat := []                       -- virtual page to frame, as translated at issue
  guard : Option Nat := none
  arv : Option (Nat × Nat) := none          -- ring and stage
  want : List Nat := []                     -- destination lines whose ownership is not yet granted
  lines : List Nat := []                    -- destination lines
  bound : List Nat := []                    -- colours whose slots it is bound to
  started : Bool := false
  srcBytes : AMap Byte := []                -- what it has read, by position
  read : List Nat := []                     -- the positions whose elements it has read
  written : List Nat := []                  -- destination lines that it has written (R257)
  units : List (Nat × Nat) := []            -- 8-byte units of local stores that it has written, by block (R284)
  srcBad : List Nat := []                   -- positions read from poisoned or failed words
  dead : List Nat := []                     -- destination lines that no link leads to (R363)
  saved : Bool := false                     -- unstarted, of a context switched out (R298)
  deriving DecidableEq, Repr

/-! ## Monitors -/

/-- Who may hold a monitor, R276: a thread of this chip, or a thread of another chip named by its identity. -/
inductive Tid where
  | here (warp lane : Nat)
  | remote (chip id : Nat)
  deriving DecidableEq, Repr

/-- A waiter of a condition queue, R272. -/
structure Waiter where
  who : Tid
  deadline : Option Nat
  depth : Nat                               -- DEPTH of the slot it gave up
  deriving DecidableEq, Repr

/-- An entry of an entry queue, R271; a former waiter keeps its slot's DEPTH, and whether it was notified (R272). -/
structure Entrant where
  who : Tid
  back : Option (Nat × Bool) := none
  deriving DecidableEq, Repr

/-- An active monitor's record, R276. -/
structure Mon where
  holder : Option Tid := none
  entryQ : List Entrant := []
  condQ : List Waiter := []
  deriving DecidableEq, Repr

/-- Releases still to be completed for one lane, highest colour first, R267, R268. -/
structure Rel where
  ctx : Nat
  warp : Nat
  lane : Nat
  colours : List Nat
  wait : Option (Option Nat) := none        -- C.WAIT: enters the condition queue, to wait for this many ns at most
  group : Option Nat := none                -- the group that waits for it
  ops : List Nat                            -- accesses in flight when it began
  cmds : List Nat
  spills : List Nat := []                   -- and spills whose records are still to be stored (R167)
  pushes : List Nat := []                   -- and partials on their way
  deriving DecidableEq, Repr

/-! ## Cores, contexts, partitions -/

/-- An event counter, R367. -/
structure Counter where
  esel : DWord := 0
  count : Nat := 0
  ovf : Bool := false
  gate : Bool := false
  deriving DecidableEq, Repr

/-- A core's registers and shared units: R191 to R194, R280, R367 to R373, and the fetch path of R43. -/
structure Core where
  icache : AMap (AMap Byte) := []           -- lines of the instruction fetch path, by line number
  engineQ : List Nat := []                  -- command ids, in queue order
  mxcRed : Bool := false
  budget : Nat := 1024                      -- SLB as written
  ramp : Nat := 256
  stalled : Nat := 0
  limited : Bool := false
  window : Nat := 0                         -- the window that the next four fields describe (R192)
  charge : Nat := 0                         -- units charged in it
  prev : Nat := 0                           -- units of the window before
  budgetNow : Nat := 1024                   -- SLB as it acts in it
  rampNow : Nat := 256
  counters : AMap Counter := []
  ecmp : DWord := 0
  ecmpHit : Bool := false                   -- sr.clock has reached ECMP in this cycle (R369)
  wrote : List Nat := []                    -- counters whose COUNT is written in this cycle (R367)
  frz : Bool := false
  strig : Bool := false
  oirq : BitVec 8 := 0
  stop : BitVec 4 := 0
  onhalt : Bool := false
  dumped : BitVec 4 := 0
  dumping : AMap (Nat × List Byte) := []    -- dumps still to be written, by sub-core: where, and what, as captured (R375)
  halts : Nat := 0
  dumpBase : DWord := 0
  swtrap : Bool := false                    -- a warp took SWTRAP or BKPT in this cycle (R369)
  stopped : Bool := false                   -- a sub-core became stopped in this cycle (R369)
  arrayFault : Option (Nat × Nat × Nat) := none -- where two computations will differ first: run, row, column (R190)
  halting : Bool := false                   -- stopped forming groups for a switch (R342)
  deriving DecidableEq, Repr

/-- How a context stands, R341, R342. -/
inductive CtxStatus where
  | bound (part : Nat)
  | saved
  | draining (part : Nat)
  deriving DecidableEq, Repr

/-- A context: its descriptor as bound R339, its registers R217, R336, R338, and its dispatch state R308, R314. -/
structure Ctx where
  root : Nat := 0
  wclass : Nat := 0
  mgmt : Bool := false
  qcount : Nat := 0
  qtb : DWord := 0
  mtb : DWord := 0
  mtn : Nat := 0
  tvb : DWord := 0
  leasens : Nat := 256
  dpri : Nat := 15
  save : Nat := 0
  savemib : Nat := 0
  status : CtxStatus := .saved
  gen : Nat := 0
  rot : AMap Nat := []                      -- at each priority, the queue after the one last taken
  late : AMap (Nat × Nat × Bool × Bool) := [] -- per queue: where its DEADLINE lies, its value, late now, counted (R310)
  chosen : List (Nat × Option Nat) := []    -- units chosen and not yet placed: queue, and launch where active (R308)
  cores : List Nat := []                    -- the cores of the partition that it last ran on (R345)
  pushQ : AMap (List Nat) := []             -- per queue: images of join pushes that wait for room (R301)
  deriving DecidableEq, Repr

/-- A partition: R341, R355, R372. -/
structure Partn where
  cmd : BitVec 3 := 0
  desc : DWord := 0
  run : Bool := false
  pre : Bool := false
  ready : Bool := false
  swt : Bool := false
  drn : Bool := false
  err : Bool := false
  ctx : Nat := 0
  cores : List Nat := []
  shadow : Option (Nat × Nat) := none       -- descriptor whose image is preloaded: its address, and its bytes as read
  incoming : Option Nat := none             -- descriptor of the switch in progress; none with SWT: an unbind
  draining : Option Nat := none             -- context whose image is draining
  waiting : List DWord := []                -- commands that wait (R341)
  brbase : DWord := 0
  brhead : Nat := 0
  deriving DecidableEq, Repr

/-- A home slice's own state: R215, R219, R228, R230. -/
structure Slice where
  horizon : Nat := 0
  buckets : AMap Nat := []
  pool : Nat := 0
  tick : Nat := 0                           -- last 64-ns tick served
  pmark : Nat := 0                          -- last 1,000-ns mark served
  port : List Nat := []                     -- requests that wait for a token, in arrival order
  deriving DecidableEq, Repr

/-! ## Host and fabric -/

/-- A request of the host at the device coherence agent, R357. -/
inductive HostReq where
  | rd (m : MemMeta) (data : Bool)
  | inv
  | wr (mask : BitVec 64) (data : List Byte)
  | snoop (inval : Bool)                    -- snoop of a host line that this chip owns (R352)
  deriving DecidableEq, Repr

/-- A CXL.cache request of the device, R351. -/
inductive D2H where
  | rdCurr | rdOwn | rdShared | wrCur | itoMWr | dirtyEvict | cleanEvict
  deriving DecidableEq, Repr

/-- What the chip sends to the host; `rdData` and `wrDone` name the HDM address. -/
inductive HostMsg where
  | rdData (addr : Nat) (data : List Byte) (md : MemMeta)
  | wrDone (addr : Nat)
  | d2h (op : D2H) (line : Nat)
  | regData (fn off : Nat) (v : Nat)        -- the answer to a register read
  | biSnp (line : Nat) (inval : Bool)       -- BISnpInv, or BISnpData
  | snpRsp (pa : Nat) (data : List Byte)
  | regRead (req : Nat) (addr : Nat) (len : Nat)
  | regWrite (req : Nat) (addr : Nat) (len : Nat) (val : DWord)
  | msix (fn vec : Nat)
  deriving DecidableEq, Repr

/-- A host register access in flight, R354. -/
structure RegReq where
  op : Nat
  load : Bool
  deriving DecidableEq, Repr

/-- A host access to a register that is served once the module is awake, R387: where in a function's BAR0, and what is
written there; none: it reads. -/
structure HeldReg where
  fn : Nat
  off : Nat
  len : Nat
  val : Option DWord
  deriving DecidableEq, Repr

/-- A join change of a lane on its way to another chip, R313, R319. -/
structure JoinReq where
  chip : Nat
  work : Nat
  warp : Nat
  lane : Nat
  dst : Option Nat
  vpage : Nat := 0
  deriving DecidableEq, Repr

/-- A Rill link, R360, R363, R388. -/
structure Link where
  up : Bool := false
  peer : Nat := 0
  replays : Nat := 0
  fails : Nat := 0                          -- replays of the flit expected next that have failed (R363)
  rxSeq : Nat := 0                          -- the flit expected next
  rx : Option (Packet × Nat × List Byte) := none -- a message whose data is still to come: slots, and bytes so far
  rxAcks : Nat := 0                         -- flits received and not yet acknowledged
  rxCredits : AMap Nat := []                -- credits to be returned, by class
  txSeq : Nat := 0                          -- the number of the next flit sent
  resent : Nat := 0                         -- times that the oldest flit not acknowledged was sent again
  replay : List Flit := []                  -- sent and not yet acknowledged, oldest first
  credits : AMap Nat := []                  -- messages sent whose credit has not come back, by class (R361)
  wait : List Packet := []                  -- messages that wait for a credit, oldest first
  out : List Flit := []                     -- sent, oldest first
  held : List Packet := []                  -- kept for a chip in A3 (R388)
  asleep : Bool := false                    -- the chip at the other end is in A3
  wake : Bool := false                      -- this chip raises wake on it
  deriving DecidableEq, Repr

/-! ## Management -/

/-- The management processor's stages, R380. -/
inductive MStage where
  | rom | verify | recovery | init | ready | fault
  deriving DecidableEq, Repr

/-- A management command in progress, R381. -/
inductive MJob where
  | loadfw | stagefw | attest
  deriving DecidableEq, Repr

/-- The management processor: R379 to R389. -/
structure Mgmt where
  stage : MStage := .rom
  busy : Bool := false
  err : Bool := false
  lasterr : Nat := 0
  fwver : Nat := 0
  cmd : Nat := 0
  marg : DWord := 0
  job : Option MJob := none
  jobErr : Nat := 0                         -- how the command in progress will end
  jobImage : List Byte := []                -- the image that it has copied, or the report that it will write
  jobAddr : Nat := 0                        -- where the report goes
  image : List Byte := []                   -- the running image
  flash : List Byte := []
  minver : Nat := 0
  leaf : Nat := 0
  sens : AMap (BitVec 16) := []
  tcap : AMap Nat := []                     -- TCAPd that is not 1,024
  tol : Nat := 0
  ltrEn : Bool := false
  pstate : Nat := 0                         -- A0 to A3
  entries : Nat := 0
  exiting : Bool := false                   -- a wake is being served
  a1 : List Nat := []                       -- dies whose clocks are off
  busyAt : Nat := 0                         -- time at which the condition of A2 last did not hold (R386)
  dieBusyAt : AMap Nat := []                -- time at which a die last had a resident warp
  hot : List Nat := []                      -- dies that the limit is lowering (R385)
  sensAt : Nat := 0                         -- last 1-ms mark at which the sensors were read
  log : List Nat := []                      -- the event log: dies that passed 115 degrees
  deriving DecidableEq, Repr

/-- Time synchronisation, R364, R365. -/
structure TimeSync where
  lock : Bool := false
  master : Bool := false
  offs : Int := 0
  losses : Nat := 0
  within : Nat := 0                         -- exchanges in a row within 2 ns
  last : Nat := 0                           -- time of the last TIME message from the master's side
  sent : Nat := 0                           -- last 1,000-ns mark at which TIME messages were sent
  rate : Int := 0                           -- rate correction in parts per million
  deriving DecidableEq, Repr

/-- One event that counts in the current cycle, R368. -/
structure Tally where
  core : Nat
  sub : Nat
  event : Nat
  n : Nat
  ctx : Nat
  deriving DecidableEq, Repr

/-- What happens next, when the agenda says so: the order in which the module's agents, the host, the other chips and
chance move (assumption log 6). -/
inductive Choice where
  | event (i : Instr)
  | issue (g : Nat)                         -- this group issues its next word
  | form (core sub : Nat)                   -- this sub-core forms a group
  | pass                                    -- a cycle passes
  | hostWrite (pa : Nat) (b : Byte)         -- the host writes its own memory
  | upsetReg (warp lane reg : Nat)          -- an uncorrectable error appears (R125, R160, R177, R205); 240 to 247 are p, 248 to 255 q
  | upsetTile (warp el : Nat)
  | upsetLs (block word : Nat)
  | upsetLine (line : Nat)
  | upsetArray (core run row col : Nat)
  | corrected (kind unit ctx start len info : Nat) -- an error that the codes correct (R376)
  | hostData (line : Nat)                   -- the host answers a CXL.cache request (R351, R352)
  | hostRegRead (fn off len : Nat)          -- the host reads a register (R353)
  | hdmBase (a : Nat)                       -- the host writes the base of its HDM decoder (R352)
  | route (chip : Nat) (links : List Nat)   -- the management processor writes a route (R362)
  | slb (core : Nat) (v : Word)             -- the host sets a core's SLB through the management processor (R193)
  | engineUnit (cmd : Nat) (write : Bool) (block unit : Nat) -- an engine reads or writes one unit of a local store (R284)
  | engineLine (cmd line : Nat)             -- an engine writes one destination line (R257)
  | auto                                    -- what happens by itself next
  | linkSleep (link : Nat)                  -- the chip at a link's other end enters A3 (R388)
  | monsAway (ctx n : Nat)                  -- the active monitors of a context that have their records on other chips (R277)
  deriving DecidableEq, Repr

/-- Who issues next. -/
inductive Focus where
  | none
  | group (g : Nat)
  | sub (core sub : Nat)
  deriving DecidableEq, Repr

/-- A register with bits that a write of 1 clears, R7. -/
inductive W1c where
  | mstat | bstat | hrstat | erctl | tstat
  | pstat (n : Nat)
  | sls (core : Nat)
  | lstat (k : Nat)
  deriving DecidableEq, Repr

/-- The module. -/
structure State where
  -- time (R111, R364)
  clock : Nat := 0                          -- cycles since reset
  time : Nat := 0                           -- global time in ns
  frac : Nat := 0                           -- in 12,000,000ths of a ns
  dieOff : AMap Nat := []                   -- how far each die's time runs ahead
  -- threads
  warps : AMap Warp := []
  blocks : AMap Block := []
  launches : AMap Launch := []
  groups : AMap Group := []
  cbars : AMap Phase := []                  -- cluster barriers, by 4 x (2^20 x launch + cluster) + id
  works : AMap Work := []
  ops : AMap Op := []
  remotes : AMap RemoteLs := []
  spills : AMap Spill := []
  cmds : AMap Cmd := []
  -- memory
  mem : List Host.Cell := []                -- by physical address, bytes that are not 0
  lines : AMap HLine := []
  caches : AMap CLine := []                 -- by 1024 x line + agent
  slices : AMap Slice := []
  msgs : AMap Msg := []
  hostReqs : AMap HostReq := []
  weir : AMap DWord := []                   -- WEIR0 to WEIR15
  -- translation
  tlb : List Tlb := []
  walks : AMap Walk := []
  shoots : AMap Shootdown := []
  -- monitors
  mons : AMap Mon := []                     -- by 4096 x context + colour
  monsAway : AMap Nat := []                 -- active monitors of a context that have their records on other chips (R277)
  rels : AMap Rel := []
  -- cores, contexts, partitions
  cores : AMap Core := []
  ctxs : AMap Ctx := []
  parts : AMap Partn := []
  chip : Nat := 0                           -- sr.chip
  domain : List Nat := [0]                  -- chips of the launch domain
  -- host link
  hrb : DWord := 0
  hrErr : Bool := false
  hrFails : Nat := 0
  btb : DWord := 0
  flips : List DWord := []                  -- flips queued, oldest first
  flipOn : Bool := false                    -- the first of them is in progress
  flipDone : Nat := 0
  flipErr : Bool := false
  bflip : DWord := 0                        -- last value written
  heldHost : List Nat := []                 -- host requests held by a flip, oldest first
  heldRegs : List HeldReg := []             -- register accesses held by a low-power state, oldest first (R387)
  flipAt : Nat := 0                         -- the line of its page that the flip in progress has reached (R359)
  flipSent : Bool := false                  -- and whether that line has been asked for
  biWait : AMap Bool := []                  -- lines whose back-invalidation response is awaited
  hdm : Nat := 0                            -- base of the HDM decoder (R352)
  regReqs : AMap RegReq := []
  out : List HostMsg := []
  -- fabric and time
  links : AMap Link := []
  joins : AMap JoinReq := []
  inbox : List Packet := []                 -- messages of other chips on which the device has still to act, oldest first
  heldMsgs : List Packet := []              -- messages that have come in A2, oldest first (R387)
  routes : AMap (List Nat) := []            -- per destination chip, the links that lead towards it
  sync : TimeSync := {}
  -- reports
  erbase : DWord := 0
  erhead : Nat := 0
  ertail : Nat := 0
  erCorr : Bool := false
  erLost : Nat := 0
  tally : List Tally := []
  moved : List Nat := []                    -- warps that a compactor has moved in this cycle (R371)
  fresh : List (W1c × DWord) := []          -- bits set in this cycle of fields that a write of 1 clears (R7)
  -- management
  mgmt : Mgmt := {}
  -- the model's own
  agenda : List Choice := []
  focus : Focus := .none
  need : List (Nat × Bool) := []            -- within one event: lines that it cannot reach at once, and whether it writes them
  used : List Nat := []                     -- within one event: fetched lines that it has read
  fetched : AMap (AMap Byte) := []          -- lines that the device has read, away from its own memory, for an event to come
  free : Nat := 0                           -- free values drawn
  ids : Nat := 0                            -- last identifier given
  deriving DecidableEq, Repr

/-- What stops the machine: nothing does. An access that the device makes of its own accord has the effect of a THRU access
wherever its register places it, and one that names no memory has none (assumption log 14). -/
inductive Fault where
  deriving DecidableEq, Repr

/-- Why a step has no meaning in a state. -/
inductive Refusal where
  /-- Raised by `exec` for an instruction that has no meaning in the model. Safe. -/
  | notModelled (mnemonic : String)
  /-- Raised by `exec` for an event of the device whose condition does not hold: the event does not happen. Safe:
  `step` never takes such an event. -/
  | notEnabled
  deriving DecidableEq, Repr

/-- The outcome of a step. -/
abbrev Out := Host.Outcome State Fault Refusal

/-- The module right after reset: nothing resident, no memory listed, every register at its reset value (R389, and
each register's rule; the values the spec does not give are named in assumption log 2). DESIGN CHOICE, log 2. -/
def State.reset : State := {}

end Sys2Proof.Machine
end

