-- ==== Sys2Proof/Machine/Ops.lean ====
section
/-! DEFINITION. The named operations over registers, lanes, groups and bytes, and taking a trap (05_threads_control,
06_registers_arithmetic R122 to R125, 14_translation_traps R331 to R335). -/

namespace Sys2Proof.Machine

/-! ## Outcomes -/

/-- Go on from a next state. -/
def andThen (o : Out) (k : State → Out) : Out :=
  match o with
  | .next s => k s
  | .fault f => .fault f
  | .refused r => .refused r

/-- An event happens where its condition holds. DESIGN CHOICE, log 8. -/
def when (c : Bool) (s : State) : Out := if c then .next s else .refused .notEnabled

/-- A value that the spec leaves open, drawn afresh (assumption log 7). DESIGN CHOICE, log 7. -/
def State.drawFree (s : State) : DWord × State :=
  (Config.freeValue (s.free + 1) ++ Config.freeValue s.free, { s with free := s.free + 2 })

/-- A fresh identifier. -/
def State.newId (s : State) : Nat × State := (s.ids + 1, { s with ids := s.ids + 1 })

/-! ## Bytes -/

/-- Memory: bytes by address, those that are not 0 (R203, R389; assumption log 4 for host memory). -/
abbrev Memory := List Host.Cell

/-- The canonical form: addresses rise strictly, and no byte listed is 0. -/
def Memory.wf (m : Memory) : Bool := AMap.canon (α := Byte) m 0

def memGet (m : Memory) (a : Nat) : Byte := AMap.getD (α := Byte) m a 0
def memPut (m : Memory) (a : Nat) (b : Byte) : Memory := AMap.putD (α := Byte) m a b 0

/-- `n` bytes from address `a` as a number, least significant first (R5). -/
def memRead (m : Memory) : Nat → Nat → Nat
  | _, 0 => 0
  | a, n + 1 => (memGet m a).toNat + 256 * memRead m (a + 1) n

/-- Write the low `n` bytes of a number. -/
def memWrite (m : Memory) : Nat → Nat → Nat → Memory
  | _, 0, _ => m
  | a, n + 1, x => memWrite (memPut m a (BitVec.ofNat 8 x)) (a + 1) n (x / 256)

/-- `n` bytes as a list. -/
def memBytes (m : Memory) (a n : Nat) : List Byte := (List.range n).map fun i => memGet m (a + i)

def memPutBytes (m : Memory) : Nat → List Byte → Memory
  | _, [] => m
  | a, b :: bs => memPutBytes (memPut m a b) (a + 1) bs

/-! ## Access to the parts of the state -/

def State.core (s : State) (c : Nat) : Core := s.cores.getD c {}
def State.setCore (s : State) (c : Nat) (x : Core) : State := { s with cores := s.cores.putD c x {} }
def State.modCore (s : State) (c : Nat) (f : Core → Core) : State := s.setCore c (f (s.core c))
def State.warp (s : State) (w : Nat) : Warp := s.warps.getD w {}
def State.setWarp (s : State) (w : Nat) (x : Warp) : State := { s with warps := s.warps.set w x }
def State.modWarp (s : State) (w : Nat) (f : Warp → Warp) : State := { s with warps := s.warps.modify w f }
def State.block (s : State) (b : Nat) : Block := s.blocks.getD b {}
def State.setBlock (s : State) (b : Nat) (x : Block) : State := { s with blocks := s.blocks.set b x }
def State.modBlock (s : State) (b : Nat) (f : Block → Block) : State := { s with blocks := s.blocks.modify b f }
def State.modGroup (s : State) (g : Nat) (f : Group → Group) : State := { s with groups := s.groups.modify g f }
def State.delGroup (s : State) (g : Nat) : State := { s with groups := s.groups.del g }
def State.ctx (s : State) (c : Nat) : Ctx := s.ctxs.getD c {}
def State.modCtx (s : State) (c : Nat) (f : Ctx → Ctx) : State := { s with ctxs := s.ctxs.modify c f }
def State.part (s : State) (n : Nat) : Partn := s.parts.getD n {}
def State.modPart (s : State) (n : Nat) (f : Partn → Partn) : State :=
  { s with parts := s.parts.putD n (f (s.part n)) {} }
def State.hline (s : State) (l : Nat) : HLine := s.lines.getD l {}
def State.setHline (s : State) (l : Nat) (x : HLine) : State := { s with lines := s.lines.putD l x {} }
def State.slice (s : State) (n : Nat) : Slice := s.slices.getD n {}
def State.setSlice (s : State) (n : Nat) (x : Slice) : State := { s with slices := s.slices.putD n x {} }
def State.link (s : State) (k : Nat) : Link := s.links.getD k {}
def State.setLink (s : State) (k : Nat) (x : Link) : State := { s with links := s.links.putD k x {} }

def Warp.lane (w : Warp) (l : Nat) : Lane := w.lanes.getD l {}
def Warp.setLane (w : Warp) (l : Nat) (x : Lane) : Warp := { w with lanes := w.lanes.putD l x {} }
def Warp.modLane (w : Warp) (l : Nat) (f : Lane → Lane) : Warp := w.setLane l (f (w.lane l))
def State.lane (s : State) (w l : Nat) : Lane := (s.warp w).lane l
def State.modLane (s : State) (w l : Nat) (f : Lane → Lane) : State := s.modWarp w (·.modLane l f)

/-- sr.time at a core: its die's time (R364). DESIGN CHOICE, log 5. -/
def State.timeAt (s : State) (core : Nat) : Nat := s.time + s.dieOff.getD (core / 64) 0

/-- Something counts in this cycle, R368. -/
def State.count (s : State) (core sub event n ctx : Nat) : State :=
  { s with tally := s.tally ++ [⟨core, sub, event, n, ctx⟩] }

/-! ## Registers -/

def Lane.getV (l : Lane) (n : Nat) : Word := l.v.getD n 0

/-- A write restores the register's ECC (R334). -/
def Lane.setV (l : Lane) (n : Nat) (x : Word) : Lane := { l with v := l.v.putD n x 0, vBad := l.vBad.filter (· != n) }

def Lane.getV64 (l : Lane) (n : Nat) : DWord := l.getV (n + 1) ++ l.getV n

def Lane.setV64 (l : Lane) (n : Nat) (x : DWord) : Lane :=
  (l.setV n (x.extractLsb' 0 32)).setV (n + 1) (x.extractLsb' 32 32)

/-- DEDUCED, log 3. -/
def Lane.getP (l : Lane) (n : Fin 8) : Bool := l.p.getLsbD n.val

/-- A bit of a byte set or cleared. -/
def putBit (x : BitVec 8) (n : Nat) (b : Bool) : BitVec 8 :=
  if b then x ||| BitVec.twoPow 8 n else x &&& ~~~BitVec.twoPow 8 n

/-- p7 keeps reading true (R26). -/
def Lane.setP (l : Lane) (n : Fin 8) (b : Bool) : Lane :=
  if n = 7 then l else { l with p := putBit l.p n.val b, vBad := l.vBad.filter (· != 240 + n.val) }

def Warp.getS (w : Warp) (n : Nat) : Word := w.s.getD n 0
def Warp.setS (w : Warp) (n : Nat) (x : Word) : Warp :=
  { w with s := w.s.putD n x 0, sBad := w.sBad.filter (· != n) }
def Warp.getS64 (w : Warp) (n : Nat) : DWord := w.getS (n + 1) ++ w.getS n
def Warp.setS64 (w : Warp) (n : Nat) (x : DWord) : Warp :=
  (w.setS n (x.extractLsb' 0 32)).setS (n + 1) (x.extractLsb' 32 32)
def Warp.getQ (w : Warp) (n : Fin 8) : Bool := w.q.getLsbD n.val
def Warp.setQ (w : Warp) (n : Fin 8) (b : Bool) : Warp :=
  { w with q := putBit w.q n.val b, sBad := w.sBad.filter (· != 48 + n.val) }

/-- The v-register destination of an instruction receives a word; a discarded result goes nowhere (R26). -/
def Lane.putD (l : Lane) (d : Dst) (x : Word) : Lane :=
  match d with
  | .v n => l.setV n.val x
  | .s _ | .p _ | .none => l

def Lane.putD64 (l : Lane) (d : Dst) (x : DWord) : Lane :=
  match d with
  | .v n => l.setV64 n.val x
  | .s _ | .p _ | .none => l

/-- A result as wide as W64 says. -/
def Lane.putDW (l : Lane) (d : Dst) (w64 : Bool) (x : DWord) : Lane :=
  if w64 then l.putD64 d x else l.putD d (x.extractLsb' 0 32)

/-- A truth value into a predicate, or all ones or 0 into a v register (R138). -/
def Lane.putT (l : Lane) (d : Dst) (b : Bool) : Lane :=
  match d with
  | .v n => l.setV n.val (if b then 0xFFFFFFFF else 0)
  | .p n => l.setP n b
  | .s _ | .none => l

/-- The predicate of an instruction, R21. -/
def predHolds (p : Pred) (l : Lane) : Bool := l.getP p.r != p.neg

/-! ## The current group -/

/-- The group that issues, with its id. -/
def State.current (s : State) : Option (Nat × Group) :=
  match s.focus with
  | .group g => (s.groups.get? g).map fun gr => (g, gr)
  | .none | .sub _ _ => none

/-- The address after a group's clause. -/
def Group.clauseEnd (gr : Group) : DWord := gr.hdr + BitVec.ofNat 64 (4 * (gr.words.length + 1))

/-- The words from the group's current one to its clause's end. -/
def Group.rest (gr : Group) : List Word := gr.words.drop ((gr.pc - gr.hdr).toNat / 4 - 1)

/-- Does a group take part in a meeting: parked there, about to look at it again, or delayed in it? -/
def Group.meets (gr : Group) : Bool :=
  gr.memo.arrived && (gr.park == .meeting || gr.park == .run || gr.park == .sluice || gr.park == .operands)

/-- The warps of a group, ascending. -/
def Group.warpIds (gr : Group) : List Nat := (gr.lanes.map (·.1)).dedup

/-- The lanes of a group that belong to a warp, ascending. -/
def Group.lanesOf (gr : Group) (w : Nat) : List Nat := (gr.lanes.filter (·.1 == w)).map (·.2)

/-- Does lane (w, l) of the group execute under a predicate (R21)? -/
def State.exec? (s : State) (p : Pred) (x : Nat × Nat) : Bool := predHolds p (s.lane x.1 x.2)

/-- The executing lanes of a group, ascending. -/
def State.execs (s : State) (gr : Group) (p : Pred) : List (Nat × Nat) := gr.lanes.filter (s.exec? p)

def State.isLive (s : State) (x : Nat × Nat) : Bool := (s.lane x.1 x.2).life == .live

/-- The executing thread lanes: not helpers. -/
def State.execThreads (s : State) (gr : Group) (p : Pred) : List (Nat × Nat) :=
  (s.execs gr p).filter s.isLive

/-- The executing helper lanes. -/
def State.execHelpers (s : State) (gr : Group) (p : Pred) : List (Nat × Nat) :=
  (s.execs gr p).filter fun x => !s.isLive x

/-- Lane of a list of lanes after lane, in order. -/
def State.eachLane (s : State) (ls : List (Nat × Nat)) (f : Warp → Nat → Lane → Lane) : State :=
  ls.foldl (fun s x => s.modWarp x.1 fun w => w.setLane x.2 (f w x.2 (w.lane x.2))) s

/-- Send a lane to the table at an address, runnable there from now on (R94). A
transfer makes it fetch what its core now holds (R43). -/
def Lane.enter (l : Lane) (a : DWord) (led : Option DWord) (clock : Nat) : Lane :=
  if l.life == .exited || l.life == .absent then { l with entry := .gone }
  else { l with entry := .runnable, pc := a, led := led, since := clock, promoted := false,
                oldCode := if led.isSome then [] else l.oldCode }

/-- Lanes enter the table at addresses of their own, each with the transfer that led it there. -/
def State.enterAll (s : State) (ls : List (Nat × Nat)) (target : Nat × Nat → DWord × Option DWord) : State :=
  ls.foldl (fun s x => s.modLane x.1 x.2 (·.enter (target x).1 (target x).2 s.clock)) s

/-- A group that issues does so no longer. -/
def State.unfocus (s : State) (g : Nat) : State := { s with focus := if s.focus = .group g then .none else s.focus }

/-- The group's clause is over: every lane gets its next clause address, and the group is gone (R96). -/
def State.endClause (s : State) (g : Nat) (gr : Group) (target : Nat × Nat → DWord × Option DWord) : State :=
  ((s.enterAll gr.lanes target).delGroup g).unfocus g

/-- The instruction is done: the group stands at the next word, or has ended its clause (R38, R96). -/
def State.retire (s : State) (g : Nat) (gr : Group) : State :=
  if gr.next = gr.clauseEnd then s.endClause g gr (fun _ => (gr.next, none))
  else s.modGroup g fun x => { x with pc := gr.next, park := .run, memo := {} }

/-- The group parks at its word. -/
def State.parkGroup (s : State) (g : Nat) (p : Park) (m : Memo) : State :=
  (s.modGroup g (fun x => { x with park := p, memo := m })).unfocus g

/-- Lanes leave a group and form one of their own at the same word; the group keeps the others and goes if none is left.
The new group's id is the answer (R96, R271). -/
def State.splitOff (s : State) (g : Nat) (gr : Group) (ls : List (Nat × Nat)) (p : Park) (m : Memo) : Nat × State :=
  let (n, s) := s.newId
  let rest := gr.lanes.filter fun x => !ls.contains x
  let s := { s with groups := s.groups.set n { gr with lanes := ls, park := p, memo := m } }
  let s := ls.foldl (fun s x => s.modLane x.1 x.2 fun l => { l with entry := .group n }) s
  let s := if rest = [] then (s.delGroup g).unfocus g else s.modGroup g fun x => { x with lanes := rest }
  (n, s)

/-! ## Lines, as the device itself reads and writes them -/

/-- A physical address as its parts, R200. -/
inductive Place where
  | dev (chip off : Nat)
  | host (off : Nat)
  | reg (off : Nat)                         -- the device register block of this chip
  | hostReg (off : Nat)
  | nothing                                 -- register space that names nothing
  deriving DecidableEq, Repr

/-- R200, R354. -/
def placeOf (pa : Nat) : Place :=
  if pa / 2 ^ 51 % 2 = 0 then .dev (pa / 2 ^ 45 % 64) (pa % 2 ^ 45)
  else if pa / 2 ^ 50 % 2 = 0 then .host (pa % 2 ^ 50)
  else if pa / 2 ^ 49 % 2 = 1 then .hostReg (pa % 2 ^ 49)
  else if pa % 2 ^ 49 < 2 ^ 24 then .reg (pa % 2 ^ 24)
  else .nothing

/-- Is this a byte of this chip's device memory? -/
def State.ownPa (s : State) (pa : Nat) : Bool :=
  match placeOf pa with
  | .dev c o => c == s.chip && decide (o < Config.memBytes)
  | .host _ | .reg _ | .hostReg _ | .nothing => false

/-- The agent number of a core's engine. -/
def engineAgent (c : Nat) : Nat := 256 + c

/-- The key of an agent's copy of a line. -/
def ckey (agent line : Nat) : Nat := 1024 * line + agent

def State.cline? (s : State) (agent line : Nat) : Option CLine := s.caches.get? (ckey agent line)
def State.setCline (s : State) (agent line : Nat) (x : CLine) : State :=
  { s with caches := s.caches.set (ckey agent line) x }
def State.delCline (s : State) (agent line : Nat) : State := { s with caches := s.caches.del (ckey agent line) }

/-- Write the words that a mask names from a line's bytes into memory, R214. -/
def applyWords (m : Memory) (line : Nat) (data : AMap Byte) (mask : List Nat) : Memory :=
  mask.foldl (fun m w => (List.range 4).foldl
    (fun m i => memPut m (128 * line + 4 * w + i) (data.getD (4 * w + i) 0)) m) m

/-- The bytes of a line of memory, those that are not 0, by offset. -/
def lineBytes (m : Memory) (line : Nat) : AMap Byte :=
  (m.filter fun e => e.1 / 128 == line).map fun e => (e.1 % 128, e.2)

/-- The value that an operation leaves in an element, R236; CAS compares with `cmp`. -/
def gopEval (op : GOp) (u w64 : Bool) (old val cmp : DWord) : DWord :=
  let lo (x : DWord) : Word := x.extractLsb' 0 32
  let less (x y : DWord) : Bool :=
    match u, w64 with
    | true, true => x.ult y
    | true, false => (lo x).ult (lo y)
    | false, true => x.slt y
    | false, false => (lo x).slt (lo y)
  let r := match op with
    | .add => old + val
    | .min => if less val old then val else old
    | .max => if less old val then val else old
    | .and => old &&& val
    | .or => old ||| val
    | .xor => old ^^^ val
    | .xchg => val
    | .cas => if (if w64 then old = cmp else lo old = lo cmp) then val else old
    | .fadd => faddEl w64 old val
  if w64 then r else (lo r).setWidth 64

/-- Apply a partial to memory, R224. -/
def applyPartial (m : Memory) (line : Nat) (p : Partial) : Memory :=
  p.vals.foldl (fun m e =>
    let n := if p.w64 then 8 else 4
    let a := 128 * line + e.1
    memWrite m a n (gopEval p.op p.u p.w64 (BitVec.ofNat 64 (memRead m a n)) e.2 0).toNat) m

/-- Raise the warp's sr.gwct, R220. -/
def State.gwct (s : State) (w t : Nat) : State := s.modWarp w fun x => { x with gwct := max x.gwct t }

/-- Every warp whose contributions a partial held receives a GWCT, R224. -/
def State.gwctAll (s : State) (who : List (Nat × Nat)) (t : Nat) : State :=
  (who.map (·.1)).dedup.foldl (fun s w => s.gwct w t) s

/-- The home slice of a device-memory offset, R201. -/
def sliceOf (o : Nat) : Nat :=
  let d := o / 2 ^ 38
  let x := o % 2 ^ 38
  64 * d + (x / 2 ^ 7 % 64 ^^^ x / 2 ^ 13 % 64 ^^^ x / 2 ^ 19 % 64 ^^^ x / 2 ^ 25 % 64 ^^^ x / 2 ^ 31 % 64 ^^^ x / 2 ^ 37 % 2)

/-- The agent that stands for the host's side of host memory. -/
def hostAgent : Nat := 2000
/-- The agent that serves a line: a home slice, a proxy, or the host (R201, R202, R231). -/
def homeOf (line : Nat) : Nat :=
  match placeOf (128 * line) with
  | .dev _ off => 1000 + sliceOf off
  | .host _ | .reg _ | .hostReg _ | .nothing => hostAgent

def State.send (s : State) (src dst line : Nat) (body : Body) : State :=
  let (n, s) := s.newId
  let m : Msg := { src, dst, line, body }
  { s with msgs := s.msgs.set n m }

/-- Write-backs and partials of a line that are on their way are applied, and nothing is left of them to apply. -/
def State.absorb (s : State) (line : Nat) : State :=
  let s := s.msgs.foldl (fun s e =>
    if e.2.line = line then
      match e.2.body with
      | .wb mask data drop work =>
        let s := { s with mem := applyWords s.mem line data mask }
        { s with msgs := s.msgs.set e.1 { e.2 with body := .wb [] [] drop work } }
      | .pushed p drop ack =>
        let s := { s with mem := applyPartial s.mem line p }
        let s := s.gwctAll p.who (max s.time (s.hline line).lx)
        { s with msgs := s.msgs.set e.1 { e.2 with body := .pushed { p with vals := [], who := [] } drop ack } }
      | _ => s
    else s) s
  let h := s.hline line
  match h.busy with
  | some b =>
    let s := b.parts.foldl (fun s e =>
      let s := { s with mem := applyPartial s.mem line e.2 }
      s.gwctAll e.2.who (max s.time h.lx)) s
    s.setHline line { h with busy := some { b with parts := [] } }
  | none => s

/-- A core, or its engine, receives a recall or an invalidation, R368. -/
def State.recalled (s : State) (a : Nat) : State := if a < 512 then s.count (a % 256) 0 0x0B 1 0 else s

/-- Does an engine own a line for a command that has still to write there (R213)? -/
def State.engineHolds (s : State) (agent line : Nat) : Bool :=
  s.cmds.any fun e => engineAgent e.2.core == agent && !e.2.saved && e.2.lines.contains line && !e.2.want.contains line &&
    !e.2.written.contains line

/-- Has a line been granted to an engine whose commands have still to write there, be the grant still on its way (R257)? -/
def State.engineOwns (s : State) (line : Nat) : Bool :=
  match (s.hline line).pkg with
  | .o a => decide (256 ≤ a) && (s.engineHolds a line || s.msgs.any fun e =>
      e.2.dst == a && e.2.line == line && (match e.2.body with
        | .grant none _ _ => true
        | _ => false))
  | .i | .t _ | .u _ => false

/-- Bring a line's memory up to date before the device itself reads it, and drop every package copy before it writes
it: dirty words are written back and partials folded in ascending core number (R211, R224). L copies stay (R218).
DESIGN CHOICE, log 14. -/
def State.settle (s : State) (line : Nat) (write : Bool) : State :=
  let s := s.absorb line
  let h := s.hline line
  match h.pkg with
  | .i => s
  | .t who =>
    if write then
      (who.foldl (fun s a => (s.recalled a).delCline a line) s).setHline line { h with pkg := .i }
    else s
  | .o a =>
    match s.cline? a line with
    | none => if s.engineOwns line then s else s.setHline line { h with pkg := .i }
    | some c =>
        let s := { s with mem := applyWords s.mem line c.data c.dirty }.recalled a
        if write then (s.delCline a line).setHline line { h with pkg := .i }
        else (s.setCline a line { c with st := .t, dirty := [] }).setHline line { h with pkg := .t [a] }
  | .u who =>
    let s := (sortNat who).foldl (fun s a =>
      let s := s.recalled a
      match s.cline? a line with
      | some c =>
        match c.partial_ with
        | some p =>
          let s := { s with mem := applyPartial s.mem line p }
          (s.gwctAll p.who (max s.time h.lx)).delCline a line
        | none => s.delCline a line
      | none => s) s
    s.setHline line { h with pkg := .i }

/-! ## Accesses that the device makes of its own accord -/

/-- The agent that makes them. -/
def devAgent : Nat := 2999

/-- Is there memory at a line: device memory of any chip (R200), or the host's? -/
def hasMem (line : Nat) : Bool :=
  match placeOf (128 * line) with
  | .dev _ o => decide (o < Config.memBytes)
  | .host _ => true
  | .reg _ | .hostReg _ | .nothing => false

/-- Does a message of the device about a line still travel or wait? -/
def State.devBusy (s : State) (line : Nat) : Bool := s.msgs.any fun e => e.2.src == devAgent && e.2.line == line

/-- Does the device reach a line of its own memory at once: no holder off the package must give up a newer value, or any
value where it writes (R212, R357), no engine owns it for a command (R257), and no access of its own is on its way
there? -/
def State.atHand (s : State) (line : Nat) (write : Bool) : Bool :=
  let h := s.hline line
  s.ownPa (128 * line) && !h.hs && (h.st == 0 || (h.st == 1 && !write)) && !s.devBusy line && !s.engineOwns line

/-- The lines of n bytes from an address. -/
def linesOf (pa n : Nat) : List Nat := (List.range ((pa % 128 + n + 127) / 128)).map (pa / 128 + ·)

/-- The device reaches a line: at once, or as fetched before; else the event needs it. DESIGN CHOICE, log 14. -/
def State.reach (s : State) (line : Nat) (write : Bool) : State :=
  if s.atHand line write then s.settle line write
  else if !hasMem line then s
  else if (s.fetched.get? line).isSome then { s with used := line :: s.used }
  else { s with need := (line, write) :: s.need }

/-- Bytes as the device sees them: fetched ones where the line lies away from its own memory. -/
def State.devBytes (s : State) (pa n : Nat) : Nat :=
  if (linesOf pa n).any fun l => (s.fetched.get? l).isSome then
    ((List.range n).map fun i =>
      (((s.fetched.getD ((pa + i) / 128) []).getD ((pa + i) % 128) (0 : Byte)).toNat * 256 ^ i)).sum
  else memRead s.mem pa n

/-- Bytes that the device reads of its own accord, as THRU loads do at the lines' homes. DESIGN CHOICE, log 14. -/
def State.devRead (s : State) (pa n : Nat) : State × Nat :=
  let s := (linesOf pa n).foldl (fun s l => s.reach l false) s
  (s, s.devBytes pa n)

/-- The bytes of a number that fall into a line, with their offset there. -/
def lineSpan (pa n x line : Nat) : Nat × List Byte :=
  let lo := max pa (128 * line)
  let hi := min (pa + n) (128 * line + 128)
  (lo % 128, (List.range (hi - lo)).map fun i => BitVec.ofNat 8 (x / 256 ^ (lo - pa + i)))

/-- A THRU store of the device is sent to a line's home. -/
def State.devSend (s : State) (pa n x line : Nat) : State :=
  let p := lineSpan pa n x line
  let s := s.send devAgent (homeOf line) line (.devWr p.1 p.2 none)
  match s.fetched.get? line with
  | some d =>
    let d := (List.range p.2.length).foldl (fun d i => d.putD (p.1 + i) (p.2.getD i 0) 0) d
    { s with fetched := s.fetched.set line d }
  | none => s

/-- Bytes that an event of the device writes and may read again: its own memory is written in place, any other by THRU
stores, and what names no memory takes nothing. DESIGN CHOICE, log 14. -/
def State.devWrite (s : State) (pa n x : Nat) : State :=
  if s.ownPa pa && s.ownPa (pa + n - 1) then
    let s := (linesOf pa n).foldl (fun s l => s.reach l true) s
    { s with mem := memWrite s.mem pa n x }
  else (linesOf pa n).foldl (fun s l => if hasMem l then s.devSend pa n x l else s) s

/-- Bytes that the device writes and does not read again: reports, records, dumps. A line that it does not reach at once
takes them as a THRU store in its turn. DESIGN CHOICE, log 14. -/
def State.devStore (s : State) (pa n x : Nat) : State :=
  if (linesOf pa n).all fun l => s.atHand l true then
    let s := (linesOf pa n).foldl (fun s l => s.settle l true) s
    { s with mem := memWrite s.mem pa n x }
  else (linesOf pa n).foldl (fun s l => if hasMem l then s.devSend pa n x l else s) s

/-- Ask for the lines that an event needs; none where all have been asked for. -/
def State.askNeed (s : State) (need : List (Nat × Bool)) : Out :=
  match (need.dedup).filter fun x => !s.devBusy x.1 with
  | [] => .refused .notEnabled
  | xs => .next (xs.foldl (fun s x =>
      s.send devAgent (homeOf x.1) x.1 (if x.2 && s.ownPa (128 * x.1) then .clear true else .devRd)) s)

/-- An event that does not happen now: it may still ask for what it needs. -/
def State.notNow (s : State) : Out := if s.need = [] then .refused .notEnabled else .next s

/-- What an event has fetched is used once. -/
def State.spend (s : State) : State :=
  if s.used = [] then s else { s with fetched := s.fetched.filter fun e => !s.used.contains e.1, used := [] }

/-- An event begins with nothing asked for. -/
def State.unasked (s : State) : State := { s with need := [], used := [] }

/-- An event of the device that reads memory: it happens once every line that it reads or writes is there; until then it
asks for those lines, and nothing else of it happens. DESIGN CHOICE, log 14. -/
def needing (e : State → Out) (s : State) : Out :=
  let s := s.unasked
  match e s with
  | .next t => if t.need = [] then .next t.spend else s.askNeed t.need
  | .fault f => .fault f
  | .refused r => .refused r

/-- Are stores that the device has sent still to be applied at their homes? -/
def State.storesOut (s : State) : Bool :=
  s.msgs.any fun e => match e.2.body with
    | .devWr _ _ _ => true
    | _ => false

/-! ## Reports -/

/-- Raise an MSI-X vector of a function, which has 64, R351. -/
def State.msix (s : State) (fn vec : Nat) : State :=
  if fn < 16 ∧ vec < 64 then { s with out := s.out ++ [.msix fn vec] } else s

/-- Bits of a register that a write of 1 clears are set in this cycle, R7. -/
def State.mark (s : State) (r : W1c) (bits : DWord) : State := { s with fresh := (r, bits) :: s.fresh }

/-- The bits of a register that this cycle has set. -/
def State.freshBits (s : State) (r : W1c) : DWord :=
  (s.fresh.filter fun e => e.1 == r).foldl (fun x e => x ||| e.2) 0

/-- The bits of a count that rise, from bit `lo` of its register. -/
def risen (old new lo : Nat) : DWord := (BitVec.ofNat 64 new &&& ~~~BitVec.ofNat 64 old) <<< lo

/-- An error record, R376. -/
structure ErrRec where
  kind : Nat
  corr : Bool := false
  ctx : Nat := 0
  unit : Nat := 0
  start : Nat := 0
  len : Nat := 0
  info : Nat := 0
  deriving DecidableEq, Repr

/-- The record's 64 bytes as a number. -/
def ErrRec.image (e : ErrRec) (time : Nat) : Nat :=
  e.kind + 2 ^ 8 * e.corr.toNat + 2 ^ 16 * (e.ctx % 2 ^ 16) + 2 ^ 32 * (e.unit % 2 ^ 32) + 2 ^ 64 * (time % 2 ^ 64) +
    2 ^ 128 * (e.start % 2 ^ 64) + 2 ^ 192 * (e.len % 2 ^ 64) + 2 ^ 256 * (e.info % 2 ^ 64)

/-- Ring size and base of ERBASE and BRBASE, R372. -/
def ringSize (r : DWord) : Nat := 2 ^ ((r.extractLsb' 0 4 : BitVec 4).toNat + 4)
def ringBase (r : DWord) : Nat := 128 * (r.extractLsb' 7 45 : BitVec 45).toNat

/-- Write an error record into the ring, or count it as lost; raise MSI-X vector 1 (R376). Its TIME is sr.time at its UNIT, a
core or a slice of the same numbering, or for a link the chip's. A base of 0 means no ring, as for BRBASE (R372). -/
def State.report (s : State) (e : ErrRec) : State :=
  if ringBase s.erbase = 0 then s
  else if ringSize s.erbase ≤ s.erhead - s.ertail then
    let n := min (s.erLost + 1) (2 ^ 32 - 1)
    { s with erLost := n }.mark .erctl (risen s.erLost n 32)
  else
    let time := if e.kind = 7 then s.time else s.timeAt e.unit
    let s := s.devStore (ringBase s.erbase + 64 * (s.erhead % ringSize s.erbase)) 64 (e.image time)
    { s with erhead := s.erhead + 1 }.msix 0 1

/-- Is the module in A1, A2 or A3, R386? -/
def State.lowPower (s : State) : Bool := s.mgmt.pstate != 0 || s.mgmt.a1 != []

/-- Something wakes the module: an exit to A0 starts (R387). -/
def State.wakeUp (s : State) : State :=
  if s.lowPower then { s with mgmt := { s.mgmt with exiting := true } } else s

/-- A host access to a partition page, which wakes the module, and is served after the exit (R387). -/
def awake (x : HeldReg) (k : State → Out) (s : State) : Out :=
  if s.lowPower then .next { s.wakeUp with heldRegs := s.heldRegs ++ [x] } else k s

/-- A write of a register of partition page n. -/
def pageWrite (n off : Nat) (v : DWord) : HeldReg := ⟨0, 0x100000 + 0x1000 * n + off, 8, some v⟩

/-! ## Work in flight -/

/-- The element accesses in flight of lanes of a warp. -/
def State.opsOf (s : State) (w : Nat) (lanes : List Nat) : List (Nat × Op) :=
  s.ops.filter fun e => e.2.warp == w && lanes.contains e.2.lane

def State.opIdsOf (s : State) (w : Nat) : List Nat := (s.ops.filter fun e => e.2.warp == w).map (·.1)

/-- The v registers of a lane whose results are outstanding, R40. -/
def State.pendingV (s : State) (w l : Nat) : List Nat :=
  (s.ops.flatMap fun e =>
    if e.2.warp = w ∧ e.2.lane = l then
      match e.2.dst with
      | some d => (List.range e.2.dstLen).map (d + ·)
      | none => []
    else []) ++
  (s.remotes.flatMap fun e =>
    if e.2.warp = w ∧ e.2.lane = l then
      match e.2.dst with
      | some d => (List.range e.2.dstLen).map (d + ·)
      | none => []
    else []) ++
  (s.joins.flatMap fun e => if e.2.warp = w ∧ e.2.lane = l then e.2.dst.toList else []) ++
  s.spills.flatMap fun e => if e.2.warp = w then (e.2.dsts.filter (·.1 == l)).map (·.2) else []

/-! ## Messages to the homes -/

/-- Push a core's partial of a line to its home, R223, R224. -/
def State.pushPartial (s : State) (agent line : Nat) (c : CLine) : State :=
  match c.partial_ with
  | some p => (s.delCline agent line).send agent (homeOf line) line (.pushed p true true)
  | none => s.delCline agent line

/-- Push all partials of a core, as a fence does (R224, R238). -/
def State.pushAll (s : State) (core : Nat) : State :=
  s.caches.foldl (fun s e =>
    if e.1 % 1024 = core ∧ e.2.st = .u then s.pushPartial core (e.1 / 1024) e.2 else s) s

/-- Is a partial of a core still to be folded: held, on its way, or gathered at a home? -/
def State.partialsOut (s : State) (core : Nat) : Bool :=
  s.caches.any (fun e => e.1 % 1024 == core && e.2.st == .u) ||
  s.msgs.any (fun e => e.2.src == core && (match e.2.body with
    | .pushed _ _ _ => true
    | _ => false)) ||
  s.lines.any fun e => match e.2.busy with
    | some b => b.parts.any fun p => p.1 == core
    | none => false

/-- The partials on their way. -/
def State.pushedIds (s : State) : List Nat :=
  (s.msgs.filter fun e => match e.2.body with
    | .pushed _ _ _ => true
    | _ => false).map (·.1)

/-- Has a pushed partial been folded, R224? -/
def State.foldedIn (s : State) (id : Nat) : Bool :=
  (s.msgs.get? id).isNone && s.lines.all fun e => match e.2.busy with
    | some b => !b.gathered.contains id
    | none => true

/-- Is a contribution of some lanes still to be folded: held, on its way, or gathered at a home? -/
def State.partialOf (s : State) (who : Nat × Nat → Bool) : Bool :=
  s.caches.any (fun e => (e.2.partial_.map fun p => p.who.any who).getD false) ||
  s.msgs.any (fun e => match e.2.body with
    | .pushed p _ _ => p.who.any who
    | _ => false) ||
  s.lines.any fun e => match e.2.busy with
    | some b => b.parts.any fun p => p.2.who.any who
    | none => false

/-! ## The end of lanes -/

/-- A quarter's registers return to the pool once all its lanes are exited and no result is due (R102). -/
def State.releaseQuarters (s : State) (w : Nat) : State :=
  let W := s.warp w
  if (s.block W.block).ended then s          -- a block that runs again keeps its allotment (R377)
  else W.quarters.keys.foldl (fun s j =>
    let lanes := (List.range 8).map (8 * j + ·)
    if lanes.all (fun l => let L := W.lane l; L.life == .exited || L.life == .absent) &&
        lanes.all (fun l => s.pendingV w l == []) then
      s.modWarp w fun W => { W with quarters := W.quarters.del j }
    else s) s

/-- Take a lane out of whatever group it is in. -/
def State.leaveGroup (s : State) (w l : Nat) : State :=
  match (s.lane w l).entry with
  | .group g =>
    match s.groups.get? g with
    | some gr =>
      let rest := gr.lanes.filter (· != (w, l))
      if rest = [] then (s.delGroup g).unfocus g
      else s.modGroup g fun x => { x with lanes := rest }
    | none => s
  | .runnable | .flagBlocked _ | .fetching _ | .napping _ | .yielded _ | .trapped | .gone => s

/-- What the release of a lane's colour waits for (R268): the warp's accesses in flight, its spills, the commands bound to
the slot, and the partials of its core, which are pushed. -/
def State.relWaits (s : State) (r : Rel) (colour : Nat) : Rel × State :=
  let s := s.pushAll (s.warp r.warp).core
  ({ r with
    ops := s.opIdsOf r.warp, spills := (s.spills.filter fun e => e.2.warp == r.warp).map (·.1), pushes := s.pushedIds,
    cmds := (s.cmds.filter fun e => e.2.warp == r.warp && e.2.lane == r.lane && e.2.bound.contains colour).map (·.1) }, s)

/-- Begin the release of colours of a lane, highest first (R267). -/
def State.beginRelease (s : State) (w l : Nat) (colours : List Nat) (wait : Option (Option Nat))
    (group : Option Nat) : State :=
  let (n, s) := s.newId
  let r : Rel :=
    { ctx := (s.block (s.warp w).block).ctx, warp := w, lane := l, colours := colours, wait := wait, group := group, ops := [],
      cmds := [] }
  let (r, s) := s.relWaits r (colours.headD 0)
  { s with rels := s.rels.set n r }

/-- The barrier phases of a block that are complete, R120: the count has arrived, or every live thread lane has. -/
def phaseDone (p : Phase) (live : List (Nat × Nat)) : Bool :=
  (p.count != 0 && decide (p.count ≤ p.arrived.length)) || live.all p.arrived.contains

/-- The live thread lanes of a block. -/
def State.liveOf (s : State) (b : Nat) : List (Nat × Nat) :=
  (s.block b).warps.flatMap fun w =>
    ((s.warp w).lanes.filter fun e => e.2.life == .live).map fun e => (w, e.1)

/-- Lanes that waited at a barrier word go on at the next word; lanes of the group that still wait stay. A lane of the
group that never arrived goes with the first that do (R120). -/
def State.resumeFrom (s : State) (p : Park) (block : Nat) (done : List (Nat × Nat)) (stay : List (Nat × Nat)) : State :=
  s.groups.foldl (fun s e =>
    let gr := e.2
    if gr.park = p && gr.block == block && gr.lanes.any done.contains then
      let left := gr.lanes.filter stay.contains
      if left = [] then (s.retire e.1 gr)
      else
        let (n, s) := s.splitOff e.1 gr (gr.lanes.filter fun x => !stay.contains x) p gr.memo
        s.retire n { gr with lanes := gr.lanes.filter fun x => !stay.contains x }
    else s) s

/-- Complete the block barriers whose phases are complete, R120. -/
def State.checkBars (s : State) (b : Nat) : State :=
  (s.block b).bars.foldl (fun s e =>
    let live := s.liveOf b
    let p := e.2
    if p.arrived != [] && phaseDone p live then
      let s := s.modBlock b fun x => { x with bars := x.bars.del e.1 }
      s.resumeFrom (.barrier e.1) b p.arrived []
    else s) s

/-- The key of a cluster barrier. -/
def cbarKey (launch cluster id : Nat) : Nat := 4 * (2 ^ 32 * launch + cluster) + id

/-- The blocks of a cluster. -/
def State.clusterOf (s : State) (launch cluster : Nat) : List Nat :=
  (s.blocks.filter fun e => e.2.launch == launch && e.2.cluster == cluster && !e.2.retired).map (·.1)

/-- Complete the cluster barriers of a block's cluster, R120. -/
def State.checkCbars (s : State) (b : Nat) : State :=
  let B := s.block b
  (List.range 4).foldl (fun s id =>
    match s.cbars.get? (cbarKey B.launch B.cluster id) with
    | some p =>
      let bs := s.clusterOf B.launch B.cluster
      if (bs.flatMap s.liveOf).all p.arrived.contains then
        let s := { s with cbars := s.cbars.del (cbarKey B.launch B.cluster id) }
        bs.foldl (fun s b => s.resumeFrom (.cbarrier id) b p.arrived []) s
      else s
    | none => s) s

/-- When every lane of a warp has exited, each of its open guard slots that a queued command names becomes false
(R290). -/
def State.closeGuards (s : State) (w : Nat) : State :=
  if (s.warp w).lanes.all fun e => e.2.life != .live then
    s.cmds.foldl (fun s e =>
      match e.2.guard with
      | some n =>
        if e.2.warp = w ∧ ¬e.2.started ∧ (s.warp w).guards.getD n .opened = .opened then
          s.modWarp w fun W => { W with guards := W.guards.set n .fls }
        else s
      | none => s) s
  else s

/-- The parked meetings of a warp are looked at again: a lane has reached the word, or has left (R106, R404). -/
def State.wakeMeetings (s : State) (w : Nat) : State :=
  { s with groups := s.groups.map fun e =>
      if e.2.park = .meeting ∧ e.2.lanes.any (·.1 == w) then
        (e.1, { e.2 with park := .run, memo := { e.2.memo with asked := true } })
      else e }

/-- The chip on which a monitor's record lives, R276. DEDUCED, log 76. -/
def State.monHome (s : State) (ctx colour : Nat) : Nat :=
  if s.domain.length ≤ 1 then s.chip else s.domain.getD (Config.monHash ctx colour % s.domain.length) s.chip

/-- The number by which this chip names a thread of its own to other chips. -/
def monId (w l : Nat) : Nat := 32 * w + l

/-- What tells a record on another chip that a lane queued there has ended. -/
def State.leaves (s : State) (w l : Nat) : List Packet :=
  let ctx := (s.block (s.warp w).block).ctx
  match (s.lane w l).entry with
  | .group g =>
    match (s.groups.get? g).map fun (gr : Group) => gr.park with
    | some (.monitor c) | some (.condition c) =>
      if s.monHome ctx c = s.chip then [] else [⟨s.chip, s.monHome ctx c, .mon ctx c (.leave (monId w l))⟩]
    | _ => []
  | .runnable | .flagBlocked _ | .fetching _ | .napping _ | .yielded _ | .trapped | .gone => []

/-- A lane that has ended waits for no monitor any more: it leaves every queue, and a release that C.WAIT began for it only
releases (R267, R271, R272). -/
def State.leaveQueues (s : State) (w l : Nat) : State :=
  let gone (x : Tid) : Bool := x == .here w l
  let mons := s.mons.map fun e =>
    (e.1, { e.2 with entryQ := e.2.entryQ.filter fun x => !gone x.who, condQ := e.2.condQ.filter fun x => !gone x.who })
  let rels := s.rels.map fun e =>
    if e.2.warp = w ∧ e.2.lane = l then (e.1, { e.2 with wait := none, group := none }) else e
  { s with mons := mons.filter fun e => decide (e.2 ≠ ({} : Mon)), rels := rels, inbox := s.inbox ++ s.leaves w l }

/-- Mark a lane exited: its registers are frozen, its colours go to a release of their own (R101, R267). -/
def State.markExited (s : State) (w l : Nat) : State :=
  let L := s.lane w l
  let s := (s.leaveQueues w l).leaveGroup w l
  let s := s.modLane w l fun L =>
    { L with life := .exited, entry := .gone, handler := false, slots := [], credit := none, promoted := false }
  let s := s.wakeMeetings w
  if L.slots = [] then s else s.beginRelease w l (L.slots.map (·.colour)).reverse none none

/-- A helper lane exits when every thread lane of its quad has (R103). DEDUCED, log 66. -/
def State.exitHelpers (s : State) (w l : Nat) : State :=
  let quad := (List.range 4).map (4 * (l / 4) + ·)
  if quad.all fun j => (s.lane w j).life != .live then
    quad.foldl (fun s j => if (s.lane w j).life = .helper then s.markExited w j else s) s
  else s

/-- Is a block complete, R104? A block that is to run again is not (R377). -/
def State.blockComplete (s : State) (b : Nat) : Bool :=
  let B := s.block b
  B.retired || (!B.ended && B.warps.all fun w =>
    let W := s.warp w
    W.lanes.all (fun e => e.2.life != .live) && W.flags == [])

/-- A complete block holds no claim (R166), and its rings are uninitialised (R292). -/
def State.completing (s : State) (b : Nat) : State :=
  if s.blockComplete b then s.modBlock b fun B => { B with churn := none, rings := [] } else s

/-- End lanes of one block as X.EXIT does, with all that follows from it: helpers, quarters, guard slots, barriers
(R101 to R103, R120, R290). -/
def State.endLanes (s : State) (b : Nat) (ls : List (Nat × Nat)) : State :=
  let s := ls.foldl (fun s x => (s.markExited x.1 x.2).exitHelpers x.1 x.2) s
  let s := (ls.map (·.1)).dedup.foldl (fun s w => (s.releaseQuarters w).closeGuards w) s
  ((s.completing b).checkBars b).checkCbars b

/-! ## Block records, and a block that an LSECC ends -/

/-- A block record's 128 bytes as a number, R372. -/
def State.blockImage (s : State) (b status : Nat) : Nat :=
  let B := s.block b
  let stall (r : Nat) : Nat := min (((B.warps.map fun w => (s.warp w).stall.getD r 0).foldl (· + ·) 0)) (2 ^ 32 - 1)
  B.ctx % 2 ^ 16 + 2 ^ 16 * status + 2 ^ 24 * (B.run % 256) + 2 ^ 32 * B.block + 2 ^ 64 * B.rank + 2 ^ 96 * B.core +
    2 ^ 128 * (B.tstart % 2 ^ 64) + 2 ^ 192 * (s.timeAt B.core % 2 ^ 64) +
    2 ^ 256 * ((List.range 16).foldl (fun x r => x + stall r * 2 ^ (32 * r)) 0) + 2 ^ 768 * B.code.toNat

/-- Write a block record into the ring of the partition whose context the block is of, R372. -/
def State.blockRecord (s : State) (b status : Nat) : State :=
  match s.parts.find? fun e => e.2.ctx == (s.block b).ctx && ringBase e.2.brbase != 0 with
  | some (n, p) =>
    let s := s.devStore (ringBase p.brbase + 128 * (p.brhead % ringSize p.brbase)) 128 (s.blockImage b status)
    s.modPart n fun p => { p with brhead := p.brhead + 1 }
  | none => s

/-- An LSECC has ended a block, R377: its lanes end, and accesses to its store are held. What follows is BLOCK_RELAUNCH. -/
def State.endBlock (s : State) (b word : Nat) : State :=
  let B := s.block b
  if B.ended || B.retired then s
  else
    let s := s.modBlock b fun B => { B with ended := true, endWord := word, told := false }
    let s := s.endLanes b (B.warps.flatMap fun w =>
      ((s.warp w).lanes.filter fun e => e.2.life == .live || e.2.life == .helper).map fun e => (w, e.1))
    B.warps.foldl (fun s w => s.modWarp w fun W => { W with pending := [] }) s

/-- The records of a block that an LSECC has ended, once its unstarted commands are discarded (R377, R376). -/
def State.tellEnd (s : State) (b : Nat) : State :=
  let B := s.block b
  let s := s.modBlock b fun B => { B with told := true }
  let s := s.report { kind := 2, ctx := B.ctx, unit := B.core, start := B.endWord, len := 8, info := B.block }
  s.blockRecord b 2

/-- The block that a local address names for a block, where it names one (R155, R156). -/
def State.lsTarget (s : State) (b : Nat) (x : Nat) : Option Nat :=
  let B := s.block b
  let cb := x / 2 ^ 19 % 16
  if x / 2 ^ 24 ≠ 0 then none
  else if x / 2 ^ 23 = 0 then (if cb = 0 then some b else none)
  else if (s.launches.getD B.launch {}).csize ≤ cb then none
  else (s.blocks.find? fun e => e.2.launch == B.launch && e.2.cluster == B.cluster && e.2.cblock == cb).map (·.1)

/-! ## Taking a trap, and returning from one -/

/-- Cause codes, R37. -/
inductive Cause where
  | illegal | clause | member | fmtdiv | bgone | spmeta | monord | monlim | cleng | monnh | align | xlate | prot | churn
  | accrange | lsrange | redun | lsecc | regecc | swtrap | bkpt | stack | priv | ring | shape
  deriving DecidableEq, Repr

def Cause.code : Cause → Nat
  | .illegal => 0x01 | .clause => 0x02 | .member => 0x03 | .fmtdiv => 0x04 | .bgone => 0x05 | .spmeta => 0x06
  | .monord => 0x07 | .monlim => 0x08 | .cleng => 0x09 | .monnh => 0x0A | .align => 0x0B | .xlate => 0x0C
  | .prot => 0x0D | .churn => 0x0E | .accrange => 0x0F | .lsrange => 0x10 | .redun => 0x11 | .lsecc => 0x12
  | .regecc => 0x13 | .swtrap => 0x15 | .bkpt => 0x16 | .stack => 0x17 | .priv => 0x18 | .ring => 0x19
  | .shape => 0x1A

/-- TCS of a trap, R335. -/
def Trap.tcs (t : Trap) : DWord :=
  BitVec.ofNat 64 (t.code % 256) ||| (t.info.setWidth 64 <<< 8) ||| (if t.fetch then 0x10000 else 0) |||
    (if t.write then 0x20000 else 0)

/-- TLM: the lanes as a mask. -/
def laneMask (ls : List Nat) : Word := ls.foldl (fun m l => m ||| BitVec.twoPow 32 l) 0

/-- Code addresses are [59:2], R337. -/
def codeMask : DWord := 0x0FFFFFFFFFFFFFFC

/-- Is a lane of the warp in a trap handler? -/
def Warp.inHandler (w : Warp) : Bool := w.lanes.any fun e => e.2.handler

/-- The stopped lanes enter the handler: the warp's trap registers are set, and the lanes stand at
TVB.BASE * 4,096 + 128 * CODE (R331). -/
def State.enterHandler (s : State) (w : Nat) (t : Trap) : State :=
  let W := s.warp w
  let tvb := (s.ctx (s.block W.block).ctx).tvb
  let entry := (tvb &&& 0x0FFFFFFFFFFFF000) + BitVec.ofNat 64 (128 * t.code)
  let s := s.count W.core W.sub 0x0F 1 (s.block W.block).ctx
  let s := if t.code = 0x15 ∨ t.code = 0x16 then s.modCore W.core fun c => { c with swtrap := true } else s
  s.modWarp w fun W =>
    { (t.lanes.foldl (fun W l => W.modLane l fun L => { L.enter entry none s.clock with handler := true }) W) with
      tcs := t.tcs, tpc := t.tpc &&& codeMask, tad := t.tad, tlm := laneMask t.lanes, tch := t.tch &&& codeMask,
      stop := t.stop,
      lsecc := if t.code = 0x12 then (s.lsTarget W.block t.tad.toNat).map fun b => (b, t.tad.toNat % 2 ^ 19) else none }

/-- The handler of an LSECC has returned or has ended the warp: the block that owns the word ends (R160). -/
def State.serveLsecc (s : State) (w : Nat) : State :=
  let W := s.warp w
  match W.lsecc with
  | some (b, word) => if W.inHandler then s else (s.modWarp w fun W => { W with lsecc := none }).endBlock b word
  | none => s

/-- A trap in handler mode: every lane of the warp ends as if by X.EXIT, and an error record names the cause (R331,
R376). -/
def State.doubleTrap (s : State) (w : Nat) (t : Trap) : State :=
  let W := s.warp w
  let b := W.block
  let s := s.modWarp w fun W => { W with doubleTrap := true, pending := [] }
  let s := s.endLanes b ((W.lanes.filter fun e => e.2.life == .live || e.2.life == .helper).map fun e => (w, e.1))
  let s := s.report { kind := 6, ctx := (s.block b).ctx, unit := W.core, start := t.tpc.toNat, info := t.tcs.toNat }
  s.serveLsecc w

/-- Is a trap of a warp held pending now: while another group of the warp is in handler mode (R331), while its core halts
for a switch (R342), and while a stop halts it (R374)? -/
def State.holdsTraps (s : State) (w : Nat) : Bool :=
  (s.warp w).inHandler || (s.core (s.warp w).core).halting || (s.warp w).dbgHalt

/-- TAKING A TRAP, R331: the lanes of `t` have left their group. In handler mode it is a double trap; while another
group of the warp is in handler mode, or its core halts or is stopped, it is held pending; otherwise it is taken. -/
def State.takeTrap (s : State) (w : Nat) (t : Trap) : State :=
  let W := s.warp w
  if t.lanes.any fun l => (W.lane l).handler then s.doubleTrap w t
  else if s.holdsTraps w then
    s.modWarp w fun W =>
      { (t.lanes.foldl (fun W l => W.modLane l fun L => { L with entry := .trapped }) W) with
        pending := W.pending ++ [t] }
  else s.enterHandler w t

/-- When the warp's last lane has left handler mode, the earliest pending trap is taken; ties go to the lowest lane
(R331). -/
def State.takePending (s : State) (w : Nat) : State :=
  let s := s.serveLsecc w
  let W := s.warp w
  match W.pending with
  | [] => s
  | t :: rest =>
    if s.holdsTraps w then s else (s.modWarp w fun W => { W with pending := rest }).enterHandler w t

/-- A trap that an instruction raises in one warp of its group. -/
structure Raise where
  warp : Nat
  cause : Cause
  tad : DWord := 0
  info : BitVec 8 := 0
  write : Bool := false
  deriving DecidableEq, Repr

/-- The lanes of the trapping warps leave the group (R96): thread lanes trap at the current word, helper lanes stay
parked there (R331). A warp of which only helper lanes are in the group raises no trap (R103). The group that goes on is
the answer; none when no lane is left. DEDUCED, log 67. -/
def State.raise (s : State) (g : Nat) (gr : Group) (rs : List Raise) : State × Option Group :=
  let s := rs.foldl (fun s r =>
    let ls := gr.lanesOf r.warp
    let threads := ls.filter fun l => s.isLive (r.warp, l)
    let helpers := ls.filter fun l => !s.isLive (r.warp, l)
    if threads = [] then s
    else
      let s := if helpers = [] then s
        else (s.splitOff g ((s.groups.get? g).getD gr) (helpers.map fun l => (r.warp, l)) .helpers {}).2
      let s := threads.foldl (fun s l => s.leaveGroup r.warp l) s
      s.takeTrap r.warp
        { code := r.cause.code, info := r.info, write := r.write, tpc := gr.pc, tad := r.tad, tch := gr.hdr,
          lanes := threads, stop := g }) s
  (s, s.groups.get? g)

/-- Raise traps and go on with the lanes that are left. -/
def State.raising (s : State) (g : Nat) (gr : Group) (rs : List Raise) (k : Group → State → Out) : Out :=
  if rs = [] then k gr s
  else
    match s.raise g gr rs with
    | (s, some gr) => k gr s
    | (s, none) => .next s

/-- PROT where an access that a group waited for has failed, R363: TAD the lowest lane's address; `write` says that the
access writes (R335). -/
def Group.badRaises (gr : Group) (write : Bool) : List Raise :=
  gr.warpIds.filterMap fun w =>
    (gr.memo.bad.find? fun e => e.1 / 32 == w).map fun e => ⟨w, .prot, e.2, 0, write⟩

/-- One trap in every warp of the group. -/
def Group.allWarps (gr : Group) (c : Cause) (tad : DWord) : List Raise := gr.warpIds.map fun w => ⟨w, c, tad, 0, false⟩

end Sys2Proof.Machine
end

