-- ==== Sys2Proof/Machine/Operands.lean ====
section
/-! DEFINITION. Reading operands, and the checks every lane-set and uniform-set instruction makes at issue
(02_encoding R21 to R27, R29, R33, R35; 06_registers_arithmetic R125; 05_threads_control R99, R103). -/

namespace Sys2Proof.Machine

/-! ## Values -/

/-- The fourteen fixed constants, R23. -/
def laneConst (n : Fin 14) : Word :=
  match n.val with
  | 0 => 0x00000000
  | 1 => 0x00000001
  | 2 => 0x00000002
  | 3 => 0x00000004
  | 4 => 0xFFFFFFFF
  | 5 => 0x3F000000
  | 6 => 0x3F800000
  | 7 => 0x40000000
  | 8 => 0xBF800000
  | 9 => 0x3FB8AA3B
  | 10 => 0x7F800000
  | 11 => 0x80000000
  | 12 => 0x7FFFFFFF
  | _ => 0x3C003C00

/-- The uniform constants, R33. -/
def uniConst (n : Fin 4) : Word :=
  match n.val with
  | 0 => 0x00000000
  | 1 => 0x00000001
  | 2 => 0xFFFFFFFF
  | _ => 0x80000000

/-- A 32-bit or packed operand, R22, R24. DEDUCED, log 27. -/
def src32 (w : Warp) (l : Lane) : Src → Word
  | .v n => l.getV n.val
  | .s n => w.getS n.val
  | .k n => laneConst n
  | .lit x => x
  | .none => 0

/-- A 64-bit integer operand: constants are sign-extended, R24. -/
def src64 (w : Warp) (l : Lane) : Src → DWord
  | .v n => l.getV64 n.val
  | .s n => w.getS64 n.val
  | .k n => (laneConst n).signExtend 64
  | .lit x => x.signExtend 64
  | .none => 0

/-- FP32 widened to FP64, R24: exact; a NaN keeps its sign and payload and becomes quiet. -/
def widen64 (x : Word) : DWord :=
  if x.extractLsb' 23 8 = 0xFF ∧ x.extractLsb' 0 23 ≠ 0 then
    BitVec.ofBool (x.getLsbD 31) ++ (0x7FF : BitVec 11) ++ (1 : BitVec 1) ++ x.extractLsb' 0 22 ++ (0 : BitVec 29)
  else w64 (fp64.conv {} (fp32.dec x.toNat))

/-- A 64-bit floating-point operand, R24. -/
def srcF64 (w : Warp) (l : Lane) : Src → DWord
  | .v n => l.getV64 n.val
  | .s n => w.getS64 n.val
  | .k n => widen64 (laneConst n)
  | .lit x => widen64 x
  | .none => 0

/-- An integer operand of 32 bits, or of 64 under W64. -/
def srcW (w64 : Bool) (w : Warp) (l : Lane) (x : Src) : DWord :=
  if w64 then src64 w l x else (src32 w l x).setWidth 64

/-- Word i of a quadruple of registers, R25. -/
def srcQ (w : Warp) (l : Lane) (x : Src) (i : Nat) : Word :=
  match x with
  | .v n => l.getV (n.val + i)
  | .s n => w.getS (n.val + i)
  | .k _ | .lit _ | .none => 0

/-- A uniform 32-bit operand, R33; a q register reads as 0 or 1 (R149). -/
def usrc32 (w : Warp) : USrc → Word
  | .s n => w.getS n.val
  | .q n => if w.getQ n then 1 else 0
  | .k n => uniConst n
  | .lit x => x
  | .none => 0

/-- A uniform truth value: a q register, or the constants false and true (R149). -/
def usrcT (w : Warp) : USrc → Bool
  | .q n => w.getQ n
  | .k n => n.val == 1
  | .s _ | .lit _ | .none => false

/-- A uniform 64-bit operand: a pair, or a constant extended by R24. -/
def usrc64 (w : Warp) : USrc → DWord
  | .s n => w.getS64 n.val
  | .k n => (uniConst n).signExtend 64
  | .lit x => x.signExtend 64
  | .q _ | .none => 0

/-! ## Registers that an instruction names -/

/-- Registers of a width from a first one. -/
def span (n width : Nat) : List Nat := (List.range width).map (n + ·)

def srcV (x : Src) (width : Nat) : List Nat :=
  match x with
  | .v n => span n.val width
  | .s _ | .k _ | .lit _ | .none => []

def srcS (x : Src) (width : Nat) : List Nat :=
  match x with
  | .s n => span n.val width
  | .v _ | .k _ | .lit _ | .none => []

def dstV (x : Dst) (width : Nat) : List Nat :=
  match x with
  | .v n => span n.val width
  | .s _ | .p _ | .none => []

/-- How many registers each operand field of a word names: D, A, B, C. -/
structure Widths where
  d : Nat := 1
  a : Nat := 1
  b : Nat := 1
  c : Nat := 1
  dRead : Bool := false                     -- D is also read (DOT.SC, PK.CVT)
  ps : List (Fin 8) := []                   -- predicates that the word reads beside its own
  deriving DecidableEq, Repr

def wd (w64 : Bool) : Nat := if w64 then 2 else 1

/-- Registers of a value of n bytes. -/
def regsOf (n : Nat) : Nat := (n + 3) / 4

def vsWidth : Vs → Nat
  | .v64 => 2
  | .lo | .hi => 1

/-- v registers that the word reads. -/
def Widths.readsV (w : Widths) (o : Ops) : List Nat :=
  srcV o.a w.a ++ srcV o.b w.b ++ srcV o.c w.c ++ (if w.dRead then dstV o.d w.d else [])

/-- The number by which `Lane.vBad` and TAD name a predicate: its value in the D field (R26, R125). -/
def predReg (n : Fin 8) : Nat := 240 + n.val

/-- v registers, and predicates by `predReg`, that every executing lane reads beside the word's own predicate. -/
def Widths.reads (w : Widths) (o : Ops) : List Nat := w.readsV o ++ w.ps.map predReg

/-- s registers that the word reads. -/
def Widths.readsS (w : Widths) (o : Ops) : List Nat := srcS o.a w.a ++ srcS o.b w.b ++ srcS o.c w.c

/-- Every v register that the word names. -/
def Widths.all (w : Widths) (o : Ops) : List Nat := dstV o.d w.d ++ w.readsV o

/-! ## The checks at issue -/

/-- v registers beyond the warp's allocation break R35 (R25, R126). All warps of a group have one allocation. -/
def allocOk (s : State) (gr : Group) (regs : List Nat) : Bool :=
  gr.warpIds.all fun w => regs.all fun r => decide (r < (s.warp w).regs)

/-- The predicate that every lane of the group reads to know whether it executes; p7 is none (R21, R26). -/
def predReads (p : Pred) : List Nat := if p.r = 7 then [] else [predReg p.r]

/-- The first register with an uncorrectable error that a lane reads, as its operand-field value: its own registers
among `vs`, or the warp's s registers among `ss`. -/
def Warp.badReg (W : Warp) (L : Lane) (vs ss : List Nat) : Option Nat :=
  match vs.find? L.vBad.contains with
  | some r => some r
  | none => (ss.find? W.sBad.contains).map (192 + ·)

/-- What a lane reads at a word: its predicate, and where it executes the operands. -/
def State.badRead (s : State) (pr : Pred) (vs ss : List Nat) (x : Nat × Nat) : Option Nat :=
  let W := s.warp x.1
  let L := W.lane x.2
  match W.badReg L (predReads pr) [] with
  | some r => some r
  | none => if predHolds pr L then W.badReg L vs ss else none

/-- REGECC, R125: the first failing register that a thread lane of the group reads, per warp; the error record is
KIND 3 (R376). -/
def regEcc (s : State) (gr : Group) (pr : Pred) (vs ss : List Nat) : List Raise :=
  gr.warpIds.filterMap fun w =>
    ((gr.lanes.filter fun x => x.1 == w && s.isLive x).findSome? fun x =>
      (s.badRead pr vs ss x).map (· + 256 * x.2)).map fun tad => ⟨w, .regecc, BitVec.ofNat 64 tad, 0, false⟩

/-- REGECC in the operands of the lanes that a form reads of a warp of the group, in their order (R125). -/
def State.someEcc (s : State) (gr : Group) (w : Widths) (o : Ops) (lanes : Nat → List Nat) : List Raise :=
  gr.warpIds.filterMap fun k =>
    let W := s.warp k
    ((lanes k).findSome? fun l => (W.badReg (W.lane l) (w.readsV o) (w.readsS o)).map (· + 256 * l)).map fun tad =>
      ⟨k, .regecc, BitVec.ofNat 64 tad, 0, false⟩

/-- Record the register errors that raised traps. -/
def State.reportRegs (s : State) (rs : List Raise) : State :=
  rs.foldl (fun s r =>
    let W := s.warp r.warp
    s.report { kind := 3, ctx := (s.block W.block).ctx, unit := W.core, info := r.tad.toNat }) s

/-- A destination receives 0 (R103). -/
def Lane.zeroD (l : Lane) (d : Dst) (width : Nat) : Lane :=
  match d with
  | .p n => l.setP n false
  | .v _ | .s _ | .none => (dstV d width).foldl (fun l r => l.setV r 0) l

/-- A helper lane's destination receives 0 where a thread lane would access memory or trap (R103). -/
def State.zeroHelpers (s : State) (gr : Group) (o : Ops) (width : Nat) : State :=
  s.eachLane (s.execHelpers gr o.pr) fun _ _ l => l.zeroD o.d width

/-- Helper lanes alone are left of a group whose instruction traps: their destinations receive 0, and they go on (R103).
A register outside the allocation is no destination. DESIGN CHOICE, log 79. -/
def State.skipHelpers (s : State) (g : Nat) (gr : Group) (o : Ops) (width : Nat) : Out :=
  .next ((if allocOk s gr (dstV o.d width) then s.zeroHelpers gr o width else s).retire g gr)

/-- Issue a lane-set instruction: the checks of R35 that depend on the allocation, PRIV (R29), REGECC (R125), and then
its effect on the group that is left. `chk` are the operands that every executing lane reads, where that is not all that
the word names. REGECC, which R36 and R195 do not place, comes where the registers are read: before
every check that an entry makes on their values (DESIGN CHOICE, log 84). Where no group stands at a word, nothing executes
(DESIGN CHOICE, log 8). -/
def issueLane (s : State) (priv : Bool) (o : Ops) (wd : Widths) (k : Nat → Group → State → Out) (chk : Widths := wd) : Out :=
  match s.current with
  | none => .next s
  | some (g, gr) =>
    let s := s.modGroup g fun x => { x with park := .run }
    if !allocOk s gr (wd.all o) then
      s.raising g gr (gr.allWarps .illegal (gr.word0.setWidth 64)) fun gr s => s.skipHelpers g gr o wd.d
    else if priv && !gr.handler then
      s.raising g gr (gr.allWarps .priv (gr.word0.setWidth 64)) fun gr s => s.skipHelpers g gr o wd.d
    else
      let rs := regEcc s gr o.pr (chk.reads o) (chk.readsS o)
      (s.reportRegs rs).raising g gr rs fun gr s => k g gr s

/-- The widths of a word of which no operand is read of every executing lane. -/
def noReads : Widths := ⟨0, 0, 0, 0, false, []⟩

/-- The lowest executing thread lane of a warp. -/
def State.leadOf (s : State) (gr : Group) (p : Pred) (w : Nat) : Option Nat :=
  ((s.execThreads gr p).find? (·.1 == w)).map (·.2)

/-- Issue an instruction that reads, of each warp, the operands of its lowest executing thread lane alone. -/
def issueLead (s : State) (priv : Bool) (o : Ops) (wd : Widths) (k : Nat → Group → State → Out) : Out :=
  issueLane s priv o wd (fun g gr s =>
    let rs := s.someEcc gr wd o fun w => (s.leadOf gr o.pr w).toList
    (s.reportRegs rs).raising g gr rs fun gr s => k g gr s) (chk := noReads)

/-- Issue an instruction that can be ILLEGAL for a reason that its launch decides: that comes before PRIV and REGECC
(R36). -/
def issueUnless (illegal : Group → State → Bool) (s : State) (o : Ops) (wd : Widths)
    (k : Nat → Group → State → Out) (chk : Widths := wd) : Out :=
  match s.current with
  | none => .next s
  | some (g, gr) =>
    if illegal gr s then
      let s := s.modGroup g fun x => { x with park := .run }
      s.raising g gr (gr.allWarps .illegal (gr.word0.setWidth 64)) fun gr s => s.skipHelpers g gr o wd.d
    else issueLane s false o wd k chk

/-- Issue an instruction without v operands: the uniform set. -/
def issueBare (s : State) (k : Nat → Group → State → Out) : Out :=
  match s.current with
  | none => .next s
  | some (g, gr) => k g gr (s.modGroup g fun x => { x with park := .run })

/-- Issue an instruction of the branch layout of R30: it reads its predicate alone. -/
def issueBranch (s : State) (pr : Pred) (k : Nat → Group → State → Out) : Out :=
  issueBare s fun g gr s =>
    let rs := regEcc s gr pr [] []
    (s.reportRegs rs).raising g gr rs fun gr s => k g gr s

/-- A lane's result where every register that it reads is good; a helper lane that reads a bad one gets 0 (R103). -/
def ifGood (o : Ops) (wd : Widths) (f : Warp → Nat → Lane → Lane) (W : Warp) (l : Nat) (L : Lane) : Lane :=
  match W.badReg L (predReads o.pr ++ wd.reads o) (wd.readsS o) with
  | none => f W l L
  | some _ => L.zeroD o.d wd.d

/-- An instruction that computes each executing lane by itself, helpers included (R103, R131). -/
def lanewise (s : State) (o : Ops) (wd : Widths) (f : Warp → Nat → Lane → Lane) : Out :=
  issueLane s false o wd fun g gr s => .next ((s.eachLane (s.execs gr o.pr) (ifGood o wd f)).retire g gr)

/-- REGECC in the s and q registers that a uniform instruction reads, per warp: TAD names the register by its value in a
uniform operand field (R33), and the warp's lowest lane in the group, since no lane owns the register. DEDUCED, log 70. -/
def regEccU (s : State) (gr : Group) (ss : List Nat) : List Raise :=
  gr.warpIds.filterMap fun w =>
    if (gr.lanesOf w).any fun l => s.isLive (w, l) then
      (ss.find? (s.warp w).sBad.contains).map fun r =>
        ⟨w, .regecc, BitVec.ofNat 64 (r + 256 * (gr.lanesOf w).headD 0), 0, false⟩
    else none

/-- s registers, and q registers at 48 + n, that a uniform operand names (R33). -/
def usrcS (x : USrc) (width : Nat) : List Nat :=
  match x with
  | .s n => span n.val width
  | .q n => [48 + n.val]
  | .k _ | .lit _ | .none => []

/-- Issue a uniform-set instruction that reads these s and q registers. -/
def issueUni (s : State) (reads : List Nat) (k : Nat → Group → State → Out) : Out :=
  issueBare s fun g gr s =>
    let rs := regEccU s gr reads
    (s.reportRegs rs).raising g gr rs fun gr s => k g gr s

/-- A uniform instruction that computes each warp of the group by itself, ascending (R99). -/
def warpwise (s : State) (reads : List Nat) (f : Warp → Warp) : Out :=
  issueUni s reads fun g gr s => .next ((gr.warpIds.foldl (fun s w => s.modWarp w f) s).retire g gr)

end Sys2Proof.Machine
end

