-- ==== Sys2Proof/Machine/Flags.lean ====
section
/-! DEFINITION. Carries and conditions into predicates (06_registers_arithmetic R133, R138), completion flags (02_encoding
R39, R40) and the work that instructions attach to them (09_lines_policies R233). -/

namespace Sys2Proof.Machine

/-! ## Carries and conditions -/

/-- Carry out of bit w - 1 of a + b + c, R133. -/
def carryAdd (w a b c : Nat) : Bool := decide (2 ^ w ≤ a + b + c)

/-- Borrow of a - b - c: unsigned a < unsigned b + c, R133. -/
def borrowSub (a b c : Nat) : Bool := decide (a < b + c)

/-- A carry predicate is written when CE = 1, R133; a write to p7 is discarded. -/
def Lane.putCarry (l : Lane) (m : IMod) (c : Bool) : Lane := if m.ce then l.setP m.co c else l

/-- COND of CMP.I, R138, on w-bit patterns as signed and unsigned numbers. -/
def icond (c : ICond) (sa sb : Int) (ua ub : Nat) : Bool :=
  match c with
  | .eq => ua == ub
  | .ne => ua != ub
  | .lt => decide (sa < sb)
  | .le => decide (sa ≤ sb)
  | .gt => decide (sb < sa)
  | .ge => decide (sb ≤ sa)
  | .ltu => decide (ua < ub)
  | .leu => decide (ua ≤ ub)
  | .gtu => decide (ub < ua)
  | .geu => decide (ub ≤ ua)

/-- COND of CMP.F and CMP.D, R138: ordered conditions are false on a NaN, unordered ones true. -/
def fcond (c : FCond) (a b : FVal) : Bool :=
  let un := a.isNan || b.isNan
  match c with
  | .eq => a.eqv b
  | .ne => !un && !a.eqv b
  | .lt => a.lt b
  | .le => !un && !b.lt a
  | .gt => b.lt a
  | .ge => !un && !a.lt b
  | .equ => un || a.eqv b
  | .neu => un || !a.eqv b
  | .ltu => un || a.lt b
  | .leu => un || !b.lt a
  | .gtu => un || b.lt a
  | .geu => un || !a.lt b
  | .num => !un
  | .nan => un

/-- The predicate that COMB reads. -/
def combReads (k : Comb) : List (Fin 8) := if k.op = .none then [] else [k.cp]

/-- COMB of CMP, R138. -/
def Lane.combine (l : Lane) (k : Comb) (x : Bool) : Bool :=
  let y := l.getP k.cp != k.cn
  match k.op with
  | .none => x
  | .and => x && y
  | .or => x || y
  | .xor => x != y

/-! ## Completion flags -/

/-- Is the flag set: is work attached to it outstanding (R40)? -/
def Warp.flagSet (w : Warp) (f : Nat) : Bool := w.flags.getD f 0 != 0

/-- Does the warp pass a WAIT field, R39? -/
def Warp.passes (w : Warp) (wait : BitVec 12) : Bool :=
  (List.range 12).all fun f => !(wait.getLsbD f && w.flagSet f)

/-- The flag that FS selects of the clause, R40; none: the work is untracked. -/
def Group.flag (gr : Group) (fs : Bool) : Option Nat := (if fs then gr.setb else gr.seta).map (·.val)

/-- Would another attachment, by one of these warps, exceed the 255 that a flag counts (R40)? -/
def Group.flagFull (s : State) (gr : Group) (fs : Bool) (ws : List Nat := gr.warpIds) : Bool :=
  match gr.flag fs with
  | some f => ws.any fun w => decide (255 ≤ (s.warp w).flags.getD f 0)
  | none => false

/-- Attach a piece of work of a warp to a flag; `left` parts must complete. The work's id is the answer. Work with
nothing to complete attaches nothing. -/
def State.attachTo (s : State) (f : Option Nat) (w left : Nat) : Nat × State :=
  let (n, s) := s.newId
  if left = 0 then (n, s)
  else
    let s := { s with works := s.works.set n { warp := w, flag := f, left := left } }
    match f with
    | some f => (n, s.modWarp w fun W => { W with flags := W.flags.putD f (W.flags.getD f 0 + 1) 0 })
    | none => (n, s)

/-- Attach to the flag that FS selects. -/
def State.attach (s : State) (gr : Group) (w : Nat) (fs : Bool) (left : Nat) : Nat × State :=
  s.attachTo (gr.flag fs) w left

/-- A part of a piece of work has completed. The flag itself falls at FLAG_CLEAR. -/
def State.workDone (s : State) (work : Nat) : State :=
  { s with works := s.works.modify work fun x => { x with left := x.left - 1 } }

/-- Flag-blocked entries whose flags are clear become runnable, R94. -/
def State.unblock (s : State) (w : Nat) : State :=
  s.modWarp w fun W =>
    W.lanes.foldl (fun W e =>
      match e.2.entry with
      | .flagBlocked wait =>
        if W.passes wait then W.setLane e.1 { e.2 with entry := .runnable, since := s.clock } else W
      | .runnable | .fetching _ | .group _ | .napping _ | .yielded _ | .trapped | .gone => W) W

/-- A piece of work of which nothing is left releases its attachment, R40; with the last one its block may be complete
(R104). -/
def State.flagClear (s : State) (work : Nat) (x : Work) : State :=
  let s := { s with works := s.works.del work }
  match x.flag with
  | some f =>
    ((s.modWarp x.warp fun W => { W with flags := W.flags.putD f (W.flags.getD f 0 - 1) 0 }).unblock x.warp).completing
      (s.warp x.warp).block
  | none => s

/-- Work of which every part completed at issue leaves nothing outstanding, R40. -/
def State.settleWork (s : State) (work : Nat) : State :=
  match s.works.get? work with
  | some x => if x.left = 0 then s.flagClear work x else s
  | none => s

/-- FLAG_CLEAR (R40): the completion of a piece of work reaches its flag. -/
def execFlagClear (work : Nat) (s : State) : Out :=
  match s.works.get? work with
  | some x => if x.left = 0 then .next (s.flagClear work x) else .refused .notEnabled
  | none => .refused .notEnabled

end Sys2Proof.Machine
end

