-- ==== Sys2Proof/Machine/SpecialFn.lean ====
section
/-! DEFINITION. The special functions (06_registers_arithmetic R145): each exact real result, rounded once on its grid.
Algebraic functions are exact integer divisions and roots with a sticky bit. The others are computed in fixed point with
320 fraction bits and a sticky bit, and their exact cases (powers of two, quarter turns) apart (assumption log 20). -/

namespace Sys2Proof.Machine

/-- Fraction bits of the fixed point. -/
def sfP : Nat := 320
def sfOne : Nat := 2 ^ 320
/-- ln 2 in fixed point. -/
def sfLn2 : Nat :=
  0xb17217f7d1cf79abc9e3b39803f2f6af40f343267298b62d8a0d175b8baafa2be7b876206debac98
/-- 2 pi in fixed point. -/
def sfTurn : Nat :=
  0x6487ed5110b4611a62633145c06e0e68948127044533e63a0105df531d89cd9128a5043cc71a026ef

/-- The sum of the terms of the exponential series from term n on. -/
def expSum (x : Nat) : Nat → Nat → Nat → Nat
  | 0, _, _ => 0
  | k + 1, n, t => t + expSum x k (n + 1) (t * x / sfOne / (n + 1))

/-- e^x in fixed point, for x below 1. -/
def expFix (x : Nat) : Nat := expSum x 72 0 sfOne

/-- Alternating series of sine and cosine: terms t, - t x^2 / ((n+1)(n+2)), ... -/
def trigSum (x2 : Nat) : Nat → Nat → Nat → Int
  | 0, _, _ => 0
  | k + 1, n, t => (t : Int) - trigSum x2 k (n + 2) (t * x2 / sfOne / ((n + 1) * (n + 2)))

/-- sin and cos of an angle of u / 2^320 turns, u at most an eighth. -/
def sinFix (u : Nat) : Nat :=
  let x := u * sfTurn / sfOne
  (trigSum (x * x / sfOne) 40 1 x).toNat

def cosFix (u : Nat) : Nat :=
  let x := u * sfTurn / sfOne
  (trigSum (x * x / sfOne) 40 0 sfOne).toNat

/-- The series of artanh from term z^n / n on. -/
def artanhSum (z2 : Nat) : Nat → Nat → Nat → Nat
  | 0, _, _ => 0
  | k + 1, n, t => t / n + artanhSum z2 k (n + 2) (t * z2 / sfOne)

/-- ln m in fixed point, for m = num / 2^k from 1 to 2. -/
def lnFix (num k : Nat) : Nat :=
  let z := (num - 2 ^ k) * sfOne / (num + 2 ^ k)
  2 * artanhSum (z * z / sfOne) 110 1 z

/-- The square root rounded down, bit by bit from bit k - 1. -/
def rootFloor (n : Nat) : Nat → Nat → Nat
  | 0, r => r
  | k + 1, r => if (r + 2 ^ k) * (r + 2 ^ k) ≤ n then rootFloor n k (r + 2 ^ k) else rootFloor n k r

/-- A positive value known to lie between num and num + 1, in units of 2^exp, and not at either end. -/
def between (neg : Bool) (num : Nat) (exp : Int) : FVal := .fin neg (2 * num + 1) (exp - 1)

/-- num / den * 2^exp. -/
def quotient (neg : Bool) (num den : Nat) (exp : Int) : FVal :=
  let q := num * 2 ^ 64 / den
  if q * den = num * 2 ^ 64 then .fin neg q (exp - 64) else between neg q (exp - 64)

def sfRcpV (a : FVal) : FVal :=
  match a with
  | .nan => .nan
  | .inf n => .fin n 0 0
  | .fin n m e => if m = 0 then .inf n else quotient n 1 m (-e)

/-- The square root of a positive num * 2^exp. -/
def rootOf (num : Nat) (exp : Int) : FVal :=
  let up : Nat := if exp % 2 = 0 then 128 else 129
  let x := num * 2 ^ up
  let r := rootFloor x 104 0
  if r * r = x then .fin false r ((exp - up) / 2) else between false r ((exp - up) / 2)

def sfSqrtV (a : FVal) : FVal :=
  match a with
  | .nan => .nan
  | .inf n => if n then .nan else .inf false
  | .fin n m e => if m = 0 then .fin n 0 0 else if n then .nan else rootOf m e

def sfRsqV (a : FVal) : FVal :=
  match a with
  | .nan => .nan
  | .inf n => if n then .nan else .fin false 0 0
  | .fin n m e =>
    if m = 0 then .inf n
    else if n then .nan
    else
      -- 1 / sqrt(m 2^e) = sqrt(2^(2k) / m) 2^(-k - e/2), for an even e
      let (m, e) : Nat × Int := if e % 2 = 0 then (m, e) else (2 * m, e - 1)
      let x := 2 ^ 128 / m
      let r := rootFloor x 66 0
      if r * r * m = 2 ^ 128 then .fin false r (-64 - e / 2) else between false r (-64 - e / 2)

def sfExp2V (a : FVal) : FVal :=
  match a with
  | .nan => .nan
  | .inf n => if n then .fin false 0 0 else .inf false
  | .fin n m e =>
    if m = 0 ∨ (Nat.log2 m : Int) + e < -25 then .fin false 1 0
    else if 8 ≤ (Nat.log2 m : Int) + e then .fin false 1 (if n then -300 else 300)
    else
      let x : Int := signed n (m * 2 ^ (e + 320).toNat)
      let k := x / (sfOne : Int)
      let f := (x % (sfOne : Int)).toNat
      if f = 0 then .fin false 1 k else between false (expFix (f * sfLn2 / sfOne)) (k - 320)

def sfLog2V (a : FVal) : FVal :=
  match a with
  | .nan => .nan
  | .inf n => if n then .nan else .inf false
  | .fin n m e =>
    if m = 0 then .inf true
    else if n then .nan
    else
      let k := Nat.log2 m
      let top := (k : Int) + e
      if m = 2 ^ k then FVal.ofInt top
      else
        let x : Int := 2 * (top * (sfOne : Int) + (lnFix m k * sfOne / sfLn2 : Nat)) + 1
        .fin (decide (x < 0)) x.natAbs (-321)

/-- sin (quarter = 0) or cos (quarter = 1) of a in turns. -/
def sfTrigV (quarter : Nat) (a : FVal) : FVal :=
  match a with
  | .nan | .inf _ => .nan
  | .fin n m e =>
    -- the fraction of a turn in units of 2^-320
    let r : Nat := if 0 ≤ e then 0 else m * 2 ^ (e + 320).toNat % sfOne
    let odd := n && quarter == 0
    let q := (r / (sfOne / 4) + quarter) % 4
    let u := r % (sfOne / 4)
    let neg := decide (2 ≤ q) != odd
    if u = 0 then
      (if q % 2 = 0 then .fin odd 0 0 else .fin neg 1 0)
    else
      let v := if u ≤ sfOne / 8 then (if q % 2 = 0 then sinFix u else cosFix u)
        else (if q % 2 = 0 then cosFix (sfOne / 4 - u) else sinFix (sfOne / 4 - u))
      between neg v (-320)

def sfTanhV (a : FVal) : FVal :=
  match a with
  | .nan => .nan
  | .inf n => .fin n 1 0
  | .fin n m e =>
    let top := (Nat.log2 m : Int) + e
    if m = 0 then .fin n 0 0
    else if top < -15 then .fin n (m * 2 ^ 24 - 1) (e - 24)
    else if 4 ≤ top then .fin n 1 0
    else
      let z := m * 2 ^ (e + 320).toNat / 32
      let sq (x : Nat) : Nat := x * x / sfOne
      let E := sq (sq (sq (sq (sq (sq (expFix z))))))
      between n ((E - sfOne) * sfOne / (E + sfOne)) (-320)

/-- The result on a grid with mf fraction bits, as the FP32 number of that value (R145). -/
def sfPut (mf : Nat) (fz : Bool) (v : FVal) : Word :=
  w32 ((⟨8, mf, .ieee⟩ : FFmt).put { fz := fz } v * 2 ^ (23 - mf))

def sfRcp (fz : Bool) (a : Word) : Word := sfPut 23 fz (sfRcpV (f32 fz a))
def sfRsq (fz : Bool) (a : Word) : Word := sfPut 12 fz (sfRsqV (f32 fz a))
def sfSqrt (fz : Bool) (a : Word) : Word := sfPut 23 fz (sfSqrtV (f32 fz a))
def sfExp2 (fz : Bool) (a : Word) : Word := sfPut 20 fz (sfExp2V (f32 fz a))
def sfLog2 (fz : Bool) (a : Word) : Word := sfPut 20 fz (sfLog2V (f32 fz a))
def sfSin (fz : Bool) (a : Word) : Word := sfPut 20 fz (sfTrigV 0 (f32 fz a))
def sfCos (fz : Bool) (a : Word) : Word := sfPut 20 fz (sfTrigV 1 (f32 fz a))
def sfTanh (fz : Bool) (a : Word) : Word := sfPut 20 fz (sfTanhV (f32 fz a))

end Sys2Proof.Machine
end

