-- ==== Sys2Proof/Machine/Arith.lean ====
section
/-! DEFINITION. Lane arithmetic (06_registers_arithmetic R131 to R147): each executing lane by itself, helpers
included. -/

namespace Sys2Proof.Machine

/-! ## Integers, R133 to R137 -/

def lo32 (x : DWord) : Word := x.extractLsb' 0 32

/-- A w-bit pattern as a signed number. -/
def sval (w64 : Bool) (x : DWord) : Int := if w64 then x.toInt else (lo32 x).toInt

/-- A w-bit pattern as an unsigned number. -/
def uval (w64 : Bool) (x : DWord) : Nat := if w64 then x.toNat else (lo32 x).toNat

def bits (w64 : Bool) : Nat := if w64 then 64 else 32

def clampInt (lo hi x : Int) : Int := max lo (min hi x)

/-- The exact result of a saturating form into its range, or modulo 2^w: R133. -/
def satInt (m : IMod) (x : Int) : DWord :=
  let w := bits m.w64
  BitVec.ofInt 64 (if m.sat then
    (if m.u then clampInt 0 (2 ^ w - 1) x else clampInt (-(2 ^ (w - 1))) (2 ^ (w - 1) - 1) x) else x)

/-- A pattern as U says. -/
def ival (m : IMod) (x : DWord) : Int := if m.u then (uval m.w64 x : Int) else sval m.w64 x

/-- An I form of two sources: its result and its carry; `ps` is the carry that it reads. -/
def intForm (o : Ops) (m : IMod) (ps : List (Fin 8)) (f : Lane → DWord → DWord → DWord × Bool) (s : State) : Out :=
  lanewise s o ⟨wd m.w64, wd m.w64, wd m.w64, 1, false, ps⟩ fun W _ L =>
    let r := f L (srcW m.w64 W L o.a) (srcW m.w64 W L o.b)
    (L.putDW o.d m.w64 r.1).putCarry m r.2

def execIAdd (o : Ops) (m : IMod) (s : State) : Out :=
  intForm o m [] (fun _ a b =>
    (satInt m (ival m a + ival m b), carryAdd (bits m.w64) (uval m.w64 a) (uval m.w64 b) 0)) s

def execISub (o : Ops) (m : IMod) (s : State) : Out :=
  intForm o m [] (fun _ a b => (satInt m (ival m a - ival m b), borrowSub (uval m.w64 a) (uval m.w64 b) 0)) s

def execIAddc (o : Ops) (m : IMod) (s : State) : Out :=
  intForm o m [m.ci] (fun L a b =>
    let c := (L.getP m.ci).toNat
    (a + b + BitVec.ofNat 64 c, carryAdd (bits m.w64) (uval m.w64 a) (uval m.w64 b) c)) s

def execISubb (o : Ops) (m : IMod) (s : State) : Out :=
  intForm o m [m.ci] (fun L a b =>
    let c := (L.getP m.ci).toNat
    (a - b - BitVec.ofNat 64 c, borrowSub (uval m.w64 a) (uval m.w64 b) c)) s

def execINeg (o : Ops) (m : IMod) (s : State) : Out :=
  intForm o m [] (fun _ a _ => (satInt m (-(sval m.w64 a)), false)) s

def execIAbs (o : Ops) (m : IMod) (s : State) : Out :=
  intForm o m [] (fun _ a _ => (satInt m ((sval m.w64 a).natAbs : Int), false)) s

def execIMin (o : Ops) (m : IMod) (s : State) : Out :=
  intForm o m [] (fun _ a b => (if ival m b < ival m a then b else a, false)) s

def execIMax (o : Ops) (m : IMod) (s : State) : Out :=
  intForm o m [] (fun _ a b => (if ival m a < ival m b then b else a, false)) s

def execISad (o : Ops) (m : IMod) (s : State) : Out :=
  lanewise s o {} fun W _ L =>
    let a := ival m (srcW false W L o.a)
    let b := ival m (srcW false W L o.b)
    L.putD o.d (BitVec.ofInt 32 ((a - b).natAbs + ((src32 W L o.c).toNat : Int)))

/-- The exact product of two 32-bit operands, R134. -/
def prod (u : Bool) (a b : Word) : Int := if u then (a.toNat * b.toNat : Nat) else a.toInt * b.toInt

/-- PART of a product. -/
def partOf (p : Part) (x : Int) : DWord :=
  match p with
  | .lo => (BitVec.ofInt 32 x).setWidth 64
  | .hi => ((BitVec.ofInt 64 x).extractLsb' 32 32 : Word).setWidth 64
  | .wide => BitVec.ofInt 64 x

def execImMul (o : Ops) (part : Part) (u : Bool) (s : State) : Out :=
  lanewise s o ⟨wd (part == .wide), 1, 1, 1, false, []⟩ fun W _ L =>
    L.putDW o.d (part == .wide) (partOf part (prod u (src32 W L o.a) (src32 W L o.b)))

def execImMad (o : Ops) (part : Part) (u : Bool) (s : State) : Out :=
  lanewise s o {} fun W _ L =>
    L.putD o.d (lo32 (partOf part (prod u (src32 W L o.a) (src32 W L o.b))) + src32 W L o.c)

def execImMadw (o : Ops) (u : Bool) (s : State) : Out :=
  lanewise s o ⟨2, 1, 1, 2, false, []⟩ fun W _ L =>
    L.putD64 o.d (BitVec.ofInt 64 (prod u (src32 W L o.a) (src32 W L o.b)) + src64 W L o.c)

/-- A bitwise form, R135. -/
def logForm (o : Ops) (w64 : Bool) (f : DWord → DWord → DWord) (s : State) : Out :=
  lanewise s o ⟨wd w64, wd w64, wd w64, 1, false, []⟩ fun W _ L =>
    L.putDW o.d w64 (f (srcW w64 W L o.a) (srcW w64 W L o.b))

def execLogAnd (o : Ops) (w64 : Bool) (s : State) : Out := logForm o w64 (· &&& ·) s
def execLogOr (o : Ops) (w64 : Bool) (s : State) : Out := logForm o w64 (· ||| ·) s
def execLogXor (o : Ops) (w64 : Bool) (s : State) : Out := logForm o w64 (· ^^^ ·) s
def execLogAndn (o : Ops) (w64 : Bool) (s : State) : Out := logForm o w64 (fun a b => a &&& ~~~b) s
def execLogNot (o : Ops) (w64 : Bool) (s : State) : Out := logForm o w64 (fun a _ => ~~~a) s

/-- Shift left of a w-bit value by an unsigned amount, R136. -/
def shl {w : Nat} (a : BitVec w) (n : Nat) : BitVec w := if n < w then a <<< n else 0
def shr {w : Nat} (a : BitVec w) (n : Nat) : BitVec w := if n < w then a >>> n else 0
/-- Arithmetic shift: an amount of w or more gives all sign bits. -/
def sar {w : Nat} (a : BitVec w) (n : Nat) : BitVec w := a.sshiftRight (min n w)
def rol {w : Nat} (a : BitVec w) (n : Nat) : BitVec w := a.rotateLeft (n % w)

/-- A shift form: the operation at 32 or at 64 bits. -/
def shForm (o : Ops) (w64 : Bool) (f32 : Word → Nat → Word) (f64 : DWord → Nat → DWord) (s : State) : Out :=
  lanewise s o ⟨wd w64, wd w64, 1, 1, false, []⟩ fun W _ L =>
    let n := (src32 W L o.b).toNat
    if w64 then L.putD64 o.d (f64 (src64 W L o.a) n) else L.putD o.d (f32 (src32 W L o.a) n)

def execShShl (o : Ops) (w64 : Bool) (s : State) : Out := shForm o w64 shl shl s
def execShShr (o : Ops) (w64 arith : Bool) (s : State) : Out :=
  if arith then shForm o w64 sar sar s else shForm o w64 shr shr s
def execShRot (o : Ops) (w64 : Bool) (s : State) : Out := shForm o w64 rol rol s

/-- The funnel shift of b:a, R136. -/
def funnel (left : Bool) (a b c : Word) : Word :=
  let x : DWord := b ++ a
  let k := c.toNat % 32
  if left then (x <<< k).extractLsb' 32 32 else (x >>> k).extractLsb' 0 32

def execShFun (o : Ops) (left : Bool) (s : State) : Out :=
  lanewise s o {} fun W _ L => L.putD o.d (funnel left (src32 W L o.a) (src32 W L o.b) (src32 W L o.c))

/-- pos and len of a bit-field control word, R137. -/
def bfPos (ctl : Word) : Nat := ctl.toNat % 256
def bfLen (ctl : Word) : Nat := ctl.toNat / 256 % 256

def bfExt (sx : Bool) (a ctl : Word) : Word :=
  let pos := bfPos ctl
  let len := bfLen ctl
  if len = 0 ∨ 32 ≤ pos then 0
  else
    let n := min len (32 - pos)
    let f := a.toNat / 2 ^ pos % 2 ^ n
    if sx then BitVec.ofInt 32 (sext n f) else BitVec.ofNat 32 f

def bfIns (a b ctl : Word) : Word :=
  let pos := bfPos ctl
  let len := bfLen ctl
  if len = 0 ∨ 32 ≤ pos then a
  else
    let n := min len (32 - pos)
    let mask : Word := BitVec.ofNat 32 ((2 ^ n - 1) * 2 ^ pos)
    (a &&& ~~~mask) ||| ((b <<< pos) &&& mask)

def popc (a : Word) : Nat := ((List.range 32).filter fun i => a.getLsbD i).length
def clz (a : Word) : Nat := if a = 0 then 32 else 31 - Nat.log2 a.toNat
def brev (a : Word) : Word := (List.range 32).foldl (fun x i => if a.getLsbD i then x ||| BitVec.twoPow 32 (31 - i) else x) 0
def ffs (a : Word) : Word :=
  match (List.range 32).find? fun i => a.getLsbD i with
  | some i => BitVec.ofNat 32 i
  | none => 0xFFFFFFFF

def execBfExt (o : Ops) (sx : Bool) (s : State) : Out :=
  lanewise s o {} fun W _ L => L.putD o.d (bfExt sx (src32 W L o.a) (src32 W L o.b))
def execBfIns (o : Ops) (s : State) : Out :=
  lanewise s o {} fun W _ L => L.putD o.d (bfIns (src32 W L o.a) (src32 W L o.b) (src32 W L o.c))
def execBfPopc (o : Ops) (s : State) : Out :=
  lanewise s o {} fun W _ L => L.putD o.d (BitVec.ofNat 32 (popc (src32 W L o.a)))
def execBfClz (o : Ops) (s : State) : Out :=
  lanewise s o {} fun W _ L => L.putD o.d (BitVec.ofNat 32 (clz (src32 W L o.a)))
def execBfBrev (o : Ops) (s : State) : Out :=
  lanewise s o {} fun W _ L => L.putD o.d (brev (src32 W L o.a))
def execBfFfs (o : Ops) (s : State) : Out :=
  lanewise s o {} fun W _ L => L.putD o.d (ffs (src32 W L o.a))

/-! ## Compares and predicates, R138, R139 -/

def execCmpI (o : Ops) (c : ICond) (w64 : Bool) (k : Comb) (s : State) : Out :=
  lanewise s o ⟨1, wd w64, wd w64, 1, false, combReads k⟩ fun W _ L =>
    let a := srcW w64 W L o.a
    let b := srcW w64 W L o.b
    L.putT o.d (L.combine k (icond c (sval w64 a) (sval w64 b) (uval w64 a) (uval w64 b)))

def execCmpF (o : Ops) (c : FCond) (fz : Bool) (k : Comb) (s : State) : Out :=
  lanewise s o { ps := combReads k } fun W _ L =>
    L.putT o.d (L.combine k (fcond c (f32 fz (src32 W L o.a)) (f32 fz (src32 W L o.b))))

def execCmpD (o : Ops) (c : FCond) (fz : Bool) (k : Comb) (s : State) : Out :=
  lanewise s o ⟨1, 2, 2, 1, false, combReads k⟩ fun W _ L =>
    L.putT o.d (L.combine k (fcond c (f64 fz (srcF64 W L o.a)) (f64 fz (srcF64 W L o.b))))

/-- Bit 4 pc + 2 pb + pa of the table, R139. -/
def lutBit (lut : Word) (pa pb pc : Bool) : Bool := lut.getLsbD (4 * pc.toNat + 2 * pb.toNat + pa.toNat)

def execPrLog (o : Ops) (pa pb pc : Fin 8) (s : State) : Out :=
  lanewise s o { ps := [pa, pb, pc] } fun W _ L => L.putT o.d (lutBit (src32 W L o.a) (L.getP pa) (L.getP pb) (L.getP pc))

/-! ## Moves, R140 -/

def execMvMov (o : Ops) (w64 : Bool) (s : State) : Out :=
  lanewise s o ⟨wd w64, wd w64, 1, 1, false, []⟩ fun W _ L => L.putDW o.d w64 (srcW w64 W L o.a)

def execMvSel (o : Ops) (ps : Fin 8) (sn w64 : Bool) (s : State) : Out :=
  lanewise s o ⟨wd w64, wd w64, wd w64, 1, false, [ps]⟩ fun W _ L =>
    L.putDW o.d w64 (srcW w64 W L (if L.getP ps != sn then o.a else o.b))

/-- One byte that MV.PRM selects. -/
def prmByte (a b c : Word) (i : Nat) : Nat :=
  let n := c.toNat / 16 ^ i % 16
  let y := (a.toNat + 2 ^ 32 * b.toNat) / 256 ^ (n % 8) % 256
  if 8 ≤ n then (if 128 ≤ y then 0xFF else 0) else y

def execMvPrm (o : Ops) (s : State) : Out :=
  lanewise s o {} fun W _ L =>
    let y := prmByte (src32 W L o.a) (src32 W L o.b) (src32 W L o.c)
    L.putD o.d (BitVec.ofNat 32 (y 0 + 256 * y 1 + 65536 * y 2 + 16777216 * y 3))

def execMvLea (o : Ops) (sh : Fin 8) (u : Bool) (s : State) : Out :=
  lanewise s o ⟨2, 2, 1, 1, false, []⟩ fun W _ L =>
    let b := src32 W L o.b
    L.putD64 o.d (src64 W L o.a + ((if u then b.setWidth 64 else b.signExtend 64) <<< sh.val))

/-! ## Conversions, R141 -/

def tyBits : ITy → Nat
  | .s32 | .u32 => 32
  | .s64 | .u64 => 64
  | .s16 | .u16 => 16
  | .s8 | .u8 => 8

def tySigned : ITy → Bool
  | .s32 | .s64 | .s16 | .s8 => true
  | .u32 | .u64 | .u16 | .u8 => false

/-- The low bits of a pattern as an integer of a type. -/
def tyVal (t : ITy) (x : DWord) : Int :=
  if tySigned t then sext (tyBits t) x.toNat else (x.toNat % 2 ^ tyBits t : Nat)

def tyLo (t : ITy) : Int := if tySigned t then -(2 ^ (tyBits t - 1)) else 0
def tyHi (t : ITy) : Int := if tySigned t then 2 ^ (tyBits t - 1) - 1 else 2 ^ tyBits t - 1

def ftyFmt : FTy → FFmt
  | .f32 => fp32
  | .f64 => fp64
  | .f16 => fp16
  | .bf16 => bf16

/-- The value of a float source. -/
def ftySrc (W : Warp) (L : Lane) (fz : Bool) (t : FTy) (x : Src) : FVal :=
  let raw : Nat := match t with
    | .f64 => (srcF64 W L x).toNat
    | .f32 => (src32 W L x).toNat
    | .f16 | .bf16 => (src32 W L x).toNat % 65536
  (ftyFmt t).read fz raw

/-- The rounding controls of CV in a lane, R86: the seed is B and the index 8 times the lane. -/
def cvCtl (m : CvMod) (seed : Word) (l : Nat) : RCtl := ⟨m.rm, m.fz, m.sat, srHash seed (8 * l)⟩

def execCvI2f (o : Ops) (m : CvMod) (src : ITy) (dst : FTy) (s : State) : Out :=
  lanewise s o ⟨wd dst.wide, wd src.wide, 1, 1, false, []⟩ fun W l L =>
    let x := tyVal src (srcW src.wide W L o.a)
    L.putDW o.d dst.wide (w64 ((ftyFmt dst).conv (cvCtl m (src32 W L o.b) l) (FVal.ofInt x)))

def execCvF2i (o : Ops) (m : CvMod) (src : FTy) (dst : ITy) (s : State) : Out :=
  lanewise s o ⟨wd dst.wide, wd src.wide, 1, 1, false, []⟩ fun W _ L =>
    L.putDW o.d dst.wide (BitVec.ofInt 64 ((ftySrc W L m.fz src o.a).toInt m.rm (tyLo dst) (tyHi dst)))

def execCvF2f (o : Ops) (m : CvMod) (src dst : FTy) (s : State) : Out :=
  lanewise s o ⟨wd dst.wide, wd src.wide, 1, 1, false, []⟩ fun W l L =>
    L.putDW o.d dst.wide (w64 ((ftyFmt dst).conv (cvCtl m (src32 W L o.b) l) (ftySrc W L m.fz src o.a)))

def execCvI2i (o : Ops) (wrap : Bool) (src dst : ITy) (s : State) : Out :=
  lanewise s o ⟨wd dst.wide, wd src.wide, 1, 1, false, []⟩ fun W _ L =>
    let x := tyVal src (srcW src.wide W L o.a)
    L.putDW o.d dst.wide
      (BitVec.ofInt 64 (if wrap then tyVal dst (BitVec.ofInt 64 x) else clampInt (tyLo dst) (tyHi dst) x))

/-! ## Floating point, R142 to R144 -/

def fctl (m : FMod) : RCtl := ⟨m.rm, m.fz, m.sat, 0⟩

/-- The operations that F, FH and D share. -/
inductive FOp where
  | add | sub | mul | fma | min | max
  deriving DecidableEq, Repr

/-- An operation on operand patterns of one format, R132, R142: negation flips the sign bit before FZ, and a NaN stays
NaN. -/
def fop (f : FFmt) (m : FMod) (op : FOp) (a b c : Nat) : Nat :=
  let a := (f.read m.fz a).neg m.na
  let b := (f.read m.fz b).neg m.nb
  let c := (f.read m.fz c).neg m.nc
  match op with
  | .add => f.put (fctl m) (FVal.add m.rm a b)
  | .sub => f.put (fctl m) (FVal.add m.rm a (b.neg true))
  | .mul => f.put (fctl m) (a.mul b)
  | .fma => f.put (fctl m) (FVal.add m.rm (a.mul b) c)
  | .min => fminmax f (fctl m) false a b
  | .max => fminmax f (fctl m) true a b

def fForm (op : FOp) (o : Ops) (m : FMod) (s : State) : Out :=
  lanewise s o {} fun W _ L =>
    L.putD o.d (w32 (fop fp32 m op (src32 W L o.a).toNat (src32 W L o.b).toNat (src32 W L o.c).toNat))

def execFAdd (o : Ops) (m : FMod) (s : State) : Out := fForm .add o m s
def execFSub (o : Ops) (m : FMod) (s : State) : Out := fForm .sub o m s
def execFMul (o : Ops) (m : FMod) (s : State) : Out := fForm .mul o m s
def execFFma (o : Ops) (m : FMod) (s : State) : Out := fForm .fma o m s
def execFMin (o : Ops) (m : FMod) (s : State) : Out := fForm .min o m s
def execFMax (o : Ops) (m : FMod) (s : State) : Out := fForm .max o m s

def execFCls (o : Ops) (s : State) : Out :=
  lanewise s o {} fun W _ L =>
    let x : Word := BitVec.twoPow 32 (fclass (src32 W L o.a)) &&& src32 W L o.b
    match o.d with
    | .v _ => L.putD o.d x
    | .p _ | .s _ | .none => L.putT o.d (x != 0)

/-- An FH form: both 16-bit elements, each rounded once, R143. -/
def fhForm (op : FOp) (o : Ops) (m : FMod) (s : State) : Out :=
  lanewise s o {} fun W _ L =>
    let f := if m.bf then bf16 else fp16
    let el (x : Word) (j : Nat) : Nat := x.toNat / 65536 ^ j % 65536
    let r (j : Nat) : Nat := fop f m op (el (src32 W L o.a) j) (el (src32 W L o.b) j) (el (src32 W L o.c) j)
    L.putD o.d (w32 (r 0 + 65536 * r 1))

def execFhAdd2 (o : Ops) (m : FMod) (s : State) : Out := fhForm .add o m s
def execFhMul2 (o : Ops) (m : FMod) (s : State) : Out := fhForm .mul o m s
def execFhFma2 (o : Ops) (m : FMod) (s : State) : Out := fhForm .fma o m s
def execFhMin2 (o : Ops) (m : FMod) (s : State) : Out := fhForm .min o m s
def execFhMax2 (o : Ops) (m : FMod) (s : State) : Out := fhForm .max o m s

def dForm (op : FOp) (o : Ops) (m : FMod) (s : State) : Out :=
  lanewise s o ⟨2, 2, 2, 2, false, []⟩ fun W _ L =>
    L.putD64 o.d (w64 (fop fp64 m op (srcF64 W L o.a).toNat (srcF64 W L o.b).toNat (srcF64 W L o.c).toNat))

def execDAdd (o : Ops) (m : FMod) (s : State) : Out := dForm .add o m s
def execDMul (o : Ops) (m : FMod) (s : State) : Out := dForm .mul o m s
def execDFma (o : Ops) (m : FMod) (s : State) : Out := dForm .fma o m s
def execDMin (o : Ops) (m : FMod) (s : State) : Out := dForm .min o m s
def execDMax (o : Ops) (m : FMod) (s : State) : Out := dForm .max o m s

/-! ## Special functions, R145 -/

def sfForm (f : Bool → Word → Word) (o : Ops) (fz : Bool) (s : State) : Out :=
  lanewise s o {} fun W _ L => L.putD o.d (f fz (src32 W L o.a))

def execSfRcp (o : Ops) (fz : Bool) (s : State) : Out := sfForm sfRcp o fz s
def execSfRsq (o : Ops) (fz : Bool) (s : State) : Out := sfForm sfRsq o fz s
def execSfSqrt (o : Ops) (fz : Bool) (s : State) : Out := sfForm sfSqrt o fz s
def execSfExp2 (o : Ops) (fz : Bool) (s : State) : Out := sfForm sfExp2 o fz s
def execSfLog2 (o : Ops) (fz : Bool) (s : State) : Out := sfForm sfLog2 o fz s
def execSfSin (o : Ops) (fz : Bool) (s : State) : Out := sfForm sfSin o fz s
def execSfCos (o : Ops) (fz : Bool) (s : State) : Out := sfForm sfCos o fz s
def execSfTanh (o : Ops) (fz : Bool) (s : State) : Out := sfForm sfTanh o fz s

/-! ## Dot products, R146 -/

def fmtCount (f : Fmt) : Nat := 32 / fmtSlot f

/-- The exact sum of the products of the elements of two registers. A sum of zeros alone is -0 only where each is -0, and
integers have no -0: R146 does not say, and R84 leaves it to it. DEDUCED, log 74. -/
def dotSum (f : Fmt) (m : DotMod) (a b : Word) : FVal :=
  ((List.range (fmtCount f)).map fun j =>
    let p := (elemVal f m.fz m.ua (elemBits f a j)).mul (elemVal f m.fz m.ub (elemBits f b j))
    if (fmtF f).isNone then p.plusZero else p).foldl
    (fun x y => match x with
      | none => some y
      | some x => some (FVal.add .rn x y)) none |>.getD (.fin false 0 0)

/-- The integer sum of the products. -/
def dotInt (f : Fmt) (m : DotMod) (a b : Word) : Int :=
  let v (uns : Bool) (x : Nat) : Int := if uns then x else sext (fmtBits f) x
  ((List.range (fmtCount f)).map fun j => v m.ua (elemBits f a j) * v m.ub (elemBits f b j)).sum

/-- DOT's result, R146; the sign of a zero result is that of the addition of R132. DEDUCED, log 74. -/
def dotVal (f : Fmt) (m : DotMod) (d a b c : Word) : Word :=
  if (fmtF f).isNone && !m.sc then
    let x := c.toInt + dotInt f m a b
    BitVec.ofInt 32 (if m.sat then clampInt (-(2 ^ 31)) (2 ^ 31 - 1) x else x)
  else
    let s := dotSum f m a b
    let s := if m.sc then (s.scale (ue8 (c.extractLsb' 0 8))).scale (ue8 (c.extractLsb' 8 8)) else s
    let acc := f32 m.fz (if m.sc then d else c)
    w32 (fp32.put ⟨.rn, m.fz, m.sat, 0⟩ (FVal.add .rn acc s))

def dotForm (f : Fmt) (o : Ops) (m : DotMod) (s : State) : Out :=
  lanewise s o ⟨1, 1, 1, 1, m.sc, []⟩ fun W _ L =>
    let d := match o.d with
      | .v n => L.getV n.val
      | .s _ | .p _ | .none => 0
    L.putD o.d (dotVal f m d (src32 W L o.a) (src32 W L o.b) (src32 W L o.c))

def execDotI8x4 (o : Ops) (m : DotMod) (s : State) : Out := dotForm .i8 o m s
def execDotI4x8 (o : Ops) (m : DotMod) (s : State) : Out := dotForm .i4 o m s
def execDotE4m3x4 (o : Ops) (m : DotMod) (s : State) : Out := dotForm .e4m3 o m s
def execDotE5m2x4 (o : Ops) (m : DotMod) (s : State) : Out := dotForm .e5m2 o m s
def execDotE2m1x8 (o : Ops) (m : DotMod) (s : State) : Out := dotForm .e2m1 o m s

/-! ## Packing, R147 -/

/-- The scale word of PK, 127 without one. -/
def pkScale (x : Src) (w : Word) : BitVec 8 := if x = .none then 127 else w.extractLsb' 0 8

/-- 2^(127 - s), the factor of a conversion under the scale s. -/
def unscale (s : BitVec 8) : FVal := .fin false 1 (127 - (s.toNat : Int))

def pkElem (m : PkCvtMod) (s : BitVec 8) (seed : Word) (l j : Nat) (x : Word) : Nat :=
  if s = 0xFF then ((fmtF m.fmt).map FFmt.nanBits).getD 0
  else elemPutVal m.fmt ⟨m.rm, m.fz, m.sat, srHash seed (8 * l + j)⟩ ((f32 m.fz x).scale (unscale s))

def execPkCvt (o : Ops) (m : PkCvtMod) (s : State) : Out :=
  lanewise s o ⟨1, 1, 1, 1, true, []⟩ fun W l L =>
    let c := src32 W L o.c
    let sc := pkScale o.c c
    let seed : Word := if o.c = .none then 0 else c &&& 0xFFFFFF00
    let d := match o.d with
      | .v n => L.getV n.val
      | .s _ | .p _ | .none => 0
    let k := 2 * m.k.val
    let d := elemPut m.fmt d k (pkElem m sc seed l k (src32 W L o.a))
    L.putD o.d (elemPut m.fmt d (k + 1) (pkElem m sc seed l (k + 1) (src32 W L o.b)))

def unpVal (f : Fmt) (fz : Bool) (x : Src) (a b c : Word) : Word :=
  let e := elemBits f a (b.toNat % fmtCount f)
  if x = .none ∧ (f = .i8 ∨ f = .i4) then BitVec.ofInt 32 (sext (fmtBits f) e)
  else w32 (fp32.put ⟨.rn, fz, false, 0⟩ ((elemVal f fz false e).scale (ue8 (pkScale x c))))

def execPkUnp (o : Ops) (fmt : Fmt) (fz : Bool) (s : State) : Out :=
  lanewise s o {} fun W _ L =>
    L.putD o.d (unpVal fmt fz o.c (src32 W L o.a) (src32 W L o.b) (src32 W L o.c))

def execPkScl (o : Ops) (fmt : Fmt) (s : State) : Out :=
  lanewise s o {} fun W _ L =>
    L.putD o.d ((canonScale fmt ((f32 false (src32 W L o.a)))).setWidth 32)

/-- FP6 elements in slots to planes, R80. -/
def pl6Split (a b : Word) : DWord :=
  let e (j : Nat) : Nat := if j < 4 then elemBits .e3m2 a j else elemBits .e3m2 b (j - 4)
  let lo := ((List.range 8).map fun j => e j % 16 * 16 ^ j).sum
  let hi := ((List.range 8).map fun j => e j / 16 * 4 ^ j).sum
  w64 (lo + 2 ^ 32 * hi)

/-- Planes to FP6 elements in slots. -/
def pl6Join (a b : Word) : DWord :=
  let e (j : Nat) : Nat := a.toNat / 16 ^ j % 16 + 16 * (b.toNat / 4 ^ j % 4)
  w64 (((List.range 8).map fun j => e j * 256 ^ j).sum)

def execPkPl6 (o : Ops) (join : Bool) (s : State) : Out :=
  lanewise s o ⟨2, 1, 1, 1, false, []⟩ fun W _ L =>
    L.putD64 o.d ((if join then pl6Join else pl6Split) (src32 W L o.a) (src32 W L o.b))

end Sys2Proof.Machine
end

