-- ==== Sys2Proof/Machine/Trans.lean ====
section
/-! DEFINITION. Translation: cached entries, walks and the configuration page (14_translation_traps R321 to R328,
13_work_queues R316, 09_lines_policies R200). -/

namespace Sys2Proof.Machine

/-! ## Entries -/

def eV (e : DWord) : Bool := e.getLsbD 0
def eLeaf (e : DWord) : Bool := e.getLsbD 1
def eRd (e : DWord) : Bool := e.getLsbD 2
def eWr (e : DWord) : Bool := e.getLsbD 3
def eEx (e : DWord) : Bool := e.getLsbD 4
def eCt (e : DWord) : Bool := e.getLsbD 5
/-- FRAME. -/
def eFrame (e : DWord) : Nat := (e.extractLsb' 12 40 : BitVec 40).toNat

/-- A valid entry keeps to R322 at its level; `chip` is the chip that uses the table. -/
def entryOk (chip lvl : Nat) (e : DWord) : Bool :=
  let f := eFrame e
  eV e && e.extractLsb' 6 6 == (0 : BitVec 6) && e.extractLsb' 52 12 == (0 : BitVec 12) &&
    (if eLeaf e then
      lvl != 3 && (lvl == 0 || !eCt e) && (lvl != 1 || f % 2 ^ 12 == 0) && (lvl != 2 || f % 2 ^ 24 == 0)
    else
      lvl != 0 && !eRd e && !eWr e && !eEx e && !eCt e && f % 8 == 0 && f / 2 ^ 39 == 0 && f / 2 ^ 33 == chip)

/-- The sixteen entries of a contiguous group, the entry's own place among them first: R323. -/
def groupOk (e : DWord) (j : Nat) (all : List DWord) : Bool :=
  let base := eFrame e - j
  decide (j ≤ eFrame e) && base % 16 == 0 &&
    (List.range 16).all fun i =>
      let x := all.getD i 0
      eV x && eLeaf x && eCt x && eRd x == eRd e && eWr x == eWr e && eEx x == eEx e && eFrame x == base + i

/-- The permissions that an access needs, R324. -/
def permits (n : Need) (e : DWord) : Bool := (!n.rd || eRd e) && (!n.wr || eWr e) && (!n.ex || eEx e)

/-- The index of an address at a level, with all higher indexes. -/
def vIndex (lvl va : Nat) : Nat := va / 2 ^ (12 * lvl + 12)

/-- The address that a leaf gives. -/
def leafPa (lvl : Nat) (e : DWord) (va : Nat) : Nat := eFrame e * 4096 + va % 2 ^ (12 * lvl + 12)

/-! ## Looking an address up -/

/-- What a translation finds. -/
inductive Look where
  | pa (a : Nat)
  | config (off : Nat)                      -- the configuration page, R316
  | fault (c : Cause)
  | walk (lvl table : Nat) (fresh : Bool)   -- a walk must read this entry next
  deriving DecidableEq, Repr

def State.tlbAt (s : State) (ctx lvl idx : Nat) : Option DWord :=
  (s.tlb.find? fun t => t.ctx == ctx && t.lvl == lvl && t.idx == idx).map (·.ent)

/-- Follow cached entries from a level down, R325, R327. A fault met on cached entries calls for a walk from the homes. -/
def State.lookFrom (s : State) (ctx va : Nat) (n : Need) (root : Nat) : Nat → Nat → Look
  | 0, table =>
    match s.tlbAt ctx 0 (vIndex 0 va) with
    | none => .walk 0 table false
    | some e => if permits n e then .pa (leafPa 0 e va) else .walk 3 root true
  | lvl + 1, table =>
    match s.tlbAt ctx (lvl + 1) (vIndex (lvl + 1) va) with
    | none => .walk (lvl + 1) table false
    | some e =>
      if eLeaf e then (if permits n e then .pa (leafPa (lvl + 1) e va) else .walk 3 root true)
      else s.lookFrom ctx va n root lvl (eFrame e * 4096)

/-- The check of R200 on an address that the tables give. -/
def State.checkPa (s : State) (a : Nat) : Look :=
  match placeOf a with
  | .dev c off =>
    if Config.memBytes ≤ off then .fault .xlate else if s.domain.contains c then .pa a else .fault .prot
  | .host _ | .reg _ | .hostReg _ | .nothing => .pa a

/-- What an address that a leaf gives raises, R200, R231. -/
def State.leafFault (s : State) (n : Need) (a : Nat) : Option Cause :=
  match s.checkPa a with
  | .fault c => some c
  | .pa _ =>
    if n.ex then
      (match placeOf a with
        | .reg _ | .hostReg _ | .nothing => some .prot
        | .dev _ _ | .host _ => none)
    else none
  | .config _ | .walk _ _ _ => none

/-- Translate an access, R316, R325. A fault that a cached leaf calls for is raised only by a walk from the homes (R327). -/
def State.look (s : State) (ctx : Nat) (va : DWord) (n : Need) : Look :=
  if va.extractLsb' 60 4 ≠ (0 : BitVec 4) then .fault .xlate
  else if va.toNat / 4096 = 1 then
    (if n.wr || n.ex then .fault .prot else .config (va.toNat % 4096))
  else
    match s.lookFrom ctx va.toNat n (s.ctx ctx).root 3 (s.ctx ctx).root with
    | .pa a => if (s.leafFault n a).isSome then .walk 3 (s.ctx ctx).root true else .pa a
    | .config o => .config o
    | .fault c => .fault c
    | .walk l t f => .walk l t f

/-- Words of the configuration record, R316. -/
def State.configWord (s : State) (ctx off : Nat) : Nat :=
  match off / 4 with
  | 0 => s.chip
  | 1 => 3
  | 2 => Config.nCore
  | 3 => Config.nSub
  | 4 => 128
  | 5 => 512
  | 6 => 256
  | 7 => Config.nTile
  | 8 => 128
  | 9 => 128
  | 10 => 768
  | 11 => (s.ctx ctx).qcount
  | 12 => s.domain.length
  | _ => 0

/-- Bytes of the configuration page as a number. -/
def State.configRead (s : State) (ctx off len : Nat) : Nat :=
  ((List.range len).map fun i =>
    s.configWord ctx (off + i) / 256 ^ ((off + i) % 4) % 256 * 256 ^ i).sum

/-! ## Walks -/

/-- Begin a walk; its id is the answer. -/
def State.startWalk (s : State) (ctx : Nat) (va : DWord) (n : Need) (lvl table : Nat) (fresh : Bool) : Nat × State :=
  let (k, s) := s.newId
  let w : Walk := { ctx, va := va.toNat, need := n, lvl, table, fresh }
  (k, { s with walks := s.walks.set k w })

/-- The fault of a finished walk among some walks, for an access. -/
def State.walkFault (s : State) (ids : List Nat) (ctx : Nat) (va : DWord) (n : Need) : Option Nat :=
  ids.findSome? fun k =>
    match s.walks.get? k with
    | some w => if w.ctx = ctx ∧ w.va / 4096 = va.toNat / 4096 ∧ w.need = n then w.fault else none
    | none => none

/-- The group's finished walks are done with. -/
def State.dropWalks (s : State) (ids : List Nat) : State := { s with walks := ids.foldl (fun m k => m.del k) s.walks }

/-- Cache an entry that a walk has read, R327. DESIGN CHOICE, log 15. -/
def State.cacheEntry (s : State) (ctx lvl idx : Nat) (e : DWord) : State :=
  { s with tlb := ⟨ctx, lvl, idx, e⟩ :: s.tlb.filter fun t => !(t.ctx == ctx && t.lvl == lvl && t.idx == idx) }

/-- Fetch faults, R328: the lanes that waited for this walk trap at their clause address; TAD is the address that
faulted. Helper lanes stay there (R331); alone they raise nothing, and stay until their quads have exited (R103). -/
def State.fetchFault (s : State) (walk : Nat) (code : Nat) (tad : DWord) : State :=
  s.warps.foldl (fun s e =>
    let ls := (e.2.lanes.filter fun x => x.2.entry = .fetching walk).map (·.1)
    let threads := ls.filter fun l => s.isLive (e.1, l)
    match threads with
    | [] => s
    | l :: _ =>
      let pc := (s.lane e.1 l).pc
      let s := ls.foldl (fun s l => s.modLane e.1 l fun L => { L with entry := .trapped }) s
      -- lanes of one warp that wait for one walk stand at one address and in one mode
      s.takeTrap e.1 { code := code, fetch := true, tpc := pc, tad := tad, tch := pc, lanes := threads }) s

/-- Lanes that waited for a walk may be grouped again. -/
def State.fetchReady (s : State) (walk : Nat) : State :=
  s.warps.foldl (fun s e =>
    e.2.lanes.foldl (fun s x =>
      if x.2.entry = .fetching walk then
        s.modLane e.1 x.1 fun L => { L with entry := .runnable, since := s.clock }
      else s) s) s

/-- A walk fails: it is made again from the homes, and fails for good the second time (R327). -/
def State.walkFails (s : State) (k : Nat) (w : Walk) (c : Cause) : State :=
  if w.fresh then
    if w.need.ex && s.warps.any (fun e => e.2.lanes.any fun x => x.2.entry == .fetching k) then
      ({ s with walks := s.walks.del k }).fetchFault k c.code (BitVec.ofNat 64 w.va)
    else { s with walks := s.walks.set k { w with fault := some c.code } }
  else { s with walks := s.walks.set k { w with fresh := true, lvl := 3, table := (s.ctx w.ctx).root } }

/-- PAGE_WALK_READ (R326): the walk reads its next entry at the entry's home. -/
def execPageWalkRead (walk : Nat) (s : State) : Out :=
  needing (fun s => match s.walks.get? walk with
  | none => .refused .notEnabled
  | some w =>
    if w.fault.isSome then .refused .notEnabled
    else
      let i := vIndex w.lvl w.va % 4096
      let a := w.table + 8 * i
      if !s.ownPa a then .next (s.walkFails walk w .xlate)
      else
        let (s, x) := s.devRead a 8
        let e := BitVec.ofNat 64 x
        let all := (List.range 16).map fun j => BitVec.ofNat 64 (memRead s.mem (w.table + 8 * (i / 16 * 16 + j)) 8)
        if !entryOk s.chip w.lvl e || (eCt e && !groupOk e (i % 16) all) then .next (s.walkFails walk w .xlate)
        else
          let s := s.cacheEntry w.ctx w.lvl (vIndex w.lvl w.va) e
          if eLeaf e then
            if permits w.need e then
              (match s.leafFault w.need (leafPa w.lvl e w.va) with
                | some c => .next (s.walkFails walk w c)
                | none => .next (({ s with walks := s.walks.del walk }).fetchReady walk))
            else .next (s.walkFails walk w .prot)
          else .next { s with walks := s.walks.set walk { w with lvl := w.lvl - 1, table := eFrame e * 4096 } }) s

/-! ## Shootdowns, R329, R349 -/

/-- Under what a group remembers how an access of a lane was translated (R328), and the virtual page in it. -/
def xlKey (w l page : Nat) (n : Need) : Nat :=
  2 ^ 56 * (32 * w + l) + 8 * page + n.rd.toNat + 2 * n.wr.toNat + 4 * n.ex.toNat
def xlPage (key : Nat) : Nat := key / 8 % 2 ^ 53

/-- Does a shootdown over pages lo to lo + n - 1 remove a cached entry? Leaves that map a page of the range, and every
entry that is not a leaf. -/
def tlbHit (all : Bool) (lo n : Nat) (t : Tlb) : Bool :=
  all || !eLeaf t.ent ||
    (decide (t.idx * 2 ^ (12 * t.lvl) < lo + n) && decide (lo < (t.idx + 1) * 2 ^ (12 * t.lvl)))

/-- Was an access to a virtual page translated by an entry that the shootdown removes? -/
def pageHit (all : Bool) (lo n : Nat) (gone : List Tlb) (page : Nat) : Bool :=
  all || (decide (lo ≤ page) && decide (page < lo + n)) ||
    gone.any fun t => eLeaf t.ent && t.idx == page / 2 ^ (12 * t.lvl)

/-- The number of a block's RD.ORD records up to the last that a page test hits. -/
def ordsUpTo (hit : Nat → Bool) (ords : List OrdRec) : Nat := ((ords.reverse.dropWhile fun r => !hit r.vpage)).length

/-- Begin a shootdown: the entries go, and what they have translated is written down (R329, R330). A range of pages with
n = 0 holds none. -/
def State.beginShootdown (s : State) (ctx g lo n : Nat) (all domain : Bool) : Nat × State :=
  let gone := s.tlb.filter fun t => t.ctx == ctx && tlbHit all lo n t && (n != 0 || all || !eLeaf t.ent)
  let leaves := if n = 0 && !all then [] else gone
  let hit := pageHit all lo n leaves
  let ops := (s.ops.filter fun e => e.2.ctx == ctx && hit e.2.vpage).map (·.1)
  let cmds := (s.cmds.filter fun e => e.2.ctx == ctx && e.2.xl.keys.any hit).map (·.1)
  let mine (w : Nat) : Bool := (s.block (s.warp w).block).ctx == ctx
  let joins := (s.joins.filter fun e => mine e.2.warp && hit e.2.vpage).map (·.1)
  let ords := (s.blocks.filter fun b => b.2.ctx == ctx).map fun b => (b.1, ordsUpTo hit b.2.ords)
  let cores := (List.range Config.nCore).filter s.partialsOut
  let s := cores.foldl (fun s c => s.pushAll c) s
  let (k, s) := s.newId
  let s := { s with tlb := s.tlb.filter fun t => !gone.contains t }
  let again (e : Nat × Walk) : Nat × Walk :=
    if e.2.ctx = ctx ∧ e.2.fault = none then (e.1, { e.2 with lvl := 3, table := (s.ctx ctx).root }) else e
  let held (e : Nat × Group) : Nat × Group :=
    if (s.block e.2.block).ctx = ctx ∧ e.2.memo.xl.keys.any fun x => hit (xlPage x) then
      (e.1, { e.2 with memo := { e.2.memo with shots := k :: e.2.memo.shots } })
    else e
  let s := { s with walks := s.walks.map again, groups := s.groups.map held }
  let d : Shootdown :=
    { ctx, all, lo, n, domain, group := g, ops, cmds, pushes := s.pushedIds, joins,
      ords := ords.filter fun e => e.2 != 0 }
  (k, { s with shoots := s.shoots.set k d })

/-- May shootdown k complete? Everything that it has written down is done with. DEDUCED, log 43. -/
def State.shootDone (s : State) (k : Nat) (d : Shootdown) : Bool :=
  s.groups.all (fun e => !e.2.memo.shots.contains k) &&
  d.ops.all (fun k => (s.ops.get? k).isNone) && d.cmds.all (fun k => (s.cmds.get? k).isNone) && d.pushes.all s.foldedIn &&
    d.joins.all (fun k => (s.joins.get? k).isNone) && d.chips == [] &&
    d.ords.all fun e => match s.blocks.get? e.1 with
      | some b => decide (b.ords.length < e.2) && s.ops.all fun o => !b.warps.contains o.2.warp
      | none => true

end Sys2Proof.Machine
end

