-- ==== Sys2Proof/Machine/Lines.lean ====
section
/-! DEFINITION. Lines, homes and proxies (09_lines_policies R200 to R231; 15_host_fabric R357, R361 to R363, R365;
11_colours_monitors R263): messages between cores, engines and homes, one event for each that is served. -/

namespace Sys2Proof.Machine

/-! ## Where a line lives -/

/-- The source of a host request, and of another chip's. -/
def hostSrc : Nat := 3000
def chipSrc (c : Nat) : Nat := 4000 + c

/-- The chip of a remote line. -/
def State.remoteChip (s : State) (line : Nat) : Option Nat :=
  match placeOf (128 * line) with
  | .dev c _ => if c = s.chip then none else some c
  | .host _ | .reg _ | .hostReg _ | .nothing => none

def isHostLine (line : Nat) : Bool := homeOf line == hostAgent

/-- sr.time at an agent. -/
def State.timeOf (s : State) (agent : Nat) : Nat :=
  if agent < 1000 then s.timeAt (agent % 256)
  else if agent < 1000 + Config.nSlice then s.time + s.dieOff.getD ((agent - 1000) / 64) 0
  else s.time

/-- An L copy serves while t + 16 < E and the chip's time is locked, R218, R365. DEDUCED, log 33. -/
def State.leaseServes (s : State) (t expiry : Nat) : Bool := decide (t + 16 < expiry) && s.sync.lock

/-! ## Messages -/

/-- A request that takes a token of the Weir, R228. -/
def State.request (s : State) (src line ctx : Nat) (body : Body) : State :=
  let (n, s) := s.newId
  let m : Msg := { src, dst := homeOf line, line, cls := (s.ctx ctx).wclass, ctx, metered := true, body }
  { s with msgs := s.msgs.set n m }

/-- Has a message reached its home, where it waits or is served? -/
def State.arrived (s : State) (id : Nat) (m : Msg) : Bool :=
  let h := s.hline m.line
  h.queue.contains id || (h.busy.map (·.msg)) == some id || (s.slice (m.dst - 1000)).port.contains id

/-- A core's engine sends on its core's path, R256. -/
def pathOf (agent : Nat) : Nat := if 256 ≤ agent ∧ agent < 512 then agent - 256 else agent

/-- Messages between two agents arrive in the order sent, R208. -/
def State.deliverable (s : State) (id : Nat) (m : Msg) : Bool :=
  !s.arrived id m && s.msgs.all fun e =>
    !(decide (e.1 < id) && pathOf e.2.src == pathOf m.src && e.2.dst == m.dst && !s.arrived e.1 e.2)

/-- The links that are up towards a chip, R362. PRESUMED, log 23. -/
def State.upLinks (s : State) (chip : Nat) : List Nat := (s.routes.getD chip []).filter fun k => (s.link k).up

/-! ### Flits, R360, R361 -/

def classNo : FabClass → Nat
  | .req => 0 | .rsp => 1 | .ctl => 2 | .time => 3

/-- The 128 bytes that a message carries in data slots. -/
def fabPayload : FabMsg → List Byte
  | .req _ _ (.writeBack _ d) | .rsp _ _ { data := d, .. } | .ack _ d | .record _ _ d => d
  | .req _ _ .own | .req _ _ .ownAll | .req _ _ .thru | .req _ _ (.lease _) | .req _ _ .track | .req _ _ (.write _ _ _ _)
  | .req _ _ .colour
  | .req _ _ (.recolour _ _) | .recall _ _ | .inval _ | .mon _ _ _ | .monAns _ _ _ | .accept _ _ | .refuse _ _ _ _
  | .start _ _ | .join _ _ _ _ | .joined _ _ | .tlbi _ _ _ _ _ | .tlbiDone _ | .poison _ _ | .time _ => []

/-- A message with these bytes in its data slots. -/
def fabFill (d : List Byte) : FabMsg → FabMsg
  | .req i l (.writeBack m _) => .req i l (.writeBack m d)
  | .rsp i l a => .rsp i l { a with data := d }
  | .ack l _ => .ack l d
  | .record c g _ => .record c g d
  | m => m

/-- The line whose home slice chooses a message's link, R362. -/
def fabLine : FabMsg → Nat
  | .req _ l _ | .rsp _ l _ | .recall l _ | .inval l | .ack l _ | .poison _ l => l
  | .join _ _ pa _ => pa / 128
  | .mon _ _ _ | .monAns _ _ _ | .record _ _ _ | .accept _ _ | .refuse _ _ _ _ | .start _ _ | .joined _ _ | .tlbi _ _ _ _ _
  | .tlbiDone _ | .time _ => 0

/-- The slots of a message: one, or nine where it carries a line. -/
def packetSlots (p : Packet) : List FlitSlot :=
  let d := fabPayload p.msg
  if d = [] then [.head p 0]
  else
    .head { p with msg := fabFill [] p.msg } 8 ::
      (List.range 8).map fun i => .data ((List.range 16).map fun j => d.getD (16 * i + j) 0)

/-- The 16 bytes of a slot. -/
def slotBytes : FlitSlot → List Byte
  | .empty => List.replicate 16 0
  | .head p n => Config.headBytes p n
  | .data d => d

/-- Bytes 0 to 247 of a flit, which its CRC covers. -/
def flitBytes (seq : Word) (ack : BitVec 16) (slots : List FlitSlot) : List Byte :=
  bytesOfNat 4 seq.toNat ++ bytesOfNat 2 ack.toNat ++ [0, 0] ++ slots.flatMap slotBytes

/-- The flit that carries some slots. -/
def mkFlit (seq : Nat) (ack : BitVec 16) (slots : List FlitSlot) : Flit :=
  let slots := slots ++ List.replicate (15 - slots.length) .empty
  { seq := BitVec.ofNat 32 seq, ack, slots, crc := Config.crc64 (flitBytes (BitVec.ofNat 32 seq) ack slots) }

/-- The next flit of a link. -/
def Link.flit (l : Link) (slots : List FlitSlot) (again : Bool) : Flit :=
  mkFlit l.txSeq (Config.ackField l.rxAcks (fun c => l.rxCredits.getD (classNo c) 0) again) slots

/-- Send the next flit of a link; it stays in the replay buffer until it is acknowledged. -/
def Link.emit (l : Link) (slots : List FlitSlot) (again : Bool) : Link :=
  let f := l.flit slots again
  { l with txSeq := (l.txSeq + 1) % 2 ^ 32, replay := l.replay ++ [f], out := l.out ++ [f], rxAcks := 0, rxCredits := [] }

/-- Has a class of messages a credit left on a link, R361? -/
def Link.credit (l : Link) (c : FabClass) : Bool := decide (l.credits.getD (classNo c) 0 ≤ Config.linkCredits)

/-- Send a message over a link: it takes a credit of its class, and waits for one behind the earlier messages of the
class (R361). DESIGN CHOICE, log 55. -/
def Link.send (l : Link) (p : Packet) : Link :=
  let c := p.msg.cls
  if l.credit c && l.wait.all fun q => q.msg.cls != c then
    { l with credits := l.credits.putD (classNo c) (l.credits.getD (classNo c) 0 + 1) 0 }.emit (packetSlots p) false
  else { l with wait := l.wait ++ [p] }

/-- The link that a message takes: its destination and home slice choose it from the list of those that are up (R362). -/
def State.linkFor (s : State) (p : Packet) : Option Nat :=
  let ls := s.upLinks p.dst
  ls[sliceOf (128 * fabLine p.msg % 2 ^ 45) % ls.length]?

/-- A message enters a link. A chip with a message for one that sleeps in A3 raises wake on it and keeps the message, and a
chip in A3 sends nothing (R388). DESIGN CHOICE, log 10. -/
def State.intoLink (s : State) (k : Nat) (p : Packet) : State :=
  let l := s.link k
  s.setLink k (if l.asleep then { l with held := l.held ++ [p], wake := true }
    else if s.mgmt.pstate = 3 then { l with held := l.held ++ [p] } else l.send p)

/-- What the loss of a message brings about, R363: a request, and an answer that carries a line, end with poison; a launch
is refused with RECFAULT; a thread that asked for a monitor is told, and one that was to hear of it leaves its record; what
needs no answer takes another route. DESIGN CHOICE, log 55. -/
def lostAs (p : Packet) : Packet :=
  match p.msg with
  | .req id l _ => ⟨p.dst, p.src, .poison id l⟩
  | .recall l _ | .inval l => ⟨p.dst, p.src, .poison 0 l⟩
  | .join id _ _ _ => ⟨p.dst, p.src, .poison id 0⟩
  | .record c g _ => ⟨p.dst, p.src, .refuse p.src c g 3⟩
  | .tlbi id _ _ _ _ => ⟨p.dst, p.src, .tlbiDone id⟩
  | .rsp id l _ => { p with msg := .poison id l }
  | .ack l _ => { p with msg := .poison 0 l }
  | .mon ctx c (.ask id) | .mon ctx c (.wait id _ _) => ⟨p.dst, p.src, .monAns ctx c (.lost id)⟩
  | .monAns ctx c (.granted id _) => ⟨p.dst, p.src, .mon ctx c (.free id)⟩
  | .monAns ctx c (.queued id) => ⟨p.dst, p.src, .mon ctx c (.leave id)⟩
  | .poison _ _ | .mon _ _ (.free _) | .mon _ _ (.notify _) | .mon _ _ (.leave _) | .monAns _ _ (.full _) | .monAns _ _ (.lost _)
  | .accept _ _ | .refuse _ _ _ _ | .start _ _ | .joined _ _ | .tlbiDone _ | .time _ => p

/-- A message is lost, R363. -/
def State.lose (s : State) (p : Packet) : State :=
  let q := lostAs p
  if q.dst = s.chip then { s with inbox := s.inbox ++ [q] }
  else
    match s.linkFor q with
    | some k => s.intoLink k q
    | none => s

/-- Send a message on its way; one that no link that is up leads to is lost (R363). -/
def State.route (s : State) (p : Packet) : State :=
  match s.linkFor p with
  | some k => s.intoLink k p
  | none => s.lose p

/-- Send to another chip. DESIGN CHOICE, log 28. -/
def State.fabric (s : State) (chip : Nat) (m : FabMsg) : State := s.route ⟨s.chip, chip, m⟩

/-! ## Element operations -/

def lineVal (d : AMap Byte) (off len : Nat) : Nat :=
  ((List.range len).map fun i => (d.getD (off + i) (0 : Byte)).toNat * 256 ^ i).sum

def linePut (d : AMap Byte) (off len x : Nat) : AMap Byte :=
  (List.range len).foldl (fun d i => d.putD (off + i) (BitVec.ofNat 8 (x / 256 ^ i)) 0) d

/-- The new element of an operation, where it writes one. -/
def Op.eval (op : Op) (old : DWord) : Option DWord :=
  match op.act with
  | .st => some op.val
  | .at_ f u | .rd f u => some (gopEval f u (op.len == 8) old op.val op.cmp)
  | .ld _ | .pre | .refill _ _ | .engine _ _ => none

/-- Perform an operation on memory: what it leaves there, and the old element. -/
def Op.apply (op : Op) (m : Memory) : Memory × DWord :=
  let old := BitVec.ofNat 64 (memRead m op.pa op.len)
  match op.eval old with
  | some x => (memWrite m op.pa op.len x.toNat, old)
  | none => (m, old)

/-- What a load puts into its destination, R234. -/
def Op.extend (op : Op) (x : DWord) : DWord :=
  match op.act with
  | .ld true => BitVec.ofInt 64 (sext (8 * op.len) x.toNat)
  | .ld false | .st | .at_ _ _ | .rd _ _ | .pre | .refill _ _ | .engine _ _ => x

/-- Write the destination registers of a result. -/
def Lane.putRes (l : Lane) (dst : Option Nat) (n : Nat) (x : DWord) : Lane :=
  match dst with
  | some d => if n = 2 then l.setV64 d x else l.setV d (x.extractLsb' 0 32)
  | none => l

/-- Bytes that an engine command has read, R283, R287: from position `pos` on, poisoned or not. -/
def State.engineBytes (s : State) (cmd pos len : Nat) (x : DWord) (bad : Bool) : State :=
  { s with cmds := s.cmds.modify cmd fun c =>
      { c with srcBytes := linePut c.srcBytes pos len x.toNat, read := pos :: c.read,
               srcBad := if bad then c.srcBad ++ (List.range len).map (pos + ·) else c.srcBad } }

/-- An access is done with: its result is in place and its part of the work is complete (R233). Where the instruction may
still trap, both wait until all its accesses have returned (R42). -/
def State.opDone (s : State) (k : Nat) (op : Op) (x : DWord) : State :=
  let s := { s with ops := s.ops.del k }
  let s : State := match op.hold with
    | some g => s.modGroup g fun gr =>
        { gr with memo := { gr.memo with
            left := gr.memo.left - 1,
            results := gr.memo.results ++ [⟨op.warp, op.lane, op.dst, op.dstLen, op.extend x, op.work⟩] } }
    | none => (s.modLane op.warp op.lane (·.putRes op.dst op.dstLen (op.extend x))).workDone op.work
  let s : State := match op.act with
    | .refill g key => s.modGroup g fun gr =>
        { gr with memo := { gr.memo with refill := gr.memo.refill.set key x } }
    | .engine c pos => s.engineBytes c pos op.len x (s.hline (op.pa / 128)).poison
    | .ld _ | .st | .at_ _ _ | .rd _ _ | .pre => s
  let s : State := match op.spill with
    | some n => { s with spills := s.spills.modify n fun p => { p with tail := some x.toNat } }
    | none => s
  if (s.lane op.warp op.lane).life = .exited then s.releaseQuarters op.warp else s

/-- The accesses whose results a group's word has gathered are complete. -/
def State.resultsDone (s : State) (gr : Group) : State := gr.memo.results.foldl (fun s r => s.workDone r.work) s

/-- The results that a group's word has gathered take effect, for the lanes that have not trapped (R42). -/
def State.putResults (s : State) (gr : Group) : State :=
  gr.memo.results.foldl (fun s r =>
    if gr.lanes.contains (r.warp, r.lane) then s.modLane r.warp r.lane (·.putRes r.dst r.n r.val) else s) s

/-- An access completed with poison, R363: a load or atomic raises PROT at its word, a store is not applied. -/
def State.opBad (s : State) (k : Nat) (op : Op) : State :=
  let s := { s with ops := s.ops.del k }
  let s := s.workDone op.work
  -- a TAIL that cannot be reached leaves no index below LIMIT
  let s : State := match op.spill with
    | some n => { s with spills := s.spills.modify n fun p => { p with tail := some p.limit } }
    | none => s
  let s : State := match op.act with
    | .refill g _ => s.modGroup g fun gr =>
        { gr with memo := { gr.memo with bad := gr.memo.bad.set (32 * op.warp + op.lane) op.va } }
    | .engine c pos => s.engineBytes c pos op.len 0 true
    | .ld _ | .st | .at_ _ _ | .rd _ _ | .pre => s
  let s : State := match op.hold with
    | some g => s.modGroup g fun gr =>
        { gr with memo := { gr.memo with left := gr.memo.left - 1, bad := gr.memo.bad.set (32 * op.warp + op.lane) op.va } }
    | none => s
  if (s.lane op.warp op.lane).life = .exited then s.releaseQuarters op.warp else s

/-- An access with those that are combined with it, R227. -/
def State.chained (s : State) (k : Nat) (op : Op) : List (Nat × Op) :=
  (k, op) :: op.chain.filterMap fun j => (s.ops.get? j).map fun x => (j, x)

/-- Perform an operation in an owner's L1, R209, R222: the copy becomes M where it writes. -/
def State.performOwn (s : State) (k line : Nat) (op : Op) (c : CLine) : State :=
  let off := op.pa % 128
  let old := BitVec.ofNat 64 (lineVal c.data off op.len)
  match op.eval old with
  | some x =>
    let dirty := if c.dirty.contains (off / 4) then c.dirty else off / 4 :: c.dirty
    let dirty := if op.len = 8 ∧ !dirty.contains (off / 4 + 1) then (off / 4 + 1) :: dirty else dirty
    let s := s.setCline op.agent line
      { c with st := .m, data := linePut c.data off op.len x.toNat, dirty := sortNat dirty }
    (s.gwct op.warp (max (s.timeOf op.agent) c.lx)).opDone k op old
  | none => s.opDone k op old

/-! ## A request at its home -/

/-- How a request bears on the holders of its line, R211, R212. -/
inductive ReqKind where
  | none                                    -- asks for nothing of the line's holders
  | read
  | write                                   -- needs ownership, or writes
  | evict                                   -- as a write, within the package alone (R215)
  | loc                                     -- RD.LOC
  deriving DecidableEq, Repr

def Body.kind : Body → ReqKind
  | .own _ | .write _ _ | .rdThru _ => .write
  | .thruRd _ | .leaseReq _ _ | .trackReq _ => .read
  | .rdLoc _ => .loc
  | .pushed _ _ _ | .clear true | .devWr _ _ _ => .write
  | .clear false => .evict
  | .devRd => .read
  | .chipReq _ _ r => match r with
    | .own | .ownAll | .write _ _ _ _ => .write
    | .thru | .lease _ | .track => .read
    | .writeBack _ _ | .colour | .recolour _ _ => .none
  | .recolour _ _ _ _ | .hostReq _ _ | .colourQ _ _ | .wb _ _ _ _ | .ack | .recall _ _ | .inval | .data _ _ _ | .grant _ _ _ | .grantU _
  | .wack _ _ _ _ | .poisoned _ => .none

/-- Is a page of device memory in host bias, R356? DESIGN CHOICE, log 9. -/
def State.hostBias (s : State) (pa : Nat) : Bool :=
  let p := pa % 2 ^ 45 / 4096
  (memGet s.mem (s.btb.toNat / 4096 * 4096 + p / 8)).getLsbD (p % 8)

/-- A host request's kind, R357; in device bias the host is given no rights, and MemRd with A and MemInv only read. -/
def HostReq.kind (bias : Bool) : HostReq → ReqKind
  | .rd .s _ | .rd .i _ => .read
  | .rd .a _ | .inv => if bias then .write else .read
  | .wr _ _ => .write
  | .snoop inval => if inval then .write else .read

/-- Does UC.SET change the line's colour, and may its thread, R262? -/
def HLine.recolours (h : HLine) (c : Nat) (held : List Nat) : Bool :=
  h.colour != c && (h.colour == 0 || held.contains h.colour)

def State.kindOf (s : State) (m : Msg) : ReqKind :=
  match m.body with
  | .chipReq _ _ (.recolour c held) => if (s.hline m.line).recolours c held then .write else .none
  | .hostReq n _ => ((s.hostReqs.get? n).map (HostReq.kind (s.hostBias (128 * m.line)))).getD .none
  | _ => m.body.kind

/-- The package holders that a request waits for, and what each is sent (R211). -/
def pkgHolders (p : Pkg) (k : ReqKind) (src : Nat) : List (Nat × Body) :=
  match k, p with
  | .none, _ | _, .i | .read, .t _ | .loc, .u _ => []
  | .write, .t who | .evict, .t who | .loc, .t who => (who.filter (· != src)).map fun a => (a, .inval)
  | .read, .o a => if a = src then [] else [(a, .recall true false)]
  | .write, .o a | .evict, .o a | .loc, .o a => if a = src then [] else [(a, .recall false false)]
  | .read, .u who | .write, .u who | .evict, .u who => (who.filter (· != src)).map fun a => (a, .recall false true)

/-- Bit vectors of chips: does group g of WHO name chip c? -/
def inGroups (who c : Nat) : Bool := who / 2 ^ (c / 8) % 2 == 1

/-- The chips that a request waits for, and whether each is only downgraded (R212). -/
def State.chipHolders (s : State) (h : HLine) (k : ReqKind) (line src : Nat) : List (Nat × FabMsg) :=
  let others := s.domain.filter fun c => c != s.chip && chipSrc c != src
  match k with
  | .none | .evict => []
  | .read =>
    if (h.st = 2 ∨ h.st = 3 ∨ h.st = 4) ∧ h.who < 64 ∧ chipSrc h.who ≠ src then [(h.who, .recall line true)] else []
  | .write | .loc =>
    match h.st with
    | 1 => (others.filter (inGroups h.who)).map fun c => (c, .inval line)
    | 2 | 4 => if h.who < 64 ∧ chipSrc h.who ≠ src then [(h.who, .recall line false)] else []
    | 3 => (if h.who < 64 ∧ chipSrc h.who ≠ src then [(h.who, .recall line false)] else []) ++
        ((others.filter (· != h.who)).map fun c => (c, .inval line))
    | _ => []

/-- Does a request of the device wait for the host, and does it only take the host's copy away (R357)? -/
def hostHolder (h : HLine) (k : ReqKind) (src : Nat) : Option Bool :=
  let owner := decide (h.st ≠ 0) && h.who == 64
  if k = .none ∨ k = .evict ∨ src = hostSrc then none
  else if h.hs || owner then some (!(k == .read && owner)) else none

/-- The metadata once the holders off the package have answered, R212, R357, R359. -/
def HLine.settledMeta (h : HLine) (k : ReqKind) (src : Nat) : HLine :=
  let h := match hostHolder h k src with
    | some true => { h with hs := false, st := if h.who = 64 then 0 else h.st, who := if h.who = 64 then 0 else h.who }
    | some false => { h with hs := true, st := 0, who := 0 }
    | none => h
  match k with
  | .none | .evict => h
  | .read =>
    if chipSrc h.who = src then h
    else if (h.st = 2 ∨ h.st = 4) ∧ h.who < 64 then { h with st := 1, who := 2 ^ (h.who / 8) }
    else if h.st = 3 ∧ h.who < 64 then { h with st := 1, who := 0xFF }
    else h
  | .write | .loc => if h.st ≠ 0 ∧ (h.st = 1 ∨ h.who ≠ 64 ∨ src ≠ hostSrc) then { h with st := 0, who := 0 } else h

/-- What a chip keeps after a store of a policy. -/
def polKeep (p : Pol) (len : Nat) : Keep :=
  match p with
  | .lease => .lease len
  | .track => .track
  | .own | .thru => .none

/-- Is an access a piece of a store that writes every byte of its line, R205? -/
def State.wholeOp (s : State) (k : Nat) : Bool := ((s.ops.get? k).map fun op => op.whole).getD false

/-- The request that a proxy must make of the remote home before it can serve a message, R202, R252, R262, R263. While the
chip's time is not locked a LEASE access is a THRU one (R365). DEDUCED, log 32. -/
def State.proxyNeeds (s : State) (h : HLine) (m : Msg) : Option ChipReq :=
  let own := h.chip == .own
  let leased := s.leaseServes (s.timeOf m.dst) h.lease
  match m.body with
  | .own (some k) => if own then none else some (if s.wholeOp k then .ownAll else .own)
  | .own none | .rdLoc _ | .rdThru _ | .pushed _ _ _ => if own then none else some .own
  | .thruRd _ | .devRd => if own || h.chip == .tracked then none else some .thru
  | .trackReq _ => if own || h.chip == .tracked then none else some .track
  | .leaseReq _ len =>
    if s.sync.lock then (if leased then none else some (.lease len))
    else if own || h.chip == .tracked then none else some .thru
  | .write k len =>
    match s.ops.get? k with
    | some op =>
      let keep := if s.sync.lock || op.pol != .lease then polKeep op.pol len else .none
      if own then (if s.sync.lock && op.pol == .lease && !leased then some (.lease len) else none)
      else
        match op.act with
        | .st =>
          some (.write ((List.range op.len).map fun i => BitVec.ofNat 8 (op.val.toNat / 256 ^ i)) (op.pa % 128) keep op.whole)
        | .ld _ | .at_ _ _ | .rd _ _ | .pre | .refill _ _ | .engine _ _ => some .own
    | none => none
  | .devWr at_ bytes _ => if own then none else some (.write bytes at_ .none false)
  | .colourQ _ _ => if own || h.chip == .tracked || leased then none else some .colour
  | .recolour _ _ c held => some (.recolour c held)
  -- an eviction gives the chip's ownership back (R216)
  | .clear _ => if own then some (.writeBack (BitVec.allOnes 32) (memBytes s.mem (128 * m.line) 128)) else none
  | .wb _ _ _ _ | .ack | .recall _ _ | .inval | .data _ _ _ | .grant _ _ _ | .grantU _ | .wack _ _ _ _
  | .poisoned _ | .chipReq _ _ _ | .hostReq _ _ => none

/-- What a colour query is told beside the colour: the line is poisoned (R205), or no link leads to its home (R363). -/
def lineBad : Nat := 4096
def lineLost : Nat := 8192

/-- A query about a line's colour has been answered. -/
def State.colourKnown (s : State) (g slot c : Nat) : State :=
  s.modGroup g fun gr =>
    { gr with memo := { gr.memo with colours := gr.memo.colours.set slot c, waiting := gr.memo.waiting - 1 } }

/-- A remote line of UC.SET is done: the time of its completion, or the trap at it: 1 MONNH, 2 PROT (R262, R363). -/
def State.recolourDone (s : State) (g key trap t : Nat) : State :=
  s.modGroup g fun gr =>
    { gr with memo := { gr.memo with
        waiting := gr.memo.waiting - 1, colours := gr.memo.colours.set key t,
        bad := if trap = 0 then gr.memo.bad else gr.memo.bad.set key (BitVec.ofNat 64 trap) } }

/-- Complete a request with poison, R363: no link that is up leads to the line's chip, or its home has none but poison to
give. A colour query learns that the line is lost, and UC.SET raises PROT there (DESIGN CHOICE, log 87). A line that the
device could not read is marked at offset 128. -/
def State.poisonReply (s : State) (m : Msg) : State :=
  match m.body with
  | .own (some k) | .thruRd k | .leaseReq k _ | .trackReq k | .rdLoc k | .rdThru k | .write k _ =>
    s.send m.dst m.src m.line (.poisoned k)
  | .own none => s.send m.dst m.src m.line (.poisoned 0)
  | .colourQ g slot => s.colourKnown g slot lineLost
  | .recolour g key _ _ => s.recolourDone g key 2 0
  | .devRd => { s with fetched := s.fetched.set m.line [(128, 1)] }
  | .pushed _ _ _ | .wb _ _ _ _ | .ack | .recall _ _ | .inval | .data _ _ _ | .grant _ _ _ | .grantU _ | .wack _ _ _ _
  | .poisoned _ | .chipReq _ _ _ | .hostReq _ _ | .clear _ => s
  | .devWr _ _ work => s.workDone (work.getD 0)

/-- A line of code has come for the lanes that wait for a message: their core's fetch path holds it (R43). -/
def State.codeReady (s : State) (id line : Nat) : State :=
  let cores := ((s.warps.filter fun e => e.2.lanes.any fun x => x.2.entry == .fetching id).map fun e => e.2.core).dedup
  (cores.foldl (fun s c =>
    s.modCore c fun x => { x with icache := x.icache.set line (lineBytes s.mem line) }) s).fetchReady id

/-- A line of code comes with poison for the lanes that wait for a message: PROT at the first address of the clause that
lies in it. DEDUCED, log 12. -/
def State.codeFault (s : State) (id line : Nat) : State :=
  match s.warps.findSome? fun e => (e.2.lanes.find? fun x => x.2.entry == .fetching id).map fun x => (e.1, x.2.pc) with
  | none => s
  | some (w, pc) =>
    let first := match s.look (s.block (s.warp w).block).ctx pc { ex := true } with
      | .pa a => a / 128 == line
      | .config _ | .fault _ | .walk _ _ _ => true
    s.fetchFault id (Cause.code .prot) (if first then pc else (pc ||| 127) + 1)

/-- The CXL.cache request that a message calls for at a line of host memory, R231, R352. Where the package owns the line
already, its owner asks for nothing. DEDUCED, log 77. -/
def State.hostNeeds (s : State) (h : HLine) (m : Msg) : Option D2H :=
  match m.body with
  | .own _ => if h.pkg = .o m.src then none else some .rdOwn
  | .thruRd _ | .leaseReq _ _ | .trackReq _ | .devRd => some .rdCurr
  | .write k _ | .rdThru k =>
    match ((s.ops.get? k).map fun op => op.act : Option Act) with
    | some (.at_ _ _) | some (.rd _ _) => some .rdOwn
    | some .st | some (.ld _) | some .pre | some (.refill _ _) | some (.engine _ _) | none => some .wrCur
  | .devWr _ _ _ => some .wrCur
  | .rdLoc _ | .pushed _ _ _ | .wb _ _ _ _ | .ack | .colourQ _ _ | .recall _ _ | .inval | .data _ _ _ | .grant _ _ _
  | .grantU _ | .wack _ _ _ _ | .poisoned _ | .chipReq _ _ _ | .hostReq _ _ | .clear _ | .recolour _ _ _ _ => none

/-- The home begins to serve a message on a free line: it brings the line into L2 (R219) and sends what the request
waits for (R211, R212). A proxy asks the line's home once the package has answered (R202). -/
def State.begin (s : State) (id : Nat) (m : Msg) : State :=
  let h := s.hline m.line
  let h := if h.inL2 || isHostLine m.line then h else { h with inL2 := true, lx := (s.slice (m.dst - 1000)).horizon }
  let k := s.kindOf m
  let agents := pkgHolders h.pkg k m.src
  let parts : AMap Partial := match m.body with
    | .pushed p _ _ => [(m.src, p)]
    | _ => []
  match s.remoteChip m.line with
  | some _ =>
    let b : Busy := { msg := id, from_ := agents.map (·.1), toAsk := s.proxyNeeds h m, parts }
    agents.foldl (fun s a => s.send m.dst a.1 m.line a.2) (s.setHline m.line { h with busy := some b })
  | none =>
    -- a line to be coloured is recalled from the chip that asks, too (R262)
    let asker := match m.body with
      | .chipReq _ _ (.recolour _ _) => hostSrc
      | _ => m.src
    let chips := s.chipHolders h k m.line asker
    let host := hostHolder h k m.src
    let d2h := if isHostLine m.line then s.hostNeeds h m else none
    let b : Busy :=
      { msg := id, from_ := agents.map (·.1), host := host.isSome || d2h.isSome, chips := chips.map (·.1), parts }
    let s := s.setHline m.line { h with busy := some b }
    let s : State := chips.foldl (fun s c => s.fabric c.1 c.2) s
    let s : State := match host with
      | some inval =>
        if s.biWait.get? m.line = some true then s
        else { s with out := s.out ++ [.biSnp m.line inval], biWait := s.biWait.set m.line inval }
      | none => s
    let s : State := match d2h with
      | some d => { s with out := s.out ++ [.d2h d m.line] }
      | none => s
    agents.foldl (fun s a => s.send m.dst a.1 m.line a.2) s

/-- The holders once those that a request waited for have answered: an owner that was downgraded keeps a T copy. -/
def pkgAfter (p : Pkg) (k : ReqKind) (src : Nat) : Pkg :=
  match k, p with
  | .none, _ | _, .i => p
  | .evict, _ => .i
  | .read, .t who => .t who
  | .read, .o a => if a = src then .o a else .t [a]
  | .read, .u who => if who.contains src then .u [src] else .i
  | .loc, .u who => .u who
  | .loc, .t _ => .i
  | .loc, .o _ => .i
  | .write, .t _ => .i
  | .write, .o a => if a = src then .o a else .i
  | .write, .u _ => .i

def insertNat (l : List Nat) (x : Nat) : List Nat := if l.contains x then l else sortNat (x :: l)

def Pkg.share (p : Pkg) (a : Nat) : Pkg :=
  match p with
  | .t who => .t (insertNat who a)
  | .i => .t [a]
  | .o b => if a = b then .o b else .t (insertNat [b] a)
  | .u who => .u who

/-- Lease length of a request, R217. -/
def leaseLen (n : Nat) : Nat := max 32 (min 32768 n)

/-- The expiry that a home or proxy grants now; none while the chip's time is not locked. A proxy grants from the chip's own
lease alone, and only while that serves (R217, R202, R365). -/
def State.grantLease (s : State) (h : HLine) (line agent len : Nat) : Option Nat :=
  if !s.sync.lock then none
  else
    let e := s.timeOf agent + leaseLen len
    match s.remoteChip line with
    | none => some e
    | some _ => if s.leaseServes (s.timeOf agent) h.lease then some (min e h.lease) else none

/-- The copy that a reply carries. -/
def State.copyOf (s : State) (line : Nat) (h : HLine) (st : CState) (expiry ctx : Nat) : CLine :=
  { st, colour := h.colour, data := lineBytes s.mem line, expiry, lx := h.lx, ctx }

/-- The bytes of a line as a list. -/
def State.lineList (s : State) (line : Nat) : List Byte := memBytes s.mem (128 * line) 128

/-- Answer a host request at its line, R357: the line's holders have been settled. -/
def State.hostAnswer (s : State) (n : Nat) (half : Bool) (line : Nat) (h : HLine) (bias : Bool) : State :=
  match s.hostReqs.get? n with
  | none => s
  | some r =>
    let s := { s with hostReqs := s.hostReqs.del n }
    let off := 128 * line + 64 * half.toNat
    let bytes := memBytes s.mem off 64
    match r with
    | .rd md _ =>
      let h := match md, bias with
        | .s, true => { h with hs := true }
        | .a, true => { h with st := 2, who := 64 }
        | .s, false | .a, false | .i, _ => h
      let given := match md, bias with
        | .s, true => MemMeta.s
        | .a, true => MemMeta.a
        | .s, false | .a, false | .i, _ => MemMeta.i
      { s.setHline line h with out := s.out ++ [.rdData (s.hdm + off % 2 ^ 45) bytes given] }
    | .inv =>
      let h := if bias then { h with st := 2, who := 64 } else h
      { s.setHline line h with out := s.out ++ [.rdData (s.hdm + off % 2 ^ 45) [] (if bias then .a else .i)] }
    | .wr mask data =>
      let mem := (List.range 64).foldl (fun m i =>
        if mask.getLsbD i then memPut m (off + i) (data.getD i 0) else m) s.mem
      let h := if bias && h.who == 64 then { h with st := 0, who := 0 } else h
      { s.setHline line h with mem := mem, out := s.out ++ [.wrDone (s.hdm + off % 2 ^ 45)] }
    | .snoop _ => { s.setHline line h with out := s.out ++ [.snpRsp (128 * line) (s.lineList line)] }

/-- Bytes of a line are written: a DEADLINE among them counts its queue's misses afresh, whatever its value (R310). -/
def State.deadlineWrite (s : State) (line off len : Nat) : State :=
  let a := 128 * line + off
  { s with ctxs := s.ctxs.map fun e =>
      (e.1, { e.2 with late := e.2.late.filter fun q => !(decide (a < q.2.1 + 8) && decide (q.2.1 < a + len)) }) }

/-- The answer to another chip's request at this home, R212. A poisoned line is answered with poison (R205). -/
def State.chipAnswer (s : State) (chip id line : Nat) (h : HLine) (r : ChipReq) : State :=
  let home := homeOf line
  let rsp (s : State) (a : ChipAns) : State := s.fabric chip (.rsp id line { a with colour := (s.hline line).colour })
  let data (s : State) : List Byte := s.lineList line
  let poisoned (s : State) : State :=
    ((s.setHline line h).report { kind := 1, unit := home - 1000, start := 128 * line, len := 128 }).fabric chip (.poison id line)
  match r with
  | .own => if h.poison then poisoned s else rsp (s.setHline line { h with st := 2, who := chip }) { data := data s, gwct := h.lx }
  | .ownAll => rsp (s.setHline line { h with st := 2, who := chip, poison := false }) { data := data s, gwct := h.lx }
  | .thru => if h.poison then poisoned s else rsp (s.setHline line h) { data := data s }
  | .track =>
    if h.poison then poisoned s
    else rsp (s.setHline line { h with st := 1, who := (if h.st = 1 then h.who else 0) ||| 2 ^ (chip / 8) }) { data := data s }
  | .lease len =>
    if h.poison then poisoned s
    else
      match s.grantLease h line home len with
      | some e => rsp (s.setHline line { h with lx := max h.lx e }) { data := data s, lease := e }
      | none => rsp (s.setHline line h) { data := data s }
  | .write bytes at_ keep whole =>
    if h.poison && !whole then poisoned s
    else
      let h := { h with poison := false }
      let s := { s with mem := memPutBytes s.mem (128 * line + at_) bytes }.deadlineWrite line at_ bytes.length
      let g := max (s.timeOf home) h.lx
      match keep with
      | .none => rsp (s.setHline line h) { data := data s, gwct := g }
      | .track => rsp (s.setHline line { h with st := 1, who := 2 ^ (chip / 8) }) { data := data s, gwct := g }
      | .lease len =>
        match s.grantLease h line home len with
        | some e => rsp (s.setHline line { h with lx := max h.lx e }) { data := data s, gwct := g, lease := e }
        | none => rsp (s.setHline line h) { data := data s, gwct := g }
  | .writeBack mask data =>
    -- of a chip that has answered a recall in the meantime it brings nothing
    if h.who = chip ∧ (h.st = 2 ∨ h.st = 3 ∨ h.st = 4) then
      let words := (List.range 32).filter fun i => mask.getLsbD i
      let bytes : AMap Byte := (List.range 128).zip data
      rsp ({ s with mem := applyWords s.mem line bytes words }.setHline line { h with st := 0, who := 0 }) {}
    else rsp (s.setHline line h) {}
  | .colour => rsp (s.setHline line h) { ok := !h.poison }
  | .recolour c held =>
    let g := max (s.timeOf home) h.lx
    if h.colour = c then rsp (s.setHline line h) { gwct := g }
    else if h.recolours c held then rsp (s.setHline line { h with colour := c }) { gwct := g }
    else rsp (s.setHline line h) { ok := false }

/-- Apply the partials gathered at a home, in ascending agent number, R224. -/
def State.foldParts (s : State) (line : Nat) (h : HLine) (parts : AMap Partial) : State :=
  parts.foldl (fun s e =>
    let s := { s with mem := applyPartial s.mem line e.2 }
    s.gwctAll e.2.who (max (s.timeOf (homeOf line)) h.lx)) s

/-- The home serves the request that it held the line for, R211: every holder has answered. -/
def State.finish (s : State) (line : Nat) (b : Busy) : State :=
  match s.msgs.get? b.msg with
  | none => s.setHline line { s.hline line with busy := none }
  | some m =>
    let h := s.hline line
    let s := if b.dead then s else s.foldParts line h b.parts
    let k := s.kindOf m
    let local_ := (s.remoteChip line).isNone && !isHostLine line
    let h := { h with busy := none, pkg := pkgAfter h.pkg k m.src }
    if b.dead then (({ s with msgs := s.msgs.del b.msg }.setHline line h).poisonReply m).codeFault b.msg line
    else
    let h := if local_ then h.settledMeta k m.src else h
    let s := { s with msgs := s.msgs.del b.msg }
    let opOf (k : Nat) : Op := (s.ops.get? k).getD
      { work := 0, warp := 0, lane := 0, core := 0, agent := 0, ctx := 0, act := .pre, pol := .own, pa := 128 * line, len := 0 }
    -- a write that the remote home has applied returns that home's GWCT, and no value of its own is applied here (R220)
    let there := match b.sent with
      | some (.write _ _ _ _) => true
      | _ => false
    let time := if there then b.ans.gwct else max (s.timeOf m.dst) h.lx
    match m.body with
    | .own op =>
      let fresh := h.pkg != .o m.src
      let s := s.setHline line { h with pkg := .o m.src }
      s.send m.dst m.src line (.grant op fresh (s.copyOf line h .e 0 m.ctx))
    | .thruRd op =>
      let s := s.setHline line h
      s.send m.dst m.src line (.data op ((opOf op).apply s.mem).2 none)
    | .leaseReq op len =>
      let v := ((opOf op).apply s.mem).2
      match s.grantLease h line m.dst len with
      | some e =>
        let h := { h with lx := max h.lx e }
        (s.setHline line h).send m.dst m.src line (.data op v (some (s.copyOf line h .l e m.ctx)))
      | none => (s.setHline line h).send m.dst m.src line (.data op v none)
    | .trackReq op =>
      let h := { h with pkg := h.pkg.share m.src }
      (s.setHline line h).send m.dst m.src line
        (.data op ((opOf op).apply s.mem).2 (some (s.copyOf line h .t 0 m.ctx)))
    | .write op len =>
      let g := time
      let o := opOf op
      let (mem, old) := if there then (s.mem, 0) else o.apply s.mem
      let s := { s with mem := mem }.deadlineWrite line (o.pa % 128) o.len
      match o.pol with
      | .lease =>
        match s.grantLease h line m.dst len with
        | some e =>
          let h := { h with lx := max h.lx e }
          (s.setHline line h).send m.dst m.src line (.wack op g old (some (s.copyOf line h .l e m.ctx)))
        | none => (s.setHline line h).send m.dst m.src line (.wack op g old none)
      | .track =>
        let h := { h with pkg := .t [m.src] }
        (s.setHline line h).send m.dst m.src line (.wack op g old (some (s.copyOf line h .t 0 m.ctx)))
      | .own | .thru => (s.setHline line h).send m.dst m.src line (.wack op g old none)
    | .rdThru op =>
      let mem := (s.chained op (opOf op)).foldl (fun m e => (e.2.apply m).1) s.mem
      ({ s with mem := mem }.setHline line h).send m.dst m.src line (.wack op time 0 none)
    | .rdLoc op =>
      let who := match h.pkg with
        | .u who => insertNat who m.src
        | .i | .t _ | .o _ => [m.src]
      (s.setHline line { h with pkg := .u who }).send m.dst m.src line (.grantU op)
    | .colourQ g slot =>
      (s.setHline line h).colourKnown g slot (h.colour + if b.ans.ok then 0 else lineBad)
    | .recolour g key _ _ => (s.setHline line h).recolourDone g key (if b.ans.ok then 0 else 1) b.ans.gwct
    | .devRd =>
      let s := s.setHline line h
      (if local_ then s else { s with fetched := s.fetched.set line (lineBytes s.mem line) }).codeReady b.msg line
    | .devWr at_ bytes work =>
      let s := (s.deadlineWrite line at_ bytes.length).workDone (work.getD 0)
      { s.setHline line h with mem := if there then s.mem else memPutBytes s.mem (128 * line + at_) bytes }
    | .clear _ => s.setHline line (if (s.remoteChip line).isSome then { h with inL2 := false, lease := 0, lx := 0 } else h)
    | .chipReq c id r => s.chipAnswer c id line h r
    | .hostReq n half => s.hostAnswer n half line h (s.hostBias (128 * line))
    | .pushed _ _ _ => s.setHline line h
    | .wb _ _ _ _ | .ack | .recall _ _ | .inval | .data _ _ _ | .grant _ _ _ | .grantU _ | .wack _ _ _ _
    | .poisoned _ => s.setHline line h

/-- Has everything that a request waits for answered? -/
def Busy.ready (b : Busy) : Bool := b.from_ == [] && !b.host && b.chips == [] && !b.remote

/-- The proxy asks the line's home, R202; no link that is up: the request ends with poison (R363). -/
def State.askHome (s : State) (line : Nat) (b : Busy) (r : ChipReq) : State :=
  let h := s.hline line
  match s.remoteChip line with
  | some c =>
    if s.upLinks c = [] then s.setHline line { h with busy := some { b with toAsk := none, dead := true } }
    else
      (s.setHline line { h with busy := some { b with toAsk := none, sent := some r, remote := true } }).fabric c
        (.req b.msg line r)
  | none => s.setHline line { h with busy := some { b with toAsk := none } }

/-- What a request has to ask of the home before it is served: at first, or again, where the chip has given back, while the
request asked for a lease, the ownership that a write needs. -/
def State.asksNow (s : State) (line : Nat) (b : Busy) : Option ChipReq :=
  match b.toAsk, b.sent, s.msgs.get? b.msg with
  | some r, _, _ => some r
  | none, some (.lease _), some m =>
    if (s.hline line).chip != .own && !b.dead && m.body.kind == .write then s.proxyNeeds (s.hline line) m else none
  | none, _, _ => none

/-- Serve what can be served of a line's queue. -/
def State.pump (s : State) (line : Nat) : Nat → State
  | 0 => s
  | n + 1 =>
    let h := s.hline line
    match h.busy with
    | some b =>
      if b.ready then
        (match s.asksNow line b with
          | some r => s.askHome line b r
          | none => s.finish line b).pump line n
      else s
    | none =>
      match h.queue with
      | [] => s
      | id :: rest =>
        let s := s.setHline line { h with queue := rest }
        match s.msgs.get? id with
        | some m => (s.begin id m).pump line n
        | none => s.pump line n

/-- Serve a line as far as it goes. -/
def State.serve (s : State) (line : Nat) : State := s.pump line (3 * (s.hline line).queue.length + 6)

/-- A request joins its line's queue, R208. -/
def State.enqueue (s : State) (id line : Nat) : State :=
  let h := s.hline line
  (s.setHline line { h with queue := h.queue ++ [id] }).serve line

/-! ## The Weir, R228 to R230 -/

def weirRate (x : DWord) : Nat := (x.extractLsb' 0 12 : BitVec 12).toNat
def weirDepth (x : DWord) : Nat := (x.extractLsb' 16 12 : BitVec 12).toNat
def weirBorrow (x : DWord) : Bool := x.getLsbD 30
def weirEn (x : DWord) : Bool := x.getLsbD 31

def State.weirOf (s : State) (cls : Nat) : DWord := s.weir.getD cls 0

/-- Take a token for a request of a class, where one is to be had. -/
def Slice.take (x : Slice) (w : DWord) (cls : Nat) : Option Slice :=
  let b := x.buckets.getD cls 0
  if !weirEn w then some x
  else if weirRate w = 0 && !weirBorrow w then none
  else if 0 < b then some { x with buckets := x.buckets.putD cls (b - 1) 0 }
  else if weirBorrow w && decide (0 < x.pool) then some { x with pool := x.pool - 1 }
  else none

/-- A request arrives at its home: it waits at the port where it finds no token, or behind an earlier request of its
class that waits (R228). -/
def State.arrive (s : State) (id : Nat) (m : Msg) : State :=
  let n := m.dst - 1000
  let x := s.slice n
  let behind := x.port.any fun i => ((s.msgs.get? i).map (·.cls)) == some m.cls
  if m.metered && m.dst != hostAgent then
    match (if behind then none else x.take (s.weirOf m.cls) m.cls) with
    | some x => (s.setSlice n x).enqueue id m.line
    | none =>
      let s := s.count (m.src % 256) 0 0x11 1 m.ctx
      s.setSlice n { x with port := x.port ++ [id] }
  else s.enqueue id m.line

/-- Serve the requests that wait at a port, in arrival order class by class. -/
def State.portServe (s : State) (n : Nat) (ids : List Nat) : State :=
  ids.foldl (fun s id =>
    match s.msgs.get? id with
    | some m =>
      let x := s.slice n
      let behind := (x.port.takeWhile (· != id)).any fun i => ((s.msgs.get? i).map (·.cls)) == some m.cls
      if behind then s
      else
        match x.take (s.weirOf m.cls) m.cls with
        | some x => (s.setSlice n { x with port := x.port.filter (· != id) }).enqueue id m.line
        | none => s
    | none => s) s

/-- Add one tick's tokens to every metered class: what does not fit goes to the pool (R229, R230). -/
def Slice.addTokens (x : Slice) (weir : Nat → DWord) : Slice :=
  (List.range 16).foldl (fun x c =>
    let w := weir c
    if weirEn w then
      let b := x.buckets.getD c 0 + weirRate w
      let keep := min b (weirDepth w)
      { x with buckets := x.buckets.putD c keep 0, pool := min 4096 (x.pool + (b - keep)) }
    else x) x

/-- WEIR_TICK: a 64-ns tick of global time at a slice. -/
def execWeirTick (slice : Nat) (s : State) : Out :=
  let x := s.slice slice
  if slice < Config.nSlice ∧ x.tick < s.time / 64 then
    let x := { x with tick := s.time / 64 }.addTokens s.weirOf
    .next ((s.setSlice slice x).portServe slice x.port)
  else .refused .notEnabled

/-- POOL_RESET: global time has crossed a multiple of 1,000 ns (R230). -/
def execPoolReset (slice : Nat) (s : State) : Out :=
  let x := s.slice slice
  if slice < Config.nSlice ∧ x.pmark < s.time / 1000 then
    .next (s.setSlice slice { x with pmark := s.time / 1000, pool := 0 })
  else .refused .notEnabled

/-! ## Events at the homes -/

/-- A message of one kind that arrives next from its sender. -/
def withMsg (id : Nat) (s : State) (is : Body → Bool) (k : Msg → Out) : Out :=
  match s.msgs.get? id with
  | some m => if is m.body && s.deliverable id m then k m else .refused .notEnabled
  | none => .refused .notEnabled

def execOwnRequest (msg : Nat) (s : State) : Out :=
  withMsg msg s (fun b => match b with | .own _ | .clear true => true | .chipReq _ _ .own | .chipReq _ _ .ownAll => true | _ => false) fun m =>
    .next (s.arrive msg m)

def execThruRead (msg : Nat) (s : State) : Out :=
  withMsg msg s (fun b => match b with | .thruRd _ | .devRd => true | .chipReq _ _ .thru => true | _ => false) fun m =>
    .next (s.arrive msg m)

def execLeaseRequest (msg : Nat) (s : State) : Out :=
  withMsg msg s (fun b => match b with | .leaseReq _ _ => true | .chipReq _ _ (.lease _) => true | _ => false) fun m =>
    .next (s.arrive msg m)

def execTrackRequest (msg : Nat) (s : State) : Out :=
  withMsg msg s (fun b => match b with | .trackReq _ => true | .chipReq _ _ .track => true | _ => false) fun m =>
    .next (s.arrive msg m)

def execApplyWrite (msg : Nat) (s : State) : Out :=
  withMsg msg s (fun b => match b with | .write _ _ | .devWr _ _ _ => true | .chipReq _ _ (.write _ _ _ _) => true | _ => false) fun m =>
    .next (s.arrive msg m)

def execRdLocRequest (msg : Nat) (s : State) : Out :=
  withMsg msg s (fun b => match b with | .rdLoc _ => true | _ => false) fun m => .next (s.arrive msg m)

def execRdThruRequest (msg : Nat) (s : State) : Out :=
  withMsg msg s (fun b => match b with | .rdThru _ => true | _ => false) fun m => .next (s.arrive msg m)

def execColourQuery (msg : Nat) (s : State) : Out :=
  withMsg msg s (fun b => match b with
    | .colourQ _ _ | .recolour _ _ _ _ | .chipReq _ _ .colour | .chipReq _ _ (.recolour _ _) => true
    | _ => false) fun m => .next (s.arrive msg m)

/-- PUSHED_PARTIAL (R224): gathered where the line is being folded, applied at once where it is not in U, and otherwise
the start of a fold of the line. -/
def execPushedPartial (msg : Nat) (s : State) : Out :=
  withMsg msg s (fun b => match b with | .pushed _ _ _ => true | _ => false) fun m =>
    match m.body with
    | .pushed p _ _ =>
      let h := s.hline m.line
      let drop (s : State) (h : HLine) : State := { s.setHline m.line h with msgs := s.msgs.del msg }
      match h.busy with
      | some b =>
        let who := match h.pkg with
          | .u who => Pkg.u (who.filter (· != m.src))
          | .i | .t _ | .o _ => h.pkg
        if (s.remoteChip m.line).isSome && h.chip != .own && !b.from_.contains m.src then .next (s.enqueue msg m.line)
        else if b.from_.contains m.src then
          .next (drop s { h with busy := some { b with parts := b.parts.set m.src p, gathered := msg :: b.gathered } })
        else .next ((drop s { h with pkg := who }).foldParts m.line h [(m.src, p)])
      | none =>
        match h.pkg with
        | .u _ => .next (s.enqueue msg m.line)
        | .i | .t _ | .o _ =>
          if (s.remoteChip m.line).isSome && h.chip != .own then .next (s.enqueue msg m.line)
          else .next ((drop s h).foldParts m.line h [(m.src, p)])
    | _ => .refused .notEnabled

/-- WRITE_BACK: an owner's dirty words reach the home (R211, R214, R215). -/
def execWriteBack (msg : Nat) (s : State) : Out :=
  withMsg msg s (fun b => match b with | .wb _ _ _ _ => true | .chipReq _ _ (.writeBack _ _) => true | _ => false) fun m =>
    match m.body with
    | .wb mask data drop work =>
      let h := s.hline m.line
      let s := { s with mem := applyWords s.mem m.line data mask, msgs := s.msgs.del msg }
      let s := s.setHline m.line { h with pkg := if drop && h.pkg == .o m.src then .i else h.pkg }
      -- a line of host memory goes back to the host (R351)
      let s := if isHostLine m.line then
          { s with out := s.out ++ [.d2h (if mask = [] then .cleanEvict else .dirtyEvict) m.line] }
        else s
      match work with
      | some w => .next (s.workDone w)
      | none => .next s
    | .chipReq c id r =>
      let s := { s with msgs := s.msgs.del msg }
      .next (s.chipAnswer c id m.line (s.hline m.line) r)
    | _ => .refused .notEnabled

/-- RECALL_ACK: a holder that a request waits for has answered. -/
def execRecallAck (msg : Nat) (s : State) : Out :=
  withMsg msg s (fun b => match b with | .ack => true | _ => false) fun m =>
    let h := s.hline m.line
    let s := { s with msgs := s.msgs.del msg }
    match h.busy with
    | some b =>
      .next ((s.setHline m.line { h with busy := some { b with from_ := b.from_.filter (· != m.src) } }).serve m.line)
    | none => .next s

/-- L2_EVICT (R215): a line without holders in the package leaves the L2; its Lx enters the slice's horizon. Recalls
that an eviction sends first are the writes and recalls above. DESIGN CHOICE, log 22. -/
def execL2Evict (line : Nat) (s : State) : Out :=
  let h := s.hline line
  if h.inL2 && h.busy.isNone && h.queue == [] && (s.remoteChip line).isNone && !isHostLine line then
    match h.pkg with
    | .i =>
      let n := homeOf line - 1000
      let x := s.slice n
      .next ((s.setSlice n { x with horizon := max x.horizon h.lx }).setHline line { h with inL2 := false, lx := 0 })
    | .t _ | .u _ | .o _ =>
      let (id, s) := s.newId
      let m : Msg := { src := hostSrc, dst := homeOf line, line, body := .clear false }
      .next ({ s with msgs := s.msgs.set id m }.enqueue id line)
  else .refused .notEnabled

/-- PROXY_EVICT (R216): the proxy writes the line back and gives up the chip's rights, once the package holds no copy; the
line leaves the slice's L2. -/
def execProxyEvict (line : Nat) (s : State) : Out :=
  let h := s.hline line
  match s.remoteChip line with
  | some c =>
    if h.busy.isNone && h.queue == [] && (h.inL2 || h.chip != .none) && !s.engineOwns line then
      match h.pkg with
      | .i =>
        if h.chip = .own then
          if s.upLinks c = [] then .refused .notEnabled
          else
            let (id, s) := s.newId
            let m : Msg := { src := devAgent, dst := homeOf line, line, body := .clear true }
            .next ({ s with msgs := s.msgs.set id m }.enqueue id line)
        else .next (s.setHline line { h with chip := .none, inL2 := false, lease := 0, lx := 0 })
      | .t _ | .u _ | .o _ => .next (s.settle line true)
    else .refused .notEnabled
  | none => .refused .notEnabled

/-! ## Events at the cores -/

/-- A core gives up its copy of a line as R210 and R215 say: dirty words are written back, a partial is pushed, an E
copy is notified, and T and L copies are dropped. -/
def State.giveUp (s : State) (agent line : Nat) (c : CLine) (work : Option Nat) : State :=
  match c.st with
  | .e | .m => (s.delCline agent line).send agent (homeOf line) line (.wb c.dirty c.data true work)
  | .u => s.pushPartial agent line c
  | .t | .l => s.delCline agent line

/-- Must an access of the device to a line wait: a request is being served there, or an engine owns it for a command? -/
def State.lineHeld (s : State) (line : Nat) : Bool := (s.hline line).busy.isSome || s.engineOwns line

/-- The proxy gives a remote line back to its home, the package's copies first: an owner sends its data, and keeps a shared
copy where it is only downgraded; leases run out by themselves (R202, R212). -/
def State.proxyGiveUp (s : State) (line chip : Nat) (all : Bool) : State :=
  let s := s.settle line all
  let h := s.hline line
  let data := if h.chip = .own then s.lineList line else []
  let right : ChipRight := if all || h.chip == .none then .none else .tracked
  (s.setHline line { h with chip := right }).fabric chip (.ack line data)

/-- Must the proxy's answer to its line's home wait? It answers while its own request of that home is under way, or else
the two homes' requests would wait for each other; an engine's line waits for its commands (R213, R257). DEDUCED, log 32. -/
def State.proxyHeld (s : State) (line : Nat) : Bool :=
  s.engineOwns line || (match (s.hline line).busy with
    | some b => !b.remote
    | none => false)

/-- RECALL (R211): the owner, or a holder of a partial, gives up the line or downgrades it. A recall of a line that an
engine owns waits until its commands have written all their bytes there (R213). -/
def execRecall (msg : Nat) (s : State) : Out :=
  withMsg msg s (fun b => match b with | .recall _ _ => true | _ => false) fun m =>
    match m.body with
    | .recall downgrade _ =>
      let a := m.dst
      let s1 := { s with msgs := s.msgs.del msg }
      if 256 ≤ a then
        if 1000 ≤ a then
          if s.proxyHeld m.line then .refused .notEnabled else .next (s1.proxyGiveUp m.line (m.src - 4000) (!downgrade))
        else if s.engineHolds a m.line then .refused .notEnabled
        else .next (((s1.recalled a).delCline a m.line).send a m.src m.line .ack)
      else
        let s1 := s1.recalled a
        let s2 : State := match s1.cline? a m.line with
          | none => s1
          | some c =>
            if downgrade && (c.st == .e || c.st == .m) then
              (s1.setCline a m.line { c with st := .t, dirty := [] }).send a m.src m.line (.wb c.dirty c.data false none)
            else if downgrade && c.st == .t then s1
            else s1.giveUp a m.line c none
        .next (s2.send a m.src m.line .ack)
    | _ => .refused .notEnabled

/-- INVALIDATE (R211, R215): the core drops its copy and answers; a proxy gives up the chip's tracked copies. -/
def execInvalidate (msg : Nat) (s : State) : Out :=
  withMsg msg s (fun b => match b with | .inval => true | _ => false) fun m =>
    if 1000 ≤ m.dst then
      if s.proxyHeld m.line then .refused .notEnabled
      else .next ({ s with msgs := s.msgs.del msg }.proxyGiveUp m.line (m.src - 4000) true)
    else
      let s := ({ s with msgs := s.msgs.del msg }.recalled m.dst).delCline m.dst m.line
      .next (s.send m.dst m.src m.line .ack)

/-- L1_DROP (R215): an L1 drops a copy of its own accord. -/
def execL1Drop (agent line : Nat) (s : State) : Out :=
  match s.cline? agent line with
  | some c => if agent < 256 then .next (s.giveUp agent line c none) else .refused .notEnabled
  | none => .refused .notEnabled

/-- Is an agent among the package holders that may keep a copy? -/
def Pkg.has (p : Pkg) (a : Nat) : Bool :=
  match p with
  | .i => false
  | .t who | .u who => who.contains a
  | .o b => a == b

/-- Install the copy that a reply to an access carries: a lease only while it serves (R209), and not for a context that has
left the core since (R254); a tracked copy only while the home still lists it. -/
def State.install (s : State) (k agent line : Nat) (c : Option CLine) : State :=
  match c with
  | none => s
  | some c =>
    match c.st with
    | .l =>
      if s.leaseServes (s.timeOf agent) c.expiry && !((s.ops.get? k).map fun op => op.stale).getD false then
        s.setCline agent line c
      else s
    | .t => if (s.hline line).pkg.has agent then s.setCline agent line c else s
    | .e | .m | .u => s

/-- A core's contribution to its partial, R223: the first to an element stands for the operator's identity combined with
it. -/
def Partial.merge (p : Partial) (op : Op) : Partial :=
  let off := op.pa % 128
  let x := match p.vals.get? off with
    | some y => gopEval p.op p.u p.w64 y op.val 0
    | none => op.val
  { p with vals := p.vals.set off x,
           who := if p.who.contains (op.warp, op.lane) then p.who else p.who ++ [(op.warp, op.lane)] }

/-- Does something wait for the partial that an access of this lane enters once it is granted: a fence, a barrier, a
release or a shootdown that began after the access, or a context that has left the core (R238, R254, R268, R329)? -/
def State.pushesFor (s : State) (k : Nat) (op : Op) : Bool :=
  s.groups.any (fun e => e.2.memo.who.contains (op.warp, op.lane) && (match e.2.park with
    | .fence .die | .fence .package | .fence .fabric | .fence .system | .arrive true => true
    | _ => false)) ||
  s.rels.any (fun e => e.2.ops.contains k) || s.shoots.any (fun e => e.2.ops.contains k) ||
  op.stale || (s.warp op.warp).core != op.agent

/-- A partial that a shootdown or a release waits for, through an access of before, is on its way (R329, R268). -/
def State.waitPush (s : State) (k id : Nat) : State :=
  { s with
    shoots := s.shoots.map fun e =>
      if e.2.ops.contains k then (e.1, { e.2 with pushes := id :: e.2.pushes }) else e
    rels := s.rels.map fun e =>
      if e.2.ops.contains k then (e.1, { e.2 with pushes := id :: e.2.pushes }) else e }

/-- An access and those combined with it enter the core's partial of a line, R223, R227, which is pushed at once where
something waits for it. -/
def State.mergeU (s : State) (agent line k : Nat) (op : Op) (c : CLine) (p : Partial) : State :=
  let all := s.chained k op
  let p := all.foldl (fun p e => p.merge e.2) p
  let push := all.any fun e => s.pushesFor e.1 e.2
  let c := { c with partial_ := some p }
  let s := s.setCline agent line c
  let s := if push then all.foldl (fun s e => s.waitPush e.1 (s.ids + 1)) s else s
  let s := if push then s.pushPartial agent line c else s
  all.foldl (fun s e => s.opDone e.1 e.2 0) s

/-- Is a core's pushed partial of a line still on its way to the home? -/
def State.pushing (s : State) (agent line : Nat) : Bool :=
  s.msgs.any fun e => e.2.src == agent && e.2.line == line && (match e.2.body with
    | .pushed _ _ _ => true
    | _ => false)

/-- Ownership has come for an access: it is performed after the earlier ones of its core that wait for ownership of the line,
which may have lost theirs (R227). -/
def State.performWaiting (s : State) (k agent line : Nat) : State :=
  ((s.ops.filter fun e => decide (e.1 ≤ k) && e.2.agent == agent && e.2.pa / 128 == line && e.2.pol == .own &&
      e.2.stage == .waiting)).foldl (fun s e =>
    match s.cline? agent line with
    | some c => s.performOwn e.1 line e.2 c
    | none => s) s

/-- DATA_REPLY: data, ownership or a grant of U reaches a core (R209, R223). -/
def execDataReply (msg : Nat) (s : State) : Out :=
  withMsg msg s
    (fun b => match b with | .data _ _ _ => true | .grant (some _) _ _ => true | .grantU _ => true
                           | .poisoned k => k != 0 | _ => false) fun m =>
    let s := { s with msgs := s.msgs.del msg }
    let a := m.dst
    match m.body with
    | .data k v c =>
      match s.ops.get? k with
      | some op => .next ((s.install k a m.line c).opDone k op v)
      | none => .next (s.install k a m.line c)
    | .grant (some k) fresh c =>
      if (s.hline m.line).pkg = .o a then
        let s : State := if fresh then s.setCline a m.line c else s
        match s.ops.get? k, s.cline? a m.line with
        | some op, none => .next (s.request a m.line op.ctx (.own (some k)))
        | some _, some _ => .next (s.performWaiting k a m.line)
        | none, _ => .next s
      else
        match s.ops.get? k with
        | some op => .next (s.request a m.line op.ctx (.own (some k)))
        | none => .next s
    | .grantU k =>
      match s.ops.get? k with
      | some op =>
        match op.act with
        | .rd f u =>
          -- a grant that the home no longer counts, since a partial of the core is on its way there, is asked for again (R207)
          if s.pushing a m.line || !(s.hline m.line).pkg.has a then .next (s.request a m.line op.ctx (.rdLoc k))
          else
            let c : CLine := (s.cline? a m.line).getD { st := .u, colour := (s.hline m.line).colour, ctx := op.ctx }
            let p : Partial := ⟨f, u, op.len == 8, [], []⟩
            match c.partial_ with
            | some q =>
              if q.op = f ∧ q.u = u ∧ q.w64 = (op.len == 8) then .next (s.mergeU a m.line k op c q)
              else .next ((s.pushPartial a m.line c).request a m.line op.ctx (.rdLoc k))
            | none => .next (s.mergeU a m.line k op { c with st := .u } p)
        | .ld _ | .st | .at_ _ _ | .pre | .refill _ _ | .engine _ _ => .next (s.opDone k op 0)
      | none => .next s
    | .poisoned k =>
      match s.ops.get? k with
      | some op => .next ((s.chained k op).foldl (fun s e => s.opBad e.1 e.2) s)
      | none => .next s
    | _ => .refused .notEnabled

/-- The T or L copy that a core held while its LEASE or TRACK store was on its way is dropped, R210. -/
def State.dropShared (s : State) (agent line : Nat) (pol : Pol) : State :=
  match pol, s.cline? agent line with
  | .lease, some c | .track, some c => if c.st = .t ∨ c.st = .l then s.delCline agent line else s
  | .own, _ | .thru, _ | .lease, none | .track, none => s

/-- WRITE_ACK (R220): a store, atomic or THRU reduction has been applied. -/
def execWriteAck (msg : Nat) (s : State) : Out :=
  withMsg msg s (fun b => match b with | .wack _ _ _ _ => true | _ => false) fun m =>
    let s := { s with msgs := s.msgs.del msg }
    match m.body with
    | .wack k g old c =>
      match s.ops.get? k with
      | some op =>
        -- what the core kept during a LEASE or TRACK store gives way to what the reply brings (R210)
        let s := s.dropShared m.dst m.line op.pol
        let s := s.install k m.dst m.line c
        .next ((s.chained k op).foldl (fun s e => (s.gwct e.2.warp g).opDone e.1 e.2 old) s)
      | none => .next (s.install k m.dst m.line c)
    | _ => .refused .notEnabled

/-! ## Sending an access off -/

/-- Does a core's own copy serve a load of this policy, R209? -/
def State.serves (s : State) (agent : Nat) (pol : Pol) (c : CLine) : Bool :=
  match pol, c.st with
  | .own, .e | .own, .m | .lease, .e | .lease, .m | .lease, .t | .track, .e | .track, .m | .track, .t => true
  | .lease, .l => s.leaseServes (s.timeOf agent) c.expiry
  | .own, .t | .own, .l | .own, .u | .thru, _ | .lease, .u | .track, .l | .track, .u => false

/-- An access enters the path to its home. -/
def State.onPath (s : State) (k : Nat) (op : Op) (body : Body) : State :=
  let s := { s with ops := s.ops.set k { op with stage := .path } }
  (s.request op.agent (op.pa / 128) op.ctx body).count op.agent 0 0x09 1 op.ctx

/-- Ask for ownership, and wait with the access. -/
def State.askOwn (s : State) (k : Nat) (op : Op) : State :=
  let s := { s with ops := s.ops.set k { op with stage := .waiting } }
  (s.request op.agent (op.pa / 128) op.ctx (.own (some k))).count op.agent 0 0x09 1 op.ctx

/-- An L copy whose time has passed is dropped, R218. -/
def State.expire (s : State) (op : Op) : State :=
  let line := op.pa / 128
  match s.cline? op.agent line with
  | some c =>
    if c.st = .l ∧ !s.leaseServes (s.timeOf op.agent) c.expiry then
      (s.delCline op.agent line).count op.agent 0 0x0A 1 op.ctx
    else s
  | none => s

/-- LEN of the context's leases. -/
def State.leaseOf (s : State) (ctx : Nat) : Nat := leaseLen (s.ctx ctx).leasens

/-- The policy that acts on a line: host memory keeps no leased or tracked copy, R231. -/
def polOn (line : Nat) (p : Pol) : Pol :=
  if isHostLine line then (match p with | .own => .own | .thru | .lease | .track => .thru) else p

/-- Issue one element access, R209, R210, R222, R223, with its identifier. A THRU load leaves its core's own E, T or L copy,
and a clean one of M, in place: R209 has the load keep no copy, and settles none (DESIGN CHOICE, log 86). -/
def State.issueOp (s : State) (k : Nat) (op : Op) : State :=
  let line := op.pa / 128
  let op := { op with pol := polOn line op.pol }
  let s := s.expire op
  let c? := s.cline? op.agent line
  match op.act with
  | .ld _ | .pre | .refill _ _ | .engine _ _ =>
    match c? with
    | some c =>
      if s.serves op.agent op.pol c then
        let v := BitVec.ofNat 64 (lineVal c.data (op.pa % 128) op.len)
        (s.count op.agent 0 0x08 1 op.ctx).opDone k op v
      else
        -- a partial is pushed first, and an owner's dirty words go ahead of a THRU read
        let s : State := match c.st with
          | .u => s.pushPartial op.agent line c
          | .e | .m =>
            if c.dirty = [] then s
            else
              (s.setCline op.agent line { c with st := .e, dirty := [] }).send op.agent (homeOf line) line
                (.wb c.dirty c.data false none)
          | .t | .l => s
        match op.pol with
        | .own => s.askOwn k op
        | .thru => s.onPath k op (.thruRd k)
        | .lease => s.onPath k op (.leaseReq k (s.leaseOf op.ctx))
        | .track => s.onPath k op (.trackReq k)
    | none =>
      match op.pol with
      | .own => s.askOwn k op
      | .thru => s.onPath k op (.thruRd k)
      | .lease => s.onPath k op (.leaseReq k (s.leaseOf op.ctx))
      | .track => s.onPath k op (.trackReq k)
  | .st | .at_ _ _ =>
    match op.pol with
    | .own =>
      match c? with
      | some c =>
        if c.st = .e ∨ c.st = .m then (s.count op.agent 0 0x08 1 op.ctx).performOwn k line op c
        else (if c.st = .u then s.pushPartial op.agent line c else s).askOwn k op
      | none => s.askOwn k op
    | .thru | .lease | .track =>
      let s : State := match c? with
        | some c =>
          if (c.st = .t ∨ c.st = .l) ∧ op.act = .st ∧ op.pol ≠ .thru then
            s.setCline op.agent line { c with data := linePut c.data (op.pa % 128) op.len op.val.toNat }
          else s.giveUp op.agent line c none
        | none => s
      s.onPath k op (.write k (s.leaseOf op.ctx))
  | .rd f u =>
    match op.pol with
    | .own =>
      if isHostLine line then
        (match c? with
          | some c => s.giveUp op.agent line c none
          | none => s).onPath k op (.rdThru k)
      else
        match c? with
        | some c =>
          match c.partial_ with
          | some p =>
            if p.op = f ∧ p.u = u ∧ p.w64 = (op.len == 8) then s.mergeU op.agent line k op c p
            else (s.pushPartial op.agent line c).onPath k op (.rdLoc k)
          | none => (s.giveUp op.agent line c none).onPath k op (.rdLoc k)
        | none => s.onPath k op (.rdLoc k)
    | .thru | .lease | .track =>
      let s : State := match c? with
        | some c => s.giveUp op.agent line c none
        | none => s
      s.onPath k op (.rdThru k)

/-- Start an access: it is recorded and issued. -/
def State.startOp (s : State) (op : Op) : State :=
  let (k, s) := s.newId
  { s with ops := s.ops.set k op }.issueOp k op

/-- Start a reduction with those of later lanes that it is combined with, R227. -/
def State.startRed (s : State) (ops : List Op) : State :=
  match ops with
  | [] => s
  | op :: rest =>
    let (k, s) := s.newId
    let r := rest.foldl (fun (r : State × List Nat) x =>
      let (j, s) := r.1.newId
      ({ s with ops := s.ops.set j { x with stage := .path } }, r.2 ++ [j])) (s, [])
    let op := { op with chain := r.2 }
    { r.1 with ops := r.1.ops.set k op }.issueOp k op

/-- Does an access return what a copy of its line holds? -/
def Act.loads (a : Act) : Bool :=
  match a with
  | .ld _ | .pre | .refill _ _ | .engine _ _ => true
  | .st | .at_ _ _ | .rd _ _ => false

/-- Would an access by this core to the line have to wait: for an earlier one that may still change its copy; where the core
holds a copy, for a THRU load that may find a newer value than that copy's (R243); for the core's own engine, which owns the
line for a command (R257)? DESIGN CHOICE, log 16. -/
def State.lineBusy (s : State) (agent line : Nat) : Bool :=
  ((s.hline line).pkg == .o (engineAgent agent) && s.engineOwns line) || s.ops.any fun e => e.2.agent == agent && e.2.pa / 128 == line &&
    (e.2.stage == .waiting || e.2.pol != .thru || (e.2.act.loads && (s.cline? agent line).isSome))

end Sys2Proof.Machine
end

