-- ==== Sys2Proof/Machine/Access.lean ====
section
/-! DEFINITION. What every global access does before it is made: addresses translated and checked lane by lane
(09_lines_policies R232), colours determined and monitors acquired (11_colours_monitors R263 to R271). -/

namespace Sys2Proof.Machine

/-! ## Translation of a group's addresses -/

/-- One address that a lane names, and what it needs of it. -/
structure Acc where
  w : Nat
  l : Nat
  va : DWord
  need : Need
  deriving DecidableEq, Repr

/-- A translated access. -/
structure Hit where
  acc : Acc
  loc : Look
  deriving DecidableEq, Repr

/-- The physical address of a hit in device or host memory or register space. -/
def Hit.pa (h : Hit) : Nat :=
  match h.loc with
  | .pa a => a
  | .config _ | .fault _ | .walk _ _ _ => 0

/-- Does a hit lie in device memory, where lines have colours and holders? -/
def Hit.isDev (h : Hit) : Bool :=
  match h.loc with
  | .pa a => match placeOf a with
    | .dev _ _ => true
    | .host _ | .reg _ | .hostReg _ | .nothing => false
  | .config _ | .fault _ | .walk _ _ _ => false

/-- Does a hit lie in register space? -/
def Hit.isReg (h : Hit) : Bool :=
  match h.loc with
  | .pa a => match placeOf a with
    | .reg _ | .hostReg _ | .nothing => true
    | .dev _ _ | .host _ => false
  | .config _ | .fault _ | .walk _ _ _ => false

def Acc.key (a : Acc) : Nat := 32 * a.w + a.l

/-- The walks that a group waited for. -/
def Group.walkIds (gr : Group) : List Nat :=
  match gr.park with
  | .walk ids => ids
  | _ => []

def causeOf (code : Nat) : Cause := if code = 0x0C then .xlate else .prot

/-- What an access of a group finds: an address, a fault, or an entry that must be read first. An address is checked for
ALIGN after its high bits (R232), or, with `first`, before (R319). What its instruction has translated already, before it
had to wait, stays as it was (R328): `xl`. -/
def State.resolve (s : State) (ids : List Nat) (ctx align : Nat) (a : Acc) (first : Bool := false) (xl : AMap Nat := []) : Look :=
  if first && a.va.toNat % align != 0 then .fault .align
  else if a.va.extractLsb' 60 4 ≠ (0 : BitVec 4) then .fault .xlate
  else if a.va.toNat % align ≠ 0 then .fault .align
  else
    match xl.get? (xlKey a.w a.l (a.va.toNat / 4096) a.need) with
    | some frame => .pa (frame * 4096 + a.va.toNat % 4096)
    | none =>
      match s.walkFault ids ctx a.va a.need with
      | some c => .fault (causeOf c)
      | none => s.look ctx a.va a.need

/-- Start the walks that accesses miss, one for each page and need, and wait for them. -/
def State.walkAll (s : State) (g : Nat) (gr : Group) (ctx : Nat) (misses : List (Acc × Nat × Nat × Bool)) : State :=
  let r := misses.foldl (fun (r : State × List Nat × List (Nat × Need)) m =>
    let key := (m.1.va.toNat / 4096, m.1.need)
    if r.2.2.contains key then r
    else
      let (k, s) := r.1.startWalk ctx m.1.va m.1.need m.2.1 m.2.2.1 m.2.2.2
      (s, k :: r.2.1, key :: r.2.2)) (s, [], [])
  r.1.parkGroup g (.walk r.2.1) gr.memo

/-- An access to a poisoned line, R205. -/
def State.poisoned (s : State) (h : Hit) : Bool := h.isDev && (s.hline (h.pa / 128)).poison

/-- Error records for poisoned lines that raised traps: KIND 1, the line's home slice and range (R205, R376). -/
def State.reportPoison (s : State) (ctx : Nat) (lines : List Nat) : State :=
  lines.dedup.foldl (fun s l => s.report { kind := 1, ctx, unit := homeOf l - 1000, start := 128 * l, len := 128 }) s

/-- A group that has to wait after this remembers how its accesses were translated (R328). -/
def Group.translated (gr : Group) (hits : List Hit) : Group :=
  { gr with memo := { gr.memo with xl := hits.foldl (fun m h =>
      match h.loc with
      | .pa p => m.set (xlKey h.acc.w h.acc.l (h.acc.va.toNat / 4096) h.acc.need) (p / 4096)
      | .config _ | .fault _ | .walk _ _ _ => m) gr.memo.xl } }

/-- Translate and check every access of a group, ascending, before anything is done (R232). `chk` names the further
faults of the instruction. A warp with a failing lane traps, with TAD the address of its lowest failing lane; the
others go on. -/
def accessing (s : State) (g : Nat) (gr : Group) (accs : List Acc) (align : Nat) (chk : Hit → Option Cause)
    (k : Group → List Hit → State → Out) (first : Bool := false) : Out :=
  let ctx := (s.block gr.block).ctx
  let rs := accs.map fun a => (a, s.resolve gr.walkIds ctx align a first gr.memo.xl)
  let misses := rs.filterMap fun r =>
    match r.2 with
    | .walk l t f => some (r.1, l, t, f)
    | .pa _ | .config _ | .fault _ => none
  if misses != [] then .next ((s.dropWalks gr.walkIds).walkAll g gr ctx misses)
  else
    let s := (s.dropWalks gr.walkIds).reportPoison ctx (rs.filterMap fun r =>
      if s.poisoned ⟨r.1, r.2⟩ && (chk ⟨r.1, r.2⟩).isSome then some ((⟨r.1, r.2⟩ : Hit).pa / 128) else none)
    let bad (r : Acc × Look) : Option Cause :=
      match r.2 with
      | .fault c => some c
      | .pa _ | .config _ | .walk _ _ _ => chk ⟨r.1, r.2⟩
    let raises := gr.warpIds.filterMap fun w =>
      (rs.filter (·.1.w == w)).findSome? fun r =>
        (bad r).map fun c => (⟨w, c, r.1.va, 0, r.1.need.wr && (c == .xlate || c == .prot)⟩ : Raise)
    s.raising g gr raises fun gr s =>
      let hits : List Hit := (rs.filter fun r => gr.warpIds.contains r.1.w).map fun r => ⟨r.1, r.2⟩
      k (gr.translated hits) hits s

/-- Lines of hits on which the core still waits for an earlier access. -/
def State.busyLines (s : State) (core : Nat) (hits : List Hit) : List Nat :=
  (hits.map fun h => h.pa / 128).filter (s.lineBusy core)

/-! ## Records -/

/-- The key of a word that a lane's instruction reads of a record. -/
def wordKey (a : Acc) (i : Nat) : Nat := 64 * a.key + i

/-- Start the THRU load of word i at a hit. -/
def State.wordOp (s : State) (g : Nat) (gr : Group) (h : Hit) (i : Nat) : State :=
  let (work, s) := s.attachTo none h.acc.w 1
  let s := s.startOp
    { work, warp := h.acc.w, lane := h.acc.l, core := gr.core, agent := gr.core, ctx := (s.block gr.block).ctx,
      act := .refill g (wordKey h.acc i), pol := .thru, pa := h.pa + 8 * i, len := 8, vpage := h.acc.va.toNat / 4096,
      va := h.acc.va }
  s.settleWork work

/-- Read n words of 8 bytes at each address, with THRU loads that touch nothing (R261), and go on once they are there.
Register space and poisoned lines raise PROT. DEDUCED, log 40. -/
def reading (s : State) (g : Nat) (gr : Group) (accs : List Acc) (n align : Nat)
    (k : Group → (Acc → Nat → DWord) → State → Out) : Out :=
  s.raising g gr (gr.badRaises false) fun gr s =>
    let accs := accs.filter fun a => gr.lanes.contains (a.w, a.l)
    let known (a : Acc) : Bool := (List.range n).all fun i => (gr.memo.refill.get? (wordKey a i)).isSome
    if accs.all known then k gr (fun a i => gr.memo.refill.getD (wordKey a i) 0) s
    else
      accessing s g gr accs align (fun h => if h.isReg || s.poisoned h then some .prot else none) fun gr hits s =>
        let hits := hits.filter fun h => !known h.acc
        if s.busyLines gr.core hits ≠ [] then
          .next (s.parkGroup g (.lines gr.core (s.busyLines gr.core hits)) gr.memo)
        else
          let s := s.parkGroup g .spill gr.memo
          .next (hits.foldl (fun s h =>
            match h.loc with
            | .config off =>
              (List.range n).foldl (fun s i => s.modGroup g fun gr => { gr with memo := { gr.memo with
                refill := gr.memo.refill.set (wordKey h.acc i)
                  (BitVec.ofNat 64 (s.configRead (s.block gr.block).ctx (off + 8 * i) 8)) } }) s
            | .pa _ | .fault _ | .walk _ _ _ => (List.range n).foldl (fun s i => s.wordOp g gr h i) s) s)

/-- Translate addresses without raising anything; what is not cached is walked for, and every walk's outcome is kept
until the group goes on. -/
def probing (s : State) (g : Nat) (gr : Group) (accs : List Acc) (align : Nat) (k : (Acc → Look) → State → Out) : Out :=
  let ctx := (s.block gr.block).ctx
  let find (a : Acc) : Look := s.resolve gr.walkIds ctx align a
  let misses := accs.filterMap fun a =>
    match find a with
    | .walk l t f => some (a, l, t, f)
    | .pa _ | .config _ | .fault _ => none
  if misses = [] then k find s
  else
    let r := misses.foldl (fun (r : State × List Nat × List (Nat × Need)) m =>
      let key := (m.1.va.toNat / 4096, m.1.need)
      if r.2.2.contains key then r
      else
        let (n, s) := r.1.startWalk ctx m.1.va m.1.need m.2.1 m.2.2.1 m.2.2.2
        (s, n :: r.2.1, key :: r.2.2)) (s, [], [])
    .next (r.1.parkGroup g (.walk (gr.walkIds ++ r.2.1)) gr.memo)

/-- Read n words of 8 bytes at each address, as `reading` does, and raise nothing: the continuation learns which could
not be read and why, the words, and the poisoned lines met. -/
def recording (s : State) (g : Nat) (gr : Group) (accs : List Acc) (n align : Nat)
    (k : (Acc → Option Cause) → (Acc → Nat → DWord) → List Nat → State → Out) : Out :=
  probing s g gr accs align fun find s =>
    let ctx := (s.block gr.block).ctx
    let fault (a : Acc) : Option Cause :=
      match find a with
      | .fault c => some c
      | .pa p =>
        if (⟨a, .pa p⟩ : Hit).isReg || s.poisoned ⟨a, .pa p⟩ || (gr.memo.bad.get? a.key).isSome then some .prot else none
      | .config _ | .walk _ _ _ => none
    let word (a : Acc) (i : Nat) : DWord :=
      match find a with
      | .config off => BitVec.ofNat 64 (s.configRead ctx (off + 8 * i) 8)
      | .pa _ | .fault _ | .walk _ _ _ => gr.memo.refill.getD (wordKey a i) 0
    let unread : List Hit := accs.filterMap fun a =>
      match find a with
      | .pa p =>
        if (fault a).isNone && (List.range n).any fun i => (gr.memo.refill.get? (wordKey a i)).isNone then some ⟨a, .pa p⟩
        else none
      | .config _ | .fault _ | .walk _ _ _ => none
    let poison := accs.filterMap fun a =>
      match find a with
      | .pa p => if s.poisoned ⟨a, .pa p⟩ then some (p / 128) else none
      | .config _ | .fault _ | .walk _ _ _ => none
    if unread = [] then k fault word poison s
    else
      let s := s.dropWalks gr.walkIds
      if s.busyLines gr.core unread ≠ [] then
        .next (s.parkGroup g (.lines gr.core (s.busyLines gr.core unread)) gr.memo)
      else
        .next (unread.foldl (fun s h => (List.range n).foldl (fun s i => s.wordOp g gr h i) s)
          (s.parkGroup g .spill gr.memo))

/-- An instruction for whose effect the device reads memory: its group waits at the word while lines are asked for, and
nothing else of it happens until they are there. DESIGN CHOICE, log 14. -/
def reaching (g : Nat) (gr : Group) (e : State → Out) (s : State) : Out :=
  let s := s.unasked
  match e s with
  | .next t =>
    if t.need = [] then .next t.spend
    else
      match s.askNeed t.need with
      | .next u => .next ((u.dropWalks gr.walkIds).parkGroup g (.device (t.need.map (·.1))) gr.memo)
      | .fault _ | .refused _ => .next ((s.dropWalks gr.walkIds).parkGroup g (.device (t.need.map (·.1))) gr.memo)
  | .fault f => .fault f
  | .refused r => .refused r

/-- The trap that an instruction raises in a warp: what its lowest failing lane meets; the last part says that a write
met it. DEDUCED, log 67. -/
def firstFail (w : Nat) (who : List (Nat × Nat)) (fail : Nat × Nat → Option (Cause × DWord × Bool)) : Option Raise :=
  ((who.filter (·.1 == w)).findSome? fail).map fun f =>
    ⟨w, f.1, f.2.1, 0, f.2.2 && (f.1 == .xlate || f.1 == .prot)⟩

/-! ## Monitors -/

def monKey (ctx colour : Nat) : Nat := 4096 * ctx + colour

def State.mon (s : State) (ctx colour : Nat) : Mon := s.mons.getD (monKey ctx colour) {}

/-- A monitor is active while it has a holder or a queued thread, R276. -/
def State.setMon (s : State) (ctx colour : Nat) (m : Mon) : State :=
  { s with mons := s.mons.putD (monKey ctx colour) m {} }

/-- Active monitors of a context: those with their records here, and those with records on other chips (R277).
DESIGN CHOICE, log 19. -/
def State.monCount (s : State) (ctx : Nat) : Nat := (s.mons.filter fun e => e.1 / 4096 == ctx).length + s.monsAway.getD ctx 0

def Lane.holds (l : Lane) (c : Nat) : Bool := l.slots.any fun x => x.colour == c
def Lane.topColour (l : Lane) : Nat := (l.slots.map (·.colour)).foldl max 0

/-- Put a colour into the lane's slots, which stay in ascending order (R264, R265). -/
def Lane.addSlot (l : Lane) (c depth : Nat) : Lane :=
  { l with slots := sortBy Slot.colour (⟨c, depth⟩ :: l.slots) }

/-- A core drops every L copy of a colour, R269, R279. -/
def State.dropLeases (s : State) (core colour : Nat) : State :=
  { s with caches := s.caches.filter fun e => !(e.1 % 1024 == core && e.2.st == .l && e.2.colour == colour) }

/-- A lane holds a colour that its monitor's record has granted it; its core drops its old leases (R265, R269). -/
def State.acquire (s : State) (ctx colour w l depth : Nat) : State :=
  let W := s.warp w
  let s := if s.monHome ctx colour = s.chip then
      s.setMon ctx colour { s.mon ctx colour with holder := some (.here w l) }
    else s
  let s := (s.modLane w l (·.addSlot colour depth)).dropLeases W.core colour
  s.count W.core W.sub 0x10 1 ctx

/-- How a record answers a request. -/
inductive Ask where
  | granted | queued | sent
  deriving DecidableEq, Repr

/-- A lane asks for a monitor, R271: a free one with no one queued is granted; else the lane queues. A record on another
chip is asked there. -/
def State.askMonitor (s : State) (ctx colour w l : Nat) : Ask × State :=
  if s.monHome ctx colour ≠ s.chip then
    (.sent, s.fabric (s.monHome ctx colour) (.mon ctx colour (.ask (monId w l))))
  else
    let m := s.mon ctx colour
    if m.holder = none ∧ m.entryQ = [] then (.granted, s.acquire ctx colour w l (s.lane w l).depth)
    else (.queued, s.setMon ctx colour { m with entryQ := m.entryQ ++ [⟨.here w l, none⟩] })

/-- The traps of R265, warp by warp, with each warp's touches in ascending lane order: MONORD, MONLIM, and MONLIM with
TAD[63] set where the context's monitors are all in use (R277). Monitors that earlier warps will make active count. -/
def State.colourTraps (s : State) (ctx : Nat) (ws : List Nat) (full : List (Nat × Nat)) (touches : List (Acc × Nat)) :
    List Raise :=
  let used := s.monCount ctx
  let step (w : Nat) (r : Option Raise × List Nat) (t : Acc × Nat) : Option Raise × List Nat :=
    let L := s.lane w t.1.l
    let lim : Raise := ⟨w, .monlim, t.1.va ||| 0x8000000000000000, 0, false⟩
    if r.1.isSome ∨ t.2 = 0 ∨ L.holds t.2 then r
    else if t.2 < L.topColour then (some ⟨w, .monord, t.1.va, 0, false⟩, r.2)
    else if 8 ≤ L.slots.length then (some ⟨w, .monlim, t.1.va, 0, false⟩, r.2)
    else if full.contains (w, t.1.l) then (some lim, r.2)
    else if s.monHome ctx t.2 ≠ s.chip ∨ (s.mons.get? (monKey ctx t.2)).isSome ∨ r.2.contains t.2 then r
    else if (s.ctx ctx).mtn < used + r.2.length + 1 then (some lim, r.2)
    else (none, t.2 :: r.2)
  (ws.foldl (fun (r : List Raise × List Nat) w =>
    match (touches.filter (·.1.w == w)).foldl (step w) (none, r.2) with
    | (some x, _) => (r.1 ++ [x], r.2)
    | (none, new) => (r.1, new)) ([], [])).1

/-- What a lane's colour query has told beside the colour: 0 nothing, 1 the line is poisoned, 2 it is lost. -/
def Group.told (gr : Group) (h : Hit) : Nat := gr.memo.colours.getD h.acc.key 0 / 4096

/-- Accesses that end in PROT by what their line's home has told (R205, R363), or whose monitor's record is lost. -/
def Group.toldBad (gr : Group) (prot : Hit → Nat → Bool) (h : Hit) : Bool :=
  (gr.told h != 0 && prot h (gr.told h)) || (gr.memo.bad.get? h.acc.key).isSome

/-- PROT at the lowest failing lane of each warp. -/
def Group.toldRaises (gr : Group) (touches : List Hit) (prot : Hit → Nat → Bool) : List Raise :=
  gr.warpIds.filterMap fun w =>
    (touches.find? fun h => h.acc.w == w && gr.toldBad prot h).map fun h => ⟨w, .prot, h.acc.va, 0, h.acc.need.wr⟩

/-- What a group that leaves another at its word keeps of what that one knows: how its accesses were translated. -/
def Memo.parted (m : Memo) : Memo := { xl := m.xl, shots := m.shots }

/-- The monitors that lanes want are asked for in ascending order, R271: a lane that is granted its colour determines its
touch again; one that queues leaves the group. -/
def State.askAll (s : State) (g : Nat) (gr : Group) (ctx : Nat) (wants : List (Acc × Nat)) (memo : Memo) : State × Memo :=
  wants.foldl (fun (r : State × Memo) t =>
    let m := { r.2 with colours := r.2.colours.del t.1.key }
    match r.1.askMonitor ctx t.2 t.1.w t.1.l with
    | (.granted, s) => (s, m)
    | (.queued, s) => ((s.splitOff g ((s.groups.get? g).getD gr) [(t.1.w, t.1.l)] (.monitor t.2) m.parted).2, m)
    | (.sent, s) => (s, { m with waiting := m.waiting + 1, asks := m.asks ++ [(t.1.w, t.1.l, t.2)] })) (s, memo)

/-- Determine the colours of the lines that an instruction touches, one line for each lane, and acquire their monitors,
before any of its accesses is performed (R263 to R266, R271). `serves` says whether the core's own copy will serve an
access, `prot` whether one to a poisoned (1) or lost (2) line raises PROT: for a line of another chip that is learned with its
colour, before anything is done (R42, R205, R363; DEDUCED, log 25). An access that touches nothing (R332) asks only there. -/
def colouring (s : State) (g : Nat) (gr : Group) (touches : List Hit) (serves : CLine → Bool) (k : Group → State → Out)
    (prot : Hit → Nat → Bool := fun _ _ => true) (plain : Bool := gr.handler) : Out :=
  let ctx := (s.block gr.block).ctx
  let agent := gr.core
  let memo := gr.memo
  let touches := if plain then touches.filter fun h => (s.remoteChip (h.pa / 128)).isSome else touches
  let unknown := touches.filter fun h => (memo.colours.get? h.acc.key).isNone
  if memo.waiting ≠ 0 then .next (s.parkGroup g .colours memo)
  else if unknown ≠ [] then
    let r := unknown.foldl (fun (r : State × Memo) h =>
      let line := h.pa / 128
      let m := r.2
      match r.1.cline? agent line with
      | some c =>
        if serves c then (r.1, { m with colours := m.colours.set h.acc.key c.colour })
        else (r.1.request agent line ctx (.colourQ g h.acc.key), { m with waiting := m.waiting + 1 })
      | none => (r.1.request agent line ctx (.colourQ g h.acc.key), { m with waiting := m.waiting + 1 })) (s, memo)
    .next (r.1.parkGroup g .colours r.2)
  else
    let poison := touches.filter fun h => gr.told h == 1 && gr.toldBad prot h
    (s.reportPoison ctx (poison.map fun h => h.pa / 128)).raising g gr (gr.toldRaises touches prot) fun gr s =>
      if plain then k gr s
      else
        let known := touches.map fun h => (h.acc, memo.colours.getD h.acc.key 0 % 4096)
        s.raising g gr (s.colourTraps ctx gr.warpIds memo.full known) fun gr s =>
          let wants := known.filter fun t =>
            gr.warpIds.contains t.1.w && t.2 != 0 && !(s.lane t.1.w t.1.l).holds t.2
          if wants = [] then k gr s
          else
            let r := s.askAll g gr ctx wants memo
            match r.1.groups.get? g with
            | some _ => .next (r.1.parkGroup g .colours r.2)
            | none => .next r.1

end Sys2Proof.Machine
end

