-- ==== Sys2Proof/Machine/LocalStore.lean ====
section
/-! DEFINITION. The local store: addresses, checks, LS.LD, LS.ST, LS.AT and their remote accesses (07_local_store_churn
R151, R155 to R160, R169). -/

namespace Sys2Proof.Machine

/-! ## Bytes of a block's store -/

/-- n bytes of a block's local store as a number (R5). -/
def Block.lsRead (B : Block) (off n : Nat) : Nat :=
  ((List.range n).map fun i => (B.ls.getD (off + i) (0 : Byte)).toNat * 256 ^ i).sum

/-- Write the low n bytes of a number. A write of a whole 8-byte word restores its ECC (R160, R377). -/
def Block.lsWrite (B : Block) (off n x : Nat) : Block :=
  { B with ls := (List.range n).foldl (fun m i => m.putD (off + i) (BitVec.ofNat 8 (x / 256 ^ i)) 0) B.ls,
           lsBad := B.lsBad.filter fun w => !(decide (off ≤ 8 * w) && decide (8 * w + 8 ≤ off + n)) }

/-- The first 8-byte word of a range with an uncorrectable error, R160. -/
def Block.badIn (B : Block) (off n : Nat) : Option Nat :=
  ((List.range ((off % 8 + n + 7) / 8)).map (off / 8 + ·)).find? B.lsBad.contains

/-- Does a byte of a range lie in a claimed Churn region? -/
def Block.inChurn (B : Block) (off n : Nat) : Bool :=
  match B.churn with
  | some c => n != 0 && decide (off < c.off + 1024 * 2 ^ c.k) && decide (c.off < off + n)
  | none => false

/-! ## The checks of R156 -/

def lsOff (x : Word) : Nat := x.toNat % 2 ^ 19

/-- R156 on m bytes at local address x of a block's thread; `align` is what row 2 asks for. -/
def State.lsCheck (s : State) (b : Nat) (x : Word) (align m : Nat) (store : Bool) : Option Cause :=
  match s.lsTarget b x.toNat with
  | none => some .lsrange
  | some t =>
    let B := s.block t
    if lsOff x % align ≠ 0 then some .align
    else if m ≠ 0 ∧ B.lsSize < lsOff x + m then some .lsrange
    else if store && B.inChurn (lsOff x) m then some .churn
    else none

/-- The local address of a word of the store that a local address names. -/
def lsWordAddr (x : Word) (word : Nat) : DWord := (x &&& 0xFFF80000).setWidth 64 ||| BitVec.ofNat 64 (8 * word)

/-- Does an access read the words that it names? Each does but for a store of whole words. DEDUCED, log 36. -/
def LsAct.readsWord (act : LsAct) (n : Nat) : Bool := !(act matches .st) || decide (n < 8)

/-- LSECC on a read, R160. DEDUCED, log 36. -/
def State.lsEcc (s : State) (b : Nat) (x : Word) (m : Nat) : Option DWord :=
  (s.lsTarget b x.toNat).bind fun t => ((s.block t).badIn (lsOff x) m).map (lsWordAddr x)

/-! ## Performing an access -/

/-- The new element of LS.AT, R169. -/
def lsAtEval (op : LsAtOp) (w64 : Bool) (old val cmp : DWord) : DWord :=
  match op with
  | .add => gopEval .add false w64 old val cmp
  | .min => gopEval .min false w64 old val cmp
  | .max => gopEval .max false w64 old val cmp
  | .and => gopEval .and false w64 old val cmp
  | .or => gopEval .or false w64 old val cmp
  | .xor => gopEval .xor false w64 old val cmp
  | .xchg => gopEval .xchg false w64 old val cmp
  | .cas => gopEval .cas false w64 old val cmp
  | .fadd => gopEval .fadd false false old val cmp
  | .minu => gopEval .min true w64 old val cmp
  | .maxu => gopEval .max true w64 old val cmp

/-- An access to at most 8 bytes of a block's store: what it leaves, and what it returns. -/
def Block.lsPerform (B : Block) (act : LsAct) (off n : Nat) (val cmp : DWord) : Block × DWord :=
  let old := BitVec.ofNat 64 (B.lsRead off n)
  match act with
  | .ld sg => (B, if sg then BitVec.ofInt 64 (sext (8 * n) old.toNat) else old)
  | .st => (B.lsWrite off n val.toNat, 0)
  | .at_ op => (B.lsWrite off n (lsAtEval op (n == 8) old val cmp).toNat, old)

/-- One element access of a lane: its local address, length, value, compare value, destination. -/
structure LsElem where
  x : Word
  n : Nat
  val : DWord := 0
  cmp : DWord := 0
  dst : Option Nat := none
  dstLen : Nat := 0
  deriving DecidableEq, Repr

/-- An own-core access is performed at once, R158; a remote one is sent off, R159. -/
def State.lsAccess (s : State) (gr : Group) (w l work : Nat) (act : LsAct) (e : LsElem) : State :=
  match s.lsTarget gr.block e.x.toNat with
  | none => s
  | some t =>
    let B := s.block t
    if B.core = gr.core then
      let (B, v) := B.lsPerform act (lsOff e.x) e.n e.val e.cmp
      (s.setBlock t B).modLane w l (·.putRes e.dst e.dstLen v)
    else
      let (k, s) := s.newId
      let r : RemoteLs :=
        { work, warp := w, lane := l, block := t, addr := lsOff e.x, len := e.n, act, val := e.val, cmp := e.cmp,
          dst := e.dst, dstLen := e.dstLen }
      { s with remotes := s.remotes.set k r }

/-- Is an element's target on another core? -/
def State.lsRemote (s : State) (gr : Group) (e : LsElem) : Bool :=
  match s.lsTarget gr.block e.x.toNat with
  | none => false
  | some t => (s.block t).core != gr.core

/-- The block that holds an access back: it has ended by LSECC and does not run again yet (R377). -/
def State.lsHeld (s : State) (b : Nat) (x : Word) : Option Nat :=
  match s.lsTarget b x.toNat with
  | some t => if t ≠ b ∧ (s.block t).ended then some t else none
  | none => none

/-- Has a lane accesses on their way to the core of the block that a local address names, which its next one there follows
(R159)? -/
def State.lsBehind (s : State) (gr : Group) (w l : Nat) (x : Word) : Bool :=
  match s.lsTarget gr.block x.toNat with
  | none => false
  | some t => s.remotes.any fun e => e.2.warp == w && e.2.lane == l && (s.block e.2.block).core == (s.block t).core

/-- The lanes among `who` whose access of n bytes would read a word with an uncorrectable error, and the word (R160). -/
def State.lsBad (s : State) (gr : Group) (who : List (Nat × Nat)) (ad : Nat × Nat → Word) (n : Nat) :
    List ((Nat × Nat) × DWord) :=
  who.filterMap fun x => (s.lsEcc gr.block (ad x) n).map fun a => (x, a)

/-- Before accesses of n bytes are made, nothing may hold them back (R377), and no word that they read may be in error:
LSECC in each warp at the lowest lane's word (R160). A lane whose earlier accesses may still cure the word waits for them.
DEDUCED, log 36. -/
def State.lsClear (s : State) (g : Nat) (gr : Group) (who : List (Nat × Nat)) (ad : Nat × Nat → Word) (n : Nat) (reads : Bool)
    (k : Group → State → Out) : Out :=
  match who.findSome? fun x => s.lsHeld gr.block (ad x) with
  | some b => .next (s.parkGroup g (.hold b) gr.memo)
  | none =>
    let bad := if reads then s.lsBad gr who ad n else []
    if bad.any fun e => s.lsBehind gr e.1.1 e.1.2 (ad e.1) then .next (s.parkGroup g .remote gr.memo)
    else
      s.raising g gr (gr.warpIds.filterMap fun w =>
        (bad.find? (·.1.1 == w)).map fun e => (⟨w, .lsecc, e.2, 0, false⟩ : Raise)) k

/-- Extra cycles that a bank serves: distinct words beyond the first in the busiest bank (event 0x0C, R368).
DEDUCED, log 35. -/
def bankConflicts (words : List (Nat × Nat)) : Nat :=
  let ws := words.dedup
  ((List.range 32).map fun b => (ws.filter fun w => w.2 % 32 == b).length - 1).foldl max 0

/-- The local address of a lane. -/
def lsAddr (W : Warp) (L : Lane) (o : Ops) : Word := src32 W L o.a + src32 W L o.b

/-- An LS form, R169: n bytes a lane; `elems` splits a lane's access into elements of at most 8 bytes. -/
def lsForm (o : Ops) (wd : Widths) (fs : Bool) (n : Nat) (act : LsAct) (elems : Warp → Lane → Word → List LsElem)
    (s : State) : Out :=
  issueLane s false o wd fun g gr s =>
    let who := s.execThreads gr o.pr
    let ad (s : State) (x : Nat × Nat) : Word := let W := s.warp x.1; lsAddr W (W.lane x.2) o
    let raises := gr.warpIds.filterMap fun w =>
      ((who.filter (·.1 == w)).findSome? fun x =>
        (s.lsCheck gr.block (ad s x) n n (act matches .st | .at_ _)).map fun c => (c, ad s x)).map fun c =>
          (⟨w, c.1, c.2.setWidth 64, 0, false⟩ : Raise)
    s.raising g gr raises fun gr s =>
      s.lsClear g gr (s.execThreads gr o.pr) (ad s) n (act.readsWord n) fun gr s =>
        let who := s.execThreads gr o.pr
        let es (x : Nat × Nat) : List LsElem := let W := s.warp x.1; elems W (W.lane x.2) (ad s x)
        let remote (w : Nat) : Nat := ((who.filter (·.1 == w)).map fun x =>
          ((es x).filter (s.lsRemote gr)).length).sum
        if Group.flagFull s gr fs (gr.warpIds.filter fun w => remote w != 0) then
          .next (s.parkGroup g (.flag (((gr.flag fs).getD 0))) gr.memo)
        else
          let words := who.flatMap fun x => (es x).map fun e => ((s.lsTarget gr.block e.x.toNat).getD 0, lsOff e.x / 4)
          let s := (words.map fun w => (s.block w.1).core).dedup.foldl (fun s c =>
            s.count c gr.sub 0x0C (bankConflicts (words.filter fun w => (s.block w.1).core == c)) (s.block gr.block).ctx) s
          let s := gr.warpIds.foldl (fun s w =>
            let (work, s) := s.attach gr w fs (remote w)
            (who.filter (·.1 == w)).foldl (fun s x =>
              (es x).foldl (fun s e => s.lsAccess gr x.1 x.2 work act e) s) s) s
          .next ((s.zeroHelpers gr o wd.d).retire g gr)

/-! ## Tiles, R173, and their side of a remote transfer -/

/-- Element e of tile n, e = 16 row + column. -/
def Warp.tileAt (W : Warp) (n e : Nat) : Word := W.tiles.getD (256 * n + e) 0

def Warp.putTile (W : Warp) (n e : Nat) (x : Word) : Warp :=
  { W with tiles := W.tiles.putD (256 * n + e) x 0, tileBad := W.tileBad.filter (· != 256 * n + e) }

def AccFmt.bytes : AccFmt → Nat
  | .f32 => 4
  | .f16 | .bf16 => 2

/-- An element of a tile from its local-store form: widened exactly (R198). -/
def accWiden (f : AccFmt) (x : Nat) : Word :=
  match f with
  | .f32 => BitVec.ofNat 32 x
  | .f16 => w32 (fp32.conv {} (fp16.dec x))
  | .bf16 => w32 (fp32.conv {} (bf16.dec x))

/-- Put 8 bytes read from a local store into a tile, from element key `k` on. -/
def Warp.putUnit (W : Warp) (k : Nat) (f : AccFmt) (x : Nat) : Warp :=
  let n := AccFmt.bytes f
  (List.range (8 / n)).foldl (fun W i =>
    W.putTile ((k + i) / 256) ((k + i) % 256) (accWiden f (x / 256 ^ (n * i) % 256 ^ n))) W

/-! ## LS, R169 -/

def LdW.bytes : LdW → Nat
  | .u8 | .s8 => 1
  | .u16 | .s16 => 2
  | .b32 => 4
  | .b64 => 8
  | .b128 => 16

def LdW.signed : LdW → Bool
  | .s8 | .s16 => true
  | .u8 | .u16 | .b32 | .b64 | .b128 => false

def StW.bytes : StW → Nat
  | .b8 => 1
  | .b16 => 2
  | .b32 => 4
  | .b64 => 8
  | .b128 => 16

def Dst.vreg : Dst → Option Nat
  | .v n => some n.val
  | .s _ | .p _ | .none => none

/-- A lane's value of n bytes as elements of at most 8 bytes: their offsets and values. -/
def storeVals (W : Warp) (L : Lane) (c : Src) (n : Nat) : List (Nat × DWord) :=
  if n = 16 then [(0, srcQ W L c 1 ++ srcQ W L c 0), (8, srcQ W L c 3 ++ srcQ W L c 2)]
  else if n = 8 then [(0, src64 W L c)]
  else [(0, (src32 W L c).setWidth 64)]

/-- The destinations of a load of n bytes: offset, length, first register, number of registers. A load of 16 bytes is two
accesses (R157, R226). -/
def loadParts (d : Dst) (n : Nat) : List (Nat × Nat × Option Nat × Nat) :=
  if n = 16 then [(0, 8, Dst.vreg d, 2), (8, 8, (Dst.vreg d).map (· + 2), 2)]
  else [(0, n, Dst.vreg d, regsOf n)]

def execLsLd (o : Ops) (w : LdW) (fs : Bool) (s : State) : Out :=
  let n := LdW.bytes w
  lsForm o ⟨regsOf n, 1, 1, 1, false, []⟩ fs n (.ld (LdW.signed w)) (fun _ _ x =>
    (loadParts o.d n).map fun p =>
      { x := x + BitVec.ofNat 32 p.1, n := p.2.1, dst := p.2.2.1, dstLen := p.2.2.2 }) s

def execLsSt (o : Ops) (w : StW) (fs : Bool) (s : State) : Out :=
  let n := StW.bytes w
  lsForm o ⟨1, 1, 1, regsOf n, false, []⟩ fs n .st (fun W L x =>
    (storeVals W L o.c n).map fun p => { x := x + BitVec.ofNat 32 p.1, n := min n 8, val := p.2 }) s

/-- The compare and new values of CAS, or the operand. -/
def atVals (W : Warp) (L : Lane) (c : Src) (cas w64 : Bool) : DWord × DWord :=
  if cas then
    if w64 then (srcQ W L c 1 ++ srcQ W L c 0, srcQ W L c 3 ++ srcQ W L c 2)
    else ((srcQ W L c 0).setWidth 64, (srcQ W L c 1).setWidth 64)
  else (0, srcW w64 W L c)

def execLsAt (o : Ops) (op : LsAtOp) (w64 fs : Bool) (s : State) : Out :=
  let n := if w64 then 8 else 4
  lsForm o ⟨wd w64, 1, 1, if op = .cas then 2 * wd w64 else wd w64, false, []⟩ fs n (.at_ op) (fun W L x =>
    let v := atVals W L o.c (op == .cas) w64
    [{ x, n, cmp := v.1, val := v.2, dst := Dst.vreg o.d, dstLen := wd w64 }]) s

/-- A remote access is performed at its target, R159. A word that has come to be in error since it issued is met by the next
access to it. DEDUCED, log 36. -/
def State.lsArrive (s : State) (k : Nat) (r : RemoteLs) : State :=
  let (B, v) := (s.block r.block).lsPerform r.act r.addr r.len r.val r.cmp
  let s : State := { s.setBlock r.block B with remotes := s.remotes.del k }
  let s := s.modLane r.warp r.lane (·.putRes r.dst r.dstLen v)
  let s := match r.acc, r.act with
    | some (k, f), .ld _ => s.modWarp r.warp (·.putUnit k f v.toNat)
    | _, _ => s
  let s := s.workDone r.work
  if (s.lane r.warp r.lane).life = .exited then s.releaseQuarters r.warp else s

/-- The accesses performed in one step: those loads of one instruction that lie in a claimed Churn region are, so that no
table operation comes between them (R163). DEDUCED, log 36. -/
def State.lsTogether (s : State) (k : Nat) (r : RemoteLs) : List (Nat × RemoteLs) :=
  let inside (x : RemoteLs) : Bool := (x.act matches .ld _) && (s.block x.block).inChurn x.addr x.len
  if inside r then s.remotes.filter fun e => e.2.work == r.work && e.2.block == r.block && inside e.2 else [(k, r)]

/-- Must access y come after x, which issued before it: of one thread, at one core (R159), or lanes of one instruction at
bytes in common (R169)? -/
def State.lsAfter (s : State) (x y : RemoteLs) : Bool :=
  (x.warp == y.warp && x.lane == y.lane && (s.block x.block).core == (s.block y.block).core) ||
    (x.work == y.work && x.block == y.block && decide (x.addr < y.addr + y.len) && decide (y.addr < x.addr + x.len))

/-- REMOTE_LS_PERFORMED (R159): a remote access is performed at its target core, in its order. -/
def execRemoteLsPerformed (msg : Nat) (s : State) : Out :=
  match s.remotes.get? msg with
  | none => .refused .notEnabled
  | some r =>
    let all := s.lsTogether msg r
    let ks := all.map (·.1)
    let earlier := s.remotes.any fun e => !ks.contains e.1 && all.any fun x => decide (e.1 < x.1) && s.lsAfter e.2 x.2
    if earlier || (s.block r.block).ended then .refused .notEnabled
    else .next (all.foldl (fun s e => s.lsArrive e.1 e.2) s)

end Sys2Proof.Machine
end

