-- ==== Sys2Proof/Machine/Churn.lean ====
section
/-! DEFINITION. The Churn and the Spillway (07_local_store_churn R160 to R172). -/

namespace Sys2Proof.Machine

/-! ## The table -/

def emptyKey : DWord := 0xFFFFFFFFFFFFFFFF
def tombKey : DWord := 0xFFFFFFFFFFFFFFFE

def isLiveKey (k : DWord) : Bool := k != emptyKey && k != tombKey

/-- b of R161: the region holds 2^b buckets. -/
def Churn.bits (c : Churn) : Nat := c.k + 3

/-- The home bucket, R162. -/
def homeBucket (b : Nat) (key : DWord) : Nat := (key * 0x9E3779B97F4A7C15).toNat / 2 ^ (64 - b)

/-- A slot of the region: bucket, slot, and its step in a window. -/
structure SlotAt where
  bucket : Nat
  slot : Nat
  step : Nat := 0
  deriving DecidableEq, Repr

/-- The window of a key in window order, R162. -/
def windowOf (b : Nat) (key : DWord) : List SlotAt :=
  let h := homeBucket b key
  (List.range 4).flatMap fun i => (List.range 8).map fun j => ⟨(h + i) % 2 ^ b, j, i⟩

/-- The byte offset of a slot in the block's store. -/
def Churn.place (c : Churn) (p : SlotAt) : Nat := c.off + 128 * p.bucket + 16 * p.slot

def Block.keyAt (B : Block) (c : Churn) (p : SlotAt) : DWord := BitVec.ofNat 64 (B.lsRead (c.place p) 8)
def Block.valueAt (B : Block) (c : Churn) (p : SlotAt) : DWord := BitVec.ofNat 64 (B.lsRead (c.place p + 8) 8)
def Block.putKey (B : Block) (c : Churn) (p : SlotAt) (k : DWord) : Block := B.lsWrite (c.place p) 8 k.toNat
def Block.putValue (B : Block) (c : Churn) (p : SlotAt) (v : DWord) : Block := B.lsWrite (c.place p + 8) 8 v.toNat

/-- Lookup, R162. -/
def Block.findKey (B : Block) (c : Churn) (key : DWord) : Option SlotAt :=
  (windowOf c.bits key).find? fun p => B.keyAt c p == key

/-- Placement, R162. -/
def Block.findFree (B : Block) (c : Churn) (key : DWord) : Option SlotAt :=
  (windowOf c.bits key).find? fun p => !isLiveKey (B.keyAt c p)

/-! ## Status words, R168 -/

/-- A status word: a code, and the entry where it names one. -/
def statusWord (code : Nat) (p : Option SlotAt) : Word :=
  BitVec.ofNat 32 (code + match p with
    | some p => 2 ^ 4 * p.slot + 2 ^ 7 * p.step + 2 ^ 9 * p.bucket
    | none => 0)

/-! ## What a key group does, R171 -/

/-- place(v). -/
def placeVal (vs : Vs) (v : DWord) : DWord :=
  match vs with
  | .v64 => v
  | .lo => v &&& 0xFFFFFFFF
  | .hi => v <<< 32

/-- The half that VS names. -/
def halfOf (vs : Vs) (v : DWord) : DWord :=
  match vs with
  | .v64 => v
  | .lo => v &&& 0xFFFFFFFF
  | .hi => v >>> 32

/-- The value with that half replaced. -/
def putHalf (vs : Vs) (v x : DWord) : DWord :=
  match vs with
  | .v64 => x
  | .lo => (v &&& 0xFFFFFFFF00000000) ||| (x &&& 0xFFFFFFFF)
  | .hi => (v &&& 0xFFFFFFFF) ||| (x <<< 32)

def accEval (op : AccOp) (ty : AccTy) (x y : DWord) : DWord :=
  let lo (x : DWord) : Word := x.extractLsb' 0 32
  match ty with
  | .i32 => match op with
    | .add => gopEval .add false false x y 0
    | .min => gopEval .min false false x y 0
    | .max => gopEval .max false false x y 0
  | .i64 => match op with
    | .add => gopEval .add false true x y 0
    | .min => gopEval .min false true x y 0
    | .max => gopEval .max false true x y 0
  | .f32 => match op with
    | .add => (fadd32 (lo x) (lo y)).setWidth 64
    | .min => (w32 (fminmax fp32 {} false (f32 false (lo x)) (f32 false (lo y)))).setWidth 64
    | .max => (w32 (fminmax fp32 {} true (f32 false (lo x)) (f32 false (lo y)))).setWidth 64

/-- A table form. -/
inductive HForm where
  | ins (vs : Vs)
  | prb
  | del
  | acc (vs : Vs) (op : AccOp) (ty : AccTy)
  deriving DecidableEq, Repr

/-- What one lane gets at once: its status, its value, its home bucket. -/
structure HRes where
  lane : Nat
  status : Word
  value : DWord := 0
  home : Nat := 0
  deriving DecidableEq, Repr

/-- A table operation as far as it has come: the block, the lanes' results, the groups pending spill (representative, key,
value). -/
structure HRun where
  B : Block
  res : List HRes := []
  pend : List (Nat × DWord × DWord) := []

/-- Results of the lanes of a group: the representative's, and the others'. -/
def groupRes (lanes : List Nat) (first other : Word) : List HRes :=
  match lanes with
  | [] => []
  | r :: rest => ⟨r, first, 0, 0⟩ :: rest.map fun j => ⟨j, other, 0, 0⟩

/-- A key group acts. `val` gives each lane's value operand. -/
def HRun.act (x : HRun) (c : Churn) (f : HForm) (key : DWord) (lanes : List Nat) (val : Nat → DWord) : HRun :=
  let B := x.B
  let e := B.findKey c key
  let r := lanes.headD 0
  match f with
  | .ins vs =>
    match e with
    | some p => { x with res := x.res ++ groupRes lanes (statusWord 1 (some p)) (statusWord 1 (some p)) }
    | none =>
      match B.findFree c key with
      | some p =>
        { x with B := (B.putKey c p key).putValue c p (placeVal vs (val r)),
                 res := x.res ++ groupRes lanes (statusWord 0 (some p)) (statusWord 1 (some p)) }
      | none =>
        { x with res := x.res ++ (groupRes lanes 0 (statusWord 1 none)).drop 1,
                 pend := x.pend ++ [(r, key, placeVal vs (val r))] }
  | .prb =>
    let h := homeBucket c.bits key
    { x with res := x.res ++ lanes.map fun j => match e with
        | some p => ⟨j, statusWord 0 (some p), B.valueAt c p, h⟩
        | none => ⟨j, statusWord 2 none, 0, h⟩ }
  | .del =>
    match e with
    | some p =>
      { x with B := (B.putKey c p tombKey).putValue c p 0,
               res := x.res ++ groupRes lanes (statusWord 0 (some p)) (statusWord 2 none) }
    | none => { x with res := x.res ++ groupRes lanes (statusWord 2 none) (statusWord 2 none) }
  | .acc vs op ty =>
    let v := (lanes.drop 1).foldl (fun a j => accEval op ty a (val j)) (val r)
    match e with
    | some p =>
      let old := B.valueAt c p
      { x with B := B.putValue c p (putHalf vs old (accEval op ty (halfOf vs old) v)),
               res := x.res ++ groupRes lanes (statusWord 0 (some p)) (statusWord 6 (some p)) }
    | none =>
      match B.findFree c key with
      | some p =>
        { x with B := (B.putKey c p key).putValue c p (placeVal vs v),
                 res := x.res ++ groupRes lanes (statusWord 0 (some p)) (statusWord 6 (some p)) }
      | none =>
        { x with res := x.res ++ (groupRes lanes 0 (statusWord 6 none)).drop 1,
                 pend := x.pend ++ [(r, key, placeVal vs v)] }

/-- The lanes of a table operation by key: groups in ascending order of their lowest lane (R164). -/
def keyGroups (ls : List (Nat × DWord)) : List (DWord × List Nat) :=
  (ls.map (·.2)).reverse.dedup.reverse.map fun k => (k, (ls.filter (·.2 == k)).map (·.1))

/-- A table operation of one warp, R163, R164. -/
def tableOp (B : Block) (c : Churn) (f : HForm) (ls : List (Nat × DWord)) (val : Nat → DWord) : HRun :=
  let bad := (ls.filter fun x => !isLiveKey x.2).map fun x => (⟨x.1, statusWord 5 none, 0, 0⟩ : HRes)
  (keyGroups (ls.filter fun x => isLiveKey x.2)).foldl (fun x g => x.act c f g.1 g.2 val) { B := B, res := bad }

/-- Does a form read the value of the entry that it finds? -/
def HForm.readsValue : HForm → Bool
  | .prb | .acc _ _ _ => true
  | .ins _ | .del => false

/-- The words that a form reads for a key: its window's keys, and, where it reads values, that of an entry that holds the
key (R160). -/
def Block.scanBad (B : Block) (c : Churn) (f : HForm) (key : DWord) : Option Nat :=
  (windowOf c.bits key).findSome? fun p =>
    (B.badIn (c.place p) 8).or (if f.readsValue && B.keyAt c p == key then B.badIn (c.place p + 8) 8 else none)

/-! ## Claiming, R165, R166, R170 -/

/-- The fields of ctl. -/
def ctlOff (ctl : Nat) : Nat := ctl % 2 ^ 9
def ctlK (ctl : Nat) : Nat := ctl / 2 ^ 16 % 16

/-- Is the claim held the one asked for? -/
def Churn.same (c : Churn) (ctl : Nat) (hdr : DWord) : Bool :=
  c.off == 1024 * ctlOff ctl && c.k == ctlK ctl && c.hdr == hdr

/-- Checks 1 to 5 of R170. -/
def claimOk (B : Block) (ctl : Nat) (hdr : DWord) : Bool :=
  let k := ctlK ctl
  ctl % 2 ^ 16 / 2 ^ 9 == 0 && ctl / 2 ^ 20 == 0 && decide (k ≤ 8) && ctlOff ctl % 2 ^ k == 0 &&
    decide (1024 * 2 ^ k ≤ B.churnSize) && decide (1024 * (ctlOff ctl + 2 ^ k) ≤ B.lsSize) &&
    (match B.churn with
      | some c => c.same ctl hdr
      | none => true)

/-- The trap that checks 1 to 5 of R170, and then the header's alignment, raise in a warp. -/
def claimTrap (B : Block) (w ctl : Nat) (hdr : DWord) : Option Raise :=
  if !claimOk B ctl hdr then some ⟨w, .churn, BitVec.ofNat 64 ctl, 0, false⟩
  else if hdr.toNat % 64 ≠ 0 then some ⟨w, .align, hdr, 0, false⟩
  else none

/-- A claim is held: each warp of the group repeats it or traps, and the group waits at the next word while the region is
cleared (R165). -/
def State.claimRest (s : State) (g : Nat) (gr : Group) (ws : List Nat) (ctl : Nat → Nat) (hdr : Nat → DWord) : Out :=
  s.raising g gr (ws.filterMap fun w => claimTrap (s.block gr.block) w (ctl w) (hdr w)) fun gr s =>
    if ws.any gr.warpIds.contains && ((s.block gr.block).churn.map (·.clearing)).getD false then
      .next ((s.parkGroup g .claim { passed := true }).modGroup g fun x => { x with pc := gr.next })
    else .next (s.retire g gr)

/-- The warps that a trap has left in the group execute their instruction again from its beginning. -/
def State.again (s : State) (g : Nat) (gr : Group) : State := s.parkGroup g .run { gr.memo with asked := true }

/-- HC.CLAIM: once for each warp with a thread lane, ascending (R170). The first warp claims where no claim is held; the
others then find its claim. -/
def execHcClaim (o : UOps) (s : State) : Out :=
  issueUni s (usrcS o.a 2 ++ usrcS o.b 1) fun g gr s =>
    let ws := gr.warpIds.filter fun w => (gr.lanesOf w).any fun l => s.isLive (w, l)
    let hdr (w : Nat) : DWord := usrc64 (s.warp w) o.a
    let ctl (w : Nat) : Nat := (usrc32 (s.warp w) o.b).toNat
    match (s.block gr.block).churn, ws with
    | none, w :: _ =>
      match claimTrap (s.block gr.block) w (ctl w) (hdr w) with
      | some r => s.raising g gr [r] fun gr s => .next (s.again g gr)
      | none =>
        let lead := ((gr.lanesOf w).find? fun l => s.isLive (w, l)).getD 0
        let acc : Acc := ⟨w, lead, hdr w, { rd := true }⟩
        reading s g gr (if hdr w = 0 then [] else [acc]) 2 1 fun gr word s =>
          let base := if hdr w = 0 then 0 else word acc 0
          let limit := if hdr w = 0 then 0 else (word acc 1).toNat
          if !gr.warpIds.contains w then .next (s.again g gr)
          else if base.toNat % 32 ≠ 0 then
            s.raising g gr [⟨w, .align, base, 0, false⟩] fun gr s => .next (s.again g gr)
          else
            let (id, s) := s.newId
            let c : Churn := { off := 1024 * ctlOff (ctl w), k := ctlK (ctl w), hdr := hdr w, base, limit, id }
            (s.modBlock gr.block fun B => { B with churn := some c }).claimRest g gr ws ctl hdr
    | _, _ => s.claimRest g gr ws ctl hdr

/-- CHURN_CLEAR_DONE (R165): every KEY of the region is EMPTY and every VALUE 0. -/
def execChurnClearDone (block : Nat) (s : State) : Out :=
  let B := s.block block
  match B.churn with
  | some c =>
    if c.clearing then
      let B := (List.range (8 * 2 ^ c.bits)).foldl (fun B p =>
        let q : SlotAt := ⟨p / 8, p % 8, 0⟩
        (B.putKey c q emptyKey).putValue c q 0) B
      let s := s.setBlock block { B with churn := some { c with clearing := false } }
      .next (s.groups.foldl (fun s e =>
        if e.2.block = block ∧ e.2.park = .claim ∧ e.2.memo.passed then
          if e.2.pc = e.2.clauseEnd then s.endClause e.1 e.2 fun _ => (e.2.clauseEnd, none)
          else s.modGroup e.1 fun gr => { gr with park := .run, memo := {} }
        else s) s)
    else .refused .notEnabled
  | none => .refused .notEnabled

/-- Does a group wait inside an H instruction that has issued? -/
def Group.inTable (gr : Group) : Bool :=
  gr.park != .run && gr.park != .helpers && (match decode gr.rest with
    | .ok (.hIns _ _ _) _ | .ok (.hPrb _ _) _ | .ok (.hDel _ _) _ | .ok (.hAcc _ _ _ _ _) _ | .ok (.hDrn _ _ _) _
    | .ok (.hSta _) _ => true
    | _ => false)

/-- Is a group another part of a split (R296) that has still to reach this one's word? A part whose lanes wait for a monitor
would do so unsplit. -/
def Group.behind (gr x : Group) : Bool :=
  gr.split != 0 && x.split == gr.split && decide (x.pc.toNat < gr.pc.toNat) && (match x.park with
    | .monitor _ | .condition _ | .release => false
    | _ => true)

/-- Must HC.FREE wait: a region is being cleared, a table operation that issued before has still to act (R166), or one that
stands before it in its clause, in a part of a split, which changes no lane's results (R296)? -/
def State.freeWaits (s : State) (gr : Group) : Bool :=
  ((s.block gr.block).churn.map (·.clearing)).getD false ||
    s.groups.any fun e => e.2.block == gr.block && (e.2.inTable || gr.behind e.2)

/-- HC.FREE, R166: the table operations that issued before it are done first; their spills go on. -/
def execHcFree (s : State) : Out :=
  issueUni s [] fun g gr s =>
    if s.freeWaits gr then .next (s.parkGroup g .claim { gr.memo with asked := true })
    else .next ((s.modBlock gr.block fun B => { B with churn := none }).retire g gr)

/-! ## The Spillway, R167 -/

/-- OPW of a record. -/
def opWord (f : HForm) : Nat :=
  let v : Vs → Nat
    | .v64 => 0
    | .lo => 1
    | .hi => 2
  match f with
  | .ins vs => 2 * v vs
  | .acc vs op ty =>
    1 + 2 * v vs + 8 * (match op with
      | .add => 0
      | .min => 1
      | .max => 2) + 32 * (match ty with
      | .i32 => 0
      | .i64 => 1
      | .f32 => 2)
  | .prb | .del => 0

/-- Count results of a claim, where it is still held; counts saturate (R172). -/
def State.countSpills (s : State) (block claim spilled full : Nat) : State :=
  s.modBlock block fun B => match B.churn with
    | some c =>
      if c.id = claim then
        { B with churn := some { c with spilled := min (c.spilled + spilled) 0xFFFFFFFF, full := min (c.full + full) 0xFFFFFFFF } }
      else B
    | none => B

/-- The groups left pending by a table operation of a warp: FULL without a Spillway, else an atomic on TAIL whose return
decides. `pa` is the header's physical address. DEDUCED, log 37. -/
def State.spillOff (s : State) (gr : Group) (w lead : Nat) (o : Ops) (f : HForm) (fs : Bool) (c : Churn)
    (pa : Option Nat) (pend : List (Nat × DWord × DWord)) : State :=
  if pend = [] then s
  else
    let s := s.count gr.core gr.sub 0x0D pend.length (s.block gr.block).ctx
    match pa with
    | none =>
      let s := pend.foldl (fun s p => s.modLane w p.1 (·.putD o.d (statusWord 4 none))) s
      s.countSpills gr.block c.id 0 pend.length
    | some pa =>
      let W := s.warp w
      let tag (r : Nat) : DWord := BitVec.ofNat 64 (opWord f + 2 ^ 32 * (r + 2 ^ 5 * W.num + 2 ^ 10 * gr.core))
      let (work, s) := s.attach gr w fs 2
      let (k, s) := s.newId
      let x : Spill :=
        { work, warp := w, block := gr.block, claim := c.id, recs := pend.map fun p => (p.1, p.2.1, p.2.2, tag p.1),
          dsts := match Dst.vreg o.d with
            | some d => pend.map fun p => (p.1, d)
            | none => [],
          core := gr.core, base := c.base, limit := c.limit }
      let s := { s with spills := s.spills.set k x }
      s.startOp
        { work, warp := w, lane := lead, core := gr.core, agent := gr.core, ctx := (s.block gr.block).ctx,
          act := .at_ .add false, pol := .thru, pa := pa + 16, len := 8, val := BitVec.ofNat 64 pend.length,
          vpage := c.hdr.toNat / 4096, va := c.hdr + 16, spill := some k }

/-- Where the records of a spill go: the physical address of each that is written; or a walk that is needed first. -/
def State.spillPlaces (s : State) (x : Spill) (t : Nat) : List (Option Nat) × List (DWord × Nat × Nat × Bool) :=
  let ctx := (s.block x.block).ctx
  let look (i : Nat) : Option Nat × Option (DWord × Nat × Nat × Bool) :=
    let va := x.base + BitVec.ofNat 64 (32 * (t + i))
    if x.limit ≤ t + i then (none, none)
    else
      match s.walkFault x.walks ctx va { wr := true } with
      | some _ => (none, none)
      | none =>
        match s.look ctx va { wr := true } with
        | .pa a => (some a, none)
        | .config _ | .fault _ => (none, none)
        | .walk l tb f => (none, some (va, l, tb, f))
  let rs := (List.range x.recs.length).map look
  (rs.map (·.1), rs.filterMap (·.2))

/-- A store of 8 bytes of a record, THRU. -/
def State.recordOp (s : State) (spill : Nat) (x : Spill) (lane pa : Nat) (va : DWord) (val : DWord) : State :=
  s.startOp
    { work := x.work, warp := x.warp, lane, part := some spill, core := x.core, agent := x.core, ctx := (s.block x.block).ctx, act := .st,
      pol := .thru, pa, len := 8, val, vpage := va.toNat / 4096, va }

/-- SPILL_ATOMIC_RETURN (R167): the old TAIL is known; records below LIMIT whose address translates are stored, and every
group gets its status. Where an address needs a walk, the walk begins, and the records follow it. DEDUCED, log 37. -/
def execSpillAtomicReturn (spill : Nat) (s : State) : Out :=
  match s.spills.get? spill with
  | none => .refused .notEnabled
  | some x =>
    match x.tail with
    | none => .refused .notEnabled
    | some t =>
      if x.walks.any fun k => match s.walks.get? k with
        | some w => w.fault.isNone
        | none => false
      then .refused .notEnabled
      else
        let (places, misses) := s.spillPlaces x t
        if misses ≠ [] then
          let r := misses.foldl (fun (r : State × List Nat) m =>
            let (k, s) := r.1.startWalk (s.block x.block).ctx m.1 { wr := true } m.2.1 m.2.2.1 m.2.2.2
            (s, k :: r.2)) (s.dropWalks x.walks, [])
          .next { r.1 with spills := r.1.spills.set spill { x with walks := r.2 } }
        else
          let s := s.dropWalks x.walks
          let s := { s with spills := s.spills.del spill }
          let recs := x.recs.zip places
          let n := (recs.filter fun e => e.2.isSome).length
          let s := { s with works := s.works.modify x.work fun y => { y with left := y.left + 4 * n } }
          let s := ((List.range recs.length).zip recs).foldl (fun s e =>
            let r := e.2.1
            let va := x.base + BitVec.ofNat 64 (32 * (t + e.1))
            match e.2.2 with
            | some pa =>
              let put (s : State) (i : Nat) (v : DWord) : State := s.recordOp spill x r.1 (pa + i) va v
              put (put (put (put s 0 r.2.1) 8 r.2.2.1) 16 r.2.2.2) 24 0
            | none => s) s
          let s := recs.foldl (fun s e =>
            match x.dsts.find? fun d => d.1 == e.1.1 with
            | some d => s.modLane x.warp d.1 (·.setV d.2 (statusWord (if e.2.isSome then 3 else 4) none))
            | none => s) s
          let s := s.countSpills x.block x.claim n (recs.length - n)
          .next ((s.workDone x.work).releaseQuarters x.warp)

/-! ## The H forms -/

/-- The key of a lane. -/
def hKey (W : Warp) (L : Lane) (o : Ops) : DWord := src64 W L o.a

/-- The traps of LSECC before a table operation, with the lowest failing lane's word. -/
def State.hEcc (s : State) (gr : Group) (o : Ops) (f : HForm) (c : Churn) : List Raise :=
  let B := s.block gr.block
  gr.warpIds.filterMap fun w =>
    ((s.execThreads gr o.pr).filter (·.1 == w)).findSome? fun x =>
      let W := s.warp w
      let k := hKey W (W.lane x.2) o
      if isLiveKey k then (B.scanBad c f k).map fun a => ⟨w, .lsecc, BitVec.ofNat 64 (8 * a), 0, false⟩ else none

/-- CHURN where no region is claimed, R165. -/
def State.noClaim (s : State) (gr : Group) (p : Pred) : List Raise :=
  ((s.execThreads gr p).map (·.1)).dedup.map fun w => ⟨w, .churn, 0, 0, false⟩

/-- What the table operations of a group's warps do, one after another: the block they leave, each warp's results, and the
traps of those that would touch a poisoned header (R205). -/
structure HPlan where
  B : Block
  runs : List (Nat × HRun) := []
  traps : List Raise := []

/-- The table operation of one more warp, over the lanes that execute it; `poison` says that its header is poisoned. -/
def State.planWarp (s : State) (c : Churn) (f : HForm) (o : Ops) (val : Warp → Lane → DWord) (lanes : Nat → List Nat)
    (poison : Nat → Bool) (p : HPlan) (w : Nat) : HPlan :=
  let W := s.warp w
  let x := tableOp p.B c f ((lanes w).map fun l => (l, hKey W (W.lane l) o)) fun l => val W (W.lane l)
  if x.pend ≠ [] ∧ poison w then { p with traps := p.traps ++ [⟨w, .prot, c.hdr + 16, 0, true⟩] }
  else { p with B := x.B, runs := p.runs ++ [(w, x)] }

/-- H.INS, H.PRB, H.DEL and H.ACC. Those that may spill translate the header when they issue. DEDUCED, log 37. -/
def tableForm (o : Ops) (wd : Widths) (f : HForm) (fs : Bool) (val : Warp → Lane → DWord)
    (put : HRes → Lane → Lane) (s : State) : Out :=
  issueLane s false o wd fun g gr s =>
    let spills := match f with
      | .ins _ | .acc _ _ _ => true
      | .prb | .del => false
    match (s.block gr.block).churn with
    | none => s.raising g gr (s.noClaim gr o.pr) fun gr s => .next ((s.zeroHelpers gr o wd.d).retire g gr)
    | some c =>
      if c.clearing then .next (s.parkGroup g .claim gr.memo)
      else
        let lead (w : Nat) : Nat := (s.leadOf gr o.pr w).getD 0
        let ws := ((s.execThreads gr o.pr).map (·.1)).dedup
        let accs := if spills && c.hdr != 0 then
            ws.map fun w => (⟨w, lead w, c.hdr, { rd := true, wr := true }⟩ : Acc)
          else []
        accessing s g gr accs 1 (fun h => if h.isReg then some .prot else none) fun gr hits s =>
          -- whether the header's line is poisoned or lost is learned from its home, where that is another chip
          colouring s g gr (hits.filter (·.isDev)) (fun _ => false) (prot := fun _ _ => false) (plain := true) fun gr s =>
          s.raising g gr (s.hEcc gr o f c) fun gr s =>
            let hits := hits.filter fun h => gr.warpIds.contains h.acc.w
            let hit (w : Nat) : Option Hit := hits.find? fun h => h.acc.w == w
            let lanes (w : Nat) : List Nat := ((s.execThreads gr o.pr).filter (·.1 == w)).map (·.2)
            let poison (w : Nat) : Bool := ((hit w).map fun h => s.poisoned h || gr.told h != 0).getD false
            let p := (ws.filter gr.warpIds.contains).foldl (s.planWarp c f o val lanes poison) { B := s.block gr.block }
            let attaching := (p.runs.filter fun r => r.2.pend != [] && (hit r.1).isSome).map (·.1)
            let s := if p.traps = [] then s
              else s.reportPoison (s.block gr.block).ctx (hits.filterMap fun h =>
                if s.poisoned h || gr.told h == 1 then some (h.pa / 128) else none)
            s.raising g gr p.traps fun gr s =>
              if attaching ≠ [] ∧ s.busyLines gr.core hits ≠ [] then
                .next (s.parkGroup g (.lines gr.core (s.busyLines gr.core hits)) gr.memo)
              else if Group.flagFull s gr fs attaching then
                .next (s.parkGroup g (.flag ((gr.flag fs).getD 0)) gr.memo)
              else
                let s := s.setBlock gr.block p.B
                let s := p.runs.foldl (fun s r =>
                  let s := r.2.res.foldl (fun s x => s.modLane r.1 x.lane (put x)) s
                  s.spillOff gr r.1 (lead r.1) o f fs c ((hit r.1).map (·.pa)) r.2.pend) s
                .next ((s.zeroHelpers gr o wd.d).retire g gr)

/-- The value operand of INS and ACC. -/
def hVal (vs : Vs) (W : Warp) (L : Lane) (o : Ops) : DWord :=
  match vs with
  | .v64 => src64 W L o.b
  | .lo | .hi => (src32 W L o.b).setWidth 64

def execHIns (o : Ops) (vs : Vs) (fs : Bool) (s : State) : Out :=
  tableForm o ⟨1, 2, vsWidth vs, 1, false, []⟩ (.ins vs) fs (fun W L => hVal vs W L o) (fun r L => L.putD o.d r.status) s

def execHPrb (o : Ops) (fs : Bool) (s : State) : Out :=
  tableForm o ⟨4, 2, 1, 1, false, []⟩ .prb fs (fun _ _ => 0) (fun r L =>
    match o.d with
    | .v n => ((L.setV64 n.val r.value).setV (n.val + 2) r.status).setV (n.val + 3) (BitVec.ofNat 32 r.home)
    | .s _ | .p _ | .none => L) s

def execHDel (o : Ops) (fs : Bool) (s : State) : Out :=
  tableForm o ⟨1, 2, 1, 1, false, []⟩ .del fs (fun _ _ => 0) (fun r L => L.putD o.d r.status) s

def execHAcc (o : Ops) (vs : Vs) (op : AccOp) (ty : AccTy) (fs : Bool) (s : State) : Out :=
  tableForm o ⟨1, 2, vsWidth vs, 1, false, []⟩ (.acc vs op ty) fs (fun W L => hVal vs W L o)
    (fun r L => L.putD o.d r.status) s

/-! ## H.DRN, H.STA -/

/-- The next live entry at a position or after it, R172. -/
def Block.nextLive (B : Block) (c : Churn) (p : Nat) : Option Nat :=
  ((List.range (8 * 2 ^ c.bits)).drop p).find? fun q => isLiveKey (B.keyAt c ⟨q / 8, q % 8, 0⟩)

/-- What H.DRN emits for so many lanes from a position: the entries' positions, and the cursor left. -/
def Block.drain (B : Block) (c : Churn) : Nat → Nat → List (Option Nat) × Nat
  | 0, p => ([], p)
  | n + 1, p =>
    match B.nextLive c p with
    | some q => let r := B.drain c n (q + 1); (some q :: r.1, r.2)
    | none => let r := B.drain c n (8 * 2 ^ c.bits); (none :: r.1, r.2)

/-- The first word with an error among those that a drain reads: keys from the cursor to its end, and the values of what it
emits. -/
def Block.drainBad (B : Block) (c : Churn) (p : Nat) (out : List (Option Nat) × Nat) : Option Nat :=
  ((List.range (min out.2 (8 * 2 ^ c.bits))).drop p).findSome? fun q =>
    let x : SlotAt := ⟨q / 8, q % 8, 0⟩
    (B.badIn (c.place x) 8).or (if out.1.contains (some q) then B.badIn (c.place x + 8) 8 else none)

/-- The cursor's s register. -/
def cursorReg (o : Ops) : Nat :=
  match o.a with
  | .s n => n.val
  | .v _ | .k _ | .lit _ | .none => 0

def execHDrn (o : Ops) (clr _fs : Bool) (s : State) : Out :=
  issueLane s false o ⟨4, 1, 1, 1, false, []⟩ fun g gr s =>
    match (s.block gr.block).churn with
    | none => s.raising g gr (s.noClaim gr o.pr) fun gr s => .next ((s.zeroHelpers gr o 4).retire g gr)
    | some c =>
      if c.clearing then .next (s.parkGroup g .claim gr.memo)
      else
        let ex (s : State) (gr : Group) (w : Nat) : List Nat := ((s.execThreads gr o.pr).filter (·.1 == w)).map (·.2)
        let start (s : State) (w : Nat) : Nat := ((s.warp w).getS (cursorReg o)).toNat
        let ws := gr.warpIds.filter fun w => ex s gr w != []
        -- each warp's operation finds the table as the one before it left it
        let r := ws.foldl (fun (r : State × List Raise) w =>
          let s := r.1
          let B := s.block gr.block
          let ls := ex s gr w
          let out := B.drain c ls.length (start s w)
          match B.drainBad c (start s w) out with
          | some a => (s, r.2 ++ [⟨w, .lsecc, BitVec.ofNat 64 (8 * a), 0, false⟩])
          | none =>
            let s := (ls.zip out.1).foldl (fun s e =>
              let (key, value) := match e.2 with
                | some q => (B.keyAt c ⟨q / 8, q % 8, 0⟩, B.valueAt c ⟨q / 8, q % 8, 0⟩)
                | none => (emptyKey, 0)
              s.modLane w e.1 fun L => match o.d with
                | .v n => (L.setV64 n.val key).setV64 (n.val + 2) value
                | .s _ | .p _ | .none => L) s
            let B := if clr then out.1.foldl (fun B q => match q with
                | some q => (B.putKey c ⟨q / 8, q % 8, 0⟩ emptyKey).putValue c ⟨q / 8, q % 8, 0⟩ 0
                | none => B) B
              else B
            let s := s.setBlock gr.block B
            (s.modWarp w fun W => W.setS (cursorReg o) (BitVec.ofNat 32 out.2), r.2)) (s, [])
        r.1.raising g gr r.2 fun gr s => .next ((s.zeroHelpers gr o 4).retire g gr)

/-- H.STA's value, R172. -/
def Block.statValue (B : Block) (sel : Nat) : Word :=
  match B.churn with
  | none => 0
  | some c =>
    let keys := (List.range (8 * 2 ^ c.bits)).map fun q => B.keyAt c ⟨q / 8, q % 8, 0⟩
    BitVec.ofNat 32 (match sel with
      | 0 => (keys.filter isLiveKey).length
      | 1 => (keys.filter (· == tombKey)).length
      | 2 => c.spilled
      | 3 => c.full
      | 4 => c.off / 1024 + 2 ^ 16 * c.k + 2 ^ 31
      | _ => 0)

def execHSta (o : Ops) (s : State) : Out :=
  issueLane s false o {} fun g gr s =>
    match (s.block gr.block).churn with
    | some { clearing := true, .. } => .next (s.parkGroup g .claim gr.memo)
    | some _ | none =>
      let B := s.block gr.block
      let s := s.eachLane (s.execThreads gr o.pr) fun W _ L => L.putD o.d (B.statValue (src32 W L o.a).toNat)
      .next ((s.zeroHelpers gr o 1).retire g gr)

end Sys2Proof.Machine
end

