-- ==== Sys2Proof/Machine/Monitors.lean ====
section
/-! DEFINITION. Fences' conditions (09_lines_policies R238, 10_ordering R246), releases, grants and waits of monitors, the
C family and UC.SET (11_colours_monitors). -/

namespace Sys2Proof.Machine

/-! ## What a fence waits for -/

/-- Is an access still to be performed in the L1, put on its path, or returned, R238 CORE and R246? -/
def Op.beforeCore (op : Op) : Bool :=
  match op.act with
  | .st => op.stage == .waiting
  | .rd _ _ => op.stage == .waiting || op.pol == .own
  | .ld _ | .at_ _ _ | .pre | .refill _ _ => true
  | .engine _ _ => false

/-- Is a spill of these lanes still to store its records, R167? -/
def State.spilling (s : State) (who : List (Nat × Nat)) : Bool :=
  s.spills.any fun e => who.any fun x => x.1 == e.2.warp && e.2.recs.any fun r => r.1 == x.2

/-- The conditions of FN.FENCE.CORE for lanes of a warp. DESIGN CHOICE, log 17. -/
def State.fencedCore (s : State) (who : List (Nat × Nat)) : Bool :=
  s.ops.all (fun e => !(who.contains (e.2.warp, e.2.lane) && e.2.beforeCore)) &&
  s.remotes.all (fun e => !who.contains (e.2.warp, e.2.lane)) && !s.spilling who &&
  s.cmds.all fun e => !(who.any (·.1 == e.2.warp) && e.2.want != [])

/-- The conditions of the wider scopes: everything applied, the lanes' partials and those that the fence pushed folded,
sr.time past sr.gwct. Writes to the host are accesses in flight until it has answered, so SYSTEM asks for no more. -/
def State.fencedWide (s : State) (core : Nat) (who : List (Nat × Nat)) (pushes : List Nat) : Bool :=
  s.ops.all (fun e => !who.contains (e.2.warp, e.2.lane)) &&
  s.remotes.all (fun e => !who.contains (e.2.warp, e.2.lane)) && !s.spilling who &&
  s.cmds.all (fun e => !(who.any (·.1 == e.2.warp) && e.2.want != [])) &&
  !s.partialOf who.contains && pushes.all s.foldedIn &&
  (who.map (·.1)).dedup.all fun w => decide ((s.warp w).gwct ≤ s.timeAt core)

def State.fenced (s : State) (scope : Scope) (core : Nat) (who : List (Nat × Nat)) (pushes : List Nat) : Bool :=
  match scope with
  | .core => s.fencedCore who
  | .die | .package | .fabric | .system => s.fencedWide core who pushes

/-- The partials of a core that are on their way. -/
def State.pushedBy (s : State) (core : Nat) : List Nat :=
  s.pushedIds.filter fun k => ((s.msgs.get? k).map (·.src)) == some core

/-- A group begins to wait for its lanes' earlier work; the wider scopes push the core's partials first (R238). -/
def State.beginFence (s : State) (g : Nat) (gr : Group) (p : Park) (wide : Bool) (who : List (Nat × Nat)) : State :=
  let s := if wide then s.pushAll gr.core else s
  s.parkGroup g p { gr.memo with who := who, pushes := if wide then s.pushedBy gr.core else [] }

/-- FENCE_COMPLETE: what the group's fence waits for holds (R238). -/
def execFenceComplete (g : Nat) (s : State) : Out :=
  match s.groups.get? g with
  | some gr =>
    match gr.park with
    | .fence scope =>
      if s.fenced scope gr.core gr.memo.who gr.memo.pushes then
        .next (s.modGroup g fun gr => { gr with park := .run, memo := { gr.memo with fenced := true } })
      else .refused .notEnabled
    | _ => .refused .notEnabled
  | none => .refused .notEnabled

/-! ## Releases -/

/-- May the release complete, R268? DESIGN CHOICE, log 17. -/
def State.relDone (s : State) (r : Rel) : Bool :=
  let core := (s.warp r.warp).core
  r.ops.all (fun k => (s.ops.get? k).isNone) && r.cmds.all (fun k => (s.cmds.get? k).isNone) &&
    s.cmds.all (fun e => !(e.2.warp == r.warp && e.2.want != [])) &&
    r.pushes.all s.foldedIn && r.spills.all (fun k => (s.spills.get? k).isNone && s.ops.all fun e => e.2.part != some k) &&
    s.remotes.all (fun e => e.2.warp != r.warp) && decide ((s.warp r.warp).gwct ≤ s.timeAt core)

/-- A record's monitor is free for its next holder; a waiter keeps its slot's DEPTH (R268, R272). -/
def Mon.freed (m : Mon) (who : Tid) (depth : Nat) (wait : Option (Option Nat)) : Mon :=
  let m := if m.holder = some who then { m with holder := none } else m
  match wait with
  | some d => { m with condQ := m.condQ ++ [⟨who, d, depth⟩] }
  | none => m

/-- Free a lane's monitor, at its record. -/
def State.freeMonitor (s : State) (ctx colour : Nat) (w l depth : Nat) (wait : Option (Option Nat)) : State :=
  if s.monHome ctx colour = s.chip then s.setMon ctx colour ((s.mon ctx colour).freed (.here w l) depth wait)
  else
    s.fabric (s.monHome ctx colour) (.mon ctx colour (match wait with
      | some d => .wait (monId w l) depth d
      | none => .free (monId w l)))

/-- COLOUR_RELEASE_COMPLETE: the highest colour of a release is free; the next one follows, highest first, with waits of its
own (R267, R268). C.WAIT's time runs from here (R272). -/
def execColourReleaseComplete (rel : Nat) (s : State) : Out :=
  match s.rels.get? rel with
  | none => .refused .notEnabled
  | some r =>
    match r.colours with
    | [] => .refused .notEnabled
    | c :: rest =>
      if s.relDone r then
        let depth := (((s.lane r.warp r.lane).slots.find? fun x => x.colour == c).map (·.depth)).getD 0
        let wait := r.wait.map fun ns => ns.map (s.timeAt (s.warp r.warp).core + ·)
        let s := s.freeMonitor r.ctx c r.warp r.lane depth wait
        let s := s.modLane r.warp r.lane fun L => { L with slots := L.slots.filter fun x => x.colour != c }
        if rest = [] then
          let s := { s with rels := s.rels.del rel }
          match r.group with
          | some g =>
            match r.wait with
            | some _ => .next (s.modGroup g fun gr => { gr with park := .condition c })
            | none =>
              if s.rels.any fun e => e.2.group == some g then .next s
              else .next (s.modGroup g fun gr => { gr with park := .run })
          | none => .next s
        else
          let (r, s) := s.relWaits { r with colours := rest } (rest.headD 0)
          .next { s with rels := s.rels.set rel r }
      else .refused .notEnabled

/-- A queued lane is granted its monitor, and resumes in a group of its own (R271, R272); `back` is a former waiter's
DEPTH, and whether it was notified. -/
def State.resumeGranted (s : State) (ctx colour w l : Nat) (back : Option (Nat × Bool)) : State :=
  let s := s.acquire ctx colour w l ((back.map (·.1)).getD (s.lane w l).depth)
  match (s.lane w l).entry with
  | .group g =>
    s.modGroup g fun gr => { gr with
      park := .run, memo := { gr.memo.parted with passed := back.isSome, notified := (back.map (·.2)).getD false } }
  | .runnable | .flagBlocked _ | .fetching _ | .napping _ | .yielded _ | .trapped | .gone => s

/-- MONITOR_GRANT: a free monitor goes to the head of its entry queue (R271, R272). -/
def execMonitorGrant (ctx colour : Nat) (s : State) : Out :=
  let m := s.mon ctx colour
  match m.holder, m.entryQ with
  | none, e :: rest =>
    let s := s.setMon ctx colour { m with holder := some e.who, entryQ := rest }
    match e.who with
    | .remote c id => .next (s.fabric c (.monAns ctx colour (.granted id e.back)))
    | .here w l => .next (s.resumeGranted ctx colour w l e.back)
  | _, _ => .refused .notEnabled

/-- Move waiters of a condition queue to the tail of the entry queue, R272. -/
def Mon.notify (m : Mon) (ws : List Waiter) (notified : Bool) : Mon :=
  { m with condQ := m.condQ.filter (fun x => !ws.contains x),
           entryQ := m.entryQ ++ ws.map fun x => ⟨x.who, some (x.depth, notified)⟩ }

/-- The thread that an event names: a warp of this chip, or, from 2^32 on, a thread of another chip by its number. -/
def tidOf (w l : Nat) : Tid := if w < 2 ^ 32 then .here w l else .remote (w / 2 ^ 32 - 1) (monId (w % 2 ^ 32) l)

/-- WAIT_DEADLINE: a waiter's deadline has passed in global time (R272). -/
def execWaitDeadline (ctx colour w l : Nat) (s : State) : Out :=
  let m := s.mon ctx colour
  match m.condQ.find? fun x => x.who == tidOf w l with
  | some x =>
    match x.deadline with
    | some d =>
      if d ≤ s.time then .next (s.setMon ctx colour (m.notify [x] false)) else .refused .notEnabled
    | none => .refused .notEnabled
  | none => .refused .notEnabled

/-! ## Records on other chips, R276 -/

/-- Another chip asks something of a monitor's record here, R271, R272, R277. DEDUCED, log 76. -/
def State.monAsked (s : State) (chip ctx colour : Nat) (r : MonReq) : State :=
  let m := s.mon ctx colour
  let answer (s : State) (a : MonAns) : State := s.fabric chip (.monAns ctx colour a)
  match r with
  | .ask id =>
    if m.holder = none ∧ m.entryQ = [] then
      if (s.mons.get? (monKey ctx colour)).isNone ∧ (s.ctx ctx).mtn < s.monCount ctx + 1 then answer s (.full id)
      else answer (s.setMon ctx colour { m with holder := some (.remote chip id) }) (.granted id none)
    else answer (s.setMon ctx colour { m with entryQ := m.entryQ ++ [⟨.remote chip id, none⟩] }) (.queued id)
  | .free id => s.setMon ctx colour (m.freed (.remote chip id) 0 none)
  | .wait id depth d => s.setMon ctx colour (m.freed (.remote chip id) depth (some d))
  | .notify all => s.setMon ctx colour (m.notify (if all then m.condQ else m.condQ.take 1) true)
  | .leave id =>
    let gone (x : Tid) : Bool := x == .remote chip id
    s.setMon ctx colour { m with
      entryQ := m.entryQ.filter fun x => !gone x.who, condQ := m.condQ.filter fun x => !gone x.who }

/-- A lane's request of a record on another chip is lost, R363: PROT at its access, or, in C.WAIT, with the colour as TAD.
DESIGN CHOICE, log 55. -/
def State.monLost (s : State) (colour w l : Nat) : State :=
  match (s.lane w l).entry with
  | .group g =>
    match s.groups.get? g with
    | some gr =>
      let bad : Memo := { gr.memo with bad := gr.memo.bad.set (monId w l) 0 }
      if gr.memo.asks.contains (w, l, colour) then
        s.modGroup g fun x => { x with memo := { bad with
          waiting := bad.waiting - 1, asks := bad.asks.filter (· != (w, l, colour)),
          colours := bad.colours.set (monId w l) 0 } }
      else if gr.park = .monitor colour then
        s.modGroup g fun x => { x with park := .run, memo := { bad with colours := bad.colours.set (monId w l) 0 } }
      else if gr.park = .condition colour then (s.raise g gr [⟨w, .prot, BitVec.ofNat 64 colour, 0, false⟩]).1
      else s
    | none => s
  | .runnable | .flagBlocked _ | .fetching _ | .napping _ | .yielded _ | .trapped | .gone => s

/-- A record on another chip has answered a lane. One that asked from its group goes on there, or leaves it to wait; one
that has ended in the meantime gives the monitor back. DEDUCED, log 76. -/
def State.monAnswered (s : State) (chip ctx colour : Nat) (a : MonAns) : State :=
  let at_ (id : Nat) (k : Nat → Group → State) (other : State) : State :=
    match (s.lane (id / 32) (id % 32)).entry with
    | .group g =>
      match s.groups.get? g with
      | some gr => if gr.memo.asks.contains (id / 32, id % 32, colour) then k g gr else other
      | none => other
    | .runnable | .flagBlocked _ | .fetching _ | .napping _ | .yielded _ | .trapped | .gone => other
  let answered (id : Nat) (gr : Group) : Memo :=
    { gr.memo with waiting := gr.memo.waiting - 1, asks := gr.memo.asks.filter (· != (id / 32, id % 32, colour)) }
  match a with
  | .granted id back =>
    let w := id / 32
    let l := id % 32
    if (s.lane w l).life ≠ .live then s.fabric chip (.mon ctx colour (.free id))
    else
      at_ id (fun g gr =>
        (s.acquire ctx colour w l (s.lane w l).depth).modGroup g fun x => { x with memo := answered id gr })
        (s.resumeGranted ctx colour w l back)
  | .queued id =>
    at_ id (fun g gr =>
      let s := s.modGroup g fun x => { x with memo := answered id gr }
      (s.splitOff g ((s.groups.get? g).getD gr) [(id / 32, id % 32)] (.monitor colour) gr.memo.parted).2) s
  | .full id =>
    at_ id (fun g gr =>
      let m := answered id gr
      s.modGroup g fun x => { x with memo := { m with full := (id / 32, id % 32) :: m.full } }) s
  | .lost id => s.monLost colour (id / 32) (id % 32)

/-! ## The C family, R273 -/

/-- The address x + sign-extend(y) of a lane, R232. -/
def addrOf (W : Warp) (L : Lane) (o : Ops) : DWord := src64 W L o.a + (src32 W L o.b).signExtend 64

/-- The lane's address operands as accesses. -/
def State.accsOf (s : State) (ls : List (Nat × Nat)) (o : Ops) (need : Need) : List Acc :=
  ls.map fun x => let W := s.warp x.1; ⟨x.1, x.2, addrOf W (W.lane x.2) o, need⟩

/-- C.GET: the colour of each lane's line, at a query of its own; host memory and the configuration page have none. -/
def execCGet (o : Ops) (s : State) : Out :=
  issueLane s false o ⟨1, 2, 1, 1, false, []⟩ fun g gr s =>
    let ctx := (s.block gr.block).ctx
    let accs := s.accsOf (s.execThreads gr o.pr) o { rd := true }
    accessing s g gr accs 1 (fun h => if h.isReg || s.poisoned h then some .prot else none) fun gr hits s =>
      let dev := hits.filter Hit.isDev
      let unknown := dev.filter fun h => (gr.memo.colours.get? h.acc.key).isNone
      if gr.memo.waiting ≠ 0 then .next (s.parkGroup g .colours gr.memo)
      else if unknown ≠ [] then
        let s1 := unknown.foldl (fun s h => s.request gr.core (h.pa / 128) ctx (.colourQ g h.acc.key)) s
        .next (s1.parkGroup g .colours { gr.memo with waiting := unknown.length })
      else
        let poison := dev.filter fun h => gr.told h == 1
        (s.reportPoison ctx (poison.map fun h => h.pa / 128)).raising g gr (gr.toldRaises dev fun _ _ => true) fun gr s =>
          let s1 := hits.foldl (fun s h =>
            let c := if h.isDev then gr.memo.colours.getD h.acc.key 0 else 0
            if gr.lanes.contains (h.acc.w, h.acc.l) then s.modLane h.acc.w h.acc.l (·.putD o.d (BitVec.ofNat 32 c)) else s)
            (s.zeroHelpers gr o 1)
          .next (s1.retire g gr)

/-- The word that C.HELD returns of a slot. -/
def slotWord (x : Slot) : Word := BitVec.ofNat 32 (x.colour + 2 ^ 12 * (x.depth % 2 ^ 16) + 2 ^ 31)

def execCHeld (o : Ops) (s : State) : Out :=
  issueLane s false o {} fun g gr s =>
    let s := s.zeroHelpers gr o 1
    let s := s.eachLane (s.execThreads gr o.pr) fun W _ L =>
      let j := (src32 W L o.a).toNat
      L.putD o.d (if j < 8 then ((L.slots[j]?).map slotWord).getD 0 else 0)
    .next (s.retire g gr)

/-- MONNH, and MONORD for C.WAIT, in each warp: the lowest failing lane's colour is TAD. -/
def State.heldTraps (s : State) (gr : Group) (o : Ops) (wait : Bool) : List Raise :=
  gr.warpIds.filterMap fun w =>
    let W := s.warp w
    ((s.execThreads gr o.pr).filter (·.1 == w)).findSome? fun x =>
      let L := W.lane x.2
      let c := src32 W L o.a
      if !L.holds c.toNat then some ⟨w, .monnh, c.setWidth 64, 0, false⟩
      else if wait && L.topColour != c.toNat then some ⟨w, .monord, c.setWidth 64, 0, false⟩
      else none

/-- C.NTF and C.NTA: each lane, ascending, moves the head, or every waiter, of its colour's condition queue. -/
def notifyForm (o : Ops) (all : Bool) (s : State) : Out :=
  issueLane s false o {} fun g gr s =>
    s.raising g gr (s.heldTraps gr o false) fun gr s =>
      let ctx := (s.block gr.block).ctx
      let s := (s.execThreads gr o.pr).foldl (fun s x =>
        let W := s.warp x.1
        let c := (src32 W (W.lane x.2) o.a).toNat
        let m := s.mon ctx c
        if s.monHome ctx c = s.chip then s.setMon ctx c (m.notify (if all then m.condQ else m.condQ.take 1) true)
        else s.fabric (s.monHome ctx c) (.mon ctx c (.notify all))) s
      .next (s.retire g gr)

def execCNtf (o : Ops) (s : State) : Out := notifyForm o false s
def execCNta (o : Ops) (s : State) : Out := notifyForm o true s

/-- C.WAIT: each lane releases its colour and waits in a group of its own; it comes back here once it has been granted
the colour again. -/
def execCWait (o : Ops) (s : State) : Out :=
  issueLane s false o {} fun g gr s =>
    let who := s.execThreads gr o.pr
    if gr.memo.passed then
      let s := s.eachLane who fun _ _ L => L.putD o.d (if gr.memo.notified then 1 else 0)
      .next (s.retire g gr)
    else
      s.raising g gr (s.heldTraps gr o true) fun gr s =>
        let who := s.execThreads gr o.pr
        let s := who.foldl (fun s x =>
          let W := s.warp x.1
          let L := W.lane x.2
          let ns := if o.b = .none then none else some (src32 W L o.b).toNat
          let (n, s) := s.splitOff g ((s.groups.get? g).getD gr) [x] .release {}
          s.beginRelease x.1 x.2 [(src32 W L o.a).toNat] (some ns) (some n)) s
        match s.groups.get? g with
        | some gr => .next ((s.zeroHelpers gr o 1).retire g gr)
        | none => .next s

/-! ## UC.SET, R262 -/

/-- Pages of a range of lines. -/
def pagesOf (va : DWord) (bytes : Nat) : List DWord :=
  if bytes = 0 then []
  else (List.range ((va.toNat % 4096 + bytes + 4095) / 4096)).map fun i =>
    if i = 0 then va else (va &&& ~~~0xFFF) + BitVec.ofNat 64 (4096 * i)

/-- One warp's lines still to be coloured: all done, or the line that is waited for, cleared off the package, or asked
for at its home; or a trap. -/
inductive Recolour where
  | done
  | held (line : Nat)
  | clear (line : Nat)
  | ask (line : Nat)
  | trap (va : DWord) (c : Cause)
  deriving DecidableEq, Repr

/-- A warp's line among what a group remembers. -/
def recolourKey (w line : Nat) : Nat := 2 ^ 45 * w + line

/-- Colour lines one after another for the thread (w, l), R262: `las` gives each line and its virtual address; those that
the group remembers are done with, each at its time. A line that chips or the host hold is cleared first, and one homed on
another chip is coloured there (DESIGN CHOICE, log 30). The check for MONNH is made in handler mode as well, where R332
says nothing of it (DESIGN CHOICE, log 91). -/
def State.recolour (s : State) (m : Memo) (w l c : Nat) : List (Nat × DWord) → State × Memo × Recolour
  | [] => (s, m, .done)
  | (line, va) :: rest =>
    let h := s.hline line
    let key := recolourKey w line
    let t := max (s.timeOf (homeOf line)) h.lx
    match m.colours.get? key, m.bad.get? key with
    | some t, none => (s.gwct w t).recolour m w l c rest
    | some _, some k => (s, m, .trap va (if k = 1 then .monnh else .prot))
    | none, _ =>
      if (s.remoteChip line).isSome then (s, m, .ask line)
      else if s.lineHeld line then (s, m, .held line)
      else if h.colour = c then (s.gwct w t).recolour { m with colours := m.colours.set key t } w l c rest
      else if h.colour ≠ 0 ∧ ¬(s.lane w l).holds h.colour then (s, m, .trap va .monnh)
      else if !s.atHand line true then (s, m, .clear line)
      else
        let s := s.settle line true
        ((s.setHline line { s.hline line with colour := c }).gwct w t).recolour { m with colours := m.colours.set key t }
          w l c rest

/-- The largest g(i) of some lines of a warp. -/
def Memo.lastOf (m : Memo) (w : Nat) (lines : List (Nat × DWord)) : Nat :=
  (lines.map fun x => m.colours.getD (recolourKey w x.1) 0).foldl max 0

/-- UC.SET: once for each warp with a thread lane, ascending. A line that is being served, or that an engine owns for a
command, is waited for; every line is coloured once. -/
def execUcSet (o : UOps) (s : State) : Out :=
  issueUni s (usrcS o.a 2 ++ usrcS o.b 1) fun g gr s =>
    let ws := gr.warpIds.filter fun w => (gr.lanesOf w).any fun l => s.isLive (w, l)
    let va (w : Nat) : DWord := usrc64 (s.warp w) o.a
    let ctl (w : Nat) : Nat := (usrc32 (s.warp w) o.b).toNat
    let n (w : Nat) : Nat := ctl w / 4096
    let lead (w : Nat) : Nat := ((gr.lanesOf w).find? fun l => s.isLive (w, l)).getD 0
    let bad := ws.filter fun w => n w != 0 && (va w).toNat % 128 != 0
    s.raising g gr (bad.map fun w => ⟨w, .align, va w, 0, false⟩) fun gr s =>
      let ws := ws.filter gr.warpIds.contains
      let accs := ws.flatMap fun w => (pagesOf (va w) (128 * n w)).map fun p => ⟨w, lead w, p, { wr := true }⟩
      accessing s g gr accs 1 (fun h => if h.isDev then none else some .prot) fun gr hits s =>
        let ws := ws.filter gr.warpIds.contains
        let lines (w : Nat) : List (Nat × DWord) := (List.range (n w)).filterMap fun i =>
          let a := va w + BitVec.ofNat 64 (128 * i)
          (hits.find? fun h => h.acc.w == w && h.acc.va.toNat / 4096 == a.toNat / 4096).map fun h =>
            (h.pa / 4096 * 32 + a.toNat % 4096 / 128, a)
        if gr.memo.waiting ≠ 0 then .next (s.parkGroup g .colours gr.memo)
        else
          let r := ws.foldl (fun (r : State × Memo × List Raise × Option (Nat × Recolour)) w =>
            if r.2.2.2.isSome then r
            else
              let (s, m, x) := r.1.recolour r.2.1 w (lead w) (ctl w % 4096) (lines w)
              match x with
              | .done => (s, m, r.2.2.1, none)
              | .trap a c => (s, m, r.2.2.1 ++ [⟨w, c, a, 0, c == .prot⟩], none)
              | .held _ | .clear _ | .ask _ => (s, m, r.2.2.1, some (w, x))) (s, gr.memo, [], none)
          -- traps wait for the lines of the other warps, which are coloured first
          match r.2.2.2 with
          | some (_, .held line) => .next (r.1.parkGroup g (.lines gr.core [line]) r.2.1)
          | some (_, .clear line) =>
            let s := r.1.send devAgent (homeOf line) line (.clear true)
            .next (s.parkGroup g (.device [line]) r.2.1)
          | some (w, .ask line) =>
            let held := (r.1.lane w (lead w)).slots.map (·.colour)
            let s := r.1.request gr.core line (s.block gr.block).ctx (.recolour g (recolourKey w line) (ctl w % 4096) held)
            .next (s.parkGroup g .colours { r.2.1 with waiting := 1 })
          | some (_, .done) | some (_, .trap _ _) | none =>
            let t := (ws.map fun w => r.2.1.lastOf w (lines w)).foldl max 0
            r.1.raising g gr r.2.2.1 fun gr s =>
              if t ≤ s.timeAt gr.core then .next (s.retire g gr) else .next (s.parkGroup g (.until_ t) {})

/-- UC_SET_WAIT_END: sr.time has reached every line's completion time (R262). -/
def execUcSetWaitEnd (g : Nat) (s : State) : Out :=
  match s.groups.get? g with
  | some gr =>
    match gr.park with
    | .until_ t => if t ≤ s.timeAt gr.core then .next (s.retire g gr) else .refused .notEnabled
    | _ => .refused .notEnabled
  | none => .refused .notEnabled

end Sys2Proof.Machine
end

