-- ==== Sys2Proof/Machine/Engine.lean ====
section
/-! DEFINITION. Copy engines, batches, guard slots and rings, and the split of a gather (12_copy_engines_rings;
10_ordering R255 to R258; 11_colours_monitors R274). -/

namespace Sys2Proof.Machine

/-! ## Tensor shape records, R285, R286 -/

def word32 (x : DWord) (hi : Bool) : Nat := if hi then x.toNat / 2 ^ 32 else x.toNat % 2 ^ 32
def byteOf (x : DWord) (i : Nat) : Nat := x.toNat / 256 ^ i % 256

/-- The fields of a record, from its eight 8-byte words. -/
def shapeOf (w : Nat → DWord) : Shape4 :=
  { base := w 0,
    dim := [word32 (w 1) false, word32 (w 1) true, word32 (w 2) false, word32 (w 2) true],
    str := [(w 3).toInt, (w 4).toInt, (w 5).toInt],
    box := (List.range 4).map fun i => if byteOf (w 6) i = 0 then 256 else byteOf (w 6) i,
    esz := byteOf (w 6) 4, rank := byteOf (w 6) 5, fill := w 7 }

/-- The limits of R285; `pad` is the half word that must be 0. -/
def Shape4.ok (x : Shape4) (pad : Nat) : Bool :=
  let unit := 2 ^ x.esz
  decide (x.esz ≤ 3) && decide (1 ≤ x.rank ∧ x.rank ≤ 4) && pad == 0 && x.base.toNat % unit == 0 &&
    x.dim.all (fun d => decide (1 ≤ d ∧ d < 2 ^ 31)) && x.str.all (fun t => t % unit == 0) &&
    (List.range 4).all (fun i => decide (i < x.rank) ||
      (x.dim.getD i 1 == 1 && x.box.getD i 1 == 1 && (i == 0 || x.str.getD (i - 1) 0 == 0))) &&
    decide (unit * x.box.foldl (· * ·) 1 ≤ 65536)

/-- Is an element outside the tensor? -/
def Shape4.clipped (x : Shape4) (e : List Int) : Bool :=
  (List.range 4).any fun i => decide (e.getD i 0 < 0) || decide ((x.dim.getD i 1 : Int) ≤ e.getD i 0)

/-- The address of an element. -/
def Shape4.addr (x : Shape4) (e : List Int) : Nat :=
  (((x.base.toNat : Int) + 2 ^ x.esz * e.getD 0 0 + x.str.getD 0 0 * e.getD 1 0 + x.str.getD 1 0 * e.getD 2 0 +
    x.str.getD 2 0 * e.getD 3 0) % 2 ^ 64).toNat

/-- The coordinates of the i-th element of a tile, dimension 0 innermost. -/
def Shape4.elemOf (x : Shape4) (c : List Int) (i : Nat) : List Int :=
  let b (k : Nat) : Nat := x.box.getD k 1
  [c.getD 0 0 + (i % b 0 : Nat), c.getD 1 0 + (i / b 0 % b 1 : Nat), c.getD 2 0 + (i / b 0 / b 1 % b 2 : Nat),
   c.getD 3 0 + (i / b 0 / b 1 / b 2 : Nat)]

def Shape4.count (x : Shape4) : Nat := x.box.foldl (· * ·) 1

/-! ## What a command copies, R287 -/

/-- One end of a move: a global address, byte k from a local address, or the fill element. -/
inductive Side where
  | glob (va : Nat)
  | loc (x k : Nat)
  | fill (v : Nat)
  deriving DecidableEq, Repr

structure Move where
  n : Nat
  dst : Side
  src : Side
  deriving DecidableEq, Repr

/-- The moves of a command, in its own order. -/
def CmdKind.moves (k : CmdKind) : List Move :=
  match k with
  | .tile sh ls c =>
    let n := 2 ^ sh.esz
    (List.range sh.count).map fun i =>
      let e := sh.elemOf c i
      ⟨n, .loc ls (n * i), if sh.clipped e then .fill (sh.fill.toNat % 256 ^ n) else .glob (sh.addr e)⟩
  | .store sh ls c =>
    let n := 2 ^ sh.esz
    (List.range sh.count).filterMap fun i =>
      let e := sh.elemOf c i
      if sh.clipped e then none else some ⟨n, .glob (sh.addr e), .loc ls (n * i)⟩
  | .lin sl dl src dst len =>
    (List.range (len / 8)).map fun i =>
      ⟨8, if dl then .loc dst (8 * i) else .glob (dst + 8 * i), if sl then .loc src (8 * i) else .glob (src + 8 * i)⟩
  | .gath sh ls c0 rows =>
    let n := 2 ^ sh.esz
    let b := sh.box.getD 0 1
    (List.range rows.length).flatMap fun r => (List.range b).map fun i =>
      let e : List Int := [(c0 + i : Nat), rows.getD r 0, 0, 0]
      ⟨n, .loc ls (n * (b * r + i)), if sh.clipped e then .fill (sh.fill.toNat % 256 ^ n) else .glob (sh.addr e)⟩

/-- The local destination of a command and its length, where it has one. -/
def CmdKind.localDst (k : CmdKind) : Option (Nat × Nat) :=
  match k with
  | .tile sh ls _ => some (ls, 2 ^ sh.esz * sh.count)
  | .gath sh ls _ rows => some (ls, 2 ^ sh.esz * sh.box.getD 0 1 * rows.length)
  | .lin _ dl _ dst len => if dl then some (dst, len) else none
  | .store _ _ _ => none

/-- The local addresses that a command names. -/
def CmdKind.locals (k : CmdKind) : List Nat :=
  match k with
  | .tile _ ls _ | .store _ ls _ | .gath _ ls _ _ => [ls]
  | .lin sl dl src dst _ => (if sl then [src] else []) ++ if dl then [dst] else []

def Side.globs : Side → List Nat
  | .glob va => [va]
  | .loc _ _ | .fill _ => []

/-- The global addresses that a command reads and writes, with the lengths. -/
def CmdKind.reads (k : CmdKind) : List (Nat × Nat) := k.moves.flatMap fun m => (Side.globs m.src).map fun a => (a, m.n)
def CmdKind.writes (k : CmdKind) : List (Nat × Nat) := k.moves.flatMap fun m => (Side.globs m.dst).map fun a => (a, m.n)

/-- The physical address of a byte of a command, by the translations that it holds. -/
def Cmd.pa (c : Cmd) (va : Nat) : Nat := c.xl.getD (va / 4096) 0 * 4096 + va % 4096

/-! ## Ring records, R292, R293 -/

def Ring.stage (r : Ring) (i : Nat) : Stage := r.stages.getD i {}
def Ring.setStage (r : Ring) (i : Nat) (x : Stage) : Ring := { r with stages := r.stages.putD i x {} }

/-- An arrival on a barrier: a phase that its count completes flips the phase bit. -/
def Ring.arrive (r : Ring) (i : Nat) (bar : Bar) : Ring :=
  let x := r.stage i
  match bar with
  | .full => r.setStage i (if x.fn + 1 = r.fc then { x with fp := !x.fp, fn := 0, adm := 0 } else { x with fn := x.fn + 1 })
  | .empty => r.setStage i (if x.en + 1 = r.ec then { x with ep := !x.ep, en := 0 } else { x with en := x.en + 1 })

/-- Is a command admitted to a stage? -/
def Ring.admits (r : Ring) (i : Nat) : Bool :=
  let x := r.stage i
  x.ep == x.fp && decide (x.adm < r.fc)

def Ring.letIn (r : Ring) (i : Nat) : Ring := let x := r.stage i; r.setStage i { x with adm := x.adm + 1 }

/-- The stage that holds a range wholly, R295. -/
def Ring.stageOf (r : Ring) (off len : Nat) : Option Nat :=
  let i := (off - r.base) / r.sz
  if r.base ≤ off ∧ i < r.s ∧ off + len ≤ r.base + (i + 1) * r.sz then some i else none

def State.modRing (s : State) (b n : Nat) (f : Ring → Ring) : State :=
  s.modBlock b fun B => { B with rings := B.rings.modify n f }

/-- TAD of RING, R282. -/
def ringTad (ring stage : Nat) : DWord := BitVec.ofNat 64 (ring % 8 + 256 * (stage % 16))

/-! ## The checks of a command at issue, R282 -/

/-- The forms of CP that copy. -/
inductive CpForm where
  | tile | store | lin | gath
  deriving DecidableEq, Repr

/-- A lane's record, where its form has one. -/
def CpForm.hasRecord : CpForm → Bool
  | .tile | .store | .gath => true
  | .lin => false

/-- Operand widths. -/
def CpForm.widths : CpForm → Widths
  | .tile | .store => ⟨1, 2, 1, 4, false, []⟩
  | .lin => ⟨1, 2, 2, 1, false, []⟩
  | .gath => ⟨1, 2, 1, 2, false, []⟩

/-- The index list of a gather: a fault of reading it, or its rows. -/
def State.listRows (s : State) (b : Nat) (x : Word) (n : Nat) : (Cause × DWord) ⊕ List Int :=
  match s.lsCheck b x 4 (4 * n) false with
  | some c => .inl (c, x.setWidth 64)
  | none =>
    match s.lsEcc b x (4 * n), s.lsTarget b x.toNat with
    | some a, _ => .inl (.lsecc, a)
    | none, some t =>
      .inr ((List.range n).map fun i => sext 32 ((s.block t).lsRead (lsOff x + 4 * i) 4))
    | none, none => .inr []

/-- The local ranges that a command touches: whether it writes there, the local address, and the bytes from there on. -/
def CmdKind.ranges (k : CmdKind) : List (Bool × Nat × Nat) :=
  let upTo (side : Move → Side) : Nat := (k.moves.map fun m => match side m with
    | .loc _ d => d + m.n
    | .glob _ | .fill _ => 0).foldl max 0
  match k with
  | .tile _ ls _ | .gath _ ls _ _ => [(true, ls, upTo (·.dst))]
  | .store _ ls _ => [(false, ls, upTo (·.src))]
  | .lin sl dl src dst len => (if sl then [(false, src, len)] else []) ++ if dl then [(true, dst, len)] else []

/-- The first local range that a command may not touch, by R156 with 16-byte alignment, R282. DEDUCED, log 45. -/
def State.localFault (s : State) (b : Nat) (k : CmdKind) : Option (Cause × DWord) :=
  k.ranges.findSome? fun r =>
    let x : Word := BitVec.ofNat 32 r.2.1
    (s.lsCheck b x 16 r.2.2 r.1).map fun c => (c, x.setWidth 64)

/-- The ring stage of a command with ARV, or RING. R282 has the stage in TAD: where the destination lies in none, it is that of
its first byte, or 0 where that has none or the ring is uninitialised. DESIGN CHOICE, log 88. -/
def State.arvStage (s : State) (b ring : Nat) (k : CmdKind) : (Cause × DWord) ⊕ Nat :=
  match k.localDst, (s.block b).rings.get? ring with
  | some (x, len), some r =>
    let off := lsOff (BitVec.ofNat 32 x)
    if s.lsTarget b x = some b then
      match r.stageOf off len with
      | some i => .inr i
      | none => .inl (.ring, ringTad ring ((r.stageOf off 0).getD 0))
    else .inl (.ring, ringTad ring 0)
  | _, _ => .inl (.ring, ringTad ring 0)

/-- A lane's command with its ring stage, or the check that it fails. -/
abbrev Prep := (Cause × DWord) ⊕ (CmdKind × Option (Nat × Nat))

def prepOf (prep : List ((Nat × Nat) × Prep)) (x : Nat × Nat) : Option Prep := (prep.find? fun p => p.1 == x).map (·.2)

/-- What an executing lane's command is, or the first of the checks before translation that it fails. `words` answers
the words of its record; none: it could not be read. DEDUCED, log 45. -/
def State.prepare (s : State) (gr : Group) (form : CpForm) (o : Ops) (m : CpMod) (words : Acc → Nat → DWord)
    (recFault : Acc → Option Cause) (x : Nat × Nat) : Prep :=
  let W := s.warp x.1
  let L := W.lane x.2
  let a := src64 W L o.a
  let acc : Acc := ⟨x.1, x.2, a, { rd := true }⟩
  let b32 := src32 W L o.b
  let c32 := src32 W L o.c
  let c64 := src64 W L o.c
  let coords : List Int := (List.range 4).map fun i => (srcQ W L o.c i).toInt
  let sh := shapeOf (words acc)
  let fault := recFault acc
  let n := c64.toNat / 2 ^ 32 % 2 ^ 16
  let lenBad := decide (c32.toNat % 16 ≠ 0 ∨ 2 ^ 24 < c32.toNat)
  let nBad := decide (n = 0 ∨ 1024 < n)
  let rest (k : CmdKind) : Prep :=
    match s.localFault gr.block k with
    | some f => .inl f
    | none =>
      match m.arv with
      | none => .inr (k, none)
      | some r =>
        match s.arvStage gr.block r.val k with
        | .inl f => .inl f
        | .inr i => .inr (k, some (r.val, i))
  match form with
  | .lin =>
    if lenBad then .inl (.shape, c32.setWidth 64)
    else
      let b64 := src64 W L o.b
      rest (.lin m.sl m.dl (if m.sl then a.toNat % 2 ^ 32 else a.toNat) (if m.dl then b64.toNat % 2 ^ 32 else b64.toNat)
        c32.toNat)
  | .tile | .store | .gath =>
    if a.toNat % 64 ≠ 0 then .inl (.align, a)
    else if fault.isNone && !(sh.ok (word32 (words acc 6) true / 2 ^ 16) && (form != .gath || sh.rank == 2)) then
      .inl (.shape, a)
    else if form = .gath && nBad then .inl (.shape, c64)
    else
      match fault with
      | some c => .inl (c, a)
      | none =>
        match form with
        | .tile => rest (.tile sh b32.toNat coords)
        | .store => rest (.store sh b32.toNat coords)
        | .lin | .gath =>
          match s.listRows gr.block (c64.extractLsb' 0 32) n with
          | .inl f => .inl f
          | .inr rows => rest (.gath sh b32.toNat (c64.toNat / 2 ^ 48) rows)

/-- The accesses that a command's global bytes need: one for each page and direction, at its lowest address. -/
def globalAccs (x : Nat × Nat) (k : CmdKind) : List Acc :=
  let one (need : Need) (as : List (Nat × Nat)) : List Acc :=
    (as.map fun a => a.1 / 4096).dedup.map fun p =>
      ⟨x.1, x.2, BitVec.ofNat 64 (((as.filter fun a => a.1 / 4096 == p).map (·.1)).foldl min (4096 * p + 4095)), need⟩
  one { rd := true } k.reads ++ one { wr := true } k.writes

/-- The lowest address at which translation of a command's global bytes fails. -/
def globalFault (form : CpForm) (k : CmdKind) (accs : List Acc) (find : Acc → Look) : Option (Cause × DWord × Bool) :=
  let unaligned : List (Cause × DWord × Bool) := match form, k with
    | .lin, .lin sl dl src dst _ =>
      (if !sl && src % 16 != 0 then [(.align, BitVec.ofNat 64 src, false)] else []) ++
        if !dl && dst % 16 != 0 then [(.align, BitVec.ofNat 64 dst, false)] else []
    | _, _ => []
  let bad := accs.filterMap fun a =>
    match find a with
    | .fault c => some (c, a.va, a.need.wr)
    | .pa p => match placeOf p with
      | .dev _ _ | .host _ => none
      | .reg _ | .hostReg _ | .nothing => some (.prot, a.va, a.need.wr)
    | .config _ | .walk _ _ _ => none
  (unaligned ++ bad).foldl (fun r x =>
    match r with
    | some y => if x.2.1.toNat < y.2.1.toNat then some x else some y
    | none => some x) none

/-- The device-memory lines of a command with their lowest virtual addresses. DEDUCED, log 41. -/
def colourLines (k : CmdKind) (xl : AMap Nat) : List (Nat × Nat) :=
  let lines := ((k.reads ++ k.writes).map fun a => a.1 / 128).dedup
  lines.filterMap fun v =>
    (xl.get? (v / 32)).bind fun f =>
      match placeOf (4096 * f) with
      | .dev _ _ => some (32 * f + v % 32, 128 * v)
      | .host _ | .reg _ | .hostReg _ | .nothing => none

/-- The translations that a command holds. -/
def xlOf (accs : List Acc) (find : Acc → Look) : AMap Nat :=
  accs.foldl (fun m a =>
    match find a with
    | .pa p => m.set (a.va.toNat / 4096) (p / 4096)
    | .config _ | .fault _ | .walk _ _ _ => m) []

/-- Queue a lane's command, and ask for ownership of its destination lines (R256, R280). -/
def State.queueCmd (s : State) (gr : Group) (w l work : Nat) (m : CpMod) (k : CmdKind) (arv : Option (Nat × Nat))
    (xl : AMap Nat) (bound : List Nat) : State :=
  let (id, s) := s.newId
  let ctx := (s.block gr.block).ctx
  let lines := ((k.writes.map fun a => (xl.getD (a.1 / 4096) 0) * 32 + a.1 % 4096 / 128)).dedup
  let c : Cmd :=
    { ctx, core := gr.core, block := gr.block, warp := w, lane := l, work, kind := k, xl, guard := m.guard.map (·.val),
      arv, want := lines, lines, bound }
  let s := { s with cmds := s.cmds.set id c }
  let s := s.modCore gr.core fun c => { c with engineQ := c.engineQ ++ [id] }
  let s := s.modLane w l fun L => { L with opened := L.opened ++ [id] }
  lines.foldl (fun s line => s.request (engineAgent gr.core) line ctx (.own none)) s

/-- A CP form that copies, R280 to R287. A handler's command is neither checked nor bound; else the colours of its lines
are determined first (R274, R332). -/
def cpForm (form : CpForm) (o : Ops) (m : CpMod) (s : State) : Out :=
  issueLane s false o form.widths fun g gr s =>
    let ctx := (s.block gr.block).ctx
    let who := s.execThreads gr o.pr
    let recAcc (x : Nat × Nat) : Acc := ⟨x.1, x.2, let W := s.warp x.1; src64 W (W.lane x.2) o.a, { rd := true }⟩
    let recs := if form.hasRecord then (who.map recAcc).filter fun a => a.va.toNat % 64 == 0 else []
    recording s g gr recs 8 64 fun recFault words poison s =>
      let prep : List ((Nat × Nat) × Prep) :=
        who.map fun x => (x, s.prepare gr form o m words recFault x)
      let good := prep.filterMap fun p => match p.2 with
        | .inl _ => none
        | .inr k => some (p.1, k.1)
      probing s g gr (good.flatMap fun p => globalAccs p.1 p.2) 1 fun find s =>
        let trans (x : Nat × Nat) (k : CmdKind) : Option (Cause × DWord × Bool) :=
          globalFault form k (globalAccs x k) find
        let live := good.filter fun p => (trans p.1 p.2).isNone
        let lines := if gr.handler then [] else (live.flatMap fun p => colourLines p.2 (xlOf (globalAccs p.1 p.2) find)).map (·.1)
        let ask := lines.dedup.filter fun n => (gr.memo.colours.get? n).isNone
        if gr.memo.waiting ≠ 0 then .next ((s.dropWalks gr.walkIds).parkGroup g .colours gr.memo)
        else if ask ≠ [] then
          let s := ask.foldl (fun s n => s.request (engineAgent gr.core) n ctx (.colourQ g n)) (s.dropWalks gr.walkIds)
          .next (s.parkGroup g .colours { gr.memo with waiting := ask.length })
        else
          let colourOf (n : Nat) : Nat := gr.memo.colours.getD n 0 % lineBad
          let cleng (x : Nat × Nat) (k : CmdKind) : Option (Cause × DWord × Bool) :=
            let bad := (colourLines k (xlOf (globalAccs x k) find)).filter fun n =>
              colourOf n.1 != 0 && !(s.lane x.1 x.2).holds (colourOf n.1)
            (bad.map (·.2)).min?.map fun a => (.cleng, BitVec.ofNat 64 a, false)
          let fail (x : Nat × Nat) : Option (Cause × DWord × Bool) :=
            match prepOf prep x with
            | some (.inl f) => some (f.1, f.2, false)
            | some (.inr k) => (trans x k.1).or (cleng x k.1)
            | none => none
          let s := s.dropWalks gr.walkIds
          let s := s.reportPoison ctx poison
          s.raising g gr (gr.warpIds.filterMap fun w => firstFail w who fail) fun gr s =>
            let who := who.filter fun x => gr.warpIds.contains x.1
            if Config.engineQueue < (s.core gr.core).engineQ.length + who.length then
              .next (s.parkGroup g .engineQueue gr.memo)
            else if Group.flagFull s gr m.fs (who.map (·.1)) then .next (s.parkGroup g (.flag ((gr.flag m.fs).getD 0)) gr.memo)
            else
              let s := gr.warpIds.foldl (fun s w =>
                let mine := who.filter (·.1 == w)
                let (work, s) := s.attach gr w m.fs mine.length
                mine.foldl (fun s x =>
                  match prepOf prep x with
                  | some (.inr k) =>
                    let xl := xlOf (globalAccs x k.1) find
                    let bound := ((colourLines k.1 xl).map fun n => colourOf n.1).dedup.filter (· != 0)
                    s.queueCmd gr x.1 x.2 work m k.1 k.2 xl bound
                  | _ => s) s) s
              .next (s.retire g gr)

def execCpTile (o : Ops) (m : CpMod) (s : State) : Out := cpForm .tile o m s
def execCpStore (o : Ops) (m : CpMod) (s : State) : Out := cpForm .store o m s
def execCpLin (o : Ops) (m : CpMod) (s : State) : Out := cpForm .lin o m s
def execCpGath (o : Ops) (m : CpMod) (s : State) : Out := cpForm .gath o m s

/-! ## Batches, R288, R289 -/

/-- Batches whose commands are done, and whose predecessors are, are finished. -/
def trimBatches (bs : List (List Nat)) : List (List Nat) := bs.dropWhile (· == [])

/-- CP.SEAL: the open set becomes the lane's next batch. A lane with sixteen unfinished batches waits. -/
def execCpSeal (o : Ops) (s : State) : Out :=
  issueLane s false o {} fun g gr s =>
    let who := s.execThreads gr o.pr
    if who.any fun x => decide (16 ≤ (s.lane x.1 x.2).batches.length) then .next (s.parkGroup g .seal gr.memo)
    else
      let s := who.foldl (fun s x => s.modLane x.1 x.2 fun L =>
        { L with batches := trimBatches (L.batches ++ [L.opened]), opened := [] }) s
      .next (s.retire g gr)

/-- Lanes of a group that wait leave it, in groups of those that wait for the same; the others go on. -/
def State.waitApart (s : State) (g : Nat) (gr : Group) (waits : List ((Nat × Nat) × Park)) : State :=
  let s := (waits.map (·.2)).dedup.foldl (fun s p =>
    let ls := (waits.filter (·.2 == p)).map (·.1)
    match s.groups.get? g with
    | some gr => if gr.lanes = ls then s.parkGroup g p {} else (s.splitOff g gr ls p {}).2
    | none => s) s
  match s.groups.get? g with
  | some gr' => if gr'.lanes.any fun x => waits.any (·.1 == x) then s else s.retire g { gr with lanes := gr'.lanes }
  | none => s

/-- CP.WAIT: each lane waits until it has at most n unfinished batches. -/
def execCpWait (o : Ops) (s : State) : Out :=
  issueLane s false o {} fun g gr s =>
    let who := s.execThreads gr o.pr
    let n (x : Nat × Nat) : Nat := let W := s.warp x.1; (src32 W (W.lane x.2) o.a).toNat
    let waits := who.filterMap fun x =>
      if n x < (s.lane x.1 x.2).batches.length then some (x, Park.batch (n x)) else none
    .next (s.waitApart g gr waits)

/-- A command is done with: its entry is free, its work and its batch advance (R280, R283, R288). -/
def State.cmdDone (s : State) (k : Nat) (c : Cmd) : State :=
  let s := { s with cmds := s.cmds.del k }
  let s := s.modCore c.core fun x => { x with engineQ := x.engineQ.filter (· != k) }
  let s := s.workDone c.work
  let s := s.modLane c.warp c.lane fun L =>
    { L with opened := L.opened.filter (· != k), batches := trimBatches (L.batches.map fun b => b.filter (· != k)) }
  s.count c.core 0 0x0E 1 c.ctx

/-! ## The engine's events -/

/-- The head of a core's queue: its first unstarted command. -/
def State.engineHead (s : State) (core : Nat) : Option (Nat × Cmd) :=
  ((s.core core).engineQ.findSome? fun k => (s.cmds.get? k).bind fun c => if c.started then none else some (k, c))

/-- Is a command admitted to its ring stage, R293? -/
def State.admitted (s : State) (c : Cmd) : Bool :=
  match c.arv with
  | none => true
  | some (r, i) =>
    match (s.block c.block).rings.get? r with
    | some x => x.admits i
    | none => true

def State.letIn (s : State) (c : Cmd) : State :=
  match c.arv with
  | none => s
  | some (r, i) => s.modRing c.block r (·.letIn i)

def State.arriveFull (s : State) (c : Cmd) : State :=
  match c.arv with
  | none => s
  | some (r, i) => s.modRing c.block r (·.arrive i .full)

/-- How a command's guard stands: open holds it (R290). -/
def State.guardOf (s : State) (c : Cmd) : Guard :=
  match c.guard with
  | none => .tru
  | some n => (s.warp c.warp).guards.getD n .opened

/-- Blocks whose local stores a command touches. -/
def State.cmdBlocks (s : State) (c : Cmd) : List Nat := c.kind.locals.filterMap (s.lsTarget c.block)

/-- Has the issuing thread performed what it did before the command, and have the warp's earlier commands been granted
their destination lines, as FN.FENCE.CORE would ask (R246, R255)? DEDUCED, log 47. -/
def State.beforeCmd (s : State) (k : Nat) (c : Cmd) : Bool :=
  s.ops.all (fun e => !(decide (e.1 < k) && e.2.warp == c.warp && e.2.lane == c.lane && e.2.beforeCore)) &&
    s.remotes.all (fun e => !(decide (e.1 < k) && e.2.warp == c.warp && e.2.lane == c.lane)) &&
    s.spills.all (fun e => !(decide (e.1 < k) && e.2.warp == c.warp && e.2.recs.any fun r => r.1 == c.lane)) &&
    s.cmds.all fun e => !(decide (e.1 < k) && e.2.warp == c.warp && e.2.want != [])

/-- The moves of a command with their positions among its bytes. -/
def CmdKind.steps (k : CmdKind) : List (Nat × Move) :=
  (k.moves.zip (List.range k.moves.length)).map fun m => (m.1.n * m.2, m.1)

/-- The block and 8-byte unit of a side in a local store. -/
def State.unitOf (s : State) (c : Cmd) (x : Side) : Option (Nat × Nat) :=
  match x with
  | .loc a d => (s.lsTarget c.block a).map fun t => (t, (lsOff (BitVec.ofNat 32 a) + d) / 8)
  | .glob _ | .fill _ => none

/-- The physical line of a side in global memory. -/
def Cmd.lineOf (c : Cmd) (x : Side) : Option Nat :=
  match x with
  | .glob va => if va / 4096 = 1 then none else some (c.pa va / 128)
  | .loc _ _ | .fill _ => none

/-- Is a line still to be written by a command that is queued before this one on the same engine, and has been granted it?
The engine's read of it waits (R257). DEDUCED, log 46. -/
def State.earlierHolds (s : State) (k : Nat) (c : Cmd) (line : Nat) : Bool :=
  ((s.core c.core).engineQ.takeWhile (· != k)).any fun j => match s.cmds.get? j with
    | some d => d.lines.contains line && !d.want.contains line && !d.written.contains line
    | none => false

/-- Does the engine read a line in its own copy: it owns the line, and no access that the issuing thread made there before
the command is still on its way (R255)? -/
def State.engineSees (s : State) (k : Nat) (c : Cmd) (line : Nat) : Bool :=
  (s.hline line).pkg == .o (engineAgent c.core) &&
    s.ops.all fun e => !(decide (e.1 < k) && e.2.warp == c.warp && e.2.lane == c.lane && e.2.pa / 128 == line &&
      !(e.2.act matches .engine _ _))

/-- Must a read of a line wait: for an earlier command's bytes, for the command's own ownership of it, or, in a line that the
engine owns, for what the thread did there before? DEDUCED, log 46. -/
def State.readWaits (s : State) (k : Nat) (c : Cmd) (line : Nat) : Bool :=
  s.earlierHolds k c line || c.want.contains line ||
    ((s.hline line).pkg == .o (engineAgent c.core) && !s.engineSees k c line)

/-- Read one element of a command from its source, where it can be read now: a local one, one of a line that the engine
itself owns, or by a THRU read (R255, R283). -/
def State.readStep (s : State) (k : Nat) (c : Cmd) (p : Nat × Move) : State :=
  let m := p.2
  match m.src with
  | .fill v => s.engineBytes k p.1 m.n (BitVec.ofNat 64 v) false
  | .loc x d =>
    match s.lsTarget c.block x with
    | some t =>
      let B := s.block t
      let off := lsOff (BitVec.ofNat 32 x) + d
      s.engineBytes k p.1 m.n (BitVec.ofNat 64 (B.lsRead off m.n)) (B.badIn off m.n).isSome
    | none => s
  | .glob va =>
    let line := c.pa va / 128
    if va / 4096 = 1 then s.engineBytes k p.1 m.n (BitVec.ofNat 64 (s.configRead c.ctx (va % 4096) m.n)) false
    else if s.readWaits k c line then s
    else if s.engineSees k c line then
      s.engineBytes k p.1 m.n (BitVec.ofNat 64 (memRead s.mem (c.pa va) m.n)) (s.hline line).poison
    else
      s.startOp { work := 0, warp := 0, lane := 0, core := c.core, agent := engineAgent c.core, ctx := c.ctx,
                  act := .engine k p.1, pol := .thru, pa := c.pa va, len := m.n }

/-- Does a read of an element travel already? -/
def State.travels (s : State) (k pos : Nat) : Bool := s.ops.any fun e => e.2.act == .engine k pos

/-- The elements that a command has neither read nor asked for. -/
def State.unread (s : State) (k : Nat) (c : Cmd) : List (Nat × Move) :=
  c.kind.steps.filter fun p => !c.read.contains p.1 && !s.travels k p.1

/-- Ask for the global elements of a command that can be read now. -/
def State.readGlobals (s : State) (k : Nat) (c : Cmd) : State :=
  ((s.unread k c).filter fun p => (s.unitOf c p.2.src).isNone).foldl (fun s p => s.readStep k c p) s

/-- Read the elements of a command that lie in one unit of a local store. -/
def State.readUnit (s : State) (k : Nat) (c : Cmd) (u : Nat × Nat) : State :=
  ((s.unread k c).filter fun p => s.unitOf c p.2.src == some u).foldl (fun s p => s.readStep k c p) s

/-- The units of local stores that a command has still to read. -/
def State.unitsUnread (s : State) (k : Nat) (c : Cmd) : List (Nat × Nat) :=
  ((s.unread k c).filterMap fun p => s.unitOf c p.2.src).dedup

/-- ENGINE_START (R281): the command at the head starts, once its guard is true and its ring stage admits it, and the engine
has finished what a context switched out had started (R342). Its reads of global memory set out. -/
def execEngineStart (core : Nat) (s : State) : Out :=
  match s.engineHead core with
  | none => .refused .notEnabled
  | some (k, c) =>
    if s.guardOf c = .tru && !(s.block c.block).ended && s.admitted c && s.beforeCmd k c &&
        s.cmds.all (fun e => !(e.2.core == core && e.2.started && e.2.ctx != c.ctx)) &&
        (s.cmdBlocks c).all fun b => !(s.block b).ended then
      let s := (s.letIn c).readGlobals k c
      .next { s with cmds := s.cmds.modify k fun c => { c with started := true } }
    else .refused .notEnabled

/-- The engine gives up lines that none of its commands needs any more. -/
def State.engineRelease (s : State) (core : Nat) (lines : List Nat) : State :=
  lines.foldl (fun s line =>
    if s.cmds.any fun e => e.2.core == core && !e.2.saved && e.2.lines.contains line then s
    else s.send (engineAgent core) (homeOf line) line (.wb [] [] true none)) s

/-- ENGINE_DISCARD (R290, R377): the command at the head is discarded; with ARV it is first admitted, and arrives. -/
def execEngineDiscard (core : Nat) (s : State) : Out :=
  match s.engineHead core with
  | none => .refused .notEnabled
  | some (k, c) =>
    if (s.block c.block).ended then .next ((s.cmdDone k c).engineRelease core (c.lines.filter fun n => !c.want.contains n))
    else if s.guardOf c = .fls && s.admitted c then
      let s := (s.letIn c).cmdDone k c
      .next ((s.arriveFull c).engineRelease core (c.lines.filter fun n => !c.want.contains n))
    else .refused .notEnabled

/-- The bytes of a step as read, and whether they come from a poisoned or failed word. -/
def Cmd.stepVal (c : Cmd) (p : Nat × Move) : Nat × Bool :=
  (lineVal c.srcBytes p.1 p.2.n, c.srcBad.any fun q => decide (p.1 ≤ q ∧ q < p.1 + p.2.n))

/-- Write a command's elements of one destination line, in its own order: a line of which it writes every byte is no longer
poisoned (R205), and one that takes bytes of poisoned words is (R283). -/
def State.writeLine (s : State) (k : Nat) (c : Cmd) (line : Nat) : State :=
  let ps := c.kind.steps.filter fun p => c.lineOf p.2.dst == some line
  let s : State := { s with cmds := s.cmds.modify k fun c => { c with written := line :: c.written } }
  if c.dead.contains line then s
  else
    let vas := (ps.map fun p => p.2.dst).dedup.length
    let unit := (ps.map fun p => p.2.n).headD 0
    let h := s.hline line
    let bad := ps.any fun p => (c.stepVal p).2
    let s := s.setHline line { h with poison := bad || (h.poison && vas * unit != 128) }
    { s with mem := ps.foldl (fun m p => match p.2.dst with
        | .glob va => memWrite m (c.pa va) p.2.n (c.stepVal p).1
        | .loc _ _ | .fill _ => m) s.mem }

/-- Write a command's elements of one unit of a local store, R284: a unit written as a whole has its ECC restored, and one
that takes bytes of poisoned words reads back as uncorrectable (R160, R283). -/
def State.writeUnit (s : State) (k : Nat) (c : Cmd) (u : Nat × Nat) : State :=
  let ps := c.kind.steps.filter fun p => s.unitOf c p.2.dst == some u
  let bad := ps.any fun p => (c.stepVal p).2
  let whole := (ps.map fun p => p.2.n).sum == 8
  let s := s.modBlock u.1 fun B =>
    let B := ps.foldl (fun B p => match p.2.dst with
      | .loc a d => B.lsWrite (lsOff (BitVec.ofNat 32 a) + d) p.2.n (c.stepVal p).1
      | .glob _ | .fill _ => B) B
    { B with lsBad := if bad then insertNat B.lsBad u.2 else if whole then B.lsBad.filter (· != u.2) else B.lsBad }
  { s with cmds := s.cmds.modify k fun c => { c with units := u :: c.units } }

/-- The units of local stores that a command writes. -/
def State.unitsOf (s : State) (c : Cmd) : List (Nat × Nat) := (c.kind.moves.filterMap fun m => s.unitOf c m.dst).dedup

/-- May a started command write a line now: it owns the line, it has read all that goes there and all that it reads from
there (R283), and no earlier command of the queue has still to write there (R281)? -/
def State.lineReady (s : State) (k : Nat) (c : Cmd) (line : Nat) : Bool :=
  c.started && c.lines.contains line && !c.want.contains line && !c.written.contains line && !s.earlierHolds k c line &&
    c.kind.steps.all fun p => c.read.contains p.1 || !(c.lineOf p.2.dst == some line || c.lineOf p.2.src == some line)

/-- The same of a unit of a local store. -/
def State.unitReady (s : State) (k : Nat) (c : Cmd) (u : Nat × Nat) : Bool :=
  c.started && !c.units.contains u && !(u.1 != c.block && (s.block u.1).ended) &&
    (((s.core c.core).engineQ.takeWhile (· != k)).all fun j => match s.cmds.get? j with
      | some d => d.units.contains u || !(s.unitsOf d).contains u
      | none => true) &&
    c.kind.steps.all fun p => c.read.contains p.1 || !(s.unitOf c p.2.dst == some u || s.unitOf c p.2.src == some u)

/-- The error record of a command whose sources were poisoned: KIND 4, the range of the bytes written poisoned (R376). -/
def State.reportEngine (s : State) (c : Cmd) : State :=
  let bad := (c.kind.moves.foldl (fun (r : List Nat × Nat) m =>
    let hit := (List.range m.n).filter fun j => c.srcBad.contains (r.2 + j)
    let a := match m.dst with
      | .loc x d => x + d
      | .glob va => c.pa va
      | .fill _ => 0
    (r.1 ++ hit.map (a + ·), r.2 + m.n)) ([], 0)).1
  match bad.min? with
  | some lo => s.report { kind := 4, ctx := c.ctx, unit := c.core, start := lo, len := bad.foldl max 0 + 1 - lo }
  | none => s

/-- What a started command reads of the local stores now, and then writes wherever it may. -/
def State.engineAll (s : State) (k : Nat) : State :=
  match s.cmds.get? k with
  | none => s
  | some c =>
    let now (s : State) : Cmd := s.cmds.getD k c
    let s := (s.unitsUnread k c).foldl (fun s u => s.readUnit k c u) s
    let s := c.lines.foldl (fun s n => if s.lineReady k (now s) n then s.writeLine k (now s) n else s) s
    (s.unitsOf c).foldl (fun s u => if s.unitReady k (now s) u then s.writeUnit k (now s) u else s) s

/-- Has a command written all that it writes? -/
def State.allWritten (s : State) (c : Cmd) : Bool := c.lines.all c.written.contains && (s.unitsOf c).all c.units.contains

/-- ENGINE_COMPLETE (R258): what is left is read and written, so that every byte is written; the command arrives on its ring,
and its flag and batch advance. DEDUCED, log 46. -/
def execEngineComplete (cmd : Nat) (s : State) : Out :=
  match s.cmds.get? cmd with
  | none => .refused .notEnabled
  | some c =>
    let reading := s.ops.any fun e => match e.2.act with
      | .engine k _ => k == cmd
      | .ld _ | .st | .at_ _ _ | .rd _ _ | .pre | .refill _ _ => false
    if c.started && !c.saved && c.want == [] && !reading then
      let t := s.engineAll cmd
      match t.cmds.get? cmd with
      | some c =>
        if t.allWritten c then .next (((t.reportEngine c).arriveFull c).cmdDone cmd c) else .refused .notEnabled
      | none => .refused .notEnabled
    else .refused .notEnabled

/-- What a started command does on its way, line by line: reads that an earlier command held back set out, and a line whose
bytes have all been read is written and becomes visible (R257). -/
def engineMoves (cmd : Nat) (s : State) : Out :=
  match s.cmds.get? cmd with
  | none => .refused .notEnabled
  | some c =>
    if !c.started || c.saved then .refused .notEnabled
    else if ((s.unread cmd c).any fun p => match c.lineOf p.2.src with
        | some n => !s.readWaits cmd c n
        | none => false) then .next (s.readGlobals cmd c)
    else
      match c.lines.find? (s.lineReady cmd c) with
      | some n => .next (s.writeLine cmd c n)
      | none => .refused .notEnabled

/-- One unit of a local store is read or written by a command, R284. -/
def engineUnit (cmd : Nat) (write : Bool) (u : Nat × Nat) (s : State) : Out :=
  match s.cmds.get? cmd with
  | none => .refused .notEnabled
  | some c =>
    if write then when (s.unitReady cmd c u && (s.unitsOf c).contains u) (s.writeUnit cmd c u)
    else when (c.started && (s.unitsUnread cmd c).contains u) (s.readUnit cmd c u)

/-- One destination line is written by a command, R257. -/
def engineLine (cmd line : Nat) (s : State) : Out :=
  match s.cmds.get? cmd with
  | none => .refused .notEnabled
  | some c => when (s.lineReady cmd c line) (s.writeLine cmd c line)

/-- The engine's own copy of a line has come: what its commands have asked for there is read in it, and what their requests
bring then counts for nothing. -/
def State.readGranted (s : State) (core line : Nat) : State :=
  s.ops.foldl (fun s e =>
    match e.2.act with
    | .engine k _ =>
      match s.cmds.get? k with
      | some c =>
        if e.2.agent = engineAgent core ∧ e.2.pa / 128 = line ∧ s.engineSees k c line then
          s.opDone e.1 e.2 (BitVec.ofNat 64 (memRead s.mem e.2.pa e.2.len))
        else s
      | none => s
    | .ld _ | .st | .at_ _ _ | .rd _ _ | .pre | .refill _ _ => s) s

/-- OWNERSHIP_GRANT (R256): a destination line is the engine's; its Lx goes into the warp's sr.gwct. A line that no
command needs any more is given back. -/
def execOwnershipGrant (msg : Nat) (s : State) : Out :=
  withMsg msg s (fun b => match b with | .grant none _ _ => true | .poisoned k => k == 0 | _ => false) fun m =>
    let core := m.dst - 256
    let s := { s with msgs := s.msgs.del msg }
    let (lx, dead) := match m.body with
      | .grant _ _ c => (c.lx, false)
      | _ => (0, true)
    match (s.core core).engineQ.find? fun k => ((s.cmds.get? k).map fun c => c.want.contains m.line).getD false with
    | some k =>
      let s := { s with cmds := s.cmds.modify k fun c =>
        { c with want := c.want.filter (· != m.line), dead := if dead then m.line :: c.dead else c.dead } }
      let s := s.gwct (((s.cmds.get? k).map (·.warp)).getD 0) lx
      .next (if dead then s else s.readGranted core m.line)
    | none => .next (if dead then s else s.engineRelease core [m.line])

/-! ## Guard slots, R291 -/

/-- The registers that G.SET reads. -/
def GVal.reads (v : GVal) : List Nat :=
  match v with
  | .q n => [48 + n.val]
  | .fls | .tru => []

def execGSet (slot : Fin 8) (v : GVal) (s : State) : Out :=
  warpwise s (GVal.reads v) fun W =>
    let t := match v with
      | .q n => W.getQ n
      | .fls => false
      | .tru => true
    { W with guards := W.guards.set slot.val (if t then .tru else .fls) }

/-- Does a queued, unstarted command of a warp name a slot? -/
def State.slotNamed (s : State) (w slot : Nat) : Bool :=
  s.cmds.any fun e => e.2.warp == w && !e.2.started && e.2.guard == some slot

def execGClr (slot : Fin 8) (s : State) : Out :=
  issueUni s [] fun g gr s =>
    if gr.warpIds.any fun w => s.slotNamed w slot.val then .next (s.parkGroup g (.guardClear slot.val) gr.memo)
    else
      let s := gr.warpIds.foldl (fun s w => s.modWarp w fun W => { W with guards := W.guards.del slot.val }) s
      .next (s.retire g gr)

/-! ## RG, R295 -/

/-- The ring, stage and third operand of a lane. -/
def rgArgs (W : Warp) (L : Lane) (o : Ops) : Nat × Nat × Word := ((src32 W L o.a).toNat, (src32 W L o.b).toNat, src32 W L o.c)

/-- Does a queued command or a parked lane of the block name a ring? -/
def State.ringNamed (s : State) (b ring : Nat) : Bool :=
  let names (gr : Group) : Bool := match decode (gr.words.drop ((gr.pc - gr.hdr).toNat / 4 - 1)) with
    | .ok (.rgArv o _) _ => gr.memo.who.any fun x => let W := s.warp x.1; (rgArgs W (W.lane x.2) o).1 == ring
    | .ok (.cpTile _ m) _ | .ok (.cpLin _ m) _ | .ok (.cpGath _ m) _ => (m.arv.map (·.val)) == some ring
    | _ => false
  s.cmds.any (fun e => e.2.block == b && (e.2.arv.map (·.1)) == some ring) ||
    s.groups.any fun e => e.2.block == b && (match e.2.park with
      | .ring r _ _ _ => r == ring
      | .run => false
      | _ => names e.2)

/-- RG.INIT's checks for a warp. It names no stage, and TAD holds 0 for it. DESIGN CHOICE, log 88. -/
def State.rgInitCheck (s : State) (gr : Group) (w l : Nat) (o : Ops) : Option Raise :=
  let W := s.warp w
  let (r, base, ctl) := rgArgs W (W.lane l) o
  let x : Word := BitVec.ofNat 32 base
  let n := (ctl.toNat % 16 + 1) * (128 * (ctl.toNat / 2 ^ 4 % 2 ^ 12))
  let fc := ctl.toNat / 2 ^ 16 % 256
  let ec := ctl.toNat / 2 ^ 24
  if 7 < r ∨ fc = 0 ∨ ec = 0 ∨ n = 0 ∨ s.ringNamed gr.block r then some ⟨w, .ring, ringTad r 0, 0, false⟩
  else if s.lsTarget gr.block base ≠ some gr.block then some ⟨w, .lsrange, x.setWidth 64, 0, false⟩
  else (s.lsCheck gr.block x 128 n true).map fun c => ⟨w, c, x.setWidth 64, 0, false⟩

/-- RG.INIT: once for each warp with executing thread lanes, ascending, by its lowest one. -/
def execRgInit (o : Ops) (s : State) : Out :=
  issueLead s false o {} fun g gr s =>
    let r := gr.warpIds.foldl (fun (r : State × List Raise) w =>
      match s.leadOf gr o.pr w with
      | none => r
      | some l =>
        match r.1.rgInitCheck gr w l o with
        | some x => (r.1, r.2 ++ [x])
        | none =>
          let W := s.warp w
          let (n, base, ctl) := rgArgs W (W.lane l) o
          let x : Ring :=
            { base := base % 2 ^ 19, s := ctl.toNat % 16 + 1, sz := 128 * (ctl.toNat / 2 ^ 4 % 2 ^ 12),
              fc := ctl.toNat / 2 ^ 16 % 256, ec := ctl.toNat / 2 ^ 24 }
          (r.1.modBlock gr.block fun B => { B with rings := B.rings.set n x }, r.2)) (s, [])
    r.1.raising g gr r.2 fun gr s => .next (s.retire g gr)

/-- RING where a lane's ring or stage does not exist. -/
def State.rgCheck (s : State) (gr : Group) (o : Ops) : List Raise :=
  gr.warpIds.filterMap fun w =>
    firstFail w (s.execThreads gr o.pr) (fun x =>
      let W := s.warp x.1
      let (r, st, _) := rgArgs W (W.lane x.2) o
      match (s.block gr.block).rings.get? r with
      | some ring => if ring.s ≤ st then some (.ring, ringTad r st, false) else none
      | none => some (.ring, ringTad r st, false))

/-- RG.ARV: each lane arrives once its own earlier work is where R294 asks; the others of the group wait on. -/
def execRgArv (o : Ops) (bar : Bar) (s : State) : Out :=
  issueLane s false o {} fun g gr s =>
    s.raising g gr (if gr.memo.asked then [] else s.rgCheck gr o) fun gr s =>
      let who := if gr.memo.asked then gr.memo.who else s.execThreads gr o.pr
      let ready := who.filter fun x => s.fencedCore [x]
      let s := ready.foldl (fun s x =>
        let W := s.warp x.1
        let (r, st, _) := rgArgs W (W.lane x.2) o
        s.modRing gr.block r (·.arrive st bar)) s
      let rest := who.filter fun x => !ready.contains x
      if rest = [] then .next (s.retire g gr)
      else .next (s.parkGroup g (.arrive false) { gr.memo with asked := true, who := rest })

/-- Has a ring barrier completed the phase that a lane waits for? -/
def State.phasePassed (s : State) (b r st : Nat) (bar : Bar) (parity : Bool) : Bool :=
  match (s.block b).rings.get? r with
  | some x => (match bar with
    | .full => (x.stage st).fp
    | .empty => (x.stage st).ep) != parity
  | none => false

def execRgWait (o : Ops) (bar : Bar) (s : State) : Out :=
  issueLane s false o {} fun g gr s =>
    s.raising g gr (s.rgCheck gr o) fun gr s =>
      let waits := (s.execThreads gr o.pr).filterMap fun x =>
        let W := s.warp x.1
        let (r, st, c) := rgArgs W (W.lane x.2) o
        if s.phasePassed gr.block r st bar (c.getLsbD 0) then none else some (x, Park.ring r st bar (c.getLsbD 0))
      .next (s.waitApart g gr waits)

end Sys2Proof.Machine
end

