-- ==== Sys2Proof/Machine/Control.lean ====
section
/-! DEFINITION. Forming groups, control transfers, calls, exits, naps (05_threads_control R94 to R104, R109 to R115;
02_encoding R18, R38, R39, R43). -/

namespace Sys2Proof.Machine

/-! ## The program-counter table -/

/-- Entries of a sub-core's table, sorted by clause address, then block slot (by block id), warp, lane: R94. -/
def State.table (s : State) (core sub : Nat) : List ((Nat × Nat) × Lane) :=
  let all := s.warps.flatMap fun e =>
    if e.2.core = core ∧ e.2.sub = sub then e.2.lanes.map fun x => ((e.1, x.1), x.2) else []
  let all := sortBy (fun (e : (Nat × Nat) × Lane) => 32 * (s.warp e.1.1).num + e.1.2) all
  let all := sortBy (fun (e : (Nat × Nat) × Lane) => (s.warp e.1.1).block) all
  sortBy (fun (e : (Nat × Nat) × Lane) => e.2.pc.toNat) all

def Entry.isRunnable : Entry → Bool
  | .runnable => true
  | .flagBlocked _ | .fetching _ | .group _ | .napping _ | .yielded _ | .trapped | .gone => false

/-- A context that runs: bound to a partition whose cores do not halt. -/
def State.issuing (s : State) (ctx : Nat) : Bool :=
  match (s.ctx ctx).status with
  | .bound _ => true
  | .saved | .draining _ => false

/-! ## Instruction fetch -/

/-- What a fetch of words finds. -/
inductive Fetched where
  | words (ws : List Word)
  | walk (va : DWord) (lvl table : Nat) (fresh : Bool)
  | line (line : Nat)                       -- a line that the device must ask its home for
  | fault (va : DWord) (c : Cause)
  deriving DecidableEq, Repr

/-- What a core's fetch path finds of a line. -/
inductive CodeLine where
  | there (bytes : AMap Byte)
  | away
  | bad                                     -- poisoned
  deriving DecidableEq, Repr

/-- A line of code in a core's fetch path. -/
def State.keepCode (s : State) (core line : Nat) (bytes : AMap Byte) : State :=
  s.modCore core fun c => { c with icache := c.icache.set line bytes }

/-- Bring a line of code into a core's fetch path, R43: what is there stays until it is invalidated. A line that the
device does not reach at once comes from its home. DEDUCED, log 12. -/
def State.fetchLine (s : State) (core line : Nat) : State × CodeLine :=
  match (s.core core).icache.get? line, s.fetched.get? line with
  | some l, _ => (s, .there l)
  | none, some d => if (d.get? 128).isSome then (s, .bad) else (s.keepCode core line d, .there d)
  | none, none =>
    if (s.hline line).poison then (s, .bad)
    else if s.atHand line false || !hasMem line then
      let s := s.settle line false
      (s.keepCode core line (lineBytes s.mem line), .there (lineBytes s.mem line))
    else (s, .away)

/-- The translation of a code address: code never runs from register space or the configuration page (R328). -/
def State.lookCode (s : State) (ctx : Nat) (va : DWord) : Look :=
  match s.look ctx va { ex := true } with
  | .pa a => match placeOf a with
    | .dev _ _ | .host _ => .pa a
    | .reg _ | .hostReg _ | .nothing => .fault .prot
  | .config o => .config o
  | .fault c => .fault c
  | .walk l t f => .walk l t f

/-- The lines of code that lanes still fetch as they were: the core has dropped them, and a lane has executed no control
transfer since (R43). In a group some of whose lanes have executed one, the spec does not say which words come: the old
lines do, for the whole group. DESIGN CHOICE, log 81. -/
def State.oldCode (s : State) (ls : List (Nat × Nat)) : AMap (AMap Byte) :=
  ls.foldl (fun m x => (s.lane x.1 x.2).oldCode.foldl (fun m e => if m.keys.contains e.1 then m else m.set e.1 e.2) m) []

/-- Fetch n words from an address; `old` are lines that the lanes fetch as they were. -/
def State.fetch (s : State) (core ctx : Nat) (old : AMap (AMap Byte)) (va : DWord) : Nat → State × Fetched
  | 0 => (s, .words [])
  | n + 1 =>
    match s.lookCode ctx va with
    | .pa a =>
      match (match old.get? (a / 128) with
        | some l => (s, CodeLine.there l)
        | none => s.fetchLine core (a / 128)) with
      | (s, .away) => (s, .line (a / 128))
      | (s, .bad) => (s.reportPoison ctx [a / 128], .fault va .prot)
      | (s, .there l) =>
        match s.fetch core ctx old (va + 4) n with
        | (s, .words ws) => (s, .words (BitVec.ofNat 32 (lineVal l (a % 128) 4) :: ws))
        | (s, .walk va l t f) => (s, .walk va l t f)
        | (s, .line k) => (s, .line k)
        | (s, .fault va c) => (s, .fault va c)
    | .config _ => (s, .fault va .prot)
    | .fault c => (s, .fault va c)
    | .walk l t f => (s, .walk va l t f)

/-- The core's fetch path drops lines of code: its threads fetch them as they were until they transfer control (R43). -/
def State.dropCode (s : State) (core : Nat) (lines : List Nat) : State :=
  let gone := (s.core core).icache.filter fun e => lines.contains e.1
  if gone = [] then s
  else
    let keep (L : Lane) : Lane :=
      { L with oldCode := gone.foldl (fun m e => if m.keys.contains e.1 then m else m.set e.1 e.2) L.oldCode }
    let upd (e : Nat × Warp) : Nat × Warp :=
      if e.2.core = core then (e.1, { e.2 with lanes := e.2.lanes.map fun x => (x.1, keep x.2) }) else e
    let s := { s with warps := s.warps.map upd }
    s.modCore core fun x => { x with icache := x.icache.filter fun e => !lines.contains e.1 }

/-- Does the header at which a lane stands name a flag that its warp has set (R39, R94)? A header that is not translated
or not at hand yet is no reason to hold a lane back. -/
def State.headerBlocks (s : State) (W : Warp) (L : Lane) : Bool :=
  match s.lookCode (s.block W.block).ctx L.pc with
  | .pa a =>
    let near := s.atHand (a / 128) false && !(s.hline (a / 128)).poison
    let line := ((L.oldCode.get? (a / 128)).or ((s.core W.core).icache.get? (a / 128))).getD
      (if near then lineBytes (s.settle (a / 128) false).mem (a / 128) else [])
    let w : Word := BitVec.ofNat 32 (lineVal line (a % 128) 4)
    match isHeader w, decodeHeader w with
    | true, some h => !W.passes h.wait
    | _, _ => false
  | .config _ | .fault _ | .walk _ _ _ => false

/-! ## Grouping, R95 -/

/-- The group that the grouping stage forms, R95: its block, its address and its lanes. A stopped sub-core and a core
that halts form none (R342, R374), a flag-blocked entry takes no part (R94). Lanes in handler mode are grouped only with each other (R332). -/
def State.formation (s : State) (core sub : Nat) : Option (Nat × DWord × Bool × List (Nat × Nat)) :=
  let c := s.core core
  if c.halting || c.stop.getLsbD sub then none
  else
    let cand := (s.table core sub).filter fun e =>
      let W := s.warp e.1.1
      e.2.entry.isRunnable && s.issuing (s.block W.block).ctx && !(s.block W.block).zeroing && !W.dbgHalt &&
        !s.headerBlocks W e.2
    let pick (best : Option ((Nat × Nat) × Lane)) (e : (Nat × Nat) × Lane) : Option ((Nat × Nat) × Lane) :=
      match best with
      | none => some e
      | some b => if e.2.since < b.2.since then some e else some b
    let head := ((cand.filter (·.2.promoted)).foldl pick none).or cand.head?
    head.map fun h =>
      let b := (s.warp h.1.1).block
      let run := cand.filter fun e =>
        e.2.pc == h.2.pc && (s.warp e.1.1).block == b && e.2.handler == h.2.handler
      (b, h.2.pc, h.2.handler, (run.map (·.1)).take 32)

def hdrLen (h : ClauseHdr) : Nat := if h.len.val = 0 then 32 else h.len.val

/-- Once a group starts a clause, entries that X.YIELD held back for another run may join groups again (R114). -/
def State.endYields (s : State) (core sub : Nat) (b : Nat) (a : DWord) : State :=
  s.warps.foldl (fun s e =>
    if e.2.core = core ∧ e.2.sub = sub then
      e.2.lanes.foldl (fun s x =>
        match x.2.entry with
        | .yielded _ =>
          if x.2.pc = a ∧ e.2.block = b then s
          else s.modLane e.1 x.1 fun L => { L with entry := .runnable, since := s.clock }
        | .runnable | .flagBlocked _ | .fetching _ | .group _ | .napping _ | .trapped | .gone => s) s
    else s) s

/-- A clause header: the lanes of warps whose WAIT flags are clear start the clause as one group; the others become
flag-blocked (R38, R39, R95, R100). Where no sub-core starts a clause, or the clause is not all there, none starts: what it
then waits for, `State.startClause` asks for. -/
def execClauseHeader (h : ClauseHdr) (s : State) : Out :=
  match s.focus with
  | .none | .group _ => .next s
  | .sub core sub =>
    match s.formation core sub with
    | none => .next { s with focus := .none }
    | some (b, a, handler, ls) =>
      let ctx := (s.block b).ctx
      match s.fetch core ctx (s.oldCode ls) (a + 4) (hdrLen h) with
      | (s, .words ws) =>
        let blocked := ls.filter fun x => !(s.warp x.1).passes h.wait
        let go := ls.filter fun x => (s.warp x.1).passes h.wait
        let s := blocked.foldl (fun s x => s.modLane x.1 x.2 fun L => { L with entry := .flagBlocked h.wait }) s
        if go = [] then .next { s with focus := .none }
        else
          let (g, s) := s.newId
          let gr : Group :=
            { core, sub, block := b, lanes := go, handler, hdr := a, words := ws, seta := h.seta, setb := h.setb,
              pc := a + 4, next := a + 4 }
          let s := { s with groups := s.groups.set g gr, focus := .group g }
          let s := go.foldl (fun s x => s.modLane x.1 x.2 fun L => { L with entry := .group g, promoted := false }) s
          let s := s.endYields core sub b a
          let s := s.count core sub 0x01 1 ctx
          .next (if go.length < 32 then s.count core sub 0x04 1 ctx else s)
      | (s, .walk _ _ _ _) | (s, .line _) | (s, .fault _ _) => .next { s with focus := .none }

/-- PROMOTED (R97): an entry has been runnable for more than 1,024 cycles. -/
def execPromoted (w l : Nat) (s : State) : Out :=
  let L := s.lane w l
  if L.entry.isRunnable && !L.promoted && decide (L.since + Config.promoteCycles < s.clock) then
    let W := s.warp w
    .next ((s.modLane w l fun L => { L with promoted := true }).count W.core W.sub 0x05 1 (s.block W.block).ctx)
  else .refused .notEnabled

/-! ## Branches, R112, R115 -/

/-- Lanes have executed a control transfer: from now on they fetch what their core holds (R43). -/
def State.sawTransfer (s : State) (ls : List (Nat × Nat)) : State :=
  ls.foldl (fun s x => if (s.lane x.1 x.2).oldCode = [] then s else s.modLane x.1 x.2 fun L => { L with oldCode := [] }) s

/-- Lanes that execute go to their targets, the others to the word after the clause. -/
def State.transfer (s : State) (g : Nat) (gr : Group) (ex : List (Nat × Nat)) (target : Nat × Nat → DWord) : State :=
  s.endClause g gr fun x => if ex.contains x then (target x, some gr.pc) else (gr.clauseEnd, none)

/-- ALIGN for code addresses whose low bits are not 0, R18: per warp, TAD the lowest failing thread lane's address. -/
def State.codeAlign (s : State) (gr : Group) (ex : List (Nat × Nat)) (target : Nat × Nat → DWord) : List Raise :=
  gr.warpIds.filterMap fun w =>
    (ex.find? fun x => x.1 == w && s.isLive x && target x &&& 3 != 0).map fun x => ⟨w, .align, target x, 0, false⟩

def execBrRel (off : BitVec 24) (pr : Pred) (s : State) : Out :=
  issueBranch s pr fun g gr s =>
    .next (s.transfer g gr (s.execs gr pr) fun _ => gr.pc + 4 * off.signExtend 64)

/-- The address pair of BR.IND and CL.CALLI; a helper lane's address loses its low bits (R103). DEDUCED, log 29. -/
def State.indTarget (s : State) (o : Ops) (x : Nat × Nat) : DWord :=
  let W := s.warp x.1
  let a := src64 W (W.lane x.2) o.a
  if s.isLive x then a else a &&& ~~~3

def execBrInd (o : Ops) (s : State) : Out :=
  issueLane s false o ⟨1, 2, 1, 1, false, []⟩ fun g gr s =>
    s.raising g gr (s.codeAlign gr (s.execs gr o.pr) (s.indTarget o)) fun gr s =>
      .next (s.transfer g gr (s.execs gr o.pr) (s.indTarget o))

def UOff.words : UOff → DWord
  | .short o => o.signExtend 64
  | .long w => w.signExtend 64

/-- A uniform branch: `take` says for each warp what it becomes and whether its lanes branch. Every lane has executed a
control transfer (R43). -/
def uniBranch (s : State) (reads : List Nat) (off : UOff) (take : Warp → Warp × Bool) : Out :=
  issueUni s reads fun g gr s =>
    let yes := gr.warpIds.filter fun w => (take (s.warp w)).2
    let s := gr.warpIds.foldl (fun s w => s.modWarp w fun W => (take W).1) s
    let s := s.transfer g gr (gr.lanes.filter fun x => yes.contains x.1) fun _ => gr.pc + 4 * UOff.words off
    .next (s.sawTransfer gr.lanes)

def execUbBra (cnd : Option (Fin 8)) (off : UOff) (s : State) : Out :=
  uniBranch s (cnd.toList.map fun q => 48 + q.val) off fun W => (W, match cnd with
    | none => true
    | some q => W.getQ q)

def execUbLoop (sx : Fin 48) (off : UOff) (s : State) : Out :=
  uniBranch s [sx.val] off fun W => (W.setS sx.val (W.getS sx.val - 1), W.getS sx.val - 1 != 0)

/-! ## Calls and returns, R109, R110, R113 -/

/-- sr.held. -/
def Lane.heldBits (l : Lane) : BitVec 8 := BitVec.ofNat 8 (2 ^ l.slots.length - 1)

/-- Push a return entry; the oldest of sixteen goes to memory (R110). -/
def Lane.push (l : Lane) (ret : DWord) : Lane :=
  let full := decide (16 ≤ l.stack.length)
  { l with depth := l.depth + 1, stack := ⟨ret, l.heldBits⟩ :: l.stack.take 15,
           rsp := if full then l.rsp - 16 else l.rsp }

/-- An OWN plain access of a thread to its return stack, R110; it is tracked by no flag. -/
def State.stackOp (s : State) (gr : Group) (h : Hit) (off : Nat) (act : Act) (val : DWord) : State :=
  let (work, s) := s.attachTo none h.acc.w 1
  let s := s.startOp
    { work, warp := h.acc.w, lane := h.acc.l, core := gr.core, agent := gr.core, ctx := (s.block gr.block).ctx,
      act, pol := .own, pa := h.pa + off, len := 8, val, vpage := h.acc.va.toNat / 4096, va := h.acc.va }
  s.settleWork work

/-- STACK, R109, R110: a call at depth 65,535, whose TAD the spec leaves open, or a spill below the region's base. -/
def stackTraps (s : State) (gr : Group) (ex : List (Nat × Nat)) : List Raise × State :=
  gr.warpIds.foldl (fun (r : List Raise × State) w =>
    match ex.find? fun x => x.1 == w && r.2.isLive x &&
        (let L := r.2.lane x.1 x.2; decide (65535 ≤ L.depth) || (decide (16 ≤ L.stack.length) && (L.rsp - 16).slt L.stkBase)) with
    | some x =>
      let L := r.2.lane x.1 x.2
      if 65535 ≤ L.depth then
        let (f, s) := r.2.drawFree
        (r.1 ++ [⟨w, .stack, f, 0, false⟩], s)
      else (r.1 ++ [⟨w, .stack, L.rsp - 16, 0, false⟩], r.2)
    | none => r) ([], s)

/-- A call: the checks, the spills, the pushes, and the transfer. -/
def callForm (g : Nat) (gr : Group) (pr : Pred) (target : Nat × Nat → DWord) (s : State) : Out :=
  let (rs, s) := stackTraps s gr (s.execs gr pr)
  s.raising g gr rs fun gr s =>
    s.raising g gr (s.codeAlign gr (s.execs gr pr) target) fun gr s =>
      let spills := (s.execThreads gr pr).filter fun x => 16 ≤ (s.lane x.1 x.2).stack.length
      let accs := spills.map fun x => (⟨x.1, x.2, (s.lane x.1 x.2).rsp - 16, { wr := true }⟩ : Acc)
      accessing s g gr accs 1 (fun h => if h.isReg || s.poisoned h then some .prot else none) fun gr hits s =>
        -- a spill touches nothing (R261), and learns only whether its line on another chip is poisoned
        colouring s g gr (hits.filter (·.isDev)) (fun c => c.st == .e || c.st == .m) (prot := fun _ f => f == 1)
          (plain := true) fun gr s =>
        let hits := hits.filter fun h => gr.lanes.contains (h.acc.w, h.acc.l)
        if s.busyLines gr.core hits ≠ [] then
          .next (s.parkGroup g (.lines gr.core (s.busyLines gr.core hits)) gr.memo)
        else
          let s := hits.foldl (fun s h =>
            let e := ((s.lane h.acc.w h.acc.l).stack.getLast?).getD ⟨0, 0⟩
            (s.stackOp gr h 0 .st (e.ret &&& 0x0FFFFFFFFFFFFFFF)).stackOp gr h 8 .st (e.held.setWidth 64)) s
          -- a helper lane whose push would spill ends instead (R103)
          let ends := (s.execHelpers gr pr).filter fun x => 16 ≤ (s.lane x.1 x.2).stack.length
          let ex := (s.execs gr pr).filter fun x => !ends.contains x
          let dest := ex.map fun x => (x, target x)
          let s := s.eachLane ex fun _ _ L => L.push gr.clauseEnd
          let s := ends.foldl (fun s x => s.markExited x.1 x.2) s
          match s.groups.get? g with
          | some gr => .next (s.transfer g gr ex fun x => ((dest.find? fun e => e.1 == x).map (·.2)).getD 0)
          | none => .next s

def execClCall (off : BitVec 24) (pr : Pred) (s : State) : Out :=
  issueBranch s pr fun g gr s => callForm g gr pr (fun _ => gr.pc + 4 * off.signExtend 64) s

def execClCalli (o : Ops) (s : State) : Out :=
  issueLane s false o ⟨1, 2, 1, 1, false, []⟩ fun g gr s => callForm g gr o.pr (s.indTarget o) s

/-! ## Leaving a handler, R331, R347 -/

/-- Word addresses at which the instructions of a clause begin, from its first word's address. -/
def clauseStarts (a : DWord) : Nat → List Word → List DWord
  | 0, _ => []
  | _, [] => []
  | n + 1, w0 :: rest =>
    let k := wordCount w0 (rest.headD 0)
    a :: clauseStarts (a + BitVec.ofNat 64 (4 * k)) n ((w0 :: rest).drop k)

/-- Where lanes that return with RES go. -/
inductive Resume where
  | start                                   -- at the header, with its WAIT check
  | within (h : ClauseHdr) (ws : List Word) -- inside the clause
  | clause                                  -- TPC begins no instruction of the clause at TCH
  | walk (va : DWord) (lvl table : Nat) (fresh : Bool)
  | line (line : Nat)
  | fault (va : DWord) (c : Cause)
  deriving DecidableEq, Repr

/-- Find where TPC and TCH lead; the clause is fetched again for it. `ids` are walks already waited for.
DEDUCED, log 42. -/
def State.resumePoint (s : State) (core ctx : Nat) (ids : List Nat) (old : AMap (AMap Byte)) (a h : DWord) :
    State × Resume :=
  if a = h then (s, .start)
  else
    let faultOf (va : DWord) : Option Cause := (s.walkFault ids ctx va { ex := true }).map causeOf
    match s.fetch core ctx old h 1 with
    | (s, .walk va l t f) => (s, match faultOf va with
      | some c => .fault va c
      | none => .walk va l t f)
    | (s, .line k) => (s, .line k)
    | (s, .fault va c) => (s, .fault va c)
    | (s, .words w) =>
      match decodeHeader (w.headD 0) with
      | none => (s, .clause)
      | some hd =>
        match s.fetch core ctx old (h + 4) (hdrLen hd) with
        | (s, .walk va l t f) => (s, match faultOf va with
          | some c => .fault va c
          | none => .walk va l t f)
        | (s, .line k) => (s, .line k)
        | (s, .fault va c) => (s, .fault va c)
        | (s, .words ws) =>
          (s, if (clauseStarts (h + 4) ws.length ws).contains a then .within hd ws else .clause)

/-- The helper lanes of a warp that are parked, and whose words no pending trap still holds. DEDUCED, log 66. -/
def State.parkedHelpers (s : State) (w : Nat) : List Nat :=
  let W := s.warp w
  (W.lanes.filter fun e => e.2.life == .helper && (match e.2.entry with
    | .group g => match s.groups.get? g with
      | some gr => gr.park == .helpers && !W.pending.any fun t => t.tpc == gr.pc
      | none => false
    | .trapped => !W.pending.any fun t => t.tpc == e.2.pc
    | .runnable | .flagBlocked _ | .fetching _ | .napping _ | .yielded _ | .gone => false)).map (·.1)

/-- Lanes of a warp, already out of their groups, go where a return leads, those of them that have not ended. -/
def State.resumeAt (s : State) (w : Nat) (ls : List Nat) (a h : DWord) (r : Resume) : State :=
  let W := s.warp w
  let ls := ls.filter fun l => (W.lane l).life == .live || (W.lane l).life == .helper
  if ls = [] then s
  else
    match r with
    | .start => ls.foldl (fun s l => s.modLane w l (·.enter h none s.clock)) s
    | .within hd ws =>
      let (g, s) := s.newId
      let gr : Group :=
        { core := W.core, sub := W.sub, block := W.block, lanes := ls.map fun l => (w, l), hdr := h, words := ws,
          seta := hd.seta, setb := hd.setb, pc := a, next := a }
      let s := { s with groups := s.groups.set g gr }
      ls.foldl (fun s l => s.modLane w l fun L => { L with entry := .group g }) s
    | .clause =>
      let ts := ls.filter fun l => s.isLive (w, l)
      let s := ls.foldl (fun s l => s.modLane w l fun L => { L with entry := .trapped, pc := a }) s
      if ts = [] then s else s.takeTrap w { code := Cause.clause.code, tpc := a, tad := a, tch := h, lanes := ts }
    | .fault va c =>
      let ts := ls.filter fun l => s.isLive (w, l)
      let s := ls.foldl (fun s l => s.modLane w l fun L => { L with entry := .trapped, pc := h }) s
      if ts = [] then s else s.takeTrap w { code := c.code, fetch := true, tpc := h, tad := va, tch := h, lanes := ts }
    | .walk _ _ _ _ | .line _ => s

/-- Thread lanes leave handler mode, and go where TPC and TCH lead or end. Where they are the warp's last, the block of an
LSECC ends and a pending trap is taken (R331, R160); then they go, and the parked helper lanes with them (R347). -/
def State.leaveHandler (s : State) (w : Nat) (ls : List Nat) (ends : Bool) (r : Resume) : State :=
  let W := s.warp w
  let a := W.tpc
  let h := W.tch
  let s := if ends then s.endLanes W.block (ls.map fun l => (w, l))
    else ls.foldl (fun s l => (s.leaveGroup w l).modLane w l fun L => { L with handler := false }) s
  let last := !(s.warp w).inHandler
  let hs := if last then s.parkedHelpers w else []
  let s := hs.foldl (fun s l => s.leaveGroup w l) s
  let s := if last then s.takePending w else s
  s.resumeAt w (if ends then hs else ls ++ hs) a h r

/-- Groups that are not among `old` and stand at one word of one clause, with lanes of warps that one group's stop brought to
their handlers, are one group: what stopped together resumes together (R96). -/
def State.mergeResumed (s : State) (old : List Nat) (stopOf : Nat → Nat) : State :=
  let fresh := s.groups.filter fun e => !old.contains e.1
  fresh.foldl (fun s e =>
    match s.groups.get? e.1 with
    | none => s
    | some gr =>
      let stop := stopOf ((gr.lanes.headD (0, 0)).1)
      let like (x : Nat × Group) : Bool :=
        decide (e.1 < x.1) && x.2.hdr == gr.hdr && x.2.pc == gr.pc && x.2.block == gr.block && x.2.words == gr.words &&
          stop != 0 && stopOf ((x.2.lanes.headD (0, 0)).1) == stop
      let more := fresh.filter fun x => like x && (s.groups.get? x.1).isSome
      if more = [] then s
      else
        let all := sortBy (fun (x : Nat × Nat) => 32 * (s.warp x.1).num + x.2) (gr.lanes ++ more.flatMap (·.2.lanes))
        let s := all.foldl (fun s x => s.modLane x.1 x.2 fun L => { L with entry := .group e.1 }) s
        (more.foldl (fun s x => s.delGroup x.1) s).modGroup e.1 fun gr => { gr with lanes := all }) s

/-- Find for each warp of some lanes in handler mode where its TPC and TCH lead, waiting for translations of the code
there. A return that ends its lanes leads helper lanes only. -/
def resuming (s : State) (g : Nat) (gr : Group) (ls : List (Nat × Nat)) (ends : Bool)
    (k : List (Nat × Resume) → State → Out) : Out :=
  let ctx := (s.block gr.block).ctx
  let pts := (ls.map (·.1)).dedup.foldl (fun (r : State × List (Nat × Resume)) w =>
    let W := r.1.warp w
    if ends && r.1.parkedHelpers w == [] then (r.1, r.2 ++ [(w, .start)])
    else
      let (s, x) := r.1.resumePoint gr.core ctx gr.walkIds (r.1.oldCode (ls.filter (·.1 == w))) W.tpc W.tch
      (s, r.2 ++ [(w, x)])) (s, [])
  let s := pts.1.dropWalks gr.walkIds
  let misses := pts.2.filterMap fun p => match p.2 with
    | .walk va l t f => some (va, l, t, f)
    | .start | .within _ _ | .clause | .line _ | .fault _ _ => none
  let away := pts.2.filterMap fun p => match p.2 with
    | .line l => some l
    | .start | .within _ _ | .clause | .walk _ _ _ _ | .fault _ _ => none
  if misses ≠ [] then
    let r := misses.foldl (fun (r : State × List Nat) m =>
      let (k, s) := r.1.startWalk ctx m.1 { ex := true } m.2.1 m.2.2.1 m.2.2.2
      (s, k :: r.2)) (s, [])
    .next (r.1.parkGroup g (.walk r.2) gr.memo)
  else if away ≠ [] then
    .next (((away.dedup.filter fun l => !s.devBusy l).foldl
      (fun s l => s.send devAgent (homeOf l) l .devRd) s).parkGroup g (.device away) gr.memo)
  else k pts.2 s

/-- Lanes of a group leave handler mode, warp by warp (R347); without one, nothing does. -/
def State.leaveAll (s : State) (ls : List (Nat × Nat)) (ends : Bool) (pts : List (Nat × Resume)) : State :=
  let stops := pts.map fun p => (p.1, (s.warp p.1).stop)
  let old := s.groups.keys
  let s := pts.foldl (fun s p => s.leaveHandler p.1 ((ls.filter (·.1 == p.1)).map (·.2)) ends p.2) s
  s.mergeResumed old fun w => ((stops.find? fun p => p.1 == w).map (·.2)).getD 0

/-- Lanes end as X.EXIT ends them, in handler mode as TR.RETT.END does (R332); what is left of their group goes on at the
word after the clause (R101). -/
def exitForm (s : State) (g : Nat) (gr : Group) (ls : List (Nat × Nat)) : Out :=
  let rest (s : State) : State :=
    match s.groups.get? g with
    | some gr => s.endClause g gr fun _ => (gr.clauseEnd, none)
    | none => s
  if gr.handler then resuming s g gr ls true fun pts s => .next (rest (s.leaveAll ls true pts))
  else .next (rest (s.endLanes gr.block ls))

/-- CL.RET: at depth 0 a lane exits. Else its entry is refilled where none is held, checked, the colours of its frame
are released, and it pops. -/
def execClRet (o : Ops) (s : State) : Out :=
  issueLane s false o {} fun g gr s => s.raising g gr (gr.badRaises false) fun gr s =>
    let ex := s.execs gr o.pr
    let deep := ex.filter fun x => (s.lane x.1 x.2).depth != 0
    let empty := deep.filter fun x => (s.lane x.1 x.2).stack == []
    let key (x : Nat × Nat) : Nat := 32 * x.1 + x.2
    let missing := empty.filter fun x => (gr.memo.refill.get? (key x)).isNone
    if missing ≠ [] then
      let accs := missing.map fun x => (⟨x.1, x.2, (s.lane x.1 x.2).rsp, { rd := true }⟩ : Acc)
      accessing s g gr accs 1 (fun h => if h.isReg || s.poisoned h then some .prot else none) fun gr hits s =>
        if s.busyLines gr.core hits ≠ [] then
          .next (s.parkGroup g (.lines gr.core (s.busyLines gr.core hits)) gr.memo)
        else
          let s := s.parkGroup g .spill gr.memo
          .next (hits.foldl (fun s h =>
            match h.loc with
            | .config off =>
              s.modGroup g fun gr => { gr with memo := { gr.memo with
                refill := gr.memo.refill.set h.acc.key (BitVec.ofNat 64 (s.configRead (s.block gr.block).ctx off 8)) } }
            | .pa _ | .fault _ | .walk _ _ _ => s.stackOp gr h 0 (.refill g h.acc.key) 0) s)
    else
      let ret (s : State) (x : Nat × Nat) : DWord :=
        match (s.lane x.1 x.2).stack with
        | e :: _ => e.ret
        | [] => gr.memo.refill.getD (key x) 0
      s.raising g gr (s.codeAlign gr deep (ret s)) fun gr s =>
        let deep := deep.filter gr.lanes.contains
        let rel (x : Nat × Nat) : List Nat :=
          let L := s.lane x.1 x.2
          ((L.slots.filter fun c => c.depth == L.depth).map (·.colour)).reverse
        let holding := deep.filter fun x => rel x != []
        if holding ≠ [] then
          let s := s.parkGroup g .release gr.memo
          .next (holding.foldl (fun s x => s.beginRelease x.1 x.2 (rel x) none (some g)) s)
        else
          let dest := deep.map fun x => (x, ret s x)
          let s := s.eachLane deep fun _ _ L =>
            match L.stack with
            | _ :: rest => { L with stack := rest, depth := L.depth - 1 }
            | [] => { L with rsp := L.rsp + 16, depth := L.depth - 1 }
          let outs := (s.execs gr o.pr).filter fun x => !deep.contains x
          let s := s.enterAll deep fun x => (((dest.find? fun e => e.1 == x).map (·.2)).getD 0, some gr.pc)
          let rest := gr.lanes.filter fun x => !deep.contains x
          if rest = [] then .next ((s.delGroup g).unfocus g)
          else
            let s := s.modGroup g fun gr => { gr with lanes := rest }
            exitForm s g { gr with lanes := rest } outs

/-! ## Exit, yield, nap, R101, R114 -/

def execXExit (o : Ops) (s : State) : Out :=
  issueLane s false o {} fun g gr s => exitForm s g gr (s.execs gr o.pr)

/-- Executing lanes go to the next clause and wait there in a state of their own. -/
def State.waitNext (s : State) (g : Nat) (gr : Group) (ex : List (Nat × Nat)) (e : Lane → Entry) : State :=
  let s := s.endClause g gr fun _ => (gr.clauseEnd, none)
  ex.foldl (fun s x => s.modLane x.1 x.2 fun L => { L with entry := e L, oldCode := [] }) s

def execXYield (o : Ops) (s : State) : Out :=
  issueLane s false o {} fun g gr s =>
    .next (s.waitNext g gr (s.execs gr o.pr) fun _ => .yielded (s.clock + Config.yieldCycles))

def execXNap (o : Ops) (s : State) : Out :=
  issueLane s false o {} fun g gr s =>
    let t := s.timeAt gr.core
    let naps := (s.execs gr o.pr).map fun x => let W := s.warp x.1; (x, (src32 W (W.lane x.2) o.a).toNat)
    let s := s.endClause g gr fun _ => (gr.clauseEnd, none)
    .next (naps.foldl (fun s e => s.modLane e.1.1 e.1.2 fun L =>
      { L with entry := if e.2 = 0 then .yielded (s.clock + Config.yieldCycles) else .napping (t + e.2), oldCode := [] }) s)

/-- NAP_WAKE: the lane's time has come, in global time (R114). -/
def execNapWake (w l : Nat) (s : State) : Out :=
  match (s.lane w l).entry with
  | .napping t =>
    if t ≤ s.timeAt (s.warp w).core then
      .next (s.modLane w l fun L => { L with entry := .runnable, since := s.clock })
    else .refused .notEnabled
  | .runnable | .flagBlocked _ | .fetching _ | .group _ | .yielded _ | .trapped | .gone => .refused .notEnabled

/-- YIELD_EXPIRY: 64 cycles have passed, or no other entry is runnable (R114). -/
def execYieldExpiry (w l : Nat) (s : State) : Out :=
  match (s.lane w l).entry with
  | .yielded c =>
    let W := s.warp w
    if decide (c ≤ s.clock) || (s.table W.core W.sub).all fun e => !e.2.entry.isRunnable || s.headerBlocks (s.warp e.1.1) e.2 then
      .next (s.modLane w l fun L => { L with entry := .runnable, since := s.clock })
    else .refused .notEnabled
  | .runnable | .flagBlocked _ | .fetching _ | .group _ | .napping _ | .trapped | .gone => .refused .notEnabled

end Sys2Proof.Machine
end

