-- ==== Sys2Proof/Machine/Alloc.lean ====
section
/-! DEFINITION. The allocators of a core and the fit of blocks (06_registers_arithmetic R126 to R130, 07_local_store_churn
R151 to R154, 08_matrix_accumulators R173 to R175, 01_device R10). What is taken is read off the resident blocks; the free
runs of a buddy allocator that merges whenever it can follow from it. -/

namespace Sys2Proof.Machine

/-! ## Buddy allocators, R127 -/

/-- Runs that are taken: first unit and length. -/
abbrev Runs := List (Nat × Nat)

/-- Are the n units from a free? -/
def runFree (rs : Runs) (a n : Nat) : Bool := rs.all fun r => decide (r.1 + r.2 ≤ a) || decide (a + n ≤ r.1)

/-- Is the aligned run of 2^k units at a one of the allocator's free runs: free, and not part of a larger one? -/
def buddyRun (rs : Runs) (top k a : Nat) : Bool :=
  runFree rs a (2 ^ k) && (k == top || !runFree rs (a / 2 ^ (k + 1) * 2 ^ (k + 1)) (2 ^ (k + 1)))

/-- A request for g units of a store of 2^top: the first unit of the run that it takes. -/
def buddyAlloc (rs : Runs) (top g : Nat) : Option Nat :=
  ((List.range (top + 1)).filter fun k => decide (g ≤ 2 ^ k)).findSome? fun k =>
    ((List.range (2 ^ (top - k))).map (· * 2 ^ k)).find? (buddyRun rs top k)

/-- Free units in all. -/
def freeUnits (rs : Runs) (top : Nat) : Nat := 2 ^ top - (rs.map (·.2)).sum

/-! ## What a core holds -/

/-- Blocks of one cluster, retired or not. -/
def State.clusterAll (s : State) (launch cluster : Nat) : List Nat :=
  (s.blocks.filter fun e => e.2.launch == launch && e.2.cluster == cluster).map (·.1)

/-- Does a block still hold its granules and its Churn reservation, R153? -/
def State.holdsStore (s : State) (b : Nat) : Bool :=
  let B := s.block b
  s.issuing B.ctx && !(s.clusterAll B.launch B.cluster).all s.blockComplete

/-- Is a warp resident: a lane of it has not exited, or its registers are not all released (R102)? -/
def State.warpHere (s : State) (W : Warp) : Bool :=
  s.issuing (s.block W.block).ctx && (W.quarters != [] || W.lanes.any fun e => e.2.life == .live || e.2.life == .helper)

/-- What is taken of a core. -/
structure Room where
  banks : AMap Runs := []                   -- by 4 x sub-core + quarter
  tiles : AMap Runs := []                   -- by sub-core
  ls : Runs := []
  churn : Nat := 0
  warps : AMap Nat := []                    -- resident warps, by sub-core
  deriving DecidableEq, Repr

def Room.takeBank (r : Room) (sub j a g : Nat) : Room :=
  { r with banks := r.banks.set (4 * sub + j) ((a, g) :: r.banks.getD (4 * sub + j) []) }

def Room.takeTiles (r : Room) (sub a n : Nat) : Room :=
  if n = 0 then r else { r with tiles := r.tiles.set sub ((a, n) :: r.tiles.getD sub []) }

def Room.addWarp (r : Room) (sub : Nat) : Room := { r with warps := r.warps.set sub (r.warps.getD sub 0 + 1) }

/-- What is taken of a core now. -/
def State.room (s : State) (core : Nat) : Room :=
  let r := s.warps.foldl (fun (r : Room) e =>
    let W := e.2
    if W.core = core ∧ s.warpHere W then
      let r := W.quarters.foldl (fun r q => r.takeBank W.sub q.1 q.2 (W.regs / 8)) r
      (r.takeTiles W.sub W.tileBase W.tileNeed).addWarp W.sub
    else r) {}
  s.blocks.foldl (fun r e =>
    let B := e.2
    if B.core = core ∧ s.holdsStore e.1 then
      { r with ls := if B.lsGran = 0 then r.ls else (B.lsBase, B.lsGran) :: r.ls, churn := r.churn + B.churnSize }
    else r) r

/-! ## Placing a block -/

/-- What a block asks for. -/
structure BlockReq where
  threads : Nat
  regs : Nat
  tiles : Nat
  lstore : Nat
  churn : Nat
  blocks : Nat                              -- of its cluster, which are placed together
  deriving DecidableEq, Repr

/-- The request that fails. -/
inductive Short where
  | bank (sub j : Nat)
  | tiles (sub : Nat)
  | store
  | other
  deriving DecidableEq, Repr

/-- Where a block stands on a core: its sub-core offset, its local base, and its warps' quarter bases and tile bases. -/
structure Spot where
  b : Nat
  lsBase : Nat
  warps : List (AMap Nat × Nat)
  deriving DecidableEq, Repr

def granules (n : Nat) : Nat := (n + 1023) / 1024
def regSlices (regs : Nat) : Nat := (regs + 7) / 8

/-- Place one warp of n threads. -/
def Room.putWarp (r : Room) (q : BlockReq) (sub n : Nat) : Short ⊕ (Room × AMap Nat × Nat) :=
  if Config.subWarps ≤ r.warps.getD sub 0 then .inl .other
  else
    let g := regSlices q.regs
    let quarters := (List.range ((n + 7) / 8)).foldl (fun (x : Short ⊕ (Room × AMap Nat)) j =>
      match x with
      | .inl e => .inl e
      | .inr (r, m) =>
        match buddyAlloc (r.banks.getD (4 * sub + j) []) 7 g with
        | some a => .inr (r.takeBank sub j a g, m.set j a)
        | none => .inl (.bank sub j)) (.inr (r, []))
    match quarters with
    | .inl e => .inl e
    | .inr (r, m) =>
      if q.tiles = 0 then .inr (r.addWarp sub, m, 0)
      else
        match buddyAlloc (r.tiles.getD sub []) 6 q.tiles with
        | some a => .inr ((r.takeTiles sub a q.tiles).addWarp sub, m, a)
        | none => .inl (.tiles sub)

/-- What a warp that runs again has given back by then: quarters, and, where it had ended, its place on its sub-core and its
tiles (R102, R377). It takes as much again, at the lowest places that are free. -/
def Room.regain (r : Room) (W : Warp) (here : Bool) : Option (Room × AMap Nat × Nat) :=
  let missing := W.quarterSet.filter fun j => (W.quarters.get? j).isNone
  if !here && decide (Config.subWarps ≤ r.warps.getD W.sub 0) then none
  else
    let quarters := missing.foldl (fun (x : Option (Room × AMap Nat)) j =>
      x.bind fun x => (buddyAlloc (x.1.banks.getD (4 * W.sub + j) []) 7 (W.regs / 8)).map fun a =>
        (x.1.takeBank W.sub j a (W.regs / 8), x.2.set j a)) (some (r, W.quarters))
    quarters.bind fun x =>
      if here then some (x.1, x.2, W.tileBase)
      else if W.tileNeed = 0 then some (x.1.addWarp W.sub, x.2, 0)
      else (buddyAlloc (x.1.tiles.getD W.sub []) 6 W.tileNeed).map fun a =>
        ((x.1.takeTiles W.sub a W.tileNeed).addWarp W.sub, x.2, a)

/-- Place a block at a sub-core offset: every request succeeds, or none is made (R128, R152, R174). -/
def Room.put (r : Room) (q : BlockReq) (b : Nat) : Short ⊕ (Room × Spot) :=
  if Config.churnBudget < r.churn + q.churn then .inl .other
  else
    let g := granules q.lstore
    match (if g = 0 then some 0 else buddyAlloc r.ls 9 g) with
    | none => .inl .store
    | some base =>
      let r := { r with ls := if g = 0 then r.ls else (base, g) :: r.ls, churn := r.churn + q.churn }
      let ws := (List.range ((q.threads + 31) / 32)).foldl (fun (x : Short ⊕ (Room × List (AMap Nat × Nat))) w =>
        match x with
        | .inl e => .inl e
        | .inr (r, l) =>
          match r.putWarp q ((b + w) % 4) (min 32 (q.threads - 32 * w)) with
          | .inl e => .inl e
          | .inr (r, m, t) => .inr (r, l ++ [(m, t)])) (.inr (r, []))
      match ws with
      | .inl e => .inl e
      | .inr (r, l) => .inr (r, ⟨b, base, l⟩)

/-- Place a block at the lowest sub-core offset that takes it. -/
def Room.fit (r : Room) (q : BlockReq) : Option (Room × Spot) :=
  (List.range 4).findSome? fun b =>
    match r.put q b with
    | .inl _ => none
    | .inr x => some x

/-- Could a block be placed on an empty core, and so a cluster on an empty die (R305)? DEDUCED, log 49. -/
def fitsEmpty (q : BlockReq) (blocks : Nat) : Bool := decide (blocks ≤ 64) && (({} : Room).fit q).isSome

/-- Place n blocks on cores tried in ascending order; each goes on the first that takes it (R309). -/
def placeOn (cores : List Nat) (q : BlockReq) : Nat → AMap Room → Option (List (Nat × Spot))
  | 0, _ => some []
  | n + 1, rooms =>
    match cores.findSome? fun c => ((rooms.getD c {}).fit q).map fun x => (c, x.1, x.2) with
    | none => none
    | some (c, r, sp) => (placeOn cores q n (rooms.set c r)).map ((c, sp) :: ·)

/-- Place a cluster of n blocks on a die's cores of a set, R309. -/
def State.placeDie (s : State) (cores : List Nat) (die n : Nat) (q : BlockReq) : Option (List (Nat × Spot)) :=
  let cs := sortNat (cores.filter fun c => c / 64 == die)
  placeOn cs q n (cs.map fun c => (c, s.room c))

/-! ## Compaction, R129, R154, R175 -/

/-- What is taken of some cores where a block of a cluster of n cannot be placed: by what they hold, and by the cluster's
blocks before it. -/
def roomsShort (cores : List Nat) (q : BlockReq) : Nat → AMap Room → AMap Room
  | 0, rooms => rooms
  | n + 1, rooms =>
    match cores.findSome? fun c => ((rooms.getD c {}).fit q).map fun x => (c, x.1) with
    | none => rooms
    | some (c, r) => roomsShort cores q n (rooms.set c r)

/-- Does a core's failing request, at any offset, fail for want of a run and not of units? The request is for the first block
of the cluster that finds no place on the core's die. -/
def State.shortOn (s : State) (core : Nat) (q : BlockReq) : List Short :=
  let mine := ((s.parts.find? fun e => e.2.cores.contains core).map fun e => e.2.cores).getD [core]
  let cs := sortNat (mine.filter fun c => c / 64 == core / 64)
  let r := (roomsShort cs q q.blocks (cs.map fun c => (c, s.room c))).getD core {}
  if (r.fit q).isSome then []
  else (List.range 4).filterMap fun b =>
    match r.put q b with
    | .inr _ => none
    | .inl e =>
      match e with
      | .bank sub j => if regSlices q.regs ≤ freeUnits (r.banks.getD (4 * sub + j) []) 7 then some e else none
      | .tiles sub => if q.tiles ≤ freeUnits (r.tiles.getD sub []) 6 then some e else none
      | .store => if granules q.lstore ≤ freeUnits r.ls 9 then some e else none
      | .other => none

/-- The lowest aligned place below its own to which a run can move. -/
def lowerPlace (others : Runs) (base g : Nat) : Option Nat :=
  let u := 2 ^ ((List.range 10).find? fun k => decide (g ≤ 2 ^ k)).getD 9
  ((List.range (base / u + 1)).map (· * u)).find? fun a => decide (a < base) && runFree others a g

/-- A warp that no compactor moves: it is halted, by itself or by a stop of its sub-core, or in a trap handler, or a trap of it
is held pending (R129, R374). -/
def State.pinned (s : State) (w : Nat) : Bool :=
  let W := s.warp w
  W.inHandler || W.dbgHalt || (s.core W.core).stop.getLsbD W.sub || W.pending != [] || s.groups.any fun e => e.2.park == .halt && e.2.lanes.any (·.1 == w)

/-- Lanes 8j to 8j + 7. -/
def quarterLanes (j : Nat) : List Nat := (List.range 8).map (8 * j + ·)

/-- May a quarter move: no result destined for it is outstanding? -/
def State.quarterMoves (s : State) (w j : Nat) : Bool :=
  !s.pinned w && (quarterLanes j).all (fun l => s.pendingV w l == []) &&
    !s.groups.any fun e => e.2.meets && e.2.lanes.any fun x => x.1 == w && x.2 / 8 == j

end Sys2Proof.Machine
end

