-- ==== Sys2Proof/Machine/Queues.lean ====
section
/-! DEFINITION. Work queues, records, dispatch, retirement and joins (13_work_queues R299 to R320; 09_lines_policies R225;
16_counters_errors R377). -/

namespace Sys2Proof.Machine

/-! ## The device's own accesses by virtual address -/

/-- A walk that the device makes at once for an access of its own. -/
def State.devWalk (s : State) (va : Nat) (need : Need) : Nat → Nat → State × Option Nat
  | lvl, table =>
    if !s.ownPa (table + 8 * (vIndex lvl va % 4096)) then (s, none)
    else
      let (s, x) := s.devRead (table + 8 * (vIndex lvl va % 4096)) 8
      let e := BitVec.ofNat 64 x
      let i := vIndex lvl va % 4096
      let all := (List.range 16).map fun j => BitVec.ofNat 64 (memRead s.mem (table + 8 * (i / 16 * 16 + j)) 8)
      if !entryOk s.chip lvl e || (eCt e && !groupOk e (i % 16) all) then (s, none)
      else if eLeaf e then
        if permits need e then
          match s.checkPa (leafPa lvl e va) with
          | .pa a => (s, some a)
          | .config _ | .fault _ | .walk _ _ _ => (s, none)
        else (s, none)
      else
        match lvl with
        | 0 => (s, none)
        | lvl + 1 => s.devWalk va need lvl (eFrame e * 4096)

/-- The physical address of an access of the device's own, outside register space. -/
def State.devPa (s : State) (ctx va : Nat) (need : Need) : State × Option Nat :=
  if 2 ^ 60 ≤ va ∨ va / 4096 = 1 then (s, none)
  else
    let (s, r) := s.devWalk va need 3 (s.ctx ctx).root
    (s, r.bind fun a => match placeOf a with
      | .dev _ _ | .host _ => some a
      | .reg _ | .hostReg _ | .nothing => none)

/-- n bytes within one page, as a number; none where they cannot be read: no translation, or poison (R205). -/
def State.vaRead (s : State) (ctx va n : Nat) : State × Option Nat :=
  if va / 4096 = 1 then (s, some (s.configRead ctx (va % 4096) n))
  else
    match s.devPa ctx va { rd := true } with
    | (s, none) => (s, none)
    | (s, some a) =>
      if (s.hline (a / 128)).poison then (s, none)
      else
        let (s, x) := s.devRead a n
        (s, if ((s.fetched.getD (a / 128) []).get? 128).isSome then none else some x)

/-- Bytes of a range of whole 8-byte words. -/
def State.vaBytes (s : State) (ctx va n : Nat) : State × Option (AMap Byte) :=
  (List.range (n / 8)).foldl (fun (r : State × Option (AMap Byte)) i =>
    match r.2 with
    | none => r
    | some m =>
      match r.1.vaRead ctx (va + 8 * i) 8 with
      | (s, some x) => (s, some (linePut m (8 * i) 8 x))
      | (s, none) => (s, none)) (s, some [])

/-- A field of a record held as a number. -/
def field (x off n : Nat) : Nat := x / 256 ^ off % 256 ^ n

/-- A record with a field replaced. -/
def putField (x off n v : Nat) : Nat := x - field x off n * 256 ^ off + v % 256 ^ n * 256 ^ off

/-! ## Queue descriptors, R299 -/

structure QDesc where
  pa : Nat
  base : Nat
  logn : Nat
  prio : Nat
  bumpto : Nat
  en : Bool
  host : Bool
  bump : Bool
  miss : Nat
  head : Nat
  tail : Nat
  deadline : Nat
  faults : Nat
  last : Nat
  deriving DecidableEq, Repr

def qDescOf (pa x : Nat) : QDesc :=
  { pa, base := field x 0 8, logn := field x 8 1, prio := field x 9 1 % 16, bumpto := field x 10 1 % 16,
    en := field x 11 1 % 2 == 1, host := field x 11 1 / 2 % 2 == 1, bump := field x 11 1 / 4 % 2 == 1,
    miss := field x 12 4, head := field x 16 8, tail := field x 24 8, deadline := field x 32 8, faults := field x 40 4,
    last := field x 44 4 }

/-- A queue of a context, where it exists. -/
def State.queue (s : State) (ctx q : Nat) : State × Option QDesc :=
  let c := s.ctx ctx
  if c.qcount ≤ q then (s, none)
  else
    let va := c.qtb.toNat + 64 * q
    match s.devPa ctx va { rd := true, wr := true } with
    | (s, none) => (s, none)
    | (s, some a) =>
      let (s, x) := s.devRead a 64
      (s, some (qDescOf a x))

/-- The address of entry i. -/
def QDesc.entry (d : QDesc) (i : Nat) : Nat := d.base + 128 * (i % 2 ^ d.logn)

def QDesc.full (d : QDesc) : Bool := decide (2 ^ d.logn ≤ d.tail - d.head)

/-- Count a refused record or a rejected tail write, R299, R302, R305. DEDUCED, log 48. -/
def State.queueFault (s : State) (d : QDesc) (cause idx : Nat) : State :=
  (s.devWrite (d.pa + 40) 4 (min (d.faults + 1) (2 ^ 32 - 1))).devWrite (d.pa + 44) 4 (cause + 2 ^ 8 * (idx % 2 ^ 24))

/-- Push an image, R301: it takes index TAIL, and its SEQ is the index; a launch record's GEN is pushed as 0 (R304). -/
def State.pushEntry (s : State) (ctx : Nat) (d : QDesc) (image : Nat) : State :=
  let s := s.devWrite (d.pa + 24) 8 (d.tail + 1)
  let image := if field image 0 1 = 2 then putField image 68 4 0 else image
  match s.devPa ctx (d.entry d.tail) { wr := true } with
  | (s, some a) => s.devWrite a 128 (putField image 4 4 d.tail)
  | (s, none) => s

/-- Key of a queue of a context among the waiting pushes. -/
def pushKey (ctx q : Nat) : Nat := 256 * ctx + q

/-- Join pushes that wait at a queue, oldest first. -/
def State.pushesAt (s : State) (ctx q : Nat) : List Nat := (s.ctx ctx).pushQ.getD q []

/-- JOIN_PUSH (R301): a push that waited on a full queue takes a freed index. -/
def execJoinPush (n : Nat) (s : State) : Out :=
  needing (fun s =>
    let ctx := n / 256
    let q := n % 256
    match s.pushesAt ctx q with
    | [] => .refused .notEnabled
    | image :: rest =>
      match s.queue ctx q with
      | (s, some d) =>
        if d.full then s.notNow
        else
          let s := s.modCtx ctx fun c => { c with pushQ := c.pushQ.putD q rest [] }
          .next (s.pushEntry ctx d image)
      | (s, none) => s.notNow) s

/-! ## Join records, R313 -/

/-- The error record of a join that enqueues nothing although it should, or goes below 0: KIND 5. -/
def State.joinError (s : State) (ctx pa : Nat) (x : Int) : State :=
  s.report { kind := 5, ctx, start := pa, len := 64, info := (x % 2 ^ 64).toNat }

/-- Change a join record homed on this chip: one atomic on COUNT; at exactly 0 its image is enqueued. The old count is
the answer. DEDUCED, log 51. A CONT that is no multiple of 128 counts as an image that cannot be read: DESIGN CHOICE, log 89. -/
def State.joinHere (s : State) (ctx pa : Nat) (n : Int) : State × Nat :=
  let (s, old) := s.devRead pa 8
  let now : Int := sext 64 old + n
  let now := sext 64 (now % 2 ^ 64).toNat
  let s := if n = 0 then s else s.devWrite pa 8 (now % 2 ^ 64).toNat
  if n = 0 then (s, old)
  else if now < 0 then (s.joinError ctx pa now, old)
  else if now ≠ 0 then (s, old)
  else
    let (s, x) := s.devRead (pa + 8) 16
    let q := field x 0 4
    let cont := field x 8 8
    if cont = 0 then (s, old)
    else
      match s.queue ctx q with
      | (s, none) => (s.joinError ctx pa now, old)
      | (s, some d) =>
        if d.host || cont % 128 != 0 then (s.joinError ctx pa now, old)
        else
          match s.vaRead ctx cont 128 with
          | (s, none) => (s.joinError ctx pa now, old)
          | (s, some image) =>
            if d.full || s.pushesAt ctx q != [] then
              (s.modCtx ctx fun c => { c with pushQ := c.pushQ.set q (s.pushesAt ctx q ++ [image]) }, old)
            else (s.pushEntry ctx d image, old)

/-- The chip that homes a line of device memory. -/
def State.chipOf (s : State) (pa : Nat) : Nat := (s.remoteChip (pa / 128)).getD s.chip

/-- A change by the device itself, R312. -/
def State.joinChange (s : State) (ctx va : Nat) (n : Int) : State :=
  match s.devPa ctx va { rd := true, wr := true } with
  | (s, none) => s
  | (s, some pa) =>
    if s.chipOf pa = s.chip then (s.joinHere ctx pa n).1
    else s.fabric (s.chipOf pa) (.join 0 ctx pa n)

/-! ## Records, R303 to R305 -/

/-- The fields of a record. -/
def recordOf (ctx : Nat) (x : Nat) : Launch :=
  if field x 0 1 = 1 then
    { ctx, cont := true, idem := field x 1 1 / 2 % 2 == 1, redun := field x 1 1 / 4 % 2 == 1, threads := field x 2 2,
      code := BitVec.ofNat 64 (field x 8 8), frame := BitVec.ofNat 64 (field x 16 8), join := BitVec.ofNat 64 (field x 24 8),
      regs := field x 32 1, tiles := field x 33 1, lstore := field x 36 4, churn := field x 40 4, stack := field x 44 4,
      stkBase := BitVec.ofNat 64 (field x 48 8), paramLen := 16 }
  else
    { ctx, curve := field x 1 1, det := field x 2 2 % 2 == 1, idem := field x 2 2 / 2 % 2 == 1,
      redun := field x 2 2 / 4 % 2 == 1, code := BitVec.ofNat 64 (field x 8 8), paramp := BitVec.ofNat 64 (field x 16 8),
      join := BitVec.ofNat 64 (field x 24 8), gcx := field x 32 4, gcy := field x 36 4, threads := field x 40 2,
      csize := field x 42 1, cx := field x 43 1, regs := field x 44 1, prio := field x 45 1, tiles := field x 46 1,
      tilew := field x 48 2, tileh := field x 50 2, lstore := field x 52 4, churn := field x 56 4, paramLen := field x 60 4,
      stack := field x 64 4, gen := field x 68 4, chips := BitVec.ofNat 64 (field x 72 8),
      stkBase := BitVec.ofNat 64 (field x 80 8), ordBase := BitVec.ofNat 64 (field x 88 8), ordSize := field x 96 4 }

/-- CHURN: 0, or a power of two from 1,024 to 262,144 bytes, and no more than LSTORE (R152). -/
def churnOk (churn lstore : Nat) : Bool :=
  churn == 0 || (((List.range 9).any fun k => churn == 1024 * 2 ^ k) && decide (churn ≤ lstore))

/-- BADREC: a field outside the limits of R303 or R304, or a reserved byte that is not 0. -/
def badRec (L : Launch) (x : Nat) : Bool :=
  let range (v lo hi : Nat) : Bool := decide (lo ≤ v) && decide (v ≤ hi)
  let common := range L.threads 1 1024 && range L.regs 1 192 && decide (L.tiles ≤ 64) && decide (L.lstore ≤ 524288) &&
    churnOk L.churn L.lstore && L.stack % 16 == 0
  if L.cont then
    !(common && field x 1 1 / 8 == 0 && field x 1 1 % 2 == 0 && field x 34 2 == 0 && L.stkBase.toNat % 16 == 0 &&
      field x 56 72 == 0)
  else
    !(common && decide (L.curve ≤ 2) && field x 2 2 / 8 == 0 && range L.gcx 1 65535 && range L.gcy 1 65535 &&
      range L.csize 1 16 && decide (L.cx ≠ 0) && L.csize % L.cx == 0 && decide (L.prio ≤ 15) && field x 47 1 == 0 &&
      (if L.curve = 0 then range L.tilew 1 65535 && range L.tileh 1 65535 else L.tilew == 0 && L.tileh == 0) &&
      range L.paramLen 0 65536 && L.paramLen % 8 == 0 && L.paramp.toNat % 8 == 0 && L.ordBase.toNat % 16 == 0 &&
      L.ordSize % 16 == 0 && field x 100 28 == 0 && decide (L.gcx * L.gcy * L.csize < 2 ^ 32))

def Launch.req (L : Launch) : BlockReq := ⟨L.threads, L.regs, L.tiles, L.lstore, L.churn, L.csize⟩

/-- The checks of R305, in its order: the cause that refuses a record. -/
def State.recordFault (s : State) (L : Launch) (x : Nat) : State × Option Nat :=
  if badRec L x then (s, some 2)
  else if (List.range 64).any fun c => L.chips.getLsbD c && !s.domain.contains c then (s, some 4)
  else
    let (s, ok) : State × Bool :=
      if L.cont then (s, true)
      else
        let r := s.vaBytes L.ctx L.paramp.toNat L.paramLen
        (r.1, r.2.isSome)
    if !ok then (s, some 3)
    else if fitsEmpty L.req L.csize then (s, none) else (s, some 1)

/-! ## Curves, R306 -/

/-- Point d of the Hilbert curve; `t` is what is left of d, `side` the square's side so far. -/
def hilbert (n : Nat) : Nat → Nat → Nat → Nat → Nat → Nat × Nat
  | 0, _, _, x, y => (x, y)
  | fuel + 1, side, t, x, y =>
    if n ≤ side then (x, y)
    else
      let rx := t / 2 % 2
      let ry := (t ^^^ rx) % 2
      let (x, y) :=
        if ry = 0 then
          let (x, y) := if rx = 1 then (side - 1 - x, side - 1 - y) else (x, y)
          (y, x)
        else (x, y)
      hilbert n fuel (2 * side) (t / 4) (x + side * rx) (y + side * ry)

/-- Point d of the Morton curve. -/
def morton (d : Nat) : Nat × Nat :=
  (((List.range 16).map fun i => d / 4 ^ i % 2 * 2 ^ i).sum, ((List.range 16).map fun i => d / (2 * 4 ^ i) % 2 * 2 ^ i).sum)

/-- The side of the curve's square. -/
def curveSide (L : Launch) : Nat := 2 ^ ((List.range 17).find? fun k => decide (max L.gcx L.gcy ≤ 2 ^ k)).getD 16

def curvePoint (L : Launch) (d : Nat) : Nat × Nat :=
  if L.curve = 1 then morton d else hilbert (curveSide L) 17 1 d 0 0

/-- The next point inside the grid, from point d on: its place on the curve, and where it is. -/
def nextPoint (L : Launch) : Nat → Nat → Nat × Nat × Nat
  | 0, d => (d, 0, 0)
  | fuel + 1, d =>
    let p := curvePoint L d
    if p.1 < L.gcx ∧ p.2 < L.gcy then (d, p.1, p.2) else nextPoint L fuel (d + 1)

/-- Cluster k under row-major tiles. -/
def rowMajor (L : Launch) (k : Nat) : Nat × Nat :=
  let ty := k / (L.gcx * L.tileh)
  let k1 := k - ty * (L.gcx * L.tileh)
  let h := min L.tileh (L.gcy - ty * L.tileh)
  let tx := k1 / (L.tilew * h)
  let k2 := k1 - tx * (L.tilew * h)
  let w := min L.tilew (L.gcx - tx * L.tilew)
  (tx * L.tilew + k2 % w, ty * L.tileh + k2 / w)

/-- Where the launch's next cluster lies, and where on the curve's square it was found. -/
def Launch.nextAt (L : Launch) : Nat × Nat × Nat :=
  if L.cont then (0, 0, 0)
  else if L.curve = 0 then
    let p := rowMajor L L.nextK
    (0, p.1, p.2)
  else nextPoint L (curveSide L * curveSide L) L.nextD

/-- Clusters of a launch. -/
def Launch.total (L : Launch) : Nat := L.gcx * L.gcy

/-- sr.nrank and sr.rank, R315. -/
def Launch.nrank (L : Launch) : Nat :=
  if L.chips = 0 then 1 else ((List.range 64).filter L.chips.getLsbD).length
def Launch.rank (L : Launch) (chip : Nat) : Nat :=
  if L.chips = 0 then 0 else ((List.range chip).filter L.chips.getLsbD).length

/-! ## Placing a cluster, R307, R309 -/

/-- A lane that starts: R93, R110, R123, R307. A CODE whose bits [1:0] are not 0 stands as it is, since the spec gives ALIGN
only for transfers (R18). DESIGN CHOICE, log 78. -/
def startLane (L : Launch) (t : Nat) (blockIndex clock : Nat) : Lane :=
  if t < L.threads then
    let base := L.stkBase + BitVec.ofNat 64 (L.stack * (t + L.threads * blockIndex))
    { life := .live, entry := .runnable, pc := L.code, since := clock, stkBase := base,
      rsp := base + BitVec.ofNat 64 L.stack }
  else { life := .helper, entry := .runnable, pc := L.code, since := clock }

/-- A warp that starts. -/
def startWarp (L : Launch) (core b w : Nat) (block blockIndex clock : Nat) (at_ : AMap Nat × Nat) : Warp :=
  let n := min 32 (L.threads - 32 * w)
  let lanes : AMap Lane := (List.range ((n + 3) / 4 * 4)).map fun l => (l, startLane L (32 * w + l) blockIndex clock)
  { block, num := w, core, sub := (b + w) % 4, regs := 8 * regSlices L.regs, quarters := at_.1, quarterSet := at_.1.keys,
    lanes, tileNeed := L.tiles, tileBase := at_.2 }

/-- Create a block on its core. -/
def State.startBlock (s : State) (id : Nat) (L : Launch) (k cb gx gy : Nat) (param : AMap Byte) (at_ : Nat × Spot) : State :=
  let (bid, s) := s.newId
  let (core, spot) := at_
  let nblock := L.gcx * L.gcy * L.csize
  let lin := L.csize * k + cb
  let index := lin + nblock * L.rank s.chip
  let cy := L.csize / L.cx
  let B : Block :=
    { ctx := L.ctx, launch := id, core, b := spot.b, block := lin, bx := L.cx * gx + cb % L.cx, by_ := cy * gy + cb / L.cx,
      cluster := k, cblock := cb, nthread := L.threads, nblock, rank := L.rank s.chip, nrank := L.nrank, code := L.code,
      lsBase := spot.lsBase, lsGran := granules L.lstore, lsSize := 1024 * granules L.lstore, churnSize := L.churn, param,
      paramLen := L.paramLen, stkBase := L.stkBase, stack := L.stack,
      ordBase := L.ordBase + BitVec.ofNat 64 (L.ordSize * index), ordSize := L.ordSize, det := L.det, idem := L.idem,
      redun := L.redun, tstart := s.timeAt core, regs := L.regs, tiles := L.tiles, zeroing := true }
  let s := { s with blocks := s.blocks.set bid B }
  let ws : List ((AMap Nat × Nat) × Nat) := spot.warps.zip (List.range spot.warps.length)
  ws.foldl (fun s x =>
    let (wid, s) := s.newId
    let W := startWarp L core spot.b x.2 bid index s.clock x.1
    let s := { s with warps := s.warps.set wid W }
    s.modBlock bid fun B => { B with warps := B.warps ++ [wid] }) s

/-- The parameter block's copy, R150, R303. One that passed R305's check, and can no longer be read when a later cluster is
placed, gives bytes that are 0. DESIGN CHOICE, log 90. -/
def State.paramOf (s : State) (L : Launch) : State × AMap Byte :=
  if L.cont then (s, linePut (linePut [] 0 8 L.frame.toNat) 8 8 L.index)
  else
    let (s, m) := s.vaBytes L.ctx L.paramp.toNat L.paramLen
    (s, m.getD [])

/-- Place the next cluster of a launch. -/
def State.placeCluster (s : State) (id : Nat) (L : Launch) (spots : List (Nat × Spot)) : State :=
  let (d, gx, gy) := L.nextAt
  let (s, param) := s.paramOf L
  let k := L.nextK
  let s := (spots.zip (List.range spots.length)).foldl (fun s x => s.startBlock id L k x.2 gx gy param x.1) s
  let L : Launch := { L with nextK := k + 1, nextD := d + 1, placed := L.placed.set k L.csize }
  { s with launches := s.launches.set id L }

/-- Where a launch's next cluster can be placed now, R309: the dies in cyclic order from die k mod 3. -/
def State.spotsFor (s : State) (cores : List Nat) (L : Launch) : Option (List (Nat × Spot)) :=
  let first := if L.cont then 0 else L.nextK % 3
  (List.range 3).findSome? fun i => s.placeDie cores ((first + i) % 3) L.csize L.req

/-! ## Choosing what runs next, R308, R310 -/

/-- What stands at the head of a queue. -/
inductive HeadRec where
  | none                                    -- empty, disabled, not valid yet, or held by an earlier launch
  | refused (cause kind : Nat)
  | record (L : Launch) (image : Nat)
  deriving DecidableEq, Repr

/-- Is a launch taken from a queue still to place clusters? -/
def State.queueBusy (s : State) (ctx q : Nat) : Bool :=
  s.launches.any fun e => e.2.ctx == ctx && e.2.queue == q && e.2.src == s.chip && decide (e.2.nextK < e.2.total)

/-- The head of a queue as the dispatcher finds it, R300, R305. -/
def State.headOf (s : State) (ctx q : Nat) (d : QDesc) : State × HeadRec :=
  if !d.en || decide (d.tail ≤ d.head) || s.queueBusy ctx q then (s, .none)
  else
    match s.vaRead ctx (d.entry d.head) 128 with
    | (s, none) => (s, .refused 3 0)
    | (s, some x) =>
      let kind := field x 0 1
      if field x 4 4 ≠ d.head % 2 ^ 32 then (s, .none)
      else if kind ≠ 1 ∧ kind ≠ 2 then (s, .refused 2 kind)
      else
        let L := { recordOf ctx x with queue := q, index := d.head, src := s.chip }
        match s.recordFault L x with
        | (s, some c) => (s, .refused c kind)
        | (s, none) => (s, .record L x)

/-- Has the queue a valid record at its head, R300? -/
def State.validHead (s : State) (ctx : Nat) (d : QDesc) : State × Bool :=
  if d.tail ≤ d.head then (s, false)
  else
    match s.vaRead ctx (d.entry d.head) 128 with
    | (s, some x) => (s, field x 4 4 == d.head % 2 ^ 32 && (field x 0 1 == 1 || field x 0 1 == 2))
    | (s, none) => (s, false)

/-- Is a queue late, R310? DEDUCED, log 52. -/
def State.queueIsLate (s : State) (ctx q : Nat) (d : QDesc) : State × Bool :=
  if d.deadline = 0 ∨ s.time ≤ d.deadline then (s, false)
  else if s.queueBusy ctx q then (s, true)
  else s.validHead ctx d

/-- Note whether a queue is late: the first lateness after each write of DEADLINE counts in MISS, R310. DEDUCED, log 52. -/
def State.noteLate (s : State) (ctx q : Nat) (d : QDesc) : State :=
  let (s, now) := s.queueIsLate ctx q d
  let old := (s.ctx ctx).late.getD q (d.pa + 32, d.deadline, false, false)
  let counted := old.2.2.2 && old.2.1 == d.deadline
  let s := if now && !counted then s.devWrite (d.pa + 12) 4 (min (d.miss + 1) (2 ^ 32 - 1)) else s
  s.modCtx ctx fun c =>
    { c with late := if now || counted then c.late.set q (d.pa + 32, d.deadline, now, counted || now) else c.late.del q }

/-- An effective priority: raised while the queue is late, limited by DPRI (R308, R338). DEDUCED, log 52. -/
def State.effPrio (s : State) (ctx q : Nat) (d : QDesc) (prio : Nat) : State × Nat :=
  let r := if d.bump then s.queueIsLate ctx q d else (s, false)
  (r.1, min (s.ctx ctx).dpri (if r.2 then max prio d.bumpto else prio))

/-- A thing that the dispatcher may choose: the smallest key goes first. -/
structure Job where
  key : Nat
  eff : Nat
  queue : Nat
  launch : Option Nat                       -- an active launch; none: the record at the queue's head
  deriving DecidableEq, Repr

/-- The key of a choice: highest effective priority; at one priority a unit chosen before, which holds the others back
until it is placed; active launches before head records, older launches first, head records in rotation. -/
def jobKey (eff : Nat) (chosen : Bool) (launch : Option Nat) (rot : Nat) : Nat :=
  (15 - eff) * 2 ^ 65 + (if chosen then 0 else 2 ^ 64) + (match launch with
    | some id => id
    | none => 2 ^ 63 + rot)

def minJob (js : List Job) : Option Job :=
  js.foldl (fun r j => match r with
    | some x => if j.key < x.key then some j else some x
    | none => some j) none

/-- The heads of a context's queues, with their priorities. -/
def State.heads (s : State) (ctx : Nat) : State × List (Job × QDesc × HeadRec) :=
  (List.range (s.ctx ctx).qcount).foldl (fun (r : State × List (Job × QDesc × HeadRec)) q =>
    match r.1.queue ctx q with
    | (s, none) => (s, r.2)
    | (s, some d) =>
      match s.headOf ctx q d with
      | (s, .none) => (s, r.2)
      | (s, h) =>
        let (s, eff) := s.effPrio ctx q d d.prio
        let start := (s.ctx ctx).rot.getD eff 0
        let chosen := (s.ctx ctx).chosen.contains (q, none)
        (s, r.2 ++ [(⟨jobKey eff chosen none ((q + 256 - start) % 256), eff, q, none⟩, d, h)])) (s, [])

/-- Active launches of a context that have clusters to place. -/
def State.activeJobs (s : State) (ctx : Nat) : State × List Job :=
  s.launches.foldl (fun (r : State × List Job) e =>
    let L := e.2
    if L.ctx = ctx ∧ ¬L.cont ∧ L.started ∧ L.nextK < L.total then
      let (s, eff) :=
        if L.src = r.1.chip then
          match r.1.queue ctx L.queue with
          | (s, some d) => s.effPrio ctx L.queue d L.prio
          | (s, none) => (s, min (s.ctx ctx).dpri L.prio)
        else (r.1, min (r.1.ctx ctx).dpri L.prio)
      let chosen := (s.ctx ctx).chosen.contains (L.queue, some e.1)
      (s, r.2 ++ [⟨jobKey eff chosen (some e.1) 0, eff, L.queue, some e.1⟩])
    else r) (s, [])

/-- Take the entry at a queue's head: HEAD advances (R300), and the rotation moves on (R308). -/
def State.takeHead (s : State) (ctx q eff : Nat) (d : QDesc) : State :=
  let s := s.devWrite (d.pa + 16) 8 (d.head + 1)
  s.modCtx ctx fun c => { c with rot := c.rot.set eff ((q + 1) % 256) }

/-- Refuse a record of a queue, R305: its KIND byte, FAULTS and LASTFAULT say so. -/
def State.refuseRecord (s : State) (ctx : Nat) (d : QDesc) (idx cause kind : Nat) : State :=
  let s := s.queueFault d cause idx
  match s.devPa ctx (d.entry idx) { wr := true } with
  | (s, some a) => s.devWrite a 1 (0x80 + kind)
  | (s, none) => s

/-- The chips other than this one that a launch names. -/
def State.others (s : State) (L : Launch) : List Nat := (List.range 64).filter fun c => L.chips.getLsbD c && c != s.chip

/-- Begin a launch whose record has been taken: replicated over its chips (R314), or active at once. -/
def State.beginLaunch (s : State) (ctx : Nat) (d : QDesc) (L : Launch) (image : Nat) : State :=
  let (id, s) := s.newId
  let others := s.others L
  if others = [] then { s with launches := s.launches.set id L }
  else
    let gen := ((s.ctx ctx).gen + 1) % 2 ^ 32
    let s := s.modCtx ctx fun c => { c with gen := gen }
    let s := match s.devPa ctx (d.entry L.index + 68) { wr := true } with
      | (s, some a) => s.devWrite a 4 gen
      | (s, none) => s
    if others.any fun c => s.upLinks c == [] then s.refuseRecord ctx d L.index 3 2
    else
      let image := putField image 68 4 gen
      let bytes : List Byte := (List.range 128).map fun i => BitVec.ofNat 8 (field image i 1)
      let L : Launch := { L with gen := gen, started := false, answers := others }
      let s := { s with launches := s.launches.set id L }
      others.foldl (fun s c => s.fabric c (.record ctx gen bytes)) s

/-- The partition runs its context and its cores form groups. -/
def Partn.dispatches (P : Partn) (s : State) : Bool := P.run && P.cores.all fun c => !(s.core c).halting

/-- A unit is chosen and cannot be placed: nothing of its effective priority or below is placed before it (R308). The answer
says whether that is new, and what the unit asks for. -/
def State.choose (s : State) (ctx : Nat) (j : Job) (req : BlockReq) : State × Bool × Option BlockReq :=
  if (s.ctx ctx).chosen.contains (j.queue, j.launch) then (s, false, some req)
  else (s.modCtx ctx fun c => { c with chosen := c.chosen ++ [(j.queue, j.launch)] }, true, some req)

/-- A chosen unit is placed. -/
def State.unchoose (s : State) (ctx : Nat) (j : Job) : State :=
  s.modCtx ctx fun c => { c with chosen := c.chosen.filter (· != (j.queue, j.launch)) }

/-- Note the lateness of a job's queue before the job's placement can end it (R310). -/
def State.noteJob (s : State) (ctx : Nat) (j : Job) : State :=
  match s.queue ctx j.queue with
  | (s, some d) => s.noteLate ctx j.queue d
  | (s, none) => s

/-- What a partition's dispatcher does next, R308: heads that are refused or are launches are taken, and then the chosen
unit is placed, where it can be. The answer also says what the chosen unit asks for where it cannot. DEDUCED, log 49. -/
def State.dispatchOnce (s : State) (part : Nat) : State × Bool × Option BlockReq :=
  let P := s.part part
  if !P.dispatches s then (s, false, none)
  else
    let ctx := P.ctx
    let (s, hs) := s.heads ctx
    let takeable := hs.filter fun h => match h.2.2 with
      | .refused _ _ => true
      | .record L _ => !L.cont
      | .none => false
    match (minJob (takeable.map (·.1))).bind fun j => takeable.find? fun h => h.1 == j with
    | some (j, d, h) =>
      let s := (s.noteLate ctx j.queue d).takeHead ctx j.queue j.eff d
      match h with
      | .refused cause kind => (s.refuseRecord ctx d d.head cause kind, true, none)
      | .record L x => (s.beginLaunch ctx d L x, true, none)
      | .none => (s, false, none)
    | none =>
      let (s, act) := s.activeJobs ctx
      match minJob (act ++ hs.map (·.1)) with
      | none => (s, false, none)
      | some j =>
        match j.launch with
        | some id =>
          let L := s.launches.getD id {}
          match s.spotsFor P.cores L with
          | some spots =>
            let s := if L.src = s.chip then s.noteJob ctx j else s
            ((s.unchoose ctx j).placeCluster id L spots, true, none)
          | none => s.choose ctx j L.req
        | none =>
          match hs.find? fun h => h.1 == j with
          | some (_, d, .record L _) =>
            match s.spotsFor P.cores L with
            | some spots =>
              let s := ((s.noteLate ctx j.queue d).unchoose ctx j).takeHead ctx j.queue j.eff d
              let (id, s) := s.newId
              (s.placeCluster id L spots, true, none)
            | none => s.choose ctx j L.req
          | _ => (s, false, none)

/-- DISPATCH (R308). -/
def execDispatch (part : Nat) (s : State) : Out :=
  needing (fun s => match s.dispatchOnce part with
    | (s, true, _) => .next s
    | (s, false, _) => s.notNow) s

/-- PLACEMENT_ZEROING_DONE (R153): the runs of a placed cluster are 0, and its warps may issue. -/
def execPlacementZeroingDone (launch cluster : Nat) (s : State) : Out :=
  let bs := (s.clusterAll launch cluster).filter fun b => (s.block b).zeroing
  if bs = [] then .refused .notEnabled
  else .next (bs.foldl (fun s b => s.modBlock b fun B => { B with zeroing := false, ls := [], lsBad := [] }) s)

/-- QUEUE_LATE (R310): a queue has become late, or is late no longer, or its DEADLINE has changed. -/
def execQueueLate (part q : Nat) (s : State) : Out :=
  needing (fun s =>
    let ctx := (s.part part).ctx
    match s.queue ctx q with
    | (s, none) => s.notNow
    | (s, some d) =>
      let t := s.noteLate ctx q d
      if (s.part part).run && (t.ctx ctx).late.get? q != (s.ctx ctx).late.get? q then .next t else t.notNow) s

/-! ## Compaction, R129, R154, R175 -/

/-- What the chosen unit of the partition of a core asks for, where it cannot be placed. -/
def State.wanted (s : State) (core : Nat) : Option BlockReq :=
  (s.parts.find? fun e => e.2.cores.contains core).bind fun e =>
    let r := s.dispatchOnce e.1
    if r.1.need = [] then r.2.2 else none

/-- COMPACTOR_MOVE: one quarter's run moves towards the low end of its bank, the lowest base first.
DESIGN CHOICE, log 50. -/
def execCompactorMove (core sub bank : Nat) (s : State) : Out :=
  match s.wanted core with
  | none => .refused .notEnabled
  | some q =>
    if !(s.shortOn core q).contains (.bank sub bank) then .refused .notEnabled
    else
      let here := s.warps.filterMap fun e =>
        if e.2.core = core ∧ e.2.sub = sub ∧ s.warpHere e.2 then
          (e.2.quarters.get? bank).map fun a => (e.1, a, e.2.regs / 8)
        else none
      let move := (sortBy (fun x => x.2.1) here).findSome? fun x =>
        let rest := (here.filter fun y => y.1 != x.1).map fun y => (y.2.1, y.2.2)
        if s.quarterMoves x.1 bank then (lowerPlace rest x.2.1 x.2.2).map fun a => (x.1, a) else none
      match move with
      | some (w, a) => .next { s.modWarp w fun W => { W with quarters := W.quarters.set bank a } with moved := insertNat s.moved w }
      | none => .refused .notEnabled

/-- LS_COMPACTION: one block's run moves. The accesses that it holds are those between this step and the next. -/
def execLsCompaction (core : Nat) (s : State) : Out :=
  match s.wanted core with
  | none => .refused .notEnabled
  | some q =>
    if !(s.shortOn core q).contains .store then .refused .notEnabled
    else
      let here := s.blocks.filterMap fun e =>
        if e.2.core = core ∧ s.holdsStore e.1 ∧ e.2.lsGran ≠ 0 then some (e.1, e.2.lsBase, e.2.lsGran) else none
      let move := (sortBy (fun x => x.2.1) here).findSome? fun x =>
        let rest := (here.filter fun y => y.1 != x.1).map fun y => (y.2.1, y.2.2)
        if (s.block x.1).warps.any s.pinned then none else (lowerPlace rest x.2.1 x.2.2).map fun a => (x.1, a)
      match move with
      | some (b, a) => .next (s.modBlock b fun B => { B with lsBase := a })
      | none => .refused .notEnabled

/-- Is an instruction of a warp that reads or writes a tile outstanding, R175: a transfer under way, or an M.MMA or M.SMMA
that has issued and waits for its meeting or the Sluice? -/
def State.tileBusy (s : State) (w : Nat) : Bool :=
  s.remotes.any (fun r => r.2.warp == w && r.2.acc.isSome) ||
    s.groups.any fun e => e.2.meets && e.2.lanes.any (·.1 == w) && (match decode e.2.rest with
      | .ok (.mMma _ _) _ | .ok (.mSmma _ _) _ => true
      | _ => false)

/-- TILE_COMPACTION: one warp's run of tiles moves. -/
def execTileCompaction (core sub : Nat) (s : State) : Out :=
  match s.wanted core with
  | none => .refused .notEnabled
  | some q =>
    if !(s.shortOn core q).contains (.tiles sub) then .refused .notEnabled
    else
      let here := s.warps.filterMap fun e =>
        if e.2.core = core ∧ e.2.sub = sub ∧ s.warpHere e.2 ∧ e.2.tileNeed ≠ 0 then some (e.1, e.2.tileBase, e.2.tileNeed)
        else none
      let move := (sortBy (fun x => x.2.1) here).findSome? fun x =>
        let rest := (here.filter fun y => y.1 != x.1).map fun y => (y.2.1, y.2.2)
        if s.pinned x.1 || s.tileBusy x.1 then none else (lowerPlace rest x.2.1 x.2.2).map fun a => (x.1, a)
      match move with
      | some (w, a) => .next { s.modWarp w fun W => { W with tileBase := a } with moved := insertNat s.moved w }
      | none => .refused .notEnabled

/-! ## Retirement, R311, R312 -/

/-- A finished launch or continuation: its join record is decremented, R312. -/
def State.finishLaunch (s : State) (id : Nat) (L : Launch) : State :=
  let s := { s with launches := s.launches.del id }
  if L.join = 0 then s else s.joinChange L.ctx L.join.toNat (-1)

/-- Everything that the block's warps did has reached its home, R311: the conditions of FN.FENCE.FABRIC. -/
def State.blockQuiet (s : State) (b : Nat) : Bool :=
  let B := s.block b
  s.ops.all (fun e => !B.warps.contains e.2.warp) && s.remotes.all (fun e => !B.warps.contains e.2.warp) &&
    s.spills.all (fun e => !B.warps.contains e.2.warp) && s.joins.all (fun e => !B.warps.contains e.2.warp) &&
    s.rels.all (fun e => !B.warps.contains e.2.warp) && s.cmds.all (fun e => e.2.block != b) &&
    !s.partialOf (fun x => B.warps.contains x.1) &&
    B.warps.all fun w => decide ((s.warp w).gwct ≤ s.timeAt B.core)

/-- Partials of a core that hold contributions of the block's warps. -/
def State.heldPartials (s : State) (b : Nat) : List (Nat × CLine) :=
  let B := s.block b
  s.caches.filter fun e => e.1 % 1024 == B.core && (e.2.partial_.map fun p => p.who.any fun x => B.warps.contains x.1).getD false

/-- May a cluster's blocks retire now: under det, in ascending curve index with their records applied (R311). -/
def detReady (L : Launch) (B : Block) : Bool := !L.det || (B.ordDone && B.cluster == L.retired)

/-- The record of a block that retires, R372. -/
def State.recordBlock (s : State) (b : Nat) : State :=
  let B := s.block b
  let double := B.warps.any fun w => (s.warp w).doubleTrap
  if B.recorded then s
  else
    (s.blockRecord b (1 + (if B.failed then 4 else 0) + if double then 8 else 0)).modBlock b fun B => { B with recorded := true }

/-- A block whose record has been applied retires, and its launch learns of it (R311, R312). -/
def State.retireBlock (s : State) (b : Nat) : State :=
  let B := s.block b
  let s := { s with warps := B.warps.foldl (fun m w => m.del w) s.warps }
  let s := s.modBlock b fun B => { B with retired := true, warps := [] }
  let L := s.launches.getD B.launch {}
  let left := L.placed.getD B.cluster 1 - 1
  if left ≠ 0 then { s with launches := s.launches.set B.launch { L with placed := L.placed.set B.cluster left } }
  else
    let L : Launch := { L with placed := L.placed.del B.cluster, retired := L.retired + 1 }
    let s := { s with blocks := s.blocks.filter fun e => !(e.2.launch == B.launch && e.2.cluster == B.cluster) }
    if L.retired = L.total ∧ L.nextK = L.total then s.finishLaunch B.launch L
    else { s with launches := s.launches.set B.launch L }

/-- BLOCK_RETIRE (R311): a complete block retires, once the stores of its record have been applied (R372). Where its core still holds partials of its warps, the device pushes
them first. -/
def execBlockRetire (block : Nat) (s : State) : Out :=
  needing (fun s => match s.blocks.get? block with
    | none => .refused .notEnabled
    | some B =>
      if B.retired || B.zeroing || !s.blockComplete block || !s.issuing B.ctx then .refused .notEnabled
      else if s.heldPartials block ≠ [] then
        .next ((s.heldPartials block).foldl (fun s e => s.pushPartial B.core (e.1 / 1024) e.2) s)
      else if s.blockQuiet block && detReady (s.launches.getD B.launch {}) B then
        let t := s.recordBlock block
        if !t.storesOut then .next (t.retireBlock block) else if B.recorded then .refused .notEnabled else .next t
      else .refused .notEnabled) s

/-- ORD_APPLY (R225): the ordered records of a complete block go to their homes in ascending key order, once those of
every lower block of the launch have been applied. DEDUCED, log 53. -/
def execOrdApply (block : Nat) (s : State) : Out :=
  match s.blocks.get? block with
  | none => .refused .notEnabled
  | some B =>
    let L := s.launches.getD B.launch {}
    let before := s.blocks.any fun e => e.2.launch == B.launch && e.2.ordDone &&
      s.ops.any fun o => e.2.warps.contains o.2.warp
    if B.det && !B.ordDone && s.blockComplete block && B.block == L.ordNext && !before then
      let recs := sortBy (fun (r : OrdRec) => r.lane) B.ords
      let recs := sortBy (fun (r : OrdRec) => r.n) recs
      let recs := sortBy (fun (r : OrdRec) => r.warp) recs
      let s := recs.foldl (fun s r =>
        s.startOp { work := 0, warp := B.warps.getD r.warp 0, lane := r.lane, core := B.core, agent := B.core, ctx := B.ctx,
                    act := .rd r.op r.u, pol := .thru, pa := r.pa, len := if r.w64 then 8 else 4, val := r.val,
                    vpage := r.vpage }) s
      let s := s.modBlock block fun B => { B with ordDone := true, ords := [] }
      .next { s with launches := s.launches.set B.launch { L with ordNext := L.ordNext + 1 } }
    else .refused .notEnabled

/-! ## A block that an LSECC ended, R377 -/

/-- The allotments of a block's warps when it runs again: what they have, and what they gave back before. -/
def State.reallot (s : State) (b : Nat) : Option (List (Nat × AMap Nat × Nat)) :=
  let B := s.block b
  ((B.warps.foldl (fun (x : Option (Room × List (Nat × AMap Nat × Nat))) w =>
    x.bind fun x => (x.1.regain (s.warp w) (s.warpHere (s.warp w))).map fun y => (y.1, x.2 ++ [(w, y.2)]))
    (some (s.room B.core, []))).map (·.2))

/-- The warps of a block as they start, in their allotments. -/
def State.restartWarps (s : State) (b : Nat) (at_ : List (Nat × AMap Nat × Nat)) : State :=
  let B := s.block b
  let L := s.launches.getD B.launch {}
  let index := B.block + B.nblock * B.rank
  at_.foldl (fun s e => s.modWarp e.1 fun W =>
    { startWarp L B.core B.b W.num b index s.clock e.2 with quarterSet := W.quarterSet }) s

/-- Has a run that an LSECC ended come to its end: everything that it had begun is done with, and time has passed its GWCTs
(R312)? -/
def State.runPast (s : State) (b : Nat) : Bool :=
  let B := s.block b
  s.cmds.all (fun e => e.2.block != b) && s.rels.all (fun e => !B.warps.contains e.2.warp) &&
    s.ops.all (fun e => !B.warps.contains e.2.warp) && s.spills.all (fun e => !B.warps.contains e.2.warp) &&
    s.joins.all (fun e => !B.warps.contains e.2.warp) && s.works.all (fun e => !B.warps.contains e.2.warp) &&
    s.remotes.all (fun e => !B.warps.contains e.2.warp) && B.warps.all fun w => decide ((s.warp w).gwct ≤ s.timeAt B.core)

/-- BLOCK_RELAUNCH (R377): once its unstarted commands are discarded and its started ones complete, the records of an ended
run are written; then an idempotent block runs again, in its allotment, and any other fails and will retire. Registers and
tiles that its warps had given back (R102) it takes again once they are free. DEDUCED, log 54. -/
def execBlockRelaunch (block : Nat) (s : State) : Out :=
  match s.blocks.get? block with
  | none => .refused .notEnabled
  | some B =>
    if !B.ended || !s.issuing B.ctx then .refused .notEnabled
    else if !B.told then (if s.cmds.all fun e => e.2.block != block then .next (s.tellEnd block) else .refused .notEnabled)
    else if !s.runPast block then .refused .notEnabled
    else if B.idem && decide (B.run < 4) then
      match s.reallot block with
      | none => .refused .notEnabled
      | some at_ =>
        .next ((s.restartWarps block at_).modBlock block fun B =>
          { B with ended := false, run := B.run + 1, ls := [], lsBad := [], churn := none, rings := [], bars := [], ords := [] })
    else
      let s := s.modBlock block fun B => { B with ended := false, failed := true }
      .next (B.warps.foldl (fun s w => s.releaseQuarters w) s)

/-! ## Launches on several chips, R314 -/

/-- A replicated record reaches a chip, which checks it against its own resources and answers. -/
def State.launchRecord (s : State) (src ctx gen : Nat) (image : List Byte) : State :=
  let x := ((List.range 128).map fun i => (image.getD i (0 : Byte)).toNat * 256 ^ i).sum
  let L := { recordOf ctx x with src := src, gen := gen, started := false }
  match s.ctxs.get? ctx with
  | none => s.fabric src (.refuse src ctx gen 4)
  | some _ =>
    match s.recordFault L x with
    | (s, some c) => s.fabric src (.refuse src ctx gen c)
    | (s, none) =>
      let (id, s) := s.newId
      { s with launches := s.launches.set id L }.fabric src (.accept ctx gen)

/-- LAUNCH_RECORD. -/
def execLaunchRecord (src ctx gen : Nat) (image : List Byte) (s : State) : Out :=
  needing (fun s => .next (s.launchRecord src ctx gen image)) s

/-- A launch of a chip's dispatch and generation that has not started. -/
def State.pendingLaunch (s : State) (src ctx gen : Nat) : Option (Nat × Launch) :=
  s.launches.find? fun e => e.2.src == src && e.2.ctx == ctx && e.2.gen == gen && !e.2.started

/-- ACCEPT: when every chip has accepted, START goes to all of them. -/
def execAccept (src ctx gen : Nat) (s : State) : Out :=
  match s.pendingLaunch s.chip ctx gen with
  | none => .next s                          -- of another generation: discarded
  | some (id, L) =>
    let L : Launch := { L with answers := L.answers.filter (· != src) }
    if L.answers ≠ [] then .next { s with launches := s.launches.set id L }
    else
      let s := (s.others L).foldl (fun s c => s.fabric c (.start ctx gen)) s
      if L.chips.getLsbD s.chip then .next { s with launches := s.launches.set id { L with started := true } }
      else .next { s with launches := s.launches.del id }

/-- A launch that the chip `disp` has sent is refused: it is abandoned everywhere, and the dispatching chip refuses the
record. -/
def State.refuseLaunch (s : State) (src disp ctx gen cause : Nat) : State :=
  match s.pendingLaunch disp ctx gen with
  | none => s                                -- of another generation: discarded
  | some (id, L) =>
    let s := { s with launches := s.launches.del id }
    if disp ≠ s.chip then s
    else
      let s := ((s.others L).filter (· != src)).foldl (fun s c => s.fabric c (.refuse disp ctx gen cause)) s
      match s.queue ctx L.queue with
      | (s, some d) => s.refuseRecord ctx d L.index cause 2
      | (s, none) => s

/-- REFUSE. -/
def execRefuse (src : Refuser) (ctx gen cause : Nat) (s : State) : Out :=
  needing (fun s => .next (s.refuseLaunch src.src src.disp ctx gen cause)) s

/-- START: the launch's blocks may be placed. -/
def execStart (src ctx gen : Nat) (s : State) : Out :=
  match s.pendingLaunch src ctx gen with
  | some (id, L) => .next { s with launches := s.launches.set id { L with started := true } }
  | none => .next s

/-! ## Tail registers, R302, R355 -/

/-- A write of the tail register of queue q of a partition's bound context. -/
def State.writeTail (s : State) (part q : Nat) (v : DWord) : State :=
  let P := s.part part
  if !P.run then s
  else
    match s.queue P.ctx q with
    | (s, none) => s
    | (s, some d) =>
      if d.host && decide (d.tail ≤ v.toNat) && decide (v.toNat ≤ d.head + 2 ^ d.logn) then s.devWrite (d.pa + 24) 8 v.toNat
      else s.queueFault d 5 0

def State.readTail (s : State) (part q : Nat) : State × Nat :=
  let P := s.part part
  if !P.run then (s, 0)
  else
    match s.queue P.ctx q with
    | (s, none) => (s, 0)
    | (s, some d) => (s, d.tail)

/-- TAIL_REGISTER_WRITE (R302), which wakes the module (R387). -/
def execTailRegisterWrite (part q : Nat) (v : DWord) (s : State) : Out :=
  awake (pageWrite part (0x800 + 8 * q) v) (needing fun s => .next (s.writeTail part q v)) s

/-! ## W, R317 to R320 -/

/-- The memory address of a W form. -/
def wAddr (s : State) (o : Ops) (x : Nat × Nat) : DWord :=
  let W := s.warp x.1
  let L := W.lane x.2
  src64 W L o.a + (src32 W L o.b).signExtend 64

/-- The queue that a lane names in field C. -/
def wQueue (s : State) (src : Src) (x : Nat × Nat) : Nat :=
  let W := s.warp x.1
  (src32 W (W.lane x.2) src).toNat

/-- Wait as FN.FENCE.FABRIC does, and go on. -/
def State.awaitFence (s : State) (g : Nat) (gr : Group) (who : List (Nat × Nat)) (k : State → Out) : Out :=
  if gr.memo.fenced || who == [] then k s
  else .next (s.beginFence g gr (.fence .fabric) true who)

/-- A lane's image as a number. -/
def imageOf (word : Acc → Nat → DWord) (a : Acc) : Nat := ((List.range 16).map fun i => (word a i).toNat * 2 ^ (64 * i)).sum

/-- The descriptors of some queues of a context. -/
def State.queuesOf (s : State) (ctx : Nat) (qs : List Nat) : State × AMap QDesc :=
  qs.dedup.foldl (fun (r : State × AMap QDesc) q =>
    match r.1.queue ctx q with
    | (s, some d) => (s, r.2.set q d)
    | (s, none) => (s, r.2)) (s, [])

/-- Stores that the device has sent since for a warp's instruction are its work, R317. -/
def State.ownStores (s : State) (since : Nat) (gr : Group) (w : Nat) (fs : Bool) : State :=
  let new := (s.msgs.filter fun e => decide (since < e.1) && (match e.2.body with
    | .devWr _ _ none => true
    | _ => false)).map (·.1)
  let (work, s) := s.attach gr w fs new.length
  { s with msgs := s.msgs.map fun e =>
      match e.2.body with
      | .devWr a b none => if new.contains e.1 then (e.1, { e.2 with body := .devWr a b (some work) }) else e
      | _ => e }

/-- Does the flag of a form lack room for what its warps have attached since (R40)? A warp that attaches nothing needs none. -/
def Group.flagShort (gr : Group) (s t : State) (fs : Bool) : Bool :=
  Group.flagFull s gr fs (gr.warpIds.filter fun w => (t.warp w).flags != (s.warp w).flags)

/-- Push one lane's image, R318, where its queue takes it. -/
def State.pushLane (s : State) (ctx q : Nat) (d : Dst) (x : Nat × Nat) (image : Nat) : State :=
  match s.queue ctx q with
  | (s, none) => s
  | (s, some e) =>
    if e.full || s.pushesAt ctx q != [] then s.modLane x.1 x.2 (·.putD d 0xFFFFFFFF)
    else (s.pushEntry ctx e image).modLane x.1 x.2 (·.putD d (BitVec.ofNat 32 (e.tail % 2 ^ 31)))

/-- The checks of W.SPAWN and W.LAUNCH for one lane, R318. -/
def pushFail (s : State) (o : Ops) (kind : Nat) (qs : AMap QDesc) (fault : Acc → Option Cause) (word : Acc → Nat → DWord)
    (a : Acc) : Option (Cause × DWord × Bool) :=
  let q := wQueue s o.c (a.w, a.l)
  let prot : Option (Cause × DWord × Bool) := some (.prot, BitVec.ofNat 64 q, false)
  if (s.ctx (s.block (s.warp a.w).block).ctx).qcount ≤ q then prot
  else if a.va.toNat % 128 ≠ 0 then some (.align, a.va, false)
  else
    match fault a with
    | some c => some (c, a.va, false)
    | none =>
      if (word a 0).toNat % 256 ≠ kind then some (.shape, a.va, false)
      else
        match qs.get? q with
        | some d => if d.host then prot else none
        | none => prot

/-- W.SPAWN and W.LAUNCH, R318. DEDUCED, log 48. -/
def pushForm (o : Ops) (kind : Nat) (fs : Bool) (s : State) : Out :=
  issueLane s false o ⟨1, 2, 1, 1, false, []⟩ fun g gr s =>
    let ctx := (s.block gr.block).ctx
    let who := s.execThreads gr o.pr
    let acc (x : Nat × Nat) : Acc := ⟨x.1, x.2, wAddr s o x, { rd := true }⟩
    let named := who.filter fun x => decide (wQueue s o.c x < (s.ctx ctx).qcount)
    recording s g gr ((named.filter fun x => (acc x).va.toNat % 128 == 0).map acc) 16 128 fun fault word poison s =>
      reaching g gr (fun s =>
        let ds := s.queuesOf ctx (named.map (wQueue s o.c))
        let s := (ds.1.dropWalks gr.walkIds).reportPoison ctx poison
        let fail (x : Nat × Nat) : Option (Cause × DWord × Bool) := pushFail s o kind ds.2 fault word (acc x)
        s.raising g gr (gr.warpIds.filterMap fun w => firstFail w who fail) fun gr s =>
          let who := who.filter fun x => gr.warpIds.contains x.1
          s.awaitFence g gr who fun s =>
            let t := gr.warpIds.foldl (fun t w =>
              let pushed := (who.filter (·.1 == w)).foldl (fun t x =>
                t.pushLane ctx (wQueue s o.c x) o.d x (imageOf word (acc x))) t
              pushed.ownStores t.ids gr w fs) s
            if gr.flagShort s t fs then .next (s.parkGroup g (.flag ((gr.flag fs).getD 0)) gr.memo)
            else .next ((t.zeroHelpers gr o 1).retire g gr)) s

def execWSpawn (o : Ops) (fs : Bool) (s : State) : Out := pushForm o 1 fs s
def execWLaunch (o : Ops) (fs : Bool) (s : State) : Out := pushForm o 2 fs s

/-- Change the join record of one lane, R319: here at once, or on another chip, whose answer brings the old count. -/
def State.joinLane (s : State) (ctx work : Nat) (o : Ops) (h : Hit) : State :=
  let W := s.warp h.acc.w
  let n : Int := (src32 W (W.lane h.acc.l) o.c).toInt
  if s.chipOf h.pa = s.chip then
    let (s, old) := s.joinHere ctx h.pa n
    s.modLane h.acc.w h.acc.l (·.putD o.d (BitVec.ofNat 32 old))
  else
    let (id, s) := s.newId
    let r : JoinReq :=
      { chip := s.chipOf h.pa, work, warp := h.acc.w, lane := h.acc.l, dst := Dst.vreg o.d, vpage := h.acc.va.toNat / 4096 }
    { s with joins := s.joins.set id r }.fabric (s.chipOf h.pa) (.join id ctx h.pa n)

/-- W.JOIN, R319. A record homed on another chip is changed there, and the old count comes back with its answer; whether that
chip can be reached, and its line is sound, is learned first. Stores that the enqueued image still has to make are its work
(R317). -/
def execWJoin (o : Ops) (fs : Bool) (s : State) : Out :=
  issueLane s false o ⟨1, 2, 1, 1, false, []⟩ fun g gr s =>
    let ctx := (s.block gr.block).ctx
    let who := s.execThreads gr o.pr
    let accs := who.map fun x => (⟨x.1, x.2, wAddr s o x, { rd := true, wr := true }⟩ : Acc)
    accessing s g gr accs 64 (fun h => if h.isReg || s.poisoned h then some .prot else none) (first := true) (k := fun gr hits s =>
      colouring s g gr (hits.filter (·.isDev)) (fun _ => false) (plain := true) fun gr s =>
        let hits := hits.filter fun h => gr.lanes.contains (h.acc.w, h.acc.l)
        s.awaitFence g gr (hits.map fun h => (h.acc.w, h.acc.l)) fun s =>
          reaching g gr (fun s =>
            let t := gr.warpIds.foldl (fun t w =>
              let mine := hits.filter fun h => h.acc.w == w
              let (work, u) := t.attach gr w fs (mine.filter fun h => t.chipOf h.pa != t.chip).length
              (mine.foldl (fun t h => t.joinLane ctx work o h) u).ownStores t.ids gr w fs) s
            if gr.flagShort s t fs then .next (s.parkGroup g (.flag ((gr.flag fs).getD 0)) gr.memo)
            else .next ((t.zeroHelpers gr o 1).retire g gr)) s)

/-- PROT where a lane names no queue, R317. -/
def State.queueTraps (s : State) (gr : Group) (who : List (Nat × Nat)) (src : Src) (qs : AMap QDesc) : List Raise :=
  gr.warpIds.filterMap fun w => firstFail w who fun x =>
    let q := wQueue s src x
    if (qs.get? q).isNone then some (.prot, BitVec.ofNat 64 q, false) else none

/-- W.DEAD, R320: a lateness that the write ends has been noted. -/
def State.setDeadline (s : State) (ctx q : Nat) (t : DWord) : State :=
  match s.queue ctx q with
  | (s, none) => s
  | (s, some d) =>
    ((s.noteLate ctx q d).devWrite (d.pa + 32) 8 t.toNat).modCtx ctx fun c => { c with late := c.late.del q }

/-- W.DEAD, R320. -/
def execWDead (o : Ops) (s : State) : Out :=
  issueLane s false o ⟨1, 1, 2, 1, false, []⟩ fun g gr s =>
    reaching g gr (fun s =>
      let ctx := (s.block gr.block).ctx
      let ds := s.queuesOf ctx ((s.execThreads gr o.pr).map (wQueue s o.a))
      ds.1.raising g gr (s.queueTraps gr (s.execThreads gr o.pr) o.a ds.2) fun gr s =>
        let s := (s.execThreads gr o.pr).foldl (fun s x =>
          let W := s.warp x.1
          s.setDeadline ctx (wQueue s o.a x) (src64 W (W.lane x.2) o.b)) s
        .next (s.retire g gr)) s

/-- What W.QSTAT reads of a queue, R320. -/
def State.qstat (s : State) (ctx q : Nat) (d : QDesc) (sel : QSel) : State × Nat :=
  match sel with
  | .pend => (s, min (d.tail - d.head) (2 ^ 32 - 1))
  | .miss => (s, d.miss)
  | .eprio => if d.tail ≤ d.head then (s, d.prio) else s.effPrio ctx q d d.prio
  | .faults => (s, d.faults)
  | .last => (s, d.last)
  | .dlo => (s, d.deadline % 2 ^ 32)
  | .dhi => (s, d.deadline / 2 ^ 32)

/-- W.QSTAT, R320. -/
def execWQstat (o : Ops) (sel : QSel) (s : State) : Out :=
  issueLane s false o {} fun g gr s =>
    reaching g gr (fun s =>
      let ctx := (s.block gr.block).ctx
      let ds := s.queuesOf ctx ((s.execThreads gr o.pr).map (wQueue s o.b))
      ds.1.raising g gr (s.queueTraps gr (s.execThreads gr o.pr) o.b ds.2) fun gr s =>
        let s := (s.execThreads gr o.pr).foldl (fun s x =>
          let q := wQueue s o.b x
          match s.queue ctx q with
          | (s, none) => s
          | (s, some d) =>
            let (s, v) := s.qstat ctx q d sel
            s.modLane x.1 x.2 (·.putD o.d (BitVec.ofNat 32 v))) s
        .next ((s.zeroHelpers gr o 1).retire g gr)) s

end Sys2Proof.Machine
end

