-- ==== Sys2Proof/Machine/Contexts.lean ====
section
/-! DEFINITION. Context descriptors, partitions and context switches (14_translation_traps R339 to R345; 15_host_fabric
R352, R355; 12_copy_engines_rings R298; 11_colours_monitors R278, R279). -/

namespace Sys2Proof.Machine

/-! ## Descriptors, R339 -/

/-- Is a descriptor within its limits, and does its save area hold an image of 1.5 MiB for each core? -/
def descOk (x cores : Nat) : Bool :=
  let zero (off n : Nat) : Bool := field x off n == 0
  decide (field x 0 8 % 2 ^ 15 = 0) && decide (field x 0 8 < 2 ^ 52) && decide (field x 8 2 ≠ 0) &&
    decide (field x 10 1 ≤ 15) && decide (field x 11 1 ≤ 1) && decide (1 ≤ field x 12 4 ∧ field x 12 4 ≤ 256) &&
    decide (field x 16 8 % 64 = 0) && decide (field x 24 8 % 128 = 0) && zero 38 2 && decide (field x 48 8 % 65536 = 0) &&
    decide (field x 48 8 < 2 ^ 52) && decide (field x 60 1 ≤ 15) && zero 61 67 &&
    decide (cores * 1536 ≤ field x 56 4 * 1024)

/-- The context that a descriptor names. -/
def descCtx (x : Nat) : Nat := field x 8 2

/-- A context as its descriptor sets it: what is read at each binding, and for a fresh context its registers. -/
def ctxOf (x : Nat) (old : Option Ctx) : Ctx :=
  let c : Ctx := match old with
    | some c => c
    | none => { leasens := field x 36 2, dpri := field x 60 1 % 16, tvb := BitVec.ofNat 64 (field x 40 8) &&& 0x0FFFFFFFFFFFF000 }
  { c with root := field x 0 8, wclass := field x 10 1 % 16, mgmt := field x 11 1 % 2 == 1, qcount := field x 12 4,
           qtb := BitVec.ofNat 64 (field x 16 8), mtb := BitVec.ofNat 64 (field x 24 8), mtn := field x 32 4,
           save := field x 48 8, savemib := field x 56 4 }

/-! ## Commands, R341, R342 -/

def State.statusOf (s : State) (c : Nat) : Option CtxStatus := (s.ctxs.get? c).map fun x => x.status

/-- Is a context bound to a partition of this chip, running or on its way in? -/
def State.ctxTaken (s : State) (c : Nat) : Bool :=
  match s.statusOf c with
  | some (.bound _) => true
  | some .saved | some (.draining _) | none => false

/-- Is a context on its way into another partition? R341 names 'a context already bound on this chip' alone; one whose image
another partition's shadow banks hold, or will hold, is refused as well. DESIGN CHOICE, log 92. -/
def State.incomingElsewhere (s : State) (part c : Nat) : Bool :=
  s.parts.any fun e => e.1 != part && (match e.2.shadow with
    | some d => descCtx d.2 == c && (e.2.pre || e.2.ready || e.2.swt)
    | none => false)

/-- Every way to give each die of the old partition a die of the new one; those that keep the dies apart come first. -/
def dieWays : List (List Nat) :=
  [[0, 1, 2], [0, 2, 1], [1, 0, 2], [1, 2, 0], [2, 0, 1], [2, 1, 0]] ++
    (List.range 27).map fun i => [i / 9, i / 3 % 3, i % 3]

/-- Give each core image a core of its own, so that the images of one die stay on one die, where those of another may join
them (R345); none where the new partition has no room for that. DEDUCED, log 54. -/
def assignCores (old new : List Nat) : Option (AMap Nat) :=
  let images (p : List Nat) (e : Nat) : List Nat := old.filter fun c => p.getD (c / 64) (c / 64) == e
  let cores (e : Nat) : List Nat := new.filter fun c => c / 64 == e
  (dieWays.find? fun p => (List.range 3).all fun e => decide ((images p e).length ≤ (cores e).length)).map fun p =>
    (List.range 3).foldl (fun (m : AMap Nat) e =>
      ((images p e).zip (cores e)).foldl (fun (m : AMap Nat) x => m.set x.1 x.2) m) []

/-- Set the error bit of a partition. -/
def State.partErr (s : State) (n : Nat) : State := (s.modPart n fun P => { P with err := true }).mark (.pstat n) 0x20

/-- The cores of a partition stop forming groups, R342 step 1. -/
def State.haltCores (s : State) (n : Nat) (b : Bool) : State :=
  (s.part n).cores.foldl (fun s c => s.modCore c fun x => { x with halting := b }) s

/-- Begin a preload of a descriptor, whose bytes are `x`. -/
def State.beginPreload (s : State) (n d x : Nat) : State :=
  s.modPart n fun P => { P with pre := true, ready := false, shadow := some (d, x) }

/-- Do the shadow banks hold this descriptor's image, or are they being loaded with it? -/
def Partn.holds (P : Partn) (d : Nat) : Bool := (P.shadow.map (·.1)) == some d

/-- Can a command start now, or does it wait, R341? -/
def Partn.mustWait (P : Partn) (cmd d : Nat) : Bool :=
  P.swt || (cmd == 1 && P.pre) || (P.drn && (cmd == 1 || (cmd == 2 && !(P.ready && P.holds d))))

/-- Run an accepted command: 1 PRELOAD, 2 SWITCH, 3 UNBIND; `x` are the descriptor's bytes. DEDUCED, log 54. -/
def State.runCmd (s : State) (n cmd d x : Nat) : State :=
  let P := s.part n
  match cmd with
  | 1 => s.beginPreload n d x
  | 2 =>
    let s := s.modPart n fun P => { P with swt := true, incoming := some d }
    if P.ready && P.holds d then s.haltCores n true
    else if P.pre && P.holds d then s
    else s.beginPreload n d x
  | 3 => if P.run then (s.modPart n fun P => { P with swt := true, incoming := none }).haltCores n true else s
  | _ => s

/-- The descriptor that a command names: as preloaded, or as the device reads it in its own memory. -/
def State.readDesc (s : State) (n cmd d : Nat) : State × Nat :=
  match (s.part n).shadow with
  | some x =>
    if cmd = 2 ∧ x.1 = d ∧ ((s.part n).ready ∨ (s.part n).pre) then (s, x.2)
    else if s.ownPa d && d % 128 == 0 then s.devRead d 128 else (s, 0)
  | none => if s.ownPa d && d % 128 == 0 then s.devRead d 128 else (s, 0)

/-- May a descriptor's context be bound to a partition, R340, R341, R345? -/
def State.bindable (s : State) (n x : Nat) : Bool :=
  descOk x (s.part n).cores.length && !s.ctxTaken (descCtx x) && !s.incomingElsewhere n (descCtx x) &&
    (assignCores (s.ctx (descCtx x)).cores (s.part n).cores).isSome

/-- A command that waits for nothing is refused or run. -/
def State.startCmd (s : State) (n cmd d : Nat) : State :=
  if cmd = 3 then s.runCmd n 3 0 0
  else
    let (s, x) := s.readDesc n cmd d
    if s.bindable n x then s.runCmd n cmd d x else s.partErr n

/-- A command of a partition: waiting, refused or begun. -/
def State.command (s : State) (n cmd d : Nat) : State :=
  if cmd = 0 ∨ 3 < cmd then s
  else if (s.part n).mustWait cmd d then s.modPart n fun P => { P with waiting := P.waiting ++ [BitVec.ofNat 64 (cmd + d)] }
  else s.startCmd n cmd d

/-- Run the commands that waited, as far as they may go. -/
def State.runWaiting (s : State) (n : Nat) : List DWord → State
  | [] => s.modPart n fun P => { P with waiting := [] }
  | x :: rest =>
    let cmd := x.toNat % 8
    let d := x.toNat - cmd
    if (s.part n).mustWait cmd d then s.modPart n fun P => { P with waiting := x :: rest }
    else (s.startCmd n cmd d).runWaiting n rest

def State.wakeCmds (s : State) (n : Nat) : State := s.runWaiting n (s.part n).waiting

/-- A write of PCTL, R341. -/
def State.writePctl (s : State) (n : Nat) (v : DWord) : State :=
  let cmd := v.toNat % 8
  let d := if cmd = 3 then 0 else v.toNat % 2 ^ 52 / 128 * 128
  let s := s.modPart n fun P => { P with desc := BitVec.ofNat 64 (v.toNat % 2 ^ 52 / 128 * 128) }
  if cmd = 0 ∨ 3 < cmd then s
  else
    let e := (s.part n).err
    let s := (s.modPart n fun P => { P with err := false }).command n cmd d
    -- a refused command is not the last one accepted
    if (s.part n).err then s else s.modPart n fun P => { P with err := e, cmd := BitVec.ofNat 3 cmd }

def execPreload (part desc : Nat) (s : State) : Out :=
  let v := BitVec.ofNat 64 (1 + desc)
  awake (pageWrite part 0 v) (needing fun s => .next (s.writePctl part v)) s
def execSwitch (part desc : Nat) (s : State) : Out :=
  let v := BitVec.ofNat 64 (2 + desc)
  awake (pageWrite part 0 v) (needing fun s => .next (s.writePctl part v)) s
def execUnbind (part : Nat) (s : State) : Out := awake (pageWrite part 0 3) (fun s => .next (s.writePctl part 3)) s

/-- FUNCTION_LEVEL_RESET (R352): UNBIND on the function's partition. -/
def execFunctionLevelReset (n : Nat) (s : State) : Out := if n < 16 then .next (s.command n 3 0) else .refused .notEnabled

/-- May a preload of a context's image end: is the context resumable (R342)? -/
def State.preloadable (s : State) (x : Nat) : Bool :=
  match s.statusOf (descCtx x) with
  | some (.draining _) | some (.bound _) => false
  | some .saved | none => true

/-- PRELOAD_COMPLETE (R342): the image is in the shadow banks. A SWITCH that waited for it halts the cores. -/
def execPreloadComplete (part : Nat) (s : State) : Out :=
  needing (fun s =>
    let P := s.part part
    match P.shadow with
    | some d =>
      if P.pre && s.preloadable d.2 then
        let s := s.modPart part fun P => { P with pre := false, ready := true }
        if P.swt && P.incoming == some d.1 then .next (s.haltCores part true) else .next (s.wakeCmds part)
      else .refused .notEnabled
    | none => .refused .notEnabled) s

/-! ## The switch -/

/-- Does a group of the context stand still, at a park that only something else can end? -/
def Park.still (p : Park) : Bool :=
  match p with
  | .run | .walk _ | .lines _ _ | .colours | .load | .spill | .gather | .claim | .device _ | .remote => false
  | .meeting | .barrier _ | .cbarrier _ | .fence _ | .arrive _ | .release | .flag _ | .monitor _ | .condition _
  | .engineQueue | .seal | .batch _ | .guardClear _ | .ring _ _ _ _ | .hold _ | .until_ _ | .sluice | .halt | .helpers
  | .shootdown _ | .operands => true

/-- Does a stop keep a group where it stands (R374)? -/
def State.stopsGroup (s : State) (gr : Group) : Bool :=
  (s.core gr.core).stop.getLsbD gr.sub || gr.warpIds.any fun w => (s.warp w).dbgHalt

/-- Have the cores halted, R342 step 1: no group moves inside a clause, and no result is due. A group that a stop has halted
stands still wherever it is (R344). -/
def State.halted (s : State) (ctx : Nat) : Bool :=
  let mine (w : Nat) : Bool := (s.block (s.warp w).block).ctx == ctx
  s.groups.all (fun e => (s.block e.2.block).ctx != ctx || e.2.park.still || s.stopsGroup e.2) &&
    s.ops.all (fun e => !(mine e.2.warp && e.2.dst.isSome)) && s.remotes.all (fun e => !mine e.2.warp) &&
    s.spills.all (fun e => !mine e.2.warp) && s.joins.all (fun e => !(mine e.2.warp && e.2.dst.isSome))

/-- Write the outgoing core images to the context's save area, wherever it lies, in pieces of at most 1.5 MiB (R339, R342):
bytes that are the device's own. DESIGN CHOICE, log 34. -/
def State.saveImages (s : State) (ctx : Nat) : State :=
  let c := s.ctx ctx
  let put (s : State) (i : Nat) : State :=
    let at_ := c.save + 1572864 * i
    let image := (Config.coreImage (s.free + i)).take 1572864
    if (s.remoteChip (at_ / 128)).isNone then { s with mem := memPutBytes s.mem at_ image }
    else (List.range (image.length / 128)).foldl (fun s n =>
      s.send devAgent (homeOf (at_ / 128 + n)) (at_ / 128 + n) (.devWr 0 ((image.drop (128 * n)).take 128) none)) s
  let s := (List.range c.cores.length).foldl put s
  { s with free := s.free + c.cores.length }

/-- Are bytes of a context's image still on their way to its save area? -/
def State.imagesOut (s : State) (ctx : Nat) : Bool :=
  let c := s.ctx ctx
  s.msgs.any fun e => e.2.src == devAgent && decide (c.save ≤ 128 * e.2.line) &&
    decide (128 * e.2.line < c.save + 1048576 * c.savemib) && (match e.2.body with
      | .devWr _ _ _ => true
      | _ => false)

/-- Take the running context off its cores: its unstarted commands are saved, and their lines given up (R298, R342); what is
still in flight of it leaves no copy on the cores (R254). Its images are on their way to the save area. DESIGN CHOICE,
log 34. -/
def State.takeOff (s : State) (part ctx : Nat) : State :=
  let cmds := s.cmds.filter fun e => e.2.ctx == ctx && !e.2.started
  let s := cmds.foldl (fun s e =>
    let granted := e.2.lines.filter fun n => !e.2.want.contains n
    let s := { s with cmds := s.cmds.set e.1 { e.2 with saved := true, want := e.2.lines } }
    let s := s.modCore e.2.core fun x => { x with engineQ := x.engineQ.filter (· != e.1) }
    s.engineRelease e.2.core granted) s
  let s := (s.part part).cores.foldl (fun s c => s.pushAll c) s
  let s : State := { s with ops := s.ops.map fun e : Nat × Op => if e.2.ctx = ctx then (e.1, { e.2 with stale := true }) else e }
  (s.modCtx ctx fun c => { c with status := .draining part, cores := sortNat (s.part part).cores }).saveImages ctx

/-- A core keeps no copy that may hide from a resumed thread what it has seen elsewhere: leased lines, whatever their colour,
and fetched code (R254, R279, R345). -/
def State.cleanCore (s : State) (core : Nat) : State :=
  { s with caches := s.caches.filter fun e => !(e.1 % 1024 == core && e.2.st == CState.l) }.modCore core fun c =>
    { c with icache := [] }

/-- Bring a context onto the cores of a partition, R342 step 3, R345, R298, R279. -/
def State.bringOn (s : State) (part ctx : Nat) : State :=
  let new := sortNat (s.part part).cores
  let m := (assignCores (s.ctx ctx).cores new).getD []
  let at_ (c : Nat) : Nat := m.getD c c
  let mine (b : Nat) : Bool := (s.block b).ctx == ctx
  let moveW (e : Nat × Warp) : Nat × Warp := if mine e.2.block then (e.1, { e.2 with core := at_ e.2.core }) else e
  let moveG (e : Nat × Group) : Nat × Group := if mine e.2.block then (e.1, { e.2 with core := at_ e.2.core }) else e
  let moveB (e : Nat × Block) : Nat × Block := if e.2.ctx = ctx then (e.1, { e.2 with core := at_ e.2.core }) else e
  let s : State := { s with warps := s.warps.map moveW, groups := s.groups.map moveG, blocks := s.blocks.map moveB }
  let s := new.foldl (fun s c => s.cleanCore c) s
  let cmds := s.cmds.filter fun e => e.2.ctx == ctx && e.2.saved
  let s := cmds.foldl (fun s e =>
    let c := at_ e.2.core
    let s := { s with cmds := s.cmds.set e.1 { e.2 with saved := false, core := c } }
    s.modCore c fun x => { x with engineQ := x.engineQ ++ [e.1] }) s
  let s := cmds.foldl (fun s e =>
    e.2.lines.foldl (fun s n => s.request (engineAgent (at_ e.2.core)) n ctx (.own none)) s) s
  s.modCtx ctx fun c => { c with status := .bound part, rot := [], chosen := [] }

/-- SWITCH_FLIP (R342): the halt has ended; the cores exchange their contexts. -/
def execSwitchFlip (part : Nat) (s : State) : Out :=
  needing (fun s =>
    let P := s.part part
    let ready := match P.incoming with
      | some d => P.ready && P.holds d
      | none => true
    if !P.swt || !ready || (P.run && (!s.halted P.ctx || P.drn && P.incoming.isSome)) then .refused .notEnabled
    else
      let s := if P.run then s.takeOff part P.ctx else s
      let s := s.modPart part fun Q =>
        { Q with swt := false, drn := Q.drn || P.run, draining := if P.run then some P.ctx else Q.draining, run := false,
                 ctx := 0, incoming := none }
      let s := s.haltCores part false
      match P.incoming with
      | none => .next (s.wakeCmds part)
      | some _ =>
        let x := (P.shadow.map (·.2)).getD 0
        let c := descCtx x
        let s := { s with ctxs := s.ctxs.set c (ctxOf x (s.ctxs.get? c)) }
        let s := (s.bringOn part c).modPart part fun Q => { Q with run := true, ready := false, shadow := none, ctx := c }
        -- traps held pending through the switch are taken now (R344)
        let s := s.warps.foldl (fun s e => if (s.block e.2.block).ctx = c then s.takePending e.1 else s) s
        .next (s.wakeCmds part)) s

/-- CONTEXT_RESUMABLE (R342): the outgoing image is written, every acknowledgement is in, and every started command has
completed. -/
def execContextResumable (ctx : Nat) (s : State) : Out :=
  needing (fun s => match s.statusOf ctx with
    | some (.draining part) =>
      let mine (w : Nat) : Bool := (s.block (s.warp w).block).ctx == ctx
      if s.ops.all (fun e => !(e.2.ctx == ctx)) && s.cmds.all (fun e => e.2.ctx != ctx || e.2.saved) &&
          s.joins.all (fun e => !mine e.2.warp) && s.spills.all (fun e => !mine e.2.warp) &&
          !s.partialOf (fun x => mine x.1) && !s.imagesOut ctx then
        let s := s.modCtx ctx fun c => { c with status := .saved }
        let s := s.modPart part fun P =>
          if P.draining = some ctx then { P with drn := false, draining := none } else P
        .next (s.wakeCmds part)
      else .refused .notEnabled
    | some (.bound _) | some .saved | none => .refused .notEnabled) s

/-! ## The cores of a partition, R355 -/

/-- A write of PCORESd. -/
def State.writePcores (s : State) (n d : Nat) (v : DWord) : State :=
  let P := s.part n
  let mine := (List.range 64).filterMap fun i => if v.getLsbD i then some (64 * d + i) else none
  let other := s.parts.any fun e => e.1 != n && e.2.cores.any mine.contains
  if P.run || P.pre || P.ready || P.swt || P.drn || other || decide (2 < d) then s.partErr n
  else s.modPart n fun P => { P with cores := sortNat (P.cores.filter (fun c => c / 64 != d) ++ mine) }

def Partn.pcores (P : Partn) (d : Nat) : DWord :=
  (P.cores.filter fun c => c / 64 == d).foldl (fun x c => x ||| BitVec.twoPow 64 (c % 64)) 0

def execPcoresWrite (part die : Nat) (v : DWord) (s : State) : Out :=
  awake (pageWrite part (0x10 + 8 * die) v) (fun s => .next (s.writePcores part die v)) s

/-- PSTAT, R341. -/
def Partn.stat (P : Partn) : Nat :=
  P.run.toNat + 2 * P.pre.toNat + 4 * P.ready.toNat + 8 * P.swt.toNat + 16 * P.drn.toNat + 32 * P.err.toNat + 2 ^ 16 * P.ctx

end Sys2Proof.Machine
end

