-- ==== Sys2Proof/Machine/Cross.lean ====
section
/-! DEFINITION. Meetings, cross-lane forms, barriers and special registers (05_threads_control R105 to R108, R111, R116 to
R121, R404). -/

namespace Sys2Proof.Machine

/-! ## Meetings -/

/-- A group stands in a meeting at word a: parked there, delayed in it, or about to look at it again. -/
def Group.atMeeting (gr : Group) (a : DWord) : Bool := gr.pc == a && gr.meets

/-- The groups of a block that stand in a meeting at a word. -/
def State.meetingGroups (s : State) (block : Nat) (a : DWord) : List (Nat × Group) :=
  s.groups.filter fun e => e.2.block == block && e.2.atMeeting a

/-- Issue an instruction that meets: what a group checks as it issues, it checks on its arrival alone; a group that looks at
its meeting again has passed those checks. -/
def issueMet (o : Ops) (wd : Widths) (k : Nat → Group → State → Out) (s : State) : Out :=
  match s.current with
  | some (_, gr) => if gr.memo.arrived then issueBare s k else issueLane s false o wd k
  | none => .next s

/-- A meeting instruction: its member masks, what it does to each lane that executes it (given the warp as it stands and
the effective mask's lanes), whether it is a quad form, and the v registers of lanes that it reads across. -/
structure Meeting where
  quad : Bool
  mask : Warp → Nat → Word
  eff : Warp → List Nat → Nat → Lane → Lane
  reads : Warp → Nat → List (Nat × Nat)

/-- A form of R105 reads, of other lanes, only what those read that execute it. -/
def noCross (_ : Warp) (_ : Nat) : List (Nat × Nat) := []

/-- The lanes of a warp that a meeting may gather at a word: they stand there, have not met there yet, and execute; for a
quad form they need not execute (R107). A lane that a pending meeting has already counted waits for the next one (R404).
Ascending. -/
def State.gathered (s : State) (block : Nat) (a : DWord) (pr : Pred) (quad : Bool) (w : Nat) : List Nat :=
  sortNat ((s.meetingGroups block a).flatMap fun e =>
    ((if quad then e.2.lanes else s.execThreads e.2 pr).filter fun x =>
      x.1 == w && !e.2.memo.who.contains x && (quad || !(s.warp w).counts.contains (a, x.2))).map (·.2))

/-- A meeting completes when every named live lane has reached the word: it is gathered there, or is counted there
(R106, R107, R404). DEDUCED, log 31. -/
def State.meetingReady (s : State) (block : Nat) (a : DWord) (pr : Pred) (quad : Bool) (w : Nat) (mask : Word) : Bool :=
  let here := s.gathered block a pr quad w
  (List.range 32).all fun j =>
    !(mask.getLsbD j && s.isLive (w, j)) || here.contains j || (!quad && (s.warp w).counts.contains (a, j))

/-- Does a meeting that is pending at a word name a lane? -/
def State.pendingNames (s : State) (block : Nat) (a : DWord) (pr : Pred) (m : Meeting) (w j : Nat) : Bool :=
  (s.gathered block a pr m.quad w).any fun l => (m.mask (s.warp w) l).getLsbD j

/-- What was counted for meetings that are pending at a word no more is forgotten. -/
def State.dropCounts (s : State) (block : Nat) (a : DWord) (pr : Pred) (m : Meeting) (w : Nat) : State :=
  s.modWarp w fun W => { W with counts := W.counts.filter fun c => c.1 != a || s.pendingNames block a pr m w c.2 }

/-- A group reaches a meeting word of R105, and its lanes' credits lapse. Those that do not execute have reached the word for
the meeting that is pending there and names them, or the next that does; each pending meeting counts them once (R404). -/
def State.arriveMeet (s : State) (g : Nat) (gr : Group) (pr : Pred) (m : Meeting) : State :=
  let a := gr.pc
  let s := gr.warpIds.foldl (fun s w => s.dropCounts gr.block a pr m w) s
  let s := s.eachLane gr.lanes fun _ _ L => { L with credit := none }
  let s := if s.execThreads gr pr = [] then s
    else s.modGroup g fun gr => { gr with park := .meeting, memo := { gr.memo with arrived := true } }
  gr.warpIds.foldl (fun s w =>
    let idle := (gr.lanesOf w).filter fun j => s.isLive (w, j) && !s.exec? pr (w, j)
    let s := s.modWarp w fun W => idle.foldl (fun W j => W.modLane j fun L => { L with credit := some a }) W
    let W := s.warp w
    let new := (List.range 32).filter fun j =>
      (W.lane j).credit == some a && !W.counts.contains (a, j) && s.pendingNames gr.block a pr m w j
    s.modWarp w fun W => { W with counts := W.counts ++ new.map fun j => (a, j) }) s

/-- Lanes have met: they are done in their groups. -/
def State.markMet (s : State) (block : Nat) (a : DWord) (w : Nat) (ls : List Nat) : State :=
  let mark (e : Nat × Group) : Nat × Group :=
    if e.2.block == block && e.2.atMeeting a then
      (e.1, { e.2 with memo := { e.2.memo with who := e.2.memo.who ++ (ls.map fun l => (w, l)).filter e.2.lanes.contains } })
    else e
  { s with groups := s.groups.map mark }

/-- What a meeting at a word has counted of its named lanes is used up (R404), and lanes that were kept out of the next
meeting by it are looked at again. -/
def State.usedCounts (s : State) (a : DWord) (w : Nat) (mask : Word) : State :=
  let W := s.warp w
  let used := (List.range 32).filter fun j => mask.getLsbD j && W.counts.contains (a, j)
  if used = [] then s
  else
    (s.modWarp w fun W =>
      { (used.filter fun j => (W.lane j).credit == some a).foldl (fun V j => V.modLane j fun L => { L with credit := none }) W with
        counts := W.counts.filter fun c => !(c.1 == a && used.contains c.2) }).wakeMeetings w

/-- The trap of masks that disagree, R105: TAD names the lowest lane whose mask differs from the lowest lane's. -/
def memberTad (mask : Word) (lane : Nat) : DWord := mask.setWidth 64 ||| (BitVec.ofNat 64 lane <<< 32)

/-- The lanes that lane l's meeting gathers: those whose masks name one another, directly or through others. -/
def meetTeam (all : List Nat) (mask : Nat → Word) (l : Nat) : List Nat :=
  (List.range 32).foldl (fun team _ =>
    all.filter fun j => team.any fun k => (mask k).getLsbD j || (mask j).getLsbD k) (all.filter (· == l))

/-- One warp's lanes trap in every group that stands in a meeting with some of its lanes. The meeting does not take place:
what it has counted is counted no more, the lanes concerned keep their credits, and those it kept out are looked at again.
DEDUCED, log 31. -/
def State.raiseMet (s : State) (block : Nat) (a : DWord) (m : Meeting) (ls : List Nat) (r : Raise) : State :=
  let W := s.warp r.warp
  let s := s.modWarp r.warp fun W' =>
    { W' with counts := W'.counts.filter fun c => !(c.1 == a && ls.any fun l => (m.mask W l).getLsbD c.2) }
  let s := (s.meetingGroups block a).foldl (fun s e =>
    if e.2.lanes.any fun x => x.1 == r.warp && ls.contains x.2 then (s.raise e.1 e.2 [r]).1 else s) s
  s.wakeMeetings r.warp

/-- REGECC in what lanes of a meeting read as it completes: their own operands, and what they read across (R125). A helper
lane raises nothing (R103). -/
def State.meetEcc (s : State) (o : Ops) (wd : Widths) (m : Meeting) (w : Nat) (ls : List Nat) : Option Raise :=
  let W := s.warp w
  ((ls.filter fun l => s.isLive (w, l)).findSome? fun l =>
    match s.badRead o.pr (wd.reads o) (wd.readsS o) (w, l) with
    | some r => some (r + 256 * l)
    | none => (m.reads W l).findSome? fun x => (W.badReg (W.lane x.1) [x.2] []).map (· + 256 * x.1)).map fun tad =>
      ⟨w, .regecc, BitVec.ofNat 64 tad, 0, false⟩

/-- The meeting that lane l of a warp takes part in, once it may complete: the lanes that it gathers, and those that execute. -/
def State.teamOf (s : State) (block : Nat) (a : DWord) (pr : Pred) (m : Meeting) (w l : Nat) :
    Option (List Nat × List Nat) :=
  let W := s.warp w
  let all := s.gathered block a pr m.quad w
  if !all.contains l || !s.meetingReady block a pr m.quad w (m.mask W l) then none
  else
    let ls := if m.quad then all.filter fun j => (m.mask W l).getLsbD j else meetTeam all (m.mask W) l
    some (ls, ls.filter fun j => s.exec? pr (w, j))

/-- Registers that lanes of a complete meeting read across, whose results are still due (R40, R107). -/
def State.meetNeeds (s : State) (block : Nat) (a : DWord) (pr : Pred) (m : Meeting) (w l : Nat) : List (Nat × Nat × Nat) :=
  match s.teamOf block a pr m w l with
  | none => []
  | some (_, ex) => (ex.flatMap fun j => m.reads (s.warp w) j).filterMap fun x =>
      if (s.pendingV w x.1).contains x.2 then some (w, x) else none

/-- Try to complete the meeting that lane l of a warp takes part in: the masks are those that its lanes present, read as
the meeting is looked at (DESIGN CHOICE, log 82). -/
def State.tryMeet (s : State) (block : Nat) (a : DWord) (o : Ops) (wd : Widths) (m : Meeting) (w l : Nat) : State :=
  let W := s.warp w
  match s.teamOf block a o.pr m w l with
  | none => s
  | some (ls, ex) =>
    let first := m.mask W (ls.headD l)
    match ls.find? fun j => !m.quad && m.mask W j != first with
    | some j => s.raiseMet block a m ls ⟨w, .member, memberTad (m.mask W j) j, 0, false⟩
    | none =>
      if s.meetNeeds block a o.pr m w l ≠ [] then s
      else
        match s.meetEcc o wd m w ex with
        | some r => (s.reportRegs [r]).raiseMet block a m ls r
        | none =>
          let s := s.modWarp w fun V => ex.foldl (fun V j => V.modLane j (m.eff W ex j)) V
          let s := s.markMet block a w ls
          if m.quad then s else s.usedCounts a w first

/-- Groups all of whose lanes that take part have met go on (R106): those that execute, and for a quad form all. -/
def State.resumeMet (s : State) (block : Nat) (a : DWord) (pr : Pred) (quad : Bool) : State :=
  (s.meetingGroups block a).foldl (fun s e =>
    let part := if quad then e.2.lanes else s.execThreads e.2 pr
    if part.all e.2.memo.who.contains then s.retire e.1 e.2 else s) s

/-- MEMBER where the own bit of a lane that has still to meet is clear in its mask, R105. -/
def State.ownBit (s : State) (ex : List (Nat × Nat)) (gr : Group) (m : Meeting) : List Raise :=
  if m.quad then []
  else gr.warpIds.filterMap fun w =>
    (ex.find? fun x => x.1 == w && !gr.memo.who.contains x && !(m.mask (s.warp w) x.2).getLsbD x.2).map fun x =>
      ⟨w, .member, memberTad (m.mask (s.warp w) x.2) x.2, 0, false⟩

/-- Issue a meeting instruction, R105 to R107, R404: a group that arrives has what is pending at the word looked at again, and
parks where it takes part in a meeting. A group of a word of R105 without lanes that execute goes on at once. -/
def meetForm (o : Ops) (wd : Widths) (m : Meeting) (s : State) : Out :=
  issueMet o wd (fun g gr s =>
    s.raising g gr (s.ownBit (s.execThreads gr o.pr) gr m) fun gr s =>
      let s := if gr.memo.arrived then s
        else
          let s := gr.warpIds.foldl (fun s w => s.wakeMeetings w) s
          if m.quad then s.modGroup g fun gr => { gr with park := .meeting, memo := { gr.memo with arrived := true } }
          else s.arriveMeet g gr o.pr m
      if !m.quad && s.execThreads gr o.pr == [] then .next (s.retire g gr)
      else
        let s := s.modGroup g fun gr => { gr with park := .meeting }
        let s := gr.lanes.foldl (fun s x => s.tryMeet gr.block gr.pc o wd m x.1 x.2) s
        let needs := gr.lanes.flatMap fun x => s.meetNeeds gr.block gr.pc o.pr m x.1 x.2
        let s := if needs = [] then s
          else s.modGroup g fun gr => { gr with park := .operands, memo := { gr.memo with needs := needs } }
        .next ((s.resumeMet gr.block gr.pc o.pr m.quad).unfocus g)) s

/-- Bits of the effective mask. -/
def withEmask (f : Warp → List Nat → Nat → Lane → Lane) (W : Warp) (e : List Nat) (l : Nat) (L : Lane) : Lane :=
  { f W e l L with emask := laneMask e }

/-- The member mask operand. -/
def maskB (o : Ops) (W : Warp) (l : Nat) : Word := src32 W (W.lane l) o.b
def maskC (o : Ops) (W : Warp) (l : Nat) : Word := src32 W (W.lane l) o.c

/-! ## WV, R116 -/

def votePred (W : Warp) (sp : Fin 8) (sn : Bool) (j : Nat) : Bool := (W.lane j).getP sp != sn

def execWvVote (o : Ops) (sp : Fin 8) (sn : Bool) (mode : VoteMode) (s : State) : Out :=
  meetForm o { ps := [sp] } ⟨false, maskB o, withEmask fun W e _ L =>
    let x := votePred W sp sn
    L.putT o.d (match mode with
      | .all => e.all x
      | .any => e.any x
      | .uni => e.all x || e.all fun j => !x j), noCross⟩ s

def execWvBallot (o : Ops) (sp : Fin 8) (sn : Bool) (s : State) : Out :=
  meetForm o { ps := [sp] } ⟨false, maskB o, withEmask fun W e _ L => L.putD o.d (laneMask (e.filter (votePred W sp sn))), noCross⟩ s

def execWvMatch (o : Ops) (all : Bool) (s : State) : Out :=
  meetForm o {} ⟨false, maskB o, withEmask fun W e l L =>
    let v (j : Nat) : Word := src32 W (W.lane j) o.a
    let m := e.filter fun j => v j == v l
    L.putD o.d (if all then (if m = e then laneMask e else 0) else laneMask m), noCross⟩ s

def execWvElect (o : Ops) (s : State) : Out :=
  meetForm o {} ⟨false, maskB o, withEmask fun _ e l L => L.putT o.d (e.headD l == l), noCross⟩ s

/-! ## XL.SHFL, R117 -/

/-- The source lane of a shuffle; none outside the warp. -/
def shflLane (mode : ShflMode) (l : Nat) (b : Word) : Option Nat :=
  match mode with
  | .idx => some (b.toNat % 32)
  | .up => if b.toNat ≤ l then some (l - b.toNat) else none
  | .dn => if l + b.toNat ≤ 31 then some (l + b.toNat) else none
  | .bfly => some (l ^^^ b.toNat % 32)

def execXlShfl (o : Ops) (mode : ShflMode) (b64 : Bool) (s : State) : Out :=
  meetForm o ⟨wd b64, wd b64, 1, 1, false, []⟩ ⟨false, maskC o, withEmask fun W e l L =>
    let j := match shflLane mode l (src32 W (W.lane l) o.b) with
      | some j => if e.contains j then j else l
      | none => l
    L.putDW o.d b64 (srcW b64 W (W.lane j) o.a), noCross⟩ s

/-! ## Q, R118 -/

def quadMask (_ : Warp) (l : Nat) : Word := (0xF : Word) <<< (4 * (l / 4))

/-- A quad form: each executing lane reads A of the member that `from_` names; a helper lane that meets a register in error
gets 0 (R103). DEDUCED, log 71. -/
def quadForm (o : Ops) (from_ : Warp → Nat → Nat) (s : State) : Out :=
  let regs := srcV o.a 1
  meetForm o {} ⟨true, quadMask, fun W _ l L =>
    let j := from_ W l
    let bad := (W.badReg (W.lane j) regs []).isSome ||
      (W.badReg (W.lane l) (predReads o.pr ++ ({} : Widths).reads o) (({} : Widths).readsS o)).isSome
    L.putD o.d (if bad then 0 else src32 W (W.lane j) o.a),
    fun W l => regs.map fun r => (from_ W l, r)⟩ s

def execQSwap (o : Ops) (dir : SwapDir) (s : State) : Out :=
  quadForm o (fun _ l => l ^^^ (match dir with
    | .h => 1
    | .v => 2
    | .diag => 3)) s

def execQBcast (o : Ops) (s : State) : Out :=
  quadForm o (fun W l => 4 * (l / 4) + (src32 W (W.lane l) o.b).toNat % 4) s

/-! ## WR, R119 -/

def wrIdentity : WrOp → Word
  | .add | .maxu | .or | .xor => 0
  | .min => 0x7FFFFFFF
  | .max => 0x80000000
  | .minu | .and => 0xFFFFFFFF
  | .fadd => 0x80000000
  | .fmin => 0x7F800000
  | .fmax => 0xFF800000

def wrStep (op : WrOp) (x y : Word) : Word :=
  match op with
  | .add => x + y
  | .min => if y.slt x then y else x
  | .max => if x.slt y then y else x
  | .minu => if y.ult x then y else x
  | .maxu => if x.ult y then y else x
  | .and => x &&& y
  | .or => x ||| y
  | .xor => x ^^^ y
  | .fadd => fadd32 x y
  | .fmin => w32 (fminmax fp32 {} false (f32 false x) (f32 false y))
  | .fmax => w32 (fminmax fp32 {} true (f32 false x) (f32 false y))

/-- The accumulation over lanes, from the identity. -/
def wrFold (op : WrOp) (W : Warp) (a : Src) (ls : List Nat) : Word :=
  ls.foldl (fun acc j => wrStep op acc (src32 W (W.lane j) a)) (wrIdentity op)

def execWrRed (o : Ops) (op : WrOp) (s : State) : Out :=
  meetForm o {} ⟨false, maskB o, withEmask fun W e _ L => L.putD o.d (wrFold op W o.a e), noCross⟩ s

def execWrScan (o : Ops) (op : WrOp) (excl : Bool) (s : State) : Out :=
  meetForm o {} ⟨false, maskB o, withEmask fun W e l L =>
    L.putD o.d (wrFold op W o.a (e.filter fun j => decide (j < l) || (!excl && j == l))), noCross⟩ s

/-! ## Special registers, R111, R121 -/

def liveMask (W : Warp) : Word := laneMask ((W.lanes.filter fun e => e.2.life == .live).map (·.1))

/-- The value of a special register in a lane. -/
def State.sreg (s : State) (gr : Group) (W : Warp) (l : Nat) (L : Lane) (r : SReg) : DWord :=
  let B := s.block W.block
  let n (x : Nat) : DWord := BitVec.ofNat 64 x
  match r with
  | .lane => n l
  | .warp => n W.num
  | .tid => n (32 * W.num + l)
  | .block => n B.block
  | .bx => n B.bx
  | .by => n B.by_
  | .cluster => n B.cluster
  | .cblock => n B.cblock
  | .nthread => n B.nthread
  | .nblock => n B.nblock
  | .rank => n B.rank
  | .nrank => n B.nrank
  | .chip => n s.chip
  | .die => n (gr.core / 64)
  | .core => n gr.core
  | .subcore => n (4 * gr.core + gr.sub)
  | .live => (liveMask W).setWidth 64
  | .helper => n (if L.life == .helper then 1 else 0)
  | .emask => L.emask.setWidth 64
  | .depth => n L.depth
  | .held => L.heldBits.setWidth 64
  | .time => n (s.timeAt gr.core)
  | .clock => n s.clock
  | .gwct => n W.gwct
  | .rsp => L.rsp

def execSrRead (o : Ops) (r : SReg) (s : State) : Out :=
  let wds : Widths := ⟨wd r.wide, 1, 1, 1, false, []⟩
  issueLane s false o wds fun g gr s =>
    .next ((s.eachLane (s.execs gr o.pr) (ifGood o wds fun W l L => L.putDW o.d r.wide (s.sreg gr W l L r))).retire g gr)

/-! ## Barriers, R120 -/

/-- Arrivals at a phase: those beyond its count wait for the next one. -/
def Phase.room (p : Phase) (n : Nat) : Nat := if p.count = 0 then n else p.count - p.arrived.length

/-- Lanes arrive, in order, at a block's barrier: a phase that its count completes lets its lanes go, and the rest open the
next (R120). -/
def State.arriveBar (s : State) (b id : Nat) : List ((Nat × Nat) × Nat) → State
  | [] => s
  | (x, count) :: rest =>
    let p := ((s.block b).bars.get? id).getD { count := count }
    let p := { p with arrived := p.arrived ++ [x] }
    let s := s.modBlock b fun B => { B with bars := B.bars.set id p }
    if p.count != 0 && decide (p.count ≤ p.arrived.length) then
      let s := s.modBlock b fun B => { B with bars := B.bars.del id }
      (s.resumeFrom (.barrier id) b p.arrived (rest.map (·.1))).arriveBar b id rest
    else s.arriveBar b id rest

/-- B.BAR: the lanes arrive once their earlier work is where FN.FENCE.CORE would wait for it, and park. -/
def execBBar (o : Ops) (id : Fin 16) (s : State) : Out :=
  issueLane s false o {} fun g gr s =>
    let who := s.execThreads gr o.pr
    if who = [] then .next (s.retire g gr)
    else if !s.fencedCore who then .next (s.parkGroup g (.arrive false) { gr.memo with who := who })
    else
      let count (x : Nat × Nat) : Nat := let W := s.warp x.1; (src32 W (W.lane x.2) o.b).toNat
      let s := s.parkGroup g (.barrier id.val) { gr.memo with who := who, arrived := true }
      .next ((s.arriveBar gr.block id.val (who.map fun x => (x, count x))).checkBars gr.block)

/-- B.CBAR: as B.BAR over the cluster, with the waits of FN.FENCE.DIE. -/
def execBCbar (o : Ops) (id : Fin 4) (s : State) : Out :=
  issueLane s false o {} fun g gr s =>
    let who := s.execThreads gr o.pr
    if who = [] then .next (s.retire g gr)
    else
      let first := gr.park != .arrive true
      let s := if first then s.pushAll gr.core else s
      let pushes := if first then s.pushedBy gr.core else gr.memo.pushes
      if !s.fencedWide gr.core who pushes then
        .next (s.parkGroup g (.arrive true) { gr.memo with who := who, pushes := pushes })
      else
        let B := s.block gr.block
        let key := cbarKey B.launch B.cluster id.val
        let p := (s.cbars.get? key).getD { count := 0 }
        let s := s.parkGroup g (.cbarrier id.val) { gr.memo with who := who, arrived := true }
        .next ({ s with cbars := s.cbars.set key { p with arrived := p.arrived ++ who } }.checkCbars gr.block)

end Sys2Proof.Machine
end

