-- ==== Sys2Proof/Machine/HostLink.lean ====
section
/-! DEFINITION. The host link: the host's memory requests and snoops, bias flips, host registers (15_host_fabric R351 to
R359), and the wake that an access starts (17_management_power R387). -/

namespace Sys2Proof.Machine

/-! ## Requests of the host, R357 -/

/-- The page that the flip in progress is about. -/
def State.flipPage (s : State) : Option Nat := if s.flipOn then s.flips.head?.map fun v => v.toNat % 2 ^ 52 / 4096 else none

/-- Put a host request into its line's queue. -/
def State.serveHost (s : State) (n line : Nat) (half : Bool) : State :=
  let (id, s) := s.newId
  let m : Msg := { src := hostSrc, dst := homeOf line, line, body := .hostReq n half }
  { s with msgs := s.msgs.set id m }.enqueue id line

/-- Is a host request at a physical address held: while the module is in a low-power state, or its page flips (R359, R387)? -/
def State.holdsHost (s : State) (pa : Nat) : Bool := s.lowPower || s.flipPage == some (pa / 4096)

/-- A host request to device memory at a physical address: it wakes the module. -/
def State.hostRequest (s : State) (pa : Nat) (r : HostReq) : State :=
  let (n, s) := s.newId
  let s := { s with hostReqs := s.hostReqs.set n r }
  if s.holdsHost pa then { s with heldHost := s.heldHost ++ [n, pa] }.wakeUp
  else s.serveHost n (pa / 128) (pa / 64 % 2 == 1)

/-- Serve held host requests that nothing holds any more, in arrival order. -/
def State.releaseHost (s : State) (held : List Nat) : State :=
  match held with
  | n :: pa :: rest =>
    let s : State :=
      if s.holdsHost pa then { s with heldHost := s.heldHost ++ [n, pa] }
      else s.serveHost n (pa / 128) (pa / 64 % 2 == 1)
    s.releaseHost rest
  | _ => s

def State.serveHeld (s : State) : State := { s with heldHost := [] }.releaseHost s.heldHost

/-- The physical address of a device-memory offset of this chip. -/
def State.ownOffset (s : State) (off : Nat) : Nat := s.chip * 2 ^ 45 + off

/-- A CXL.mem request at an HDM address: to a 64-byte half line of device memory (R352), once CXL.mem is advertised (R351,
R389). -/
def memRequest (addr : Nat) (r : HostReq) (s : State) : Out :=
  let off := addr - s.hdm
  if s.mgmt.stage = .ready ∧ s.hdm ≤ addr ∧ off < Config.memBytes ∧ off % 64 = 0 then
    .next (s.hostRequest (s.ownOffset off) r)
  else .refused .notEnabled

def execMemrd (md : MemMeta) (addr : Nat) (s : State) : Out := memRequest addr (.rd md false) s
def execMemrddata (addr : Nat) (s : State) : Out := memRequest addr (.rd .i true) s
def execMeminv (addr : Nat) (s : State) : Out := memRequest addr .inv s
def execMemwr (addr : Nat) (data : List Byte) (s : State) : Out := memRequest addr (.wr (BitVec.allOnes 64) data) s
def execMemwrptl (addr : Nat) (mask : BitVec 64) (data : List Byte) (s : State) : Out := memRequest addr (.wr mask data) s

/-- A snoop of a host-memory line, R352. It wakes nothing (R387). -/
def snoop (pa : Nat) (inval : Bool) (s : State) : Out :=
  match placeOf pa with
  | .host _ =>
    let (n, s) := s.newId
    .next ({ s with hostReqs := s.hostReqs.set n (.snoop inval) }.serveHost n (pa / 128) false)
  | .dev _ _ | .reg _ | .hostReg _ | .nothing => .refused .notEnabled

def execSnpinv (pa : Nat) (s : State) : Out := snoop pa true s
def execSnpdata (pa : Nat) (s : State) : Out := snoop pa false s
def execSnpcur (pa : Nat) (s : State) : Out := snoop pa false s

/-! ## Bias flips, R356, R358, R359 -/

/-- May the host hold a copy of a line, R203? -/
def HLine.atHost (h : HLine) : Bool := h.hs || (h.st != 0 && h.who == 64)

/-- The host request that a message is. -/
def Msg.hostReq? (m : Msg) : Option (Nat × Bool) :=
  match m.body with
  | .hostReq n half => some (n, half)
  | _ => none

/-- Is a line of a page still serving a host request that came before the page's flip? -/
def State.hostServing (s : State) (line : Nat) : Bool :=
  ((s.hline line).busy.bind fun b => (s.msgs.get? b.msg).bind Msg.hostReq?).isSome

/-- Host requests that wait at the lines of a page when its flip starts are held with those that come later, oldest first
(R359). -/
def State.holdQueued (s : State) (page : Nat) : State :=
  (s.msgs.filter fun e => e.2.line / 32 == page && (s.hline e.2.line).queue.contains e.1).foldl (fun s e =>
    match e.2.hostReq? with
    | some (n, half) =>
      let h := s.hline e.2.line
      { s.setHline e.2.line { h with queue := h.queue.filter (· != e.1) } with
        msgs := s.msgs.del e.1, heldHost := s.heldHost ++ [n, 128 * e.2.line + 64 * half.toNat] }
    | none => s) s

/-- The next line of its page at which a flip to device bias has something to do or to wait for, ascending. -/
def State.flipLine (s : State) (page : Nat) : Option Nat :=
  ((List.range 32).drop s.flipAt).find? fun i => (s.hline (32 * page + i)).atHost || s.hostServing (32 * page + i)

/-- Must a flip wait at a line: for another answer of the host, or for a host request in service there? -/
def State.flipWaits (s : State) (line : Nat) : Bool := (s.biWait.get? line).isSome || s.hostServing line

/-- A flip to device bias goes on to the next line of its page that the host has, ascending: it sends BISnpInv there, or
waits; past the last line it is done (R359). -/
def State.flipNext (s : State) : State :=
  match s.flips, s.flipSent with
  | v :: _, false =>
    if !s.flipOn || v.getLsbD 0 then s
    else
      let page := v.toNat % 2 ^ 52 / 4096
      match s.flipLine page with
      | none => { s with flipAt := 32 }
      | some i =>
        let line := 32 * page + i
        if s.flipWaits line then { s with flipAt := i }
        else { s with
          flipAt := i, flipSent := true, biWait := s.biWait.set line true, out := s.out ++ [.biSnp line true] }
  | _, _ => s

/-- BISNP_RESPONSE (R357, R359): the host has given up a line, with any MemWr that its response carries. -/
def execBisnpResponse (line : Nat) (wr : Option (List Byte)) (s : State) : Out :=
  match s.biWait.get? line with
  | none => .refused .notEnabled
  | some _ =>
    let s : State := match wr with
      | some data => { s with mem := memPutBytes s.mem (128 * line) (data.take 128) }
      | none => s
    let s := { s with biWait := s.biWait.del line }
    let h := s.hline line
    let mine := s.flipSent && s.flipPage == some (line / 32) && s.flipAt == line % 32
    let h := if mine then
        { h with hs := false, st := if h.who = 64 then 0 else h.st, who := if h.who = 64 then 0 else h.who }
      else h
    let s := if mine then { s with flipAt := s.flipAt + 1, flipSent := false } else s
    let s : State := match h.busy with
      | some b => (s.setHline line { h with busy := some { b with host := false } }).serve line
      | none => s.setHline line h
    .next s.flipNext

/-- The host answers a CXL.cache request at a line of its memory, R352. -/
def State.hostAnswers (s : State) (line : Nat) : State :=
  let h := s.hline line
  match h.busy with
  | some b =>
    if isHostLine line && b.host then (s.setHline line { h with busy := some { b with host := false } }).serve line else s
  | none => s

/-- A write of BFLIP. -/
def State.writeBflip (s : State) (v : DWord) : State :=
  let page := v.toNat % 2 ^ 52 / 4096
  let s := { s with bflip := v &&& 0x000FFFFFFFFFF001 }
  if 16 ≤ s.flips.length || !s.ownPa (4096 * page) then { s with flipErr := true }.mark .bstat 0x20
  else { s with flips := s.flips ++ [v &&& 0x000FFFFFFFFFF001] }

def execBflip (v : DWord) (s : State) : Out := .next (s.writeBflip v)

/-- BSTAT. -/
def State.bstat (s : State) : Nat := s.flips.length + 32 * s.flipErr.toNat + 2 ^ 32 * (s.flipDone % 2 ^ 32)

/-- The address of a page's bias byte. -/
def State.biasByte (s : State) (page : Nat) : Nat := s.btb.toNat / 4096 * 4096 + page % 2 ^ 33 / 8

/-- FLIP_START (R359): the next flip begins, and host requests to its page are held from here on. To host bias every line of
the page is recalled and folded; to device bias the host is asked to give up each line that it has. A flip that has waited at
a line goes on. -/
def execFlipStart (s : State) : Out :=
  match s.flipOn, s.flips with
  | false, v :: _ =>
    let page := v.toNat % 2 ^ 52 / 4096
    let host := v.getLsbD 0
    let s := s.holdQueued page
    if s.hostBias (4096 * page) = host then .next { s with flipOn := true, flipAt := 32, flipSent := false }
    else if host then
      let s := { s with flipOn := true, flipAt := 32, flipSent := false }
      .next ((List.range 32).foldl (fun s i =>
        let line := 32 * page + i
        if s.hline line = {} then s
        else
          let (id, s) := s.newId
          let m : Msg := { src := hostSrc, dst := homeOf line, line, body := .clear true }
          { s with msgs := s.msgs.set id m }.enqueue id line) s)
    else .next { s with flipOn := true, flipAt := 0, flipSent := false }.flipNext
  | true, v :: _ =>
    let page := v.toNat % 2 ^ 52 / 4096
    let held := match s.flipLine page with
      | some i => s.flipWaits (32 * page + i)
      | none => false
    when (!s.flipSent && decide (s.flipAt < 32) && !v.getLsbD 0 && !held) s.flipNext
  | _, [] => .refused .notEnabled

/-- Is a line of a page still being recalled, or is one still to be taken back from the host? -/
def State.flipBusy (s : State) (page : Nat) : Bool :=
  decide (s.flipAt < 32) || s.msgs.any fun e => e.2.line / 32 == page && e.2.src == hostSrc && (match e.2.body with
    | .clear _ => true
    | _ => false)

/-- FLIP_COMPLETE (R359): the bias bit is set, DONE counts, and the held requests are served. -/
def execFlipComplete (s : State) : Out :=
  needing (fun s => match s.flipOn, s.flips with
  | true, v :: rest =>
    let page := v.toNat % 2 ^ 52 / 4096
    if s.flipBusy page then .refused .notEnabled
    else
      let a := s.biasByte page
      let (s, b) := s.devRead a 1
      let s := s.devWrite a 1 (putBit (BitVec.ofNat 8 b) (page % 8) (v.getLsbD 0)).toNat
      let s := { s with flips := rest, flipOn := false, flipDone := s.flipDone + 1 }.msix 0 0
      .next s.serveHeld
  | _, _ => .refused .notEnabled) s

/-! ## Host registers, R354 -/

/-- A host register access fails. -/
def State.hostFail (s : State) : State :=
  { s with hrErr := true, hrFails := min (s.hrFails + 1) (2 ^ 32 - 1) }.mark .hrstat 1

/-- HOST_REG_COMPLETION: the host answers a register read, with as many bytes as it was asked for, or a write. -/
def execHostRegCompletion (req : Nat) (ok : Bool) (data : DWord) (s : State) : Out :=
  match s.regReqs.get? req with
  | none => .refused .notEnabled
  | some r =>
    let s := { s with regReqs := s.regReqs.del req }
    let s := if ok then s else s.hostFail
    match s.ops.get? r.op with
    | none => .next s
    | some op =>
      let value := BitVec.ofNat 64 (data.toNat % 256 ^ op.len)
      if r.load then .next (if ok then s.opDone r.op op value else s.opBad r.op op) else .next (s.opDone r.op op 0)

/-- HOST_REG_TIMEOUT: a host register read gets no completion. -/
def execHostRegTimeout (req : Nat) (s : State) : Out :=
  match s.regReqs.get? req with
  | none => .refused .notEnabled
  | some r =>
    if r.load then
      let s := { s with regReqs := s.regReqs.del req }.hostFail
      match s.ops.get? r.op with
      | some op => .next (s.opBad r.op op)
      | none => .next s
    else .refused .notEnabled

/-- HRSTAT. -/
def State.hrstat (s : State) : Nat := s.hrErr.toNat + 2 ^ 32 * s.hrFails

end Sys2Proof.Machine
end

