-- ==== Sys2Proof/Machine/Fabric.lean ====
section
/-! DEFINITION. Rill links, the messages they deliver, and global time (15_host_fabric R360 to R365; 17_management_power
R388). -/

namespace Sys2Proof.Machine

/-! ## Messages from other chips, R361 -/

/-- The right that an answer leaves this chip's proxy with, by what it asked for (R202, R212). -/
def rightAfter (r : Option ChipReq) (old : ChipRight) : ChipRight :=
  match r with
  | some .own | some .ownAll => .own
  | some .track | some (.write _ _ .track _) => .tracked
  | some (.write _ _ .none _) | some (.write _ _ (.lease _) _) | some (.writeBack _ _) => .none
  | some .thru | some (.lease _) | some .colour | some (.recolour _ _) | none => old

/-- The answer to a request of this chip's proxy, R202: data and rights are there, and the line is served. An owner keeps
its own data. -/
def State.proxyAnswer (s : State) (id line : Nat) (a : ChipAns) : State :=
  let h := s.hline line
  match h.busy with
  | some b =>
    if b.msg ≠ id ∨ !b.remote then s
    else
      let owns := b.sent == some .own || b.sent == some .ownAll
      let s : State := if a.data = [] ∨ h.chip = .own then s
        else { s with mem := memPutBytes s.mem (128 * line) (a.data.take 128) }
      let h := { h with
        chip := rightAfter b.sent h.chip, colour := a.colour, lease := if a.lease = 0 then h.lease else a.lease,
        lx := if owns then max h.lx a.gwct else h.lx, busy := some { b with remote := false, ans := a } }
      (s.setHline line h).serve line
  | none => s

/-- A request that waits for its remote home ends with poison, once the package's holders have answered (R363). -/
def State.proxyPoison (s : State) (id line : Nat) : State :=
  let h := s.hline line
  match h.busy with
  | some b =>
    if b.msg ≠ id ∨ !b.remote then s
    else (s.setHline line { h with busy := some { b with remote := false, dead := true } }).serve line
  | none => s

/-- Does a chip own a line, R203? -/
def HLine.ownedBy (h : HLine) (chip : Nat) : Bool := decide (2 ≤ h.st) && h.who == chip

/-- A holder on another chip has answered a recall or an invalidation, R212; only an owner's data counts. -/
def State.chipAcked (s : State) (line chip : Nat) (data : List Byte) : State :=
  let h := s.hline line
  match h.busy with
  | some b =>
    if b.chips.contains chip then
      let s : State := if data = [] ∨ !h.ownedBy chip then s
        else { s with mem := memPutBytes s.mem (128 * line) (data.take 128) }
      (s.setHline line { h with busy := some { b with chips := b.chips.filter (· != chip) } }).serve line
    else s
  | none => s

/-- A holder on another chip cannot answer: the data of an owner is lost, and the line is poisoned (R363). -/
def State.chipDead (s : State) (line chip : Nat) : State :=
  let h := s.hline line
  let waits := (h.busy.map fun b => b.chips.contains chip).getD false
  let s := if waits && h.ownedBy chip then s.setHline line { h with poison := true } else s
  s.chipAcked line chip []

/-- A message for a home or proxy of this chip. -/
def State.fromChip (s : State) (chip line : Nat) (body : Body) : State :=
  let (id, s) := s.newId
  let m : Msg := { src := chipSrc chip, dst := homeOf line, line, body }
  { s with msgs := s.msgs.set id m }

/-- A lane's join change has been answered, or, with no answer, is lost (R313, R363). -/
def State.joinAnswered (s : State) (id : Nat) (old : Option DWord) : State :=
  match s.joins.get? id with
  | some r =>
    let s := { s with joins := s.joins.del id }
    let s := match old with
      | some x => s.modLane r.warp r.lane (·.putRes r.dst 1 x)
      | none => s
    let s := s.workDone r.work
    if (s.lane r.warp r.lane).life = .exited then s.releaseQuarters r.warp else s
  | none => s

/-- A shootdown of another chip over DOMAIN is made here, R329. -/
def State.shootFor (s : State) (chip id ctx lo n : Nat) (all : Bool) : State :=
  let (k, s) := s.beginShootdown ctx 0 lo n all false
  { s with shoots := s.shoots.modify k fun d => { d with origin := some (chip, id) } }

/-- A chip has answered a shootdown of this one, or can no longer be reached. -/
def State.shotAt (s : State) (id chip : Nat) : State :=
  { s with shoots := s.shoots.modify id fun d => { d with chips := d.chips.filter (· != chip) } }

/-- A message arrives. One for another chip is forwarded, and is not served here (R362). Launches and joins, for which the
device may have to read memory, are acted on in their turn. -/
def deliver (s : State) (p : Packet) : State :=
  if p.dst ≠ s.chip then s.route p
  else
    match p.msg with
    | .req id line r =>
      if (s.remoteChip line).isSome then s.fabric p.src (.poison id line)
      else s.fromChip p.src line (.chipReq p.src id r)
    | .rsp id line a => s.proxyAnswer id line a
    | .recall line downgrade => s.fromChip p.src line (.recall downgrade false)
    | .inval line => s.fromChip p.src line .inval
    | .ack line data => s.chipAcked line p.src data
    | .mon ctx colour r => s.monAsked p.src ctx colour r
    | .monAns ctx colour a => s.monAnswered p.src ctx colour a
    | .record _ _ _ | .accept _ _ | .refuse _ _ _ _ | .start _ _ | .join _ _ _ _ => { s with inbox := s.inbox ++ [p] }
    | .joined id old => s.joinAnswered id (some old)
    | .tlbi id ctx lo n all => s.shootFor p.src id ctx lo n all
    | .tlbiDone id => s.shotAt id p.src
    | .poison id line =>
      if (s.joins.get? id).isSome then s.joinAnswered id none
      else if (s.remoteChip line).isSome then s.proxyPoison id line
      else s.chipDead line p.src
    | .time _ => s                           -- what the exchange measures is TIME_MESSAGE (log 56)

/-- The device acts on the oldest message that waits for it; what it reads or writes for that, it reaches as every event of
its own does. -/
def execInbox (s : State) : Out :=
  match s.inbox with
  | [] => .refused .notEnabled
  | p :: rest =>
    needing (fun s =>
      let s := { s with inbox := rest }
      match p.msg with
      | .record ctx gen image => .next (s.launchRecord p.src ctx gen image)
      | .accept ctx gen => execAccept p.src ctx gen s
      | .refuse disp ctx gen cause => .next (s.refuseLaunch p.src disp ctx gen cause)
      | .start ctx gen => execStart p.src ctx gen s
      | .join id ctx pa n =>
        let (s, old) := s.joinHere ctx pa n
        .next (if id = 0 then s else s.fabric p.src (.joined id (BitVec.ofNat 64 old)))
      | .req _ _ _ | .rsp _ _ _ | .recall _ _ | .inval _ | .ack _ _ | .mon _ _ _ | .monAns _ _ _ | .joined _ _
      | .tlbi _ _ _ _ _ | .tlbiDone _ | .poison _ _ | .time _ => .next (deliver s p)) s

/-! ## Links, R360, R361, R363 -/

/-- Messages that waited for a credit are sent, each class in its order (R361). -/
def Link.pump (l : Link) : Link := l.wait.foldl Link.send { l with wait := [] }

/-- What an ACK field says takes effect: flits leave the replay buffer, credits come back, and the flits not yet
acknowledged are sent again where one of them failed (R360). -/
def Link.acked (l : Link) (ack : BitVec 16) : Link :=
  let n := Config.ackFlits ack
  let give (c : AMap Nat) (k : FabClass) : AMap Nat :=
    c.putD (classNo k) (c.getD (classNo k) 0 - Config.ackCredits ack k) 0
  let l := { l with
    replay := l.replay.drop n, resent := if n = 0 then l.resent else 0,
    credits := [FabClass.req, .rsp, .ctl, .time].foldl give l.credits }
  let l := if Config.ackAgain ack then
      { l with out := l.out ++ l.replay, resent := l.resent + 1, replays := min (l.replays + l.replay.length) (2 ^ 32 - 1) }
    else l
  l.pump

/-- A whole message has arrived: its slot of the receiver is free again. -/
def Link.received (l : Link) (p : Packet) : Link :=
  let c := classNo p.msg.cls
  { l with rxCredits := l.rxCredits.putD c (l.rxCredits.getD c 0 + 1) 0 }

/-- One slot of a flit is taken, with the messages that are complete so far (R360). -/
def Link.slot (r : Link × List Packet) (x : FlitSlot) : Link × List Packet :=
  match x, r.1.rx with
  | .empty, _ | .data _, none => r
  | .head p n, _ => if n = 0 then (r.1.received p, r.2 ++ [p]) else ({ r.1 with rx := some (p, n, []) }, r.2)
  | .data d, some (p, n, bytes) =>
    let bytes := bytes ++ d
    if 1 < n then ({ r.1 with rx := some (p, n - 1, bytes) }, r.2)
    else
      let p := { p with msg := fabFill bytes p.msg }
      ({ r.1 with rx := none }.received p, r.2 ++ [p])

/-- Has a flit of a link failed eight replays, at the one end or at the other (R363)? -/
def Link.failed (l : Link) : Bool := decide (8 < l.fails) || decide (8 < l.resent)

/-- A link changes with the replays that it counts: the bits that rise are set in this cycle (R7). -/
def State.linkStep (s : State) (k : Nat) (l : Link) : State :=
  (s.setLink k l).mark (.lstat k) (risen (s.link k).replays l.replays 16)

/-- FLIT (R360): the flit that is next in order is acted on by its ACK field, and its messages are delivered; one that is not
was delivered before, or is sent again after the one that is missing. A flit whose CRC is wrong is asked for again, with all
that follow it, where it is the one expected or nothing has been asked for. DESIGN CHOICE, log 55. -/
def execFlit (link : Nat) (head : Word × BitVec 16) (crc : BitVec 64) (slots : List FlitSlot) (s : State) : Out :=
  let l := s.link link
  let f : Flit := ⟨head.1, head.2, slots, crc⟩
  if !l.up || l.failed || s.mgmt.pstate == 3 then .refused .notEnabled
  else if Config.crc64 (flitBytes f.seq f.ack f.slots) ≠ f.crc then
    .next (if f.seq.toNat = l.rxSeq ∨ l.fails = 0 then s.setLink link ({ l with fails := l.fails + 1 }.emit [] true) else s)
  else
    if f.seq.toNat ≠ l.rxSeq then .next s
    else
      let l := l.acked f.ack
      let l := { l with rxSeq := (l.rxSeq + 1) % 2 ^ 32, fails := 0, rxAcks := l.rxAcks + 1 }
      let (l, ps) := f.slots.foldl Link.slot (l, [])
      let s := s.linkStep link l
      let s : State :=
        if s.mgmt.pstate = 2 ∧ ps ≠ [] then { s.wakeUp with heldMsgs := s.heldMsgs ++ ps } else ps.foldl deliver s
      -- what has been received is acknowledged, by an idle flit where nothing else is to be sent
      let l := s.link link
      .next (if ps ≠ [] ∧ l.rxAcks ≠ 0 then s.setLink link (l.emit [] false) else s)

/-- Lanes of this chip that wait for a monitor's record on a chip that can no longer be reached, with the colour. -/
def State.lostMons (s : State) (lost : Nat → Bool) : List (Nat × Nat × Nat) :=
  s.groups.flatMap fun e =>
    let ctx := (s.block e.2.block).ctx
    let away (c : Nat) : Bool := s.monHome ctx c != s.chip && lost (s.monHome ctx c)
    (e.2.memo.asks.filter fun x => away x.2.2) ++ (match e.2.park with
      | .monitor c | .condition c => if away c then e.2.lanes.map fun x => (x.1, x.2, c) else []
      | _ => [])

/-- Everything that only a lost link could still bring ends with poison, R363. -/
def State.loseRoutes (s : State) (lost : Nat → Bool) : State :=
  let s := s.lines.foldl (fun s e =>
    match s.remoteChip e.1, e.2.busy with
    | some c, some b => if lost c then s.proxyPoison b.msg e.1 else s
    | none, some b => (b.chips.filter lost).foldl (fun s c => s.chipDead e.1 c) s
    | _, none => s) s
  let s := s.joins.foldl (fun s e => if lost e.2.chip then s.joinAnswered e.1 none else s) s
  let s := (s.lostMons lost).foldl (fun s x => s.monLost x.2.2 x.1 x.2.1) s
  { s with
    shoots := s.shoots.map fun e => (e.1, { e.2 with chips := e.2.chips.filter fun c => !lost c }),
    launches := s.launches.filter fun e => e.2.started || e.2.src == s.chip || !lost e.2.src }

/-- Launches that await an answer from a chip that can no longer be reached are abandoned with RECFAULT. -/
def State.abandon (s : State) (lost : Nat → Bool) : State :=
  s.launches.foldl (fun s e =>
    match e.2.answers.find? lost with
    | some c =>
      if !e.2.started && e.2.src == s.chip then
        { s with inbox := s.inbox ++ [⟨c, s.chip, .refuse s.chip e.2.ctx e.2.gen 3⟩] }
      else s
    | none => s) s

/-- The messages in flight on a link: those of flits that have not been acknowledged. -/
def Link.flying (l : Link) : List Packet :=
  l.replay.flatMap fun f => f.slots.filterMap fun x => match x with
    | .head p _ => some p
    | .empty | .data _ => none

/-- LINK_DOWN (R363): a link that has failed eight replays of one flit goes down. What was in flight on it is lost; what
still waited takes another route where there is one. DESIGN CHOICE, log 55. -/
def execLinkDown (link : Nat) (s : State) : Out :=
  let l := s.link link
  if l.up && l.failed then
    let s := s.setLink link { l with
      up := false, fails := 0, resent := 0, replay := [], wait := [], held := [], rx := none, credits := [], rxCredits := [],
      rxAcks := 0 }
    let s := s.report { kind := 7, unit := link }
    let s := l.flying.foldl State.lose s
    let s := (l.wait ++ l.held).foldl State.route s
    let lost (c : Nat) : Bool := s.upLinks c == []
    .next ((s.loseRoutes lost).abandon lost)
  else .refused .notEnabled

/-- May training make a link a route to the chip at its end? While no context runs; and once the module is ready, only where no
list has been written for that chip (R362). PRESUMED, log 23. -/
def State.mayRoute (s : State) (peer : Nat) : Bool :=
  s.parts.all (fun e => !e.2.run) && (s.mgmt.stage != .ready || (s.routes.get? peer).isNone)

/-- LINK_TRAINED (R363, R388): a link is up; what was held for the chip at its end is sent in order. A chip in A3 trains none. -/
def execLinkTrained (link peer : Nat) (s : State) : Out :=
  if link < Config.nLink ∧ peer < 64 ∧ s.mgmt.pstate ≠ 3 then
    let l := s.link link
    let fresh : Link :=
      if l.up then { l with peer, asleep := false, wake := false, out := l.out ++ l.replay }
      else { l with
        up := true, peer, fails := 0, resent := 0, rxSeq := 0, txSeq := 0, rx := none, rxAcks := 0, rxCredits := [],
        replay := [], credits := [], asleep := false, wake := false }
    let s := s.setLink link ((l.wait ++ l.held).foldl Link.send { fresh with wait := [], held := [] })
    let ks := s.routes.getD peer []
    .next (if s.mayRoute peer && !ks.contains link then { s with routes := s.routes.set peer (ks ++ [link]) } else s)
  else .refused .notEnabled

/-- The management processor writes the links that lead to a chip, while no context runs on this one (R362). -/
def State.writeRoute (s : State) (chip : Nat) (links : List Nat) : State :=
  if s.parts.any (fun e => e.2.run) then s
  else { s with routes := s.routes.set chip (links.filter fun k => decide (k < Config.nLink)) }

/-- RILL_WAKE (R388): a wake on a link. A chip that sleeps in A3 leaves it; a chip with messages held for a sleeping peer
raises it. -/
def execRillWake (link : Nat) (s : State) : Out :=
  let l := s.link link
  if s.mgmt.pstate = 3 then .next s.wakeUp
  else when (l.asleep && l.held != []) (s.setLink link { l with wake := true })

/-- LSTATk. -/
def Link.stat (l : Link) : Nat := l.up.toNat + 2 ^ 8 * (l.peer % 64) + 2 ^ 16 * l.replays

/-! ## Global time, R364, R365 -/

/-- An exchange has measured an offset from the master. -/
def State.measured (s : State) (offs : Int) : State :=
  let y := s.sync
  let near := decide (-2 ≤ offs ∧ offs ≤ 2)
  let within := if near then y.within + 1 else 0
  let lock := near && (y.lock || decide (64 ≤ within))
  let losses := if y.lock && !lock then min (y.losses + 1) (2 ^ 32 - 1) else y.losses
  { s with sync := { y with offs := max (-127) (min 127 offs), within := min within 64, lock, losses, last := s.time } }.mark
    .tstat (risen y.losses losses 16)

/-- TIME_EXCHANGE (R364): every 1,000 ns each link sends a TIME message. The master is at offset 0 from itself;
in A3 no message flows (R386). DESIGN CHOICE, log 56. -/
def execTimeExchange (s : State) : Out :=
  if s.sync.sent < s.time / 1000 then
    let s := { s with sync := { s.sync with sent := s.time / 1000 } }
    let send (e : Nat × Link) : Nat × Link :=
      if e.2.up && !e.2.asleep && s.mgmt.pstate != 3 then (e.1, e.2.send ⟨s.chip, e.2.peer, .time s.sync.offs⟩) else e
    let s : State := { s with links := s.links.map send }
    .next (if s.sync.master ∧ s.mgmt.pstate ≠ 3 then s.measured 0 else s)
  else .refused .notEnabled

/-- The rate by which a chip corrects its time: at most 500 parts per million either way; the spec gives no more (R364).
DESIGN CHOICE, log 7. -/
def State.newRate (s : State) : State :=
  let (x, s) := s.drawFree
  { s with sync := { s.sync with rate := (x.toNat % 1001 : Nat) - 500 } }

/-- TIME_MESSAGE (R364, R365): a TIME message arrives over a link; one from the master's side measures the offset. -/
def execTimeMessage (link : Nat) (offs : Int) (fromMaster : Bool) (s : State) : Out :=
  if !(s.link link).up || s.mgmt.pstate == 3 then .refused .notEnabled
  else if fromMaster && !s.sync.master then .next (s.measured offs).newRate
  else .next s

/-- LOCK_TIMEOUT (R365): no TIME message from the master's side for 100 microseconds; a master in A3 has none either (R386). -/
def execLockTimeout (s : State) : Out :=
  let y := s.sync
  if y.lock ∧ y.last + 100000 ≤ s.time then
    let n := min (y.losses + 1) (2 ^ 32 - 1)
    .next ({ s with sync := { y with lock := false, within := 0, losses := n } }.mark .tstat (risen y.losses n 16))
  else .refused .notEnabled

/-- TSTAT. -/
def State.tstat (s : State) : Nat :=
  s.sync.lock.toNat + 2 * s.sync.master.toNat + 2 ^ 8 * (s.sync.offs % 256).toNat + 2 ^ 16 * s.sync.losses

end Sys2Proof.Machine
end

