-- ==== Sys2Proof/Machine/Matrix.lean ====
section
/-! DEFINITION. Matrix passes, the compressor, accumulator tiles and the Sluice (08_matrix_accumulators R173 to R199). -/

namespace Sys2Proof.Machine

/-! ## Formats and fragments -/

/-- K of a format's width class, R178. -/
def fmtK : Fmt → Nat
  | .f16 | .bf16 => 16
  | .e4m3 | .e5m2 | .e3m2 | .e2m3 | .i8 => 32
  | .e2m1 | .i4 => 64

/-- Elements in a register, R178. -/
def fmtE : Fmt → Nat
  | .f16 | .bf16 => 2
  | .e4m3 | .e5m2 | .e3m2 | .e2m3 | .i8 => 4
  | .e2m1 | .i4 => 8

def fmtInt : Fmt → Bool
  | .i8 | .i4 => true
  | .f16 | .bf16 | .e4m3 | .e5m2 | .e3m2 | .e2m3 | .e2m1 => false

/-- The format word, R184. -/
structure FmtWord where
  a : Fmt
  b : Fmt
  sca : Bool
  scb : Bool
  nga : Bool
  ngb : Bool
  sat : Bool
  za : Bool
  fz : Bool
  deriving DecidableEq, Repr

/-- A format word that keeps to R185 for a form. -/
def fmtWord (sparse : Bool) (x : Word) : Option FmtWord := do
  let a ← Fmt.codes[x.toNat % 16]?
  let b ← Fmt.codes[x.toNat / 16 % 16]?
  let w : FmtWord := ⟨a, b, x.getLsbD 8, x.getLsbD 9, x.getLsbD 10, x.getLsbD 11, x.getLsbD 12, x.getLsbD 13, x.getLsbD 14⟩
  if fmtK a = fmtK b ∧ fmtInt a = fmtInt b ∧ !((w.sca || w.scb) && fmtK a == 16) ∧ x.getLsbD 15 = sparse ∧
      x.toNat / 2 ^ 16 = 0 then some w
  else none

/-- The first register of an operand. -/
def vBase : Src → Nat
  | .v n => n.val
  | .s _ | .k _ | .lit _ | .none => 0

/-- Index t of group g in a lane's metadata, R188. -/
def metaIdx (md : DWord) (g t : Nat) : Nat := md.toNat / 2 ^ (12 * g + 3 * t) % 8

/-- The metadata of a lane. -/
def metaOf (L : Lane) (reg : Nat) : DWord := L.getV (reg + 3) ++ L.getV (reg + 2)

/-- Bits of the element at dense position p of a lane's A or B registers, R179. -/
def denseBits (f : Fmt) (L : Lane) (reg p : Nat) : Nat := elemBits f (L.getV (reg + p / fmtE f)) (p % fmtE f)

/-- Bits of the element at dense position p of a lane's compressed A, R188: the kept value, or 0. -/
def sparseBits (f : Fmt) (L : Lane) (reg p : Nat) : Nat :=
  let md := metaOf L reg
  match (List.range 4).find? fun t => metaIdx md (p / 8) t == p % 8 with
  | some t => denseBits f L reg (4 * (p / 8) + t)
  | none => 0

/-! ## A pass, R186 -/

/-- What a pass works on. -/
structure Pass where
  W : Warp
  ex : List Nat                             -- the executing set
  o : Ops
  f : FmtWord
  sparse : Bool

/-- Byte of a lane's scale word that holds the scale of run u, R180: the lane's half, and the byte within it. -/
def scaleAt (f : Fmt) (u : Nat) : Nat × Nat := (16 * u / (fmtK f / 2), 16 * u % (fmtK f / 2) / 16)

/-- xa(r, k). -/
def Pass.xa (x : Pass) (r k : Nat) : FVal :=
  let half := fmtK x.f.a / 2
  let l := 2 * r + k / half
  if x.ex.contains l then
    let L := x.W.lane l
    let bits := if x.sparse then sparseBits x.f.a L (vBase x.o.a) (k % half) else denseBits x.f.a L (vBase x.o.a) (k % half)
    let v := elemVal x.f.a x.f.fz false bits
    let v := if x.f.sca then v.scale (ue8 (BitVec.ofNat 8 ((srcQ x.W L x.o.c 1).toNat / 2 ^ (8 * (scaleAt x.f.a (k / 16)).2))))
      else v
    v.neg x.f.nga
  else .fin false 0 0

/-- xb(k, n). -/
def Pass.xb (x : Pass) (k n : Nat) : FVal :=
  let half := fmtK x.f.b / 2
  let L := x.W.lane (n + 16 * (k / half))
  let v := elemVal x.f.b x.f.fz false (denseBits x.f.b L (vBase x.o.b) (k % half))
  let v := if x.f.scb then
      v.scale (ue8 (BitVec.ofNat 8 ((srcQ x.W L x.o.c 1).toNat / 2 ^ (16 + 8 * (scaleAt x.f.b (k / 16)).2))))
    else v
  v.neg x.f.ngb

/-- The exact sum of run u; integers have no -0 (R77). -/
def Pass.runSum (x : Pass) (r n u : Nat) : FVal :=
  let term (k : Nat) : FVal :=
    let p := (x.xa r (16 * u + k)).mul (x.xb (16 * u + k) n)
    if fmtInt x.f.a then p.plusZero else p
  ((List.range 15).map (· + 1)).foldl (fun s k => FVal.add .rn s (term k)) (term 0)

/-- The new value of element (r, n). -/
def Pass.elem (x : Pass) (r n : Nat) (old : Word) : Word :=
  let c : RCtl := { fz := x.f.fz, sat := x.f.sat }
  let start : FVal := if x.f.za then .fin false 0 0 else f32 x.f.fz old
  let go (acc : FVal × Option Word) (u : Nat) : FVal × Option Word :=
    let t := fp32.dec (fp32.put c (x.runSum r n u))
    let y := fp32.put c (FVal.add .rn acc.1 t)
    (fp32.dec y, some (w32 y))
  (((List.range (fmtK x.f.a / 16)).foldl go (start, none)).2).getD 0

/-- The rows that a pass writes, R181. -/
def Pass.rows (x : Pass) : List Nat := (List.range 16).filter fun r => x.ex.contains (2 * r) || x.ex.contains (2 * r + 1)

/-- The warp after the pass. -/
def Pass.apply (x : Pass) (tile : Nat) : Warp :=
  x.rows.foldl (fun W r => (List.range 16).foldl (fun W n =>
    W.putTile tile (16 * r + n) (x.elem r n (x.W.tileAt tile (16 * r + n)))) W) x.W

/-! ## The Sluice, R192 to R194 -/

/-- Bring a core's Sluice to a window. -/
def Core.roll (c : Core) (now : Nat) : Core :=
  if c.window = now then c
  else
    { c with window := now, charge := 0, prev := if c.window + 1 = now then c.charge else 0,
             budgetNow := c.budget, rampNow := c.ramp }

def State.windowNow (s : State) : Nat := s.clock / Config.sluiceWindow

/-- TCAPd of a core's die, R385. -/
def State.tcapOf (s : State) (core : Nat) : Nat := s.mgmt.tcap.getD (core / 64) 1024

/-- The limit of the current window, under a thermal cap (R385). DEDUCED, log 57. -/
def Core.limit (c : Core) (cap : Nat) : Nat :=
  let b := min (if c.budgetNow = 0 then Config.sluiceMax else min c.budgetNow Config.sluiceMax) cap
  if c.rampNow = 0 then b else min b (c.prev + c.rampNow)

/-- May an execution of this charge start? -/
def Core.sluiceOpen (c : Core) (cap n : Nat) : Bool :=
  decide (c.charge + n ≤ c.limit cap) || (decide (c.limit cap < n) && c.charge == 0)

/-- SLUICE_WINDOW (R192): a new window begins at a core; delayed executions try again. -/
def execSluiceWindow (core : Nat) (s : State) : Out :=
  if core < Config.nCore ∧ (s.core core).window < s.windowNow then
    let s := s.modCore core (·.roll s.windowNow)
    .next { s with groups := s.groups.map fun e =>
      if e.2.core = core ∧ e.2.park = .sluice then (e.1, { e.2 with park := .run }) else e }
  else .refused .notEnabled

/-! ## Tile accesses -/

/-- Is a remote transfer into or out of a tile of the group's warps outstanding? Tile instructions wait for it (R176).
An M.MMA that waits for its meeting is no earlier tile instruction to them: it acts on its tile when the meeting completes,
and the tile forms of the warp's other groups that issue before that act before it. DESIGN CHOICE, log 85. -/
def State.accPending (s : State) (gr : Group) : Bool :=
  s.remotes.any fun e => e.2.acc.isSome && gr.warpIds.contains e.2.warp

/-- ACCRANGE at issue, R173, in warps with an executing thread lane. -/
def State.accRange (s : State) (gr : Group) (p : Pred) (tile : Nat) : List Raise :=
  ((s.execThreads gr p).map (·.1)).dedup.filterMap fun w =>
    if (s.warp w).tileNeed ≤ tile then some ⟨w, .accrange, BitVec.ofNat 64 tile, 0, false⟩ else none

/-- REGECC in a tile element that an instruction reads, R177. -/
def Warp.tileEcc (W : Warp) (tile : Nat) (els : List Nat) : Option DWord :=
  (els.find? fun e => W.tileBad.contains (256 * tile + e)).map fun e => BitVec.ofNat 64 (0x100 + tile + 2 ^ 16 * e)

def rowEls (rows : List Nat) : List Nat := rows.flatMap fun r => (List.range 16).map (16 * r + ·)

/-- Quarters of a warp without a live thread lane, R182, as bits. -/
def Warp.goneBits (W : Warp) : Nat :=
  ((List.range 4).map fun j =>
    if (List.range 8).all fun i => (W.lane (8 * j + i)).life != .live then 2 ^ j else 0).sum

/-! ## M.MMA, M.SMMA -/

/-- The thread lanes of a warp that reached a meeting word and execute there, ascending. -/
def State.mmaSet (s : State) (block : Nat) (a : DWord) (p : Pred) (w : Nat) : List Nat :=
  sortNat ((s.meetingGroups block a).flatMap fun e => ((s.execThreads e.2 p).filter (·.1 == w)).map (·.2))

/-- Has every live lane of a warp reached the word, without having met there yet? -/
def State.mmaReady (s : State) (block : Nat) (a : DWord) (w : Nat) : Bool :=
  let gs := s.meetingGroups block a
  ((s.warp w).lanes.filter fun e => e.2.life == .live).all fun e =>
    gs.any fun g => g.2.lanes.contains (w, e.1) && !g.2.memo.who.contains (w, e.1)

/-- The warp is done at the word: its lanes are counted in their groups. -/
def State.mmaDone (s : State) (block : Nat) (a : DWord) (w : Nat) : State :=
  { s with groups := s.groups.map fun e =>
      if e.2.block == block && e.2.atMeeting a then
        (e.1, { e.2 with memo := { e.2.memo with who := e.2.memo.who ++ e.2.lanes.filter (·.1 == w) } })
      else e }

/-- A trap in the groups that hold lanes of the executing set; the others are done, and go on at the next word, so that a
replay of the word does not find them there. DESIGN CHOICE, log 83. -/
def State.mmaTrap (s : State) (block : Nat) (a : DWord) (w : Nat) (ex : List Nat) (c : Cause) (tad : DWord) : State :=
  ((s.meetingGroups block a).foldl (fun s e =>
    if e.2.lanes.any fun x => x.1 == w && ex.contains x.2 then (s.raise e.1 e.2 [⟨w, c, tad, 0, false⟩]).1 else s)
    s).mmaDone block a w

/-- The Sluice delays a warp's execution: its groups wait for the next window. DEDUCED, log 39. -/
def State.mmaDelay (s : State) (core block : Nat) (a : DWord) (w quarters : Nat) : State :=
  let gs := (s.meetingGroups block a).filter fun e => e.2.lanes.any (·.1 == w)
  let counted := gs.any fun e => e.2.memo.delayed.contains w
  let s := if counted then s
    else ((s.modCore core fun c => { c with stalled := min (c.stalled + quarters) 0xFFFFFFFF, limited := true }).mark
        (.sls core) 0x1000000000000).count core 0 0x07
      quarters (s.block block).ctx
  gs.foldl (fun s e => s.modGroup e.1 fun gr =>
    { gr with park := .sluice, memo := { gr.memo with delayed := w :: gr.memo.delayed.filter (· != w) } }) s

/-- The lowest lane and group of the executing set whose metadata does not ascend, R188. -/
def spMeta (W : Warp) (ex : List Nat) (reg k : Nat) : Option DWord :=
  ex.findSome? fun l =>
    let md := metaOf (W.lane l) reg
    ((List.range (k / 16)).find? fun g =>
      !(decide (metaIdx md g 0 < metaIdx md g 1) && decide (metaIdx md g 1 < metaIdx md g 2) &&
        decide (metaIdx md g 2 < metaIdx md g 3))).map fun g =>
      BitVec.ofNat 64 (l + 2 ^ 8 * g + 2 ^ 16 * (md.toNat / 2 ^ (12 * g) % 2 ^ 12))

/-- The registers of B and its scales, which are read from all lanes (R181). -/
def mmaRegs (o : Ops) (scb : Bool) : List Nat := srcV o.b 4 ++ (if scb then (srcV o.c 2).drop 1 else [])

/-- REGECC in B or its scales, R125. -/
def Warp.mmaEcc (W : Warp) (o : Ops) (f : FmtWord) : Option DWord :=
  (List.range 32).findSome? fun l =>
    (W.badReg (W.lane l) (mmaRegs o f.scb) []).map fun r => BitVec.ofNat 64 (r + 256 * l)

/-- The widths of M.MMA and M.SMMA. -/
def mmaWidths : Widths := ⟨1, 4, 4, 2, false, []⟩

/-- REGECC in what the executing set reads of its own at the meeting, R125. -/
def State.mmaOwnEcc (s : State) (o : Ops) (w : Nat) (ex : List Nat) : Option DWord :=
  ex.findSome? fun l =>
    (s.badRead o.pr (mmaWidths.readsV o) (mmaWidths.readsS o) (w, l)).map fun r => BitVec.ofNat 64 (r + 256 * l)

/-- Registers of a warp's lanes that an execution reads and whose results are still due (R40, R181): all that the executing
set names, and B and its scales of every lane. -/
def State.mmaNeeds (s : State) (block : Nat) (a : DWord) (o : Ops) (sparse : Bool) (w : Nat) : List (Nat × Nat × Nat) :=
  if !s.mmaReady block a w then []
  else
    let W := s.warp w
    let ex := s.mmaSet block a o.pr w
    let due (l : Nat) (regs : List Nat) : List (Nat × Nat × Nat) :=
      (regs.filter (s.pendingV w l).contains).map fun r => (w, l, r)
    let own := ex.flatMap fun l => due l (mmaWidths.readsV o)
    if ex = [] ∨ W.goneBits ≠ 0 then []
    else if own ≠ [] then own
    else
      let scb := ((fmtWord sparse (srcQ W (W.lane (ex.headD 0)) o.c 0)).map fun f => f.scb).getD false
      (List.range 32).flatMap fun l => due l (mmaRegs o scb)

/-- The checks once every live lane has arrived, in the order of R195, and the pass (R181 to R190). -/
def State.tryMma (s : State) (core block : Nat) (a : DWord) (o : Ops) (tile : Nat) (sparse : Bool) (w : Nat) : State :=
  if !s.mmaReady block a w then s
  else
    let W := s.warp w
    let ex := s.mmaSet block a o.pr w
    if ex = [] then s.mmaDone block a w
    else if W.goneBits ≠ 0 then s.mmaTrap block a w ex .bgone (BitVec.ofNat 64 W.goneBits)
    else if s.mmaNeeds block a o sparse w ≠ [] then s
    else
      let report (s : State) (tad : DWord) : State :=
        s.report { kind := 3, ctx := (s.block block).ctx, unit := core, info := tad.toNat }
      match s.mmaOwnEcc o w ex with
      | some tad => (report s tad).mmaTrap block a w ex .regecc tad
      | none =>
      let quarters := ((List.range 4).filter fun j => ex.any fun l => l / 8 == j).length
      let redun := (s.block block).redun || (s.core core).mxcRed
      let units := quarters * (if sparse then 1 else 2) * (if redun then 2 else 1)
      let s := s.modCore core (·.roll s.windowNow)
      if !(s.core core).sluiceOpen (s.tcapOf core) units then s.mmaDelay core block a w quarters
      else
        let s := (s.modCore core fun c => { c with charge := c.charge + units }).count core 0 0x06 units (s.block block).ctx
        let word (l : Nat) : Word := srcQ W (W.lane l) o.c 0
        let first := word (ex.headD 0)
        let fmtTad (l : Nat) : DWord := (word l).setWidth 64 <<< 32 ||| BitVec.ofNat 64 l
        match ex.find? fun l => word l != first with
        | some l => s.mmaTrap block a w ex .fmtdiv (fmtTad l)
        | none =>
          match fmtWord sparse first with
          | none => s.mmaTrap block a w ex .fmtdiv (fmtTad (ex.headD 0))
          | some f =>
            match (if sparse then spMeta W ex (vBase o.a) (fmtK f.a) else none) with
            | some tad => s.mmaTrap block a w ex .spmeta tad
            | none =>
              let x : Pass := ⟨W, ex, o, f, sparse⟩
              match (W.mmaEcc o f).or (if f.za then none else W.tileEcc tile (rowEls x.rows)) with
              | some tad => (report s tad).mmaTrap block a w ex .regecc tad
              | none =>
                match (if redun then (s.core core).arrayFault else none) with
                | some (run, row, col) =>
                  let s := s.modCore core fun c => { c with arrayFault := none }
                  if x.rows.contains row ∧ run < fmtK f.a / 16 ∧ col < 16 then
                    s.mmaTrap block a w ex .redun (BitVec.ofNat 64 (tile + 2 ^ 8 * run + 2 ^ 16 * row + 2 ^ 20 * col))
                  else (s.setWarp w (x.apply tile)).mmaDone block a w
                | none => (s.setWarp w (x.apply tile)).mmaDone block a w

/-- Groups all of whose thread lanes are done go on; helper lanes take no part in the wait (R103). -/
def State.resumeMma (s : State) (block : Nat) (a : DWord) : State :=
  (s.meetingGroups block a).foldl (fun s e =>
    if (e.2.lanes.filter s.isLive).all e.2.memo.who.contains then s.retire e.1 e.2 else s) s

def mmaForm (o : Ops) (tile : Nat) (sparse : Bool) (s : State) : Out :=
  issueMet o mmaWidths (fun g gr s =>
    if gr.lanes.all fun x => !s.isLive x then .next (s.retire g gr)
    else if s.accPending gr then .next (s.parkGroup g .gather gr.memo)
    else
      let range := s.accRange gr o.pr tile
      let gone := ((s.execThreads gr o.pr).map (·.1)).dedup.filterMap fun w =>
        let b := (s.warp w).goneBits
        if b ≠ 0 ∧ !range.any (·.warp == w) then some (⟨w, .bgone, BitVec.ofNat 64 b, 0, false⟩ : Raise) else none
      s.raising g gr (if gr.memo.arrived then [] else range ++ gone) fun gr s =>
        let s := s.modGroup g fun gr => { gr with park := .meeting, memo := { gr.memo with arrived := true } }
        let s := gr.warpIds.foldl (fun s w => s.tryMma gr.core gr.block gr.pc o tile sparse w) s
        let needs := gr.warpIds.flatMap fun w => s.mmaNeeds gr.block gr.pc o sparse w
        let s := s.modGroup g fun gr =>
          if needs ≠ [] ∧ gr.park = .meeting then { gr with park := .operands, memo := { gr.memo with needs := needs } } else gr
        .next ((s.resumeMma gr.block gr.pc).unfocus g)) s

def execMMma (o : Ops) (tile : Fin 64) (s : State) : Out := mmaForm o tile.val false s
def execMSmma (o : Ops) (tile : Fin 64) (s : State) : Out := mmaForm o tile.val true s

/-! ## M.SPC, R189, R196 -/

/-- |x| below |y|, with NaN above every number. -/
def magBelow (x y : FVal) : Bool :=
  match x.isNan, y.isNan with
  | true, _ => false
  | false, true => true
  | false, false => (x.neg x.isNeg).lt (y.neg y.isNeg)

/-- The four indices that a group keeps, ascending. -/
def keepFour (v : List FVal) : List Nat :=
  (List.range v.length).filter fun i =>
    let x := v.getD i .nan
    decide (((List.range v.length).filter fun j =>
      let y := v.getD j .nan
      j != i && (magBelow x y || (!magBelow y x && decide (j < i)))).length < 4)

/-- A lane's compressed registers and metadata. -/
def compress (f : Fmt) (L : Lane) (reg : Nat) : Word × Word × DWord :=
  (List.range (fmtK f / 16)).foldl (fun r g =>
    let keep := keepFour ((List.range 8).map fun i => elemVal f false false (denseBits f L reg (8 * g + i)))
    ((List.range 4).zip keep).foldl (fun r e =>
      let k := 4 * g + e.1
      let b := denseBits f L reg (8 * g + e.2)
      let md := r.2.2 ||| BitVec.ofNat 64 (e.2 * 2 ^ (12 * g + 3 * e.1))
      if k / fmtE f = 0 then (elemPut f r.1 (k % fmtE f) b, r.2.1, md) else (r.1, elemPut f r.2.1 (k % fmtE f) b, md)) r)
    ((0 : Word), (0 : Word), (0 : DWord))

def execMSpc (o : Ops) (fmt : Fmt) (s : State) : Out :=
  lanewise s o ⟨4, 4, 1, 1, false, []⟩ fun _ _ L =>
    let r := compress fmt L (vBase o.a)
    match o.d with
    | .v n => ((L.setV n.val r.1).setV (n.val + 1) r.2.1).setV64 (n.val + 2) r.2.2
    | .s _ | .p _ | .none => L

/-! ## M.ZERO, M.SCL, R197 -/

/-- Quarters of a warp with an executing thread lane, and the lowest such lane of each. -/
def State.quarterLeads (s : State) (gr : Group) (p : Pred) (w : Nat) : List (Nat × Nat) :=
  let ex := ((s.execThreads gr p).filter (·.1 == w)).map (·.2)
  (List.range 4).filterMap fun j => (ex.find? fun l => l / 8 == j).map fun l => (j, l)

def rowsOf (j : Nat) : List Nat := (List.range 4).map (4 * j + ·)

/-- Record and raise REGECC in tiles. -/
def State.raisingTile (s : State) (g : Nat) (gr : Group) (els : Nat → List Nat) (tile : Nat) (k : Group → State → Out) : Out :=
  let rs := gr.warpIds.filterMap fun w => ((s.warp w).tileEcc tile (els w)).map fun t => (⟨w, .regecc, t, 0, false⟩ : Raise)
  (s.reportRegs rs).raising g gr rs k

/-- v registers of lanes that a word reads, whose results are still due (R40). -/
def State.laneNeeds (s : State) (gr : Group) (wd : Widths) (o : Ops) (lanes : Nat → List Nat) : List (Nat × Nat × Nat) :=
  gr.warpIds.flatMap fun w => (lanes w).flatMap fun l =>
    ((wd.readsV o).filter (s.pendingV w l).contains).map fun r => (w, l, r)

/-- A form that acts on a tile, once its range is checked and transfers under way are done. `lanes` are those of a warp whose
operands it reads, where they are not all that execute. -/
def tileForm (o : Ops) (wd : Widths) (tile : Nat) (k : Nat → Group → State → Out) (s : State)
    (lanes : Option (State → Group → Nat → List Nat) := none) : Out :=
  let of_ (s : State) (gr : Group) (w : Nat) : List Nat := match lanes with
    | some f => f s gr w
    | none => []
  issueLane s false o wd (fun g gr s =>
    let needs := s.laneNeeds gr wd o (of_ s gr)
    if needs ≠ [] then .next (s.parkGroup g .operands { gr.memo with needs := needs })
    else
      let rs := s.someEcc gr wd o (of_ s gr)
      (s.reportRegs rs).raising g gr rs fun gr s =>
        if s.accPending gr then .next (s.parkGroup g .gather gr.memo)
        else s.raising g gr (s.accRange gr o.pr tile) fun gr s => k g gr s) (chk := if lanes.isSome then noReads else wd)

def execMZero (o : Ops) (tile : Fin 64) (s : State) : Out :=
  tileForm o {} tile.val (fun g gr s =>
    .next ((gr.warpIds.foldl (fun s w =>
      let els := rowEls ((s.quarterLeads gr o.pr w).flatMap fun q => rowsOf q.1)
      s.modWarp w fun W => els.foldl (fun W e => W.putTile tile.val e 0) W) s).retire g gr)) s

/-- The lanes whose factors M.SCL reads: lanes 2r under ROW, whether they execute or not (R197). -/
def State.sclLanes (s : State) (o : Ops) (row : Bool) (gr : Group) (w : Nat) : List Nat :=
  (s.quarterLeads gr o.pr w).flatMap fun q => if row then (rowsOf q.1).map (2 * ·) else [q.2]

def execMScl (o : Ops) (tile : Fin 64) (m : SclMod) (s : State) : Out :=
  tileForm o {} tile.val (fun g gr s =>
    let leads (w : Nat) := s.quarterLeads gr o.pr w
    s.raisingTile g gr (fun w => rowEls ((leads w).flatMap fun q => rowsOf q.1)) tile.val fun gr s =>
      let c : RCtl := { rm := m.rm, fz := m.fz, sat := m.sat }
      .next ((gr.warpIds.foldl (fun s w =>
        let W := s.warp w
        s.setWarp w ((leads w).foldl (fun V q => (rowsOf q.1).foldl (fun V r =>
          let f := src32 W (W.lane (if m.row then 2 * r else q.2)) o.a
          (rowEls [r]).foldl (fun V e =>
            V.putTile tile.val e (w32 (fp32.put c ((f32 m.fz (W.tileAt tile.val e)).mul (f32 m.fz f))))) V) V) W)) s).retire g gr))
    s (lanes := some fun s gr w => s.sclLanes o m.row gr w)

/-! ## ACC.LD, ACC.ST, R198 -/

/-- The check of one quarter's rows: the first failing one is the warp's trap. -/
def State.accCheck (s : State) (gr : Group) (x : Word) (w j : Nat) (store : Bool) : Option (Cause × DWord) :=
  match s.lsTarget gr.block x.toNat with
  | none => some (.lsrange, x.setWidth 64)
  | some t =>
    let B := s.block t
    let off := lsOff x + 64 * w * j
    if lsOff x % 64 ≠ 0 then some (.align, x.setWidth 64)
    else if B.lsSize < off + 64 * w then some (.lsrange, x.setWidth 64)
    else if store && B.inChurn off (64 * w) then some (.churn, x.setWidth 64)
    else none

/-- A transfer between a quarter's rows and a local store, in units of 8 bytes; `val` gives a unit's bytes for a store. -/
def State.accMove (s : State) (gr : Group) (w l work tile j : Nat) (f : AccFmt) (x : Word) (store : Bool)
    (val : Nat → Nat) : State :=
  let n := AccFmt.bytes f
  match s.lsTarget gr.block x.toNat with
  | none => s
  | some t =>
    (List.range (8 * n)).foldl (fun s i =>
      let off := lsOff x + 64 * n * j + 8 * i
      let k := 256 * tile + 64 * j + i * (8 / n)
      if (s.block t).core = gr.core then
        if store then s.modBlock t (·.lsWrite off 8 (val i))
        else s.modWarp w (·.putUnit k f ((s.block t).lsRead off 8))
      else
        let (id, s) := s.newId
        let r : RemoteLs :=
          { work, warp := w, lane := l, block := t, addr := off, len := 8, act := if store then .st else .ld false,
            val := BitVec.ofNat 64 (val i), cmp := 0, dst := none, dstLen := 0, acc := some (k, f) }
        { s with remotes := s.remotes.set id r }) s

/-- A tile element in its local-store form. DEDUCED, log 38. -/
def accNarrow (f : AccFmt) (c : RCtl) (x : Word) : Nat :=
  match f with
  | .f32 => fp32.conv c (fp32.dec x.toNat)
  | .f16 => fp16.conv c (fp32.dec x.toNat)
  | .bf16 => bf16.conv c (fp32.dec x.toNat)

/-- ACC.LD and ACC.ST. Under SR the seed is that of the lane whose address the quarter uses. DEDUCED, log 73. -/
def accForm (o : Ops) (wd : Widths) (tile : Nat) (f : AccFmt) (fs store : Bool) (rm : RM) (s : State) : Out :=
  tileForm o wd tile (fun g gr s =>
    let n := AccFmt.bytes f
    let leads (s : State) (gr : Group) (w : Nat) : List (Nat × Nat) := s.quarterLeads gr o.pr w
    let ad (s : State) (w l : Nat) : Word := let W := s.warp w; lsAddr W (W.lane l) o
    -- where the rows of the quarter that a lane leads begin
    let rows (s : State) (x : Nat × Nat) : Word := ad s x.1 x.2 + BitVec.ofNat 32 (64 * n * (x.2 / 8))
    let raises := gr.warpIds.filterMap fun w =>
      ((leads s gr w).findSome? fun q => s.accCheck gr (ad s w q.2) n q.1 store).map fun c => (⟨w, c.1, c.2, 0, false⟩ : Raise)
    s.raising g gr raises fun gr s =>
      let who := gr.warpIds.flatMap fun w => (leads s gr w).map fun q => (w, q.2)
      s.lsClear g gr who (rows s) (64 * n) (!store) fun gr s =>
        s.raisingTile g gr (fun w => if store then rowEls ((leads s gr w).flatMap fun q => rowsOf q.1) else [])
            tile fun gr s =>
          let xs (w : Nat) : List Word := (leads s gr w).map fun q => ad s w q.2
          let far (x : Word) : Bool := match s.lsTarget gr.block x.toNat with
            | some t => (s.block t).core != gr.core
            | none => false
          if Group.flagFull s gr fs (gr.warpIds.filter fun w => (xs w).any far) then
            .next (s.parkGroup g (.flag ((gr.flag fs).getD 0)) gr.memo)
          else
            let s := gr.warpIds.foldl (fun s w =>
              let W := s.warp w
              let (work, s) := s.attach gr w fs (8 * n * ((xs w).filter far).length)
              (leads s gr w).foldl (fun s q =>
                let seed := src32 W (W.lane q.2) o.c
                let val (i : Nat) : Nat := ((List.range (8 / n)).map fun k =>
                  let e := 64 * q.1 + i * (8 / n) + k
                  accNarrow f { rm, h := srHash seed e } (W.tileAt tile e) * 256 ^ (n * k)).sum
                s.accMove gr w q.2 work tile q.1 f (ad s w q.2) store val) s) s
            .next (s.retire g gr)) s (lanes := some fun s gr w => (s.quarterLeads gr o.pr w).map (·.2))

def execAccLd (o : Ops) (tile : Fin 64) (f : AccFmt) (fs : Bool) (s : State) : Out :=
  accForm o {} tile.val f fs false .rn s

def execAccSt (o : Ops) (tile : Fin 64) (f : AccFmt) (rm : RM) (fs : Bool) (s : State) : Out :=
  accForm o {} tile.val f fs true rm s

/-! ## ACC.RD, ACC.WR, R199 -/

/-- The traps of an index. -/
def idxTrap (x4 : Bool) (i : Word) : Option Cause :=
  if i.toNat / 256 ≠ 0 then some .accrange else if x4 && i.toNat % 4 != 0 then some .align else none

/-- Elements that a lane names. -/
def idxEls (x4 : Bool) (i : Word) : List Nat := (List.range (if x4 then 4 else 1)).map (i.toNat + ·)

/-- The traps of the group's indices; the elements read are checked for ECC. -/
def idxForm (o : Ops) (wd : Widths) (tile : Nat) (x4 reads : Bool) (k : Nat → Group → State → Out) (s : State) : Out :=
  tileForm o wd tile (fun g gr s =>
    let idx (x : Nat × Nat) : Word := let W := s.warp x.1; src32 W (W.lane x.2) o.a
    let raises := gr.warpIds.filterMap fun w =>
      ((s.execThreads gr o.pr).filter (·.1 == w)).findSome? fun x =>
        (idxTrap x4 (idx x)).map fun c => (⟨w, c, (idx x).setWidth 64, 0, false⟩ : Raise)
    s.raising g gr raises fun gr s =>
      let els (w : Nat) : List Nat :=
        if reads then ((s.execThreads gr o.pr).filter (·.1 == w)).flatMap fun x => idxEls x4 (idx x) else []
      s.raisingTile g gr els tile fun gr s => k g gr s) s

def execAccRd (o : Ops) (tile : Fin 64) (x4 : Bool) (s : State) : Out :=
  let wd : Widths := ⟨if x4 then 4 else 1, 1, 1, 1, false, []⟩
  idxForm o wd tile.val x4 true (fun g gr s =>
    .next ((s.eachLane (s.execs gr o.pr) (ifGood o wd fun W _ L =>
      let i := src32 W L o.a
      let ok := (idxTrap x4 i).isNone && decide (tile.val < W.tileNeed) && (W.tileEcc tile.val (idxEls x4 i)).isNone
      match o.d with
      | .v n => ((List.range (if x4 then 4 else 1)).zip (idxEls x4 i)).foldl (fun L e =>
          L.setV (n.val + e.1) (if ok then W.tileAt tile.val e.2 else 0)) L
      | .s _ | .p _ | .none => L)).retire g gr)) s

def execAccWr (o : Ops) (tile : Fin 64) (x4 add : Bool) (s : State) : Out :=
  idxForm o ⟨1, 1, if x4 then 4 else 1, 1, false, []⟩ tile.val x4 add (fun g gr s =>
    .next (((s.execThreads gr o.pr).foldl (fun s x =>
      s.modWarp x.1 fun W =>
        let L := W.lane x.2
        ((List.range (if x4 then 4 else 1)).zip (idxEls x4 (src32 W L o.a))).foldl (fun W e =>
          let v := if x4 then srcQ W L o.b e.1 else src32 W L o.b
          W.putTile tile.val e.2 (if add then fadd32 (W.tileAt tile.val e.2) v else v)) W) s).retire g gr)) s

end Sys2Proof.Machine
end

