-- ==== Sys2Proof/Machine/Stops.lean ====
section
/-! DEFINITION. Event counters, stall accounting, debug stops and dumps, and the passing of a cycle
(16_counters_errors R366 to R375; 01_device R14). -/

namespace Sys2Proof.Machine

/-! ## What an instruction names, and the interlock of R40 -/

/-- v registers that an encoded field names, from its number. -/
def fieldRegs (f : BitVec 8) (width : Nat) : List Nat := if f.toNat < 192 then span f.toNat width else []

/-- How many registers each field of an instruction names (R25, and the entries); one, where no form below says
otherwise. -/
def instrWidths : Instr → Widths
  | .iAdd _ m | .iSub _ m | .iAddc _ m | .iSubb _ m | .iNeg _ m | .iAbs _ m | .iMin _ m | .iMax _ m =>
    { d := wd m.w64, a := wd m.w64, b := wd m.w64 }
  | .imMul _ part _ => { d := wd (part == .wide) }
  | .imMadw _ _ => { d := 2, c := 2 }
  | .logAnd _ w | .logOr _ w | .logXor _ w | .logAndn _ w | .logNot _ w | .mvSel _ _ _ w =>
    { d := wd w, a := wd w, b := wd w }
  | .shShl _ w | .shShr _ w _ | .shRot _ w | .mvMov _ w | .xlShfl _ _ w => { d := wd w, a := wd w }
  | .cmpI _ _ w _ => { a := wd w, b := wd w }
  | .cmpD _ _ _ _ => { a := 2, b := 2 }
  | .mvLea _ _ _ => { d := 2, a := 2 }
  | .cvI2f _ _ src dst => { d := wd dst.wide, a := wd src.wide }
  | .cvF2i _ _ src dst => { d := wd dst.wide, a := wd src.wide }
  | .cvF2f _ _ src dst => { d := wd dst.wide, a := wd src.wide }
  | .cvI2i _ _ src dst => { d := wd dst.wide, a := wd src.wide }
  | .dAdd _ _ | .dMul _ _ | .dFma _ _ | .dMin _ _ | .dMax _ _ => { d := 2, a := 2, b := 2, c := 2 }
  | .dotI8x4 _ m | .dotI4x8 _ m | .dotE4m3x4 _ m | .dotE5m2x4 _ m | .dotE2m1x8 _ m => { dRead := m.sc }
  | .pkCvt _ _ => { dRead := true }
  | .pkPl6 _ _ | .trMfs _ _ => { d := 2 }
  | .srRead _ r => { d := wd r.wide }
  | .xlRdl _ w => { a := wd w }
  | .brInd _ | .clCalli _ | .fnInv _ _ _ | .fnWb _ _ | .fnPre _ _ _ | .cGet _ | .wSpawn _ _ | .wLaunch _ _ | .wJoin _ _
  | .trMts _ _ | .trTlbi _ _ _ | .hDel _ _ | .stB8 _ _ | .stB16 _ _ | .stB32 _ _ | .ldU8 _ _ | .ldS8 _ _ | .ldU16 _ _
  | .ldS16 _ _ | .ldB32 _ _ => { a := 2 }
  | .ldB64 _ _ => { d := 2, a := 2 }
  | .ldB128 _ _ => { d := 4, a := 2 }
  | .stB64 _ _ => { a := 2, c := 2 }
  | .stB128 _ _ => { a := 2, c := 4 }
  | .atAdd _ m | .atMin _ m | .atMax _ m | .atAnd _ m | .atOr _ m | .atXor _ m | .atXchg _ m | .atFadd _ m =>
    { d := wd m.w64, a := 2, c := wd m.w64 }
  | .atCas _ m => { d := wd m.w64, a := 2, c := 2 * wd m.w64 }
  | .rdAdd _ m | .rdMin _ m | .rdMax _ m | .rdAnd _ m | .rdOr _ m | .rdXor _ m | .rdFadd _ m => { a := 2, c := wd m.w64 }
  | .lsLd _ w _ => { d := regsOf (LdW.bytes w) }
  | .lsSt _ w _ => { c := regsOf (StW.bytes w) }
  | .lsAt _ op w _ => { d := wd w, c := if op = .cas then 2 * wd w else wd w }
  | .hIns _ vs _ | .hAcc _ vs _ _ _ => { a := 2, b := vsWidth vs }
  | .hPrb _ _ => { d := 4, a := 2 }
  | .hDrn _ _ _ => { d := 4 }
  | .mMma _ _ | .mSmma _ _ => { a := 4, b := 4, c := 2 }
  | .mSpc _ _ => { d := 4, a := 4 }
  | .accRd _ _ x4 => { d := if x4 then 4 else 1 }
  | .accWr _ _ x4 _ => { b := if x4 then 4 else 1 }
  | .cpTile _ _ | .cpStore _ _ => { a := 2, c := 4 }
  | .cpLin _ _ => { a := 2, b := 2 }
  | .cpGath _ _ => { a := 2, c := 2 }
  | .wDead _ => { b := 2 }
  | _ => {}

/-- The operand fields of an instruction; one of the branch layout has none (R30). -/
def operandRaw (i : Instr) : Option LaneRaw :=
  match i with
  | .brRel _ _ | .clCall _ _ => none
  | _ => i.laneRaw

/-- v registers that an instruction reads. -/
def readRegs (i : Instr) : List Nat :=
  match operandRaw i with
  | some r =>
    let w := instrWidths i
    fieldRegs r.a w.a ++ fieldRegs r.b w.b ++ fieldRegs r.c w.c ++ (if w.dRead then fieldRegs r.d w.d else [])
  | none => []

/-- v registers that an instruction names. -/
def instrRegs (i : Instr) : List Nat :=
  match operandRaw i with
  | some r => readRegs i ++ fieldRegs r.d (instrWidths i).d
  | none => []

/-- The predicate of an instruction. -/
def instrPred (i : Instr) : Pred :=
  match i.laneRaw with
  | some r => r.pred
  | none => ⟨7, false⟩

/-- Does a group wait for a register result, R40: one of a register that the word names, of a lane that executes it? What a
word reads of other lanes it waits for at its meeting, or by itself (`Memo.needs`). DESIGN CHOICE, log 18. -/
def State.interlocked (s : State) (gr : Group) (i : Instr) : Bool :=
  let rs := instrRegs i
  rs != [] && (s.execs gr (instrPred i)).any fun x => (s.pendingV x.1 x.2).any rs.contains

/-- Does a group that moves wait at its word for a register result? -/
def State.waits (s : State) (gr : Group) : Bool :=
  match decode gr.rest with
  | .ok i _ => s.interlocked gr i
  | .header | .truncated | .notLast | .illegal => false

/-- GATHER_SPLIT (R296): at a word that reads the results of an earlier load, lanes whose results have arrived go on, as
a group of their own; the others stay and wait. -/
def execGatherSplit (g : Nat) (s : State) : Out :=
  match s.groups.get? g with
  | none => .refused .notEnabled
  | some gr =>
    match decode gr.rest with
    | .ok i _ =>
      let ex := s.execs gr (instrPred i)
      let due (x : Nat × Nat) : Bool := (s.pendingV x.1 x.2).any (instrRegs i).contains
      let load (x : Nat × Nat) : Bool := s.ops.any fun e => e.2.warp == x.1 && e.2.lane == x.2 && (match e.2.act with
        | .ld _ => ((List.range e.2.dstLen).map (e.2.dst.getD 192 + ·)).any (readRegs i).contains
        | .st | .at_ _ _ | .rd _ _ | .pre | .refill _ _ | .engine _ _ => false)
      let late := ex.filter due
      if gr.park = .run && gr.memo == {} && late != [] && late.all load && ex.any fun x => !due x then
        let gr := { gr with split := if gr.split = 0 then s.ids + 1 else gr.split }
        let (_, s) := s.splitOff g gr (gr.lanes.filter fun x => !late.contains x) .run {}
        .next (s.modGroup g fun x => { x with split := gr.split })
      else .refused .notEnabled
    | .header | .truncated | .notLast | .illegal => .refused .notEnabled

/-! ## The scoreboard dump, R375 -/

/-- State of a lane in a dump. -/
def State.dumpState (s : State) (W : Warp) (L : Lane) : Nat :=
  match L.life with
  | .absent => 6
  | .exited => 5
  | .live | .helper =>
    match L.entry with
    | .group g =>
      match s.groups.get? g with
      | some gr => if gr.park = .halt then 3 else if L.handler then 4 else if gr.park = .run then 0 else 2
      | none => 2
    | .runnable => if L.handler then 4 else if s.headerBlocks W L then 1 else 0
    | .yielded _ => if L.handler then 4 else 0
    | .flagBlocked _ => if L.handler then 4 else 1
    | .fetching _ | .napping _ | .trapped => if L.handler then 4 else 2
    | .gone => 5

/-- The word address at which a lane stands. -/
def State.lanePc (s : State) (L : Lane) : DWord :=
  match L.entry with
  | .group g => ((s.groups.get? g).map (·.pc)).getD L.pc
  | .runnable | .flagBlocked _ | .fetching _ | .napping _ | .yielded _ | .trapped | .gone => L.pc

def State.dumpLane (s : State) (W : Warp) (L : Lane) : Nat :=
  (s.lanePc L &&& codeMask).toNat + 2 ^ 60 * s.dumpState W L + (if L.life = .helper then 2 ^ 63 else 0)

def guardCode : Guard → Nat
  | .opened => 0
  | .tru => 1
  | .fls => 2

/-- Numbers of n bytes each, laid out in order from byte `at_`. -/
def pack (at_ n : Nat) (xs : List Nat) : Nat :=
  (xs.foldr (fun x r => x % 256 ^ n + 256 ^ n * r) 0) * 256 ^ at_

/-- A warp entry's 384 bytes. -/
def State.dumpWarp (s : State) (W : Warp) : Nat :=
  pack 0 4 [(s.block W.block).block] + pack 4 1 [W.num] +
    pack 8 1 ((List.range 12).map fun f => W.flags.getD f 0) +
    pack 20 2 [((List.range 8).map fun n => guardCode (W.guards.getD n .opened) * 4 ^ n).sum] +
    pack 22 1 [W.q.toNat] + pack 24 8 [W.gwct] + pack 64 4 ((List.range 16).map fun r => W.stall.getD r 0) +
    pack 128 8 ((List.range 32).map fun l => s.dumpLane W (W.lane l))

/-- The warps resident on a sub-core: those of the bound context that have not ended. -/
def State.residents (s : State) (core sub : Nat) : List Warp :=
  (s.warps.filter fun e => e.2.core == core && e.2.sub == sub && s.issuing (s.block e.2.block).ctx &&
    e.2.lanes.any fun x => x.2.life == .live || x.2.life == .helper).map (·.2)

/-- The context that runs on a core. -/
def State.ctxOn (s : State) (core : Nat) : Nat :=
  ((s.parts.find? fun e => e.2.run && e.2.cores.contains core).map (·.2.ctx)).getD 0

/-- The dump of a sub-core as it stands; its warps in the order in which they were placed. DESIGN CHOICE, log 80. -/
def State.dump (s : State) (core sub : Nat) : List Byte :=
  let ws := s.residents core sub
  let hdr := pack 0 8 [s.clock, s.timeAt core] + pack 16 2 [s.ctxOn core, ws.length, 4 * core + sub]
  bytesOfNat 64 hdr ++ ws.flatMap fun W => bytesOfNat 384 (s.dumpWarp W)

/-! ## Stops, R373, R374 -/

/-- The warps resident on a sub-core are halted, or released from that: a pending trap is then taken (R374). -/
def State.haltSub (s : State) (core sub : Nat) (halt : Bool) : State :=
  s.warps.foldl (fun s e =>
    if e.2.core = core ∧ e.2.sub = sub ∧ s.issuing (s.block e.2.block).ctx ∧ e.2.dbgHalt ≠ halt then
      let s := s.modWarp e.1 fun W => { W with dbgHalt := halt }
      if halt then s else s.takePending e.1
    else s) s

/-- A sub-core becomes stopped: what is resident there is halted; its dump, where there is a place for it, is captured. -/
def State.stopSub (s : State) (core sub : Nat) : State :=
  let c := s.core core
  if c.stop.getLsbD sub then s
  else
    let b : BitVec 4 := BitVec.twoPow 4 sub
    let s1 := (s.modCore core fun c => { c with stop := c.stop ||| b, dumped := c.dumped &&& ~~~b, stopped := true }).haltSub
      core sub true
    if c.dumpBase &&& 0x000FFFFFFFFFE000 = 0 then s1
    else
      let at_ := (c.dumpBase &&& 0x000FFFFFFFFFE000).toNat + 8192 * sub
      s1.modCore core fun c => { c with dumping := c.dumping.set sub (at_, s.dump core sub) }

/-- The STOP bits are written: the sub-cores named stop, the others are released, and with them the warps that a switch
brought there halted (R344). DEDUCED, log 72. -/
def State.writeStop (s : State) (core : Nat) (mask : BitVec 4) : State :=
  (List.range 4).foldl (fun s i =>
    if mask.getLsbD i then s.stopSub core i
    else (s.modCore core fun c => { c with stop := c.stop &&& ~~~BitVec.twoPow 4 i }).haltSub core i false) s

/-- STOP: a write of DCTL.STOP. -/
def execStop (core : Nat) (mask : BitVec 4) (s : State) : Out :=
  when (decide (core < Config.nCore)) (s.writeStop core mask)

/-- Release the groups that TR.HALT halted on a sub-core: they go on at their word, or at the next clause (R350). -/
def State.releaseHalted (s : State) (core sub : Nat) : State :=
  s.groups.foldl (fun s e =>
    if e.2.core = core ∧ e.2.sub = sub ∧ e.2.park = .halt ∧ s.issuing (s.block e.2.block).ctx then
      if e.2.pc = e.2.clauseEnd then s.endClause e.1 e.2 fun _ => (e.2.clauseEnd, none)
      else s.modGroup e.1 fun gr => { gr with park := .run }
    else s) s

/-- RELH: a write of the RELH bits. -/
def execRelh (core : Nat) (mask : BitVec 4) (s : State) : Out :=
  when (decide (core < Config.nCore)) ((List.range 4).foldl (fun s i =>
    if mask.getLsbD i then s.releaseHalted core i else s) s)

/-- DUMP_WRITTEN (R375): the device writes a dump where DUMPBASE lay as the sub-core stopped; once every store of it is
applied, DUMPED is set. -/
def execDumpWritten (core sub : Nat) (s : State) : Out :=
  match (s.core core).dumping.get? sub with
  | none => .refused .notEnabled
  | some (at_, bytes) =>
    let t := if bytes = [] then s else s.devStore at_ bytes.length (pack 0 1 (bytes.map (·.toNat)))
    if t.storesOut then
      if bytes = [] then .refused .notEnabled
      else .next (t.modCore core fun c => { c with dumping := c.dumping.set sub (at_, []) })
    else
      .next (t.modCore core fun c =>
        { c with dumping := c.dumping.del sub, dumped := c.dumped ||| BitVec.twoPow 4 sub })

/-! ## Event counters, R367 to R370 -/

/-- STRIG: source 5 is true in this cycle. -/
def execStrig (core : Nat) (s : State) : Out :=
  when (decide (core < Config.nCore)) (s.modCore core fun c => { c with strig := true })

/-- ECMP_MATCH: sr.clock equals ECMP, so source 1 is true in this cycle. -/
def execEcmpMatch (core : Nat) (s : State) : Out :=
  let c := s.core core
  when (decide (core < Config.nCore) && c.ecmp.toNat == s.clock && !c.ecmpHit)
    (s.modCore core fun c => { c with ecmpHit := true })

def Counter.en (x : Counter) : Bool := x.esel.getLsbD 63
def Counter.event (x : Counter) : Nat := x.esel.toNat % 256
def Counter.sub (x : Counter) : Nat := x.esel.toNat / 2 ^ 8 % 4
def Counter.allSub (x : Counter) : Bool := x.esel.getLsbD 10
def Counter.start (x : Counter) : Nat := x.esel.toNat / 2 ^ 12 % 8
def Counter.stopSrc (x : Counter) : Nat := x.esel.toNat / 2 ^ 16 % 8
def Counter.ctx (x : Counter) : Nat := x.esel.toNat / 2 ^ 32 % 2 ^ 16

/-- Events that belong to a sub-core, R368. -/
def subEvent (e : Nat) : Bool := decide (1 ≤ e ∧ e ≤ 5) || e == 0x0F || e == 0x10

/-- What a counter would add in this cycle. -/
def Counter.adds (x : Counter) (core : Nat) (tally : List Tally) : Nat :=
  if x.event = 0 then (if x.ctx = 0 then 1 else 0)
  else
    ((tally.filter fun t => t.core == core && t.event == x.event &&
      (!subEvent x.event || x.allSub || t.sub == x.sub) && (x.ctx == 0 || t.ctx == x.ctx)).map (·.n)).sum

/-- Start and stop sources of R369, given the counters whose OVF becomes set. -/
def Core.source (c : Core) (ovf : List Nat) (n code : Nat) : Bool :=
  match code with
  | 1 => c.ecmpHit
  | 2 => c.swtrap
  | 3 => c.stopped
  | 4 => ovf.contains ((n + 7) % 8)
  | 5 => c.strig
  | _ => false

/-- Is a counter's gate open in this cycle? -/
def Core.live (c : Core) (ovf : List Nat) (n : Nat) (x : Counter) : Bool :=
  x.gate || (if x.start = 0 then x.en else c.source ovf n x.start)

/-- A counter after this cycle's events. -/
def Core.counted (c : Core) (core : Nat) (tally : List Tally) (ovf : List Nat) (n : Nat) (x : Counter) : Counter :=
  if x.en && c.live ovf n x && !c.frz && !c.wrote.contains n then
    let y := x.count + x.adds core tally
    { x with count := y % 2 ^ 48, ovf := x.ovf || decide (2 ^ 48 ≤ y) }
  else x

/-- The counters whose OVF becomes set, given those of the round before. DEDUCED, log 44. -/
def Core.overflows (c : Core) (core : Nat) (tally : List Tally) (ovf : List Nat) : List Nat :=
  (c.counters.filter fun e => !e.2.ovf && (c.counted core tally ovf e.1 e.2).ovf).map (·.1)

/-- The counters whose OVF becomes set in this cycle. -/
def Core.overflowing (c : Core) (core : Nat) (tally : List Tally) : List Nat :=
  (List.range 8).foldl (fun o _ => c.overflows core tally o) []

/-- The sub-cores that a counter's STOP source stops in this cycle, R374. -/
def Core.counterStops (c : Core) (core : Nat) (tally : List Tally) : List Nat :=
  let ovf := c.overflowing core tally
  c.counters.filterMap fun e => if c.source ovf e.1 e.2.stopSrc && e.2.event == 0 then some e.2.sub else none

/-- The end of a cycle at a core's counters: they count, gates open and close, sub-cores stop, interrupts are raised
(R369, R370, R374). -/
def State.countCycle (s : State) (core : Nat) (tally : List Tally) : State :=
  let c := s.core core
  -- a stop that a counter makes is itself a source of this cycle
  let c := if (c.counterStops core tally).any fun i => !c.stop.getLsbD i then { c with stopped := true } else c
  let ovf := c.overflowing core tally
  let cs := c.counters.map fun e =>
    let y := c.counted core tally ovf e.1 e.2
    (e.1, { y with gate := c.live ovf e.1 e.2 && !c.source ovf e.1 e.2.stopSrc })
  let s := s.modCore core fun c => { c with counters := cs }
  let s := ovf.foldl (fun s n => if c.oirq.getLsbD n then s.msix 0 2 else s) s
  let s := (c.counterStops core tally).foldl (fun s i => s.stopSub core i) s
  s.modCore core fun c => { c with ecmpHit := false, wrote := [], strig := false, swtrap := false, stopped := false }

/-! ## Stall accounting, R371 -/

/-- The reasons that hold for a parked group's lanes. -/
def parkReason : Park → Nat
  | .run | .helpers => 15
  | .operands => 1
  | .meeting => 3
  | .barrier _ | .cbarrier _ | .arrive _ => 4
  | .monitor _ | .condition _ => 5
  | .engineQueue | .seal | .batch _ | .guardClear _ | .ring _ _ _ _ => 6
  | .sluice => 7
  | .fence _ | .release => 8
  | .walk _ | .lines _ _ | .flag _ | .colours | .claim | .hold _ | .until_ _ | .shootdown _ | .load | .spill
  | .device _ | .gather | .remote => 9
  | .halt => 14

/-- Is an instruction one of CP, RG or G? -/
def engineInstr : Instr → Bool
  | .cpTile _ _ | .cpStore _ _ | .cpLin _ _ | .cpGath _ _ | .cpSeal _ | .cpWait _ | .gSet _ _ | .gClr _ | .rgInit _
  | .rgArv _ _ | .rgWait _ _ => true
  | _ => false

/-- Does a group stand at a word of CP, RG or G? -/
def Group.atEngine (gr : Group) : Bool :=
  match decode gr.rest with
  | .ok i _ => engineInstr i
  | .header | .truncated | .notLast | .illegal => false

/-- The reason that holds for a lane of a group: any park in an instruction of CP, RG or G is ENGINE, a release that C.WAIT
began MONITOR. -/
def State.groupReason (s : State) (g : Nat) (gr : Group) : Nat :=
  match gr.park with
  | .run => if s.waits gr then 1 else 15
  | .arrive _ => if gr.atEngine then 6 else 4
  | .release => if s.rels.any fun e => e.2.group == some g && e.2.wait.isSome then 5 else 8
  | p => if parkReason p = 9 ∧ gr.atEngine then 6 else parkReason p

/-- The lowest-numbered reason that holds for a lane, a compactor's move apart; `issued` says that it issued a word in this
cycle. -/
def State.stallReason (s : State) (W : Warp) (L : Lane) (issued : Bool) : Nat :=
  if issued then 0
  else if (s.core W.core).stop.getLsbD W.sub || W.dbgHalt then 14
  else
    let r := match L.entry with
      | .group g =>
        match s.groups.get? g with
        | some gr => s.groupReason g gr
        | none => 15
      | .flagBlocked _ => 2
      | .fetching _ => 9
      | .runnable => if (s.core W.core).halting then 15 else if s.headerBlocks W L then 2 else 10
      | .napping _ | .yielded _ => 11
      | .trapped | .gone => 15
    if L.handler && r != 14 then min r 13 else r

/-- Has some queue a ready record, R300? -/
def State.anyReady (s : State) : Bool :=
  s.ctxs.any fun e => (List.range e.2.qcount).any fun q =>
    match s.queue e.1 q with
    | (s, some d) => d.en && (s.validHead e.1 d).2
    | (_, none) => false

/-- The condition of A2, R386: nothing runs, switches or is queued. DEDUCED, log 60. -/
def State.idleNow (s : State) : Bool :=
  s.parts.all (fun e => !(e.2.run || e.2.pre || e.2.swt || e.2.drn)) && s.cmds.all (fun e => e.2.saved) && s.flips == [] &&
    !s.anyReady

/-- Has a die a resident warp? -/
def State.dieBusy (s : State) (d : Nat) : Bool :=
  s.warps.any fun e => e.2.core / 64 == d && s.issuing (s.block e.2.block).ctx &&
    e.2.lanes.any fun x => x.2.life == .live || x.2.life == .helper

/-- How long the module and its dies have been idle, R386. -/
def State.idleMarks (s : State) (time : Nat) : Mgmt :=
  let m := s.mgmt
  { m with busyAt := if s.idleNow then m.busyAt else time, a1 := m.a1.filter fun d => !s.dieBusy d,
           dieBusyAt := (List.range 3).foldl (fun x d => if s.dieBusy d then x.putD d time 0 else x) m.dieBusyAt }

/-- Every warp of a running context with a live lane adds 1 to one counter; counters saturate. `issued` are the lanes that
issued a word in this cycle. A compactor moves a warp within one cycle. DESIGN CHOICE, log 63. -/
def State.stalls (s : State) (issued : List (Nat × Nat)) : State :=
  { s with warps := s.warps.map fun e =>
      let W := e.2
      let ls := W.lanes.filter fun x => x.2.life == .live
      if ls = [] || !s.issuing (s.block W.block).ctx then e
      else
        let r := (ls.map fun x => s.stallReason W x.2 (issued.contains (e.1, x.1))).foldl min 15
        let r := if s.moved.contains e.1 then min r 12 else r
        (e.1, { W with stall := W.stall.putD r (min (W.stall.getD r 0 + 1) (2 ^ 32 - 1)) 0 }) }

/-! ## A cycle passes -/

/-- Runnable entries that are flag-blocked or halted in this cycle: it does not count towards their promotion (R97). -/
def State.notWaiting (s : State) : State :=
  { s with warps := s.warps.map fun e =>
      let W := e.2
      let c := s.core W.core
      let still := c.halting || c.stop.getLsbD W.sub || W.dbgHalt || !s.issuing (s.block W.block).ctx
      (e.1, { W with lanes := W.lanes.map fun x =>
        if x.2.entry.isRunnable && (still || s.headerBlocks W x.2) then (x.1, { x.2 with since := s.clock + 1 }) else x }) }

/-- One cycle passes: 5/12 ns (R14); the counters and the stall counters take it into account. DESIGN CHOICE, log 1. -/
def State.tick (s : State) (issued : List (Nat × Nat)) : State :=
  let s := (s.stalls issued).notWaiting
  let s := s.cores.foldl (fun s e =>
    let c := e.2
    if c.counters != [] || c.ecmpHit || c.wrote != [] || c.strig || c.swtrap || c.stopped then s.countCycle e.1 s.tally
    else s) s
  -- 5/12 ns a cycle, at the rate that keeps the chip with its time master (R364)
  let f := s.frac + 5 * (1000000 + s.sync.rate).toNat
  let time := s.time + f / 12000000
  -- what the device has read for an event that has not happened is read again
  let fetched := if s.msgs.any fun e => e.2.src == devAgent then s.fetched
    else s.fetched.filter fun e => s.groups.any fun g => match g.2.park with
      | .device ls => ls.contains e.1
      | _ => false
  { s with tally := [], moved := [], fresh := [], fetched := fetched, clock := s.clock + 1, time := time, frac := f % 12000000,
           mgmt := s.idleMarks time }

end Sys2Proof.Machine
end

