-- ==== Sys2Proof/Machine/Xmss.lean ====
section
/-! DEFINITION. The signatures and the measurement of 17_management_power R383 and R384: SHAKE256, and XMSS with the parameter
set XMSS-SHAKE_20_256, whose texts the spec names and does not hold (assumption log 13). Byte strings are lists of bytes. -/

namespace Sys2Proof.Machine.Xmss

/-! ## SHAKE256 -/

/-- The round constants of Keccak-f[1600]. PRESUMED, log 13. -/
def roundConstants : List DWord :=
  [0x0000000000000001, 0x0000000000008082, 0x800000000000808A, 0x8000000080008000, 0x000000000000808B,
   0x0000000080000001, 0x8000000080008081, 0x8000000000008009, 0x000000000000008A, 0x0000000000000088,
   0x0000000080008009, 0x000000008000000A] ++
  [0x000000008000808B, 0x800000000000008B, 0x8000000000008089, 0x8000000000008003, 0x8000000000008002,
   0x8000000000000080, 0x000000000000800A, 0x800000008000000A, 0x8000000080008081, 0x8000000000008080,
   0x0000000080000001, 0x8000000080008008]

/-- The rotations of the lanes x + 5 y. PRESUMED, log 13. -/
def rotations : List Nat :=
  [0, 1, 62, 28, 27, 36, 44, 6, 55, 20, 3, 10, 43, 25, 39] ++ [41, 45, 15, 21, 8, 18, 2, 61, 56, 14]

/-- One round on the 25 lanes. PRESUMED, log 13. -/
def keccakRound (a : List DWord) (rc : DWord) : List DWord :=
  let at_ (l : List DWord) (x y : Nat) : DWord := l.getD (x % 5 + 5 * (y % 5)) 0
  let column := (List.range 5).map fun x => at_ a x 0 ^^^ at_ a x 1 ^^^ at_ a x 2 ^^^ at_ a x 3 ^^^ at_ a x 4
  let theta := (List.range 25).map fun i =>
    a.getD i 0 ^^^ column.getD ((i + 4) % 5) 0 ^^^ (column.getD ((i + 1) % 5) 0).rotateLeft 1
  let moved := (List.range 25).map fun i =>
    -- lane (x, y) of the result is lane (x + 3 y, x) of the state
    let from_ := (i % 5 + 3 * (i / 5)) % 5 + 5 * (i % 5)
    (theta.getD from_ 0).rotateLeft (rotations.getD from_ 0)
  (List.range 25).map fun i =>
    let x := i % 5
    let y := i / 5
    at_ moved x y ^^^ (~~~at_ moved (x + 1) y &&& at_ moved (x + 2) y) ^^^ (if i = 0 then rc else 0)

def keccak (a : List DWord) : List DWord := roundConstants.foldl keccakRound a

/-- Eight bytes as a lane, least significant first. -/
def laneOf (bytes : List Byte) (i : Nat) : DWord :=
  BitVec.ofNat 64 ((List.range 8).foldl (fun x j => x + (bytes.getD (8 * i + j) 0).toNat * 256 ^ j) 0)

/-- Blocks of 136 bytes are absorbed. -/
def absorb : Nat → List DWord → List Byte → List DWord
  | 0, a, _ => a
  | n + 1, a, bytes =>
    absorb n (keccak ((List.range 25).map fun i => a.getD i 0 ^^^ (if i < 17 then laneOf (bytes.take 136) i else 0)))
      (bytes.drop 136)

/-- SHAKE256 with 256 bits of output. PRESUMED, log 13. -/
def shake256 (message : List Byte) : List Byte :=
  let n := message.length / 136 + 1
  let room := 136 * n - message.length
  let pad : List Byte := if room = 1 then [0x9F] else 0x1F :: (List.replicate (room - 2) 0 ++ [0x80])
  let a := absorb n (List.replicate 25 0) (message ++ pad)
  (List.range 32).map fun i => BitVec.ofNat 8 ((a.getD (i / 8) 0).toNat / 256 ^ (i % 8))

/-! ## XMSS: n = 32, w = 16, h = 20 -/

/-- n bytes of a number, most significant first. -/
def toByte (x n : Nat) : List Byte := (List.range n).map fun i => BitVec.ofNat 8 (x / 256 ^ (n - 1 - i))

/-- A keyed hash: the functions F, H, H_msg and PRF are those of the prefixes 0 to 3. PRESUMED, log 13. -/
def keyed (prefix_ : Nat) (key message : List Byte) : List Byte := shake256 (toByte prefix_ 32 ++ key ++ message)

/-- An address: its type and its last four words. -/
structure Adrs where
  type_ : Nat
  a : Nat := 0
  b : Nat := 0
  c : Nat := 0
  deriving DecidableEq, Repr

/-- An address's 32 bytes with the word keyAndMask. -/
def Adrs.bytes (x : Adrs) (keyAndMask : Nat) : List Byte :=
  List.replicate 12 0 ++ toByte x.type_ 4 ++ toByte x.a 4 ++ toByte x.b 4 ++ toByte x.c 4 ++ toByte keyAndMask 4

def prf (seed : List Byte) (x : Adrs) (keyAndMask : Nat) : List Byte := keyed 3 seed (x.bytes keyAndMask)

def xorBytes (x y : List Byte) : List Byte := List.zipWith (· ^^^ ·) x y

/-- `steps` steps of a WOTS+ chain from step `from_` on. -/
def chain (seed : List Byte) (leaf i : Nat) (from_ : Nat) : Nat → List Byte → List Byte
  | 0, x => x
  | n + 1, x =>
    let adrs : Adrs := ⟨0, leaf, i, from_⟩
    chain seed leaf i (from_ + 1) n (keyed 0 (prf seed adrs 0) (xorBytes x (prf seed adrs 1)))

/-- The 67 digits that a 32-byte message and its checksum give. -/
def digits (m : List Byte) : List Nat :=
  let base (l : List Byte) : List Nat := l.flatMap fun b => [b.toNat / 16, b.toNat % 16]
  let ds := base (m.take 32)
  let sum := (ds.map fun d => 15 - d).sum
  ds ++ (base (toByte (16 * sum) 2)).take 3

/-- The randomized hash of two nodes. -/
def randHash (seed : List Byte) (adrs : Adrs) (l r : List Byte) : List Byte :=
  keyed 1 (prf seed adrs 0) (xorBytes l (prf seed adrs 1) ++ xorBytes r (prf seed adrs 2))

/-- The L-tree over the elements of a one-time key, level by level. -/
def lTree (seed : List Byte) (leaf : Nat) : Nat → Nat → List (List Byte) → List Byte
  | 0, _, xs => xs.headD []
  | n + 1, height, xs =>
    if xs.length ≤ 1 then xs.headD []
    else
      let pairs := (List.range (xs.length / 2)).map fun i =>
        randHash seed ⟨1, leaf, height, i⟩ (xs.getD (2 * i) []) (xs.getD (2 * i + 1) [])
      lTree seed leaf n (height + 1) (pairs ++ (if xs.length % 2 = 1 then [xs.getD (xs.length - 1) []] else []))

/-- A leaf of the tree from the elements of its one-time public key. -/
def leafOf (seed : List Byte) (leaf : Nat) (pk : List (List Byte)) : List Byte := lTree seed leaf 7 0 pk

/-- Element i of 32 bytes in a list. -/
def element (l : List Byte) (i : Nat) : List Byte := (l.drop (32 * i)).take 32

/-- The root that a one-time signature and an authentication path give. -/
def rootOf (seed : List Byte) (leaf : Nat) (ots auth m : List Byte) : List Byte :=
  let ds := digits m
  let pk := (List.range 67).map fun i => chain seed leaf i (ds.getD i 0) (15 - ds.getD i 0) (element ots i)
  (List.range 20).foldl (fun node k =>
    let adrs : Adrs := ⟨2, 0, k, leaf / 2 ^ (k + 1)⟩
    if leaf / 2 ^ k % 2 = 0 then randHash seed adrs node (element auth k) else randHash seed adrs (element auth k) node)
    (leafOf seed leaf pk)

/-- The hash of a message that is signed. -/
def messageHash (r root : List Byte) (leaf : Nat) (message : List Byte) : List Byte :=
  keyed 2 (r ++ root ++ toByte leaf 32) message

/-- XMSS-SHAKE_20_256 verification of a signature of 2,820 bytes over a message, under a public key of 68 bytes (R383): index,
randomizer, 67 elements and 20 nodes; OID, root and seed. PRESUMED, log 13. -/
def verify (key message sig : List Byte) : Bool :=
  let root := (key.drop 4).take 32
  let seed := (key.drop 36).take 32
  let leaf := (sig.take 4).foldl (fun x b => 256 * x + b.toNat) 0
  let r := (sig.drop 4).take 32
  let m := messageHash r root leaf message
  sig.length == 2820 && rootOf seed leaf ((sig.drop 36).take 2144) (sig.drop 2180) m == root

/-! ## The module's identity key, R384 -/

/-- Node i at a height of the identity key's tree. -/
def identityNode : Nat → Nat → List Byte
  | 0, i => leafOf Config.identitySeed i
      ((List.range 67).map fun c => chain Config.identitySeed i c 0 15 (Config.identitySecret i c))
  | k + 1, i =>
    randHash Config.identitySeed ⟨2, 0, k, i⟩ (identityNode k (2 * i)) (identityNode k (2 * i + 1))

/-- The identity key's public key, which the vendor certifies. -/
def identityKey : List Byte := toByte 9 4 ++ identityNode 20 0 ++ Config.identitySeed

/-- The signature that the identity key makes at a leaf. PRESUMED, log 13. -/
def sign (leaf : Nat) (message : List Byte) : List Byte :=
  let r := keyed 3 Config.identityPrf (toByte leaf 32)
  let ds := digits (messageHash r (identityNode 20 0) leaf message)
  toByte leaf 4 ++ r ++
    ((List.range 67).flatMap fun c => chain Config.identitySeed leaf c 0 (ds.getD c 0) (Config.identitySecret leaf c)) ++
    (List.range 20).flatMap fun k => identityNode k (leaf / 2 ^ k ^^^ 1)

end Sys2Proof.Machine.Xmss
end

