-- ==== Sys2Proof/Machine/Mgmt.lean ====
section
/-! DEFINITION. The management processor: bring-up, firmware, attestation, sensors and power states
(17_management_power R378 to R389). -/

namespace Sys2Proof.Machine

/-! ## Images, R382, R383 -/

/-- A field of an image or of any list of bytes, least significant byte first. -/
def bytesNat (l : List Byte) (off n : Nat) : Nat := ((List.range n).map fun i => (l.getD (off + i) 0).toNat * 256 ^ i).sum

/-- The part of an image that is signed and measured: bytes 0 to 63 + BODY. -/
def imageSigned (im : List Byte) : List Byte := im.take (64 + bytesNat im 8 4)

/-- VERSION of an image. -/
def imageVersion (im : List Byte) : Nat := bytesNat im 4 4

/-- Is an image of this length well made, R382? -/
def imageShape (im : List Byte) (len : Nat) : Bool :=
  let body := bytesNat im 8 4
  bytesNat im 0 4 == 0x58465855 && body % 64 == 0 && decide (body ≤ 64 * 2 ^ 20) && len == 64 + body + 2820 &&
    bytesNat im 12 52 == 0

/-- LASTERR of an image's verification, 0 where it succeeds, R382, R383. DEDUCED, log 58. -/
def imageCheck (im : List Byte) (len minver : Nat) : Nat :=
  if !imageShape im len then 3
  else if !Xmss.verify Config.vendorKey (imageSigned im) (im.drop (64 + bytesNat im 8 4)) then 1
  else if imageVersion im < minver then 2
  else 0

/-! ## Bring-up, R389 -/

/-- The bytes of host memory, which is outside the module. -/
def hostPart (m : Memory) : Memory := m.filter fun e =>
  match placeOf e.1 with
  | .host _ => true
  | .dev _ _ | .reg _ | .hostReg _ | .nothing => false

/-- Module power is removed, R378: what stays is the flash, the fuses, what is committed to flash (R384), the module's
place in its domain, and what lies outside the module. -/
def State.removed (s : State) (flash : List Byte) : State :=
  { State.reset with
    mem := hostPart s.mem, out := s.out, chip := s.chip, domain := s.domain, dieOff := s.dieOff, agenda := s.agenda,
    free := s.free, ids := s.ids, mgmt := { flash, minver := s.mgmt.minver, leaf := s.mgmt.leaf } }

/-- ROM: the flash image is loaded, and STAGE passes to VERIFY. -/
def State.bringUp (s : State) : State := { s with mgmt := { s.mgmt with stage := .verify } }

/-- VERIFY: the flash image is verified. -/
def State.verified (s : State) : State :=
  let m := s.mgmt
  let c := imageCheck m.flash m.flash.length m.minver
  if c = 0 then { s with mgmt := { m with stage := .init, image := m.flash, fwver := imageVersion m.flash } }
  else { s with mgmt := { m with stage := .recovery, lasterr := c } }

/-- VERIFY ends. -/
def verifyEnds (s : State) : Out := if s.mgmt.stage = .verify then .next s.verified else .refused .notEnabled

/-- POWER_ON: a module whose flash has never been written holds the image that comes with it. -/
def execPowerOn (flash : List Byte) (s : State) : Out :=
  if s.mgmt.stage = .rom then
    .next { s with mgmt := { s.mgmt with flash := if s.mgmt.flash = [] then flash else s.mgmt.flash } }.bringUp
  else .refused .notEnabled

/-- Is CXL.io up? RECOVERY and INIT bring it up (R389). DEDUCED, log 93. -/
def State.cxlIo (s : State) : Bool := s.mgmt.stage != .rom && s.mgmt.stage != .verify

/-- POWER_LOSS (R378); during STAGEFW it leaves a flash image that fails verification (R383). DESIGN CHOICE, log 59. -/
def execPowerLoss (s : State) : Out :=
  .next (s.removed (if s.mgmt.job = some .stagefw ∧ s.mgmt.jobErr = 0 then [0] else s.mgmt.flash))

/-- The management processor where INIT ends: every register of it at its reset value but STAGE and FWVER, which say what it
does and what it runs. -/
def Mgmt.initial (m : Mgmt) (time : Nat) : Mgmt :=
  { stage := .ready, fwver := m.fwver, image := m.image, flash := m.flash, minver := m.minver, leaf := m.leaf,
    sensAt := m.sensAt, log := m.log, busyAt := time, dieBusyAt := [(0, time), (1, time), (2, time)] }

/-- DIES_RELEASED (R389): INIT ends, and a VERIFY that has not ended before it. Memory, metadata and bias table are 0,
registers are at their reset values, the time master is named (the chip of the domain with the lowest identifier), and the
dies are released. DESIGN CHOICE, log 59. -/
def execDiesReleased (ok : Bool) (s : State) : Out :=
  let s := if s.mgmt.stage = .verify then s.verified else s
  if s.mgmt.stage ≠ .init then .refused .notEnabled
  else if ok then
    .next { State.reset with
      clock := s.clock, time := s.time, frac := s.frac, dieOff := s.dieOff, mem := hostPart s.mem, out := s.out,
      chip := s.chip, domain := s.domain, links := s.links, routes := s.routes,
      sync := { s.sync with master := s.domain.all fun c => decide (s.chip ≤ c) },
      mgmt := s.mgmt.initial s.time, agenda := s.agenda, free := s.free, ids := s.ids }
  else .next { s with mgmt := { s.mgmt with stage := .fault, lasterr := 6 } }

/-! ## Commands, R381 -/

/-- A write of MCMD is refused. -/
def State.mgmtRefuse (s : State) : State := { s with mgmt := { s.mgmt with err := true, lasterr := 4 } }.mark .mstat 0x10

/-- The argument block: IMG, LEN and NONCE. -/
def State.argBlock (s : State) : State × Nat := s.devRead (s.mgmt.marg.toNat % 2 ^ 52 / 64 * 64) 64

/-- Copy the image that the argument block names, as far as its header can be believed, and see how its verification
ends. -/
def State.takeImage (s : State) : State × List Byte × Nat :=
  let (s, arg) := s.argBlock
  let img := field arg 0 8 % 2 ^ 52
  let len := field arg 8 4
  let (s, h) := s.devRead img 64
  if imageShape (bytesOfNat 64 h) len then
    let (s, x) := s.devRead img len
    let im := bytesOfNat len x
    (s, im, imageCheck im len s.mgmt.minver)
  else (s, [], 3)

/-- A command is accepted. DEDUCED, log 58. -/
def State.mgmtAccept (s : State) (cmd : Nat) (job : MJob) (err : Nat) (image : List Byte) (addr : Nat) : State :=
  { s with mgmt := { s.mgmt with busy := true, cmd, job := some job, jobErr := err, jobImage := image, jobAddr := addr } }

/-- A write of MCMD that names LOADFW (R383), which belongs to RECOVERY. -/
def State.cmdLoadfw (s : State) : State :=
  if s.mgmt.busy ∨ s.mgmt.stage ≠ .recovery then s.mgmtRefuse
  else
    let r := s.takeImage
    r.1.mgmtAccept 1 .loadfw r.2.2 r.2.1 0

def execLoadfw (s : State) : Out := needing (fun s => .next s.cmdLoadfw) s

/-- A write of MCMD that names STAGEFW (R383), which belongs to READY. -/
def State.cmdStagefw (s : State) : State :=
  if s.mgmt.busy ∨ s.mgmt.stage ≠ .ready then s.mgmtRefuse
  else
    let r := s.takeImage
    r.1.mgmtAccept 2 .stagefw r.2.2 r.2.1 0

def execStagefw (s : State) : Out := needing (fun s => .next s.cmdStagefw) s

/-- A list of exactly n bytes. -/
def fixLen (n : Nat) (l : List Byte) : List Byte := (List.range n).map fun i => l.getD i 0

/-- The report of R384. -/
def attestReport (nonce image : List Byte) (fwver leaf : Nat) : List Byte :=
  let body := fixLen 32 nonce ++ bytesOfNat 4 fwver ++ bytesOfNat 4 leaf ++
    fixLen 32 (Xmss.shake256 (imageSigned image)) ++ fixLen 60 []
  body ++ fixLen 2820 (Xmss.sign leaf body)

/-- A write of MCMD that names ATTEST (R384), which belongs to READY. The leaf index advances before anything is
signed. -/
def State.cmdAttest (s : State) : State :=
  if s.mgmt.busy ∨ s.mgmt.stage ≠ .ready then s.mgmtRefuse
  else
    let (s, arg) := s.argBlock
    let addr := field arg 0 8 % 2 ^ 52
    let leaf := s.mgmt.leaf
    if 2 ^ 20 ≤ leaf then s.mgmtAccept 3 .attest 5 [] addr
    else
      let r := attestReport ((bytesOfNat 64 arg).drop 16) s.mgmt.image s.mgmt.fwver leaf
      let s := s.mgmtAccept 3 .attest 0 r addr
      { s with mgmt := { s.mgmt with leaf := leaf + 1 } }

def execAttest (s : State) : Out := needing (fun s => .next s.cmdAttest) s

/-- A module reset, R381. -/
def State.moduleReset (s : State) : State := (s.removed s.mgmt.flash).bringUp

/-- RESET (R381): power removal, but the flash keeps its contents; bring-up follows (R389). -/
def State.cmdReset (s : State) : State := if s.mgmt.busy then s.mgmtRefuse else s.moduleReset

def execReset (s : State) : Out := .next s.cmdReset

/-- The management processor writes the report of ATTEST; it has written it once its stores have been applied (R384). -/
def State.writeReport (s : State) : State :=
  let m := s.mgmt
  if m.job = some .attest ∧ m.jobErr = 0 ∧ m.jobImage ≠ [] then
    ({ s with mgmt := { m with jobImage := [] } } : State).devStore m.jobAddr m.jobImage.length
      (pack 0 1 (m.jobImage.map (·.toNat)))
  else s

/-- COMMAND_COMPLETE (R381, R383): the command in progress ends; BUSY falls and MSI-X vector 3 of function 0 is
raised. -/
def execCommandComplete (s : State) : Out :=
  let t := s.writeReport
  let m := t.mgmt
  match m.job with
  | none => .refused .notEnabled
  | some j =>
    if j = .attest ∧ t.storesOut then (if t.mgmt = s.mgmt then .refused .notEnabled else .next t)
    else
    let s := t
    let done : Mgmt := { m with busy := false, job := none, jobErr := 0, jobImage := [], jobAddr := 0 }
    let s : State :=
      if m.jobErr ≠ 0 then { s with mgmt := { done with err := true, lasterr := m.jobErr } }.mark .mstat 0x10
      else
        match j with
        | .loadfw =>
          { s with mgmt := { done with stage := .init, image := m.jobImage, fwver := imageVersion m.jobImage } }
        | .stagefw =>
          { s with mgmt := { done with flash := m.jobImage, minver := imageVersion m.jobImage } }
        | .attest => { s with mgmt := done }
    .next (s.msix 0 3)

/-- A write of MCMD, R381. -/
def State.writeMcmd (s : State) (v : DWord) : State :=
  match v.toNat % 8 with
  | 1 => s.cmdLoadfw
  | 2 => s.cmdStagefw
  | 3 => s.cmdAttest
  | 4 => s.cmdReset
  | _ => if s.mgmt.busy then s.mgmtRefuse else s

/-- STAGE as MSTAT shows it. -/
def MStage.code : MStage → Nat
  | .rom => 0
  | .verify => 1
  | .recovery => 2
  | .init => 3
  | .ready => 4
  | .fault => 5

/-- MSTAT, R380. -/
def Mgmt.mstat (m : Mgmt) : Nat :=
  m.stage.code + 8 * m.busy.toNat + 16 * m.err.toNat + 2 ^ 8 * (m.lasterr % 256) + 2 ^ 16 * (m.fwver % 2 ^ 32)

/-! ## Sensors, R385 -/

/-- TCAP and the limit of one die after a reading of its hottest point. -/
def Mgmt.limit (m : Mgmt) (d : Nat) (reading : BitVec 16) : Mgmt :=
  let t := reading.toInt
  let hot := if 840 < t then true else if t < 800 then false else m.hot.contains d
  let cap := m.tcap.getD d 1024
  { m with hot := if hot then insertNat m.hot d else m.hot.filter (· != d),
           tcap := m.tcap.putD d (if hot then cap - 64 else min 1024 (cap + 64)) 1024 }

/-- SENSOR_UPDATE (R385): every 1 ms. Above 115 degrees on a die the event is recorded and the module is reset.
DESIGN CHOICE, log 65. -/
def execSensorUpdate (readings : List (BitVec 16)) (s : State) : Out :=
  let m := s.mgmt
  if !s.cxlIo || s.time / 1000000 ≤ m.sensAt then .refused .notEnabled
  else
    let rd (k : Nat) : BitVec 16 := if k < 6 then readings.getD k 0 else 0
    let m := { m with sensAt := s.time / 1000000, sens := (List.range 8).foldl (fun x k => x.putD k (rd k) 0) m.sens }
    let m := (List.range 3).foldl (fun m d => m.limit d (rd d)) m
    let above := (List.range 3).filter fun d => decide (920 < (rd d).toInt)
    if above = [] then .next { s with mgmt := m }
    else .next { s with mgmt := { m with log := m.log ++ above } }.moduleReset

/-! ## Power states, R386 to R388 -/

/-- Chips of the domain that this chip does not know to be in A3. -/
def State.awake (s : State) : List Nat :=
  s.domain.filter fun c => c != s.chip && !s.links.any fun e => e.2.up && e.2.peer == c && e.2.asleep

/-- The chips next to this one that its route table sends packets for a chip to. -/
def State.nextHops (s : State) (c : Nat) : List Nat := ((s.routes.getD c []).map fun k => (s.link k).peer).dedup

/-- Does the route table place this chip on a path between two chips? It does where packets for the one and for the other
do not leave through the same neighbour. DEDUCED, log 60. -/
def State.between (s : State) (a b : Nat) : Bool :=
  let x := s.nextHops a
  let y := s.nextHops b
  x != [] && y != [] && decide (1 < (x ++ y).dedup.length)

/-- May the chip enter A3, R388? -/
def State.a3Ok (s : State) : Bool :=
  let others := s.awake
  !(s.sync.master && others != []) && !others.any fun a => others.any fun b => a != b && s.between a b

/-- The state that the module enters now, and the dies whose clocks stop, R386. DEDUCED, log 60. -/
def State.idleTarget (s : State) : Nat × List Nat :=
  let m := s.mgmt
  let idle := s.idleNow && decide (m.busyAt + 100000 ≤ s.time) && m.ltrEn
  if idle && decide (800000 ≤ m.tol) && s.a3Ok then (3, m.a1)
  else if idle && decide (40000 ≤ m.tol) then (2, m.a1)
  else if 2000 ≤ m.tol then
    (0, (List.range 3).filter fun d => !s.dieBusy d && decide (m.dieBusyAt.getD d 0 + 10000 ≤ s.time))
  else (0, m.a1)

/-- POWER_IDLE_TIMER (R386). -/
def execPowerIdleTimer (s : State) : Out :=
  let m := s.mgmt
  let t := s.idleTarget
  if m.stage ≠ .ready ∨ m.exiting ∨ m.pstate ≠ 0 ∨ t.1 = 0 ∧ t.2.all m.a1.contains then .refused .notEnabled
  else if t.1 = 0 then .next { s with mgmt := { m with a1 := t.2 } }
  else .next { s with mgmt := { m with pstate := t.1, entries := (m.entries + 1) % 2 ^ 32 } }

/-- WAKE (R387). -/
def execWake (s : State) : Out := .next s.wakeUp

/-- PWRSTAT. -/
def Mgmt.pwrstat (m : Mgmt) : Nat :=
  (if m.pstate = 0 ∧ m.a1 ≠ [] then 1 else m.pstate % 4) + 2 ^ 32 * (m.entries % 2 ^ 32)

end Sys2Proof.Machine
end

