-- ==== Sys2Proof/Machine/Registers.lean ====
section
/-! DEFINITION. The device register block: what each register reads, and what a write of it does by its fields' access
codes (00_scope R7; 15_host_fabric R353 to R358, R363, R365; 16_counters_errors R366 to R376; 17_management_power R379 to
R386; 14_translation_traps R341). -/

namespace Sys2Proof.Machine

/-! ## Register names -/

/-- A register of a core's counter page, R366. -/
inductive CoreReg where
  | esel (n : Nat)
  | ecnt (n : Nat)
  | ecmp | ectl | dctl | dstat | dumpbase
  deriving DecidableEq, Repr

/-- A register of the device register block, R353, R355, R366, R379. -/
inductive Reg where
  | mstat | mcmd | marg | ltr | pwrstat
  | sens (k : Nat)
  | tcap (d : Nat)
  | core (c : Nat) (r : CoreReg)
  | erbase | erhead | ertail | erctl
  | brbase (n : Nat)
  | brhead (n : Nat)
  | pctl (n : Nat)
  | pstat (n : Nat)
  | pcores (n d : Nat)
  | tail (n q : Nat)
  | btb | bflip | bstat
  | lstat (k : Nat)
  | tstat | hrb | hrstat
  | nothing
  deriving DecidableEq, Repr

/-- A core's counter page. -/
def coreReg (x : Nat) : Option CoreReg :=
  if x < 0x80 then some (if x % 16 = 0 then .esel (x / 16) else .ecnt (x / 16))
  else
    match x with
    | 0x80 => some .ecmp
    | 0x88 => some .ectl
    | 0x90 => some .dctl
    | 0x98 => some .dstat
    | 0xA0 => some .dumpbase
    | _ => none

/-- The registers of the management range, R379, R366. -/
def mgmtReg (x : Nat) : Reg :=
  if 0x80000 ≤ x ∧ x < 0x80000 + 0x200 * Config.nCore then
    match coreReg ((x - 0x80000) % 0x200) with
    | some r => .core ((x - 0x80000) / 0x200) r
    | none => .nothing
  else if 0xA1000 ≤ x ∧ x < 0xA1000 + 0x20 * 16 then
    let n := (x - 0xA1000) / 0x20
    if x % 0x20 = 0 then .brbase n else if x % 0x20 = 8 then .brhead n else .nothing
  else if 0x40 ≤ x ∧ x < 0x80 then .sens ((x - 0x40) / 8)
  else if 0x100 ≤ x ∧ x < 0x118 then .tcap ((x - 0x100) / 8)
  else
    match x with
    | 0x00 => .mstat
    | 0x08 => .mcmd
    | 0x10 => .marg
    | 0x18 => .ltr
    | 0x20 => .pwrstat
    | 0xA0000 => .erbase
    | 0xA0008 => .erhead
    | 0xA0010 => .ertail
    | 0xA0018 => .erctl
    | _ => .nothing

/-- The registers of partition page n, R355. -/
def partReg (n x : Nat) : Reg :=
  if 0x800 ≤ x then .tail n ((x - 0x800) / 8)
  else
    match x with
    | 0x00 => .pctl n
    | 0x08 => .pstat n
    | 0x10 => .pcores n 0
    | 0x18 => .pcores n 1
    | 0x20 => .pcores n 2
    | _ => .nothing

/-- The register at a block offset; none where the offset is not a multiple of 8 (R353). -/
def regAt (off : Nat) : Reg :=
  if off % 8 ≠ 0 then .nothing
  else if off < 0x100000 then mgmtReg off
  else if off < 0x110000 then partReg ((off - 0x100000) / 0x1000) (off % 0x1000)
  else if 0x300000 ≤ off ∧ off < 0x300000 + 8 * Config.nLink then .lstat ((off - 0x300000) / 8)
  else
    match off with
    | 0x200000 => .btb
    | 0x200008 => .bflip
    | 0x200010 => .bstat
    | 0x300100 => .tstat
    | 0x400000 => .hrb
    | 0x400008 => .hrstat
    | _ => .nothing

/-! ## Reading -/

def Core.read (c : Core) : CoreReg → Nat
  | .esel n => (c.counters.getD n {}).esel.toNat
  | .ecnt n => let x := c.counters.getD n {}; x.count % 2 ^ 48 + 2 ^ 63 * x.ovf.toNat
  | .ecmp => c.ecmp.toNat
  | .ectl => c.frz.toNat + 2 * c.strig.toNat + 4 * c.oirq.toNat
  | .dctl => c.stop.toNat + 16 * c.onhalt.toNat
  | .dstat => c.dumped.toNat + 2 ^ 16 * c.halts
  | .dumpbase => c.dumpBase.toNat

/-- The value that a register reads. -/
def State.regRead (s : State) : Reg → State × Nat
  | .mstat => (s, s.mgmt.mstat)
  | .mcmd => (s, s.mgmt.cmd)
  | .marg => (s, s.mgmt.marg.toNat)
  | .ltr => (s, s.mgmt.tol + 2 ^ 63 * s.mgmt.ltrEn.toNat)
  | .pwrstat => (s, s.mgmt.pwrstat)
  | .sens k => (s, (s.mgmt.sens.getD k (0 : BitVec 16)).toNat)
  | .tcap d => (s, s.mgmt.tcap.getD d 1024)
  | .core c r => (s, (s.core c).read r)
  | .erbase => (s, s.erbase.toNat)
  | .erhead => (s, s.erhead)
  | .ertail => (s, s.ertail)
  | .erctl => (s, s.erCorr.toNat + 2 ^ 32 * s.erLost)
  | .brbase n => (s, (s.part n).brbase.toNat)
  | .brhead n => (s, (s.part n).brhead)
  | .pctl n => (s, (s.part n).cmd.toNat + (s.part n).desc.toNat)
  | .pstat n => (s, (s.part n).stat)
  | .pcores n d => (s, ((s.part n).pcores d).toNat)
  | .tail n q => s.readTail n q
  | .btb => (s, s.btb.toNat)
  | .bflip => (s, s.bflip.toNat)
  | .bstat => (s, s.bstat)
  | .lstat k => (s, (s.link k).stat)
  | .tstat => (s, s.tstat)
  | .hrb => (s, s.hrb.toNat)
  | .hrstat => (s, s.hrstat)
  | .nothing => (s, 0)

/-! ## Writing -/

/-- Bits [hi:lo] of a count from which a write clears those that it writes 1 to, R7. DEDUCED, log 61. -/
def clearCount (x : Nat) (v : DWord) (lo : Nat) : Nat :=
  (BitVec.ofNat 32 x &&& ~~~(v.extractLsb' lo 32 : BitVec 32)).toNat

/-- A write of ESELn; clearing EN closes the gate (R367, R369). -/
def Counter.select (x : Counter) (v : DWord) : Counter :=
  let e := v &&& 0x8000FFFF000777FF
  { x with esel := e, gate := x.gate && e.getLsbD 63 }

/-- A register of a core's counter page is written. -/
def State.writeCore (s : State) (c : Nat) (r : CoreReg) (v : DWord) : State :=
  match r with
  | .esel n => s.modCore c fun x => { x with counters := x.counters.putD n ((x.counters.getD n {}).select v) {} }
  | .ecnt n => s.modCore c fun x =>
      let y := x.counters.getD n {}
      { x with counters := x.counters.putD n { y with count := v.toNat % 2 ^ 48, ovf := y.ovf && !v.getLsbD 63 } {},
               wrote := if x.wrote.contains n then x.wrote else n :: x.wrote }
  | .ecmp => s.modCore c fun x => { x with ecmp := v }
  | .ectl => s.modCore c fun x => { x with frz := v.getLsbD 0, strig := x.strig || v.getLsbD 1, oirq := v.extractLsb' 2 8 }
  | .dctl =>
    let s := (s.modCore c fun x => { x with onhalt := v.getLsbD 4 }).writeStop c (v.extractLsb' 0 4)
    (List.range 4).foldl (fun s i => if v.getLsbD (8 + i) then s.releaseHalted c i else s) s
  | .dstat => s
  | .dumpbase => s.modCore c fun x => { x with dumpBase := v &&& 0x000FFFFFFFFFE000 }

/-- What a write clears of a register: the bits that it writes 1 to, but for those that the device has set in this cycle
(R7). -/
def State.clears (s : State) (r : W1c) (v : DWord) : DWord := v &&& ~~~s.freshBits r

/-- A register is written, by the access codes of its fields (R7). -/
def State.regWrite (s : State) (r : Reg) (v : DWord) : State :=
  match r with
  | .mstat => { s with mgmt := { s.mgmt with err := s.mgmt.err && !(s.clears .mstat v).getLsbD 4 } }
  | .mcmd => s.writeMcmd v
  | .marg => { s with mgmt := { s.mgmt with marg := v &&& 0x000FFFFFFFFFFFC0 } }
  | .ltr => { s with mgmt := { s.mgmt with tol := v.toNat % 2 ^ 32, ltrEn := v.getLsbD 63 } }
  | .core c r => s.writeCore c r v
  | .erbase => { s with erbase := v &&& 0x000FFFFFFFFFFF8F }
  | .ertail => { s with ertail := v.toNat }
  | .erctl => { s with erCorr := v.getLsbD 0, erLost := clearCount s.erLost (s.clears .erctl v) 32 }
  | .brbase n => s.modPart n fun P => { P with brbase := v &&& 0x000FFFFFFFFFFF8F }
  | .pctl n => s.writePctl n v
  | .pstat n => s.modPart n fun P => { P with err := P.err && !(s.clears (.pstat n) v).getLsbD 5 }
  | .pcores n d => s.writePcores n d v
  | .tail n q => s.writeTail n q v
  | .btb => if s.flips = [] then { s with btb := v &&& 0x000FFFFFFFFFF000 } else s
  | .bflip => s.writeBflip v
  | .bstat => { s with flipErr := s.flipErr && !(s.clears .bstat v).getLsbD 5 }
  | .lstat k => s.setLink k { s.link k with replays := clearCount (s.link k).replays (s.clears (.lstat k) v) 16 }
  | .tstat => { s with sync := { s.sync with losses := clearCount s.sync.losses (s.clears .tstat v) 16 } }
  | .hrb => { s with hrb := v &&& 0xFFFFFFFFFFFFF000 }
  | .hrstat => { s with hrErr := s.hrErr && !(s.clears .hrstat v).getLsbD 0 }
  | .pwrstat | .sens _ | .tcap _ | .erhead | .brhead _ | .nothing => s

/-- The block offset that an offset in a function's BAR0 names, R353: physical function 0 maps the whole block, virtual
function n its partition page. -/
def barOffset (fn off : Nat) : Option Nat :=
  if fn = 0 then (if off < 2 ^ 24 then some off else none)
  else if fn < 16 ∧ off < 0x1000 then some (0x100000 + 0x1000 * fn + off)
  else none

/-- The register that a host access names; none of another width than 64 bits (R353). -/
def hostReg (fn off len : Nat) : Reg :=
  match barOffset fn off with
  | some x => if len = 8 then regAt x else .nothing
  | none => .nothing

/-- Does a host access name a partition page, and so wake the module (R387)? -/
def inPage (fn off : Nat) : Bool :=
  match barOffset fn off with
  | some x => decide (0x100000 ≤ x ∧ x < 0x110000)
  | none => false

/-- Serve a host access to a register; what names no register reads 0 (R353). -/
def State.serveReg (s : State) (x : HeldReg) : State :=
  match x.val with
  | some v => s.regWrite (hostReg x.fn x.off x.len) v
  | none =>
    let (s, v) := s.regRead (hostReg x.fn x.off x.len)
    { s with out := s.out ++ [.regData x.fn x.off v] }

/-- The host accesses a register in a function's BAR0, R353, R387. Before CXL.io is up the access reaches nothing (R389).
DEDUCED, log 93. -/
def hostRegister (x : HeldReg) (s : State) : Out :=
  let serve := needing fun s => .next (s.serveReg x)
  if !s.cxlIo then .next s
  else if inPage x.fn x.off then awake x serve s else serve s

/-- REGISTER_WRITE (R7, R353): the host writes some bytes in a function's BAR0. -/
def execRegisterWrite (at_ : BarAt) (v : DWord) (s : State) : Out := hostRegister ⟨at_.fn, at_.off, at_.len, some v⟩ s

/-- The host reads in a function's BAR0. -/
def hostRegRead (fn off len : Nat) (s : State) : Out := hostRegister ⟨fn, off, len, none⟩ s

/-- POWER_EXIT_COMPLETE (R387): the exit ends, and what was held is served, each in its order. -/
def execPowerExitComplete (s : State) : Out :=
  needing (fun s =>
    if s.mgmt.exiting then
      let t : State := { s with
        mgmt := { s.mgmt with pstate := 0, a1 := [], exiting := false }, heldRegs := [], heldMsgs := [] }
      .next (s.heldRegs.foldl State.serveReg (s.heldMsgs.foldl deliver t)).serveHeld
    else .refused .notEnabled) s

end Sys2Proof.Machine
end

