-- ==== Sys2Proof/Machine/Memory.lean ====
section
/-! DEFINITION. Loads, stores, atomics, reductions and the FN family (09_lines_policies R225 to R227, R232 to R239,
R209, R210, R231; 10_ordering R246). -/

namespace Sys2Proof.Machine

/-! ## One access form -/

/-- An element access that a lane's instruction makes: its offset from the lane's address, and the rest. -/
structure MemEl where
  off : Nat := 0
  len : Nat
  val : DWord := 0
  cmp : DWord := 0
  dst : Option Nat := none
  dstLen : Nat := 0
  deriving DecidableEq, Repr

/-- Does an access return a value to its thread, or trap where it receives poison (R363)? -/
def Act.returns (a : Act) : Bool :=
  match a with
  | .ld _ | .at_ _ _ => true
  | .st | .rd _ _ | .pre | .refill _ _ | .engine _ _ => false

/-- What an access needs of its page, R324. -/
def Act.need (a : Act) : Need :=
  match a with
  | .ld _ | .pre | .refill _ _ | .engine _ _ => { rd := true }
  | .st => { wr := true }
  | .at_ _ _ | .rd _ _ => { rd := true, wr := true }

/-- Is a line written whole by stores of n bytes at these addresses (R205)? DEDUCED, log 24. -/
def coversLine (line n : Nat) (pas : List Nat) : Bool :=
  (List.range 128).all fun b => pas.any fun p => decide (p ≤ 128 * line + b) && decide (128 * line + b < p + n)

/-- The physical addresses of a group's accesses. -/
def State.resolved (s : State) (gr : Group) (n : Nat) (accs : List Acc) : List Nat :=
  accs.filterMap fun a =>
    match s.resolve gr.walkIds (s.block gr.block).ctx n a (xl := gr.memo.xl) with
    | .pa p => some p
    | .config _ | .fault _ | .walk _ _ _ => none

/-- Does an access to a poisoned (1) or lost (2) line raise PROT (R205, R363)? A store that writes the whole line clears the
poison, and one that is lost is not applied. -/
def Act.prot (act : Act) (n : Nat) (pas : List Nat) (h : Hit) (told : Nat) : Bool :=
  if told = 1 then !(act == .st && coversLine (h.pa / 128) n pas) else act.returns

/-- The faults of R205, R231 and R354 beyond translation; what a line of another chip may raise is learned with its colour. -/
def State.memCheck (s : State) (act : Act) (n : Nat) (pas : List Nat) (h : Hit) : Option Cause :=
  match h.loc with
  | .pa p =>
    match placeOf p with
    | .nothing => some .prot
    | .reg _ | .hostReg _ =>
      match act with
      | .ld _ | .st => if n = 16 then some .prot else none
      | .at_ _ _ | .rd _ _ | .pre | .refill _ _ | .engine _ _ => some .prot
    | .host _ => none
    | .dev _ _ =>
      if s.poisoned h && act.prot n pas h 1 then some .prot else none
  | .config _ | .fault _ | .walk _ _ _ => none

/-- Will the core's own copy serve an access, R209, R263? -/
def State.ownServes (s : State) (core : Nat) (act : Act) (pol : Pol) (n : Nat) (ord : Bool) (c : CLine) : Bool :=
  match act with
  | .ld _ | .pre | .refill _ _ | .engine _ _ => s.serves core pol c
  | .st | .at_ _ _ => pol == .own && (c.st == .e || c.st == .m)
  | .rd f u => pol == .own && !ord && c.st == .u && (match c.partial_ with
      | some p => p.op == f && p.u == u && p.w64 == (n == 8)
      | none => false)

/-- Accesses in flight of one hit, or accesses performed at once: device registers and the configuration page. -/
def Hit.inFlight (h : Hit) : Bool :=
  match h.loc with
  | .pa p => match placeOf p with
    | .dev _ _ | .host _ | .hostReg _ => true
    | .reg _ | .nothing => false
  | .config _ | .fault _ | .walk _ _ _ => false

/-- May a hit's access still end in PROT once it is on its way (R354, R363)? Then the group stays at its word until every
access of its instruction has returned, for a word that traps has no effect (R42). DEDUCED, log 25. -/
def State.holds (s : State) (act : Act) (h : Hit) : Bool :=
  act.returns && (match h.loc with
    | .pa p => match placeOf p with
      | .hostReg _ => true
      | .dev c _ => c != s.chip
      | .host _ | .reg _ | .nothing => false
    | .config _ | .fault _ | .walk _ _ _ => false)

/-- The access of one element at a hit. -/
def memOp (gr : Group) (ctx g work : Nat) (act : Act) (pol : Pol) (h : Hit) (hold : Bool) (e : MemEl) (whole : Bool := false) :
    Op :=
  { work, warp := h.acc.w, lane := h.acc.l, core := gr.core, agent := gr.core, ctx, act, pol, pa := h.pa + e.off,
    len := e.len, val := e.val, cmp := e.cmp, dst := e.dst, dstLen := e.dstLen, vpage := h.acc.va.toNat / 4096,
    va := h.acc.va, hold := if hold then some g else none, whole }

/-- Send an access to host register space, R354: one request of its size. -/
def State.hostAccess (s : State) (op : Op) : State :=
  let (k, s) := s.newId
  let (n, s) := s.newId
  let addr := (s.hrb.toNat / 4096 * 4096 + op.pa % 2 ^ 49) % 2 ^ 64
  let load := op.act.returns
  let m : HostMsg := if load then .regRead n addr op.len else .regWrite n addr op.len op.val
  { s with ops := s.ops.set k { op with stage := .path }, regReqs := s.regReqs.set n ⟨k, load⟩, out := s.out ++ [m] }

/-- Start the accesses of one hit that are in flight. -/
def State.startHit (s : State) (g : Nat) (gr : Group) (work : Nat) (act : Act) (pol : Pol) (hold whole : Bool)
    (els : List MemEl) (h : Hit) : State :=
  let ctx := (s.block gr.block).ctx
  els.foldl (fun s e =>
    let op := memOp gr ctx g work act pol h hold e whole
    if h.isReg then s.hostAccess op else s.startOp op) s

/-- Start the reductions of a group: those of several lanes into one element go together, in lane order (R227). -/
def State.startReds (s : State) (g : Nat) (gr : Group) (work : Nat → Nat) (act : Act) (pol : Pol) (els : Hit → List MemEl)
    (hits : List Hit) : State :=
  let ctx := (s.block gr.block).ctx
  let ops := hits.flatMap fun h => (els h).map fun e => memOp gr ctx g (work h.acc.w) act pol h false e
  (ops.map Op.pa).reverse.dedup.reverse.foldl (fun s a => s.startRed (ops.filter fun x => x.pa == a)) s

/-- A result that is there at once: it takes effect, or is kept until the group's other accesses have returned. -/
def State.result (s : State) (g : Nat) (hold : Bool) (h : Hit) (e : MemEl) (v : DWord) : State :=
  if hold then
    s.modGroup g fun gr => { gr with memo := { gr.memo with
      results := gr.memo.results ++ [⟨h.acc.w, h.acc.l, e.dst, e.dstLen, v, 0⟩] } }
  else s.modLane h.acc.w h.acc.l (·.putRes e.dst e.dstLen v)

/-- Perform the accesses of one hit that are performed at once: a device register, of 64 bits only, or the configuration
page (R353, R354, R316). -/
def State.atOnce (s : State) (g : Nat) (gr : Group) (act : Act) (hold : Bool) (els : List MemEl) (h : Hit) : State :=
  let op (e : MemEl) : Op := memOp gr 0 0 0 act .thru h false e
  match h.loc with
  | .config off =>
    els.foldl (fun s e =>
      let v := BitVec.ofNat 64 (s.configRead (s.block gr.block).ctx (off + e.off) e.len)
      s.result g hold h e ((op e).extend v)) s
  | .pa p =>
    match placeOf p with
    | .reg off =>
      els.foldl (fun s e =>
        let r := if e.len = 8 then regAt off else .nothing
        if act.returns then
          let (s, v) := s.regRead r
          s.result g hold h e (BitVec.ofNat 64 v)
        else s.regWrite r e.val) s
    | .dev _ _ | .host _ | .hostReg _ | .nothing => s
  | .fault _ | .walk _ _ _ => s

/-- Stores that write whole poisoned lines clear the poison, R205. DEDUCED, log 24. -/
def State.curePoison (s : State) (act : Act) (n : Nat) (hits : List Hit) : State :=
  if act = .st then
    let dev := hits.filter (·.isDev)
    let pas := dev.map fun h => h.pa
    (pas.map (· / 128)).dedup.foldl (fun s l =>
      if (s.hline l).poison && coversLine l n pas then s.setHline l { s.hline l with poison := false } else s) s
  else s

/-- The group's accesses have all returned: a warp with one that failed traps (R363), and for the others the results and
the zeros of the helper lanes take effect (R42, R103). -/
def State.memDone (s : State) (g : Nat) (gr : Group) (o : Ops) (d : Nat) (wr : Bool) : Out :=
  (s.resultsDone gr).raising g gr (gr.badRaises wr) fun gr s =>
    .next (((s.putResults gr).zeroHelpers gr o d).retire g gr)

/-- Perform the accesses of an instruction, lane by lane (R227), each warp's a work of its own, and go on; a group with accesses that
may still trap stays at its word. -/
def State.performAll (s : State) (g : Nat) (gr : Group) (o : Ops) (d : Nat) (fs : Bool) (act : Act) (pol : Pol) (n : Nat)
    (els : Hit → List MemEl) (hits : List Hit) : Out :=
  let flying := hits.filter (·.inFlight)
  let count (hs : List Hit) : Nat := (hs.map fun h => (els h).length).sum
  let hold := flying.any (s.holds act)
  let s := (s.curePoison act n hits).modGroup g fun x =>
    { x with memo := { gr.memo with left := if hold then count flying else 0, results := [], bad := [] } }
  let (s, works) := gr.warpIds.foldl (fun (r : State × AMap Nat) w =>
    let (work, s) := r.1.attach gr w fs (count (flying.filter fun h => h.acc.w == w))
    (s, r.2.set w work)) (s, [])
  let work (w : Nat) : Nat := works.getD w 0
  let pas := (hits.filter (·.isDev)).map Hit.pa
  let s := match act with
    | .rd _ _ => s.startReds g gr work act pol els flying
    | .ld _ | .st | .at_ _ _ | .pre | .refill _ _ | .engine _ _ =>
      flying.foldl (fun (s : State) (h : Hit) =>
        let whole := act == Act.st && h.isDev && coversLine (h.pa / 128) n pas
        s.startHit g gr (work h.acc.w) act pol hold whole (els h) h) s
  let s := works.foldl (fun s e => s.settleWork e.2) s
  let s := (hits.filter fun h => !h.inFlight).foldl (fun s h => s.atOnce g gr act hold (els h) h) s
  if hold then
    match s.groups.get? g with
    | some x => if x.memo.left = 0 then s.memDone g x o d act.need.wr else .next (s.parkGroup g .load x.memo)
    | none => .next s
  else .next ((s.zeroHelpers gr o d).retire g gr)

/-- The instruction's accesses, once every lane's has been translated and checked (R232, R266). -/
def State.memGo (s : State) (g : Nat) (gr : Group) (o : Ops) (d : Nat) (fs : Bool) (act : Act) (pol : Pol) (n : Nat)
    (els : Hit → List MemEl) (hits : List Hit) : Out :=
  colouring s g gr (hits.filter (·.isDev)) (s.ownServes gr.core act pol n false) (prot := act.prot n ((hits.filter (·.isDev)).map Hit.pa))
      fun gr s =>
    let hits := hits.filter fun h => gr.lanes.contains (h.acc.w, h.acc.l)
    let flying := hits.filter (·.inFlight)
    let busy := s.busyLines gr.core (flying.filter fun h => !h.isReg)
    if busy ≠ [] then .next (s.parkGroup g (.lines gr.core busy) gr.memo)
    else if Group.flagFull s gr fs (flying.map fun h => h.acc.w) then
      .next (s.parkGroup g (.flag ((gr.flag fs).getD 0)) gr.memo)
    else reaching g gr (fun s => s.performAll g gr o d fs act pol n els hits) s

/-- LD, ST, AT and RD without ORD: `n` is the access width, `els` the element accesses of a lane. A group that has waited
for its accesses ends its word. -/
def memForm (o : Ops) (wds : Widths) (fs : Bool) (pol : Pol) (n : Nat) (act : Act)
    (els : Warp → Lane → List MemEl) (s : State) : Out :=
  let d := if act.returns then wds.d else 0
  match s.current with
  | some (g, gr) =>
    if gr.park = .load then (s.modGroup g fun x => { x with park := .run }).memDone g gr o d act.need.wr
    else
      issueLane s false o wds fun g gr s =>
        let accs := (s.execThreads gr o.pr).map fun x => (⟨x.1, x.2, wAddr s o x, act.need⟩ : Acc)
        accessing s g gr accs n (s.memCheck act n (s.resolved gr n accs)) fun gr hits s =>
          s.memGo g gr o d fs act pol n (fun h => let W := s.warp h.acc.w; els W (W.lane h.acc.l)) hits
  | none => .next s

/-! ## LD, R234 -/

def loadForm (w : LdW) (o : Ops) (m : GMod) (s : State) : Out :=
  let n := LdW.bytes w
  memForm o ⟨regsOf n, 2, 1, 1, false, []⟩ m.fs m.pol n (.ld (LdW.signed w)) (fun _ _ =>
    (loadParts o.d n).map fun p => { off := p.1, len := p.2.1, dst := p.2.2.1, dstLen := p.2.2.2 }) s

def execLdU8 (o : Ops) (m : GMod) (s : State) : Out := loadForm .u8 o m s
def execLdS8 (o : Ops) (m : GMod) (s : State) : Out := loadForm .s8 o m s
def execLdU16 (o : Ops) (m : GMod) (s : State) : Out := loadForm .u16 o m s
def execLdS16 (o : Ops) (m : GMod) (s : State) : Out := loadForm .s16 o m s
def execLdB32 (o : Ops) (m : GMod) (s : State) : Out := loadForm .b32 o m s
def execLdB64 (o : Ops) (m : GMod) (s : State) : Out := loadForm .b64 o m s
def execLdB128 (o : Ops) (m : GMod) (s : State) : Out := loadForm .b128 o m s

/-! ## ST, R235 -/

def storeForm (w : StW) (o : Ops) (m : GMod) (s : State) : Out :=
  let n := StW.bytes w
  memForm o ⟨1, 2, 1, regsOf n, false, []⟩ m.fs m.pol n .st (fun W L =>
    (storeVals W L o.c n).map fun p => { off := p.1, len := min n 8, val := p.2 }) s

def execStB8 (o : Ops) (m : GMod) (s : State) : Out := storeForm .b8 o m s
def execStB16 (o : Ops) (m : GMod) (s : State) : Out := storeForm .b16 o m s
def execStB32 (o : Ops) (m : GMod) (s : State) : Out := storeForm .b32 o m s
def execStB64 (o : Ops) (m : GMod) (s : State) : Out := storeForm .b64 o m s
def execStB128 (o : Ops) (m : GMod) (s : State) : Out := storeForm .b128 o m s

/-! ## AT, R236 -/

def atomicForm (op : GOp) (o : Ops) (m : AtMod) (s : State) : Out :=
  let n := if m.w64 then 8 else 4
  let cas := op == .cas
  memForm o ⟨wd m.w64, 2, 1, if cas then 2 * wd m.w64 else wd m.w64, false, []⟩ m.fs m.pol n (.at_ op m.u) (fun W L =>
    let v := if op == .fadd && m.w64 then (0, srcF64 W L o.c) else atVals W L o.c cas m.w64
    [{ len := n, cmp := v.1, val := v.2, dst := Dst.vreg o.d, dstLen := wd m.w64 }]) s

def execAtAdd (o : Ops) (m : AtMod) (s : State) : Out := atomicForm .add o m s
def execAtMin (o : Ops) (m : AtMod) (s : State) : Out := atomicForm .min o m s
def execAtMax (o : Ops) (m : AtMod) (s : State) : Out := atomicForm .max o m s
def execAtAnd (o : Ops) (m : AtMod) (s : State) : Out := atomicForm .and o m s
def execAtOr (o : Ops) (m : AtMod) (s : State) : Out := atomicForm .or o m s
def execAtXor (o : Ops) (m : AtMod) (s : State) : Out := atomicForm .xor o m s
def execAtXchg (o : Ops) (m : AtMod) (s : State) : Out := atomicForm .xchg o m s
def execAtCas (o : Ops) (m : AtMod) (s : State) : Out := atomicForm .cas o m s
def execAtFadd (o : Ops) (m : AtMod) (s : State) : Out := atomicForm .fadd o m s

/-! ## RD, R223, R225, R237 -/

/-- PROT for the warps whose records would run past the end of the block's area; TAD is the end (R225). -/
def State.areaTraps (s : State) (gr : Group) (who : List (Nat × Nat)) : List Raise :=
  let B := s.block gr.block
  (gr.warpIds.foldl (fun (r : List Raise × Nat) w =>
    let n := (who.filter fun x => x.1 == w).length
    if n ≠ 0 ∧ B.ordSize < 16 * (r.2 + n) then
      (r.1 ++ [⟨w, .prot, B.ordBase + BitVec.ofNat 64 B.ordSize, 0, true⟩], r.2)
    else (r.1, r.2 + n)) ([], B.ords.length)).1

/-- The address of record i of a block's area. -/
def Block.ordAddr (B : Block) (i : Nat) : DWord := B.ordBase + BitVec.ofNat 64 (16 * i)

/-- The accesses of RD.ORD: each lane's element, and the record that the device appends for it, where the area has room. -/
def State.ordAccs (s : State) (gr : Group) (o : Ops) (need : Need) (who : List (Nat × Nat)) : List Acc :=
  let B := s.block gr.block
  ((List.range who.length).zip who).flatMap fun e =>
    let i := B.ords.length + e.1
    (⟨e.2.1, e.2.2, wAddr s o e.2, need⟩ : Acc) ::
      (if 16 * (i + 1) ≤ B.ordSize then [⟨e.2.1, e.2.2, B.ordAddr i, { wr := true }⟩] else [])

/-- Append the records of a group to its block's area, with their keys. DEDUCED, log 53. -/
def State.appendOrds (s : State) (gr : Group) (op : GOp) (m : RdMod) (val : Hit → DWord) (hits : List Hit) : State :=
  gr.warpIds.foldl (fun s w =>
    let W := s.warp w
    let rec_ (h : Hit) : OrdRec :=
      { warp := W.num, n := W.ordCount, lane := h.acc.l, pa := h.pa, op, u := m.u, w64 := m.w64, val := val h,
        vpage := h.acc.va.toNat / 4096 }
    let s := s.modBlock gr.block fun B => { B with ords := B.ords ++ (hits.filter fun h => h.acc.w == w).map rec_ }
    s.modWarp w fun W => { W with ordCount := W.ordCount + 1 }) s

/-- The device stores 16 bytes at each record's address; what they are the spec leaves to it. DEDUCED, log 53. -/
def State.storeOrds (s : State) (recs : List Hit) : State :=
  recs.foldl (fun s h =>
    let (a, s) := s.drawFree
    let (b, s) := s.drawFree
    s.devStore h.pa 16 (a.toNat + 2 ^ 64 * b.toNat)) s

/-- C of a reduction, R24, R237. -/
def rdSrc (op : GOp) (w64 : Bool) (W : Warp) (L : Lane) (x : Src) : DWord :=
  if op == .fadd && w64 then srcF64 W L x else srcW w64 W L x

/-- RD.ORD, R225. Warps that a trap leaves in the group execute the word again, so that each record has its place. -/
def orderedForm (op : GOp) (o : Ops) (m : RdMod) (s : State) : Out :=
  let n := if m.w64 then 8 else 4
  let act : Act := .rd op m.u
  issueUnless (fun gr s => !(s.block gr.block).det) s o ⟨1, 2, 1, wd m.w64, false, []⟩ fun g gr s =>
    let all := gr.lanes
    let accs := s.ordAccs gr o act.need (s.execThreads gr o.pr)
    accessing s g gr accs n (fun h => if h.acc.need.rd then s.memCheck act n [] h else s.memCheck .st 16 [] h) fun gr hits s =>
      colouring s g gr (hits.filter fun h => h.isDev && h.acc.need.rd) (s.ownServes gr.core act .thru n true)
          (prot := act.prot n []) fun gr s =>
        s.raising g gr (s.areaTraps gr (s.execThreads gr o.pr)) fun gr s =>
          if gr.lanes ≠ all then .next (s.parkGroup g .run { gr.memo with asked := true })
          else
            let val (h : Hit) : DWord := let W := s.warp h.acc.w; rdSrc op m.w64 W (W.lane h.acc.l) o.c
            let s := s.appendOrds gr op m val (hits.filter fun h => h.acc.need.rd)
            .next ((s.storeOrds (hits.filter fun h => !h.acc.need.rd)).retire g gr)

def reduceForm (op : GOp) (o : Ops) (m : RdMod) (s : State) : Out :=
  if m.ord then orderedForm op o m s
  else
    let n := if m.w64 then 8 else 4
    memForm o ⟨1, 2, 1, wd m.w64, false, []⟩ m.fs (if m.thru then .thru else .own) n (.rd op m.u) (fun W L =>
      [{ len := n, val := rdSrc op m.w64 W L o.c }]) s

def execRdAdd (o : Ops) (m : RdMod) (s : State) : Out := reduceForm .add o m s
def execRdMin (o : Ops) (m : RdMod) (s : State) : Out := reduceForm .min o m s
def execRdMax (o : Ops) (m : RdMod) (s : State) : Out := reduceForm .max o m s
def execRdAnd (o : Ops) (m : RdMod) (s : State) : Out := reduceForm .and o m s
def execRdOr (o : Ops) (m : RdMod) (s : State) : Out := reduceForm .or o m s
def execRdXor (o : Ops) (m : RdMod) (s : State) : Out := reduceForm .xor o m s
def execRdFadd (o : Ops) (m : RdMod) (s : State) : Out := reduceForm .fadd o m s

/-! ## FN, R238, R239 -/

/-- FN.FENCE: the group parks until FENCE_COMPLETE. The wider scopes push the core's partials. -/
def execFnFence (o : Ops) (scope : Scope) (s : State) : Out :=
  issueLane s false o {} fun g gr s =>
    let who := s.execThreads gr o.pr
    if gr.memo.fenced || who == [] then .next (s.retire g gr)
    else .next (s.beginFence g gr (.fence scope) (scope != .core) who)

/-- The pieces of [x, x + len) page by page: first address and number of bytes. -/
def pagePieces (x : Nat) (len : Nat) : List (Nat × Nat) :=
  if len = 0 then []
  else
    (List.range ((x % 4096 + len + 4095) / 4096)).map fun i =>
      let a := if i = 0 then x else (x / 4096 + i) * 4096
      let e := min (x + len) ((x / 4096 + i + 1) * 4096)
      (a, e - a)

/-- The length operand of an FN form. -/
def fnLen (s : State) (o : Ops) (x : Nat × Nat) : Nat := let W := s.warp x.1; (src32 W (W.lane x.2) o.b).toNat

/-- The pages that a lane's range covers, as accesses, with the bytes of each. -/
def fnPieces (s : State) (o : Ops) (x : Nat × Nat) : List (Acc × Nat) :=
  let W := s.warp x.1
  (pagePieces (src64 W (W.lane x.2) o.a).toNat (fnLen s o x)).map fun p =>
    (⟨x.1, x.2, BitVec.ofNat 64 p.1, { rd := true }⟩, p.2)

/-- The cached lines that overlap a piece of a page. -/
def pieceLines (loc : Look) (bytes : Nat) : List Nat :=
  match loc with
  | .pa p =>
    match placeOf p with
    | .dev _ _ | .host _ => (List.range ((p + bytes - 1) / 128 - p / 128 + 1)).map (p / 128 + ·)
    | .reg _ | .hostReg _ | .nothing => []
  | .config _ | .fault _ | .walk _ _ _ => []

/-- What FN.INV and FN.WB do to one core's copy of a line. DEDUCED, log 62. -/
def State.fnLine (s : State) (inv : Bool) (work core line : Nat) : State :=
  match s.cline? core line with
  | none => s
  | some c =>
    if inv then s.giveUp core line c (some work)
    else if c.dirty = [] then s
    else
      (s.setCline core line { c with st := .e, dirty := [] }).send core (homeOf line) line
        (.wb c.dirty c.data false (some work))

/-- Does a core's copy of a line send its home a message that the form waits for? -/
def State.fnSends (s : State) (inv : Bool) (core line : Nat) : Bool :=
  match s.cline? core line with
  | none => false
  | some c => if inv then c.st == .e || c.st == .m else c.dirty != []

/-- FN.INV and FN.WB. -/
def flushForm (inv allc : Bool) (o : Ops) (fs : Bool) (s : State) : Out :=
  issueLane s false o ⟨1, 2, 1, 1, false, []⟩ fun g gr s =>
    let who := s.execThreads gr o.pr
    let pieces := who.flatMap (fnPieces s o)
    accessing s g gr (pieces.map (·.1)) 1 (fun _ => none) fun gr hits s =>
      let bytes (a : Acc) : Nat := ((pieces.find? fun p => p.1 == a).map (·.2)).getD 1
      let linesOf (w : Nat) : List Nat :=
        ((hits.filter fun h => h.acc.w == w).flatMap fun h => pieceLines h.loc (bytes h.acc)).dedup
      let all := (gr.warpIds.flatMap linesOf).dedup
      let busy := all.filter (s.lineBusy gr.core)
      let cores := if allc then List.range Config.nCore else [gr.core]
      if busy ≠ [] then .next (s.parkGroup g (.lines gr.core busy) gr.memo)
      else if Group.flagFull s gr fs (gr.warpIds.filter fun w =>
          (linesOf w).any fun l => cores.any fun c => s.fnSends inv c l) then
        .next (s.parkGroup g (.flag ((gr.flag fs).getD 0)) gr.memo)
      else
        let s := gr.warpIds.foldl (fun s w =>
          let targets := (linesOf w).flatMap fun l => cores.map fun c => (c, l)
          let (work, s) := s.attach gr w fs (targets.filter fun t => s.fnSends inv t.1 t.2).length
          targets.foldl (fun s t => s.fnLine inv work t.1 t.2) s) s
        let s := if inv then cores.foldl (fun s c => s.dropCode c all) s else s
        .next (s.retire g gr)

def execFnInv (o : Ops) (allc fs : Bool) (s : State) : Out := flushForm true allc o fs s
def execFnWb (o : Ops) (fs : Bool) (s : State) : Out := flushForm false false o fs s

def PrePol.pol : PrePol → Pol
  | .own => .own
  | .lease => .lease
  | .track => .track

/-- FN.PRE: every line that can be translated is requested as a load of the policy would; nothing returns. -/
def execFnPre (o : Ops) (pol : PrePol) (fs : Bool) (s : State) : Out :=
  issueLane s false o ⟨1, 2, 1, 1, false, []⟩ fun g gr s =>
    let pieces := (s.execThreads gr o.pr).flatMap (fnPieces s o)
    probing s g gr (pieces.map (·.1)) 1 fun find s =>
      let s := s.dropWalks gr.walkIds
      let lines : List (Acc × Nat) := pieces.flatMap fun p =>
        (pieceLines (find p.1) p.2).map fun l => (p.1, l)
      let busy := (lines.map (·.2)).filter (s.lineBusy gr.core)
      if busy ≠ [] then .next (s.parkGroup g (.lines gr.core busy) gr.memo)
      else if Group.flagFull s gr fs (lines.map fun p => p.1.w) then
        .next (s.parkGroup g (.flag ((gr.flag fs).getD 0)) gr.memo)
      else
        .next ((gr.warpIds.foldl (fun s w =>
          let mine := lines.filter fun p => p.1.w == w
          let (work, s) := s.attach gr w fs mine.length
          (mine.foldl (fun s p =>
            s.startOp (memOp gr (s.block gr.block).ctx g work .pre (PrePol.pol pol) ⟨p.1, .pa (128 * p.2)⟩ false
              { len := 8 })) s).settleWork work) s).retire g gr)

end Sys2Proof.Machine
end

