-- ==== Sys2Proof/Machine/Traps.lean ====
section
/-! DEFINITION. The TR family: software traps, returning from a handler, system registers, shootdowns, halting
(14_translation_traps R329, R337, R338, R346 to R350). Taking a trap itself is in Ops. -/

namespace Sys2Proof.Machine

/-! ## TR.TRAP, TR.BKPT, R346 -/

/-- Raise a software trap in every warp with an executing thread lane. -/
def softTrap (o : Ops) (c : Cause) (s : State) : Out :=
  issueLead s false o {} fun g gr s =>
    let rs := ((s.execThreads gr o.pr).map (·.1)).dedup.map fun w =>
      let W := s.warp w
      let l := (s.leadOf gr o.pr w).getD 0
      (⟨w, c, 0, if c = .swtrap then (src32 W (W.lane l) o.a).setWidth 8 else 0, false⟩ : Raise)
    s.raising g gr rs fun gr s => .next (s.retire g gr)

def execTrTrap (o : Ops) (s : State) : Out := softTrap o .swtrap s
def execTrBkpt (o : Ops) (s : State) : Out := softTrap o .bkpt s

/-! ## TR.RETT, R347 -/

/-- TR.RETT: RES or END, warp by warp; lanes that do not execute stay in handler mode and go on. DEDUCED, log 42. -/
def execTrRett (o : Ops) (endd : Bool) (s : State) : Out :=
  issueLane s true o {} fun g gr s =>
    let ex := s.execThreads gr o.pr
    resuming s g gr ex endd fun pts s =>
      let s := s.leaveAll ex endd pts
      match s.groups.get? g with
      | some gr => .next (s.retire g gr)
      | none => .next s

/-! ## System registers, R337, R348 -/

def slbWord (c : Core) : Nat := c.budget + 2 ^ 16 * c.ramp

/-- SLS as it reads in a window, R194. -/
def slsWord (c : Core) : Nat := c.stalled + 2 ^ 32 * c.prev + (if c.limited then 2 ^ 48 else 0)

/-- The value of a system register for a warp. -/
def State.sysReg (s : State) (w : Nat) (r : SysReg) : DWord :=
  let W := s.warp w
  let C := s.ctx (s.block W.block).ctx
  let c := s.core W.core
  match r with
  | .tvb => C.tvb
  | .tcs => W.tcs
  | .tpc => W.tpc
  | .tad => W.tad
  | .tlm => W.tlm.setWidth 64
  | .tch => W.tch
  | .tsv n => W.tsv.getD n.val 0
  | .leasens => BitVec.ofNat 64 C.leasens
  | .dpri => BitVec.ofNat 64 C.dpri
  | .ctxid => BitVec.ofNat 64 (s.block W.block).ctx
  | .mxc => if c.mxcRed then 1 else 0
  | .slb => BitVec.ofNat 64 (slbWord c)
  | .sls => BitVec.ofNat 64 (slsWord (c.roll s.windowNow))
  | .weir n => s.weir.getD n.val 0

/-- MXC, SLB, SLS and WEIRn as written, by their access codes (R191, R193, R194, R229). -/
def Core.writeMxc (c : Core) (x : DWord) : Core := { c with mxcRed := x.getLsbD 0 }
def Core.writeSlb (c : Core) (x : DWord) : Core :=
  { c with budget := x.toNat % 2 ^ 11, ramp := x.toNat / 2 ^ 16 % 2 ^ 11 }
def Core.writeSls (c : Core) (x : DWord) : Core :=
  { c with stalled := x.toNat % 2 ^ 32, limited := c.limited && !x.getLsbD 48 }
def weirMask : DWord := 0xCFFF0FFF
/-- The host sets a core's SLB through the management processor, R193. -/
def hostSlb (core : Nat) (v : Word) (s : State) : Out :=
  when (decide (core < Config.nCore)) (s.modCore core fun c => (c.roll s.windowNow).writeSlb (v.setWidth 64))

def State.writeWeir (s : State) (n : Nat) (x : DWord) : State := { s with weir := s.weir.putD n (x &&& weirMask) 0 }

/-- TVB.BASE is [59:12]. -/
def tvbMask : DWord := 0x0FFFFFFFFFFFF000

/-- Write a system register for a warp. A context without MGMT writes no core or chip register. -/
def State.setSysReg (s : State) (w : Nat) (r : SysReg) (x : DWord) : State :=
  let W := s.warp w
  let ctx := (s.block W.block).ctx
  let mgmt := (s.ctx ctx).mgmt
  match r with
  | .tvb => s.modCtx ctx fun C => { C with tvb := x &&& tvbMask }
  | .tcs | .tad | .tlm | .ctxid => s
  | .tpc => s.modWarp w fun W => { W with tpc := x &&& codeMask }
  | .tch => s.modWarp w fun W => { W with tch := x &&& codeMask }
  | .tsv n => s.modWarp w fun W => { W with tsv := W.tsv.putD n.val x 0 }
  | .leasens => s.modCtx ctx fun C => { C with leasens := x.toNat % 2 ^ 16 }
  | .dpri => s.modCtx ctx fun C => { C with dpri := x.toNat % 16 }
  | .mxc => if mgmt then s.modCore W.core (·.writeMxc x) else s
  | .slb => if mgmt then s.modCore W.core fun c => (c.roll s.windowNow).writeSlb x else s
  | .sls =>
    if mgmt then s.modCore W.core fun c => (c.roll s.windowNow).writeSls (x &&& ~~~s.freshBits (.sls W.core)) else s
  | .weir n => if mgmt then s.writeWeir n.val x else s

def execTrMfs (o : Ops) (r : SysReg) (s : State) : Out :=
  issueLane s true o ⟨2, 1, 1, 1, false, []⟩ fun g gr s =>
    let s := s.zeroHelpers gr o 2
    let s := (s.execThreads gr o.pr).foldl (fun s x =>
      let v := s.sysReg x.1 r
      s.modLane x.1 x.2 (·.putD64 o.d v)) s
    .next (s.retire g gr)

/-- TR.MTS: once for each warp with an executing lane, ascending, with its lowest lane's value. -/
def execTrMts (o : Ops) (r : SysReg) (s : State) : Out :=
  issueLead s true o ⟨1, 2, 1, 1, false, []⟩ fun g gr s =>
    let ws := ((s.execThreads gr o.pr).map (·.1)).dedup
    let s := ws.foldl (fun s w =>
      let W := s.warp w
      let l := (s.leadOf gr o.pr w).getD 0
      s.setSysReg w r (src64 W (W.lane l) o.a)) s
    .next (s.retire g gr)

/-! ## TR.TLBI, R329, R349 -/

/-- A shootdown begins on this chip and, over DOMAIN, on every other chip of the launch domain, which answers when its part
is complete (R329). -/
def State.shootDown (s : State) (ctx g lo n : Nat) (all domain : Bool) : State × Nat :=
  let (k, s) := s.beginShootdown ctx g lo n all domain
  let cs := if domain then s.domain.filter (· != s.chip) else []
  let s := { s with shoots := s.shoots.modify k fun d => { d with chips := cs } }
  (cs.foldl (fun s c => s.fabric c (.tlbi k ctx lo n all)) s, k)

/-- TR.TLBI: a shootdown for each warp with an executing lane; the group waits for them. -/
def execTrTlbi (o : Ops) (domain all : Bool) (s : State) : Out :=
  issueLead s true o ⟨1, 2, 1, 1, false, []⟩ fun g gr s =>
    if gr.memo.passed then .next (s.retire g gr)
    else
      let ctx := (s.block gr.block).ctx
      let ws := ((s.execThreads gr o.pr).map (·.1)).dedup
      if ws = [] then .next (s.retire g gr)
      else
        let r := ws.foldl (fun (r : State × Nat) w =>
          let W := r.1.warp w
          let L := W.lane ((r.1.leadOf gr o.pr w).getD 0)
          let lo := (src64 W L o.a).toNat % 2 ^ 60 / 4096
          let n := (src32 W L o.b).toNat
          r.1.shootDown ctx g (if all then 0 else lo) (if all then 0 else n) all domain) (s, 0)
        .next (r.1.parkGroup g (.shootdown r.2) { gr.memo with passed := true })

/-- SHOOTDOWN_COMPLETE: nothing is left that R329 waits for. When all shootdowns of a group are complete it goes on; one
made for another chip is answered. -/
def execShootdownComplete (sd : Nat) (s : State) : Out :=
  match s.shoots.get? sd with
  | none => .refused .notEnabled
  | some d =>
    if s.shootDone sd d then
      let s := { s with shoots := s.shoots.del sd }
      match d.origin with
      | some (c, id) => .next (s.fabric c (.tlbiDone id))
      | none =>
        if s.shoots.any fun e => e.2.group == d.group && e.2.origin.isNone then .next s
        else .next (s.modGroup d.group fun gr => { gr with park := .run })
    else .refused .notEnabled

/-! ## TR.HALT, R350 -/

/-- TR.HALT: the executing lanes halt at the next word; with ONHALT their sub-core stops (R373, R374). -/
def execTrHalt (o : Ops) (s : State) : Out :=
  issueLane s true o {} fun g gr s =>
    let ex := s.execThreads gr o.pr
    if ex = [] then .next (s.retire g gr)
    else
      let s := s.modCore gr.core fun c => { c with halts := min (c.halts + 1) (2 ^ 32 - 1) }
      let rest := gr.lanes.filter fun x => !ex.contains x
      let s : State :=
        if rest = [] then
          (s.parkGroup g .halt {}).modGroup g fun x => { x with pc := gr.next }
        else
          let (n, s) := s.splitOff g gr ex .halt {}
          let s := s.modGroup n fun x => { x with pc := gr.next }
          s.retire g { gr with lanes := rest }
      .next (if (s.core gr.core).onhalt then s.stopSub gr.core gr.sub else s)

end Sys2Proof.Machine
end

