-- ==== Sys2Proof/Machine/Uniform.lean ====
section
/-! DEFINITION. Uniform arithmetic and the reads across lanes that need no meeting (06_registers_arithmetic R148 to
R150; 05_threads_control R99): once for each warp of the group, ascending. -/

namespace Sys2Proof.Machine

/-- A number into an s register. -/
def Warp.putU (W : Warp) (d : USrc) (x : Word) : Warp :=
  match d with
  | .s n => W.setS n.val x
  | .q n => W.setQ n (x != 0)
  | .k _ | .lit _ | .none => W

def uniReads (o : UOps) : List Nat := usrcS o.a 1 ++ usrcS o.b 1

/-- A uniform form of two numbers. -/
def uForm (o : UOps) (f : Word → Word → Word) (s : State) : Out :=
  warpwise s (uniReads o) fun W => W.putU o.d (f (usrc32 W o.a) (usrc32 W o.b))

def execUAdd (o : UOps) (s : State) : Out := uForm o (· + ·) s
def execUSub (o : UOps) (s : State) : Out := uForm o (· - ·) s
def execUMul (o : UOps) (s : State) : Out := uForm o (· * ·) s

/-- A U.LOG form: on numbers, or on truth values when D is q (R149). -/
def uLog (o : UOps) (f : Word → Word → Word) (g : Bool → Bool → Bool) (s : State) : Out :=
  warpwise s (uniReads o) fun W =>
    match o.d with
    | .q n => W.setQ n (g (usrcT W o.a) (usrcT W o.b))
    | .s _ | .k _ | .lit _ | .none => W.putU o.d (f (usrc32 W o.a) (usrc32 W o.b))

def execULogAnd (o : UOps) (s : State) : Out := uLog o (· &&& ·) (· && ·) s
def execULogOr (o : UOps) (s : State) : Out := uLog o (· ||| ·) (· || ·) s
def execULogXor (o : UOps) (s : State) : Out := uLog o (· ^^^ ·) (· != ·) s
def execULogAndn (o : UOps) (s : State) : Out := uLog o (fun a b => a &&& ~~~b) (fun a b => a && !b) s

def execUShfShl (o : UOps) (s : State) : Out := uForm o (fun a b => shl a b.toNat) s
def execUShfShr (o : UOps) (s : State) : Out := uForm o (fun a b => shr a b.toNat) s
def execUShfSar (o : UOps) (s : State) : Out := uForm o (fun a b => sar a b.toNat) s
def execUShfRot (o : UOps) (s : State) : Out := uForm o (fun a b => rol a b.toNat) s

/-- A U.CMP form into a q register. -/
def uCmp (o : UOps) (c : ICond) (s : State) : Out :=
  warpwise s (uniReads o) fun W =>
    let a := usrc32 W o.a
    let b := usrc32 W o.b
    match o.d with
    | .q n => W.setQ n (icond c a.toInt b.toInt a.toNat b.toNat)
    | .s _ | .k _ | .lit _ | .none => W

def execUCmpEq (o : UOps) (s : State) : Out := uCmp o .eq s
def execUCmpNe (o : UOps) (s : State) : Out := uCmp o .ne s
def execUCmpLt (o : UOps) (s : State) : Out := uCmp o .lt s
def execUCmpLe (o : UOps) (s : State) : Out := uCmp o .le s
def execUCmpGt (o : UOps) (s : State) : Out := uCmp o .gt s
def execUCmpGe (o : UOps) (s : State) : Out := uCmp o .ge s
def execUCmpLtu (o : UOps) (s : State) : Out := uCmp o .ltu s
def execUCmpGeu (o : UOps) (s : State) : Out := uCmp o .geu s

/-- q to s gives 0 or 1; s to q gives a ≠ 0; like to like copies. -/
def execUMov (o : UOps) (s : State) : Out :=
  warpwise s (usrcS o.a 1) fun W => W.putU o.d (usrc32 W o.a)

def execUSel (o : UOps) (n : Fin 8) (s : State) : Out :=
  warpwise s ((48 + n.val) :: uniReads o) fun W => W.putU o.d (if W.getQ n then usrc32 W o.a else usrc32 W o.b)

/-- A word of the parameter copy, 0 past PARAM (R150). -/
def Block.paramWord (b : Block) (off : Nat) : Word :=
  if off + 4 ≤ b.paramLen then
    BitVec.ofNat 32 (((List.range 4).map fun i => (b.param.getD (off + i) (0 : Byte)).toNat * 256 ^ i).sum)
  else 0

/-- ULD.C, R150: a warp whose offset is misaligned takes ALIGN; where helper lanes alone would trap, D receives 0 (R103).
-/
def execUldC (o : UOps) (s : State) : Out :=
  issueUni s (uniReads o) fun g gr s =>
    let off (w : Nat) : Word := usrc32 (s.warp w) o.a + usrc32 (s.warp w) o.b
    let threads (w : Nat) : Bool := (gr.lanesOf w).any fun l => s.isLive (w, l)
    let bad := gr.warpIds.filter fun w => (off w).toNat % 4 != 0
    let s := gr.warpIds.foldl (fun s w =>
      if bad.contains w then (if threads w then s else s.modWarp w fun W => W.putU o.d 0)
      else s.modWarp w fun W => W.putU o.d ((s.block W.block).paramWord (off w).toNat)) s
    s.raising g gr (bad.map fun w => ⟨w, .align, (off w).setWidth 64, 0, false⟩) fun gr s => .next (s.retire g gr)

/-- The lane that XL.RDL reads in a warp, where it executes: the lowest executing lane, or the one that B names (R148). -/
def State.rdlLane (s : State) (gr : Group) (o : Ops) (w : Nat) : Option Nat :=
  let ex := ((s.execs gr o.pr).filter (·.1 == w)).map (·.2)
  let k := if o.b = .none then ex.headD 32 else (src32 (s.warp w) {} o.b).toNat % 32
  if ex.contains k then some k else none

/-- REGECC of XL.RDL: in the register of the lane that it reads (R125, R148). -/
def State.rdlEcc (s : State) (gr : Group) (o : Ops) (b64 : Bool) : List Raise :=
  gr.warpIds.filterMap fun w =>
    (s.rdlLane gr o w).bind fun k =>
      if (gr.lanesOf w).any fun l => s.isLive (w, l) then
        ((s.warp w).badReg ((s.warp w).lane k) (srcV o.a (wd b64)) []).map fun r =>
          ⟨w, .regecc, BitVec.ofNat 64 (r + 256 * k), 0, false⟩
      else none

/-- XL.RDL, R148: the register of one executing lane into an s register; no meeting. DEDUCED, log 26. -/
def execXlRdl (o : Ops) (b64 : Bool) (s : State) : Out :=
  issueUnless (fun gr s => !allocOk s gr (srcV o.a (wd b64))) s { o with a := .none } {} fun g gr s =>
    let rs := s.rdlEcc gr o b64
    (s.reportRegs rs).raising g gr rs fun gr s =>
      .next ((gr.warpIds.foldl (fun s w =>
        match s.rdlLane gr o w with
        | some k => s.modWarp w fun W =>
            let x := if (W.badReg (W.lane k) (srcV o.a (wd b64)) []).isSome then 0 else srcW b64 W (W.lane k) o.a
            match o.d with
            | .s n => if b64 then W.setS64 n.val x else W.setS n.val (lo32 x)
            | .v _ | .p _ | .none => W
        | none => s) s).retire g gr)

end Sys2Proof.Machine
end

