-- ==== Sys2Proof/Machine/Dispatch.lean ====
section
/-! DEFINITION. One arm for each instruction and each event of the device: its meaning. -/

namespace Sys2Proof.Machine

def exec (i : Instr) (s : State) : Host.Outcome State Fault Refusal :=
  match i with
  | .clauseHeader h => Sys2Proof.Machine.execClauseHeader h s
  | .promoted w l => Sys2Proof.Machine.execPromoted w l s
  | .flagClear work => Sys2Proof.Machine.execFlagClear work s
  | .iAdd o m => Sys2Proof.Machine.execIAdd o m s
  | .iSub o m => Sys2Proof.Machine.execISub o m s
  | .iAddc o m => Sys2Proof.Machine.execIAddc o m s
  | .iSubb o m => Sys2Proof.Machine.execISubb o m s
  | .iNeg o m => Sys2Proof.Machine.execINeg o m s
  | .iAbs o m => Sys2Proof.Machine.execIAbs o m s
  | .iMin o m => Sys2Proof.Machine.execIMin o m s
  | .iMax o m => Sys2Proof.Machine.execIMax o m s
  | .iSad o m => Sys2Proof.Machine.execISad o m s
  | .imMul o part u => Sys2Proof.Machine.execImMul o part u s
  | .imMad o part u => Sys2Proof.Machine.execImMad o part u s
  | .imMadw o u => Sys2Proof.Machine.execImMadw o u s
  | .logAnd o w64 => Sys2Proof.Machine.execLogAnd o w64 s
  | .logOr o w64 => Sys2Proof.Machine.execLogOr o w64 s
  | .logXor o w64 => Sys2Proof.Machine.execLogXor o w64 s
  | .logAndn o w64 => Sys2Proof.Machine.execLogAndn o w64 s
  | .logNot o w64 => Sys2Proof.Machine.execLogNot o w64 s
  | .shShl o w64 => Sys2Proof.Machine.execShShl o w64 s
  | .shShr o w64 arith => Sys2Proof.Machine.execShShr o w64 arith s
  | .shRot o w64 => Sys2Proof.Machine.execShRot o w64 s
  | .shFun o left => Sys2Proof.Machine.execShFun o left s
  | .bfExt o sx => Sys2Proof.Machine.execBfExt o sx s
  | .bfIns o => Sys2Proof.Machine.execBfIns o s
  | .bfPopc o => Sys2Proof.Machine.execBfPopc o s
  | .bfClz o => Sys2Proof.Machine.execBfClz o s
  | .bfBrev o => Sys2Proof.Machine.execBfBrev o s
  | .bfFfs o => Sys2Proof.Machine.execBfFfs o s
  | .cmpI o c w64 k => Sys2Proof.Machine.execCmpI o c w64 k s
  | .cmpF o c fz k => Sys2Proof.Machine.execCmpF o c fz k s
  | .cmpD o c fz k => Sys2Proof.Machine.execCmpD o c fz k s
  | .prLog o pa pb pc => Sys2Proof.Machine.execPrLog o pa pb pc s
  | .mvMov o w64 => Sys2Proof.Machine.execMvMov o w64 s
  | .mvSel o ps sn w64 => Sys2Proof.Machine.execMvSel o ps sn w64 s
  | .mvPrm o => Sys2Proof.Machine.execMvPrm o s
  | .mvLea o sh u => Sys2Proof.Machine.execMvLea o sh u s
  | .cvI2f o m src dst => Sys2Proof.Machine.execCvI2f o m src dst s
  | .cvF2i o m src dst => Sys2Proof.Machine.execCvF2i o m src dst s
  | .cvF2f o m src dst => Sys2Proof.Machine.execCvF2f o m src dst s
  | .cvI2i o wrap src dst => Sys2Proof.Machine.execCvI2i o wrap src dst s
  | .fAdd o m => Sys2Proof.Machine.execFAdd o m s
  | .fSub o m => Sys2Proof.Machine.execFSub o m s
  | .fMul o m => Sys2Proof.Machine.execFMul o m s
  | .fFma o m => Sys2Proof.Machine.execFFma o m s
  | .fMin o m => Sys2Proof.Machine.execFMin o m s
  | .fMax o m => Sys2Proof.Machine.execFMax o m s
  | .fCls o => Sys2Proof.Machine.execFCls o s
  | .fhAdd2 o m => Sys2Proof.Machine.execFhAdd2 o m s
  | .fhMul2 o m => Sys2Proof.Machine.execFhMul2 o m s
  | .fhFma2 o m => Sys2Proof.Machine.execFhFma2 o m s
  | .fhMin2 o m => Sys2Proof.Machine.execFhMin2 o m s
  | .fhMax2 o m => Sys2Proof.Machine.execFhMax2 o m s
  | .dAdd o m => Sys2Proof.Machine.execDAdd o m s
  | .dMul o m => Sys2Proof.Machine.execDMul o m s
  | .dFma o m => Sys2Proof.Machine.execDFma o m s
  | .dMin o m => Sys2Proof.Machine.execDMin o m s
  | .dMax o m => Sys2Proof.Machine.execDMax o m s
  | .sfRcp o fz => Sys2Proof.Machine.execSfRcp o fz s
  | .sfRsq o fz => Sys2Proof.Machine.execSfRsq o fz s
  | .sfSqrt o fz => Sys2Proof.Machine.execSfSqrt o fz s
  | .sfExp2 o fz => Sys2Proof.Machine.execSfExp2 o fz s
  | .sfLog2 o fz => Sys2Proof.Machine.execSfLog2 o fz s
  | .sfSin o fz => Sys2Proof.Machine.execSfSin o fz s
  | .sfCos o fz => Sys2Proof.Machine.execSfCos o fz s
  | .sfTanh o fz => Sys2Proof.Machine.execSfTanh o fz s
  | .dotI8x4 o m => Sys2Proof.Machine.execDotI8x4 o m s
  | .dotI4x8 o m => Sys2Proof.Machine.execDotI4x8 o m s
  | .dotE4m3x4 o m => Sys2Proof.Machine.execDotE4m3x4 o m s
  | .dotE5m2x4 o m => Sys2Proof.Machine.execDotE5m2x4 o m s
  | .dotE2m1x8 o m => Sys2Proof.Machine.execDotE2m1x8 o m s
  | .pkCvt o m => Sys2Proof.Machine.execPkCvt o m s
  | .pkUnp o fmt fz => Sys2Proof.Machine.execPkUnp o fmt fz s
  | .pkScl o fmt => Sys2Proof.Machine.execPkScl o fmt s
  | .pkPl6 o join => Sys2Proof.Machine.execPkPl6 o join s
  | .brRel off pr => Sys2Proof.Machine.execBrRel off pr s
  | .brInd o => Sys2Proof.Machine.execBrInd o s
  | .clCall off pr => Sys2Proof.Machine.execClCall off pr s
  | .clCalli o => Sys2Proof.Machine.execClCalli o s
  | .clRet o => Sys2Proof.Machine.execClRet o s
  | .xExit o => Sys2Proof.Machine.execXExit o s
  | .xYield o => Sys2Proof.Machine.execXYield o s
  | .xNap o => Sys2Proof.Machine.execXNap o s
  | .napWake w l => Sys2Proof.Machine.execNapWake w l s
  | .yieldExpiry w l => Sys2Proof.Machine.execYieldExpiry w l s
  | .ubBra cnd off => Sys2Proof.Machine.execUbBra cnd off s
  | .ubLoop sx off => Sys2Proof.Machine.execUbLoop sx off s
  | .wvVote o sp sn mode => Sys2Proof.Machine.execWvVote o sp sn mode s
  | .wvBallot o sp sn => Sys2Proof.Machine.execWvBallot o sp sn s
  | .wvMatch o all => Sys2Proof.Machine.execWvMatch o all s
  | .wvElect o => Sys2Proof.Machine.execWvElect o s
  | .xlShfl o mode b64 => Sys2Proof.Machine.execXlShfl o mode b64 s
  | .xlRdl o b64 => Sys2Proof.Machine.execXlRdl o b64 s
  | .qSwap o dir => Sys2Proof.Machine.execQSwap o dir s
  | .qBcast o => Sys2Proof.Machine.execQBcast o s
  | .wrRed o op => Sys2Proof.Machine.execWrRed o op s
  | .wrScan o op excl => Sys2Proof.Machine.execWrScan o op excl s
  | .srRead o r => Sys2Proof.Machine.execSrRead o r s
  | .bBar o id => Sys2Proof.Machine.execBBar o id s
  | .bCbar o id => Sys2Proof.Machine.execBCbar o id s
  | .uAdd o => Sys2Proof.Machine.execUAdd o s
  | .uSub o => Sys2Proof.Machine.execUSub o s
  | .uMul o => Sys2Proof.Machine.execUMul o s
  | .uLogAnd o => Sys2Proof.Machine.execULogAnd o s
  | .uLogOr o => Sys2Proof.Machine.execULogOr o s
  | .uLogXor o => Sys2Proof.Machine.execULogXor o s
  | .uLogAndn o => Sys2Proof.Machine.execULogAndn o s
  | .uShfShl o => Sys2Proof.Machine.execUShfShl o s
  | .uShfShr o => Sys2Proof.Machine.execUShfShr o s
  | .uShfSar o => Sys2Proof.Machine.execUShfSar o s
  | .uShfRot o => Sys2Proof.Machine.execUShfRot o s
  | .uCmpEq o => Sys2Proof.Machine.execUCmpEq o s
  | .uCmpNe o => Sys2Proof.Machine.execUCmpNe o s
  | .uCmpLt o => Sys2Proof.Machine.execUCmpLt o s
  | .uCmpLe o => Sys2Proof.Machine.execUCmpLe o s
  | .uCmpGt o => Sys2Proof.Machine.execUCmpGt o s
  | .uCmpGe o => Sys2Proof.Machine.execUCmpGe o s
  | .uCmpLtu o => Sys2Proof.Machine.execUCmpLtu o s
  | .uCmpGeu o => Sys2Proof.Machine.execUCmpGeu o s
  | .uMov o => Sys2Proof.Machine.execUMov o s
  | .uSel o n => Sys2Proof.Machine.execUSel o n s
  | .uldC o => Sys2Proof.Machine.execUldC o s
  | .ldU8 o m => Sys2Proof.Machine.execLdU8 o m s
  | .ldS8 o m => Sys2Proof.Machine.execLdS8 o m s
  | .ldU16 o m => Sys2Proof.Machine.execLdU16 o m s
  | .ldS16 o m => Sys2Proof.Machine.execLdS16 o m s
  | .ldB32 o m => Sys2Proof.Machine.execLdB32 o m s
  | .ldB64 o m => Sys2Proof.Machine.execLdB64 o m s
  | .ldB128 o m => Sys2Proof.Machine.execLdB128 o m s
  | .stB8 o m => Sys2Proof.Machine.execStB8 o m s
  | .stB16 o m => Sys2Proof.Machine.execStB16 o m s
  | .stB32 o m => Sys2Proof.Machine.execStB32 o m s
  | .stB64 o m => Sys2Proof.Machine.execStB64 o m s
  | .stB128 o m => Sys2Proof.Machine.execStB128 o m s
  | .atAdd o m => Sys2Proof.Machine.execAtAdd o m s
  | .atMin o m => Sys2Proof.Machine.execAtMin o m s
  | .atMax o m => Sys2Proof.Machine.execAtMax o m s
  | .atAnd o m => Sys2Proof.Machine.execAtAnd o m s
  | .atOr o m => Sys2Proof.Machine.execAtOr o m s
  | .atXor o m => Sys2Proof.Machine.execAtXor o m s
  | .atXchg o m => Sys2Proof.Machine.execAtXchg o m s
  | .atCas o m => Sys2Proof.Machine.execAtCas o m s
  | .atFadd o m => Sys2Proof.Machine.execAtFadd o m s
  | .rdAdd o m => Sys2Proof.Machine.execRdAdd o m s
  | .rdMin o m => Sys2Proof.Machine.execRdMin o m s
  | .rdMax o m => Sys2Proof.Machine.execRdMax o m s
  | .rdAnd o m => Sys2Proof.Machine.execRdAnd o m s
  | .rdOr o m => Sys2Proof.Machine.execRdOr o m s
  | .rdXor o m => Sys2Proof.Machine.execRdXor o m s
  | .rdFadd o m => Sys2Proof.Machine.execRdFadd o m s
  | .fnFence o scope => Sys2Proof.Machine.execFnFence o scope s
  | .fenceComplete g => Sys2Proof.Machine.execFenceComplete g s
  | .fnInv o allc fs => Sys2Proof.Machine.execFnInv o allc fs s
  | .fnWb o fs => Sys2Proof.Machine.execFnWb o fs s
  | .fnPre o pol fs => Sys2Proof.Machine.execFnPre o pol fs s
  | .lsLd o w fs => Sys2Proof.Machine.execLsLd o w fs s
  | .lsSt o w fs => Sys2Proof.Machine.execLsSt o w fs s
  | .lsAt o op w64 fs => Sys2Proof.Machine.execLsAt o op w64 fs s
  | .remoteLsPerformed msg => Sys2Proof.Machine.execRemoteLsPerformed msg s
  | .hcClaim o => Sys2Proof.Machine.execHcClaim o s
  | .churnClearDone block => Sys2Proof.Machine.execChurnClearDone block s
  | .hcFree => Sys2Proof.Machine.execHcFree s
  | .hIns o vs fs => Sys2Proof.Machine.execHIns o vs fs s
  | .hPrb o fs => Sys2Proof.Machine.execHPrb o fs s
  | .hDel o fs => Sys2Proof.Machine.execHDel o fs s
  | .hAcc o vs op ty fs => Sys2Proof.Machine.execHAcc o vs op ty fs s
  | .spillAtomicReturn spill => Sys2Proof.Machine.execSpillAtomicReturn spill s
  | .hDrn o clr fs => Sys2Proof.Machine.execHDrn o clr fs s
  | .hSta o => Sys2Proof.Machine.execHSta o s
  | .mMma o tile => Sys2Proof.Machine.execMMma o tile s
  | .mSmma o tile => Sys2Proof.Machine.execMSmma o tile s
  | .sluiceWindow core => Sys2Proof.Machine.execSluiceWindow core s
  | .mSpc o fmt => Sys2Proof.Machine.execMSpc o fmt s
  | .mZero o tile => Sys2Proof.Machine.execMZero o tile s
  | .mScl o tile m => Sys2Proof.Machine.execMScl o tile m s
  | .accLd o tile f fs => Sys2Proof.Machine.execAccLd o tile f fs s
  | .accSt o tile f rm fs => Sys2Proof.Machine.execAccSt o tile f rm fs s
  | .accRd o tile x4 => Sys2Proof.Machine.execAccRd o tile x4 s
  | .accWr o tile x4 add => Sys2Proof.Machine.execAccWr o tile x4 add s
  | .cGet o => Sys2Proof.Machine.execCGet o s
  | .cWait o => Sys2Proof.Machine.execCWait o s
  | .cNtf o => Sys2Proof.Machine.execCNtf o s
  | .cNta o => Sys2Proof.Machine.execCNta o s
  | .cHeld o => Sys2Proof.Machine.execCHeld o s
  | .waitDeadline ctx colour w l => Sys2Proof.Machine.execWaitDeadline ctx colour w l s
  | .ucSet o => Sys2Proof.Machine.execUcSet o s
  | .ucSetWaitEnd g => Sys2Proof.Machine.execUcSetWaitEnd g s
  | .monitorGrant ctx colour => Sys2Proof.Machine.execMonitorGrant ctx colour s
  | .colourReleaseComplete rel => Sys2Proof.Machine.execColourReleaseComplete rel s
  | .cpTile o m => Sys2Proof.Machine.execCpTile o m s
  | .cpStore o m => Sys2Proof.Machine.execCpStore o m s
  | .cpLin o m => Sys2Proof.Machine.execCpLin o m s
  | .cpGath o m => Sys2Proof.Machine.execCpGath o m s
  | .cpSeal o => Sys2Proof.Machine.execCpSeal o s
  | .cpWait o => Sys2Proof.Machine.execCpWait o s
  | .engineStart core => Sys2Proof.Machine.execEngineStart core s
  | .engineDiscard core => Sys2Proof.Machine.execEngineDiscard core s
  | .engineComplete cmd => Sys2Proof.Machine.execEngineComplete cmd s
  | .ownershipGrant msg => Sys2Proof.Machine.execOwnershipGrant msg s
  | .gSet slot v => Sys2Proof.Machine.execGSet slot v s
  | .gClr slot => Sys2Proof.Machine.execGClr slot s
  | .rgInit o => Sys2Proof.Machine.execRgInit o s
  | .rgArv o bar => Sys2Proof.Machine.execRgArv o bar s
  | .rgWait o bar => Sys2Proof.Machine.execRgWait o bar s
  | .gatherSplit g => Sys2Proof.Machine.execGatherSplit g s
  | .wSpawn o fs => Sys2Proof.Machine.execWSpawn o fs s
  | .wLaunch o fs => Sys2Proof.Machine.execWLaunch o fs s
  | .wJoin o fs => Sys2Proof.Machine.execWJoin o fs s
  | .wDead o => Sys2Proof.Machine.execWDead o s
  | .wQstat o sel => Sys2Proof.Machine.execWQstat o sel s
  | .trTrap o => Sys2Proof.Machine.execTrTrap o s
  | .trBkpt o => Sys2Proof.Machine.execTrBkpt o s
  | .trRett o endd => Sys2Proof.Machine.execTrRett o endd s
  | .trMfs o r => Sys2Proof.Machine.execTrMfs o r s
  | .trMts o r => Sys2Proof.Machine.execTrMts o r s
  | .trTlbi o domain all => Sys2Proof.Machine.execTrTlbi o domain all s
  | .shootdownComplete sd => Sys2Proof.Machine.execShootdownComplete sd s
  | .trHalt o => Sys2Proof.Machine.execTrHalt o s
  | .pageWalkRead walk => Sys2Proof.Machine.execPageWalkRead walk s
  | .ownRequest msg => Sys2Proof.Machine.execOwnRequest msg s
  | .thruRead msg => Sys2Proof.Machine.execThruRead msg s
  | .leaseRequest msg => Sys2Proof.Machine.execLeaseRequest msg s
  | .trackRequest msg => Sys2Proof.Machine.execTrackRequest msg s
  | .applyWrite msg => Sys2Proof.Machine.execApplyWrite msg s
  | .rdLocRequest msg => Sys2Proof.Machine.execRdLocRequest msg s
  | .rdThruRequest msg => Sys2Proof.Machine.execRdThruRequest msg s
  | .pushedPartial msg => Sys2Proof.Machine.execPushedPartial msg s
  | .writeBack msg => Sys2Proof.Machine.execWriteBack msg s
  | .recall msg => Sys2Proof.Machine.execRecall msg s
  | .invalidate msg => Sys2Proof.Machine.execInvalidate msg s
  | .recallAck msg => Sys2Proof.Machine.execRecallAck msg s
  | .colourQuery msg => Sys2Proof.Machine.execColourQuery msg s
  | .dataReply msg => Sys2Proof.Machine.execDataReply msg s
  | .writeAck msg => Sys2Proof.Machine.execWriteAck msg s
  | .l1Drop agent line => Sys2Proof.Machine.execL1Drop agent line s
  | .l2Evict line => Sys2Proof.Machine.execL2Evict line s
  | .proxyEvict line => Sys2Proof.Machine.execProxyEvict line s
  | .weirTick slice => Sys2Proof.Machine.execWeirTick slice s
  | .poolReset slice => Sys2Proof.Machine.execPoolReset slice s
  | .compactorMove core sub bank => Sys2Proof.Machine.execCompactorMove core sub bank s
  | .lsCompaction core => Sys2Proof.Machine.execLsCompaction core s
  | .tileCompaction core sub => Sys2Proof.Machine.execTileCompaction core sub s
  | .dispatch part => Sys2Proof.Machine.execDispatch part s
  | .queueLate part q => Sys2Proof.Machine.execQueueLate part q s
  | .blockRetire block => Sys2Proof.Machine.execBlockRetire block s
  | .joinPush n => Sys2Proof.Machine.execJoinPush n s
  | .ordApply block => Sys2Proof.Machine.execOrdApply block s
  | .launchRecord src ctx gen image => Sys2Proof.Machine.execLaunchRecord src ctx gen image s
  | .accept src ctx gen => Sys2Proof.Machine.execAccept src ctx gen s
  | .refuse src ctx gen cause => Sys2Proof.Machine.execRefuse src ctx gen cause s
  | .start src ctx gen => Sys2Proof.Machine.execStart src ctx gen s
  | .tailRegisterWrite part q v => Sys2Proof.Machine.execTailRegisterWrite part q v s
  | .preload part desc => Sys2Proof.Machine.execPreload part desc s
  | .switch part desc => Sys2Proof.Machine.execSwitch part desc s
  | .unbind part => Sys2Proof.Machine.execUnbind part s
  | .switchFlip part => Sys2Proof.Machine.execSwitchFlip part s
  | .contextResumable ctx => Sys2Proof.Machine.execContextResumable ctx s
  | .pcoresWrite part die v => Sys2Proof.Machine.execPcoresWrite part die v s
  | .functionLevelReset n => Sys2Proof.Machine.execFunctionLevelReset n s
  | .bflip v => Sys2Proof.Machine.execBflip v s
  | .flipStart => Sys2Proof.Machine.execFlipStart s
  | .flipComplete => Sys2Proof.Machine.execFlipComplete s
  | .memrd md off => Sys2Proof.Machine.execMemrd md off s
  | .memrddata off => Sys2Proof.Machine.execMemrddata off s
  | .meminv off => Sys2Proof.Machine.execMeminv off s
  | .memwr off data => Sys2Proof.Machine.execMemwr off data s
  | .memwrptl off mask data => Sys2Proof.Machine.execMemwrptl off mask data s
  | .snpinv pa => Sys2Proof.Machine.execSnpinv pa s
  | .snpdata pa => Sys2Proof.Machine.execSnpdata pa s
  | .snpcur pa => Sys2Proof.Machine.execSnpcur pa s
  | .bisnpResponse line wr => Sys2Proof.Machine.execBisnpResponse line wr s
  | .hostRegCompletion req ok data => Sys2Proof.Machine.execHostRegCompletion req ok data s
  | .hostRegTimeout req => Sys2Proof.Machine.execHostRegTimeout req s
  | .flit link head crc slots => Sys2Proof.Machine.execFlit link head crc slots s
  | .linkDown link => Sys2Proof.Machine.execLinkDown link s
  | .timeExchange => Sys2Proof.Machine.execTimeExchange s
  | .timeMessage link offs fromMaster => Sys2Proof.Machine.execTimeMessage link offs fromMaster s
  | .lockTimeout => Sys2Proof.Machine.execLockTimeout s
  | .rillWake link => Sys2Proof.Machine.execRillWake link s
  | .powerIdleTimer => Sys2Proof.Machine.execPowerIdleTimer s
  | .wake => Sys2Proof.Machine.execWake s
  | .powerExitComplete => Sys2Proof.Machine.execPowerExitComplete s
  | .powerOn flash => Sys2Proof.Machine.execPowerOn flash s
  | .powerLoss => Sys2Proof.Machine.execPowerLoss s
  | .loadfw => Sys2Proof.Machine.execLoadfw s
  | .stagefw => Sys2Proof.Machine.execStagefw s
  | .attest => Sys2Proof.Machine.execAttest s
  | .reset => Sys2Proof.Machine.execReset s
  | .commandComplete => Sys2Proof.Machine.execCommandComplete s
  | .sensorUpdate readings => Sys2Proof.Machine.execSensorUpdate readings s
  | .strig core => Sys2Proof.Machine.execStrig core s
  | .stop core mask => Sys2Proof.Machine.execStop core mask s
  | .relh core mask => Sys2Proof.Machine.execRelh core mask s
  | .dumpWritten core sub => Sys2Proof.Machine.execDumpWritten core sub s
  | .blockRelaunch block => Sys2Proof.Machine.execBlockRelaunch block s
  | .registerWrite at_ v => Sys2Proof.Machine.execRegisterWrite at_ v s
  | .preloadComplete part => Sys2Proof.Machine.execPreloadComplete part s
  | .linkTrained link peer => Sys2Proof.Machine.execLinkTrained link peer s
  | .diesReleased ok => Sys2Proof.Machine.execDiesReleased ok s
  | .ecmpMatch core => Sys2Proof.Machine.execEcmpMatch core s
  | .placementZeroingDone launch cluster => Sys2Proof.Machine.execPlacementZeroingDone launch cluster s

end Sys2Proof.Machine
end

