-- ==== Sys2Proof/Machine/Sched.lean ====
section
/-! DEFINITION. How a step comes about: which event, group or sub-core moves next, how a clause starts and a word issues
(02_encoding R35, R36, R39, R40; 05_threads_control R95, R96). The order of the module's agents is the model's (assumption
log 6). -/

namespace Sys2Proof.Machine

/-! ## Issuing a word -/

/-- May a group that waits at its word be issued again? -/
def State.wakeable (s : State) (gr : Group) : Bool :=
  let who : List (Nat × Nat) := match decode gr.rest with
    | .ok i _ => s.execThreads gr (instrPred i)
    | .header | .truncated | .notLast | .illegal => []
  match gr.park with
  | .run => !s.waits gr
  | .walk ids => ids.all fun k => ((s.walks.get? k).map fun w => w.fault.isSome).getD true
  | .lines core ls => ls.all fun l => !s.lineBusy core l && !s.lineHeld l
  | .flag f => gr.warpIds.all fun w => decide ((s.warp w).flags.getD f 0 < 255)
  | .colours => gr.memo.waiting = 0
  | .spill => s.ops.all fun e => match e.2.act with
      | .refill g _ => (s.groups.get? g) != some gr
      | .ld _ | .st | .at_ _ _ | .rd _ _ | .pre | .engine _ _ => true
  | .load => gr.memo.left = 0
  | .arrive wide =>
    if gr.memo.asked then gr.memo.who.any fun x => s.fencedCore [x]
    else if wide then s.fencedWide gr.core gr.memo.who gr.memo.pushes
    else s.fencedCore gr.memo.who
  | .claim =>
    -- a group that has issued its HC.CLAIM stands past it until the region is clear (R165)
    !gr.memo.passed && (if gr.memo.asked then !s.freeWaits gr
      else ((s.block gr.block).churn.map fun c => !c.clearing).getD true)
  | .device ls => ls.all fun l => !s.devBusy l
  | .hold b => !(s.block b).ended
  | .gather => !s.accPending gr
  | .operands => gr.memo.needs.all fun x => !(s.pendingV x.1 x.2.1).contains x.2.2
  | .remote => s.remotes.all fun e => !gr.lanes.contains (e.2.warp, e.2.lane)
  | .engineQueue => decide ((s.core gr.core).engineQ.length + who.length ≤ Config.engineQueue)
  | .seal => who.all fun x => decide ((s.lane x.1 x.2).batches.length < 16)
  | .batch n => gr.lanes.any fun x => decide ((s.lane x.1 x.2).batches.length ≤ n)
  | .guardClear slot => gr.warpIds.all fun w => !s.slotNamed w slot
  | .ring r st bar parity => s.phasePassed gr.block r st bar parity
  | .meeting | .barrier _ | .cbarrier _ | .fence _ | .release | .monitor _ | .condition _ | .until_ _ | .sluice
  | .shootdown _ | .halt | .helpers => false

/-- May a group issue now: its context runs, its sub-core is not stopped (R374), and nothing holds it at its word? A group
inside a clause goes on while its core halts (R342). -/
def State.mayIssue (s : State) (gr : Group) : Bool :=
  s.issuing (s.block gr.block).ctx && !(s.core gr.core).stop.getLsbD gr.sub &&
    gr.warpIds.all (fun w => !(s.warp w).dbgHalt) && s.wakeable gr

/-- The state in which an instruction of `n` words executes: its group is the one that issues, and the issue is counted
(R368); an instruction that waited at its word has been counted already. -/
def State.issued (s : State) (g : Nat) (gr : Group) (i : Instr) (n : Nat) : State :=
  let x := { gr with next := gr.pc + BitVec.ofNat 64 (4 * n), word0 := gr.rest.headD 0 }
  let s := { s with focus := .group g, groups := s.groups.set g x }
  let ctx := (s.block gr.block).ctx
  if gr.park = .run ∧ gr.memo = {} then
    (s.count gr.core gr.sub 0x02 1 ctx).count gr.core gr.sub 0x03 (s.execs gr (instrPred i)).length ctx
  else s

/-- No group issues any more. -/
def State.resting (s : State) : Out := .next { s with focus := .none }

/-- A word that is no instruction of the clause traps, R36. Helper lanes alone raise nothing and stay there (R103).
DEDUCED, log 66. -/
def State.badWord (s : State) (g : Nat) (gr : Group) (c : Cause) : Out :=
  s.raising g gr (gr.allWarps c ((gr.rest.headD 0).setWidth 64)) fun gr s => .next (s.parkGroup g .helpers gr.memo)

/-- The group issues the instruction at its word: the checks of R36 in order, then its meaning. -/
def State.issue (s : State) (g : Nat) (gr : Group) : Out :=
  match decode gr.rest with
  | .header | .truncated | .notLast => andThen (s.badWord g gr .clause) State.resting
  | .illegal => andThen (s.badWord g gr .illegal) State.resting
  | .ok i n => andThen (exec i (s.issued g gr i n)) State.resting

/-! ## Starting a clause -/

/-- Lanes in the table trap at their clause address, per warp; helper lanes stay there (R331, R336). -/
def State.tableTrap (s : State) (ls : List (Nat × Nat)) (a : DWord) (c : Cause) (fetch : Bool) (tad : Nat → DWord) :
    State :=
  (ls.map (·.1)).dedup.foldl (fun s w =>
    let mine := (ls.filter (·.1 == w)).map (·.2)
    let threads := mine.filter fun l => s.isLive (w, l)
    let s := mine.foldl (fun s l => s.modLane w l fun L => { L with entry := .trapped }) s
    if threads = [] then s
    else s.takeTrap w { code := c.code, fetch, tpc := a, tad := tad w, tch := a, lanes := threads }) s

/-- TAD of the first case of R36: the transferring instruction, or the word found. -/
def State.ledTad (s : State) (ls : List (Nat × Nat)) (word : Word) (w : Nat) : DWord :=
  match (ls.filter (·.1 == w)).map fun x => (s.lane x.1 x.2).led with
  | some a :: _ => a
  | _ => word.setWidth 64

/-- Lanes wait for the translation of their clause. -/
def State.fetchWait (s : State) (ls : List (Nat × Nat)) (ctx : Nat) (va : DWord) (lvl table : Nat) (fresh : Bool) : State :=
  let (k, s) := s.startWalk ctx va { ex := true } lvl table fresh
  ls.foldl (fun s x => s.modLane x.1 x.2 fun L => { L with entry := .fetching k }) s

/-- Lanes wait for a line of code from its home. -/
def State.fetchAway (s : State) (ls : List (Nat × Nat)) (line : Nat) : State :=
  let k := s.ids + 1
  let s := s.send devAgent (homeOf line) line .devRd
  ls.foldl (fun s x => s.modLane x.1 x.2 fun L => { L with entry := .fetching k }) s

/-- A sub-core starts a clause: the header is fetched and checked, then the rest (R36, R38, R328). -/
def State.startClause (s : State) (core sub : Nat) : Out :=
  match s.formation core sub with
  | none => s.resting
  | some (b, a, _, ls) =>
    let ctx := (s.block b).ctx
    match s.fetch core ctx (s.oldCode ls) a 1 with
    | (s, .walk va l t f) => .next (s.fetchWait ls ctx va l t f)
    | (s, .line k) => .next (s.fetchAway ls k)
    | (s, .fault va c) => .next (s.tableTrap ls a c true fun _ => va)
    | (s, .words ws) =>
      let w := ws.headD 0
      if !isHeader w then .next (s.tableTrap ls a .clause false (s.ledTad ls w))
      else
        match decodeHeader w with
        | none => .next (s.tableTrap ls a .clause false fun _ => w.setWidth 64)
        | some h =>
          match s.fetch core ctx (s.oldCode ls) (a + 4) (hdrLen h) with
          | (s, .walk va l t f) => .next (s.fetchWait ls ctx va l t f)
          | (s, .line k) => .next (s.fetchAway ls k)
          | (s, .fault va c) => .next (s.tableTrap ls a c true fun _ => va)
          | (s, .words _) =>
            andThen (exec (.clauseHeader h) { s with focus := .sub core sub }) State.resting

/-! ## Events that are due -/

/-- An event as its meaning, the one that `exec` gives it. -/
abbrev Event := State → Out

/-- The event that a message is, R208. -/
def msgEvent (id : Nat) (m : Msg) : List Event :=
  match m.body with
  | .own _ | .clear true => [execOwnRequest id]
  | .thruRd _ | .devRd => [execThruRead id]
  | .leaseReq _ _ => [execLeaseRequest id]
  | .trackReq _ => [execTrackRequest id]
  | .write _ _ | .devWr _ _ _ => [execApplyWrite id]
  | .rdLoc _ => [execRdLocRequest id]
  | .rdThru _ => [execRdThruRequest id]
  | .pushed _ _ _ => [execPushedPartial id]
  | .wb _ _ _ _ => [execWriteBack id]
  | .ack => [execRecallAck id]
  | .colourQ _ _ | .recolour _ _ _ _ => [execColourQuery id]
  | .recall _ _ => [execRecall id]
  | .inval => [execInvalidate id]
  | .data _ _ _ | .grant (some _) _ _ | .grantU _ => [execDataReply id]
  | .grant none _ _ => [execOwnershipGrant id]
  | .poisoned k => if k = 0 then [execOwnershipGrant id] else [execDataReply id]
  | .wack _ _ _ _ => [execWriteAck id]
  | .chipReq _ _ r => match r with
    | .own | .ownAll => [execOwnRequest id]
    | .thru => [execThruRead id]
    | .lease _ => [execLeaseRequest id]
    | .track => [execTrackRequest id]
    | .write _ _ _ _ => [execApplyWrite id]
    | .writeBack _ _ => [execWriteBack id]
    | .colour | .recolour _ _ => [execColourQuery id]
  | .hostReq _ _ | .clear false => []

/-- Events of accesses, walks, messages and accesses to other stores. -/
def State.accessEvents (s : State) : List Event :=
  (s.works.flatMap fun e => if e.2.left = 0 then [execFlagClear e.1] else []) ++
    (s.msgs.flatMap fun e => msgEvent e.1 e.2) ++
    (s.walks.flatMap fun e => if e.2.fault.isNone then [execPageWalkRead e.1] else []) ++
    s.spills.map (fun e => execSpillAtomicReturn e.1) ++ s.remotes.map (fun e => execRemoteLsPerformed e.1) ++
    s.shoots.map fun e => execShootdownComplete e.1

/-- Events that let groups and lanes go on. -/
def State.laneEvents (s : State) : List Event :=
  (s.groups.flatMap fun e => match e.2.park with
    | .fence _ => [execFenceComplete e.1]
    | .until_ _ => [execUcSetWaitEnd e.1]
    | _ => []) ++
    s.rels.map (fun e => execColourReleaseComplete e.1) ++
    (s.mons.flatMap fun e =>
      let c := e.1 / 4096
      let k := e.1 % 4096
      execMonitorGrant c k :: e.2.condQ.flatMap fun x => match x.who with
        | .here w l => [execWaitDeadline c k w l]
        | .remote chip id => [execWaitDeadline c k (2 ^ 32 * (chip + 1) + id / 32) (id % 32)]) ++
    s.warps.flatMap fun e => e.2.lanes.flatMap fun x => match x.2.entry with
      | .runnable => [execPromoted e.1 x.1]
      | .napping _ => [execNapWake e.1 x.1]
      | .yielded _ => [execYieldExpiry e.1 x.1]
      | .flagBlocked _ | .fetching _ | .group _ | .trapped | .gone => []

/-- Events of engines, blocks, dumps. -/
def State.coreEvents (s : State) : List Event :=
  (s.cores.flatMap fun e =>
    (if e.2.engineQ = [] then [] else [execEngineStart e.1, execEngineDiscard e.1]) ++
      e.2.dumping.map fun d => execDumpWritten e.1 d.1) ++
    (s.cmds.flatMap fun e => if e.2.started then [execEngineComplete e.1, engineMoves e.1] else []) ++
    s.blocks.flatMap fun e =>
      (if e.2.zeroing then [execPlacementZeroingDone e.2.launch e.2.cluster] else []) ++
        (if e.2.churn.isSome then [execChurnClearDone e.1] else []) ++
        (if e.2.det then [execOrdApply e.1] else []) ++
        (if e.2.ended then [execBlockRelaunch e.1] else []) ++ (if e.2.retired then [] else [execBlockRetire e.1])

/-- The first of some events that can happen. -/
def State.firstOf (s : State) : List Event → Option State
  | [] => none
  | i :: is =>
    match i s with
    | .next t => some t
    | .fault _ | .refused _ => s.firstOf is

/-- What the compactors of a core may do for the request that it cannot place (R129, R154, R175). -/
def State.compactions (s : State) (q : BlockReq) (core : Nat) : List Event :=
  (s.shortOn core q).flatMap fun e => match e with
    | .bank sub bank => [execCompactorMove core sub bank]
    | .tiles sub => [execTileCompaction core sub]
    | .store => [execLsCompaction core]
    | .other => []

/-- The compactors of a partition act only where the chosen unit cannot be placed. -/
def compact (part : Nat) : Event := fun s =>
  match (s.dispatchOnce part).2.2 with
  | none => .refused .notEnabled
  | some q =>
    match s.firstOf ((s.part part).cores.flatMap (s.compactions q)) with
    | some t => .next t
    | none => .refused .notEnabled

/-- Events of partitions, contexts and queues. -/
def State.ctxEvents (s : State) : List Event :=
  (s.ctxs.flatMap fun e =>
    (match e.2.status with
      | .draining _ => [execContextResumable e.1]
      | .bound _ | .saved => []) ++ e.2.pushQ.map fun q => execJoinPush (256 * e.1 + q.1)) ++
    s.parts.flatMap fun e =>
      (if e.2.pre then [execPreloadComplete e.1] else []) ++ (if e.2.swt then [execSwitchFlip e.1] else []) ++
        (if e.2.run then
          (List.range (s.ctx e.2.ctx).qcount).map (fun q => execQueueLate e.1 q) ++
            [execDispatch e.1, compact e.1]
        else [])

/-- Events of the host link, the fabric and the management processor. -/
def State.moduleEvents (s : State) : List Event :=
  (if s.inbox = [] then [] else [execInbox]) ++
    (s.links.flatMap fun e => if e.2.up && e.2.failed then [execLinkDown e.1] else []) ++
    (if s.flips = [] then [] else [execFlipComplete, execFlipStart]) ++
    (if s.sync.lock then [execLockTimeout] else []) ++
    (if s.mgmt.stage = .ready then [execTimeExchange, execPowerIdleTimer] else []) ++
    (if s.mgmt.stage = .verify then [verifyEnds] else []) ++ (if s.mgmt.exiting then [execPowerExitComplete] else []) ++ (if s.mgmt.busy then [execCommandComplete] else [])

/-- The events that the model looks for by itself. -/
def State.events (s : State) : List Event :=
  s.accessEvents ++ s.laneEvents ++ s.coreEvents ++ s.ctxEvents ++ s.moduleEvents

/-- An event happens where it can. -/
def State.tryEvent (s : State) (i : Event) : State :=
  match i s with
  | .next t => t
  | .fault _ | .refused _ => s

/-! ## A cycle passes -/

/-- What stores beyond their sizes give up, R10, R215: copies of an L1, and lines of a slice's L2. Which of them go is the
model's choice. DESIGN CHOICE, log 22. -/
def State.overflow (s : State) : List Event :=
  let agents := ((s.caches.map fun e => e.1 % 1024).filter (· < 256)).dedup
  let l1 := agents.flatMap fun a =>
    let mine := s.caches.filter fun e => e.1 % 1024 == a
    (mine.take (mine.length - Config.l1Lines)).map fun e => execL1Drop a (e.1 / 1024)
  let kept := s.lines.filter fun e => e.2.inL2
  let l2 := ((kept.map fun e => homeOf e.1).dedup).flatMap fun n =>
    let mine := kept.filter fun e => homeOf e.1 == n
    (mine.take (mine.length - Config.l2Lines)).map fun e =>
      if (s.remoteChip e.1).isSome then execProxyEvict e.1 else execL2Evict e.1
  l1 ++ l2

/-- The events of a clock: Weir ticks and pool resets (R229, R230), promotions (R97), late queues (R310), failed links
(R363), full stores (R10), Sluice windows (R192), ECMP (R369). DESIGN CHOICE, log 63. -/
def State.clocked (s : State) : State :=
  let slices := if s.weir.any fun e => weirEn e.2 then List.range Config.nSlice else []
  let s := slices.foldl (fun s n => (s.tryEvent (execPoolReset n)).tryEvent (execWeirTick n)) s
  let s := s.warps.foldl (fun s e => e.2.lanes.foldl (fun s x =>
    if x.2.entry.isRunnable && !x.2.promoted then s.tryEvent (execPromoted e.1 x.1) else s) s) s
  let s := s.parts.foldl (fun s e =>
    if e.2.run then (List.range (s.ctx e.2.ctx).qcount).foldl (fun s q => s.tryEvent (execQueueLate e.1 q)) s else s) s
  let s := s.links.foldl (fun s e => if e.2.up && e.2.failed then s.tryEvent (execLinkDown e.1) else s) s
  let s := s.overflow.foldl State.tryEvent s
  s.cores.foldl (fun s e =>
    let s := if s.groups.any fun g => g.2.core == e.1 && g.2.park == .sluice then s.tryEvent (execSluiceWindow e.1) else s
    if e.2.ecmp.toNat = s.clock then s.tryEvent (execEcmpMatch e.1) else s) s

/-- One cycle passes, in which these lanes issued a word. DESIGN CHOICE, log 1. -/
def State.advance (s : State) (issued : List (Nat × Nat)) : State := (s.tick issued).clocked

/-! ## What moves next -/

/-- The groups that may issue and the sub-cores that may start a clause. -/
def State.choices (s : State) : List Choice :=
  (s.groups.flatMap fun e => if s.mayIssue e.2 then [Choice.issue e.1] else []) ++
    ((s.warps.map fun e => (e.2.core, e.2.sub)).dedup.flatMap fun c =>
      if (s.formation c.1 c.2).isSome then [.form c.1 c.2] else [])

/-- A word that the host writes into its own memory, while no agent of the device holds the line; one that it is asked for
it may still write (R352). DESIGN CHOICE, log 4. -/
def State.hostWrites (s : State) (pa : Nat) (b : Byte) : State :=
  let h := s.hline (pa / 128)
  match placeOf pa with
  | .host _ => if h.pkg = .i && (h.busy.map (·.host)).getD true then { s with mem := memPut s.mem pa b } else s
  | .dev _ _ | .reg _ | .hostReg _ | .nothing => s

/-- An error that the codes correct: it counts, and is recorded where ERCTL.CORR says so (R368, R376).
DESIGN CHOICE, log 65. -/
def State.corrects (s : State) (kind unit ctx start len info : Nat) : State :=
  let s := if kind = 2 ∨ kind = 3 then s.count unit 0 0x12 1 ctx else s
  if s.erCorr then s.report { kind, corr := true, ctx, unit, start, len, info } else s

/-- An event that the agenda names happens where it can. -/
def State.happens (s : State) (e : Event) : Out :=
  match e s with
  | .next t => .next t
  | .fault f => .fault f
  | .refused _ => .next s

/-- Make a choice of the agenda; one that cannot be made is passed over. DESIGN CHOICE, log 6. -/
def State.take (s : State) (c : Choice) : Out :=
  match c with
  | .event i => s.happens (exec i)
  | .issue g =>
    match s.groups.get? g with
    | some gr => if s.mayIssue gr then andThen (s.issue g gr) fun t => .next (t.advance gr.lanes) else .next s
    | none => .next s
  | .form core sub =>
    if (s.formation core sub).isSome then andThen (s.startClause core sub) fun t => .next (t.advance []) else .next s
  | .pass => .next (s.advance [])
  | .hostWrite pa b => .next (s.hostWrites pa b)
  | .upsetReg w l r =>
    .next (if r < 192 ∨ (240 ≤ r ∧ r < 248) then s.modLane w l fun L => { L with vBad := r :: L.vBad.filter (· != r) }
      else
        let n := if r < 240 then r - 192 else r - 200
        s.modWarp w fun W => { W with sBad := n :: W.sBad.filter (· != n) })
  | .upsetTile w e => .next (s.modWarp w fun W => { W with tileBad := e :: W.tileBad.filter (· != e) })
  | .upsetLs b x => .next (s.modBlock b fun B => { B with lsBad := x :: B.lsBad.filter (· != x) })
  | .upsetLine l => .next (s.setHline l { s.hline l with poison := true })
  | .upsetArray c run row col => .next (s.modCore c fun x => { x with arrayFault := some (run, row, col) })
  | .corrected kind unit ctx start len info => .next (s.corrects kind unit ctx start len info)
  | .monsAway ctx n => .next { s with monsAway := s.monsAway.putD ctx n 0 }
  | .linkSleep k => .next (s.setLink k { s.link k with asleep := (s.link k).up })
  | .hostData line => .next (s.hostAnswers line)
  | .hostRegRead fn off len => s.happens (hostRegRead fn off len)
  | .hdmBase a => .next { s with hdm := a }
  | .route chip links => .next (s.writeRoute chip links)
  | .slb core v => s.happens (hostSlb core v)
  | .engineUnit cmd write block unit => s.happens (engineUnit cmd write (block, unit))
  | .engineLine cmd line => s.happens (engineLine cmd line)
  | .auto => .next s

/-- With nothing on the agenda: an event that is due happens; else a group issues a word or a sub-core starts a clause,
each in its turn; else a cycle passes. DESIGN CHOICE, log 6. -/
def State.auto (s : State) : Out :=
  match s.firstOf s.events with
  | some t => .next t
  | none =>
    let cs := s.choices
    match cs[s.clock % cs.length]? with
    | some c => s.take c
    | none => .next (s.advance [])

/-- The next choice of the agenda: what the agenda leaves to the machine moves by itself. -/
def State.act (s : State) (c : Choice) : Out :=
  match c with
  | .auto => s.auto
  | c => s.take c

end Sys2Proof.Machine
end

