-- ==== Sys2Proof/Machine/Step.lean ====
section
/-! DEFINITION. One step of the module, and where it fetches its next instruction. -/

namespace Sys2Proof.Machine

/-- One step: the first choice of the agenda is made, or, with none, what is due moves (assumption log 6). -/
def step (s : State) : Host.Outcome State Fault Refusal :=
  match s.agenda with
  | c :: rest => { s with agenda := rest }.act c
  | [] => s.auto

/-! ## Where the next instruction is fetched -/

/-- The code address at which `State.withFetchWord` places a clause header. -/
def fetchBase : DWord := 0x10000

/-- The cached translation of that address: an entry of level 3 and a leaf of level 2 that maps the first 2^36 bytes to
themselves on this chip, for reading, writing and execution (R322, R327). -/
def fetchTlb (chip : Nat) : List Tlb :=
  [⟨1, 3, 0, BitVec.ofNat 64 ((chip * 2 ^ 33 + 8) * 4096 + 1)⟩, ⟨1, 2, 0, BitVec.ofNat 64 (chip * 2 ^ 33 * 4096 + 0x1F)⟩]

/-- The machine with an instruction placed where it fetches its next one. Context 1 runs on partition 0 with core 0, and
one block of one thread is resident there. For a clause header, the thread is runnable at the header's address, and the
core's fetch path holds the line. For any other word, the thread's group stands in a clause that is this instruction. The
next choice is to issue it. DEDUCED, log 11. -/
def State.withFetchWord (s : State) (nbits w : Nat) : State :=
  let bytes := bytesOfNat 12 (w % 2 ^ nbits)
  let word (i : Nat) : Word := BitVec.ofNat 32 (w % 2 ^ nbits / 2 ^ (32 * i))
  let hdr := isHeader (word 0)
  let b := s.ids + 1
  let wp := s.ids + 2
  let g := s.ids + 3
  let line := s.chip * 2 ^ 45 / 128 + 0x10000 / 128
  let lane : Lane := { life := .live, pc := fetchBase, entry := if hdr then .runnable else .group g, since := s.clock }
  let W : Warp :=
    { block := b, regs := 192, quarters := [(0, 0)], quarterSet := [0], lanes := [(0, lane)], tileNeed := 64 }
  let B : Block := { ctx := 1, launch := b, code := fetchBase, warps := [wp], regs := 192, tiles := 64 }
  let words := ((List.range 3).map word).take (wordCount (word 0) (word 1))
  let gr : Group := { block := b, lanes := [(wp, 0)], hdr := fetchBase, words, pc := fetchBase + 4, next := fetchBase + 4 }
  let code : AMap Byte := ((List.range 12).zip bytes).filter fun e => decide (e.2 ≠ 0)
  let s1 := s.modCore 0 fun c =>
    { c with stop := 0, halting := false, icache := if hdr then c.icache.set line code else c.icache }
  let s2 := s1.modPart 0 fun P => { P with run := true, ctx := 1, cores := [0] }
  { s2 with
    ctxs := s2.ctxs.set 1 { status := .bound 0 }, blocks := s2.blocks.set b B, warps := s2.warps.set wp W,
    groups := if hdr then s2.groups else s2.groups.set g gr,
    tlb := if hdr then fetchTlb s.chip ++ s2.tlb else s2.tlb, ids := s.ids + 3, focus := .none,
    agenda := [if hdr then .form 0 0 else .issue g] }

end Sys2Proof.Machine
end

