-- ==== Sys2Proof/Safety.lean ====
section
/-! DEFINITION. What a safe run is, and the terms that claims are stated in: when an instruction's operands may be read,
what an effect leaves alone, and the form that every state of a run keeps. -/

namespace Sys2Proof.Machine

/-! ## Runs -/

/-- One step goes on to another state. -/
def Steps (s t : State) : Prop := step s = .next t

/-- A run of some steps. -/
inductive Reaches : State → State → Prop where
  | refl (s : State) : Reaches s s
  | tail {s t u : State} : Reaches s t → Steps t u → Reaches s u

/-- A run from a state never stops: whatever it reaches has a next state. -/
def State.safe (s : State) : Prop := ∀ t, Reaches s t → ∃ u, Steps t u

/-! ## Forms that a state keeps -/

/-- Memory is in its canonical form: addresses rise strictly, and no byte listed is 0. -/
def State.memOk (s : State) : Prop := Memory.wf s.mem = true

/-- The s registers, the lanes and the lanes' v registers of a warp are listed in rising order, and p7 reads true in every
lane (R26). -/
def Warp.tidy (W : Warp) : Prop :=
  AMap.sorted W.s = true ∧ AMap.sorted W.lanes = true ∧
    ∀ x ∈ W.lanes, AMap.sorted x.2.v = true ∧ x.2.getP 7 = true

/-- Warps and groups are listed in rising order, and every warp keeps its form. -/
def State.threadsOk (s : State) : Prop :=
  AMap.sorted s.warps = true ∧ AMap.sorted s.groups = true ∧ ∀ e ∈ s.warps, e.2.tidy

/-! ## When an instruction's operands may be read -/

/-- The group g stands at an instruction of the lane set, every v register that it names is allocated (R35), and no
register that a thread lane reads holds an uncorrectable error: its predicate, and where it executes its operands (R125). -/
structure State.Ready (s : State) (g : Nat) (gr : Group) (o : Ops) (wd : Widths) : Prop where
  current : s.current = some (g, gr)
  fits : ∀ w ∈ gr.warpIds, ∀ r ∈ wd.all o, r < (s.warp w).regs
  guard : ∀ x ∈ gr.lanes, s.isLive x = true → ∀ r ∈ predReads o.pr, r ∉ (s.lane x.1 x.2).vBad
  sound : ∀ x ∈ s.execThreads gr o.pr,
    (∀ r ∈ wd.reads o, r ∉ (s.lane x.1 x.2).vBad) ∧ ∀ r ∈ wd.readsS o, r ∉ (s.warp x.1).sBad

/-- The group g stands at an instruction of the uniform set, and no s or q register that it reads holds an uncorrectable
error in a warp with a thread lane of the group (R125). -/
structure State.ReadyU (s : State) (g : Nat) (gr : Group) (reads : List Nat) : Prop where
  current : s.current = some (g, gr)
  sound : ∀ x ∈ gr.lanes, s.isLive x = true → ∀ r ∈ reads, r ∉ (s.warp x.1).sBad

/-- The lanes of a group are listed once each, and each is a lane of its warp that has not exited. -/
def State.Stands (s : State) (gr : Group) : Prop :=
  gr.lanes.Nodup ∧ ∀ x ∈ gr.lanes, (s.lane x.1 x.2).life = .live ∨ (s.lane x.1 x.2).life = .helper

/-- A lane is in the table, runnable at a clause address. -/
def State.Went (t : State) (x : Nat × Nat) (a : DWord) : Prop :=
  (t.lane x.1 x.2).entry = .runnable ∧ (t.lane x.1 x.2).pc = a

/-- A group waits for nothing at its word any more. -/
def State.atWord (s : State) (g : Nat) : State := s.modGroup g fun x => { x with park := .run }

/-- The group is thread lanes of one warp, all of which execute under the predicate. -/
structure State.Team (s : State) (g : Nat) (gr : Group) (w : Nat) (ls : List Nat) (p : Pred) : Prop where
  lanes : gr.lanes = ls.map fun l => (w, l)
  someLane : ls ≠ []
  nodup : ls.Nodup
  block : gr.block = (s.warp w).block
  run : ∀ l ∈ ls, (s.lane w l).life = .live ∧ (s.lane w l).entry = .group g ∧ s.exec? p (w, l) = true
  forms : s.threadsOk

/-! ## What an effect leaves alone -/

/-- Only warps, groups and the choice of who issues differ: memory, lines, caches, every block, core, context and
register of the module are unchanged. -/
def State.onlyThreads (s t : State) : Prop := t = { s with warps := t.warps, groups := t.groups, focus := t.focus }

/-- A lane keeps everything but these v registers and predicates. -/
def Lane.keeps (L L' : Lane) (vs : List Nat) (ps : List (Fin 8)) : Prop :=
  L' = { L with v := L'.v, vBad := L'.vBad, p := L'.p } ∧ (∀ r, r ∉ vs → L'.getV r = L.getV r) ∧
    ∀ n, n ∉ ps → L'.getP n = L.getP n

/-- A lane has gone on, within its clause or to its next one, and is as it was otherwise. -/
def Lane.goneOn (L L' : Lane) : Prop :=
  L' = { L with entry := L'.entry, pc := L'.pc, since := L'.since, promoted := L'.promoted, led := L'.led,
                oldCode := L'.oldCode }

/-- Lanes may have gone on, these v registers and predicates of each of them may differ, and nothing else of any warp
does. -/
def State.changesOnly (s t : State) (vs : Nat × Nat → List Nat) (ps : Nat × Nat → List (Fin 8)) : Prop :=
  ∀ w, t.warp w = { s.warp w with lanes := (t.warp w).lanes } ∧
    ∀ l, ∃ L, (s.lane w l).keeps L (vs (w, l)) (ps (w, l)) ∧ L.goneOn (t.lane w l)

/-- A warp that has taken a trap: its trap registers are set, lanes have entered the handler, and it is as it was
otherwise. -/
def Warp.trapped (W W' : Warp) : Prop :=
  W' = { W with lanes := W'.lanes, tcs := W'.tcs, tpc := W'.tpc, tad := W'.tad, tlm := W'.tlm, tch := W'.tch,
                stop := W'.stop, lsecc := W'.lsecc }

/-- A lane that has entered a handler, and is as it was otherwise. -/
def Lane.trapped (L L' : Lane) : Prop :=
  L' = { L with entry := L'.entry, pc := L'.pc, since := L'.since, promoted := L'.promoted, led := L'.led, handler := true }

/-- A warp keeps everything but these s registers and q registers. -/
def Warp.keeps (W W' : Warp) (ss : List Nat) (qs : List (Fin 8)) : Prop :=
  W' = { W with s := W'.s, sBad := W'.sBad, q := W'.q } ∧ (∀ r, r ∉ ss → W'.getS r = W.getS r) ∧
    ∀ n, n ∉ qs → W'.getQ n = W.getQ n

/-- The predicate that an instruction of the lane set writes as its destination. -/
def dstP : Dst → List (Fin 8)
  | .p n => [n]
  | .v _ | .s _ | .none => []

/-- The s register that an instruction of the uniform set writes. -/
def udstS : USrc → List Nat
  | .s n => [n.val]
  | .q _ | .k _ | .lit _ | .none => []

/-- The q register that an instruction of the uniform set writes. -/
def udstQ : USrc → List (Fin 8)
  | .q n => [n]
  | .s _ | .k _ | .lit _ | .none => []

end Sys2Proof.Machine
end

