-- ==== Sys2Proof/Certificates/Slice0/Obligations.lean ====
section
/-! DEFINITION. The statements for the provers. -/

/-! ## The words of the statements -/

namespace Sys2Proof.Machine

/-- What moves next with an agenda or without one: the first choice of the agenda, or, where no event is due, a choice
in its turn. The state is the one in which the choice is made. -/
def State.NextChoice (s s' : State) (c : Choice) : Prop :=
  (∃ rest, s.agenda = c :: rest ∧ s' = { s with agenda := rest }) ∨
    (s.agenda = [] ∧ s.firstOf s.events = none ∧ s.choices[s.clock % s.choices.length]? = some c ∧ s' = s)

/-- What an instruction does that computes each executing lane by itself, and then is done; a helper lane that reads a
register in error receives 0 instead (R103). -/
def State.lanes (s : State) (g : Nat) (gr : Group) (o : Ops) (wds : Widths) (f : Warp → Nat → Lane → Lane) : State :=
  ((s.atWord g).eachLane (s.execs gr o.pr) (ifGood o wds f)).retire g gr

/-- The guard of an instruction of the branch layout is good in every thread lane of its group (R30, R125). -/
def State.Guarded (s : State) (g : Nat) (gr : Group) (pr : Pred) : Prop :=
  s.current = some (g, gr) ∧ ∀ x ∈ gr.lanes, s.isLive x = true → ∀ r ∈ predReads pr, r ∉ (s.lane x.1 x.2).vBad

/-- What an instruction of the uniform set does that computes each warp by itself, and then is done. -/
def State.warpsOf (s : State) (g : Nat) (gr : Group) (f : Warp → Warp) : State :=
  (gr.warpIds.foldl (fun s w => s.modWarp w f) (s.atWord g)).retire g gr

/-- The instructions that compute each lane by itself: their operands, how many registers each operand names, and the
predicates that they write beside D. -/
def laneForm : Instr → Option (Ops × Widths × List (Fin 8))
  | .iAdd o m | .iSub o m | .iNeg o m | .iAbs o m | .iMin o m | .iMax o m =>
    some (o, ⟨wd m.w64, wd m.w64, wd m.w64, 1, false, []⟩, if m.ce then [m.co] else [])
  | .iAddc o m | .iSubb o m =>
    some (o, ⟨wd m.w64, wd m.w64, wd m.w64, 1, false, [m.ci]⟩, if m.ce then [m.co] else [])
  | .iSad o _ | .imMad o _ _ | .shFun o _ | .bfExt o _ | .bfIns o | .bfPopc o | .bfClz o | .bfBrev o | .bfFfs o
  | .mvPrm o | .fAdd o _ | .fSub o _ | .fMul o _ | .fFma o _ | .fMin o _ | .fMax o _
  | .fCls o | .fhAdd2 o _ | .fhMul2 o _ | .fhFma2 o _ | .fhMin2 o _ | .fhMax2 o _ | .sfRcp o _ | .sfRsq o _ | .sfSqrt o _
  | .sfExp2 o _ | .sfLog2 o _ | .sfSin o _ | .sfCos o _ | .sfTanh o _ | .pkUnp o _ _ | .pkScl o _ =>
    some (o, {}, [])
  | .prLog o pa pb pc => some (o, { ps := [pa, pb, pc] }, [])
  | .imMul o part _ => some (o, ⟨wd (part == .wide), 1, 1, 1, false, []⟩, [])
  | .imMadw o _ => some (o, ⟨2, 1, 1, 2, false, []⟩, [])
  | .logAnd o w64 | .logOr o w64 | .logXor o w64 | .logAndn o w64 | .logNot o w64 =>
    some (o, ⟨wd w64, wd w64, wd w64, 1, false, []⟩, [])
  | .mvSel o ps _ w64 => some (o, ⟨wd w64, wd w64, wd w64, 1, false, [ps]⟩, [])
  | .shShl o w64 | .shShr o w64 _ | .shRot o w64 | .mvMov o w64 => some (o, ⟨wd w64, wd w64, 1, 1, false, []⟩, [])
  | .cmpI o _ w64 k => some (o, ⟨1, wd w64, wd w64, 1, false, combReads k⟩, [])
  | .cmpF o _ _ k => some (o, { ps := combReads k }, [])
  | .cmpD o _ _ k => some (o, ⟨1, 2, 2, 1, false, combReads k⟩, [])
  | .mvLea o _ _ => some (o, ⟨2, 2, 1, 1, false, []⟩, [])
  | .cvI2f o _ src dst => some (o, ⟨wd dst.wide, wd src.wide, 1, 1, false, []⟩, [])
  | .cvF2i o _ src dst => some (o, ⟨wd dst.wide, wd src.wide, 1, 1, false, []⟩, [])
  | .cvF2f o _ src dst => some (o, ⟨wd dst.wide, wd src.wide, 1, 1, false, []⟩, [])
  | .cvI2i o _ src dst => some (o, ⟨wd dst.wide, wd src.wide, 1, 1, false, []⟩, [])
  | .dAdd o _ | .dMul o _ | .dFma o _ | .dMin o _ | .dMax o _ => some (o, ⟨2, 2, 2, 2, false, []⟩, [])
  | .dotI8x4 o m | .dotI4x8 o m | .dotE4m3x4 o m | .dotE5m2x4 o m | .dotE2m1x8 o m =>
    some (o, ⟨1, 1, 1, 1, m.sc, []⟩, [])
  | .pkCvt o _ => some (o, ⟨1, 1, 1, 1, true, []⟩, [])
  | .pkPl6 o _ => some (o, ⟨2, 1, 1, 1, false, []⟩, [])
  | .mSpc o _ => some (o, ⟨4, 4, 1, 1, false, []⟩, [])
  | _ => none

/-- The w-bit pattern of an operand of an I form, as an unsigned number. -/
def intPat (m : IMod) (W : Warp) (L : Lane) (x : Src) : Nat := (srcW m.w64 W L x).toNat

/-- w. -/
def intW (m : IMod) : Nat := if m.w64 then 64 else 32

/-- The operand as a signed number. -/
def intSgn (m : IMod) (W : Warp) (L : Lane) (x : Src) : Int :=
  if intPat m W L x < 2 ^ (intW m - 1) then intPat m W L x else (intPat m W L x : Int) - 2 ^ intW m

/-- The operand as a signed or, with U, an unsigned number. -/
def intNum (m : IMod) (W : Warp) (L : Lane) (x : Src) : Int :=
  if m.u then intPat m W L x else intSgn m W L x

/-- d := x mod 2^w, or x clamped to the signed or unsigned range; p[co] := c where CE asks for it. -/
def intPut (o : Ops) (m : IMod) (L : Lane) (x : Int) (c : Bool) : Lane :=
  let lo : Int := if m.u then 0 else -(2 ^ (intW m - 1))
  let hi : Int := if m.u then 2 ^ intW m - 1 else 2 ^ (intW m - 1) - 1
  let y := if m.sat then max lo (min hi x) else x
  let L := L.putDW o.d m.w64 (BitVec.ofInt 64 y)
  if m.ce then L.setP m.co c else L

/-- An FP32 operand as the F family takes it: negation flips the sign, and under FZ a subnormal is a zero of its sign (R85,
R132). -/
def fpArg (fz neg : Bool) (x : Word) : Word :=
  let y : Word := if neg then x ^^^ 0x80000000 else x
  if fz ∧ y.toNat % 2 ^ 31 < 2 ^ 23 then y &&& 0x80000000 else y

/-- Is an FP32 pattern a NaN (R74)? -/
def fpNan (x : Word) : Prop := 0x7F800000 < x.toNat % 2 ^ 31

/-- Where an FP32 number that is no NaN stands among the others; the two zeros stand at one place (R73). -/
def fpRank (x : Word) : Int := if 2 ^ 31 ≤ x.toNat then -((x.toNat % 2 ^ 31 : Nat) : Int) else x.toNat

/-- Does F.MIN take b rather than a: is it below, -0 below +0 (R142)? -/
def fpBelow (b a : Word) : Prop := fpRank b < fpRank a ∨ (b = 0x80000000 ∧ a = 0)

/-- The low bits of a pattern as an integer of a type (R141). -/
def intOfType (t : ITy) (x : DWord) : Int :=
  let n : Nat := match t with
    | .s8 | .u8 => 8
    | .s16 | .u16 => 16
    | .s32 | .u32 => 32
    | .s64 | .u64 => 64
  let q : Nat := x.toNat % 2 ^ n
  if (t = .s8 ∨ t = .s16 ∨ t = .s32 ∨ t = .s64) ∧ 2 ^ (n - 1) ≤ q then (q : Int) - 2 ^ n else q

/-- The smallest and the largest integer of a type. -/
def leastOf : ITy → Int
  | .s8 => -128
  | .s16 => -32768
  | .s32 => -2147483648
  | .s64 => -9223372036854775808
  | .u8 | .u16 | .u32 | .u64 => 0

def mostOf : ITy → Int
  | .s8 => 127
  | .s16 => 32767
  | .s32 => 2147483647
  | .s64 => 9223372036854775807
  | .u8 => 255
  | .u16 => 65535
  | .u32 => 4294967295
  | .u64 => 18446744073709551615

/-- The instructions that compute each warp by itself, and the s registers that they read. -/
def uniForm : Instr → Option (UOps × List Nat)
  | .uAdd o | .uSub o | .uMul o | .uLogAnd o | .uLogOr o | .uLogXor o | .uLogAndn o | .uShfShl o | .uShfShr o
  | .uShfSar o | .uShfRot o | .uCmpEq o | .uCmpNe o | .uCmpLt o | .uCmpLe o | .uCmpGt o | .uCmpGe o | .uCmpLtu o
  | .uCmpGeu o => some (o, usrcS o.a 1 ++ usrcS o.b 1)
  | .uSel o n => some (o, (48 + n.val) :: (usrcS o.a 1 ++ usrcS o.b 1))
  | .uMov o => some (o, usrcS o.a 1)
  | _ => none

/-- A lane of a warp has entered the handler of a trap with this code, at TVB.BASE x 4,096 + 128 x CODE. -/
def State.InHandler (s t : State) (w l code : Nat) : Prop :=
  (t.lane w l).handler = true ∧ (t.lane w l).life = .live ∧
    t.Went (w, l) (((s.ctx (s.block (s.warp w).block).ctx).tvb &&& 0x0FFFFFFFFFFFF000) + BitVec.ofNat 64 (128 * code))

/-- A lane's v registers and predicates. -/
def Lane.regsAre (L L' : Lane) : Prop := L'.v = L.v ∧ L'.p = L.p

/-- The lanes of one warp that execute a meeting instruction are those that its masks name, and no other group of the
block stands in a meeting at the word: the meeting is complete as they arrive (R106). -/
structure State.Meets (s : State) (g : Nat) (gr : Group) (o : Ops) (wds : Widths) (w : Nat) (ls : List Nat) : Prop where
  ready : s.Ready g gr o wds
  team : s.Team g gr w ls o.pr
  rising : sortNat ls = ls
  small : ∀ l ∈ ls, l < 32
  fresh : gr.memo = {}
  alone : ∀ e ∈ s.groups, e.1 ≠ g → e.2.block = gr.block → e.2.atMeeting gr.pc = false
  uncounted : ∀ l, (gr.pc, l) ∉ (s.warp w).counts

/-- An instruction that makes element accesses: its operands, the flag it attaches to, its policy, its width in bytes, what
it does, and the elements of a lane (R233 to R237). -/
structure AccessForm where
  o : Ops
  wds : Widths
  fs : Bool
  pol : Pol
  n : Nat
  act : Act
  els : Warp → Lane → List MemEl

def loadAs (w : LdW) (o : Ops) (m : GMod) : AccessForm :=
  ⟨o, ⟨regsOf (LdW.bytes w), 2, 1, 1, false, []⟩, m.fs, m.pol, LdW.bytes w, .ld (LdW.signed w), fun _ _ =>
    (loadParts o.d (LdW.bytes w)).map fun p => { off := p.1, len := p.2.1, dst := p.2.2.1, dstLen := p.2.2.2 }⟩

def storeAs (w : StW) (o : Ops) (m : GMod) : AccessForm :=
  ⟨o, ⟨1, 2, 1, regsOf (StW.bytes w), false, []⟩, m.fs, m.pol, StW.bytes w, .st, fun W L =>
    (storeVals W L o.c (StW.bytes w)).map fun p => { off := p.1, len := min (StW.bytes w) 8, val := p.2 }⟩

def atomicAs (op : GOp) (o : Ops) (m : AtMod) : AccessForm :=
  ⟨o, ⟨wd m.w64, 2, 1, if op = .cas then 2 * wd m.w64 else wd m.w64, false, []⟩, m.fs, m.pol, if m.w64 then 8 else 4,
    .at_ op m.u, fun W L =>
    let v := if op == .fadd && m.w64 then (0, srcF64 W L o.c) else atVals W L o.c (op == .cas) m.w64
    [{ len := if m.w64 then 8 else 4, cmp := v.1, val := v.2, dst := Dst.vreg o.d, dstLen := wd m.w64 }]⟩

def reduceAs (op : GOp) (o : Ops) (m : RdMod) : Option AccessForm :=
  if m.ord then none
  else some ⟨o, ⟨1, 2, 1, wd m.w64, false, []⟩, m.fs, if m.thru then .thru else .own, if m.w64 then 8 else 4, .rd op m.u,
    fun W L => [{ len := if m.w64 then 8 else 4, val := if op == .fadd && m.w64 then srcF64 W L o.c else srcW m.w64 W L o.c }]⟩

/-- LD, ST, AT, and RD without ORD. -/
def accessForm : Instr → Option AccessForm
  | .ldU8 o m => some (loadAs .u8 o m)
  | .ldS8 o m => some (loadAs .s8 o m)
  | .ldU16 o m => some (loadAs .u16 o m)
  | .ldS16 o m => some (loadAs .s16 o m)
  | .ldB32 o m => some (loadAs .b32 o m)
  | .ldB64 o m => some (loadAs .b64 o m)
  | .ldB128 o m => some (loadAs .b128 o m)
  | .stB8 o m => some (storeAs .b8 o m)
  | .stB16 o m => some (storeAs .b16 o m)
  | .stB32 o m => some (storeAs .b32 o m)
  | .stB64 o m => some (storeAs .b64 o m)
  | .stB128 o m => some (storeAs .b128 o m)
  | .atAdd o m => some (atomicAs .add o m)
  | .atMin o m => some (atomicAs .min o m)
  | .atMax o m => some (atomicAs .max o m)
  | .atAnd o m => some (atomicAs .and o m)
  | .atOr o m => some (atomicAs .or o m)
  | .atXor o m => some (atomicAs .xor o m)
  | .atXchg o m => some (atomicAs .xchg o m)
  | .atCas o m => some (atomicAs .cas o m)
  | .atFadd o m => some (atomicAs .fadd o m)
  | .rdAdd o m => reduceAs .add o m
  | .rdMin o m => reduceAs .min o m
  | .rdMax o m => reduceAs .max o m
  | .rdAnd o m => reduceAs .and o m
  | .rdOr o m => reduceAs .or o m
  | .rdXor o m => reduceAs .xor o m
  | .rdFadd o m => reduceAs .fadd o m
  | _ => none

/-- What a group remembers of an access that it has translated before (R328) leads to p too. -/
def Group.keptAt (gr : Group) (a : Acc) (p : Nat) : Prop :=
  ∀ f, gr.memo.xl.get? (xlKey a.w a.l (a.va.toNat / 4096) a.need) = some f → f * 4096 + a.va.toNat % 4096 = p

/-- A lane's address leads to device memory of this chip at p, and nothing holds an access of the group up there. -/
structure State.Open (s : State) (gr : Group) (n : Nat) (a : Acc) (p : Nat) : Prop where
  resolves : s.resolve [] (s.block gr.block).ctx n a = .pa p
  kept : gr.keptAt a p
  own : s.ownPa p = true
  sound : (s.hline (p / 128)).poison = false
  free : s.lineBusy gr.core (p / 128) = false

/-- The lanes' colours ask for no monitor: in handler mode, or all colours known to be 0 (R263, R332). -/
def State.uncoloured (s : State) (gr : Group) (pr : Pred) : Prop :=
  gr.memo.waiting = 0 ∧ (gr.handler = true ∨ ∀ x ∈ s.execThreads gr pr,
    gr.memo.colours.get? (32 * x.1 + x.2) = some 0 ∧ gr.memo.bad.get? (32 * x.1 + x.2) = none)

/-- A message is due at its home slice on this chip, its line lies idle there, no holder has it, and its class is not metered. -/
structure State.Idle (s : State) (id : Nat) (m : Msg) : Prop where
  msg : s.msgs.get? id = some m
  due : s.deliverable id m = true
  own : s.remoteChip m.line = none ∧ isHostLine m.line = false ∧ m.dst = homeOf m.line
  idle : (s.hline m.line).busy = none ∧ (s.hline m.line).queue = [] ∧ (s.hline m.line).pkg = .i
  unheld : (s.hline m.line).st = 0 ∧ (s.hline m.line).hs = false
  open_ : weirEn (s.weirOf m.cls) = false ∧ (s.slice (m.dst - 1000)).port = []
  sorted : AMap.sorted s.msgs = true ∧ AMap.sorted s.lines = true ∧ AMap.sorted s.slices = true ∧
    AMap.sorted s.ops = true ∧ s.threadsOk

/-- Lx of a line as its home knows it: for a line that comes into the L2, its slice's horizon (R219). -/
def State.lxAt (s : State) (m : Msg) : Nat :=
  if (s.hline m.line).inL2 then (s.hline m.line).lx else (s.slice (m.dst - 1000)).horizon

/-- The home has served a request: it is gone, one reply goes back, the line lies idle again with these package holders, and
every other line is as it was. -/
def State.served (s t : State) (id : Nat) (m : Msg) (b : Body) (p : Pkg) : Prop :=
  t.msgs = (s.msgs.del id).set (s.ids + 1) { src := m.dst, dst := m.src, line := m.line, body := b } ∧ t.ops = s.ops ∧
    (t.hline m.line).busy = none ∧ (t.hline m.line).queue = [] ∧ (t.hline m.line).pkg = p ∧
    ∀ line, line ≠ m.line → t.hline line = s.hline line

/-- LS.LD, LS.ST and LS.AT: their operands, widths, flag, bytes, effect and elements (R169). -/
structure LocalForm where
  o : Ops
  wds : Widths
  fs : Bool
  n : Nat
  act : LsAct
  els : Warp → Lane → Word → List LsElem

def localForm : Instr → Option LocalForm
  | .lsLd o w fs => some ⟨o, ⟨regsOf (LdW.bytes w), 1, 1, 1, false, []⟩, fs, LdW.bytes w, .ld (LdW.signed w), fun _ _ x =>
      (loadParts o.d (LdW.bytes w)).map fun p =>
        { x := x + BitVec.ofNat 32 p.1, n := p.2.1, dst := p.2.2.1, dstLen := p.2.2.2 }⟩
  | .lsSt o w fs => some ⟨o, ⟨1, 1, 1, regsOf (StW.bytes w), false, []⟩, fs, StW.bytes w, .st, fun W L x =>
      (storeVals W L o.c (StW.bytes w)).map fun p =>
        { x := x + BitVec.ofNat 32 p.1, n := min (StW.bytes w) 8, val := p.2 }⟩
  | .lsAt o op w64 fs => some ⟨o, ⟨wd w64, 1, 1, if op = .cas then 2 * wd w64 else wd w64, false, []⟩, fs, if w64 then 8 else 4,
      .at_ op, fun W L x =>
      let v := atVals W L o.c (op == .cas) w64
      [{ x, n := if w64 then 8 else 4, cmp := v.1, val := v.2, dst := Dst.vreg o.d, dstLen := wd w64 }]⟩
  | _ => none

/-- The runs that a compactor of a bank, of a sub-core's tiles or of a store looks at: owner, base, length. -/
def State.bankRuns (s : State) (core sub bank : Nat) : List (Nat × Nat × Nat) :=
  s.warps.filterMap fun e =>
    if e.2.core = core ∧ e.2.sub = sub ∧ s.warpHere e.2 then (e.2.quarters.get? bank).map fun a => (e.1, a, e.2.regs / 8)
    else none

def State.tileRuns (s : State) (core sub : Nat) : List (Nat × Nat × Nat) :=
  s.warps.filterMap fun e =>
    if e.2.core = core ∧ e.2.sub = sub ∧ s.warpHere e.2 ∧ e.2.tileNeed ≠ 0 then some (e.1, e.2.tileBase, e.2.tileNeed)
    else none

def State.storeRuns (s : State) (core : Nat) : List (Nat × Nat × Nat) :=
  s.blocks.filterMap fun e =>
    if e.2.core = core ∧ s.holdsStore e.1 ∧ e.2.lsGran ≠ 0 then some (e.1, e.2.lsBase, e.2.lsGran) else none

/-- Can a run of a list move down past the others? -/
def canSink (runs : List (Nat × Nat × Nat)) (x : Nat × Nat × Nat) : Prop :=
  x ∈ runs ∧ (lowerPlace ((runs.filter fun y => y.1 != x.1).map fun y => (y.2.1, y.2.2)) x.2.1 x.2.2).isSome = true

/-- A partition with no command under way. -/
def Partn.atRest (P : Partn) : Prop := P.pre = false ∧ P.swt = false ∧ P.drn = false ∧ P.err = false ∧ P.waiting = []

end Sys2Proof.Machine

open Sys2Proof Sys2Proof.Machine

/-! ## Steps and encodings -/

/-- Where it is a group's turn, the group may issue, and its word decodes, a step is the meaning of the decoded
instruction in the state that counts the issue (R36, R368), and then a cycle passes in which the group's lanes
issued. Where it is a sub-core's turn to start a clause, and the words of the clause are fetched, a step is the
meaning of its header (R36, R38). A word of the clause that is no instruction traps at it: ILLEGAL, or CLAUSE where it is a
header, runs past the clause or transfers control before its end; and a word at a clause start that is no header traps as
CLAUSE, with TAD the instruction that led there where one did (R35, R36). Whose turn it is, and that a cycle passes with the
issue, are the model's own (logs 1 and 6). -/
def Obligations.StepRunsDecoded : Prop :=
  (∀ (s s' : State) (g : Nat) (gr : Group) (i : Instr) (n : Nat), s.NextChoice s' (.issue g) →
    s'.groups.get? g = some gr → s'.mayIssue gr = true → decode gr.rest = .ok i n →
    step s = andThen (andThen (exec i (s'.issued g gr i n)) State.resting) fun t => .next (t.advance gr.lanes)) ∧
  (∀ (s s' s1 s2 : State) (core sub b : Nat) (a : DWord) (hd : Bool) (ls : List (Nat × Nat)) (w : Word) (h : ClauseHdr)
    (ws : List Word), s.NextChoice s' (.form core sub) → s'.formation core sub = some (b, a, hd, ls) →
    s'.fetch core (s'.block b).ctx (s'.oldCode ls) a 1 = (s1, .words [w]) → isHeader w = true → decodeHeader w = some h →
    s1.fetch core (s'.block b).ctx (s1.oldCode ls) (a + 4) (hdrLen h) = (s2, .words ws) →
    step s = andThen (andThen (exec (.clauseHeader h) { s2 with focus := .sub core sub }) State.resting)
      fun t => .next (t.advance [])) ∧
  (∀ (s s' : State) (g : Nat) (gr : Group) (w code : Nat) (ls : List Nat), s.NextChoice s' (.issue g) →
    s'.groups.get? g = some gr → s'.mayIssue gr = true → s'.Team g gr w ls ⟨7, false⟩ → s'.holdsTraps w = false →
    (decode gr.rest = .illegal ∧ code = 1) ∨
      ((decode gr.rest = .header ∨ decode gr.rest = .truncated ∨ decode gr.rest = .notLast) ∧ code = 2) →
    ∃ t, step s = .next (t.advance gr.lanes) ∧ t.mem = s'.mem ∧ (t.warp w).tcs = BitVec.ofNat 64 code ∧
      (t.warp w).tpc = gr.pc &&& 0x0FFFFFFFFFFFFFFC ∧ (t.warp w).tch = gr.hdr &&& 0x0FFFFFFFFFFFFFFC ∧
      (t.warp w).tad = (gr.rest.headD 0).setWidth 64 ∧ (t.warp w).tlm = laneMask ls ∧ (s'.warp w).trapped (t.warp w) ∧
      (∀ l ∈ ls, s'.InHandler t w l code ∧ (s'.lane w l).trapped (t.lane w l)) ∧ ∀ v, v ≠ w → t.warp v = s'.warp v) ∧
  ∀ (s s' s1 : State) (core sub b w : Nat) (a : DWord) (hd : Bool) (ls : List Nat) (x : Word),
    s.NextChoice s' (.form core sub) → s'.formation core sub = some (b, a, hd, ls.map fun l => (w, l)) →
    s'.fetch core (s'.block b).ctx (s'.oldCode (ls.map fun l => (w, l))) a 1 = (s1, .words [x]) →
    (isHeader x = true → decodeHeader x = none) → s'.threadsOk → s'.holdsTraps w = false →
    (∀ l ∈ ls, (s'.lane w l).life = .live) →
    ∃ t, step s = .next (t.advance []) ∧ (t.warp w).tcs = 2 ∧ (t.warp w).tpc = a &&& 0x0FFFFFFFFFFFFFFC ∧
      (t.warp w).tad = (if isHeader x then x.setWidth 64 else ((s'.lane w (ls.headD 0)).led).getD (x.setWidth 64)) ∧
      (t.warp w).tlm = laneMask ls ∧ ∀ l ∈ ls, s'.InHandler t w l 2

/-- Words written out from the spec's encodings decode to the instructions that they stand for. -/
def Obligations.DecodeWords : Prop :=
  decodeHeader 0xFC007FCE = some ⟨1, none, none, 7, false⟩ ∧
    decode [0x020603E2] = .ok (.iAdd ⟨.v 3, .v 1, .k 1, .none, ⟨7, false⟩⟩ ⟨false, false, false, false, 0, 0⟩) 1 ∧
    decode [0x84208300] = .ok (.uAdd ⟨.s 2, .s 2, .s 3⟩) 1

/-- Encoding a well-formed instruction word and decoding it gives the instruction back, and the number of its words.
A header's word decodes to the header, for every header that R36 and R38 admit. -/
def Obligations.DecodeEncode : Prop :=
  (∀ i : Instr, WellFormed i → (i.laneRaw.isSome || i.uniRaw.isSome) = true →
    decode (encode i) = .ok i (encode i).length ∧ (encode i).length ≤ 3) ∧
  ∀ h : ClauseHdr, (Instr.clauseHeader h).wf = true → isHeader h.word = true ∧ decodeHeader h.word = some h

/-! ## Invariants -/

/-- Every step keeps memory in its canonical form. The canonical form is the model's own (log 4). -/
def Obligations.MemOkKept : Prop := ∀ s t : State, s.memOk → step s = .next t → t.memOk

/-- Every step keeps the form of every warp: its registers are listed in order, and p7 reads true in every lane
(R26). The listing in order, and p7 as a stored bit, are the model's own (log 3). -/
def Obligations.ThreadsOkKept : Prop := ∀ s t : State, s.threadsOk → step s = .next t → t.threadsOk

/-- After reset memory has its canonical form and lists nothing, and no lane is resident. The canonical form is the
model's own (log 4). -/
def Obligations.ResetForms : Prop :=
  State.reset.memOk ∧ State.reset.threadsOk ∧ State.reset.mem = [] ∧ State.reset.warps = []

/-! ## Lane arithmetic -/

/-- The I family computes what R133 says in every executing lane: exact sums and differences, wrapped or clamped, with the
carry of bit w - 1 and the borrow of an unsigned comparison. -/
def Obligations.IntegerForms : Prop :=
  ∀ (o : Ops) (m : IMod) (s : State) (g : Nat) (gr : Group),
    (s.Ready g gr o ⟨wd m.w64, wd m.w64, wd m.w64, 1, false, []⟩ →
      (WellFormed (.iAdd o m) → exec (.iAdd o m) s = .next (s.lanes g gr o ⟨wd m.w64, wd m.w64, wd m.w64, 1, false, []⟩ fun W _ L =>
        intPut o m L (intNum m W L o.a + intNum m W L o.b) (decide (2 ^ intW m ≤ intPat m W L o.a + intPat m W L o.b)))) ∧
      (WellFormed (.iSub o m) → exec (.iSub o m) s = .next (s.lanes g gr o ⟨wd m.w64, wd m.w64, wd m.w64, 1, false, []⟩ fun W _ L =>
        intPut o m L (intNum m W L o.a - intNum m W L o.b) (decide (intPat m W L o.a < intPat m W L o.b)))) ∧
      (WellFormed (.iNeg o m) → exec (.iNeg o m) s = .next (s.lanes g gr o ⟨wd m.w64, wd m.w64, wd m.w64, 1, false, []⟩ fun W _ L =>
        intPut o m L (-(intSgn m W L o.a)) false)) ∧
      (WellFormed (.iAbs o m) → exec (.iAbs o m) s = .next (s.lanes g gr o ⟨wd m.w64, wd m.w64, wd m.w64, 1, false, []⟩ fun W _ L =>
        intPut o m L |intSgn m W L o.a| false)) ∧
      (WellFormed (.iMin o m) → exec (.iMin o m) s = .next (s.lanes g gr o ⟨wd m.w64, wd m.w64, wd m.w64, 1, false, []⟩ fun W _ L =>
        intPut o m L (min (intNum m W L o.a) (intNum m W L o.b)) false)) ∧
      (WellFormed (.iMax o m) → exec (.iMax o m) s = .next (s.lanes g gr o ⟨wd m.w64, wd m.w64, wd m.w64, 1, false, []⟩ fun W _ L =>
        intPut o m L (max (intNum m W L o.a) (intNum m W L o.b)) false))) ∧
    (s.Ready g gr o ⟨wd m.w64, wd m.w64, wd m.w64, 1, false, [m.ci]⟩ →
      (WellFormed (.iAddc o m) → exec (.iAddc o m) s = .next (s.lanes g gr o ⟨wd m.w64, wd m.w64, wd m.w64, 1, false, [m.ci]⟩ fun W _ L =>
        let c := (L.getP m.ci).toNat
        intPut o m L (intNum m W L o.a + intNum m W L o.b + c)
          (decide (2 ^ intW m ≤ intPat m W L o.a + intPat m W L o.b + c)))) ∧
      (WellFormed (.iSubb o m) → exec (.iSubb o m) s = .next (s.lanes g gr o ⟨wd m.w64, wd m.w64, wd m.w64, 1, false, [m.ci]⟩ fun W _ L =>
        let c := (L.getP m.ci).toNat
        intPut o m L (intNum m W L o.a - intNum m W L o.b - c)
          (decide (intPat m W L o.a < intPat m W L o.b + c))))) ∧
    (s.Ready g gr o {} → WellFormed (.iSad o m) → exec (.iSad o m) s = .next (s.lanes g gr o {} fun W _ L =>
      L.putD o.d (BitVec.ofInt 32 (|intNum m W L o.a - intNum m W L o.b| + (src32 W L o.c).toNat))))

/-- IM computes R134 in every executing lane: the exact product of signed or unsigned 32-bit values, in parts, with an
addend. -/
def Obligations.Products : Prop :=
  ∀ (o : Ops) (part : Part) (u : Bool) (s : State) (g : Nat) (gr : Group),
    let prod (W : Warp) (L : Lane) : Int :=
      if u then ((src32 W L o.a).toNat : Int) * (src32 W L o.b).toNat else (src32 W L o.a).toInt * (src32 W L o.b).toInt
    let word (W : Warp) (L : Lane) : DWord := BitVec.ofInt 64 (prod W L)
    (s.Ready g gr o ⟨wd (part == .wide), 1, 1, 1, false, []⟩ → exec (.imMul o part u) s = .next (s.lanes g gr o ⟨wd (part == .wide), 1, 1, 1, false, []⟩ fun W _ L =>
      match part with
      | .lo => L.putD o.d ((word W L).extractLsb' 0 32)
      | .hi => L.putD o.d ((word W L).extractLsb' 32 32)
      | .wide => L.putD64 o.d (word W L))) ∧
    (s.Ready g gr o {} → WellFormed (.imMad o part u) → exec (.imMad o part u) s = .next (s.lanes g gr o {} fun W _ L =>
      L.putD o.d ((if part = .lo then (word W L).extractLsb' 0 32 else (word W L).extractLsb' 32 32) + src32 W L o.c))) ∧
    (s.Ready g gr o ⟨2, 1, 1, 2, false, []⟩ → exec (.imMadw o u) s = .next (s.lanes g gr o ⟨2, 1, 1, 2, false, []⟩ fun W _ L =>
      L.putD64 o.d (word W L + src64 W L o.c)))

/-- The bitwise forms compute R135 over all bits of their width: every bit of D is the operation on the bits of a and b.
PR.LOG computes R139: the bit of the table that three predicates select, into the predicate D. -/
def Obligations.LogicForms : Prop :=
  (∀ (o : Ops) (w64 : Bool) (s : State) (g : Nat) (gr : Group), s.Ready g gr o ⟨wd w64, wd w64, wd w64, 1, false, []⟩ →
    ∀ (i : Instr) (op : Bool → Bool → Bool),
      (i = .logAnd o w64 ∧ op = (fun a b => a && b)) ∨ (i = .logOr o w64 ∧ op = (fun a b => a || b)) ∨
        (i = .logXor o w64 ∧ op = (fun a b => a != b)) ∨ (i = .logAndn o w64 ∧ op = (fun a b => a && !b)) ∨
        (i = .logNot o w64 ∧ op = (fun a _ => !a)) →
      exec i s = .next (s.lanes g gr o ⟨wd w64, wd w64, wd w64, 1, false, []⟩ fun W _ L => L.putDW o.d w64 (BitVec.ofFnLE fun n =>
        op ((srcW w64 W L o.a).getLsbD n.val) ((srcW w64 W L o.b).getLsbD n.val)))) ∧
  ∀ (o : Ops) (d pa pb pc : Fin 8) (s : State) (g : Nat) (gr : Group), o.d = .p d → s.Ready g gr o { ps := [pa, pb, pc] } →
    exec (.prLog o pa pb pc) s = .next (s.lanes g gr o { ps := [pa, pb, pc] } fun W _ L =>
      L.setP d ((src32 W L o.a).getLsbD (4 * (L.getP pc).toNat + 2 * (L.getP pb).toNat + (L.getP pa).toNat)))

/-- Shifts compute R136, bit fields and bit counts R137, moves R140, in every executing lane: with exact arithmetic on the
operands' values, narrowed to the width of D. -/
def Obligations.ShiftsFieldsMoves : Prop :=
  ∀ (o : Ops) (s : State) (g : Nat) (gr : Group),
    (∀ w64 : Bool, s.Ready g gr o ⟨wd w64, wd w64, 1, 1, false, []⟩ →
      let w := if w64 then 64 else 32
      let put (f : Nat → Nat → Int) : Out := .next (s.lanes g gr o ⟨wd w64, wd w64, 1, 1, false, []⟩ fun W _ L =>
        L.putDW o.d w64 (BitVec.ofInt 64 (f (srcW w64 W L o.a).toNat (src32 W L o.b).toNat)))
      exec (.shShl o w64) s = put (fun a n => if n < w then (a * 2 ^ n) % 2 ^ w else 0) ∧
      exec (.shShr o w64 false) s = put (fun a n => if n < w then a / 2 ^ n else 0) ∧
      exec (.shShr o w64 true) s = put (fun a n => (if a < 2 ^ (w - 1) then (a : Int) else a - 2 ^ w) / 2 ^ n) ∧
      exec (.shRot o w64) s = put (fun a n => (a * 2 ^ (n % w)) % 2 ^ w + a / 2 ^ (w - n % w)) ∧
      exec (.mvMov o w64) s = .next (s.lanes g gr o ⟨wd w64, wd w64, 1, 1, false, []⟩ fun W _ L => L.putDW o.d w64 (srcW w64 W L o.a))) ∧
    (∀ (ps : Fin 8) (sn w64 : Bool), s.Ready g gr o ⟨wd w64, wd w64, wd w64, 1, false, [ps]⟩ →
      exec (.mvSel o ps sn w64) s = .next (s.lanes g gr o ⟨wd w64, wd w64, wd w64, 1, false, [ps]⟩ fun W _ L =>
        L.putDW o.d w64 (if L.getP ps != sn then srcW w64 W L o.a else srcW w64 W L o.b))) ∧
    (∀ (sh : Fin 8) (u : Bool), s.Ready g gr o ⟨2, 2, 1, 1, false, []⟩ →
      exec (.mvLea o sh u) s = .next (s.lanes g gr o ⟨2, 2, 1, 1, false, []⟩ fun W _ L => L.putD64 o.d (BitVec.ofInt 64
        ((src64 W L o.a).toNat + (if u then ((src32 W L o.b).toNat : Int) else (src32 W L o.b).toInt) * 2 ^ sh.val)))) ∧
    (s.Ready g gr o {} →
      let put (f : Word → Word → Word → Word) : Out :=
        .next (s.lanes g gr o {} fun W _ L => L.putD o.d (f (src32 W L o.a) (src32 W L o.b) (src32 W L o.c)))
      let pos (ctl : Word) : Nat := ctl.toNat % 256
      let len (ctl : Word) : Nat := min (ctl.toNat / 256 % 256) (32 - pos ctl)
      (∀ left, exec (.shFun o left) s = put fun a b c =>
        let x := b.toNat * 2 ^ 32 + a.toNat
        BitVec.ofNat 32 (if left then x * 2 ^ (c.toNat % 32) / 2 ^ 32 else x / 2 ^ (c.toNat % 32))) ∧
      (∀ sx, exec (.bfExt o sx) s = put fun a b _ =>
        let f := a.toNat / 2 ^ pos b % 2 ^ len b
        if len b = 0 then 0
        else if sx = true ∧ 2 ^ (len b - 1) ≤ f then BitVec.ofInt 32 ((f : Int) - 2 ^ len b) else BitVec.ofNat 32 f) ∧
      exec (.bfIns o) s = put (fun a b c => BitVec.ofFnLE fun i : Fin 32 =>
        if pos c ≤ i.val ∧ i.val < pos c + len c then b.getLsbD (i.val - pos c) else a.getLsbD i.val) ∧
      exec (.bfPopc o) s = put (fun a _ _ => BitVec.ofNat 32 ((List.range 32).countP a.getLsbD)) ∧
      exec (.bfClz o) s = put (fun a _ _ => BitVec.ofNat 32 ((List.range 32).countP fun i => decide (a.toNat < 2 ^ i))) ∧
      exec (.bfBrev o) s = put (fun a _ _ => BitVec.ofFnLE fun i : Fin 32 => a.getLsbD (31 - i.val)) ∧
      exec (.bfFfs o) s = put (fun a _ _ => match (List.range 32).find? a.getLsbD with
        | some i => BitVec.ofNat 32 i
        | none => 0xFFFFFFFF) ∧
      exec (.mvPrm o) s = put (fun a b c => BitVec.ofFnLE fun i : Fin 32 =>
        let n := c.toNat / 16 ^ (i.val / 8) % 16
        let k := 8 * (n % 8) + (if 8 ≤ n then 7 else i.val % 8)
        if k < 32 then a.getLsbD k else b.getLsbD (k - 32)))

/-- Every instruction of lane arithmetic completes: with its registers allocated and free of errors, each executing lane
becomes a function of its warp and itself that changes D's registers and the named predicates only, and nothing else
changes but that the group is done with the word.
A destination that discards receives nothing: with D = 255 an instruction that computes each lane by itself leaves every v
register as it was, and a predicate destination p7 stays true (R26).
What some forms give: CMP.I's and CMP.F's conditions, and COMB (R138); F.MIN and F.MAX, with a NaN, two NaNs and signed
zeros, and F.CLS (R142); CV.I2I, clamped to the range of its target, or with WRAP its low bits (R141); DOT.I8X4's sum of
four products (R146). -/
def Obligations.LaneFormsComplete : Prop :=
  (∀ (i : Instr) (o : Ops) (wds : Widths) (ps : List (Fin 8)), laneForm i = some (o, wds, ps) →
    ∃ f : Warp → Nat → Lane → Lane,
      (∀ (W : Warp) (l : Nat) (L : Lane), AMap.sorted L.v = true → L.keeps (ifGood o wds f W l L) (dstV o.d wds.d) (dstP o.d ++ ps)) ∧
        ∀ (s : State) (g : Nat) (gr : Group), s.Ready g gr o wds →
          exec i s = .next (s.lanes g gr o wds f) ∧ s.onlyThreads (s.lanes g gr o wds f)) ∧
  (∀ (L : Lane) (x : Word), L.putD .none x = L) ∧ (∀ (L : Lane) (x : DWord) (w64 : Bool), L.putDW .none w64 x = L) ∧
    (∀ (L : Lane) (b : Bool), L.putT (.p 7) b = L) ∧
    (∀ (n : Fin 8) (L : Lane) (b : Bool) (k : Fin 8), n ≠ 7 →
      (L.setP n b).getP k = if k = n then b else L.getP k) ∧
  ∀ (o : Ops) (s : State) (g : Nat) (gr : Group),
    let a (W : Warp) (L : Lane) : Word := src32 W L o.a
    let b (W : Warp) (L : Lane) : Word := src32 W L o.b
    let comb (k : Comb) (L : Lane) (x : Bool) : Bool :=
      let y : Bool := if k.cn then !L.getP k.cp else L.getP k.cp
      match k.op with
      | .none => x
      | .and => x && y
      | .or => x || y
      | .xor => x != y
    (∀ (c : ICond) (w64 : Bool) (k : Comb), let wds : Widths := ⟨1, wd w64, wd w64, 1, false, combReads k⟩
      s.Ready g gr o wds → exec (.cmpI o c w64 k) s = .next (s.lanes g gr o wds fun W _ L =>
        let num (u : Bool) (x : Src) : Int := intNum ⟨w64, u, false, false, 7, 7⟩ W L x
        L.putT o.d (comb k L (match c with
          | .eq => decide (num true o.a = num true o.b)
          | .ne => decide (num true o.a ≠ num true o.b)
          | .lt => decide (num false o.a < num false o.b)
          | .le => decide (num false o.a ≤ num false o.b)
          | .gt => decide (num false o.a > num false o.b)
          | .ge => decide (num false o.a ≥ num false o.b)
          | .ltu => decide (num true o.a < num true o.b)
          | .leu => decide (num true o.a ≤ num true o.b)
          | .gtu => decide (num true o.a > num true o.b)
          | .geu => decide (num true o.a ≥ num true o.b))))) ∧
    (∀ (c : FCond) (fz : Bool) (k : Comb), s.Ready g gr o { ps := combReads k } →
      ∃ f : Warp → Lane → Bool, exec (.cmpF o c fz k) s = .next (s.lanes g gr o { ps := combReads k } fun W _ L =>
          L.putT o.d (comb k L (f W L))) ∧
        ∀ W L, let x := fpArg fz false (a W L)
          let y := fpArg fz false (b W L)
          (fpNan x ∨ fpNan y → f W L = decide (c ∈ [.equ, .neu, .ltu, .leu, .gtu, .geu, .nan])) ∧
          (¬fpNan x → ¬fpNan y → (f W L = true ↔ match c with
            | .eq | .equ => fpRank x = fpRank y
            | .ne | .neu => fpRank x ≠ fpRank y
            | .lt | .ltu => fpRank x < fpRank y
            | .le | .leu => fpRank x ≤ fpRank y
            | .gt | .gtu => fpRank x > fpRank y
            | .ge | .geu => fpRank x ≥ fpRank y
            | .num => True
            | .nan => False))) ∧
    (s.Ready g gr o {} →
      (∀ m : FMod, m.sat = false → ∃ lo hi : Warp → Lane → Word,
        exec (.fMin o m) s = .next (s.lanes g gr o {} fun W _ L => L.putD o.d (lo W L)) ∧
        exec (.fMax o m) s = .next (s.lanes g gr o {} fun W _ L => L.putD o.d (hi W L)) ∧
        ∀ W L, let x := fpArg m.fz m.na (a W L)
          let y := fpArg m.fz m.nb (b W L)
          (fpNan x → fpNan y → lo W L = 0x7FC00000 ∧ hi W L = 0x7FC00000) ∧
          (fpNan x → ¬fpNan y → lo W L = y ∧ hi W L = y) ∧ (¬fpNan x → fpNan y → lo W L = x ∧ hi W L = x) ∧
          (¬fpNan x → ¬fpNan y → (fpBelow y x → lo W L = y) ∧ (¬fpBelow y x → lo W L = x) ∧
            (fpBelow x y → hi W L = y) ∧ (¬fpBelow x y → hi W L = x))) ∧
      exec (.fCls o) s = .next (s.lanes g gr o {} fun W _ L =>
        let mag := (a W L).toNat % 2 ^ 31
        let neg := decide (2 ^ 31 ≤ (a W L).toNat)
        let k := if 0x7F800000 < mag then (if (a W L).getLsbD 22 then 9 else 8)
          else if mag = 0x7F800000 then (if neg then 0 else 7)
          else if mag = 0 then (if neg then 3 else 4)
          else if mag < 2 ^ 23 then (if neg then 2 else 5)
          else (if neg then 1 else 6)
        let x : Word := BitVec.twoPow 32 k &&& b W L
        if o.d matches .v _ then L.putD o.d x else L.putT o.d (decide (x ≠ 0))) ∧
      ∀ m : DotMod, m.sc = false → m.sat = false → exec (.dotI8x4 o m) s = .next (s.lanes g gr o {} fun W _ L =>
        let el (u : Bool) (x : Word) (j : Nat) : Int :=
          intOfType (if u then .u8 else .s8) (BitVec.ofNat 64 (x.toNat / 256 ^ j))
        L.putD o.d (BitVec.ofInt 32 ((src32 W L o.c).toInt +
          ((List.range 4).map fun j => el m.ua (a W L) j * el m.ub (b W L) j).sum)))) ∧
    ∀ src dst : ITy, let wds : Widths := ⟨wd dst.wide, wd src.wide, 1, 1, false, []⟩
      s.Ready g gr o wds → ∀ wrap : Bool, exec (.cvI2i o wrap src dst) s = .next (s.lanes g gr o wds fun W _ L =>
        let x := intOfType src (srcW src.wide W L o.a)
        L.putDW o.d dst.wide (BitVec.ofInt 64 (if wrap then intOfType dst (BitVec.ofInt 64 x)
          else if x < leastOf dst then leastOf dst else if mostOf dst < x then mostOf dst else x)))

/-! ## Uniform arithmetic -/

/-- Every instruction of uniform arithmetic completes: with the registers that it reads free of errors, each warp of the
group becomes a function of itself that changes D only, and nothing else changes but that the group is done with the
word (R99, R149).
What each form gives, R149: numbers into an s register modulo 2^32; truth values and comparisons into a q register. -/
def Obligations.UniformForms : Prop :=
  (∀ (i : Instr) (o : UOps) (reads : List Nat), uniForm i = some (o, reads) →
    ∃ f : Warp → Warp,
      (∀ W : Warp, AMap.sorted W.s = true → W.keeps (f W) (udstS o.d) (udstQ o.d)) ∧
        ∀ (s : State) (g : Nat) (gr : Group), s.ReadyU g gr reads →
          exec i s = .next (s.warpsOf g gr f) ∧ s.onlyThreads (s.warpsOf g gr f)) ∧
  ∀ (o : UOps) (s : State) (g : Nat) (gr : Group), s.ReadyU g gr (usrcS o.a 1 ++ usrcS o.b 1) →
    (∀ n : Fin 48, o.d = .s n →
      (∀ x ∈ ([(.uAdd o, fun a b => a + b), (.uSub o, fun a b => a - b), (.uMul o, fun a b => a * b),
          (.uLogAnd o, fun a b => a &&& b), (.uLogOr o, fun a b => a ||| b), (.uLogXor o, fun a b => a ^^^ b),
          (.uLogAndn o, fun a b => a &&& ~~~b),
          (.uShfShl o, fun a b => if b.toNat < 32 then BitVec.ofNat 32 (a.toNat * 2 ^ b.toNat) else 0),
          (.uShfShr o, fun a b => if b.toNat < 32 then BitVec.ofNat 32 (a.toNat / 2 ^ b.toNat) else 0),
          (.uShfSar o, fun a b => BitVec.ofInt 32 (a.toInt / 2 ^ b.toNat)),
          (.uShfRot o, fun a b =>
            BitVec.ofNat 32 (a.toNat * 2 ^ (b.toNat % 32) + a.toNat / 2 ^ (32 - b.toNat % 32)))] :
          List (Instr × (Word → Word → Word))),
        exec x.1 s = .next (s.warpsOf g gr fun W => W.setS n (x.2 (usrc32 W o.a) (usrc32 W o.b)))) ∧
      (∀ k : Fin 8, s.ReadyU g gr [48 + k.val] → exec (.uSel o k) s =
        .next (s.warpsOf g gr fun W => W.setS n (if W.getQ k then usrc32 W o.a else usrc32 W o.b))) ∧
      exec (.uMov o) s = .next (s.warpsOf g gr fun W => W.setS n (usrc32 W o.a))) ∧
    (∀ n : Fin 8, o.d = .q n →
      (∀ x ∈ ([(.uCmpEq o, fun a b => decide (a = b)), (.uCmpNe o, fun a b => decide (a ≠ b)),
          (.uCmpLt o, fun a b => decide (a.toInt < b.toInt)), (.uCmpLe o, fun a b => decide (a.toInt ≤ b.toInt)),
          (.uCmpGt o, fun a b => decide (b.toInt < a.toInt)), (.uCmpGe o, fun a b => decide (b.toInt ≤ a.toInt)),
          (.uCmpLtu o, fun a b => decide (a.toNat < b.toNat)), (.uCmpGeu o, fun a b => decide (b.toNat ≤ a.toNat))] :
          List (Instr × (Word → Word → Bool))),
        exec x.1 s = .next (s.warpsOf g gr fun W => W.setQ n (x.2 (usrc32 W o.a) (usrc32 W o.b)))) ∧
      (∀ x ∈ ([(.uLogAnd o, fun a b => a && b), (.uLogOr o, fun a b => a || b), (.uLogXor o, fun a b => a != b),
          (.uLogAndn o, fun a b => a && !b)] : List (Instr × (Bool → Bool → Bool))),
        exec x.1 s = .next (s.warpsOf g gr fun W => W.setQ n (x.2 (usrcT W o.a) (usrcT W o.b)))) ∧
      exec (.uMov o) s = .next (s.warpsOf g gr fun W => W.setQ n (decide (usrc32 W o.a ≠ 0))))

/-- ULD.C reads a word of the block's parameter copy, 0 past its end, where every warp's offset is aligned (R150).
XL.RDL puts the value of one executing lane into an s register of its warp, and needs no meeting (R148): the lane that B
names, or without B the warp's lowest executing lane. Helper lanes that execute count among them: the model's reading
(log 26). -/
def Obligations.UniformReads : Prop :=
  (∀ (o : UOps) (s : State) (g : Nat) (gr : Group) (n : Fin 48),
    s.ReadyU g gr (usrcS o.a 1 ++ usrcS o.b 1) → o.d = .s n → s.threadsOk →
    (∀ w ∈ gr.warpIds, (s.warps.get? w).isSome = true ∧ (usrc32 (s.warp w) o.a + usrc32 (s.warp w) o.b).toNat % 4 = 0) →
    ∃ t, exec (.uldC o) s = .next t ∧ s.onlyThreads t ∧ ∀ w ∈ gr.warpIds,
      let B := s.block (s.warp w).block
      let off := (usrc32 (s.warp w) o.a + usrc32 (s.warp w) o.b).toNat
      (t.warp w).getS n = if off + 4 ≤ B.paramLen then
        (B.param.getD (off + 3) 0 ++ B.param.getD (off + 2) 0 ++ B.param.getD (off + 1) 0 ++ B.param.getD off 0 : Word)
      else 0) ∧
  ∀ (o : Ops) (s : State) (g : Nat) (gr : Group) (n : Fin 48) (w k : Nat),
    s.Ready g gr o {} → (∀ x ∈ s.execs gr o.pr, ∀ r ∈ srcV o.a 1, r ∉ (s.lane x.1 x.2).vBad) → o.d = .s n →
    s.threadsOk → (s.warps.get? w).isSome = true → w ∈ gr.warpIds → (w, k) ∈ s.execs gr o.pr →
    (o.b ≠ .none ∧ k = (src32 (s.warp w) {} o.b).toNat % 32) ∨
      (o.b = .none ∧ ∃ ls rest, gr.lanesOf w = ls ++ k :: rest ∧ ∀ l ∈ ls, s.exec? o.pr (w, l) = false) →
    ∃ t, exec (.xlRdl o false) s = .next t ∧ s.onlyThreads t ∧
      (t.warp w).getS n = src32 (s.warp w) (s.lane w k) o.a

/-- SR.READ gives what R111 lists, each special register into D of every executing lane whose predicate is free of errors;
with D = 255 nothing. Nothing else changes: no other register of any lane or warp, and of the module only that the group is
done with the word. -/
def Obligations.SpecialRegisters : Prop :=
  ∀ (o : Ops) (r : SReg) (s : State) (g : Nat) (gr : Group), WellFormed (.srRead o r) →
    s.Ready g gr o ⟨wd r.wide, 1, 1, 1, false, []⟩ → s.threadsOk → s.Stands gr →
    ∃ t, exec (.srRead o r) s = .next t ∧ s.onlyThreads t ∧ t.groups = ((s.atWord g).retire g gr).groups ∧
      s.changesOnly t (fun x => if x ∈ s.execs gr o.pr then dstV o.d (wd r.wide) else []) (fun _ => []) ∧
      ∀ x ∈ s.execs gr o.pr, ∀ d : Fin 192, o.d = .v d → (∀ n ∈ predReads o.pr, n ∉ (s.lane x.1 x.2).vBad) →
        let W := s.warp x.1
        let B := s.block W.block
        let L := s.lane x.1 x.2
        let word := (t.lane x.1 x.2).getV d
        let pair := (t.lane x.1 x.2).getV64 d
        (r = .lane → word = BitVec.ofNat 32 x.2) ∧ (r = .warp → word = BitVec.ofNat 32 W.num) ∧
          (r = .tid → word = BitVec.ofNat 32 (32 * W.num + x.2)) ∧ (r = .block → word = BitVec.ofNat 32 B.block) ∧
          (r = .bx → word = BitVec.ofNat 32 B.bx) ∧ (r = .by → word = BitVec.ofNat 32 B.by_) ∧
          (r = .cluster → word = BitVec.ofNat 32 B.cluster) ∧ (r = .cblock → word = BitVec.ofNat 32 B.cblock) ∧
          (r = .nthread → word = BitVec.ofNat 32 B.nthread) ∧ (r = .nblock → word = BitVec.ofNat 32 B.nblock) ∧
          (r = .rank → word = BitVec.ofNat 32 B.rank) ∧ (r = .nrank → word = BitVec.ofNat 32 B.nrank) ∧
          (r = .chip → word = BitVec.ofNat 32 s.chip) ∧ (r = .die → word = BitVec.ofNat 32 (gr.core / 64)) ∧
          (r = .core → word = BitVec.ofNat 32 gr.core) ∧ (r = .subcore → word = BitVec.ofNat 32 (4 * gr.core + gr.sub)) ∧
          (r = .live → ∀ l, l < 32 → word.getLsbD l = decide ((s.lane x.1 l).life = .live)) ∧
          (r = .helper → word = if L.life = .helper then 1 else 0) ∧ (r = .emask → word = L.emask) ∧
          (r = .depth → word = BitVec.ofNat 32 L.depth) ∧
          (r = .held → L.slots.length ≤ 8 → ∀ n, n < 32 → word.getLsbD n = decide (n < L.slots.length)) ∧
          (d.val + 1 < 192 → (r = .time → pair = BitVec.ofNat 64 (s.timeAt gr.core)) ∧
            (r = .clock → pair = BitVec.ofNat 64 s.clock) ∧ (r = .gwct → pair = BitVec.ofNat 64 W.gwct) ∧
            (r = .rsp → pair = L.rsp))

/-! ## Control transfers -/

/-- BR.REL, BR.IND, UB.BRA and UB.LOOP end the clause: lanes that execute, or lanes of warps that take a uniform branch,
are runnable at their targets, the others at the word after the clause; nothing outside the threads changes. -/
def Obligations.BranchesComplete : Prop :=
  ∀ (s : State) (g : Nat) (gr : Group), s.Stands gr →
    (∀ (off : BitVec 24) (pr : Pred), s.Guarded g gr pr →
      ∃ t, exec (.brRel off pr) s = .next t ∧ s.onlyThreads t ∧ ∀ x ∈ gr.lanes,
        t.Went x (if s.exec? pr x then gr.pc + 4 * off.signExtend 64 else gr.clauseEnd)) ∧
    (∀ o : Ops, s.Ready g gr o ⟨1, 2, 1, 1, false, []⟩ →
      (∀ x ∈ s.execThreads gr o.pr, src64 (s.warp x.1) (s.lane x.1 x.2) o.a &&& 3 = 0) →
      ∃ t, exec (.brInd o) s = .next t ∧ s.onlyThreads t ∧ ∀ x ∈ gr.lanes, s.isLive x = true →
        t.Went x (if s.exec? o.pr x then src64 (s.warp x.1) (s.lane x.1 x.2) o.a else gr.clauseEnd)) ∧
    (∀ (cnd : Option (Fin 8)) (off : UOff), s.ReadyU g gr (cnd.toList.map fun q => 48 + q.val) →
      ∃ t, exec (.ubBra cnd off) s = .next t ∧ s.onlyThreads t ∧ ∀ x ∈ gr.lanes,
        t.Went x (if (cnd.map (s.warp x.1).getQ).getD true then gr.pc + 4 * UOff.words off else gr.clauseEnd)) ∧
    (∀ (sx : Fin 48) (off : UOff), s.ReadyU g gr [sx.val] → s.threadsOk →
      ∃ t, exec (.ubLoop sx off) s = .next t ∧ s.onlyThreads t ∧ ∀ x ∈ gr.lanes,
        (t.warp x.1).getS sx = (s.warp x.1).getS sx - 1 ∧
          t.Went x (if (s.warp x.1).getS sx - 1 ≠ 0 then gr.pc + 4 * UOff.words off else gr.clauseEnd))

/-- CL.CALL and CL.CALLI push the address after the clause and sr.held, and go to their targets (R109, R113), where the
stack holds fewer than sixteen entries.
CL.RET pops: a lane at a depth above 0 whose frame acquired no colour goes to the address of its newest entry (R113). -/
def Obligations.CallsAndReturns : Prop :=
  (∀ (s : State) (g : Nat) (gr : Group) (pr : Pred), s.Stands gr → gr.park = .run → gr.pc &&& 3 = 0 →
    (∀ x ∈ s.execs gr pr, (s.lane x.1 x.2).stack.length < 16 ∧ (s.lane x.1 x.2).depth < 65535) →
    ∀ (i : Instr) (target : Nat × Nat → DWord),
      ((∃ off, i = .clCall off pr ∧ s.Guarded g gr pr ∧ target = fun _ => gr.pc + 4 * off.signExtend 64) ∨
        (∃ o, i = .clCalli o ∧ o.pr = pr ∧ s.Ready g gr o ⟨1, 2, 1, 1, false, []⟩ ∧
          target = (fun x => src64 (s.warp x.1) (s.lane x.1 x.2) o.a) ∧ ∀ x ∈ s.execs gr pr, target x &&& 3 = 0)) →
      ∃ t, exec i s = .next t ∧ s.onlyThreads t ∧ ∀ x ∈ gr.lanes,
        let L := s.lane x.1 x.2
        if s.exec? pr x then
          t.Went x (target x) ∧ (t.lane x.1 x.2).depth = L.depth + 1 ∧
            (t.lane x.1 x.2).stack = ⟨gr.clauseEnd, L.heldBits⟩ :: L.stack ∧ (t.lane x.1 x.2).rsp = L.rsp
        else t.Went x gr.clauseEnd ∧ (t.lane x.1 x.2).stack = L.stack) ∧
  ∀ (s : State) (g : Nat) (gr : Group) (o : Ops), s.Ready g gr o {} → s.Stands gr → gr.memo.bad = [] →
    (∀ x ∈ gr.lanes, s.exec? o.pr x = true ∧ (s.lane x.1 x.2).depth ≠ 0 ∧
      (∀ c ∈ (s.lane x.1 x.2).slots, c.depth ≠ (s.lane x.1 x.2).depth) ∧
      ∃ e rest, (s.lane x.1 x.2).stack = e :: rest ∧ e.ret &&& 3 = 0) →
    ∃ t, exec (.clRet o) s = .next t ∧ s.onlyThreads t ∧ ∀ x ∈ gr.lanes,
      let L := s.lane x.1 x.2
      t.Went x ((L.stack.head?.map (·.ret)).getD 0) ∧ (t.lane x.1 x.2).depth = L.depth - 1 ∧
        (t.lane x.1 x.2).stack = L.stack.tail

/-- X.YIELD and X.NAP end the clause: executing lanes stand at the next one, held back, or napping until their time
(R114); the others are runnable there.
X.EXIT ends the lanes that execute it (R101); in a handler, where no helper lane of their warps waits to go on.
NAP_WAKE, YIELD_EXPIRY and PROMOTED (R97, R114): a napping lane whose time has come, and a yielded lane after 64 cycles,
is runnable from now on; an entry that has been runnable for more than 1,024 cycles is promoted; nothing else of the
module changes but the count of the promotion. -/
def Obligations.YieldsAndExits : Prop :=
  (∀ (s : State) (g : Nat) (gr : Group) (o : Ops), s.Ready g gr o {} → s.Stands gr →
    (∃ t, exec (.xYield o) s = .next t ∧ s.onlyThreads t ∧ ∀ x ∈ gr.lanes,
      (t.lane x.1 x.2).pc = gr.clauseEnd ∧
        (t.lane x.1 x.2).entry = if s.exec? o.pr x then .yielded (s.clock + 64) else .runnable) ∧
    (∃ t, exec (.xNap o) s = .next t ∧ s.onlyThreads t ∧ ∀ x ∈ gr.lanes,
      let ns := (src32 (s.warp x.1) (s.lane x.1 x.2) o.a).toNat
      (t.lane x.1 x.2).pc = gr.clauseEnd ∧
        (t.lane x.1 x.2).entry =
          if s.exec? o.pr x then (if ns = 0 then .yielded (s.clock + 64) else .napping (s.timeAt gr.core + ns))
          else .runnable)) ∧
  (∀ (s : State) (g : Nat) (gr : Group) (o : Ops), s.Ready g gr o {} → s.Stands gr →
    (gr.handler = true → ∀ w ∈ gr.warpIds, s.parkedHelpers w = []) →
    ∃ t, exec (.xExit o) s = .next t ∧ ∀ x ∈ s.execs gr o.pr, (t.lane x.1 x.2).life = .exited) ∧
  ∀ (s : State) (w l : Nat),
    (∀ n, (s.lane w l).entry = .napping n → n ≤ s.timeAt (s.warp w).core →
      ∃ t, exec (.napWake w l) s = .next t ∧ t.Went (w, l) (s.lane w l).pc ∧ (t.lane w l).since = s.clock ∧ s.onlyThreads t) ∧
    (∀ c, (s.lane w l).entry = .yielded c → c ≤ s.clock →
      ∃ t, exec (.yieldExpiry w l) s = .next t ∧ t.Went (w, l) (s.lane w l).pc ∧ (t.lane w l).since = s.clock ∧
        s.onlyThreads t) ∧
    ((s.lane w l).entry = .runnable → (s.lane w l).promoted = false → (s.lane w l).since + 1024 < s.clock →
      ∃ t, exec (.promoted w l) s = .next t ∧ (t.lane w l).promoted = true ∧
        t = { s with warps := t.warps, tally := t.tally })

/-! ## Traps -/

/-- Taking a trap where nothing holds the warp's traps (R331): TCS, TAD, TPC, TCH and TLM are set, and the trapping
lanes enter the handler, their registers as they were; the warp's other lanes, its registers, every other warp, and the
rest of the module are unchanged but the count, and, for SWTRAP and BKPT, the core's trap source (R369).
A trap while another group of the warp is in handler mode, or while its core halts for a switch (R342) or is stopped, is
held pending: its lanes stay stopped, and everything else is as it was, the trap registers too, which keep the values
of the trap that is being served (R331). -/
def Obligations.TrapsTaken : Prop :=
  (∀ (s : State) (w : Nat) (x : Trap) (W : Warp), s.warps.get? w = some W → s.threadsOk → s.holdsTraps w = false →
    x.lanes.Nodup → (∀ l ∈ x.lanes, (s.lane w l).life = .live) →
    let t := s.takeTrap w x
    (t.warp w).tcs = x.tcs ∧ (t.warp w).tad = x.tad ∧ (t.warp w).tpc = x.tpc &&& 0x0FFFFFFFFFFFFFFC ∧
      (t.warp w).tch = x.tch &&& 0x0FFFFFFFFFFFFFFC ∧ (t.warp w).tlm = laneMask x.lanes ∧
      (∀ l ∈ x.lanes, s.InHandler t w l x.code ∧ (s.lane w l).trapped (t.lane w l)) ∧
      (∀ l, l ∉ x.lanes → t.lane w l = s.lane w l) ∧ W.trapped (t.warp w) ∧ (∀ v, v ≠ w → t.warp v = s.warp v) ∧
      t = { s with warps := t.warps, tally := t.tally, cores := t.cores } ∧
      (x.code ≠ 0x15 → x.code ≠ 0x16 → t.cores = s.cores)) ∧
  ∀ (s : State) (w : Nat) (x : Trap) (W : Warp), s.warps.get? w = some W → s.threadsOk → s.holdsTraps w = true →
    x.lanes.Nodup → (∀ l ∈ x.lanes, (s.lane w l).life = .live ∧ (s.lane w l).handler = false) →
    let t := s.takeTrap w x
    t.warp w = { W with lanes := (t.warp w).lanes, pending := W.pending ++ [x] } ∧
      (∀ l ∈ x.lanes, t.lane w l = { s.lane w l with entry := .trapped }) ∧
      (∀ l, l ∉ x.lanes → t.lane w l = s.lane w l) ∧ (∀ v, v ≠ w → t.warp v = s.warp v) ∧ t = { s with warps := t.warps }

/-- TR.TRAP and TR.BKPT take SWTRAP and BKPT (R346): TCS names the cause and, for TR.TRAP, the low 8 bits of its operand in
the lowest lane; TPC is the word, TCH its clause, TLM the lanes; they stand at the handler's clause. -/
def Obligations.SoftTrapsTaken : Prop :=
  ∀ (o : Ops) (s : State) (g : Nat) (gr : Group) (w : Nat) (ls : List Nat), s.Ready g gr o {} →
    s.Team g gr w ls o.pr → s.holdsTraps w = false →
    (∃ t, exec (.trTrap o) s = .next t ∧
      (t.warp w).tcs = 0x15 ||| (((src32 (s.warp w) (s.lane w (ls.headD 0)) o.a).setWidth 8).setWidth 64 <<< 8) ∧
      (t.warp w).tpc = gr.pc &&& 0x0FFFFFFFFFFFFFFC ∧ (t.warp w).tch = gr.hdr &&& 0x0FFFFFFFFFFFFFFC ∧
      (t.warp w).tad = 0 ∧ (t.warp w).tlm = laneMask ls ∧ ∀ l ∈ ls, s.InHandler t w l 0x15) ∧
    (∃ t, exec (.trBkpt o) s = .next t ∧ (t.warp w).tcs = 0x16 ∧
      (t.warp w).tpc = gr.pc &&& 0x0FFFFFFFFFFFFFFC ∧ (t.warp w).tch = gr.hdr &&& 0x0FFFFFFFFFFFFFFC ∧
      (t.warp w).tad = 0 ∧ (t.warp w).tlm = laneMask ls ∧ ∀ l ∈ ls, s.InHandler t w l 0x16)

/-- A privileged form outside a handler raises PRIV, with TAD the first word, and does nothing else (R29): its lanes enter the
handler with the registers that they have, their warp's trap registers are set, the group is gone, and every other
register of the module, WEIRn, TSVn, the cached translations and the shootdowns under way are as they were. -/
def Obligations.PrivilegedForms : Prop :=
  ∀ (i : Instr) (o : Ops) (wds : Widths) (s : State) (g : Nat) (gr : Group) (w : Nat) (ls : List Nat),
    ((∃ e, i = .trRett o e ∧ wds = {}) ∨ (∃ r, i = .trMfs o r ∧ wds = ⟨2, 1, 1, 1, false, []⟩) ∨
      (∃ r, i = .trMts o r ∧ wds = ⟨1, 2, 1, 1, false, []⟩) ∨ (∃ d a, i = .trTlbi o d a ∧ wds = ⟨1, 2, 1, 1, false, []⟩) ∨
      (i = .trHalt o ∧ wds = {})) →
    s.Ready g gr o wds → s.Team g gr w ls o.pr → gr.handler = false → s.holdsTraps w = false →
    ∃ t, exec i s = .next t ∧ (t.warp w).tcs = 0x18 ∧ (t.warp w).tad = gr.word0.setWidth 64 ∧
      (t.warp w).tlm = laneMask ls ∧ (∀ l ∈ ls, s.InHandler t w l 0x18 ∧ (s.lane w l).trapped (t.lane w l)) ∧
      (∀ l, l ∉ ls → t.lane w l = s.lane w l) ∧ (s.warp w).trapped (t.warp w) ∧ (∀ v, v ≠ w → t.warp v = s.warp v) ∧
      t = { s with warps := t.warps, groups := s.groups.del g, focus := t.focus, tally := t.tally }

/-- TR.MFS reads the system registers of R337 into D's pair, in a handler; nothing else changes.
TR.MTS writes them, with the lowest lane's value, in a handler: code addresses as [59:2], TVB as [59:12]; SLS by its access
codes (R194), of which a write of 1 clears LIMITED but where the device has set it in this cycle (R7); registers that
are read-only keep their values; a context without MGMT writes no register of a core or of the chip (R337, R348), and
nothing but the register that it names changes. -/
def Obligations.SystemRegisters : Prop :=
  (∀ (o : Ops) (r : SysReg) (s : State) (g : Nat) (gr : Group) (w : Nat) (ls : List Nat),
    s.Ready g gr o ⟨2, 1, 1, 1, false, []⟩ → s.Team g gr w ls o.pr → gr.handler = true →
    ∃ t, exec (.trMfs o r) s = .next t ∧ s.onlyThreads t ∧ t.groups = ((s.atWord g).retire g gr).groups ∧
      s.changesOnly t (fun x => if x.1 = w ∧ x.2 ∈ ls then dstV o.d 2 else []) (fun _ => []) ∧
      ∀ l ∈ ls, ∀ d : Fin 192, o.d = .v d → d.val + 1 < 192 →
      let x := (t.lane w l).getV64 d
      let W := s.warp w
      let C := s.ctx (s.block W.block).ctx
      let K := s.core W.core
      let now := K.roll s.windowNow
      (r = .tpc → x = W.tpc) ∧ (r = .tcs → x = W.tcs) ∧ (r = .tad → x = W.tad) ∧ (r = .tlm → x = W.tlm.setWidth 64) ∧
        (r = .tch → x = W.tch) ∧ (r = .tvb → x = C.tvb) ∧ (∀ n, r = .tsv n → x = W.tsv.getD n.val 0) ∧
        (r = .dpri → x = BitVec.ofNat 64 C.dpri) ∧ (r = .leasens → x = BitVec.ofNat 64 C.leasens) ∧
        (r = .ctxid → x = BitVec.ofNat 64 (s.block W.block).ctx) ∧
        (r = .mxc → x = if K.mxcRed then 1 else 0) ∧ (r = .slb → x = BitVec.ofNat 64 (K.budget + 2 ^ 16 * K.ramp)) ∧
        (r = .sls → x = BitVec.ofNat 64 (now.stalled + 2 ^ 32 * now.prev + 2 ^ 48 * now.limited.toNat)) ∧
        ∀ n, r = .weir n → x = s.weir.getD n.val 0) ∧
  ∀ (o : Ops) (r : SysReg) (s : State) (g : Nat) (gr : Group) (w : Nat) (ls : List Nat),
    s.Ready g gr o ⟨1, 2, 1, 1, false, []⟩ → s.Team g gr w ls o.pr → gr.handler = true →
    let x := src64 (s.warp w) (s.lane w (ls.headD 0)) o.a
    let c := (s.block (s.warp w).block).ctx
    let k := (s.warp w).core
    let now := (s.core k).roll s.windowNow
    let held := s.freshBits (.sls k)
    ∃ t, exec (.trMts o r) s = .next t ∧
      t = { s with warps := t.warps, groups := ((s.atWord g).retire g gr).groups, focus := t.focus, ctxs := t.ctxs,
                   cores := t.cores, weir := t.weir } ∧
      (∀ v, v ≠ w → t.warp v = s.warp v) ∧ (∀ l, (s.lane w l).goneOn (t.lane w l)) ∧
      t.warp w = { s.warp w with lanes := (t.warp w).lanes, tsv := (t.warp w).tsv,
                                 tpc := if r = .tpc then x &&& 0x0FFFFFFFFFFFFFFC else (s.warp w).tpc,
                                 tch := if r = .tch then x &&& 0x0FFFFFFFFFFFFFFC else (s.warp w).tch } ∧
      (∀ n, r = .tsv n → (s.warp w).tsv.sorted = true → (t.warp w).tsv.getD n.val 0 = x ∧
        ∀ j, j ≠ n.val → (t.warp w).tsv.getD j 0 = (s.warp w).tsv.getD j 0) ∧
      ((∀ n, r ≠ .tsv n) → (t.warp w).tsv = (s.warp w).tsv) ∧
      ((s.ctxs.get? c).isSome = true → AMap.sorted s.ctxs = true → (∀ j, j ≠ c → t.ctx j = s.ctx j) ∧
        t.ctx c = { s.ctx c with tvb := if r = .tvb then x &&& 0x0FFFFFFFFFFFF000 else (s.ctx c).tvb,
                                 dpri := if r = .dpri then x.toNat % 16 else (s.ctx c).dpri,
                                 leasens := if r = .leasens then x.toNat % 65536 else (s.ctx c).leasens }) ∧
      ((s.ctx c).mgmt = false → t.cores = s.cores ∧ t.weir = s.weir) ∧
      (r ≠ .mxc → r ≠ .slb → r ≠ .sls → t.cores = s.cores) ∧ ((∀ n, r ≠ .weir n) → t.weir = s.weir) ∧
      ((s.ctx c).mgmt = true →
        (∀ n, r = .weir n → s.weir.sorted = true → t.weir.getD n.val 0 = x &&& 0xCFFF0FFF ∧
          ∀ j, j ≠ n.val → t.weir.getD j 0 = s.weir.getD j 0) ∧
        (AMap.sorted s.cores = true → (∀ j, j ≠ k → t.core j = s.core j) ∧
          (r = .mxc → t.core k = { s.core k with mxcRed := x.getLsbD 0 }) ∧
          (r = .slb → t.core k = { now with budget := x.toNat % 2 ^ 11, ramp := x.toNat / 2 ^ 16 % 2 ^ 11 }) ∧
          (r = .sls → t.core k = { now with
            stalled := (x &&& ~~~held).toNat % 2 ^ 32, limited := now.limited && !(x.getLsbD 48 && !held.getLsbD 48) })))

/-- TR.TLBI begins a shootdown (R329, R349): of the context's cached translations, exactly the leaves outside its range
stay, and none where ALL is set; the group waits, and over DOMAIN the other chips of the launch domain are awaited.
SHOOTDOWN_COMPLETE, once nothing is left that the shootdown waits for: the shootdown is gone; its group goes on where no
other shootdown of the group is under way; one begun for another chip is answered there. What a shootdown waits for is
what it has written down at its begin (log 43). -/
def Obligations.Shootdowns : Prop :=
  (∀ (o : Ops) (domain all : Bool) (s : State) (g : Nat) (gr : Group) (w : Nat) (ls : List Nat),
    s.Ready g gr o ⟨1, 2, 1, 1, false, []⟩ → s.Team g gr w ls o.pr → gr.handler = true →
    let lo := (src64 (s.warp w) (s.lane w (ls.headD 0)) o.a).toNat % 2 ^ 60 / 4096
    let n := (src32 (s.warp w) (s.lane w (ls.headD 0)) o.b).toNat
    (gr.memo.passed = false → ∃ t k d, exec (.trTlbi o domain all) s = .next t ∧ t.shoots.get? k = some d ∧
      d.ctx = (s.block gr.block).ctx ∧ d.group = g ∧ d.origin = none ∧
      d.chips = (if domain then s.domain.filter (· != s.chip) else []) ∧
      ((t.groups.get? g).map fun (x : Group) => x.park) = some (.shootdown k) ∧
      ∀ e, e ∈ t.tlb ↔ e ∈ s.tlb ∧ (e.ctx ≠ d.ctx ∨ (all = false ∧ eLeaf e.ent = true ∧
        (n = 0 ∨ ¬(e.idx * 2 ^ (12 * e.lvl) < lo + n ∧ lo < (e.idx + 1) * 2 ^ (12 * e.lvl)))))) ∧
    (gr.memo.passed = true → exec (.trTlbi o domain all) s = .next ((s.atWord g).retire g gr))) ∧
  ∀ (sd : Nat) (s : State) (d : Shootdown), s.shoots.get? sd = some d → s.shootDone sd d = true →
    (∀ c id, d.origin = some (c, id) → exec (.shootdownComplete sd) s =
      .next ({ s with shoots := s.shoots.del sd }.fabric c (.tlbiDone id))) ∧
    (d.origin = none → (∃ e ∈ s.shoots.del sd, e.2.group = d.group ∧ e.2.origin = none) →
      exec (.shootdownComplete sd) s = .next { s with shoots := s.shoots.del sd }) ∧
    ∀ gr : Group, d.origin = none → (∀ e ∈ s.shoots.del sd, e.2.group = d.group → e.2.origin ≠ none) →
      s.groups.get? d.group = some gr →
      ∃ t, exec (.shootdownComplete sd) s = .next t ∧ t.groups.get? d.group = some { gr with park := .run } ∧
        t = { s with shoots := s.shoots.del sd, groups := t.groups }

/-- TR.RETT in a handler, R347: RES with TPC = TCH sends the lanes back to the clause's header and out of handler mode; END
ends them.
TR.HALT in a handler: the lanes halt at the next word, and the core counts it (R350, R373). -/
def Obligations.HandlersEnd : Prop :=
  (∀ (o : Ops) (s : State) (g : Nat) (gr : Group) (w : Nat) (ls : List Nat), s.Ready g gr o {} →
    s.Team g gr w ls o.pr → gr.handler = true → gr.park = .run →
    (s.warp w).tpc = (s.warp w).tch → (s.warp w).pending = [] → (s.warp w).lsecc = none →
    (∀ x ∈ (s.warp w).lanes, x.2.life ≠ .helper) →
    (∃ t, exec (.trRett o false) s = .next t ∧ s.onlyThreads t ∧
      ∀ l ∈ ls, t.Went (w, l) (s.warp w).tch ∧ (t.lane w l).handler = false) ∧
    (∃ t, exec (.trRett o true) s = .next t ∧ ∀ l ∈ ls, (t.lane w l).life = .exited)) ∧
  ∀ (o : Ops) (s : State) (g : Nat) (gr : Group) (w : Nat) (ls : List Nat), s.Ready g gr o {} →
    s.Team g gr w ls o.pr → gr.handler = true → (s.core gr.core).onhalt = false → s.cores.sorted = true →
    ∃ t, exec (.trHalt o) s = .next t ∧
      t.groups.get? g = some { gr with park := .halt, memo := {}, pc := gr.next } ∧
      (t.core gr.core).halts = min ((s.core gr.core).halts + 1) (2 ^ 32 - 1) ∧
      (t.core gr.core).stop = (s.core gr.core).stop ∧ t.warps = s.warps ∧ t.mem = s.mem

/-- PAGE_WALK_READ, where the device reaches the entry's line at its home (R326): at a leaf that permits the access and
whose frame is no fault, the entry is cached, the walk is over, and lanes that waited to be fetched are runnable (R326,
R327); at an entry that leads to a table, the walk goes on there; at a reserved entry, or a leaf that does not permit
the access, it is made again from the root, and the second time, where no lane is fetched by it, it ends in XLATE or
PROT. That every entry is cached is the model's choice (log 15). -/
def Obligations.WalkReads : Prop :=
  ∀ (s : State) (k : Nat) (w : Walk) (e : DWord), s.walks.get? k = some w → w.fault = none → s.threadsOk →
    let a := w.table + 8 * (vIndex w.lvl w.va % 4096)
    s.ownPa a = true → (s.unasked.devRead a 8).1.need = [] → e = BitVec.ofNat 64 (s.unasked.devRead a 8).2 →
    (entryOk s.chip w.lvl e = true → eCt e = false → eLeaf e = true → permits w.need e = true →
      s.leafFault w.need (leafPa w.lvl e w.va) = none →
      ∃ t, exec (.pageWalkRead k) s = .next t ∧ ⟨w.ctx, w.lvl, vIndex w.lvl w.va, e⟩ ∈ t.tlb ∧ t.walks = s.walks.del k ∧
        ∀ v l, (s.lane v l).entry = .fetching k → t.Went (v, l) (s.lane v l).pc) ∧
    (entryOk s.chip w.lvl e = true → eCt e = false → eLeaf e = false →
      ∃ t, exec (.pageWalkRead k) s = .next t ∧ ⟨w.ctx, w.lvl, vIndex w.lvl w.va, e⟩ ∈ t.tlb ∧
        t.walks.get? k = some { w with lvl := w.lvl - 1, table := eFrame e * 4096 }) ∧
    ∀ c : Nat, (entryOk s.chip w.lvl e = false ∧ c = 0x0C) ∨
        (entryOk s.chip w.lvl e = true ∧ eCt e = false ∧ eLeaf e = true ∧ permits w.need e = false ∧ c = 0x0D) →
      (w.fresh = false → ∃ t, exec (.pageWalkRead k) s = .next t ∧
        t.walks.get? k = some { w with fresh := true, lvl := 3, table := (s.ctx w.ctx).root }) ∧
      (w.fresh = true → (∀ v l, (s.lane v l).entry ≠ .fetching k) → ∃ t, exec (.pageWalkRead k) s = .next t ∧
        t.walks.get? k = some { w with fault := some c })

/-! ## Clauses and meetings -/

/-- A clause header whose words are fetched, R38, R39, R95: the lanes of the warps whose WAIT flags are clear start the clause as
one group, standing at its first word; the other lanes are flag-blocked. -/
def Obligations.HeaderStarts : Prop :=
  ∀ (h : ClauseHdr) (s s1 : State) (core sub b : Nat) (a : DWord) (hd : Bool) (ls : List (Nat × Nat)) (ws : List Word),
    s.threadsOk → s.focus = .sub core sub → s.formation core sub = some (b, a, hd, ls) →
    s.fetch core (s.block b).ctx (s.oldCode ls) (a + 4) (hdrLen h) = (s1, .words ws) →
    ∃ t, exec (.clauseHeader h) s = .next t ∧ t.mem = s1.mem ∧
      (∀ x ∈ ls, (s.warp x.1).passes h.wait = false → (t.lane x.1 x.2).entry = .flagBlocked h.wait) ∧
      ((∀ x ∈ ls, (s.warp x.1).passes h.wait = false) → t.focus = .none) ∧
      ((∃ x ∈ ls, (s.warp x.1).passes h.wait = true) → ∃ g gr, t.focus = .group g ∧ t.groups.get? g = some gr ∧
        gr.lanes = ls.filter (fun x => (s.warp x.1).passes h.wait) ∧ gr.block = b ∧ gr.hdr = a ∧ gr.words = ws ∧
        gr.seta = h.seta ∧ gr.setb = h.setb ∧ gr.handler = hd ∧ gr.pc = a + 4 ∧
        ∀ x ∈ gr.lanes, (t.lane x.1 x.2).entry = .group g)

/-- Votes, matches, elections, shuffles, reductions and scans over the lanes that have met (R116, R117, R119); Q forms over
the quads of the warp (R118): every lane receives its result, sr.emask is the lanes' mask, and only threads change. -/
def Obligations.MeetingsComplete : Prop :=
  ∀ (o : Ops) (s : State) (g : Nat) (gr : Group) (w : Nat) (ls : List Nat),
    let a (l : Nat) : Word := src32 (s.warp w) (s.lane w l) o.a
    let b (l : Nat) : Word := src32 (s.warp w) (s.lane w l) o.b
    let done (i : Instr) (em : Bool) (r : Nat → Lane → Lane) : Prop :=
      ∃ t, exec i s = .next t ∧ s.onlyThreads t ∧ ∀ l ∈ ls,
        (r l (s.lane w l)).regsAre (t.lane w l) ∧ (em = true → (t.lane w l).emask = laneMask ls)
    (∀ (sp : Fin 8) (sn : Bool), s.Meets g gr o { ps := [sp] } w ls → (∀ l ∈ ls, b l = laneMask ls) →
      let x (l : Nat) : Bool := (s.lane w l).getP sp != sn
      done (.wvVote o sp sn .all) true (fun _ L => L.putT o.d (decide (∀ j ∈ ls, x j = true))) ∧
      done (.wvVote o sp sn .any) true (fun _ L => L.putT o.d (decide (∃ j ∈ ls, x j = true))) ∧
      done (.wvVote o sp sn .uni) true (fun _ L => L.putT o.d (decide (∀ j ∈ ls, ∀ k ∈ ls, x j = x k))) ∧
      done (.wvBallot o sp sn) true (fun _ L => L.putD o.d (laneMask (ls.filter x)))) ∧
    (s.Meets g gr o {} w ls → (∀ l ∈ ls, b l = laneMask ls) →
      done (.wvMatch o false) true (fun l L => L.putD o.d (laneMask (ls.filter fun j => a j = a l))) ∧
      done (.wvMatch o true) true (fun l L => L.putD o.d (if ∀ j ∈ ls, a j = a l then laneMask ls else 0)) ∧
      done (.wvElect o) true (fun l L => L.putT o.d (decide (∀ j ∈ ls, l ≤ j))) ∧
      (∀ op, done (.wrRed o op) true (fun _ L => L.putD o.d ((ls.map a).foldl (wrStep op) (wrIdentity op)))) ∧
      (∀ op excl, done (.wrScan o op excl) true (fun l L => L.putD o.d
        (((ls.filter fun j => decide (j < l) || (!excl && j == l)).map a).foldl (wrStep op) (wrIdentity op))))) ∧
    (∀ (mode : ShflMode) (b64 : Bool), s.Meets g gr o ⟨wd b64, wd b64, 1, 1, false, []⟩ w ls →
      (∀ l ∈ ls, src32 (s.warp w) (s.lane w l) o.c = laneMask ls) →
      done (.xlShfl o mode b64) true (fun l L =>
        let j := match mode with
          | .idx => (b l).toNat % 32
          | .up => if (b l).toNat ≤ l then l - (b l).toNat else l
          | .dn => if l + (b l).toNat < 32 then l + (b l).toNat else l
          | .bfly => l ^^^ ((b l).toNat % 32)
        L.putDW o.d b64 (srcW b64 (s.warp w) (s.lane w (if j ∈ ls then j else l)) o.a))) ∧
    (s.Meets g gr o {} w ls → (∀ l ∈ ls, ∀ j, j / 4 = l / 4 →
        (s.isLive (w, j) = true → j ∈ ls) ∧
          ∀ r ∈ srcV o.a 1, r ∉ (s.lane w j).vBad ∧ r ∉ s.pendingV w j) →
      done (.qSwap o .h) false (fun l L => L.putD o.d (a (l ^^^ 1))) ∧
      done (.qSwap o .v) false (fun l L => L.putD o.d (a (l ^^^ 2))) ∧
      done (.qSwap o .diag) false (fun l L => L.putD o.d (a (l ^^^ 3))) ∧
      done (.qBcast o) false (fun l L => L.putD o.d (a (4 * (l / 4) + (b l).toNat % 4))))

/-- B.BAR and B.CBAR complete when all have arrived (R120): B.BAR with a count where that many threads of the block have, and
without one where every live thread lane of the block has; B.CBAR where every live thread lane of the cluster has; the
group then goes on, and the barrier stands at its start again. -/
def Obligations.BarriersComplete : Prop :=
  ∀ (o : Ops) (s : State) (g : Nat) (gr : Group) (w : Nat) (ls : List Nat) (B : Block),
    s.Ready g gr o {} → s.Team g gr w ls o.pr → gr.memo = {} → s.blocks.get? gr.block = some B →
    AMap.sorted s.blocks = true → s.fencedCore gr.lanes = true →
    (∀ id : Fin 16, B.bars = [] → (∀ e ∈ s.groups, e.1 ≠ g → e.2.park ≠ .barrier id.val) →
      (∀ l ∈ ls, (src32 (s.warp w) (s.lane w l) o.b).toNat = ls.length) ∨
        ((∀ l ∈ ls, src32 (s.warp w) (s.lane w l) o.b = 0) ∧ ∀ x ∈ s.liveOf gr.block, x ∈ gr.lanes) →
      ∃ t, exec (.bBar o id) s = .next t ∧ t.groups = ((s.atWord g).retire g gr).groups ∧
        (t.block gr.block).bars = [] ∧ t = { s with warps := t.warps, groups := t.groups, focus := t.focus, blocks := t.blocks }) ∧
    (∀ id : Fin 4, s.cbars = [] → (∀ e ∈ s.groups, e.1 ≠ g → e.2.park ≠ .cbarrier id.val) →
      s.clusterOf B.launch B.cluster = [gr.block] → (∀ x ∈ s.liveOf gr.block, x ∈ gr.lanes) →
      gr.park = .run → (∀ e ∈ s.caches, e.2.st ≠ .u) → s.fencedWide gr.core gr.lanes (s.pushedBy gr.core) = true →
      ∃ t, exec (.bCbar o id) s = .next t ∧ t.groups = ((s.atWord g).retire g gr).groups ∧ t.cbars = [] ∧
        s.onlyThreads t)

/-! ## Global accesses -/

/-- Loads, stores, atomics and reductions complete: with every lane's address open and no copy of the lines in the core's
L1, each executing thread lane's elements are accesses in flight at the addresses x + sign-extend(y), and the group is
done with the word. Memory, caches and every register are as they were: a store is applied at its line's home, and a
result arrives later (R220, R232, R233).
Where no walk is needed and a lane fails, its warp traps and no access is made (R42, R232): XLATE where the address has high
bits or leads nowhere, ALIGN where it is not a multiple of the width, PROT where its page forbids the access; TAD is the
address of the first failing lane. -/
def Obligations.AccessesComplete : Prop :=
  (∀ (i : Instr) (A : AccessForm) (s : State) (g : Nat) (gr : Group) (p : Nat × Nat → Nat), accessForm i = some A →
    s.Ready g gr A.o A.wds → s.threadsOk → AMap.sorted s.ops = true → gr.park = .run → s.execHelpers gr A.o.pr = [] →
    s.uncoloured gr A.o.pr → Group.flagFull s gr A.fs = false →
    (∀ x ∈ s.execThreads gr A.o.pr,
      s.Open gr A.n ⟨x.1, x.2, wAddr s A.o x, A.act.need⟩ (p x) ∧ s.cline? gr.core (p x / 128) = none) →
    ∃ t, exec i s = .next t ∧ t.mem = s.mem ∧ t.caches = s.caches ∧
      t.groups = ((s.atWord g).retire g gr).groups ∧ (∀ w l, (s.lane w l).regsAre (t.lane w l)) ∧
      ∀ x ∈ s.execThreads gr A.o.pr, ∀ e ∈ A.els (s.warp x.1) (s.lane x.1 x.2), ∃ k op, t.ops.get? k = some op ∧
        op.warp = x.1 ∧ op.lane = x.2 ∧ op.pa = p x + e.off ∧ op.len = e.len ∧ op.act = A.act ∧ op.val = e.val ∧
        op.cmp = e.cmp ∧ op.dst = e.dst ∧ op.dstLen = e.dstLen) ∧
  ∀ (i : Instr) (A : AccessForm) (s : State) (g : Nat) (gr : Group) (w l code : Nat) (ls pre post : List Nat),
    accessForm i = some A → s.Ready g gr A.o A.wds → s.Team g gr w ls A.o.pr → s.holdsTraps w = false → gr.park = .run →
    gr.memo = {} →
    let acc (j : Nat) : Acc := ⟨w, j, wAddr s A.o (w, j), A.act.need⟩
    let found (j : Nat) : Look := s.resolve [] (s.block gr.block).ctx A.n (acc j)
    let va := wAddr s A.o (w, l)
    (∀ j ∈ ls, ∀ lvl table fresh, found j ≠ .walk lvl table fresh) → ls = pre ++ l :: post →
    (∀ j ∈ pre, ∃ p, s.Open gr A.n (acc j) p) →
    (va.toNat / 2 ^ 60 ≠ 0 ∧ code = 0x0C) ∨ (va.toNat / 2 ^ 60 = 0 ∧ va.toNat % A.n ≠ 0 ∧ code = 0x0B) ∨
      (found l = .fault .xlate ∧ code = 0x0C) ∨ (found l = .fault .prot ∧ code = 0x0D) →
    ∃ t, exec i s = .next t ∧ t.ops = s.ops ∧ (ringBase s.erbase = 0 → t.mem = s.mem) ∧
      (t.warp w).tcs = BitVec.ofNat 64 (code + if A.act.need.wr ∧ code ≠ 0x0B then 0x20000 else 0) ∧
      (t.warp w).tad = va ∧ (t.warp w).tpc = gr.pc &&& 0x0FFFFFFFFFFFFFFC ∧ (t.warp w).tlm = laneMask ls ∧
      (s.warp w).trapped (t.warp w) ∧ ∀ j ∈ ls, s.InHandler t w j code ∧ (s.lane w j).trapped (t.lane w j)

/-- RD.ORD in a block of a deterministic launch records each lane's reduction, in ascending lane order, where the
block's area has room, and its records' places are open; of memory nothing changes outside the records' lines, and no
access is in flight for it (R225). Without determinism it raises ILLEGAL. What the 16 bytes of a record are the spec
leaves to the device (log 53). -/
def Obligations.OrderedReductions : Prop :=
  ∀ (op : GOp) (i : Instr) (o : Ops) (m : RdMod) (s : State) (g : Nat) (gr : Group) (w : Nat) (ls : List Nat) (B : Block)
    (p q : Nat → Nat), m.ord = true →
    ((op = .add ∧ i = .rdAdd o m) ∨ (op = .min ∧ i = .rdMin o m) ∨ (op = .max ∧ i = .rdMax o m) ∨
      (op = .and ∧ i = .rdAnd o m) ∨ (op = .or ∧ i = .rdOr o m) ∨ (op = .xor ∧ i = .rdXor o m) ∨
      (op = .fadd ∧ i = .rdFadd o m)) →
    s.Ready g gr o ⟨1, 2, 1, wd m.w64, false, []⟩ → s.Team g gr w ls o.pr → gr.park = .run →
    s.blocks.get? gr.block = some B → AMap.sorted s.blocks = true →
    let n := if m.w64 then 8 else 4
    (B.det = true → s.uncoloured gr o.pr → 16 * (B.ords.length + ls.length) ≤ B.ordSize →
      (∀ l ∈ ls, s.Open gr n ⟨w, l, wAddr s o (w, l), (Act.rd op m.u).need⟩ (p l)) →
      (∀ j (h : j < ls.length), s.Open gr n ⟨w, ls[j], B.ordAddr (B.ords.length + j), { wr := true }⟩ (q j) ∧ q j % 16 = 0) →
      ∃ t, exec i s = .next t ∧ t.ops = s.ops ∧
        (∀ a, (∀ j, j < ls.length → a / 128 ≠ q j / 128) → memGet t.mem a = memGet s.mem a) ∧
        (t.block gr.block).ords = B.ords ++ ls.map fun l =>
          { warp := (s.warp w).num, n := (s.warp w).ordCount, lane := l, pa := p l, op := op, u := m.u, w64 := m.w64,
            val := if op = .fadd ∧ m.w64 = true then srcF64 (s.warp w) (s.lane w l) o.c
              else srcW m.w64 (s.warp w) (s.lane w l) o.c,
            vpage := (wAddr s o (w, l)).toNat / 4096 }) ∧
    (B.det = false → s.holdsTraps w = false → gr.handler = false →
      ∃ t, exec i s = .next t ∧ t.mem = s.mem ∧ (t.warp w).tcs = 0x01 ∧ (t.warp w).tad = gr.word0.setWidth 64 ∧
        ∀ l ∈ ls, s.InHandler t w l 0x01)

/-- FN.FENCE waits for what its scope names and then goes on (R238); the wider scopes push the core's partials first.
FENCE_COMPLETE where the lanes' accesses, spills and commands' requests are done, and in the wider scopes their partials
and those that the fence pushed are folded and sr.time has reached sr.gwct. FLAG_CLEAR, R40: a
piece of work of which nothing is left releases its attachment to its flag. Which accesses a fence waits for is the
model's choice (log 17). -/
def Obligations.FencesComplete : Prop :=
  ((∀ (o : Ops) (sc : Scope) (s : State) (g : Nat) (gr : Group), s.Ready g gr o {} → s.threadsOk → gr.memo.fenced = false →
    s.execThreads gr o.pr ≠ [] →
    AMap.sorted s.caches = true → gr.core < 192 →
    ∃ t ps, exec (.fnFence o sc) s = .next t ∧ t.mem = s.mem ∧ t.ops = s.ops ∧ t.warps = s.warps ∧
      t.groups.get? g = some { gr with
        park := .fence sc, memo := { gr.memo with who := s.execThreads gr o.pr, pushes := ps } } ∧
      (sc = .core → ps = [] ∧ t.caches = s.caches ∧ t.msgs = s.msgs) ∧
      (sc ≠ .core → ps = t.pushedBy gr.core ∧ ∀ line c, t.cline? gr.core line = some c → c.st ≠ .u)) ∧
  (∀ (o : Ops) (sc : Scope) (s : State) (g : Nat) (gr : Group), s.Ready g gr o {} →
    gr.memo.fenced = true ∨ s.execThreads gr o.pr = [] →
    exec (.fnFence o sc) s = .next ((s.atWord g).retire g gr)) ∧
  ∀ (g : Nat) (s : State) (gr : Group) (sc : Scope), s.groups.get? g = some gr → s.threadsOk → gr.park = .fence sc →
    (∀ e ∈ s.ops, gr.memo.who.contains (e.2.warp, e.2.lane) = false) →
    (∀ e ∈ s.remotes, gr.memo.who.contains (e.2.warp, e.2.lane) = false) →
    (∀ e ∈ s.cmds, gr.memo.who.any (fun x => x.1 == e.2.warp) = false ∨ e.2.want = []) →
    (∀ e ∈ s.spills, gr.memo.who.any (fun x => x.1 == e.2.warp) = false) →
    (sc ≠ .core → s.partialOf gr.memo.who.contains = false ∧ (∀ k ∈ gr.memo.pushes, s.foldedIn k = true) ∧
      ∀ x ∈ gr.memo.who, (s.warp x.1).gwct ≤ s.timeAt gr.core) →
    ∃ t, exec (.fenceComplete g) s = .next t ∧ t = { s with groups := t.groups } ∧
      t.groups.get? g = some { gr with park := .run, memo := { gr.memo with fenced := true } }) ∧
  ∀ (k f : Nat) (s : State) (x : Work) (W : Warp), s.works.get? k = some x → x.left = 0 → x.flag = some f →
    s.warps.get? x.warp = some W → s.threadsOk → AMap.sorted W.flags = true →
    ∃ t, exec (.flagClear k) s = .next t ∧ (t.warp x.warp).flags.getD f 0 = W.flags.getD f 0 - 1 ∧
      t = { s with warps := t.warps, works := s.works.del k }

/-- FN.INV, FN.WB and FN.PRE over ranges within one page of this chip's memory each (R210, R239): the core gives up
its copies of every line of them, or writes their dirty words back and keeps them, or asks for the lines that it does
not hold; memory is as it was until a home is reached. What the fetch path holds is the model's reading (log 12). -/
def Obligations.RangeForms : Prop :=
  ∀ (o : Ops) (fs : Bool) (s : State) (g : Nat) (gr : Group) (w : Nat) (ls : List Nat) (p : Nat → Nat),
    s.Ready g gr o ⟨1, 2, 1, 1, false, []⟩ → s.Team g gr w ls o.pr → gr.park = .run → Group.flagFull s gr fs = false →
    AMap.sorted s.caches = true → AMap.sorted s.ops = true → gr.core < 192 →
    let va (l : Nat) : DWord := src64 (s.warp w) (s.lane w l) o.a
    let len (l : Nat) : Nat := (src32 (s.warp w) (s.lane w l) o.b).toNat
    (∀ l ∈ ls, len l ≠ 0 ∧ (va l).toNat % 4096 + len l ≤ 4096 ∧
      s.resolve [] (s.block gr.block).ctx 1 ⟨w, l, va l, { rd := true }⟩ = .pa (p l) ∧ s.ownPa (p l) = true ∧
      gr.keptAt ⟨w, l, va l, { rd := true }⟩ (p l) ∧ ∀ line, p l / 128 ≤ line → line ≤ (p l + len l - 1) / 128 → s.lineBusy gr.core line = false) →
    let named (line : Nat) : Prop := ∃ l ∈ ls, p l / 128 ≤ line ∧ line ≤ (p l + len l - 1) / 128
    (∀ allc, ∃ t, exec (.fnInv o allc fs) s = .next t ∧ t.mem = s.mem ∧
      (∀ line, named line → t.cline? gr.core line = none) ∧
      ∀ c line, c < 1024 → ¬named line → t.cline? c line = s.cline? c line) ∧
    (∃ t, exec (.fnWb o fs) s = .next t ∧ t.mem = s.mem ∧
      (∀ line, named line → ∀ c, t.cline? gr.core line = some c → c.dirty = [] ∧ (s.cline? gr.core line).map (·.data) = some c.data) ∧
      ∀ c line, c ≠ gr.core ∨ ¬named line → c < 1024 → t.cline? c line = s.cline? c line) ∧
    (∀ pol, (∀ line, named line → s.cline? gr.core line = none) →
      ∃ t, exec (.fnPre o pol fs) s = .next t ∧ t.mem = s.mem ∧ t.caches = s.caches ∧
        ∀ line, named line → ∃ k op, t.ops.get? k = some op ∧ op.pa = 128 * line ∧ op.act = .pre ∧ op.dst = none)

/-! ## Lines and their homes -/

/-- Requests that only read, or ask for a state, at an idle line (R209, R211, R217, R223, R263, R365): ownership, a THRU read,
a lease while the time is locked and none otherwise, a tracked copy, a partial, and a colour; memory is unchanged. That the
home grants a lease by its own chip's LOCK is the model's reading (log 33). -/
def Obligations.HomeReads : Prop :=
  ∀ (id : Nat) (m : Msg) (s : State), s.Idle id m →
    (∀ op, m.body = .own op → ∃ t c, exec (.ownRequest id) s = .next t ∧ t.mem = s.mem ∧
      s.served t id m (.grant op true c) (.o m.src) ∧ c.st = .e ∧ c.data = lineBytes s.mem m.line ∧
      c.colour = (s.hline m.line).colour ∧ c.lx = s.lxAt m) ∧
    (∀ k op, s.ops.get? k = some op →
      let v : DWord := BitVec.ofNat 64 (memRead s.mem op.pa op.len)
      (op.act = .pre ∨ (∃ b, op.act = .ld b)) →
      (m.body = .thruRd k → ∃ t, exec (.thruRead id) s = .next t ∧ t.mem = s.mem ∧ s.served t id m (.data k v none) .i) ∧
      (∀ len, m.body = .leaseReq k len →
        (s.sync.lock = false → ∃ t, exec (.leaseRequest id) s = .next t ∧ t.mem = s.mem ∧
          s.served t id m (.data k v none) .i) ∧
        (s.sync.lock = true → ∃ t c, exec (.leaseRequest id) s = .next t ∧ t.mem = s.mem ∧
          s.served t id m (.data k v (some c)) .i ∧ c.st = .l ∧ c.expiry = s.timeOf m.dst + max 32 (min 32768 len) ∧
          c.data = lineBytes s.mem m.line ∧ (t.hline m.line).lx = max (s.lxAt m) c.expiry)) ∧
      (m.body = .trackReq k → ∃ t c, exec (.trackRequest id) s = .next t ∧ t.mem = s.mem ∧
        s.served t id m (.data k v (some c)) (.t [m.src]) ∧ c.st = .t ∧ c.data = lineBytes s.mem m.line)) ∧
    (∀ k, m.body = .rdLoc k → ∃ t, exec (.rdLocRequest id) s = .next t ∧ t.mem = s.mem ∧
      s.served t id m (.grantU k) (.u [m.src])) ∧
    (∀ g slot gr, m.body = .colourQ g slot → s.groups.get? g = some gr → AMap.sorted gr.memo.colours = true →
      ∃ t x, exec (.colourQuery id) s = .next t ∧ t.mem = s.mem ∧ t.groups.get? g = some x ∧
        x.memo.colours.get? slot = some (s.hline m.line).colour ∧ x.memo.waiting = gr.memo.waiting - 1 ∧
        t.msgs = s.msgs.del id)

/-- A store, an atomic and a THRU reduction are applied at the home, R211, and return the GWCT of R220: the larger of the home's
time and the line's Lx; every byte outside the element is unchanged. Stores write 1, 2, 4 or 8 bytes (R214). A reduction that later lanes' reductions into
its element are combined with is applied with them, in order (R227). -/
def Obligations.HomeWrites : Prop :=
  ∀ (id k : Nat) (m : Msg) (op : Op) (s : State), s.Idle id m → s.memOk → s.ops.get? k = some op →
    op.len = 4 ∨ op.len = 8 ∨ (op.act = .st ∧ (op.len = 1 ∨ op.len = 2)) →
    let old : DWord := BitVec.ofNat 64 (memRead s.mem op.pa op.len)
    let new : DWord := match op.act with
      | .st => op.val
      | .at_ f u | .rd f u => gopEval f u (op.len == 8) old op.val op.cmp
      | _ => old
    let done (t : State) : Prop := memRead t.mem op.pa op.len = new.toNat % 256 ^ op.len ∧
      (∀ a, a < op.pa ∨ op.pa + op.len ≤ a → memGet t.mem a = memGet s.mem a) ∧
      s.served t id m (.wack k (max (s.timeOf m.dst) (s.lxAt m)) (if m.body = .rdThru k then 0 else old) none) .i
    (∀ len, m.body = .write k len → op.pol = .thru ∨ op.pol = .own →
      (op.act = .st ∨ ∃ f u, op.act = .at_ f u) → ∃ t, exec (.applyWrite id) s = .next t ∧ done t) ∧
    (∀ f u, m.body = .rdThru k → op.act = .rd f u →
      (op.chain = [] → ∃ t, exec (.rdThruRequest id) s = .next t ∧ done t) ∧
      ∃ t, exec (.rdThruRequest id) s = .next t ∧
        t.mem = (s.chained k op).foldl (fun mem e => (e.2.apply mem).1) s.mem ∧
        s.served t id m (.wack k (max (s.timeOf m.dst) (s.lxAt m)) 0 none) .i)

/-- An owner's dirty words reach the home, and an owner that gave the line up holds it no longer (R211, R215); a partial that a
core pushes of a line that lies idle is applied at once, and its warps receive a GWCT (R224).
A core answers its home, R211: recalled, an owner gives the line up with its dirty words, or keeps a tracked copy where it
is only downgraded, and a core with a partial pushes it; invalidated, it drops its copy. Once the last holder that a
request for ownership waited for has answered, the home grants it. -/
def Obligations.HolderReturns : Prop :=
  (∀ (id : Nat) (m : Msg) (s : State), s.msgs.get? id = some m → s.deliverable id m = true → AMap.sorted s.lines = true →
    (∀ mask data drop, m.body = .wb mask data drop none → (s.hline m.line).pkg = .o m.src →
      ∃ t, exec (.writeBack id) s = .next t ∧ t.mem = applyWords s.mem m.line data mask ∧ t.msgs = s.msgs.del id ∧
        t.hline m.line = { s.hline m.line with pkg := if drop then .i else .o m.src }) ∧
    (∀ q drop ack, s.Idle id m → m.body = .pushed q drop ack →
      ∃ t, exec (.pushedPartial id) s = .next t ∧ t.mem = applyPartial s.mem m.line q ∧ t.msgs = s.msgs.del id ∧
        t.hline m.line = s.hline m.line ∧ ∀ w, (s.warps.get? w).isSome = true →
          (t.warp w).gwct = if w ∈ q.who.map (·.1) then
            max (s.warp w).gwct (max (s.timeOf (homeOf m.line)) (s.hline m.line).lx) else (s.warp w).gwct)) ∧
  ∀ (id : Nat) (m : Msg) (s : State), s.msgs.get? id = some m → s.deliverable id m = true →
    AMap.sorted s.msgs = true → AMap.sorted s.lines = true → AMap.sorted s.caches = true →
    let reply (b : Body) : Msg := { src := m.dst, dst := m.src, line := m.line, body := b }
    let toHome (b : Body) : Msg := { src := m.dst, dst := homeOf m.line, line := m.line, body := b }
    (∀ downgrade fold c, m.body = .recall downgrade fold → m.dst < 256 → s.cline? m.dst m.line = some c →
      (c.st = .e ∨ c.st = .m → ∃ t, exec (.recall id) s = .next t ∧ t.mem = s.mem ∧ t.lines = s.lines ∧
        t.cline? m.dst m.line = (if downgrade then some { c with st := .t, dirty := [] } else none) ∧
        t.msgs = ((s.msgs.del id).set (s.ids + 1) (toHome (.wb c.dirty c.data (!downgrade) none))).set (s.ids + 2)
          (reply .ack)) ∧
      (∀ q, c.st = .u → c.partial_ = some q → ∃ t, exec (.recall id) s = .next t ∧ t.mem = s.mem ∧ t.lines = s.lines ∧
        t.cline? m.dst m.line = none ∧
        t.msgs = ((s.msgs.del id).set (s.ids + 1) (toHome (.pushed q true true))).set (s.ids + 2) (reply .ack))) ∧
    (m.body = .inval → m.dst < 256 → ∃ t, exec (.invalidate id) s = .next t ∧ t.mem = s.mem ∧ t.lines = s.lines ∧
      t.cline? m.dst m.line = none ∧ t.msgs = (s.msgs.del id).set (s.ids + 1) (reply .ack)) ∧
    (∀ b k m' op, m.body = .ack → (s.hline m.line).busy = some b → b.from_ = [m.src] → b.host = false → b.chips = [] →
      b.remote = false → b.dead = false → b.parts = [] → b.toAsk = none → b.sent = none → b.msg = k → k ≠ id → s.msgs.get? k = some m' → m'.line = m.line →
      m'.body = .own op → s.remoteChip m.line = none → isHostLine m.line = false → (s.hline m.line).queue = [] →
      ∃ t c, exec (.recallAck id) s = .next t ∧ t.mem = s.mem ∧ (t.hline m.line).busy = none ∧
        (t.hline m.line).pkg = .o m'.src ∧
        t.msgs.get? (s.ids + 1) = some { src := m'.dst, dst := m'.src, line := m.line, body := c } ∧
        ∃ fresh copy, c = .grant op fresh copy)

/-- Replies reach the core, R209, R220, R222, R234, R236: a load's data goes into its destination, sign-extended where the form
says so; ownership lets the waiting store or atomic be made in the L1; an applied write raises sr.gwct, and with LEASE or
TRACK takes away the shared copy that the core kept (R210); an atomic's destination receives the element's old value, whether
it was made in the L1 or at the home; the access is done with, and memory is unchanged. -/
def Obligations.RepliesArrive : Prop :=
  ∀ (id k : Nat) (m : Msg) (op : Op) (s : State) (W : Warp), s.msgs.get? id = some m → s.deliverable id m = true →
    s.ops.get? k = some op → s.threadsOk → s.warps.get? op.warp = some W → AMap.sorted s.caches = true →
    op.hold = none → op.spill = none → op.chain = [] →
    let L := s.lane op.warp op.lane
    (∀ v d sg, m.body = .data k v none → op.act = .ld sg → op.dst = some d → v.toNat < 2 ^ (8 * op.len) →
      let x : DWord := if sg = true ∧ 2 ^ (8 * op.len - 1) ≤ v.toNat then BitVec.ofInt 64 ((v.toNat : Int) - 2 ^ (8 * op.len)) else v
      ∃ t, exec (.dataReply id) s = .next t ∧ t.mem = s.mem ∧ t.ops = s.ops.del k ∧ t.msgs = s.msgs.del id ∧
        t.caches = s.caches ∧
        (t.lane op.warp op.lane).v = (if op.dstLen = 2 then L.setV64 d x else L.setV d (x.extractLsb' 0 32)).v) ∧
    (∀ c, m.body = .grant (some k) true c → op.agent = m.dst → op.pol = .own → op.stage = .waiting → op.pa / 128 = m.line →
      (s.hline m.line).pkg = .o m.dst → AMap.sorted s.ops = true →
      (∀ e ∈ s.ops, e.1 < k → ¬(e.2.agent = m.dst ∧ e.2.pa / 128 = m.line ∧ e.2.pol = .own ∧ e.2.stage = .waiting)) →
      let old : DWord := BitVec.ofNat 64 (lineVal c.data (op.pa % 128) op.len)
      ∀ new : DWord, (op.act = .st ∧ new = op.val) ∨
          (∃ f u, op.act = .at_ f u ∧ new = gopEval f u (op.len == 8) old op.val op.cmp) →
        ∃ t c', exec (.dataReply id) s = .next t ∧ t.mem = s.mem ∧ t.ops = s.ops.del k ∧
          t.cline? m.dst m.line = some c' ∧ c'.st = .m ∧ c'.data = linePut c.data (op.pa % 128) op.len new.toNat ∧
          op.pa % 128 / 4 ∈ c'.dirty ∧ (op.len = 8 → op.pa % 128 / 4 + 1 ∈ c'.dirty) ∧
          (t.warp op.warp).gwct = max W.gwct (max (s.timeOf m.dst) c.lx) ∧
          (t.lane op.warp op.lane).v = (L.putRes op.dst op.dstLen old).v) ∧
    (∀ n v, m.body = .wack k n v none → op.act = .st ∨ (∃ f u, op.act = .at_ f u) →
      ∃ t, exec (.writeAck id) s = .next t ∧ t.mem = s.mem ∧ t.ops = s.ops.del k ∧
        (t.warp op.warp).gwct = max W.gwct n ∧ (t.lane op.warp op.lane).v = (L.putRes op.dst op.dstLen v).v ∧
        (op.pol = .own ∨ op.pol = .thru → t.caches = s.caches) ∧
        ∀ c, op.pol = .lease ∨ op.pol = .track → s.cline? m.dst m.line = some c → c.st = .t ∨ c.st = .l →
          t.cline? m.dst m.line = none)

/-- Copies leave of their own accord, R215, R216: an L1 gives up what R215 says, a line without holders leaves the L2
and its Lx enters its slice's horizon, and a proxy gives up the chip's rights. WEIR_TICK and POOL_RESET at a slice
where no request waits (R229, R230): each enabled class gains its rate, up to its depth; the pool is emptied at each
multiple of 1,000 ns. That lines leave one at a time is the model's choice (log 22). -/
def Obligations.LinesLeaveAndTokensCome : Prop :=
  (∀ (s : State) (a line : Nat), AMap.sorted s.caches = true → AMap.sorted s.lines = true → AMap.sorted s.slices = true →
    (∀ c, s.cline? a line = some c → a < 256 → ∃ t, exec (.l1Drop a line) s = .next t ∧ t.mem = s.mem ∧
      t.cline? a line = none ∧ (c.st = .t ∨ c.st = .l → t.msgs = s.msgs) ∧
      (c.st = .e ∨ c.st = .m → t.msgs = s.msgs.set (s.ids + 1)
        { src := a, dst := homeOf line, line, body := .wb c.dirty c.data true none })) ∧
    ((s.hline line).inL2 = true → (s.hline line).busy = none → (s.hline line).queue = [] → (s.hline line).pkg = .i →
      s.remoteChip line = none → isHostLine line = false →
      ∃ t, exec (.l2Evict line) s = .next t ∧ t = { s with lines := t.lines, slices := t.slices } ∧
        t.hline line = { s.hline line with inL2 := false, lx := 0 } ∧
        (t.slice (homeOf line - 1000)).horizon = max (s.slice (homeOf line - 1000)).horizon (s.hline line).lx) ∧
    (∀ c, s.remoteChip line = some c → (s.hline line).busy = none → (s.hline line).queue = [] →
      (s.hline line).inL2 = true ∨ (s.hline line).chip ≠ .none → (s.hline line).chip ≠ .own → (s.hline line).pkg = .i →
      ∃ t, exec (.proxyEvict line) s = .next t ∧ t = { s with lines := t.lines } ∧
        t.hline line = { s.hline line with chip := .none, inL2 := false, lease := 0, lx := 0 })) ∧
  ∀ (s : State) (n : Nat), n < Config.nSlice → AMap.sorted s.slices = true →
    (AMap.sorted (s.slice n).buckets = true → (s.slice n).port = [] → (s.slice n).tick < s.time / 64 →
      ∃ t, exec (.weirTick n) s = .next t ∧ t = { s with slices := t.slices } ∧ (t.slice n).tick = s.time / 64 ∧
        ∀ c, c < 16 → (t.slice n).buckets.getD c 0 =
          if weirEn (s.weirOf c) then min ((s.slice n).buckets.getD c 0 + weirRate (s.weirOf c)) (weirDepth (s.weirOf c))
          else (s.slice n).buckets.getD c 0) ∧
    ((s.slice n).pmark < s.time / 1000 →
      ∃ t, exec (.poolReset n) s = .next t ∧ t = { s with slices := t.slices } ∧ (t.slice n).pool = 0 ∧
        (t.slice n).pmark = s.time / 1000 ∧ (t.slice n).buckets = (s.slice n).buckets)

/-! ## The local store and the Churn -/

/-- Accesses of one lane to its own block's store that pass the checks of R156 are performed at once, element by element, on
the store and the lane's registers, and nothing is in flight (R158, R169); a remote access is performed at its block's core
(R159). -/
def Obligations.LocalStoreForms : Prop :=
  (∀ (i : Instr) (A : LocalForm) (s : State) (g : Nat) (gr : Group) (w l : Nat) (B : Block), localForm i = some A →
    s.Ready g gr A.o A.wds → s.Team g gr w [l] A.o.pr → s.blocks.get? gr.block = some B → AMap.sorted s.blocks = true →
    B.core = gr.core →
    let L := s.lane w l
    let x := src32 (s.warp w) L A.o.a + src32 (s.warp w) L A.o.b
    let es := A.els (s.warp w) L x
    (∀ y, y = x ∨ y ∈ es.map (·.x) → s.lsTarget gr.block y.toNat = some gr.block) →
    (x.toNat % 2 ^ 19) % A.n = 0 → x.toNat % 2 ^ 19 + A.n ≤ B.lsSize → B.churn = none → B.lsBad = [] →
    ∃ t, exec i s = .next t ∧ t.mem = s.mem ∧ t.ops = s.ops ∧ t.remotes = s.remotes ∧
      t.groups = ((s.atWord g).retire g gr).groups ∧
      let r := es.foldl (fun (r : Block × Lane) e =>
        let q := r.1.lsPerform A.act (e.x.toNat % 2 ^ 19) e.n e.val e.cmp
        (q.1, r.2.putRes e.dst e.dstLen q.2)) (B, L)
      t.block gr.block = r.1 ∧ r.2.regsAre (t.lane w l) ∧ ∀ b, b ≠ gr.block → t.block b = s.block b) ∧
  ∀ (k : Nat) (r : RemoteLs) (s : State) (B : Block), s.remotes = [(k, r)] → s.blocks.get? r.block = some B →
    AMap.sorted s.blocks = true → B.ended = false → r.acc = none → s.threadsOk →
    (s.warps.get? r.warp).isSome = true →
    ∃ t, exec (.remoteLsPerformed k) s = .next t ∧ t.mem = s.mem ∧ t.remotes = [] ∧
      t.block r.block = (B.lsPerform r.act r.addr r.len r.val r.cmp).1 ∧
      ((s.lane r.warp r.lane).putRes r.dst r.dstLen (B.lsPerform r.act r.addr r.len r.val r.cmp).2).regsAre
        (t.lane r.warp r.lane)

/-- HC.CLAIM without a Spillway claims the region that ctl names; repeated, it finds its claim; and while the region is being
cleared its group waits at the next word (R165, R170). CHURN_CLEAR_DONE leaves every KEY EMPTY and every VALUE 0, and
then the group goes on. HC.FREE waits while a region is being cleared or a table operation has still to act, and else
gives the region up (R166). H.STA reads its statistics (R172); a spill whose records would stand at LIMIT or above
leaves every group FULL (R167). When the header is translated is the model's reading (log 37). -/
def Obligations.ChurnClaims : Prop :=
  ∀ (s : State) (g : Nat) (gr : Group) (w : Nat) (ls : List Nat) (B : Block), s.Team g gr w ls ⟨7, false⟩ →
    s.blocks.get? gr.block = some B → AMap.sorted s.blocks = true →
    let waits : Group := { gr with park := .claim, memo := { passed := true }, pc := gr.next }
    (∀ (o : UOps) (k off : Nat), s.ReadyU g gr (usrcS o.a 2 ++ usrcS o.b 1) → gr.memo = {} → gr.park = .run →
      usrc64 (s.warp w) o.a = 0 → off < 512 → k ≤ 8 → off % 2 ^ k = 0 →
      usrc32 (s.warp w) o.b = BitVec.ofNat 32 (off + 2 ^ 16 * k) → 1024 * 2 ^ k ≤ B.churnSize →
      1024 * (off + 2 ^ k) ≤ B.lsSize →
      (B.churn = none → ∃ t c, exec (.hcClaim o) s = .next t ∧ t.mem = s.mem ∧ (t.block gr.block).churn = some c ∧
        c.off = 1024 * off ∧ c.k = k ∧ c.hdr = 0 ∧ c.clearing = true ∧ c.spilled = 0 ∧ c.full = 0 ∧
        t.groups.get? g = some waits) ∧
      ∀ c, B.churn = some c → c.off = 1024 * off → c.k = k → c.hdr = 0 →
        (c.clearing = true → ∃ t, exec (.hcClaim o) s = .next t ∧ t.blocks = s.blocks ∧ t.groups.get? g = some waits) ∧
        (c.clearing = false → exec (.hcClaim o) s = .next ((s.atWord g).retire g gr))) ∧
    (∀ c, B.churn = some c → c.clearing = true → AMap.sorted B.ls = true → s.groups.get? g = some gr →
      (∀ e ∈ s.groups, e.1 ≠ g → e.2.park ≠ .claim) → gr.park = .claim → gr.memo.passed = true →
      ∃ t, exec (.churnClearDone gr.block) s = .next t ∧
        t = { s with blocks := t.blocks, warps := t.warps, groups := t.groups, focus := t.focus } ∧
        (t.block gr.block).churn = some { c with clearing := false } ∧
        (gr.pc ≠ gr.clauseEnd → t.groups.get? g = some { gr with park := .run, memo := {} }) ∧
        (gr.pc = gr.clauseEnd → ∀ x ∈ gr.lanes, t.Went x gr.clauseEnd) ∧
        ∀ bk sl, bk < 2 ^ (c.k + 3) → sl < 8 → (t.block gr.block).lsRead (c.off + 128 * bk + 16 * sl) 8 = 2 ^ 64 - 1 ∧
          (t.block gr.block).lsRead (c.off + 128 * bk + 16 * sl + 8) 8 = 0) ∧
    (s.ReadyU g gr [] →
      ((s.atWord g).freeWaits gr = false → ∃ t, exec .hcFree s = .next t ∧ t.mem = s.mem ∧
        t.block gr.block = { B with churn := none } ∧ t.groups = ((s.atWord g).retire g gr).groups) ∧
      ((s.atWord g).freeWaits gr = true → ∃ t, exec .hcFree s = .next t ∧ t.blocks = s.blocks ∧
        t.groups.get? g = some { gr with park := .claim, memo := { gr.memo with asked := true } })) ∧
    (∀ o : Ops, s.Ready g gr o {} → s.Team g gr w ls o.pr → (∀ c, B.churn = some c → c.clearing = false) →
      ∃ t, exec (.hSta o) s = .next t ∧ s.onlyThreads t ∧ ∀ l ∈ ls,
        ((s.lane w l).putD o.d (B.statValue (src32 (s.warp w) (s.lane w l) o.a).toNat)).regsAre (t.lane w l)) ∧
    (∀ k x tail c, s.spills.get? k = some x → x.tail = some tail → x.limit ≤ tail → x.walks = [] → x.block = gr.block →
      B.churn = some c → c.id = x.claim → c.full + x.recs.length < 2 ^ 32 → c.spilled < 2 ^ 32 →
      x.warp = w → AMap.sorted s.spills = true →
      (∀ l r, (l, r) ∈ x.dsts → ∃ e ∈ x.recs, e.1 = l) → (x.dsts.map (·.1)).Nodup →
      ∃ t, exec (.spillAtomicReturn k) s = .next t ∧ t.mem = s.mem ∧ t.ops = s.ops ∧ t.spills = s.spills.del k ∧
        (t.block gr.block).churn = some { c with full := c.full + x.recs.length } ∧
        ∀ l r, (l, r) ∈ x.dsts → (t.lane w l).getV r = 4)

/-- A table operation of one lane on a claimed region without a Spillway, R162, R163, R168, R171: what happens at the entry of its
key, or at the first free slot of its window, and the status that the lane receives. -/
def Obligations.TableForms : Prop :=
  ∀ (o : Ops) (fs : Bool) (s : State) (g : Nat) (gr : Group) (w l : Nat) (B : Block) (c : Churn),
    s.Team g gr w [l] o.pr → s.blocks.get? gr.block = some B → AMap.sorted s.blocks = true → B.churn = some c →
    c.clearing = false → c.hdr = 0 → B.lsBad = [] → Group.flagFull s gr fs = false →
    let W := s.warp w
    let L := s.lane w l
    let key := src64 W L o.a
    let done (i : Instr) (B' : Block) (L' : Lane) : Prop :=
      ∃ t, exec i s = .next t ∧ t.mem = s.mem ∧ t.ops = s.ops ∧ t.block gr.block = B' ∧ L'.regsAre (t.lane w l)
    (∀ vs, s.Ready g gr o ⟨1, 2, vsWidth vs, 1, false, []⟩ → isLiveKey key = true →
      let v := hVal vs W L o
      (∀ p, B.findKey c key = some p → done (.hIns o vs fs) B (L.putD o.d (statusWord 1 (some p))) ∧
        ∀ op ty, done (.hAcc o vs op ty fs)
          (B.putValue c p (putHalf vs (B.valueAt c p) (accEval op ty (halfOf vs (B.valueAt c p)) v)))
          (L.putD o.d (statusWord 0 (some p)))) ∧
      (∀ p, B.findKey c key = none → B.findFree c key = some p →
        done (.hIns o vs fs) ((B.putKey c p key).putValue c p (placeVal vs v)) (L.putD o.d (statusWord 0 (some p))) ∧
        ∀ op ty, done (.hAcc o vs op ty fs) ((B.putKey c p key).putValue c p (placeVal vs v))
          (L.putD o.d (statusWord 0 (some p)))) ∧
      (B.findKey c key = none → B.findFree c key = none →
        done (.hIns o vs fs) { B with churn := some { c with spilled := min c.spilled 0xFFFFFFFF, full := min (c.full + 1) 0xFFFFFFFF } }
          (L.putD o.d (statusWord 4 none)))) ∧
    (∀ vs, s.Ready g gr o ⟨1, 2, vsWidth vs, 1, false, []⟩ → isLiveKey key = false →
      done (.hIns o vs fs) B (L.putD o.d (statusWord 5 none))) ∧
    (s.Ready g gr o ⟨1, 2, 1, 1, false, []⟩ → isLiveKey key = true →
      (∀ p, B.findKey c key = some p →
        done (.hDel o fs) ((B.putKey c p tombKey).putValue c p 0) (L.putD o.d (statusWord 0 (some p)))) ∧
      (B.findKey c key = none → done (.hDel o fs) B (L.putD o.d (statusWord 2 none)))) ∧
    (∀ d, s.Ready g gr o ⟨4, 2, 1, 1, false, []⟩ → o.d = .v d → isLiveKey key = true →
      let put (v : DWord) (st : Word) : Lane :=
        ((L.setV64 d.val v).setV (d.val + 2) st).setV (d.val + 3) (BitVec.ofNat 32 (homeBucket c.bits key))
      (∀ p, B.findKey c key = some p → done (.hPrb o fs) B (put (B.valueAt c p) (statusWord 0 (some p)))) ∧
      (B.findKey c key = none → done (.hPrb o fs) B (put 0 (statusWord 2 none)))) ∧
    ∀ d n clr, s.Ready g gr o ⟨4, 1, 1, 1, false, []⟩ → o.d = .v d → o.a = .s n →
      let ends (B' : Block) (k v : DWord) (cursor : Word) : Prop :=
        ∃ t, exec (.hDrn o clr fs) s = .next t ∧ t.mem = s.mem ∧ t.block gr.block = B' ∧ (t.warp w).getS n = cursor ∧
          ((L.setV64 d.val k).setV64 (d.val + 2) v).regsAre (t.lane w l)
      (∀ q, B.nextLive c (W.getS n).toNat = some q →
        let p : SlotAt := ⟨q / 8, q % 8, 0⟩
        ends (if clr then (B.putKey c p emptyKey).putValue c p 0 else B) (B.keyAt c p) (B.valueAt c p)
          (BitVec.ofNat 32 (q + 1))) ∧
      (B.nextLive c (W.getS n).toNat = none → ends B emptyKey 0 (BitVec.ofNat 32 (8 * 2 ^ c.bits)))

/-! ## Matrix passes and accumulators -/

/-- M.MMA and M.SMMA where every live lane of a warp arrives and executes, and the Sluice is open (R181 to R192): every element
of the rows of the executing lanes is the sum of R186 over their fragments, every other element of every tile is
unchanged, and the core is charged. SLUICE_WINDOW opens the next window, and what waited for it tries again. -/
def Obligations.MatrixPasses : Prop :=
  (∀ (o : Ops) (tile : Fin 64) (sparse : Bool) (s : State) (g : Nat) (gr : Group) (w : Nat) (ls : List Nat) (fw : Word)
    (f : FmtWord), s.Meets g gr o ⟨1, 4, 4, 2, false, []⟩ w ls →
    (∀ e ∈ (s.warp w).lanes, e.2.life = .live → e.1 ∈ ls) → (s.warp w).goneBits = 0 → tile.val < (s.warp w).tileNeed →
    (∀ e ∈ s.remotes, e.2.acc = none) → (∀ l ∈ ls, srcQ (s.warp w) (s.lane w l) o.c 0 = fw) →
    fmtWord sparse fw = some f → (sparse = true → spMeta (s.warp w) ls (vBase o.a) (fmtK f.a) = none) →
    AMap.sorted (s.warp w).tiles = true → (s.warp w).tileBad = [] → (s.warp w).mmaEcc o f = none →
    (∀ l ∈ ls, ∀ r ∈ mmaWidths.readsV o, r ∉ s.pendingV w l) →
    (∀ l, l < 32 → ∀ r ∈ mmaRegs o f.scb, r ∉ s.pendingV w l) →
    AMap.sorted s.cores = true → (s.block gr.block).redun = false → (s.core gr.core).mxcRed = false →
    let units := ((List.range 4).filter fun j => ls.any fun l => l / 8 == j).length * (if sparse then 1 else 2)
    let C := (s.core gr.core).roll s.windowNow
    C.sluiceOpen (s.tcapOf gr.core) units = true →
    ∃ t, exec (if sparse then .mSmma o tile else .mMma o tile) s = .next t ∧ t.mem = s.mem ∧ t.blocks = s.blocks ∧
      (t.core gr.core).charge = C.charge + units ∧
      (∀ r n, r < 16 → n < 16 → (t.warp w).tileAt tile.val (16 * r + n) =
        if 2 * r ∈ ls ∨ 2 * r + 1 ∈ ls then
          (⟨s.warp w, ls, o, f, sparse⟩ : Pass).elem r n ((s.warp w).tileAt tile.val (16 * r + n))
        else (s.warp w).tileAt tile.val (16 * r + n)) ∧
      (∀ k e, e < 256 → k ≠ tile.val → (t.warp w).tileAt k e = (s.warp w).tileAt k e) ∧
      ∀ l, (s.lane w l).regsAre (t.lane w l)) ∧
  ∀ (c : Nat) (s : State), c < Config.nCore → AMap.sorted s.cores = true → (s.core c).window < s.windowNow →
    ∃ t, exec (.sluiceWindow c) s = .next t ∧ t = { s with cores := t.cores, groups := t.groups } ∧
      (t.core c).window = s.windowNow ∧ (t.core c).charge = 0 ∧ (t.core c).budgetNow = (s.core c).budget ∧
      (∀ e ∈ t.groups, e.2.core = c → e.2.park ≠ .sluice)

/-- M.ZERO, M.SCL and the ACC family at a tile of the warp, with no transfer under way and no element in error (R197
to R199): zeroed and scaled rows are those of the quarters with an executing lane; ACC.LD, ACC.ST, ACC.RD and ACC.WR
move elements between the tile, the block's own store and the lane's registers. The order against transfers is the
model's reading (log 38). -/
def Obligations.TileForms : Prop :=
  ∀ (o : Ops) (tile : Fin 64) (s : State) (g : Nat) (gr : Group) (w : Nat) (ls : List Nat),
    s.Team g gr w ls o.pr → tile.val < (s.warp w).tileNeed → (∀ e ∈ s.remotes, e.2.acc = none) →
    AMap.sorted (s.warp w).tiles = true → (s.warp w).tileBad = [] → (∀ l ∈ ls, l < 32) →
    let W := s.warp w
    let old (e : Nat) : Word := W.tileAt tile.val e
    let hit (e : Nat) : Prop := ∃ l ∈ ls, l / 8 = e / 64
    let there (l : Nat) : Prop := ∀ r ∈ ({} : Widths).readsV o, r ∉ s.pendingV w l
    let done (i : Instr) (P : State → Prop) : Prop := ∃ t, exec i s = .next t ∧ t.mem = s.mem ∧ t.ops = s.ops ∧ P t ∧
      ∀ k e, e < 256 → k ≠ tile.val → (t.warp w).tileAt k e = W.tileAt k e
    (s.Ready g gr o {} → done (.mZero o tile) fun t => ∀ e, e < 256 →
      (hit e → (t.warp w).tileAt tile.val e = 0) ∧ (¬hit e → (t.warp w).tileAt tile.val e = old e)) ∧
    (∀ m : SclMod, s.Ready g gr o {} → m.row = false → (∀ l ∈ ls, there l) → done (.mScl o tile m) fun t => ∀ e, e < 256 →
      (¬hit e → (t.warp w).tileAt tile.val e = old e) ∧
      ∀ l ∈ ls, l / 8 = e / 64 → (∀ k ∈ ls, k / 8 = l / 8 → l ≤ k) → sortNat ls = ls → (t.warp w).tileAt tile.val e =
        w32 (fp32.put { rm := m.rm, fz := m.fz, sat := m.sat }
          ((f32 m.fz (old e)).mul (f32 m.fz (src32 W (s.lane w l) o.a))))) ∧
    (∀ m : SclMod, s.Ready g gr o {} → m.row = true →
      (∀ l, l < 32 → there l ∧ ∀ r ∈ ({} : Widths).readsV o, r ∉ (s.lane w l).vBad) → done (.mScl o tile m) fun t => ∀ e, e < 256 →
      (¬hit e → (t.warp w).tileAt tile.val e = old e) ∧
      (hit e → (t.warp w).tileAt tile.val e =
        w32 (fp32.put { rm := m.rm, fz := m.fz, sat := m.sat }
          ((f32 m.fz (old e)).mul (f32 m.fz (src32 W (s.lane w (2 * (e / 16))) o.a)))))) ∧
    ∀ l, ls = [l] →
      let L := s.lane w l
      (∀ (f : AccFmt) (fs : Bool) (B : Block), s.Ready g gr o {} → s.blocks.get? gr.block = some B →
        AMap.sorted s.blocks = true → B.core = gr.core → B.churn = none → B.lsBad = [] → there l →
        let x := src32 W L o.a + src32 W L o.b
        let n := AccFmt.bytes f
        let off := x.toNat % 2 ^ 19
        s.lsTarget gr.block x.toNat = some gr.block → off % 64 = 0 → off + 64 * n * (l / 8 + 1) ≤ B.lsSize →
        (done (.accLd o tile f fs) fun t => t.blocks = s.blocks ∧ ∀ e, e < 256 →
          (t.warp w).tileAt tile.val e = if e / 64 = l / 8 then accWiden f (B.lsRead (off + n * e) n) else old e) ∧
        ∀ rm, done (.accSt o tile f rm fs) fun t => (∀ e, e < 256 → (t.warp w).tileAt tile.val e = old e) ∧
          t.block gr.block = (List.range (8 * n)).foldl (fun B i =>
            B.lsWrite (off + 64 * n * (l / 8) + 8 * i) 8 ((List.range (8 / n)).map fun k =>
              let e := 64 * (l / 8) + i * (8 / n) + k
              accNarrow f { rm, h := srHash (src32 W L o.c) e } (old e) * 256 ^ (n * k)).sum) B) ∧
      (∀ (x4 : Bool) (i : Nat), src32 W L o.a = BitVec.ofNat 32 i → i < 256 → (x4 = true → i % 4 = 0) →
        let n := if x4 then 4 else 1
        (∀ d, s.Ready g gr o ⟨n, 1, 1, 1, false, []⟩ → o.d = .v d → done (.accRd o tile x4) fun t =>
          (∀ e, e < 256 → (t.warp w).tileAt tile.val e = old e) ∧ ∀ k, k < n → (t.lane w l).getV (d.val + k) = old (i + k)) ∧
        ∀ add, s.Ready g gr o ⟨1, 1, n, 1, false, []⟩ → done (.accWr o tile x4 add) fun t => ∀ e, e < 256 →
          (t.warp w).tileAt tile.val e =
            if i ≤ e ∧ e < i + n then
              (let v := if x4 then srcQ W L o.b (e - i) else src32 W L o.b
               if add then fadd32 (old e) v else v)
            else old e)

/-! ## Colours and monitors -/

/-- The C family (R273): C.GET returns a line's colour, C.HELD a slot, C.NTF and C.NTA move the head or all waiters of a colour
that the lane holds, and C.WAIT begins the colour's release, waits in a group of its own, and returns whether it was
notified. -/
def Obligations.MonitorForms : Prop :=
  ∀ (o : Ops) (s : State) (g : Nat) (gr : Group) (w : Nat) (ls : List Nat), s.Team g gr w ls o.pr → gr.park = .run →
    let ctx := (s.block gr.block).ctx
    let a (l : Nat) : Word := src32 (s.warp w) (s.lane w l) o.a
    (∀ (p c : Nat → Nat), s.Ready g gr o ⟨1, 2, 1, 1, false, []⟩ → gr.memo.waiting = 0 →
      (∀ l ∈ ls, s.Open gr 1 ⟨w, l, addrOf (s.warp w) (s.lane w l) o, { rd := true }⟩ (p l) ∧
        gr.memo.colours.get? (32 * w + l) = some (c l) ∧ c l < 4096 ∧ gr.memo.bad.get? (32 * w + l) = none) →
      ∃ t, exec (.cGet o) s = .next t ∧ s.onlyThreads t ∧ ∀ l ∈ ls,
        ((s.lane w l).putD o.d (BitVec.ofNat 32 (c l))).regsAre (t.lane w l)) ∧
    (s.Ready g gr o {} → ∃ t, exec (.cHeld o) s = .next t ∧ s.onlyThreads t ∧ ∀ l ∈ ls,
      ((s.lane w l).putD o.d (match (s.lane w l).slots[(a l).toNat]? with
        | some x => if (a l).toNat < 8 then BitVec.ofNat 32 (x.colour + 2 ^ 12 * (x.depth % 2 ^ 16) + 2 ^ 31) else 0
        | none => 0)).regsAre (t.lane w l)) ∧
    (∀ l, ls = [l] → s.Ready g gr o {} → (s.lane w l).holds (a l).toNat = true → AMap.sorted s.mons = true →
      s.monHome ctx (a l).toNat = s.chip →
      let m := s.mon ctx (a l).toNat
      (∀ x rest, m.condQ = x :: rest → x ∉ rest → ∃ t, exec (.cNtf o) s = .next t ∧ t.mem = s.mem ∧
        t.warps = ((s.atWord g).retire g gr).warps ∧ t.mon ctx (a l).toNat = { m with condQ := rest, entryQ := m.entryQ ++ [⟨x.who, some (x.depth, true)⟩] }) ∧
      (∃ t, exec (.cNta o) s = .next t ∧ t.mem = s.mem ∧
        t.mon ctx (a l).toNat =
          { m with condQ := [], entryQ := m.entryQ ++ m.condQ.map fun x => ⟨x.who, some (x.depth, true)⟩ }) ∧
      (gr.memo.passed = true → ∃ t, exec (.cWait o) s = .next t ∧ s.onlyThreads t ∧
        ((s.lane w l).putD o.d (if gr.memo.notified then 1 else 0)).regsAre (t.lane w l)) ∧
      (gr.memo.passed = false → (s.lane w l).topColour = (a l).toNat → AMap.sorted s.rels = true → g ≤ s.ids →
        ∃ t n k r, exec (.cWait o) s = .next t ∧ t.mem = s.mem ∧ t.mons = s.mons ∧ (t.lane w l).entry = .group n ∧
          (t.groups.get? n).map (·.park) = some .release ∧ t.rels.get? k = some r ∧ r.warp = w ∧ r.lane = l ∧
          r.colours = [(a l).toNat] ∧ r.group = some n ∧ r.wait = some (if o.b = .none then none
            else some (src32 (s.warp w) (s.lane w l) o.b).toNat)))

/-- UC.SET of one line of this chip that no core holds, and that no message concerns (R262). Where the line has the colour,
none, or one that the issuing thread holds, it takes the colour; the warp receives the larger of the home's time and Lx
as a GWCT; the group waits until its time, and goes on at UC_SET_WAIT_END. A line that chips or the host hold is
cleared first, and the group waits for that. A line of a colour that the thread does not hold raises MONNH. That the
lines change in one event is the model's choice (log 30). -/
def Obligations.LineColoursSet : Prop :=
  (∀ (o : UOps) (s : State) (g : Nat) (gr : Group) (w : Nat) (ls : List Nat) (p : Nat),
    s.ReadyU g gr (usrcS o.a 2 ++ usrcS o.b 1) → s.Team g gr w ls ⟨7, false⟩ → gr.park = .run → gr.memo.waiting = 0 →
    gr.memo.colours.get? (recolourKey w (p / 128)) = none → s.msgs = [] → AMap.sorted s.lines = true →
    let va := usrc64 (s.warp w) o.a
    let ctl := (usrc32 (s.warp w) o.b).toNat
    let c := ctl % 4096
    let line := p / 128
    let h := s.hline line
    ctl / 4096 = 1 → va.toNat % 128 = 0 →
    s.resolve [] (s.block gr.block).ctx 1 ⟨w, ls.headD 0, va, { wr := true }⟩ = .pa p → s.ownPa p = true →
    gr.keptAt ⟨w, ls.headD 0, va, { wr := true }⟩ p → p % 4096 = va.toNat % 4096 → h.busy = none → h.pkg = .i →
    let time := max (s.timeOf (homeOf line)) h.lx
    let allowed : Prop := h.colour = c ∨ h.colour = 0 ∨ (s.lane w (ls.headD 0)).holds h.colour = true
    (allowed → (h.colour = c ∨ h.st = 0 ∧ h.hs = false) → ∃ t, exec (.ucSet o) s = .next t ∧ t.mem = s.mem ∧
      t.hline line = { h with colour := c } ∧ (∀ n, n ≠ line → t.hline n = s.hline n) ∧
      (t.warp w).gwct = max (s.warp w).gwct time ∧
      (time ≤ s.timeAt gr.core → t.groups = ((s.atWord g).retire g gr).groups) ∧
      (s.timeAt gr.core < time → (t.groups.get? g).map (·.park) = some (.until_ time))) ∧
    (allowed → h.colour ≠ c → h.st ≠ 0 ∨ h.hs = true → ∃ t, exec (.ucSet o) s = .next t ∧ t.mem = s.mem ∧ t.lines = s.lines ∧
      t.msgs = [(s.ids + 1, { src := devAgent, dst := homeOf line, line, body := .clear true })] ∧
      (t.groups.get? g).map (·.park) = some (.device [line])) ∧
    (¬allowed → s.holdsTraps w = false → gr.handler = false → ∃ t, exec (.ucSet o) s = .next t ∧ t.mem = s.mem ∧
      t.lines = s.lines ∧ (t.warp w).tcs = 0x0A ∧ (t.warp w).tad = va ∧ ∀ l ∈ ls, s.InHandler t w l 0x0A)) ∧
  ∀ (g time : Nat) (s : State) (gr : Group), s.groups.get? g = some gr → gr.park = .until_ time → time ≤ s.timeAt gr.core →
    exec (.ucSetWaitEnd g) s = .next (s.retire g gr)

/-- A free monitor goes to the head of its queue (R271, R272); a waiter whose deadline has passed joins the queue without having
been notified; a release that may complete frees the colour, and the lane's slot, and lets its group go on, or wait for
the condition (R267, R268, R272). -/
def Obligations.MonitorEvents : Prop :=
  ∀ (s : State) (ctx c w l g : Nat) (gr : Group), AMap.sorted s.mons = true → s.threadsOk → s.groups.get? g = some gr →
    (s.warps.get? w).isSome = true → w < 2 ^ 32 → s.monHome ctx c = s.chip →
    (∀ back rest, (s.mon ctx c).holder = none → (s.mon ctx c).entryQ = ⟨.here w l, back⟩ :: rest →
      (s.lane w l).entry = .group g → ∃ t, exec (.monitorGrant ctx c) s = .next t ∧ t.mem = s.mem ∧
        t.mon ctx c = { s.mon ctx c with holder := some (.here w l), entryQ := rest } ∧
        (t.lane w l).holds c = true ∧ ⟨c, (back.map (·.1)).getD (s.lane w l).depth⟩ ∈ (t.lane w l).slots ∧
        t.groups.get? g = some { gr with park := .run, memo :=
          { gr.memo.parted with passed := back.isSome, notified := (back.map (·.2)).getD false } }) ∧
    (∀ x d, x ∈ (s.mon ctx c).condQ → x.who = .here w l → x.deadline = some d → d ≤ s.time →
      (∀ y ∈ (s.mon ctx c).condQ, y.who = .here w l → y = x) →
      ∃ t, exec (.waitDeadline ctx c w l) s = .next t ∧ t = { s with mons := t.mons } ∧
        t.mon ctx c = ⟨(s.mon ctx c).holder, (s.mon ctx c).entryQ ++ [⟨.here w l, some (x.depth, false)⟩],
          (s.mon ctx c).condQ.filter (· ≠ x)⟩) ∧
    ∀ k r, s.rels.get? k = some r → AMap.sorted s.rels = true → r.ctx = ctx → r.warp = w → r.lane = l → r.colours = [c] →
      r.group = some g → s.relDone r = true → (s.mon ctx c).holder = some (.here w l) →
      (∀ e ∈ s.rels.del k, e.2.group ≠ some g) →
      (r.wait = none → ∃ t, exec (.colourReleaseComplete k) s = .next t ∧ t.mem = s.mem ∧ t.rels = s.rels.del k ∧
        t.mon ctx c = { s.mon ctx c with holder := none } ∧ (t.lane w l).holds c = false ∧
        t.groups.get? g = some { gr with park := .run }) ∧
      ∀ d, r.wait = some d → ∃ t q, exec (.colourReleaseComplete k) s = .next t ∧ t.mem = s.mem ∧ t.rels = s.rels.del k ∧
        t.mon ctx c = { s.mon ctx c with holder := none, condQ := (s.mon ctx c).condQ ++ [q] } ∧ q.who = .here w l ∧
        q.deadline = d.map (s.timeAt (s.warp w).core + ·) ∧ (t.lane w l).holds c = false ∧ t.groups.get? g = some { gr with park := .condition c }

/-! ## Copy engines, guard slots and rings -/

/-- A CP form that copies, by one lane whose record has been read and whose command passes the checks of R282: the
command joins its core's engine queue, unstarted, with its guard and its ring stage, wanting the lines that it
writes, and is in the lane's open set (R280, R288).
The order of the checks within one row of R282's table is the model's reading (log 45). -/
def Obligations.CommandsQueued : Prop :=
  ∀ (i : Instr) (form : CpForm) (o : Ops) (m : CpMod) (s : State) (g : Nat) (gr : Group) (w l : Nat) (k : CmdKind)
    (arv : Option (Nat × Nat)) (p : Nat),
    ((i = .cpTile o m ∧ form = .tile) ∨ (i = .cpStore o m ∧ form = .store) ∨ (i = .cpLin o m ∧ form = .lin) ∨
      (i = .cpGath o m ∧ form = .gath)) →
    s.Ready g gr o form.widths → s.Team g gr w [l] o.pr → gr.park = .run → gr.memo.waiting = 0 → gr.memo.bad = [] →
    let ctx := (s.block gr.block).ctx
    let acc : Acc := ⟨w, l, src64 (s.warp w) (s.lane w l) o.a, { rd := true }⟩
    (form ≠ .lin → s.Open gr 64 acc p ∧ ∀ j, j < 8 → (gr.memo.refill.get? (wordKey acc j)).isSome = true) →
    s.prepare gr form o m (fun a j => gr.memo.refill.getD (wordKey a j) 0) (fun _ => none) (w, l) = .inr (k, arv) →
    let accs := globalAccs (w, l) k
    let xl := xlOf accs (s.resolve [] ctx 1)
    globalFault form k accs (s.resolve [] ctx 1) = none → (∀ a ∈ accs, ∃ q, s.resolve [] ctx 1 a = .pa q) →
    (∀ n ∈ colourLines k xl, gr.memo.colours.getD n.1 0 = 0 ∧ (gr.handler = true ∨ (gr.memo.colours.get? n.1).isSome = true)) →
    (s.core gr.core).engineQ.length < Config.engineQueue → Group.flagFull s gr m.fs = false →
    AMap.sorted s.cores = true → AMap.sorted s.cmds = true →
    ∃ t id c, exec i s = .next t ∧ t.mem = s.mem ∧ t.cmds.get? id = some c ∧ c.kind = k ∧ c.core = gr.core ∧
      c.block = gr.block ∧ c.warp = w ∧ c.lane = l ∧ c.guard = m.guard.map (·.val) ∧ c.arv = arv ∧ c.started = false ∧
      c.xl = xl ∧ c.want = c.lines ∧ (t.core gr.core).engineQ = (s.core gr.core).engineQ ++ [id] ∧
      (t.lane w l).opened = (s.lane w l).opened ++ [id] ∧ (s.lane w l).regsAre (t.lane w l)

/-- CP.SEAL closes the open set into a batch and CP.WAIT goes on where at most n batches are unfinished (R289); G.SET and G.CLR
write guard slots (R291); RG.INIT makes a ring, RG.ARV arrives on a stage's barrier, whose phase flips as its count
completes, and RG.WAIT goes on where the phase has passed (R292 to R295). -/
def Obligations.EngineForms : Prop :=
  ∀ (s : State) (g : Nat) (gr : Group),
    (∀ (o : Ops), s.Ready g gr o {} → s.threadsOk → s.Stands gr →
      (∀ x ∈ s.execThreads gr o.pr, (s.lane x.1 x.2).batches.length < 16) →
      ∃ t, exec (.cpSeal o) s = .next t ∧ s.onlyThreads t ∧ ∀ x ∈ s.execThreads gr o.pr,
        (t.lane x.1 x.2).opened = [] ∧
          (t.lane x.1 x.2).batches = trimBatches ((s.lane x.1 x.2).batches ++ [(s.lane x.1 x.2).opened])) ∧
    (∀ (o : Ops), s.Ready g gr o {} → (∀ x ∈ s.execThreads gr o.pr,
        (s.lane x.1 x.2).batches.length ≤ (src32 (s.warp x.1) (s.lane x.1 x.2) o.a).toNat) →
      exec (.cpWait o) s = .next ((s.atWord g).retire g gr)) ∧
    (∀ slot : Fin 8,
      (∀ v, s.ReadyU g gr (GVal.reads v) → exec (.gSet slot v) s = .next (s.warpsOf g gr fun W =>
        let b := match v with
          | .q n => W.getQ n
          | .fls => false
          | .tru => true
        { W with guards := W.guards.set slot.val (if b then .tru else .fls) })) ∧
      (s.ReadyU g gr [] →
        (∀ w ∈ gr.warpIds, ∀ e ∈ s.cmds, e.2.warp = w → e.2.guard = some slot.val → e.2.started = true) →
        exec (.gClr slot) s = .next (s.warpsOf g gr fun W => { W with guards := W.guards.del slot.val }))) ∧
    ∀ (o : Ops) (w l : Nat) (B : Block), s.Ready g gr o {} → s.Team g gr w [l] o.pr → s.blocks.get? gr.block = some B →
      AMap.sorted s.blocks = true → AMap.sorted B.rings = true → gr.memo.asked = false →
      let r := (src32 (s.warp w) (s.lane w l) o.a).toNat
      let y := src32 (s.warp w) (s.lane w l) o.b
      let z := src32 (s.warp w) (s.lane w l) o.c
      (s.rgInitCheck gr w l o = none → ∃ t, exec (.rgInit o) s = .next t ∧ t.mem = s.mem ∧
        t.groups = ((s.atWord g).retire g gr).groups ∧ (t.block gr.block).rings.get? r =
          some { base := y.toNat % 2 ^ 19, s := z.toNat % 16 + 1, sz := 128 * (z.toNat / 2 ^ 4 % 2 ^ 12),
                 fc := z.toNat / 2 ^ 16 % 256, ec := z.toNat / 2 ^ 24 }) ∧
      (∀ R : Ring, B.rings.get? r = some R → y.toNat < R.s →
        let x := R.stage y.toNat
        (s.fencedCore [(w, l)] = true → AMap.sorted R.stages = true →
          (∃ t Q, exec (.rgArv o .full) s = .next t ∧ t.mem = s.mem ∧ (t.block gr.block).rings.get? r = some Q ∧
            Q.stage y.toNat = if x.fn + 1 = R.fc then { x with fp := !x.fp, fn := 0, adm := 0 } else { x with fn := x.fn + 1 }) ∧
          ∃ t Q, exec (.rgArv o .empty) s = .next t ∧ t.mem = s.mem ∧ (t.block gr.block).rings.get? r = some Q ∧
            Q.stage y.toNat = if x.en + 1 = R.ec then { x with ep := !x.ep, en := 0 } else { x with en := x.en + 1 }) ∧
        (x.fp ≠ z.getLsbD 0 → exec (.rgWait o .full) s = .next ((s.atWord g).retire g gr)) ∧
        (x.ep ≠ z.getLsbD 0 → exec (.rgWait o .empty) s = .next ((s.atWord g).retire g gr)))

/-- The engine starts the command at its queue's head, and its reads of other lines than the engine's own set out as THRU
reads (R255, R281); it discards it where its guard is false and its stage admits it, or its block has ended (R290, R377);
and, once every line is its own, it writes what is read, byte for byte, and is done with it (R257, R258, R283); a
granted line passes its Lx to the warp (R256). GATHER_SPLIT lets lanes whose loads have arrived go on (R296). When the
bytes are read and written is the model's reading (log 46). -/
def Obligations.EngineEvents : Prop :=
  (∀ (core k : Nat) (c : Cmd) (s : State), s.engineHead core = some (k, c) → s.cmds.get? k = some c →
    AMap.sorted s.cmds = true →
    ((s.block c.block).ended = false → s.guardOf c = .tru → s.admitted c = true → s.beforeCmd k c = true →
      (∀ e ∈ s.cmds, e.2.core = core → e.2.started = true → e.2.ctx = c.ctx) →
      (∀ b ∈ s.cmdBlocks c, (s.block b).ended = false) → s.ops = [] → c.read = [] →
      (∀ line, s.cline? (engineAgent c.core) line = none) →
      ∃ t c', exec (.engineStart core) s = .next t ∧ t.mem = s.mem ∧ t.cmds.get? k = some c' ∧ c'.started = true ∧
        c'.kind = c.kind ∧ c'.want = c.want ∧
        ∀ p ∈ c.kind.steps, ∀ va, p.2.src = .glob va → va / 4096 ≠ 1 → s.earlierHolds k c (c.pa va / 128) = false →
          c.pa va / 128 ∉ c.want →
          (s.hline (c.pa va / 128)).pkg ≠ .o (engineAgent c.core) →
          ∃ j op, t.ops.get? j = some op ∧ op.act = .engine k p.1 ∧ op.pol = .thru ∧ op.pa = c.pa va ∧ op.len = p.2.n) ∧
    ((s.block c.block).ended = true ∨ s.guardOf c = .fls ∧ s.admitted c = true → AMap.sorted s.cores = true →
      c.core < Config.nCore → ∃ t, exec (.engineDiscard core) s = .next t ∧ t.mem = s.mem ∧
        (c.arv = none → t.blocks = s.blocks) ∧ t.cmds = s.cmds.del k ∧
        (t.core c.core).engineQ = (s.core c.core).engineQ.filter (· != k))) ∧
  (∀ (k src dst len b : Nat) (c : Cmd) (s : State), s.cmds.get? k = some c → AMap.sorted s.cmds = true → s.memOk →
    c.started = true → c.saved = false → c.want = [] → s.ops = [] → (s.core c.core).engineQ.head? = some k →
    c.kind = .lin true false src dst len → s.lsTarget c.block src = some b → (s.block b).lsBad = [] →
    c.srcBytes = [] → c.read = [] → c.written = [] → c.units = [] → c.srcBad = [] → c.dead = [] → c.arv = none →
    dst % 4096 + len ≤ 4096 → dst / 4096 ≠ 1 → (∀ i, i < len / 8 → c.pa (dst + 8 * i) / 128 ∈ c.lines) →
    ∃ t, exec (.engineComplete k) s = .next t ∧ t.cmds = s.cmds.del k ∧ t.blocks = s.blocks ∧
      (∀ i, i < len / 8 → memRead t.mem (c.pa (dst + 8 * i)) 8 =
        (s.block b).lsRead (src % 2 ^ 32 % 2 ^ 19 + 8 * i) 8 % 2 ^ 64) ∧
      ∀ a, a < c.pa dst ∨ c.pa dst + len ≤ a → memGet t.mem a = memGet s.mem a) ∧
  (∀ (id k : Nat) (m : Msg) (c : Cmd) (fresh : Bool) (x : CLine) (s : State), s.msgs.get? id = some m →
    s.deliverable id m = true → m.body = .grant none fresh x → s.cmds.get? k = some c → AMap.sorted s.cmds = true →
    (s.core (m.dst - 256)).engineQ.head? = some k → m.line ∈ c.want → s.threadsOk → (s.warps.get? c.warp).isSome = true →
    ∃ t c', exec (.ownershipGrant id) s = .next t ∧ t.mem = s.mem ∧ t.msgs = s.msgs.del id ∧
      t.cmds.get? k = some c' ∧ c'.want = c.want.filter (· != m.line) ∧
      (t.warp c.warp).gwct = max (s.warp c.warp).gwct x.lx) ∧
  ∀ (g n : Nat) (s : State) (gr : Group) (i : Instr), s.groups.get? g = some gr → s.threadsOk → g ≤ s.ids → gr.park = .run →
    gr.memo = {} → decode gr.rest = .ok i n →
    let late := (s.execs gr (instrPred i)).filter fun x => (s.pendingV x.1 x.2).any (instrRegs i).contains
    late ≠ [] → (∃ x ∈ s.execs gr (instrPred i), x ∉ late) →
    (∀ x ∈ late, ∃ e ∈ s.ops, e.2.warp = x.1 ∧ e.2.lane = x.2 ∧ (∃ b, e.2.act = .ld b) ∧
      ∃ d j, e.2.dst = some d ∧ j < e.2.dstLen ∧ d + j ∈ readRegs i) →
    ∃ t, exec (.gatherSplit g) s = .next t ∧ t.mem = s.mem ∧
      (t.groups.get? g).map (·.lanes) = some (gr.lanes.filter fun x => late.contains x) ∧
      t.groups.get? (s.ids + 1) = some { gr with
        lanes := gr.lanes.filter (fun x => !late.contains x), memo := {}, split := if gr.split = 0 then s.ids + 1 else gr.split }

/-! ## Work queues -/

/-- The W family by one lane, R317 to R320, where the device reaches what it reads and writes for it: W.SPAWN and W.LAUNCH,
once their fence has completed and their image has been read, push the image at TAIL of a device queue that is not
full, and return the index; W.JOIN changes a count and returns the old one; W.DEAD writes a deadline, and notes first
whether the queue was late; W.QSTAT reads the queue's descriptor. That a push is done when its fence is, is the model's
reading (log 48). -/
def Obligations.QueueForms : Prop :=
  ∀ (o : Ops) (s : State) (g : Nat) (gr : Group) (w l : Nat), s.Team g gr w [l] o.pr → gr.park = .run → gr.memo.bad = [] →
    let ctx := (s.block gr.block).ctx
    let va := wAddr s o (w, l)
    let u := s.unasked
    let num (x : Src) : Nat := (src32 (s.warp w) (s.lane w l) x).toNat
    let returns (i : Instr) (m : Memory) (v : Nat) : Prop :=
      ∃ t, exec i s = .next t ∧ t.mem = m ∧ ((s.lane w l).putD o.d (BitVec.ofNat 32 v)).regsAre (t.lane w l)
    (∀ (fs : Bool) (d : QDesc) (p : Nat), s.Ready g gr o ⟨1, 2, 1, 1, false, []⟩ → gr.memo.fenced = true →
      Group.flagFull s gr fs = false → num o.c < (s.ctx ctx).qcount → u.queue ctx (num o.c) = (u, some d) → d.host = false →
      d.full = false → s.pushesAt ctx (num o.c) = [] →
      let acc : Acc := ⟨w, l, va, { rd := true }⟩
      let word (j : Nat) : DWord := gr.memo.refill.getD (wordKey acc j) 0
      s.Open gr 128 acc p → (∀ j, j < 16 → (gr.memo.refill.get? (wordKey acc j)).isSome = true) →
      let pushed := u.pushEntry ctx d ((List.range 16).map fun j => (word j).toNat * 2 ^ (64 * j)).sum
      pushed.need = [] →
      ((word 0).toNat % 256 = 1 → returns (.wSpawn o fs) pushed.mem (d.tail % 2 ^ 31)) ∧
      ((word 0).toNat % 256 = 2 → returns (.wLaunch o fs) pushed.mem (d.tail % 2 ^ 31))) ∧
    (∀ (fs : Bool) (p : Nat), s.Ready g gr o ⟨1, 2, 1, 1, false, []⟩ → gr.memo.fenced = true → gr.memo.waiting = 0 →
      Group.flagFull s gr fs = false → s.Open gr 64 ⟨w, l, va, { rd := true, wr := true }⟩ p →
      let r := u.joinHere ctx p (src32 (s.warp w) (s.lane w l) o.c).toInt
      r.1.need = [] → returns (.wJoin o fs) r.1.mem r.2) ∧
    (∀ d, s.Ready g gr o ⟨1, 1, 2, 1, false, []⟩ → u.queue ctx (num o.a) = (u, some d) →
      let r := (u.noteLate ctx (num o.a) d).devWrite (d.pa + 32) 8 (src64 (s.warp w) (s.lane w l) o.b).toNat
      r.need = [] → ∃ t, exec (.wDead o) s = .next t ∧ t.mem = r.mem ∧ (s.lane w l).regsAre (t.lane w l)) ∧
    ∀ d, s.Ready g gr o {} → u.queue ctx (num o.b) = (u, some d) →
      returns (.wQstat o .pend) s.mem (min (d.tail - d.head) (2 ^ 32 - 1)) ∧ returns (.wQstat o .miss) s.mem d.miss ∧
        returns (.wQstat o .faults) s.mem d.faults ∧ returns (.wQstat o .last) s.mem d.last ∧
        returns (.wQstat o .dlo) s.mem (d.deadline % 2 ^ 32) ∧ returns (.wQstat o .dhi) s.mem (d.deadline / 2 ^ 32) ∧
        (d.tail ≤ d.head → returns (.wQstat o .eprio) s.mem d.prio) ∧
        ∀ v, d.head < d.tail → u.effPrio ctx (num o.b) d d.prio = (u, v) → returns (.wQstat o .eprio) s.mem v

/-- A queue's events, where the device reaches its descriptor (R300 to R302, R310): a waiting push takes a freed index; a
host queue's tail register moves TAIL where the value lies between TAIL and HEAD + N, and counts a fault elsewhere; a
queue that becomes late counts a miss, once after each write of its deadline. When lateness is looked at is the model's
reading (log 52). -/
def Obligations.QueueEvents : Prop :=
  ∀ (s : State) (ctx q : Nat) (d : QDesc) (C : Ctx), let u := s.unasked
    u.queue ctx q = (u, some d) → s.ctxs.get? ctx = some C → AMap.sorted s.ctxs = true →
    (∀ image rest, q < 256 → AMap.sorted C.pushQ = true → C.pushQ.get? q = some (image :: rest) → d.full = false →
      (u.pushEntry ctx d image).need = [] →
      ∃ t, exec (.joinPush (256 * ctx + q)) s = .next t ∧ t.mem = (u.pushEntry ctx d image).mem ∧
        (t.ctx ctx).pushQ.getD q [] = rest) ∧
    (∀ (part : Nat) (v : DWord), (s.part part).run = true → (s.part part).ctx = ctx → s.mgmt.pstate = 0 → s.mgmt.a1 = [] →
      (d.host = true → d.tail ≤ v.toNat → v.toNat ≤ d.head + 2 ^ d.logn → (u.devWrite (d.pa + 24) 8 v.toNat).need = [] →
        exec (.tailRegisterWrite part q v) s = .next (u.devWrite (d.pa + 24) 8 v.toNat).spend) ∧
      (d.host = false ∨ v.toNat < d.tail ∨ d.head + 2 ^ d.logn < v.toNat → (u.queueFault d 5 0).need = [] →
        exec (.tailRegisterWrite part q v) s = .next (u.queueFault d 5 0).spend)) ∧
    ∀ part, (s.part part).run = true → (s.part part).ctx = ctx → AMap.sorted C.late = true →
      let missed := u.devWrite (d.pa + 12) 4 (min (d.miss + 1) (2 ^ 32 - 1))
      let entry (now counted : Bool) : Nat × Nat × Bool × Bool := (d.pa + 32, d.deadline, now, counted)
      (C.late.get? q = none → u.queueIsLate ctx q d = (u, true) → missed.need = [] →
        ∃ t, exec (.queueLate part q) s = .next t ∧ t.mem = missed.mem ∧ (t.ctx ctx).late.get? q = some (entry true true)) ∧
      (C.late.get? q = some (entry true true) → u.queueIsLate ctx q d = (u, false) →
        ∃ t, exec (.queueLate part q) s = .next t ∧ t.mem = s.mem ∧ (t.ctx ctx).late.get? q = some (entry false true)) ∧
      (C.late.get? q = some (entry false true) → u.queueIsLate ctx q d = (u, true) →
        ∃ t, exec (.queueLate part q) s = .next t ∧ t.mem = s.mem ∧ (t.ctx ctx).late.get? q = some (entry true true))

/-- DISPATCH, where the device reaches what it reads and writes for it (R300, R307 to R309): a launch at the head of the
only queue that has one is taken, and HEAD advances; a record that fails R305 is refused; an active launch's next
cluster is placed where it fits, its block zeroing, its warps in the block; PLACEMENT_ZEROING_DONE lets the block's
lanes be grouped, its store 0 (R153). That a head is taken before blocks are placed is the model's reading (log 49). -/
def Obligations.DispatchCompletes : Prop :=
  (∀ (part : Nat) (s : State), (s.part part).dispatches s = true → AMap.sorted s.launches = true →
    AMap.sorted s.blocks = true → AMap.sorted s.warps = true →
    let u := s.unasked
    let ctx := (s.part part).ctx
    (∀ j d L x, u.heads ctx = (u, [(j, d, .record L x)]) → L.cont = false → s.others L = [] →
      let r := (u.noteLate ctx j.queue d).devWrite (d.pa + 16) 8 (d.head + 1)
      r.need = [] → ∃ t id, exec (.dispatch part) s = .next t ∧ t.launches.get? id = some L ∧ t.blocks = s.blocks ∧
        t.mem = r.mem) ∧
    (∀ j d c k, u.heads ctx = (u, [(j, d, .refused c k)]) →
      let r := ((u.noteLate ctx j.queue d).takeHead ctx j.queue j.eff d).refuseRecord ctx d d.head c k
      r.need = [] → ∃ t, exec (.dispatch part) s = .next t ∧ t.launches = s.launches ∧ t.blocks = s.blocks ∧ t.mem = r.mem) ∧
    ∀ j id L core spot, u.heads ctx = (u, []) → u.activeJobs ctx = (u, [j]) → j.launch = some id →
      s.launches.get? id = some L → u.spotsFor (s.part part).cores L = some [(core, spot)] →
      ((if L.src = s.chip then u.noteJob ctx j else u).paramOf L).1.need = [] →
      ∃ t b B, exec (.dispatch part) s = .next t ∧ (t.launches.get? id).map (·.nextK) = some (L.nextK + 1) ∧
        t.blocks.get? b = some B ∧ B.core = core ∧ B.launch = id ∧ B.cluster = L.nextK ∧ B.zeroing = true ∧
        B.code = L.code ∧ B.lsBase = spot.lsBase ∧ B.warps.length = spot.warps.length ∧
        ∀ w ∈ B.warps, ∃ W, t.warps.get? w = some W ∧ W.block = b ∧ W.core = core) ∧
  ∀ (launch cluster b : Nat) (B : Block) (s : State), s.blocks = [(b, B)] → B.launch = launch → B.cluster = cluster →
    B.zeroing = true → exec (.placementZeroingDone launch cluster) s =
      .next { s with blocks := [(b, { B with zeroing := false, ls := [], lsBad := [] })] }

/-- BLOCK_RETIRE and ORD_APPLY (R225, R311, R312): a complete and quiet block retires, its warps are gone, and a
launch whose last block it was is gone too; the ordered records of a block whose turn it is become reductions at
their homes. The order of blocks is the model's reading (log 53). -/
def Obligations.BlocksRetire : Prop :=
  ∀ (s : State) (b : Nat) (B : Block) (L : Launch), s.blocks.get? b = some B → AMap.sorted s.blocks = true →
    s.launches.get? B.launch = some L → AMap.sorted s.launches = true → AMap.sorted s.warps = true →
    s.blockComplete b = true →
    (∀ n, B.retired = false → B.zeroing = false → s.issuing B.ctx = true → s.heldPartials b = [] → s.blockQuiet b = true →
      s.storesOut = false → L.det = false → AMap.sorted L.placed = true → L.placed.get? B.cluster = some n →
      (∀ e ∈ s.parts, e.2.ctx = B.ctx → ringBase e.2.brbase = 0) →
      (2 ≤ n → ∃ t, exec (.blockRetire b) s = .next t ∧ t.mem = s.mem ∧ (t.block b).retired = true ∧
        (∀ w ∈ B.warps, t.warps.get? w = none) ∧
        (t.launches.get? B.launch).map (fun x => x.placed.get? B.cluster) = some (some (n - 1))) ∧
      (n = 1 → L.join = 0 → L.nextK = L.total → L.retired + 1 = L.total →
        ∃ t, exec (.blockRetire b) s = .next t ∧ t.mem = s.mem ∧ t.blocks.get? b = none ∧
          (∀ w ∈ B.warps, t.warps.get? w = none) ∧ t.launches = s.launches.del B.launch)) ∧
    (B.det = true → B.ordDone = false → B.block = L.ordNext → s.ops = [] →
      ∃ t, exec (.ordApply b) s = .next t ∧ t.mem = s.mem ∧ (t.block b).ordDone = true ∧ (t.block b).ords = [] ∧
        (t.launches.get? B.launch).map (·.ordNext) = some (L.ordNext + 1) ∧
        ∀ r ∈ B.ords, ∃ k op, t.ops.get? k = some op ∧ op.pa = r.pa ∧ op.val = r.val ∧ op.act = .rd r.op r.u ∧
          op.pol = .thru ∧ op.len = if r.w64 then 8 else 4)

/-- Launches on several chips, R314: a record that a chip can place waits there and is accepted; the last ACCEPT starts the
launch, and tells the other chips; a REFUSE drops it, and the chip that has sent it drops it everywhere and refuses the
record; START lets its blocks be placed; an answer about a launch of another generation is discarded. So is one about any
launch that does not wait for it: the model's choice (log 28). -/
def Obligations.ReplicatedLaunches : Prop :=
  ∀ (src ctx gen : Nat) (s : State), AMap.sorted s.launches = true → let u := s.unasked
    (∀ image : List Byte,
      let x := ((List.range 128).map fun i => (image.getD i (0 : Byte)).toNat * 256 ^ i).sum
      let L : Launch := { recordOf ctx x with src := src, gen := gen, started := false }
      (s.ctxs.get? ctx).isSome = true → u.recordFault L x = (u, none) →
      ∃ t, exec (.launchRecord src ctx gen image) s = .next t ∧ t.mem = s.mem ∧ t.launches = s.launches.set (s.ids + 1) L ∧
        ∀ k n, s.upLinks src = [k] → s.links.get? k = some n → n.asleep = false → AMap.sorted s.links = true →
          n.credit .ctl = true → n.wait = [] →
          (t.link k).out = n.out ++ [n.flit (packetSlots ⟨s.chip, src, .accept ctx gen⟩) false]) ∧
    (∀ id L, s.pendingLaunch s.chip ctx gen = some (id, L) → L.answers = [src] →
      let told := (s.others L).foldl (fun s c => s.fabric c (.start ctx gen)) s
      let left := if L.chips.getLsbD s.chip then told.launches.set id { L with answers := [], started := true }
        else told.launches.del id
      exec (.accept src ctx gen) s = .next { told with launches := left }) ∧
    (∀ disp cause id L, s.pendingLaunch disp ctx gen = some (id, L) →
      (disp ≠ s.chip → exec (.refuse ⟨src, disp⟩ ctx gen cause) s = .next { u with launches := s.launches.del id }) ∧
      ∀ d, disp = s.chip →
        let told := ((s.others L).filter (· != src)).foldl (fun s c => s.fabric c (.refuse disp ctx gen cause))
          { u with launches := s.launches.del id }
        told.queue ctx L.queue = (told, some d) → (told.refuseRecord ctx d L.index cause 2).need = [] →
        exec (.refuse ⟨src, disp⟩ ctx gen cause) s = .next (told.refuseRecord ctx d L.index cause 2).spend) ∧
    (∀ id L, s.pendingLaunch src ctx gen = some (id, L) →
      exec (.start src ctx gen) s = .next { s with launches := s.launches.set id { L with started := true } }) ∧
    (∀ disp cause, s.pendingLaunch disp ctx gen = none → exec (.refuse ⟨src, disp⟩ ctx gen cause) s = .next u) ∧
    (s.pendingLaunch s.chip ctx gen = none → exec (.accept src ctx gen) s = .next s) ∧
    (s.pendingLaunch src ctx gen = none → exec (.start src ctx gen) s = .next s)

/-- Compaction, R129, R154, R175: where the unit that waits lacks a run and not units, and some run can move down,
one run that nothing pins, and on which nothing is outstanding, moves to a lower base and nothing else changes but the mark that its warp was moved in this cycle (R371). One move an
event, and its place, are the model's choice (log 50). -/
def Obligations.CompactorsMove : Prop :=
  ∀ (s : State) (core sub bank : Nat) (q : BlockReq), s.wanted core = some q →
    ((s.shortOn core q).contains (.bank sub bank) = true →
      (∃ x, canSink (s.bankRuns core sub bank) x ∧ s.quarterMoves x.1 bank = true) →
      ∃ x a, x ∈ s.bankRuns core sub bank ∧ a < x.2.1 ∧ s.quarterMoves x.1 bank = true ∧
        exec (.compactorMove core sub bank) s =
          .next { s.modWarp x.1 fun W => { W with quarters := W.quarters.set bank a } with moved := insertNat s.moved x.1 }) ∧
    ((s.shortOn core q).contains .store = true →
      (∃ x, canSink (s.storeRuns core) x ∧ ∀ w ∈ (s.block x.1).warps, s.pinned w = false) →
      ∃ x a, x ∈ s.storeRuns core ∧ a < x.2.1 ∧ (∀ w ∈ (s.block x.1).warps, s.pinned w = false) ∧
        exec (.lsCompaction core) s = .next (s.modBlock x.1 fun B => { B with lsBase := a })) ∧
    ((s.shortOn core q).contains (.tiles sub) = true →
      (∃ x, canSink (s.tileRuns core sub) x ∧ s.pinned x.1 = false ∧ s.tileBusy x.1 = false) →
      ∃ x a, x ∈ s.tileRuns core sub ∧ a < x.2.1 ∧ s.pinned x.1 = false ∧ s.tileBusy x.1 = false ∧
        exec (.tileCompaction core sub) s =
          .next { s.modWarp x.1 fun W => { W with tileBase := a } with moved := insertNat s.moved x.1 })

/-! ## Contexts and partitions -/

/-- The commands of a partition and their ends, R341, R342, R352, R355: a preload fills the shadow banks; a switch to what
they hold, or an unbind, halts the cores, and another switch preloads first; the flip exchanges the contexts, and of
memory the save area of the one that leaves alone changes; a context whose image is out is saved; PCORES names the cores. What a switch keeps, and
the core that a core's work goes to, are the model's choice (logs 34 and 54). -/
def Obligations.ContextSwitches : Prop :=
  ∀ (s : State) (n : Nat), AMap.sorted s.parts = true → AMap.sorted s.cores = true → AMap.sorted s.ctxs = true →
    s.mgmt.pstate = 0 → s.mgmt.a1 = [] →
    let P := s.part n
    let u := s.unasked
    let area := (s.ctx P.ctx).save
    let keeps (t : State) : Prop := ∀ a, a < area ∨ area + 1572864 * P.cores.length ≤ a → memGet t.mem a = memGet s.mem a
    (P.atRest →
      (∀ d x, d % 128 = 0 → d < 2 ^ 52 → s.bindable n x = true →
        (s.ownPa d = true → u.devRead d 128 = (u, x) →
          (∃ t, exec (.preload n d) s = .next t ∧ t = { u with parts := t.parts } ∧
            t.part n = { P with cmd := 1, desc := BitVec.ofNat 64 d, pre := true, ready := false, shadow := some (d, x) }) ∧
          (P.ready = false → ∃ t, exec (.switch n d) s = .next t ∧ t = { u with parts := t.parts } ∧
            t.part n = { P with cmd := 2, desc := BitVec.ofNat 64 d, pre := true, shadow := some (d, x), swt := true,
                                incoming := some d })) ∧
        (P.ready = true → P.shadow = some (d, x) → ∃ t, exec (.switch n d) s = .next t ∧
          t.part n = { P with cmd := 2, desc := BitVec.ofNat 64 d, swt := true, incoming := some d } ∧
          ∀ c ∈ P.cores, (t.core c).halting = true)) ∧
      (P.run = true → ∃ t, exec (.unbind n) s = .next t ∧
        t.part n = { P with cmd := 3, desc := 0, swt := true, incoming := none } ∧
        ∀ c ∈ P.cores, (t.core c).halting = true) ∧
      (P.run = true → n < 16 → ∃ t, exec (.functionLevelReset n) s = .next t ∧
        t.part n = { P with swt := true, incoming := none } ∧ ∀ c ∈ P.cores, (t.core c).halting = true) ∧
      (∀ d v, d ≤ 2 → P.run = false → P.ready = false →
        (∀ e ∈ s.parts, e.1 ≠ n → ∀ i, i < 64 → v.getLsbD i = true → 64 * d + i ∉ e.2.cores) →
        ∃ t, exec (.pcoresWrite n d v) s = .next t ∧ t = { s with parts := t.parts } ∧
          ∀ c, c ∈ (t.part n).cores ↔ if c / 64 = d then v.getLsbD (c % 64) = true else c ∈ P.cores)) ∧
    (∀ d x, P.pre = true → P.shadow = some (d, x) → s.preloadable x = true →
      (P.swt = false → P.waiting = [] → ∃ t, exec (.preloadComplete n) s = .next t ∧ t = { u with parts := t.parts } ∧
        t.part n = { P with pre := false, ready := true }) ∧
      (P.swt = true → P.incoming = some d → ∃ t, exec (.preloadComplete n) s = .next t ∧
        t.part n = { P with pre := false, ready := true } ∧ ∀ c ∈ P.cores, (t.core c).halting = true)) ∧
    (∀ d x, P.swt = true → P.waiting = [] → P.ready = true → P.shadow = some (d, x) → P.incoming = some d →
      let c := descCtx x
      (P.run = true → s.halted P.ctx = true ∧ P.drn = false ∧ (s.ctxs.get? P.ctx).isSome = true ∧ P.ctx ≠ c ∧
        ∀ e ∈ s.cmds, e.2.ctx = P.ctx → e.2.started = true) →
      (∀ e ∈ s.warps, (s.block e.2.block).ctx ≠ c) → (∀ e ∈ s.groups, (s.block e.2.block).ctx ≠ c) →
      (∀ e ∈ s.blocks, e.2.ctx ≠ c) → (∀ e ∈ s.cmds, e.2.ctx ≠ c) →
      ∃ t, exec (.switchFlip n) s = .next t ∧ (P.run = false → t.mem = s.mem) ∧ (s.memOk → keeps t) ∧
        t.part n = { P with swt := false, ready := false, shadow := none, incoming := none, run := true, ctx := c,
                            drn := P.drn || P.run, draining := if P.run then some P.ctx else P.draining } ∧
        (t.ctx c).status = .bound n ∧ (t.ctx c).root = field x 0 8 ∧
        (P.run = true → (t.ctx P.ctx).status = .draining n)) ∧
    (P.swt = true → P.waiting = [] → P.run = true → P.incoming = none → s.halted P.ctx = true →
      (s.ctxs.get? P.ctx).isSome = true → (∀ e ∈ s.cmds, e.2.ctx = P.ctx → e.2.started = true) →
      ∃ t, exec (.switchFlip n) s = .next t ∧ (s.memOk → keeps t) ∧
        t.part n = { P with swt := false, run := false, drn := true, draining := some P.ctx, ctx := 0 } ∧
        (t.ctx P.ctx).status = .draining n) ∧
    (∀ c C, s.ctxs.get? c = some C → C.status = .draining n → P.draining = some c → P.waiting = [] → s.imagesOut c = false →
      (∀ e ∈ s.ops, e.2.ctx ≠ c) → (∀ e ∈ s.cmds, e.2.ctx ≠ c ∨ e.2.saved = true) →
      (∀ e ∈ s.joins, (s.block (s.warp e.2.warp).block).ctx ≠ c) →
      (∀ e ∈ s.spills, (s.block (s.warp e.2.warp).block).ctx ≠ c) →
      s.partialOf (fun x => (s.block (s.warp x.1).block).ctx == c) = false →
      ∃ t, exec (.contextResumable c) s = .next t ∧
        t = { u with ctxs := t.ctxs, parts := t.parts } ∧ t.part n = { P with drn := false, draining := none } ∧
        t.ctx c = { C with status := .saved })

/-! ## The host -/

/-- The host's requests at a line that nothing holds, R352, R357: an address less the base of the HDM decoder is an offset in
this chip's memory; reads return the half line, with metadata only in host bias, where they leave HS or WHO; writes change
the bytes of their mask and no others; a snoop returns the line; and the host's answer to a back-invalidation lets go of
its line. -/
def Obligations.HostRequests : Prop :=
  ∀ s : State, AMap.sorted s.msgs = true → AMap.sorted s.lines = true → AMap.sorted s.hostReqs = true → s.memOk →
    s.mgmt.pstate = 0 → s.mgmt.a1 = [] → s.flipOn = false →
    (∀ off b, s.mgmt.stage = .ready → off < Config.memBytes → off % 64 = 0 → s.chip < 64 →
      let addr := s.hdm + off
      let pa := s.chip * 2 ^ 45 + off
      let line := pa / 128
      (s.hline line).busy = none → (s.hline line).queue = [] → (s.hline line).pkg = .i → (s.hline line).st = 0 →
      (s.hline line).hs = false → s.hostBias (128 * line) = b →
      let reads (i : Instr) (bytes : List Byte) (m : MemMeta) : Prop :=
        ∃ t, exec i s = .next t ∧ t.mem = s.mem ∧ t.out = s.out ++ [.rdData addr bytes m] ∧
          (t.hline line).hs = (m == .s) ∧ ((t.hline line).st, (t.hline line).who) = if m = .a then (2, 64) else (0, (s.hline line).who)
      let writes (i : Instr) (mask : BitVec 64) (data : List Byte) : Prop :=
        ∃ t, exec i s = .next t ∧ t.out = s.out ++ [.wrDone addr] ∧
          (∀ j, j < 64 → memGet t.mem (pa + j) = if mask.getLsbD j = true then data.getD j 0 else memGet s.mem (pa + j)) ∧
          ∀ a, a < pa ∨ pa + 64 ≤ a → memGet t.mem a = memGet s.mem a
      (∀ md, reads (.memrd md addr) (memBytes s.mem pa 64) (if b then md else .i)) ∧
      reads (.memrddata addr) (memBytes s.mem pa 64) .i ∧ reads (.meminv addr) [] (if b then .a else .i) ∧
      (∀ data, writes (.memwr addr data) (BitVec.allOnes 64) data) ∧
      ∀ mask data, writes (.memwrptl addr mask data) mask data) ∧
    (∀ pa h, placeOf pa = .host h → (s.hline (pa / 128)).busy = none → (s.hline (pa / 128)).queue = [] →
      (s.hline (pa / 128)).pkg = .i → (s.hline (pa / 128)).st = 0 → ∀ i, i = .snpinv pa ∨ i = .snpdata pa ∨ i = .snpcur pa →
      ∃ t, exec i s = .next t ∧ t.mem = s.mem ∧ t.out = s.out ++ [.snpRsp (128 * (pa / 128)) (s.lineList (pa / 128))]) ∧
    (∀ line wr, (s.biWait.get? line).isSome = true → (s.hline line).busy = none →
      ∃ t, exec (.bisnpResponse line wr) s = .next t ∧ t = { s with mem := t.mem, lines := t.lines, biWait := s.biWait.del line } ∧
        (∀ l, t.hline l = s.hline l) ∧
        t.mem = (match wr with
          | some data => memPutBytes s.mem (128 * line) (data.take 128)
          | none => s.mem))

/-- Flips, R358, R359, and host registers, R354: BFLIP queues a flip or is refused; a flip whose page has its bias already
goes on to its end at once, and host requests that wait at its lines are held; one to device bias asks the host for the first line of the page that it has; at its end the
bias bit is as it asks, DONE counts and vector 0 is raised. A load of a host register receives what the host answers, in the bytes that it asked for;
an error, or no answer, is recorded. -/
def Obligations.FlipsAndHostRegisters : Prop :=
  (∀ (s : State) (v : DWord), let page := v.toNat % 2 ^ 52 / 4096
    (s.flips.length < 16 → s.ownPa (4096 * page) = true → exec (.bflip v) s =
      .next { s with bflip := v &&& 0x000FFFFFFFFFF001, flips := s.flips ++ [v &&& 0x000FFFFFFFFFF001] }) ∧
    (16 ≤ s.flips.length ∨ s.ownPa (4096 * page) = false → exec (.bflip v) s =
      .next { s with bflip := v &&& 0x000FFFFFFFFFF001, flipErr := true, fresh := (.bstat, 0x20) :: s.fresh })) ∧
  (∀ (s : State) (v : DWord) (rest : List DWord), s.flips = v :: rest →
    let page := v.toNat % 2 ^ 52 / 4096
    let a := s.biasByte page
    (s.flipOn = false → (s.holdQueued page).hostBias (4096 * page) = v.getLsbD 0 →
      exec .flipStart s = .next { s.holdQueued page with flipOn := true, flipAt := 32, flipSent := false }) ∧
    ((∀ e ∈ s.msgs, e.2.line / 32 = page → e.1 ∉ (s.hline e.2.line).queue) → s.holdQueued page = s) ∧
    (∀ i, s.flipOn = false → s.holdQueued page = s → s.hostBias (4096 * page) = true → v.getLsbD 0 = false → i < 32 →
      (∀ j, j < i → (s.hline (32 * page + j)).atHost = false ∧ s.hostServing (32 * page + j) = false) →
      (s.hline (32 * page + i)).atHost = true → s.hostServing (32 * page + i) = false → s.biWait.get? (32 * page + i) = none →
      exec .flipStart s = .next { s with flipOn := true, flipAt := i, flipSent := true,
                                         biWait := s.biWait.set (32 * page + i) true,
                                         out := s.out ++ [.biSnp (32 * page + i) true] }) ∧
    (s.flipOn = true → s.flipBusy page = false → s.heldHost = [] → s.ownPa a = true → s.memOk →
      AMap.sorted s.lines = true → s.atHand (a / 128) true = true → (s.hline (a / 128)).pkg = .i →
      (s.hline (a / 128)).busy = none → (∀ e ∈ s.msgs, e.2.line ≠ a / 128) → s.fetched = [] →
      ∃ t, exec .flipComplete s = .next t ∧
        t = { s.unasked with mem := t.mem, flips := rest, flipOn := false, flipDone := s.flipDone + 1,
                             out := s.out ++ [.msix 0 0] } ∧
        (∀ i, i < 8 → (memGet t.mem a).getLsbD i = if i = page % 8 then v.getLsbD 0 else (memGet s.mem a).getLsbD i) ∧
        ∀ b, b ≠ a → memGet t.mem b = memGet s.mem b)) ∧
  ∀ (s : State) (q : Nat) (r : RegReq) (op : Op) (W : Warp), s.regReqs.get? q = some r → s.ops.get? r.op = some op →
    r.load = true → s.threadsOk → s.warps.get? op.warp = some W → op.hold = none → op.spill = none →
    (∀ data d, op.act = .ld false → op.dst = some d → let x := BitVec.ofNat 64 (data.toNat % 256 ^ op.len); ∃ t, exec (.hostRegCompletion q true data) s = .next t ∧
      t.mem = s.mem ∧ t.regReqs = s.regReqs.del q ∧ t.ops = s.ops.del r.op ∧
      (t.lane op.warp op.lane).v = (if op.dstLen = 2 then (s.lane op.warp op.lane).setV64 d x
        else (s.lane op.warp op.lane).setV d (x.extractLsb' 0 32)).v) ∧
    (∀ data, op.act = .ld false → ∀ i, i = .hostRegCompletion q false data ∨ i = .hostRegTimeout q →
      ∃ t, exec i s = .next t ∧ t.mem = s.mem ∧ t.regReqs = s.regReqs.del q ∧ t.ops = s.ops.del r.op ∧ t.hrErr = true ∧
        t.hrFails = min (s.hrFails + 1) (2 ^ 32 - 1) ∧
        ∀ w l, (s.lane w l).regsAre (t.lane w l))

/-! ## The fabric and global time -/

/-- Flits, links and global time, R360, R363 to R365, R388: a flit whose CRC is wrong is asked for again, one out of order is
dropped, and one in order delivers its messages and has its ACK field take effect; a link on which a flit has failed eight
replays goes down, and a request in flight on it ends with poison; a link that is trained sends what waited and what it
held, and is a route to the chip at its end where none was written (log 23: PRESUMED); a wake leaves A3, and is raised for a
sleeping peer; exchanges and messages measure the offset, and LOCK rises after 64 of them within 2 ns, and falls outside, or
after 100 microseconds of silence. What the CRC and the ACK field are, is free, and which flits take effect is the model's
choice (log 55); the rate correction is free within its bound (log 56). -/
def Obligations.FabricEvents : Prop :=
  ∀ (s : State) (k : Nat), AMap.sorted s.links = true →
    let l := s.link k
    let empty (n : Nat) : List FlitSlot := List.replicate n .empty
    (l.up = true → l.failed = false → s.mgmt.pstate = 0 → ∀ (seq : Word) (ack : BitVec 16) (crc : BitVec 64),
      let next : Link :=
        { l.acked ack with rxSeq := ((l.acked ack).rxSeq + 1) % 2 ^ 32, fails := 0, rxAcks := (l.acked ack).rxAcks + 1 }
      (∀ slots, Config.crc64 (flitBytes seq ack slots) ≠ crc →
        (seq.toNat = l.rxSeq ∨ l.fails = 0 → exec (.flit k (seq, ack) crc slots) s =
          .next (s.setLink k ({ l with fails := l.fails + 1 }.emit [] true))) ∧
        (seq.toNat ≠ l.rxSeq → l.fails ≠ 0 → exec (.flit k (seq, ack) crc slots) s = .next s)) ∧
      (∀ slots, Config.crc64 (flitBytes seq ack slots) = crc → seq.toNat ≠ l.rxSeq →
        exec (.flit k (seq, ack) crc slots) s = .next s) ∧
      (Config.crc64 (flitBytes seq ack (empty 15)) = crc → seq.toNat = l.rxSeq →
        exec (.flit k (seq, ack) crc (empty 15)) s = .next (s.linkStep k next)) ∧
      ∀ src id line r, let slots := .head ⟨src, s.chip, .req id line r⟩ 0 :: empty 14
        s.remoteChip line = none → Config.crc64 (flitBytes seq ack slots) = crc → seq.toNat = l.rxSeq →
        ∃ t, exec (.flit k (seq, ack) crc slots) s = .next t ∧ t.mem = s.mem ∧ t.msgs.get? (s.ids + 1) =
          some { src := chipSrc src, dst := homeOf line, line, body := .chipReq src id r }) ∧
    (l.up = true → l.failed = true → s.lines = [] → s.joins = [] → s.launches = [] → s.shoots = [] → (∀ lost, s.lostMons lost = []) →
      ringBase s.erbase = 0 →
      l.wait = [] → l.held = [] →
      let down : State := s.setLink k { l with
        up := false, fails := 0, resent := 0, replay := [], rx := none, credits := [], rxCredits := [], rxAcks := 0 }
      (l.replay = [] → exec (.linkDown k) s = .next down) ∧
      ∀ c id line r f, l.replay = [f] → f.slots = .head ⟨s.chip, c, .req id line r⟩ 0 :: empty 14 →
        exec (.linkDown k) s = .next { down with inbox := s.inbox ++ [⟨c, s.chip, .poison id line⟩] }) ∧
    (∀ p, k < Config.nLink → p < 64 → s.mgmt.pstate ≠ 3 → ∃ t, exec (.linkTrained k p) s = .next t ∧
      t = { s with links := t.links, routes := t.routes } ∧ (t.link k).up = true ∧ (t.link k).peer = p ∧
      (t.link k).held = [] ∧ (AMap.sorted s.routes = true → s.mayRoute p = true → k ∈ t.routes.getD p []) ∧
      (s.mayRoute p = false → t.routes = s.routes) ∧
      t.link k = (l.wait ++ l.held).foldl Link.send (if l.up = true
        then { l with peer := p, asleep := false, wake := false, out := l.out ++ l.replay, wait := [], held := [] }
        else { l with up := true, peer := p, fails := 0, resent := 0, rxSeq := 0, txSeq := 0, rx := none, rxAcks := 0,
                      rxCredits := [], replay := [], credits := [], asleep := false, wake := false, wait := [], held := [] })) ∧
    (s.mgmt.pstate = 3 → exec (.rillWake k) s = .next { s with mgmt := { s.mgmt with exiting := true } }) ∧
    (s.mgmt.pstate ≠ 3 → l.asleep = true → l.held ≠ [] → exec (.rillWake k) s = .next (s.setLink k { l with wake := true })) ∧
    (s.sync.sent < s.time / 1000 → s.mgmt.pstate = 3 →
      exec .timeExchange s = .next { s with sync := { s.sync with sent := s.time / 1000 } }) ∧
    (s.sync.sent < s.time / 1000 → s.sync.master = false → s.mgmt.pstate = 0 → ∃ t, exec .timeExchange s = .next t ∧
      t = { s with sync := { s.sync with sent := s.time / 1000 }, links := t.links } ∧
      (l.up = true → l.asleep = false → t.link k = l.send ⟨s.chip, l.peer, .time s.sync.offs⟩)) ∧
    (l.up = true → s.mgmt.pstate = 0 → s.sync.master = false →
      ∀ x : Int, ∃ t, exec (.timeMessage k x true) s = .next t ∧ t.mem = s.mem ∧
        t.sync.offs = max (-127) (min 127 x) ∧ t.sync.last = s.time ∧ -500 ≤ t.sync.rate ∧ t.sync.rate ≤ 500 ∧
        (-2 ≤ x ∧ x ≤ 2 → (63 ≤ s.sync.within → t.sync.lock = true) ∧
          (s.sync.within < 63 → t.sync.within = s.sync.within + 1 ∧ t.sync.lock = s.sync.lock)) ∧
        (¬(-2 ≤ x ∧ x ≤ 2) → t.sync.lock = false ∧ t.sync.within = 0)) ∧
    (s.sync.lock = true → s.sync.last + 100000 ≤ s.time → ∃ t, exec .lockTimeout s = .next t ∧
      t = { s with fresh := t.fresh, sync :=
        { s.sync with lock := false, within := 0, losses := min (s.sync.losses + 1) (2 ^ 32 - 1) } })

/-! ## Management -/

/-- Bring-up and the commands of R378, R381 to R384, R389, where the device reaches what they read and write: a command that
may not run now is refused; an accepted one is busy until it ends, and its end has the effect that its name has; RESET
and power removal leave the flash, which VERIFY checks; INIT leaves memory 0 and registers at their reset values. What survives where no rule says it is the model's choice (log 59). -/
def Obligations.ManagementCommands : Prop :=
  ∀ s : State, let m := s.mgmt
    let u := s.unasked
    (∀ i, (i = .loadfw ∧ m.stage ≠ .recovery ∨ (i = .stagefw ∨ i = .attest) ∧ m.stage ≠ .ready ∨
        (i = .loadfw ∨ i = .stagefw ∨ i = .attest ∨ i = .reset) ∧ m.busy = true) →
      ∃ t, exec i s = .next t ∧
        t.unasked = { u with mgmt := { m with err := true, lasterr := 4 }, fresh := (.mstat, 0x10) :: s.fresh }) ∧
    (∀ arg h, m.busy = false → u.devRead (m.marg.toNat % 2 ^ 52 / 64 * 64) 64 = (u, arg) →
      u.devRead (field arg 0 8 % 2 ^ 52) 64 = (u, h) →
      let ends (im : List Byte) (c : Nat) : Prop :=
        (m.stage = .recovery → exec .loadfw s = .next { u with mgmt :=
          { m with busy := true, cmd := 1, job := some .loadfw, jobErr := c, jobImage := im, jobAddr := 0 } }) ∧
        (m.stage = .ready → exec .stagefw s = .next { u with mgmt :=
          { m with busy := true, cmd := 2, job := some .stagefw, jobErr := c, jobImage := im, jobAddr := 0 } })
      (imageShape (bytesOfNat 64 h) (field arg 8 4) = false → ends [] 3) ∧
      ∀ x, imageShape (bytesOfNat 64 h) (field arg 8 4) = true →
        u.devRead (field arg 0 8 % 2 ^ 52) (field arg 8 4) = (u, x) →
        ends (bytesOfNat (field arg 8 4) x) (imageCheck (bytesOfNat (field arg 8 4) x) (field arg 8 4) m.minver)) ∧
    (∀ arg, m.busy = false → m.stage = .ready → u.devRead (m.marg.toNat % 2 ^ 52 / 64 * 64) 64 = (u, arg) →
      ∃ t, exec .attest s = .next t ∧ t = { u with mgmt := t.mgmt } ∧ t.mgmt.busy = true ∧ t.mgmt.cmd = 3 ∧
        t.mgmt.job = some .attest ∧ t.mgmt.leaf = (if m.leaf < 2 ^ 20 then m.leaf + 1 else m.leaf) ∧
        t.mgmt.jobErr = (if m.leaf < 2 ^ 20 then 0 else 5) ∧ (m.leaf < 2 ^ 20 → t.mgmt.jobImage.length = 2952)) ∧
    (m.busy = false → ∃ t, exec .reset s = .next t ∧ t.mgmt.flash = m.flash ∧ t.mgmt.minver = m.minver ∧
      t.warps = [] ∧ t.caches = [] ∧ t.mgmt.stage = .verify) ∧
    (m.stage = .verify → let c := imageCheck m.flash m.flash.length m.minver
      (c = 0 → verifyEnds s =
        .next { s with mgmt := { m with stage := .init, image := m.flash, fwver := imageVersion m.flash } }) ∧
      (c ≠ 0 → verifyEnds s = .next { s with mgmt := { m with stage := .recovery, lasterr := c } })) ∧
    (∀ j, m.job = some j → s.storesOut = false → (j = .attest → m.jobErr = 0 → m.jobImage = []) →
      ∃ t, exec .commandComplete s = .next t ∧ t.mgmt.busy = false ∧ t.mgmt.job = none ∧ t.out = s.out ++ [.msix 0 3] ∧
        t.mem = s.mem ∧ (m.jobErr ≠ 0 → t.mgmt.err = true ∧ t.mgmt.lasterr = m.jobErr) ∧
        (m.jobErr = 0 → j = .loadfw → t.mgmt.stage = .init ∧ t.mgmt.image = m.jobImage ∧ t.mgmt.flash = m.flash) ∧
        (m.jobErr = 0 → j = .stagefw → t.mgmt.flash = m.jobImage ∧ t.mgmt.minver = imageVersion m.jobImage ∧
          t.mgmt.image = m.image ∧ t.mgmt.stage = m.stage)) ∧
    (m.job = some .attest → m.jobErr = 0 → m.jobImage ≠ [] → s.storesOut = false → s.memOk →
      (∀ n ∈ linesOf m.jobAddr m.jobImage.length, s.atHand n true = true) →
      ∃ t, exec .commandComplete s = .next t ∧ t.mgmt.busy = false ∧ t.mgmt.job = none ∧ t.out = s.out ++ [.msix 0 3] ∧
        ∀ i, i < m.jobImage.length → memGet t.mem (m.jobAddr + i) = m.jobImage.getD i 0) ∧
    (∀ f, m.stage = .rom → m.flash = [] → ∃ t, exec (.powerOn f) s = .next t ∧ t.mem = s.mem ∧ t.mgmt.flash = f ∧
      t.mgmt.stage = .verify) ∧
    (∃ t, exec .powerLoss s = .next t ∧ t.mgmt.stage = .rom ∧ t.warps = [] ∧ t.mgmt.image = [] ∧ t.mgmt.minver = m.minver ∧
      (m.job = none → t.mgmt.flash = m.flash)) ∧
    (m.stage = .verify → exec (.diesReleased true) s = exec (.diesReleased true) s.verified) ∧
    (m.stage = .init → (∃ t, exec (.diesReleased true) s = .next t ∧ t.mgmt.stage = .ready ∧ t.warps = [] ∧ t.lines = [] ∧
        t.parts = [] ∧ t.ctxs = [] ∧ t.btb = 0 ∧ t.mgmt.err = false ∧ t.mgmt.lasterr = 0 ∧ t.mgmt.cmd = 0 ∧ t.mgmt.marg = 0 ∧
        t.mgmt.sens = [] ∧ t.mgmt.tcap = [] ∧ t.mgmt.fwver = m.fwver ∧ (s.memOk → ∀ a, s.ownPa a = true → memGet t.mem a = 0)) ∧
      exec (.diesReleased false) s = .next { s with mgmt := { m with stage := .fault, lasterr := 6 } })

/-- Sensors and power states, R385 to R388: above 105 degrees a die's cap falls by 64, below 100 it rises by 64;
above 115 the module is reset; an idle module enters the deepest state whose latency it is allowed; a wake begins an
exit, an access to a partition page in A1, A2 or A3 is held until then, and the exit ends in A0. When A3 is allowed is the model's reading (log 60). -/
def Obligations.PowerStates : Prop :=
  ∀ s : State, let m := s.mgmt
    (∀ rs : List (BitVec 16), s.cxlIo = true → m.sensAt < s.time / 1000000 → AMap.sorted m.sens = true →
      AMap.sorted m.tcap = true →
      ((∀ d, d < 3 → (rs.getD d 0).toInt ≤ 920) → ∃ t, exec (.sensorUpdate rs) s = .next t ∧
        t = { s with mgmt := t.mgmt } ∧ (∀ k, k < 6 → t.mgmt.sens.getD k 0 = rs.getD k 0) ∧
        ∀ d, d < 3 → (840 < (rs.getD d 0).toInt → t.mgmt.tcap.getD d 1024 = m.tcap.getD d 1024 - 64) ∧
          ((rs.getD d 0).toInt < 800 → t.mgmt.tcap.getD d 1024 = min 1024 (m.tcap.getD d 1024 + 64))) ∧
      ((∃ d, d < 3 ∧ 920 < (rs.getD d 0).toInt) → exec (.sensorUpdate rs) s = .next s.moduleReset)) ∧
    (m.stage = .ready → m.exiting = false → m.pstate = 0 →
      let enter (n : Nat) : Prop := exec .powerIdleTimer s =
        .next { s with mgmt := { m with pstate := n, entries := (m.entries + 1) % 2 ^ 32 } }
      (s.idleNow = true → m.busyAt + 100000 ≤ s.time → m.ltrEn = true →
        (800000 ≤ m.tol → s.a3Ok = true → enter 3) ∧ (800000 ≤ m.tol → s.a3Ok = false → enter 2) ∧
          (40000 ≤ m.tol → m.tol < 800000 → enter 2)) ∧
      (m.ltrEn = false → 2000 ≤ m.tol → m.a1 = [] → ∀ d, d < 3 → s.dieBusy d = false →
        m.dieBusyAt.getD d 0 + 10000 ≤ s.time →
        ∃ t, exec .powerIdleTimer s = .next t ∧ t = { s with mgmt := { m with a1 := t.mgmt.a1 } } ∧ d ∈ t.mgmt.a1)) ∧
    (s.lowPower = true → exec .wake s = .next { s with mgmt := { m with exiting := true } }) ∧
    (s.lowPower = false → exec .wake s = .next s) ∧
    (s.lowPower = true → s.cxlIo = true → ∀ fn off len v, inPage fn off = true → exec (.registerWrite ⟨fn, off, len⟩ v) s =
      .next { s with mgmt := { m with exiting := true }, heldRegs := s.heldRegs ++ [⟨fn, off, len, some v⟩] }) ∧
    (m.exiting = true → s.heldHost = [] → s.heldRegs = [] → s.heldMsgs = [] → exec .powerExitComplete s =
      .next { s.unasked with mgmt := { m with pstate := 0, a1 := [], exiting := false } })

/-! ## Counters, stops, registers -/

/-- Stops, dumps, start and stop sources, R369, R373 to R375; a block run again, R377; and register writes by their
access codes, R7, R353: only the writable bits of a register change, a write of 1 clears where the code is W1C and the
device has not set the bit in the same cycle, and a write of another width or off the registers changes nothing. That
counts clear bit by bit is the model's reading (log 61). -/
def Obligations.StopsAndRegisters : Prop :=
  (∀ (s : State) (c : Nat), c < Config.nCore → AMap.sorted s.cores = true →
    (∃ t, exec (.strig c) s = .next t ∧ t = { s with cores := t.cores } ∧ t.core c = { s.core c with strig := true }) ∧
    ((s.core c).ecmp.toNat = s.clock → (s.core c).ecmpHit = false → ∃ t, exec (.ecmpMatch c) s = .next t ∧
      t = { s with cores := t.cores } ∧ t.core c = { s.core c with ecmpHit := true }) ∧
    (∀ mask : BitVec 4, s.threadsOk → (∀ e ∈ s.warps, e.2.pending = [] ∧ e.2.lsecc = none) →
      ∃ t, exec (.stop c mask) s = .next t ∧ t = { s with cores := t.cores, warps := t.warps } ∧ (t.core c).stop = mask ∧
      (∀ i, i < 4 → mask.getLsbD i = true → (s.core c).stop.getLsbD i = false →
        (t.core c).dumped.getLsbD i = false ∧
        ((s.core c).dumpBase &&& 0x000FFFFFFFFFE000 ≠ 0 → AMap.sorted (s.core c).dumping = true →
          ((t.core c).dumping.get? i).map (·.1) =
            some (((s.core c).dumpBase &&& 0x000FFFFFFFFFE000).toNat + 8192 * i)) ∧
        ∀ w W, s.warps.get? w = some W → W.core = c → W.sub = i → s.issuing (s.block W.block).ctx = true →
          (t.warp w).dbgHalt = true) ∧
      ∀ w W, s.warps.get? w = some W → W.core = c → W.sub < 4 → s.issuing (s.block W.block).ctx = true →
        mask.getLsbD W.sub = false → (t.warp w).dbgHalt = false) ∧
    (∀ (mask : BitVec 4) (g : Nat) (gr : Group), s.threadsOk → s.groups.get? g = some gr → gr.core = c → gr.sub < 4 →
      mask.getLsbD gr.sub = true → gr.park = .halt → s.issuing (s.block gr.block).ctx = true →
      (∀ e ∈ s.groups, e.1 ≠ g → e.2.park ≠ .halt) →
      (gr.pc ≠ gr.clauseEnd → ∃ t, exec (.relh c mask) s = .next t ∧
        t = { s with groups := t.groups } ∧ t.groups.get? g = some { gr with park := .run }) ∧
      (gr.pc = gr.clauseEnd → ∃ t, exec (.relh c mask) s = .next t ∧ ∀ x ∈ gr.lanes, t.Went x gr.clauseEnd)) ∧
    (∀ (sub base : Nat) (bytes : List Byte), sub < 4 → (s.core c).dumping.get? sub = some (base, bytes) → bytes ≠ [] →
      (∀ n ∈ linesOf base bytes.length, s.atHand n true = true) → s.storesOut = false → s.memOk →
      ∃ t, exec (.dumpWritten c sub) s = .next t ∧ (t.core c).dumped.getLsbD sub = true ∧
        (t.core c).dumping = (s.core c).dumping.del sub ∧
        ∀ i, i < bytes.length → memGet t.mem (base + i) = bytes.getD i 0)) ∧
  (∀ (s : State) (b : Nat) (B : Block), s.blocks.get? b = some B → AMap.sorted s.blocks = true → s.threadsOk →
    B.ended = true → B.told = true → s.issuing B.ctx = true → (∀ e ∈ s.cmds, e.2.block ≠ b) → (∀ e ∈ s.rels, e.2.warp ∉ B.warps) →
    (∀ e ∈ s.ops, e.2.warp ∉ B.warps) → (∀ e ∈ s.spills, e.2.warp ∉ B.warps) → (∀ e ∈ s.joins, e.2.warp ∉ B.warps) →
    (∀ e ∈ s.works, e.2.warp ∉ B.warps) → (∀ e ∈ s.remotes, e.2.warp ∉ B.warps) →
    (∀ w ∈ B.warps, (s.warp w).gwct ≤ s.timeAt B.core) →
    (B.idem = true → B.run < 4 → (s.reallot b).isSome = true → ∃ t, exec (.blockRelaunch b) s = .next t ∧ t.mem = s.mem ∧
      (t.block b).run = B.run + 1 ∧ (t.block b).ended = false ∧ (t.block b).failed = B.failed ∧ (t.block b).ls = []) ∧
    (B.idem = false ∨ 4 ≤ B.run → ∃ t, exec (.blockRelaunch b) s = .next t ∧ t.mem = s.mem ∧
      (t.block b).failed = true)) ∧
  ∀ (s : State) (v : DWord), s.cxlIo = true → let u := s.unasked
    let writes (off : Nat) (t : State) : Prop := exec (.registerWrite ⟨0, off, 8⟩ v) s = .next t
    let clears (r : W1c) (n : Nat) : Bool := v.getLsbD n && !(s.freshBits r).getLsbD n
    writes 0x00 { u with mgmt := { s.mgmt with err := s.mgmt.err && !clears .mstat 4 } } ∧
    writes 0x10 { u with mgmt := { s.mgmt with marg := v &&& 0x000FFFFFFFFFFFC0 } } ∧
    writes 0x18 { u with mgmt := { s.mgmt with tol := v.toNat % 2 ^ 32, ltrEn := v.getLsbD 63 } } ∧
    writes 0xA0000 { u with erbase := v &&& 0x000FFFFFFFFFFF8F } ∧
    writes 0x200010 { u with flipErr := s.flipErr && !clears .bstat 5 } ∧
    writes 0x400000 { u with hrb := v &&& 0xFFFFFFFFFFFFF000 } ∧
    writes 0x400008 { u with hrErr := s.hrErr && !clears .hrstat 0 } ∧
    (s.flips = [] → writes 0x200000 { u with btb := v &&& 0x000FFFFFFFFFF000 }) ∧
    (s.flips ≠ [] → writes 0x200000 u) ∧ writes 0x20 u ∧ writes 0x40 u ∧ writes 0xA0008 u ∧ writes 0x48 u ∧ writes 0x100 u ∧
    ∀ fn off len, s.mgmt.pstate = 0 → s.mgmt.a1 = [] → len ≠ 8 ∨ off % 8 ≠ 0 ∨ (1 ≤ fn ∧ 0x1000 ≤ off) →
      exec (.registerWrite ⟨fn, off, len⟩ v) s = .next u
end

