-- ==== Sys2Proof/Laws/Map.lean ====
section
/-! SUPPORT. The laws of finite maps: reading after writing, and the canonical form. -/

namespace Sys2Proof.Machine

variable {α : Type}

@[simp] theorem AMap.get?_nil (i : Nat) : AMap.get? ([] : AMap α) i = none := rfl

theorem AMap.get?_set_same (m : AMap α) (i : Nat) (x : α) : (m.set i x).get? i = some x := by
  induction m with
  | nil => simp [AMap.set, AMap.get?]
  | cons a m ih =>
    obtain ⟨k, v⟩ := a
    by_cases h1 : i < k
    · simp [AMap.set, h1, AMap.get?]
    · by_cases h2 : i = k
      · simp [AMap.set, h2, AMap.get?]
      · simp [AMap.set, h1, h2, AMap.get?, ih]

theorem AMap.get?_set_other (m : AMap α) (i j : Nat) (x : α) (h : j ≠ i) : (m.set i x).get? j = m.get? j := by
  induction m with
  | nil => simp [AMap.set, AMap.get?, h]
  | cons a m ih =>
    obtain ⟨k, v⟩ := a
    by_cases h1 : i < k
    · simp only [AMap.set, h1, if_true, AMap.get?, if_neg h]
      by_cases h3 : j < i
      · have : j < k := by omega
        simp [h3, this]
      · simp [h3]
    · by_cases h2 : i = k
      · subst h2
        simp [AMap.set, AMap.get?, h]
      · simp only [AMap.set, h1, h2, if_false, AMap.get?, ih]

theorem AMap.get?_set (m : AMap α) (i j : Nat) (x : α) :
    (m.set i x).get? j = if j = i then some x else m.get? j := by
  by_cases h : j = i
  · subst h; simp [AMap.get?_set_same]
  · simp [h, AMap.get?_set_other]

/-- The tail of a map in rising order is in rising order, and its head's key is below every other. -/
theorem AMap.sorted_cons (a : Nat × α) (m : AMap α) :
    AMap.sorted (a :: m) = true ↔ (∀ e ∈ m, a.1 < e.1) ∧ AMap.sorted m = true := by
  induction m generalizing a with
  | nil => simp [AMap.sorted]
  | cons b m ih =>
    simp only [AMap.sorted, Bool.and_eq_true, decide_eq_true_eq, List.mem_cons, forall_eq_or_imp]
    constructor
    · rintro ⟨h, hb⟩
      refine ⟨⟨h, fun e he => ?_⟩, hb⟩
      have := ((ih b).1 hb).1 e he
      omega
    · rintro ⟨⟨h, _⟩, hb⟩
      exact ⟨h, hb⟩

theorem AMap.mem_set {m : AMap α} {i : Nat} {x : α} {e : Nat × α} (h : e ∈ m.set i x) : e = (i, x) ∨ e ∈ m := by
  induction m with
  | nil => simp [AMap.set] at h; exact .inl h
  | cons a m ih =>
    obtain ⟨k, v⟩ := a
    simp only [AMap.set] at h
    split at h
    · simpa using h
    · split at h
      · rcases List.mem_cons.1 h with h | h
        · exact .inl h
        · exact .inr (List.mem_cons_of_mem _ h)
      · rcases List.mem_cons.1 h with h | h
        · exact .inr (by simp [h])
        · rcases ih h with h | h
          · exact .inl h
          · exact .inr (List.mem_cons_of_mem _ h)

theorem AMap.mem_del {m : AMap α} {i : Nat} {e : Nat × α} (h : e ∈ m.del i) : e ∈ m := by
  induction m with
  | nil => simp [AMap.del] at h
  | cons a m ih =>
    obtain ⟨k, v⟩ := a
    simp only [AMap.del] at h
    split at h
    · exact List.mem_cons_of_mem _ h
    · rcases List.mem_cons.1 h with h | h
      · simp [h]
      · exact List.mem_cons_of_mem _ (ih h)

theorem AMap.sorted_set {m : AMap α} (i : Nat) (x : α) (h : m.sorted = true) : (m.set i x).sorted = true := by
  induction m with
  | nil => rfl
  | cons a m ih =>
    obtain ⟨k, v⟩ := a
    obtain ⟨hk, hm⟩ := (AMap.sorted_cons _ _).1 h
    simp only [AMap.set]
    split
    · rename_i hik
      refine (AMap.sorted_cons _ _).2 ⟨fun e he => ?_, h⟩
      rcases List.mem_cons.1 he with rfl | he
      · exact hik
      · have := hk e he; simp only at this ⊢; omega
    · split
      · rename_i hik
        subst hik
        exact (AMap.sorted_cons _ _).2 ⟨hk, hm⟩
      · refine (AMap.sorted_cons _ _).2 ⟨fun e he => ?_, ih hm⟩
        rcases AMap.mem_set he with rfl | he
        · simp only; omega
        · exact hk e he

theorem AMap.sorted_del {m : AMap α} (i : Nat) (h : m.sorted = true) : (m.del i).sorted = true := by
  induction m with
  | nil => rfl
  | cons a m ih =>
    obtain ⟨k, v⟩ := a
    obtain ⟨hk, hm⟩ := (AMap.sorted_cons _ _).1 h
    simp only [AMap.del]
    split
    · exact hm
    · exact (AMap.sorted_cons _ _).2 ⟨fun e he => hk e (AMap.mem_del he), ih hm⟩

theorem AMap.get?_none_of_lt {m : AMap α} {i : Nat} (h : ∀ e ∈ m, i < e.1) : m.get? i = none := by
  cases m with
  | nil => rfl
  | cons a m =>
    obtain ⟨k, v⟩ := a
    have := h (k, v) (by simp)
    simp [AMap.get?, this]

theorem AMap.get?_del_same {m : AMap α} (i : Nat) (h : m.sorted = true) : (m.del i).get? i = none := by
  induction m with
  | nil => rfl
  | cons a m ih =>
    obtain ⟨k, v⟩ := a
    obtain ⟨hk, hm⟩ := (AMap.sorted_cons _ _).1 h
    simp only [AMap.del]
    split
    · rename_i hik
      subst hik
      exact AMap.get?_none_of_lt hk
    · rename_i hik
      simp [AMap.get?, hik, ih hm]

theorem AMap.get?_del_other {m : AMap α} (i j : Nat) (h : m.sorted = true) (hij : j ≠ i) :
    (m.del i).get? j = m.get? j := by
  induction m with
  | nil => rfl
  | cons a m ih =>
    obtain ⟨k, v⟩ := a
    obtain ⟨hk, hm⟩ := (AMap.sorted_cons _ _).1 h
    simp only [AMap.del]
    split
    · rename_i hik
      subst hik
      simp only [AMap.get?, if_neg hij]
      split
      · rename_i hlt
        exact AMap.get?_none_of_lt fun e he => by have := hk e he; simp only at this; omega
      · rfl
    · simp only [AMap.get?, ih hm]

/-- What a changed entry reads as, where there was one. -/
theorem AMap.get?_modify (m : AMap α) (i j : Nat) (f : α → α) :
    (m.modify i f).get? j = if j = i then (m.get? i).map f else m.get? j := by
  unfold AMap.modify
  by_cases h : j = i
  · subst h
    cases hm : m.get? j with
    | none => simp [hm]
    | some x => simp [AMap.get?_set_same]
  · cases hm : m.get? i with
    | none => simp [h]
    | some x => simp [h, AMap.get?_set_other]

variable [DecidableEq α]

theorem AMap.canon_iff (m : AMap α) (d : α) : m.canon d = true ↔ m.sorted = true ∧ ∀ e ∈ m, e.2 ≠ d := by
  simp [AMap.canon]

/-- A write keeps the canonical form. -/
theorem AMap.canon_putD {m : AMap α} {d : α} (i : Nat) (x : α) (h : m.canon d = true) :
    (m.putD i x d).canon d = true := by
  rw [AMap.canon_iff] at *
  unfold AMap.putD
  split
  · exact ⟨AMap.sorted_del _ h.1, fun e he => h.2 e (AMap.mem_del he)⟩
  · rename_i hx
    refine ⟨AMap.sorted_set _ _ h.1, fun e he => ?_⟩
    rcases AMap.mem_set he with rfl | he
    · exact hx
    · exact h.2 e he

theorem AMap.canon_nil (d : α) : AMap.canon ([] : AMap α) d = true := rfl

/-- Leaving entries out keeps the canonical form. -/
theorem AMap.canon_filter {m : AMap α} {d : α} (p : Nat × α → Bool) (h : m.canon d = true) :
    AMap.canon (m.filter p) d = true := by
  rw [AMap.canon_iff] at *
  refine ⟨?_, fun e he => h.2 e (List.mem_of_mem_filter he)⟩
  have hs := h.1
  clear h
  induction m with
  | nil => rfl
  | cons a m ih =>
    obtain ⟨hk, hm⟩ := (AMap.sorted_cons _ _).1 hs
    by_cases hp : p a = true
    · rw [List.filter_cons_of_pos hp]
      exact (AMap.sorted_cons _ _).2 ⟨fun e he => hk e (List.mem_of_mem_filter he), ih hm⟩
    · rw [List.filter_cons_of_neg hp]
      exact ih hm

theorem AMap.getD_putD_same (m : AMap α) (i : Nat) (x d : α) (h : m.sorted = true) : (m.putD i x d).getD i d = x := by
  unfold AMap.putD AMap.getD
  split
  · rename_i hx
    rw [AMap.get?_del_same _ h, hx]
    rfl
  · rw [AMap.get?_set_same]
    rfl

theorem AMap.getD_putD_other (m : AMap α) (i j : Nat) (x d : α) (h : m.sorted = true) (hij : j ≠ i) :
    (m.putD i x d).getD j d = m.getD j d := by
  unfold AMap.putD AMap.getD
  split
  · rw [AMap.get?_del_other _ _ h hij]
  · rw [AMap.get?_set_other _ _ _ _ hij]

end Sys2Proof.Machine
end

