-- ==== Sys2Proof/Laws/Device.lean ====
section
/-! SUPPORT. What an event of the device that reads or writes memory of its own accord can do. -/

namespace Sys2Proof.Machine

@[simp] theorem State.unasked_need (s : State) : s.unasked.need = [] := rfl
@[simp] theorem State.unasked_used (s : State) : s.unasked.used = [] := rfl
@[simp] theorem State.unasked_mem (s : State) : s.unasked.mem = s.mem := rfl
@[simp] theorem State.unasked_unasked (s : State) : s.unasked.unasked = s.unasked := rfl
@[simp] theorem State.unasked_spend (s : State) : s.unasked.spend = s.unasked := rfl

theorem State.unasked_of (s : State) (h1 : s.need = []) (h2 : s.used = []) : s.unasked = s := by
  cases s; cases h1; cases h2; rfl

@[simp] theorem State.spend_mem (s : State) : s.spend.mem = s.mem := by unfold State.spend; split <;> rfl

theorem State.spend_of_unused (s : State) (h : s.used = []) : s.spend = s := by simp [State.spend, h]

/-- Using up what was fetched changes nothing else. -/
theorem State.spend_eq (s : State) : s.spend = { s with fetched := s.spend.fetched, used := s.spend.used } := by
  unfold State.spend; split <;> rfl

/-- An event whose lines are all there happens. -/
theorem needing_next {e : State → Out} {s t : State} (h : e s.unasked = .next t) (hn : t.need = []) :
    needing e s = .next t.spend := by simp [needing, h, hn]

/-- What an event that reads memory does: it happens, or it asks for lines and does nothing else. -/
theorem needing_cases {e : State → Out} {s t : State} (h : needing e s = .next t) :
    ∃ u, e s.unasked = .next u ∧
      (u.need = [] ∧ t = u.spend ∨ u.need ≠ [] ∧ s.unasked.askNeed u.need = .next t) := by
  simp only [needing] at h
  split at h
  · rename_i u hu
    split at h
    · rename_i hn
      exact ⟨u, hu, .inl ⟨hn, by simpa using h.symm⟩⟩
    · rename_i hn
      exact ⟨u, hu, .inr ⟨hn, h⟩⟩
  · cases h
  · cases h

/-- Sending messages changes nothing but the messages. -/
theorem State.sends_eq {α : Type} (dst line : α → Nat) (b : State → α → Body) (xs : List α) (s : State) :
    let t := xs.foldl (fun s x => s.send devAgent (dst x) (line x) (b s x)) s
    t = { s with msgs := t.msgs, ids := t.ids } := by
  induction xs generalizing s with
  | nil => rfl
  | cons x xs ih => dsimp only at ih ⊢; rw [List.foldl_cons, ih]; rfl

/-- Asking for lines sends messages and changes nothing else. -/
theorem State.askNeed_eq {s t : State} {need : List (Nat × Bool)} (h : s.askNeed need = .next t) :
    t = { s with msgs := t.msgs, ids := t.ids } := by
  unfold State.askNeed at h
  split at h
  · cases h
  · cases h
    exact State.sends_eq (fun x : Nat × Bool => homeOf x.1) (fun x => x.1)
      (fun (s : State) x => if x.2 && s.ownPa (128 * x.1) then .clear true else .devRd) _ s

theorem State.askNeed_mem {s t : State} {need : List (Nat × Bool)} (h : s.askNeed need = .next t) : t.mem = s.mem := by
  rw [State.askNeed_eq h]

/-! ## Host accesses and power states, R387 -/

/-- In A1, A2 and A3 a host access to a partition page is held, and begins the exit. -/
theorem awake_asleep {x : HeldReg} {k : State → Out} {s : State} (h : s.lowPower = true) :
    awake x k s = .next { s with mgmt := { s.mgmt with exiting := true }, heldRegs := s.heldRegs ++ [x] } := by
  simp [awake, State.wakeUp, h]

/-- In A0 it is served as it comes. -/
theorem awake_a0 {x : HeldReg} {k : State → Out} {s : State} (h : s.mgmt.pstate = 0) (h1 : s.mgmt.a1 = []) :
    awake x k s = k s := by
  simp [awake, State.lowPower, h, h1]

end Sys2Proof.Machine
end

