-- ==== Sys2Proof/Laws/Fabric.lean ====
section
/-! SUPPORT. What sending over a link, and an ACK field, leave alone. -/

namespace Sys2Proof.Machine

@[simp] theorem Link.emit_rxSeq (l : Link) (xs : List FlitSlot) (again : Bool) : (l.emit xs again).rxSeq = l.rxSeq := rfl
@[simp] theorem Link.emit_up (l : Link) (xs : List FlitSlot) (again : Bool) : (l.emit xs again).up = l.up := rfl

@[simp] theorem Link.send_rxSeq (l : Link) (p : Packet) : (l.send p).rxSeq = l.rxSeq := by
  unfold Link.send; dsimp only; split <;> rfl

@[simp] theorem Link.send_up (l : Link) (p : Packet) : (l.send p).up = l.up := by
  unfold Link.send; dsimp only; split <;> rfl

theorem Link.sends_rxSeq (ps : List Packet) (l : Link) : (ps.foldl Link.send l).rxSeq = l.rxSeq := by
  induction ps generalizing l with
  | nil => rfl
  | cons p ps ih => simp [ih]

theorem Link.sends_up (ps : List Packet) (l : Link) : (ps.foldl Link.send l).up = l.up := by
  induction ps generalizing l with
  | nil => rfl
  | cons p ps ih => simp [ih]

@[simp] theorem Link.pump_rxSeq (l : Link) : l.pump.rxSeq = l.rxSeq := Link.sends_rxSeq _ _
@[simp] theorem Link.pump_up (l : Link) : l.pump.up = l.up := Link.sends_up _ _

@[simp] theorem Link.acked_rxSeq (l : Link) (ack : BitVec 16) : (l.acked ack).rxSeq = l.rxSeq := by
  unfold Link.acked; dsimp only; split <;> simp

@[simp] theorem Link.acked_up (l : Link) (ack : BitVec 16) : (l.acked ack).up = l.up := by
  unfold Link.acked; dsimp only; split <;> simp

end Sys2Proof.Machine
end

