-- ==== Sys2Proof/Laws/Float.lean ====
section
/-! SUPPORT. FP32 patterns: what they decode to, how their values are ordered, and that a value goes back to its pattern
(04_number_formats R73, R84). -/

namespace Sys2Proof.Machine

/-- The magnitude of an FP32 pattern, its sign apart. -/
abbrev mag32 (n : Nat) : Nat := n % 2147483648

/-- The significand of a finite magnitude. -/
def num32 (m : Nat) : Nat := if m < 8388608 then m else 8388608 + m % 8388608

/-- The exponent field of a finite magnitude, that of the subnormals raised to 1. -/
def exp32 (m : Nat) : Nat := max 1 (m / 8388608)

theorem dec32 (n : Nat) : fp32.dec n =
    if n / 8388608 % 256 = 255 then (if n % 8388608 = 0 then .inf (n / 2147483648 % 2 == 1) else .nan)
    else .fin (n / 2147483648 % 2 == 1) (if n / 8388608 % 256 = 0 then n % 8388608 else 8388608 + n % 8388608)
      ((if n / 8388608 % 256 = 0 then 1 else ((n / 8388608 % 256 : Nat) : Int)) - 127 - 23) := by
  have hb : (⟨8, 23, .ieee⟩ : FFmt).bias = 127 := rfl
  simp only [FFmt.dec, fp32, hb]
  norm_num

theorem dec32_fin {n : Nat} (h : mag32 n < 0x7F800000) :
    fp32.dec n = .fin (n / 2147483648 % 2 == 1) (num32 (mag32 n)) ((exp32 (mag32 n) : Int) - 150) := by
  unfold mag32 at h
  have he : n / 8388608 % 256 ≠ 255 := by omega
  rw [dec32, if_neg he]
  unfold num32 exp32 mag32
  by_cases h0 : n / 8388608 % 256 = 0
  · have h1 : n % 2147483648 < 8388608 := by omega
    have h2 : max 1 (n % 2147483648 / 8388608) = 1 := by omega
    have h3 : n % 8388608 = n % 2147483648 := by omega
    rw [if_pos h0, if_pos h0, if_pos h1, h2, h3]
    rfl
  · have h1 : ¬n % 2147483648 < 8388608 := by omega
    have h2 : max 1 (n % 2147483648 / 8388608) = n / 8388608 % 256 := by omega
    have h3 : 8388608 + n % 8388608 = 8388608 + n % 2147483648 % 8388608 := by omega
    rw [if_neg h0, if_neg h0, if_neg h1, h2, h3]
    congr 1
    omega

theorem dec32_inf {n : Nat} (h : mag32 n = 0x7F800000) : fp32.dec n = .inf (n / 2147483648 % 2 == 1) := by
  unfold mag32 at h
  rw [dec32, if_pos (by omega), if_pos (by omega)]

theorem dec32_nan {n : Nat} (h : 0x7F800000 < mag32 n) : fp32.dec n = .nan := by
  unfold mag32 at h
  rw [dec32, if_pos (by omega), if_neg (by omega)]

/-- The significand of a magnitude lies on the grid of its exponent. -/
theorem num32_low {m : Nat} (h : m < 8388608) : num32 m = m ∧ exp32 m = 1 := by
  unfold num32 exp32
  rw [if_pos h]
  omega

theorem num32_high {m : Nat} (h : 8388608 ≤ m) :
    8388608 ≤ num32 m ∧ num32 m < 16777216 ∧ exp32 m = m / 8388608 ∧ num32 m = 8388608 + m % 8388608 := by
  unfold num32 exp32
  rw [if_neg (by omega)]
  omega

/-- A finite magnitude that is not 0 is rounded to itself. -/
theorem round32 (c : RCtl) (neg : Bool) {m : Nat} (h0 : m ≠ 0) (h : m < 0x7F800000) (hz : c.fz = false ∨ 8388608 ≤ m) :
    fp32.round c neg (num32 m) ((exp32 m : Int) - 150) = fp32.signBit neg + m := by
  have e1 : fp32.m = 23 := rfl
  have e2 : fp32.emin = -126 := rfl
  have e3 : fp32.maxBits = 2139095039 := rfl
  have e4 : (2 : Nat) ^ 23 = 8388608 := rfl
  by_cases hs : m < 8388608
  · obtain ⟨hn, he⟩ := num32_low hs
    have hfz : c.fz = false := hz.resolve_right (by omega)
    have hl : Nat.log2 m < 23 := (Nat.log2_lt h0).2 (by omega)
    have hq : max ((Nat.log2 m : Int) + ((1 : Nat) - 150)) (-126) = -126 := by omega
    have hle : (-126 - ((23 : Nat) : Int)) ≤ ((1 : Nat) : Int) - 150 := by omega
    have hk : (((1 : Nat) : Int) - 150 - (-126 - (23 : Nat))).toNat = 0 := by omega
    simp only [FFmt.round, hn, he, hfz, Bool.false_and, Bool.false_eq_true, if_false, e1, e2, e3, e4, hq, if_pos hle, hk,
      pow_zero, mul_one, if_pos hs]
    rw [if_neg (by omega)]
  · obtain ⟨hn, hn', he, hnum⟩ := num32_high (by omega : 8388608 ≤ m)
    have hl : Nat.log2 (num32 m) = 23 := by
      rw [Nat.log2_eq_iff (by omega)]
      omega
    have hq : max (((23 : Nat) : Int) + ((m / 8388608 : Nat) - 150)) (-126) = (m / 8388608 : Nat) - 127 := by omega
    have hlow : ¬(((23 : Nat) : Int) + (((m / 8388608 : Nat) : Int) - 150) < -126) := by omega
    have hsub : ((((m / 8388608 : Nat) : Int) - 150 - (((m / 8388608 : Nat) : Int) - 127 - (23 : Nat))).toNat) = 0 := by omega
    have hx : ((((m / 8388608 : Nat) : Int) - 127 - (23 : Nat)) - -126 + (23 : Nat) + 1).toNat = m / 8388608 := by omega
    have hb : m / 8388608 * 8388608 + (num32 m - 8388608) = m := by omega
    have hle : (((m / 8388608 : Nat) : Int) - 127 - (23 : Nat)) ≤ (m / 8388608 : Nat) - 150 := by omega
    have hge : ¬num32 m < 8388608 := by omega
    simp only [FFmt.round, hl, he, e1, e2, e3, e4, hq, hlow, decide_false, Bool.and_false, Bool.false_eq_true, if_false,
      if_pos hle, hsub, pow_zero, mul_one, if_neg hge, hx, hb]
    rw [if_neg (by omega)]

/-- A pattern under FZ: a subnormal is a zero of its sign. -/
def flush32 (fz : Bool) (n : Nat) : Nat := if fz = true ∧ mag32 n < 8388608 then n - mag32 n else n

theorem flush32_mag (fz : Bool) (n : Nat) :
    mag32 (flush32 fz n) = if fz = true ∧ mag32 n < 8388608 then 0 else mag32 n := by
  unfold flush32 mag32
  split <;> omega

theorem flush32_sign {fz : Bool} {n : Nat} : flush32 fz n / 2147483648 % 2 = n / 2147483648 % 2 := by
  unfold flush32 mag32
  split <;> omega

/-- What an FP32 operand reads as: its significand and exponent, after FZ. -/
theorem read32_fin (fz : Bool) {n : Nat} (h : mag32 n < 0x7F800000) : fp32.read fz n =
    .fin (n / 2147483648 % 2 == 1) (num32 (mag32 (flush32 fz n))) ((exp32 (mag32 (flush32 fz n)) : Int) - 150) := by
  have e4 : (2 : Nat) ^ fp32.m = 8388608 := rfl
  rw [flush32_mag, FFmt.read, dec32_fin h, FFmt.flushIn, e4]
  by_cases hs : mag32 n < 8388608
  · obtain ⟨hn, he⟩ := num32_low hs
    rw [hn, he]
    cases fz with
    | false => rw [if_neg (show ¬(false = true ∧ mag32 n < 8388608) by simp), hn, he]; simp
    | true => rw [if_pos (show true = true ∧ mag32 n < 8388608 from ⟨rfl, hs⟩)]; simp only [hs, decide_true]; rfl
  · have hn := (num32_high (by omega : 8388608 ≤ mag32 n)).1
    have : ¬num32 (mag32 n) < 8388608 := by omega
    simp [this, hs]

theorem read32_inf (fz : Bool) {n : Nat} (h : mag32 n = 0x7F800000) : fp32.read fz n = .inf (n / 2147483648 % 2 == 1) := by
  rw [FFmt.read, dec32_inf h, FFmt.flushIn]

theorem read32_nan (fz : Bool) {n : Nat} (h : 0x7F800000 < mag32 n) : fp32.read fz n = .nan := by
  rw [FFmt.read, dec32_nan h, FFmt.flushIn]

theorem read32_isNan (fz : Bool) (n : Nat) : (fp32.read fz n).isNan = decide (0x7F800000 < mag32 n) := by
  rcases lt_trichotomy (mag32 n) 0x7F800000 with h | h | h
  · rw [read32_fin fz h]; simp [FVal.isNan]; omega
  · rw [read32_inf fz h]; simp [FVal.isNan, h]
  · rw [read32_nan fz h]; simp [FVal.isNan, h]

/-- A negated operand reads as the pattern with the other sign. -/
theorem read32_neg (fz : Bool) (x : Word) : (fp32.read fz x.toNat).neg true = fp32.read fz (x ^^^ 0x80000000).toNat := by
  have hx : (x ^^^ 0x80000000).toNat = if x.toNat < 2147483648 then x.toNat + 2147483648 else x.toNat - 2147483648 := by
    have key (m : Nat) (h : m < 2147483648) : m ^^^ 2147483648 = m + 2147483648 := by
      apply Nat.eq_of_testBit_eq
      intro i
      have e : (2147483648 : Nat) = 2 ^ 31 := by norm_num
      rw [e] at h ⊢
      rw [Nat.testBit_xor, Nat.testBit_two_pow, Nat.add_comm]
      rcases lt_trichotomy i 31 with hi | hi | hi
      · rw [Nat.testBit_two_pow_add_gt hi, decide_eq_false (by omega), Bool.xor_false]
      · subst hi; rw [Nat.testBit_two_pow_add_eq]; simp
      · have h1 : 2 ^ 31 + m < 2 ^ i := by
          calc 2 ^ 31 + m < 2 ^ 32 := by omega
            _ ≤ 2 ^ i := Nat.pow_le_pow_right (by norm_num) (by omega)
        rw [Nat.testBit_lt_two_pow h1, Nat.testBit_lt_two_pow (by omega), decide_eq_false (by omega)]; rfl
    have hlt := x.isLt
    rw [BitVec.toNat_xor]
    change x.toNat ^^^ 2147483648 = _
    split
    · next h => exact key _ h
    · next h =>
      have := key (x.toNat - 2147483648) (by omega)
      have e : x.toNat - 2147483648 + 2147483648 = x.toNat := by omega
      rw [e] at this
      rw [← this, Nat.xor_assoc, Nat.xor_self, Nat.xor_zero, this]
  generalize (x ^^^ 0x80000000).toNat = m at hx
  have hl := x.isLt
  generalize x.toNat = n at *
  have hm : mag32 m = mag32 n := by rw [hx]; unfold mag32; split <;> omega
  have hs : (m / 2147483648 % 2 == 1) = !(n / 2147483648 % 2 == 1) := by
    rw [hx, Bool.eq_iff_iff]; simp only [beq_iff_eq, Bool.not_eq_true', beq_eq_false_iff_ne]; split <;> omega
  rcases lt_trichotomy (mag32 n) 0x7F800000 with h | h | h
  · have e : mag32 (flush32 fz m) = mag32 (flush32 fz n) := by rw [flush32_mag, flush32_mag, hm]
    rw [read32_fin fz h, read32_fin fz (by rw [hm]; exact h), FVal.neg, e, hs]
    simp
  · rw [read32_inf fz h, read32_inf fz (by rw [hm]; exact h), FVal.neg, hs]; simp
  · rw [read32_nan fz h, read32_nan fz (by rw [hm]; exact h), FVal.neg]

/-- A number that is no NaN goes back to its pattern. -/
theorem put32_read (c : RCtl) {n : Nat} (hn : n < 4294967296) (h : mag32 n ≤ 0x7F800000) (hs : c.sat = false) :
    fp32.put c (fp32.read c.fz n) = flush32 c.fz n := by
  have hsign (b : Bool) : fp32.signBit b = if b then 2147483648 else 0 := rfl
  have hi : fp32.infBits = 0x7F800000 := rfl
  have hb : (if (n / 2147483648 % 2 == 1) = true then 2147483648 else 0) + mag32 n = n := by
    unfold mag32; split <;> simp_all <;> omega
  rcases Nat.lt_or_eq_of_le h with h | h
  · rw [read32_fin _ h, FFmt.put]
    have hm := flush32_mag c.fz n
    by_cases hz : c.fz = true ∧ mag32 n < 8388608
    · rw [if_pos hz] at hm
      have h0 : num32 (mag32 (flush32 c.fz n)) = 0 := by rw [hm]; rfl
      rw [if_pos h0, hsign, flush32, if_pos hz]
      omega
    · rw [if_neg hz] at hm
      rw [hm, flush32, if_neg hz]
      by_cases h0 : mag32 n = 0
      · rw [if_pos (by rw [h0]; rfl), hsign]; omega
      · rw [if_neg, round32 c _ h0 h (by
            cases hc : c.fz with
            | false => exact .inl rfl
            | true => exact .inr (by by_contra hlt; exact hz ⟨hc, by omega⟩)), hsign, hb]
        by_cases hlow : mag32 n < 8388608
        · rw [(num32_low hlow).1]; exact h0
        · have := (num32_high (by omega : 8388608 ≤ mag32 n)).1; omega
  · rw [flush32, if_neg (by omega), read32_inf _ h, FFmt.put, if_neg (by simp [hs]), hsign, hi, ← h]
    exact hb

/-- The place of a pattern that is no NaN among the others; both zeros stand at 0. -/
def rank32 (n : Nat) : Int := if 2147483648 ≤ n then -(mag32 n : Int) else mag32 n

/-- A magnitude as a multiple of the smallest subnormal. -/
def ulps32 (m : Nat) : Nat := num32 m * 2 ^ (exp32 m - 1)

theorem ulps32_lt {a b : Nat} (h : a < b) : ulps32 a < ulps32 b := by
  unfold ulps32
  by_cases hb : b < 8388608
  · have ha : a < 8388608 := by omega
    rw [(num32_low ha).1, (num32_low ha).2, (num32_low hb).1, (num32_low hb).2]
    simpa using h
  · obtain ⟨b1, b2, b3, b4⟩ := num32_high (by omega : 8388608 ≤ b)
    by_cases ha : a < 8388608
    · rw [(num32_low ha).1, (num32_low ha).2]
      calc a * 2 ^ (1 - 1) < 8388608 * 1 := by simpa using ha
        _ ≤ num32 b * 2 ^ (exp32 b - 1) := Nat.mul_le_mul b1 Nat.one_le_two_pow
    · obtain ⟨a1, a2, a3, a4⟩ := num32_high (by omega : 8388608 ≤ a)
      by_cases he : exp32 a = exp32 b
      · rw [he]
        exact (Nat.mul_lt_mul_right (Nat.two_pow_pos _)).2 (by omega)
      · have hlt : exp32 a - 1 + 1 ≤ exp32 b - 1 := by omega
        calc num32 a * 2 ^ (exp32 a - 1) < 16777216 * 2 ^ (exp32 a - 1) := (Nat.mul_lt_mul_right (Nat.two_pow_pos _)).2 a2
          _ = 8388608 * 2 ^ (exp32 a - 1 + 1) := by rw [pow_succ]; ring
          _ ≤ num32 b * 2 ^ (exp32 b - 1) := Nat.mul_le_mul b1 (Nat.pow_le_pow_right (by norm_num) hlt)

theorem ulps32_lt_iff {a b : Nat} : ulps32 a < ulps32 b ↔ a < b := by
  constructor
  · intro h
    by_contra hn
    rcases Nat.lt_or_eq_of_le (Nat.le_of_not_lt hn) with hlt | heq
    · exact absurd (ulps32_lt hlt) (by omega)
    · rw [heq] at h; exact absurd h (lt_irrefl _)
  · exact ulps32_lt

theorem ulps32_scale {m lo : Nat} (h : lo ≤ exp32 m) (hlo : 1 ≤ lo) :
    num32 m * 2 ^ (exp32 m - lo) * 2 ^ (lo - 1) = ulps32 m := by
  rw [ulps32, Nat.mul_assoc, ← pow_add]
  congr 2
  omega

theorem one_le_exp32 (m : Nat) : 1 ≤ exp32 m := le_max_left _ _

/-- Numbers that are no NaN compare as their places do. -/
theorem read32_lt (fz : Bool) {a b : Nat} (ha : a < 4294967296) (hb : b < 4294967296) (na : mag32 a ≤ 0x7F800000)
    (nb : mag32 b ≤ 0x7F800000) :
    (fp32.read fz a).lt (fp32.read fz b) = decide (rank32 (flush32 fz a) < rank32 (flush32 fz b)) := by
  have ma := flush32_mag fz a
  have mb := flush32_mag fz b
  have sa : (2147483648 ≤ flush32 fz a) ↔ (a / 2147483648 % 2 == 1) = true := by
    unfold flush32 mag32; simp only [beq_iff_eq]; split <;> omega
  have sb : (2147483648 ≤ flush32 fz b) ↔ (b / 2147483648 % 2 == 1) = true := by
    unfold flush32 mag32; simp only [beq_iff_eq]; split <;> omega
  have za (h : mag32 a = 0x7F800000) : mag32 (flush32 fz a) = 0x7F800000 := by rw [ma, if_neg (by omega), h]
  have zb (h : mag32 b = 0x7F800000) : mag32 (flush32 fz b) = 0x7F800000 := by rw [mb, if_neg (by omega), h]
  have fa (h : mag32 a < 0x7F800000) : mag32 (flush32 fz a) < 0x7F800000 := by rw [ma]; split <;> omega
  have fb (h : mag32 b < 0x7F800000) : mag32 (flush32 fz b) < 0x7F800000 := by rw [mb]; split <;> omega
  rcases Nat.lt_or_eq_of_le na with ha' | ha' <;> rcases Nat.lt_or_eq_of_le nb with hb' | hb'
  · rw [read32_fin fz ha', read32_fin fz hb']
    generalize hA : mag32 (flush32 fz a) = A
    generalize hB : mag32 (flush32 fz b) = B
    have hlo : min ((exp32 A : Int) - 150) ((exp32 B : Int) - 150) = ((min (exp32 A) (exp32 B) : Nat) : Int) - 150 := by omega
    generalize hl : min (exp32 A) (exp32 B) = lo at hlo
    have lA : lo ≤ exp32 A := by omega
    have lB : lo ≤ exp32 B := by omega
    have l1 : 1 ≤ lo := by have := one_le_exp32 A; have := one_le_exp32 B; omega
    have kA : ((exp32 A : Int) - 150 - ((lo : Int) - 150)).toNat = exp32 A - lo := by omega
    have kB : ((exp32 B : Int) - 150 - ((lo : Int) - 150)).toNat = exp32 B - lo := by omega
    have uA := ulps32_scale lA l1
    have uB := ulps32_scale lB l1
    simp only [FVal.lt, hlo, kA, kB, decide_eq_decide, rank32, sa, sb, hA, hB]
    have hp : 0 < 2 ^ (lo - 1) := Nat.two_pow_pos _
    have key (x y : Nat) : x < y ↔ x * 2 ^ (lo - 1) < y * 2 ^ (lo - 1) := (Nat.mul_lt_mul_right hp).symm
    have hAB : num32 A * 2 ^ (exp32 A - lo) < num32 B * 2 ^ (exp32 B - lo) ↔ A < B := by
      rw [key, uA, uB, ulps32_lt_iff]
    have hBA : num32 B * 2 ^ (exp32 B - lo) < num32 A * 2 ^ (exp32 A - lo) ↔ B < A := by
      rw [key, uA, uB, ulps32_lt_iff]
    have hA0 : num32 A * 2 ^ (exp32 A - lo) = 0 ↔ A = 0 := by
      have h0 : ulps32 0 = 0 := rfl
      constructor
      · intro h
        by_contra hne
        have := (ulps32_lt_iff (a := 0) (b := A)).2 (by omega)
        rw [← uA, h] at this; omega
      · intro h; subst h; simp [num32]
    have hB0 : num32 B * 2 ^ (exp32 B - lo) = 0 ↔ B = 0 := by
      have h0 : ulps32 0 = 0 := rfl
      constructor
      · intro h
        by_contra hne
        have := (ulps32_lt_iff (a := 0) (b := B)).2 (by omega)
        rw [← uB, h] at this; omega
      · intro h; subst h; simp [num32]
    generalize num32 A * 2 ^ (exp32 A - lo) = X at *
    generalize num32 B * 2 ^ (exp32 B - lo) = Y at *
    cases (a / 2147483648 % 2 == 1) <;> cases (b / 2147483648 % 2 == 1) <;>
      simp only [signed, if_true, if_false, Bool.false_eq_true] <;> omega
  · rw [read32_fin fz ha', read32_inf fz hb']
    have h1 := fa ha'
    have h2 := zb hb'
    simp only [FVal.lt, rank32, sa, sb]
    generalize mag32 (flush32 fz a) = A at *
    generalize mag32 (flush32 fz b) = B at *
    cases (a / 2147483648 % 2 == 1) <;> cases (b / 2147483648 % 2 == 1) <;> simp <;> omega
  · rw [read32_inf fz ha', read32_fin fz hb']
    have h1 := za ha'
    have h2 := fb hb'
    simp only [FVal.lt, rank32, sa, sb]
    generalize mag32 (flush32 fz a) = A at *
    generalize mag32 (flush32 fz b) = B at *
    cases (a / 2147483648 % 2 == 1) <;> cases (b / 2147483648 % 2 == 1) <;> simp <;> omega
  · rw [read32_inf fz ha', read32_inf fz hb']
    have h1 := za ha'
    have h2 := zb hb'
    simp only [FVal.lt, rank32, sa, sb]
    generalize mag32 (flush32 fz a) = A at *
    generalize mag32 (flush32 fz b) = B at *
    cases (a / 2147483648 % 2 == 1) <;> cases (b / 2147483648 % 2 == 1) <;> simp <;> omega

end Sys2Proof.Machine
end

