-- ==== Sys2Proof/Laws/Memory.lean ====
section
/-! SUPPORT. Memory keeps its canonical form under every operation over it; a read after a write gives the value
written, and a write leaves every other byte alone. -/

namespace Sys2Proof.Machine

theorem Memory.wf_sorted {m : Memory} (h : Memory.wf m = true) : AMap.sorted (α := Byte) m = true :=
  ((AMap.canon_iff (α := Byte) m 0).1 h).1

theorem memPut_wf {m : Memory} (a : Nat) (b : Byte) (h : Memory.wf m = true) : Memory.wf (memPut m a b) = true :=
  AMap.canon_putD (α := Byte) a b h

theorem memWrite_wf {m : Memory} (a n x : Nat) (h : Memory.wf m = true) : Memory.wf (memWrite m a n x) = true := by
  induction n generalizing m a x with
  | zero => exact h
  | succ n ih => exact ih _ _ (memPut_wf _ _ h)

theorem memPutBytes_wf {m : Memory} (a : Nat) (bs : List Byte) (h : Memory.wf m = true) :
    Memory.wf (memPutBytes m a bs) = true := by
  induction bs generalizing m a with
  | nil => exact h
  | cons b bs ih => exact ih _ (memPut_wf _ _ h)

/-- A fold of operations that keep the canonical form keeps it. -/
theorem foldl_wf {β : Type} (f : Memory → β → Memory) (l : List β) {m : Memory}
    (hf : ∀ m x, Memory.wf m = true → Memory.wf (f m x) = true) (h : Memory.wf m = true) :
    Memory.wf (l.foldl f m) = true := by
  induction l generalizing m with
  | nil => exact h
  | cons x l ih => exact ih (hf m x h)

theorem applyWords_wf {m : Memory} (line : Nat) (data : AMap Byte) (mask : List Nat) (h : Memory.wf m = true) :
    Memory.wf (applyWords m line data mask) = true :=
  foldl_wf _ _ (fun _ _ hm => foldl_wf _ _ (fun _ _ hm => memPut_wf _ _ hm) hm) h

theorem applyPartial_wf {m : Memory} (line : Nat) (p : Partial) (h : Memory.wf m = true) :
    Memory.wf (applyPartial m line p) = true :=
  foldl_wf _ _ (fun _ _ hm => memWrite_wf _ _ _ hm) h

theorem hostPart_wf {m : Memory} (h : Memory.wf m = true) : Memory.wf (hostPart m) = true :=
  AMap.canon_filter (α := Byte) _ h

theorem memGet_memPut_same {m : Memory} (a : Nat) (b : Byte) (h : Memory.wf m = true) : memGet (memPut m a b) a = b :=
  AMap.getD_putD_same (α := Byte) _ _ _ _ (Memory.wf_sorted h)

theorem memGet_memPut_other {m : Memory} (a a' : Nat) (b : Byte) (h : Memory.wf m = true) (ha : a' ≠ a) :
    memGet (memPut m a b) a' = memGet m a' :=
  AMap.getD_putD_other (α := Byte) _ _ _ _ _ (Memory.wf_sorted h) ha

/-- A write leaves every byte outside its range alone. -/
theorem memGet_memWrite_other {m : Memory} (a n x a' : Nat) (h : Memory.wf m = true) (ha : a' < a ∨ a + n ≤ a') :
    memGet (memWrite m a n x) a' = memGet m a' := by
  induction n generalizing m a x with
  | zero => rfl
  | succ n ih =>
    rw [memWrite, ih _ _ (memPut_wf _ _ h) (by omega), memGet_memPut_other _ _ _ h (by omega)]

/-- A read after a write to the same place gives the low bytes of the value written. -/
theorem memRead_memWrite {m : Memory} (a n x : Nat) (h : Memory.wf m = true) :
    memRead (memWrite m a n x) a n = x % 256 ^ n := by
  induction n generalizing m a x with
  | zero => simp [memRead, Nat.mod_one]
  | succ n ih =>
    have h1 := memPut_wf a (BitVec.ofNat 8 x) h
    have h8 : x % 2 ^ 8 = x % 256 := rfl
    rw [memRead, memWrite, ih _ _ h1, memGet_memWrite_other _ _ _ _ h1 (by omega), memGet_memPut_same _ _ h,
      BitVec.toNat_ofNat, h8, Nat.pow_succ', Nat.mod_mul (x := x)]

theorem State.reset_memOk : Memory.wf State.reset.mem = true := rfl

end Sys2Proof.Machine
end

