-- ==== Sys2Proof/Laws/State.lean ====
section
/-! SUPPORT. What the named updates of a state leave alone: one lemma for each field and each update, so that no proof
unfolds a record update; and what they change. -/

namespace Sys2Proof.Machine

/-! ## `State.setCore` -/

@[simp] theorem State.setCore_cores (s : State) (c : Nat) (x : Core) :
    (s.setCore c x).cores = s.cores.putD c x {} := rfl
@[simp] theorem State.setCore_clock (s : State) (c : Nat) (x : Core) :
    (s.setCore c x).clock = s.clock := rfl
@[simp] theorem State.setCore_time (s : State) (c : Nat) (x : Core) :
    (s.setCore c x).time = s.time := rfl
@[simp] theorem State.setCore_frac (s : State) (c : Nat) (x : Core) :
    (s.setCore c x).frac = s.frac := rfl
@[simp] theorem State.setCore_dieOff (s : State) (c : Nat) (x : Core) :
    (s.setCore c x).dieOff = s.dieOff := rfl
@[simp] theorem State.setCore_warps (s : State) (c : Nat) (x : Core) :
    (s.setCore c x).warps = s.warps := rfl
@[simp] theorem State.setCore_blocks (s : State) (c : Nat) (x : Core) :
    (s.setCore c x).blocks = s.blocks := rfl
@[simp] theorem State.setCore_launches (s : State) (c : Nat) (x : Core) :
    (s.setCore c x).launches = s.launches := rfl
@[simp] theorem State.setCore_groups (s : State) (c : Nat) (x : Core) :
    (s.setCore c x).groups = s.groups := rfl
@[simp] theorem State.setCore_cbars (s : State) (c : Nat) (x : Core) :
    (s.setCore c x).cbars = s.cbars := rfl
@[simp] theorem State.setCore_works (s : State) (c : Nat) (x : Core) :
    (s.setCore c x).works = s.works := rfl
@[simp] theorem State.setCore_ops (s : State) (c : Nat) (x : Core) :
    (s.setCore c x).ops = s.ops := rfl
@[simp] theorem State.setCore_remotes (s : State) (c : Nat) (x : Core) :
    (s.setCore c x).remotes = s.remotes := rfl
@[simp] theorem State.setCore_spills (s : State) (c : Nat) (x : Core) :
    (s.setCore c x).spills = s.spills := rfl
@[simp] theorem State.setCore_cmds (s : State) (c : Nat) (x : Core) :
    (s.setCore c x).cmds = s.cmds := rfl
@[simp] theorem State.setCore_mem (s : State) (c : Nat) (x : Core) :
    (s.setCore c x).mem = s.mem := rfl
@[simp] theorem State.setCore_lines (s : State) (c : Nat) (x : Core) :
    (s.setCore c x).lines = s.lines := rfl
@[simp] theorem State.setCore_caches (s : State) (c : Nat) (x : Core) :
    (s.setCore c x).caches = s.caches := rfl
@[simp] theorem State.setCore_slices (s : State) (c : Nat) (x : Core) :
    (s.setCore c x).slices = s.slices := rfl
@[simp] theorem State.setCore_msgs (s : State) (c : Nat) (x : Core) :
    (s.setCore c x).msgs = s.msgs := rfl
@[simp] theorem State.setCore_hostReqs (s : State) (c : Nat) (x : Core) :
    (s.setCore c x).hostReqs = s.hostReqs := rfl
@[simp] theorem State.setCore_weir (s : State) (c : Nat) (x : Core) :
    (s.setCore c x).weir = s.weir := rfl
@[simp] theorem State.setCore_tlb (s : State) (c : Nat) (x : Core) :
    (s.setCore c x).tlb = s.tlb := rfl
@[simp] theorem State.setCore_walks (s : State) (c : Nat) (x : Core) :
    (s.setCore c x).walks = s.walks := rfl
@[simp] theorem State.setCore_shoots (s : State) (c : Nat) (x : Core) :
    (s.setCore c x).shoots = s.shoots := rfl
@[simp] theorem State.setCore_mons (s : State) (c : Nat) (x : Core) :
    (s.setCore c x).mons = s.mons := rfl
@[simp] theorem State.setCore_monsAway (s : State) (c : Nat) (x : Core) :
    (s.setCore c x).monsAway = s.monsAway := rfl
@[simp] theorem State.setCore_rels (s : State) (c : Nat) (x : Core) :
    (s.setCore c x).rels = s.rels := rfl
@[simp] theorem State.setCore_ctxs (s : State) (c : Nat) (x : Core) :
    (s.setCore c x).ctxs = s.ctxs := rfl
@[simp] theorem State.setCore_parts (s : State) (c : Nat) (x : Core) :
    (s.setCore c x).parts = s.parts := rfl
@[simp] theorem State.setCore_chip (s : State) (c : Nat) (x : Core) :
    (s.setCore c x).chip = s.chip := rfl
@[simp] theorem State.setCore_domain (s : State) (c : Nat) (x : Core) :
    (s.setCore c x).domain = s.domain := rfl
@[simp] theorem State.setCore_hrb (s : State) (c : Nat) (x : Core) :
    (s.setCore c x).hrb = s.hrb := rfl
@[simp] theorem State.setCore_hrErr (s : State) (c : Nat) (x : Core) :
    (s.setCore c x).hrErr = s.hrErr := rfl
@[simp] theorem State.setCore_hrFails (s : State) (c : Nat) (x : Core) :
    (s.setCore c x).hrFails = s.hrFails := rfl
@[simp] theorem State.setCore_btb (s : State) (c : Nat) (x : Core) :
    (s.setCore c x).btb = s.btb := rfl
@[simp] theorem State.setCore_flips (s : State) (c : Nat) (x : Core) :
    (s.setCore c x).flips = s.flips := rfl
@[simp] theorem State.setCore_flipOn (s : State) (c : Nat) (x : Core) :
    (s.setCore c x).flipOn = s.flipOn := rfl
@[simp] theorem State.setCore_flipDone (s : State) (c : Nat) (x : Core) :
    (s.setCore c x).flipDone = s.flipDone := rfl
@[simp] theorem State.setCore_flipErr (s : State) (c : Nat) (x : Core) :
    (s.setCore c x).flipErr = s.flipErr := rfl
@[simp] theorem State.setCore_bflip (s : State) (c : Nat) (x : Core) :
    (s.setCore c x).bflip = s.bflip := rfl
@[simp] theorem State.setCore_heldHost (s : State) (c : Nat) (x : Core) :
    (s.setCore c x).heldHost = s.heldHost := rfl
@[simp] theorem State.setCore_heldRegs (s : State) (c : Nat) (x : Core) :
    (s.setCore c x).heldRegs = s.heldRegs := rfl
@[simp] theorem State.setCore_flipAt (s : State) (c : Nat) (x : Core) :
    (s.setCore c x).flipAt = s.flipAt := rfl
@[simp] theorem State.setCore_flipSent (s : State) (c : Nat) (x : Core) :
    (s.setCore c x).flipSent = s.flipSent := rfl
@[simp] theorem State.setCore_biWait (s : State) (c : Nat) (x : Core) :
    (s.setCore c x).biWait = s.biWait := rfl
@[simp] theorem State.setCore_hdm (s : State) (c : Nat) (x : Core) :
    (s.setCore c x).hdm = s.hdm := rfl
@[simp] theorem State.setCore_regReqs (s : State) (c : Nat) (x : Core) :
    (s.setCore c x).regReqs = s.regReqs := rfl
@[simp] theorem State.setCore_out (s : State) (c : Nat) (x : Core) :
    (s.setCore c x).out = s.out := rfl
@[simp] theorem State.setCore_links (s : State) (c : Nat) (x : Core) :
    (s.setCore c x).links = s.links := rfl
@[simp] theorem State.setCore_joins (s : State) (c : Nat) (x : Core) :
    (s.setCore c x).joins = s.joins := rfl
@[simp] theorem State.setCore_inbox (s : State) (c : Nat) (x : Core) :
    (s.setCore c x).inbox = s.inbox := rfl
@[simp] theorem State.setCore_heldMsgs (s : State) (c : Nat) (x : Core) :
    (s.setCore c x).heldMsgs = s.heldMsgs := rfl
@[simp] theorem State.setCore_routes (s : State) (c : Nat) (x : Core) :
    (s.setCore c x).routes = s.routes := rfl
@[simp] theorem State.setCore_sync (s : State) (c : Nat) (x : Core) :
    (s.setCore c x).sync = s.sync := rfl
@[simp] theorem State.setCore_erbase (s : State) (c : Nat) (x : Core) :
    (s.setCore c x).erbase = s.erbase := rfl
@[simp] theorem State.setCore_erhead (s : State) (c : Nat) (x : Core) :
    (s.setCore c x).erhead = s.erhead := rfl
@[simp] theorem State.setCore_ertail (s : State) (c : Nat) (x : Core) :
    (s.setCore c x).ertail = s.ertail := rfl
@[simp] theorem State.setCore_erCorr (s : State) (c : Nat) (x : Core) :
    (s.setCore c x).erCorr = s.erCorr := rfl
@[simp] theorem State.setCore_erLost (s : State) (c : Nat) (x : Core) :
    (s.setCore c x).erLost = s.erLost := rfl
@[simp] theorem State.setCore_tally (s : State) (c : Nat) (x : Core) :
    (s.setCore c x).tally = s.tally := rfl
@[simp] theorem State.setCore_moved (s : State) (c : Nat) (x : Core) :
    (s.setCore c x).moved = s.moved := rfl
@[simp] theorem State.setCore_fresh (s : State) (c : Nat) (x : Core) :
    (s.setCore c x).fresh = s.fresh := rfl
@[simp] theorem State.setCore_mgmt (s : State) (c : Nat) (x : Core) :
    (s.setCore c x).mgmt = s.mgmt := rfl
@[simp] theorem State.setCore_agenda (s : State) (c : Nat) (x : Core) :
    (s.setCore c x).agenda = s.agenda := rfl
@[simp] theorem State.setCore_focus (s : State) (c : Nat) (x : Core) :
    (s.setCore c x).focus = s.focus := rfl
@[simp] theorem State.setCore_need (s : State) (c : Nat) (x : Core) :
    (s.setCore c x).need = s.need := rfl
@[simp] theorem State.setCore_used (s : State) (c : Nat) (x : Core) :
    (s.setCore c x).used = s.used := rfl
@[simp] theorem State.setCore_fetched (s : State) (c : Nat) (x : Core) :
    (s.setCore c x).fetched = s.fetched := rfl
@[simp] theorem State.setCore_free (s : State) (c : Nat) (x : Core) :
    (s.setCore c x).free = s.free := rfl
@[simp] theorem State.setCore_ids (s : State) (c : Nat) (x : Core) :
    (s.setCore c x).ids = s.ids := rfl

/-! ## `State.modCore` -/

@[simp] theorem State.modCore_cores (s : State) (c : Nat) (f : Core → Core) :
    (s.modCore c f).cores = s.cores.putD c (f (s.core c)) {} := rfl
@[simp] theorem State.modCore_clock (s : State) (c : Nat) (f : Core → Core) :
    (s.modCore c f).clock = s.clock := rfl
@[simp] theorem State.modCore_time (s : State) (c : Nat) (f : Core → Core) :
    (s.modCore c f).time = s.time := rfl
@[simp] theorem State.modCore_frac (s : State) (c : Nat) (f : Core → Core) :
    (s.modCore c f).frac = s.frac := rfl
@[simp] theorem State.modCore_dieOff (s : State) (c : Nat) (f : Core → Core) :
    (s.modCore c f).dieOff = s.dieOff := rfl
@[simp] theorem State.modCore_warps (s : State) (c : Nat) (f : Core → Core) :
    (s.modCore c f).warps = s.warps := rfl
@[simp] theorem State.modCore_blocks (s : State) (c : Nat) (f : Core → Core) :
    (s.modCore c f).blocks = s.blocks := rfl
@[simp] theorem State.modCore_launches (s : State) (c : Nat) (f : Core → Core) :
    (s.modCore c f).launches = s.launches := rfl
@[simp] theorem State.modCore_groups (s : State) (c : Nat) (f : Core → Core) :
    (s.modCore c f).groups = s.groups := rfl
@[simp] theorem State.modCore_cbars (s : State) (c : Nat) (f : Core → Core) :
    (s.modCore c f).cbars = s.cbars := rfl
@[simp] theorem State.modCore_works (s : State) (c : Nat) (f : Core → Core) :
    (s.modCore c f).works = s.works := rfl
@[simp] theorem State.modCore_ops (s : State) (c : Nat) (f : Core → Core) :
    (s.modCore c f).ops = s.ops := rfl
@[simp] theorem State.modCore_remotes (s : State) (c : Nat) (f : Core → Core) :
    (s.modCore c f).remotes = s.remotes := rfl
@[simp] theorem State.modCore_spills (s : State) (c : Nat) (f : Core → Core) :
    (s.modCore c f).spills = s.spills := rfl
@[simp] theorem State.modCore_cmds (s : State) (c : Nat) (f : Core → Core) :
    (s.modCore c f).cmds = s.cmds := rfl
@[simp] theorem State.modCore_mem (s : State) (c : Nat) (f : Core → Core) :
    (s.modCore c f).mem = s.mem := rfl
@[simp] theorem State.modCore_lines (s : State) (c : Nat) (f : Core → Core) :
    (s.modCore c f).lines = s.lines := rfl
@[simp] theorem State.modCore_caches (s : State) (c : Nat) (f : Core → Core) :
    (s.modCore c f).caches = s.caches := rfl
@[simp] theorem State.modCore_slices (s : State) (c : Nat) (f : Core → Core) :
    (s.modCore c f).slices = s.slices := rfl
@[simp] theorem State.modCore_msgs (s : State) (c : Nat) (f : Core → Core) :
    (s.modCore c f).msgs = s.msgs := rfl
@[simp] theorem State.modCore_hostReqs (s : State) (c : Nat) (f : Core → Core) :
    (s.modCore c f).hostReqs = s.hostReqs := rfl
@[simp] theorem State.modCore_weir (s : State) (c : Nat) (f : Core → Core) :
    (s.modCore c f).weir = s.weir := rfl
@[simp] theorem State.modCore_tlb (s : State) (c : Nat) (f : Core → Core) :
    (s.modCore c f).tlb = s.tlb := rfl
@[simp] theorem State.modCore_walks (s : State) (c : Nat) (f : Core → Core) :
    (s.modCore c f).walks = s.walks := rfl
@[simp] theorem State.modCore_shoots (s : State) (c : Nat) (f : Core → Core) :
    (s.modCore c f).shoots = s.shoots := rfl
@[simp] theorem State.modCore_mons (s : State) (c : Nat) (f : Core → Core) :
    (s.modCore c f).mons = s.mons := rfl
@[simp] theorem State.modCore_monsAway (s : State) (c : Nat) (f : Core → Core) :
    (s.modCore c f).monsAway = s.monsAway := rfl
@[simp] theorem State.modCore_rels (s : State) (c : Nat) (f : Core → Core) :
    (s.modCore c f).rels = s.rels := rfl
@[simp] theorem State.modCore_ctxs (s : State) (c : Nat) (f : Core → Core) :
    (s.modCore c f).ctxs = s.ctxs := rfl
@[simp] theorem State.modCore_parts (s : State) (c : Nat) (f : Core → Core) :
    (s.modCore c f).parts = s.parts := rfl
@[simp] theorem State.modCore_chip (s : State) (c : Nat) (f : Core → Core) :
    (s.modCore c f).chip = s.chip := rfl
@[simp] theorem State.modCore_domain (s : State) (c : Nat) (f : Core → Core) :
    (s.modCore c f).domain = s.domain := rfl
@[simp] theorem State.modCore_hrb (s : State) (c : Nat) (f : Core → Core) :
    (s.modCore c f).hrb = s.hrb := rfl
@[simp] theorem State.modCore_hrErr (s : State) (c : Nat) (f : Core → Core) :
    (s.modCore c f).hrErr = s.hrErr := rfl
@[simp] theorem State.modCore_hrFails (s : State) (c : Nat) (f : Core → Core) :
    (s.modCore c f).hrFails = s.hrFails := rfl
@[simp] theorem State.modCore_btb (s : State) (c : Nat) (f : Core → Core) :
    (s.modCore c f).btb = s.btb := rfl
@[simp] theorem State.modCore_flips (s : State) (c : Nat) (f : Core → Core) :
    (s.modCore c f).flips = s.flips := rfl
@[simp] theorem State.modCore_flipOn (s : State) (c : Nat) (f : Core → Core) :
    (s.modCore c f).flipOn = s.flipOn := rfl
@[simp] theorem State.modCore_flipDone (s : State) (c : Nat) (f : Core → Core) :
    (s.modCore c f).flipDone = s.flipDone := rfl
@[simp] theorem State.modCore_flipErr (s : State) (c : Nat) (f : Core → Core) :
    (s.modCore c f).flipErr = s.flipErr := rfl
@[simp] theorem State.modCore_bflip (s : State) (c : Nat) (f : Core → Core) :
    (s.modCore c f).bflip = s.bflip := rfl
@[simp] theorem State.modCore_heldHost (s : State) (c : Nat) (f : Core → Core) :
    (s.modCore c f).heldHost = s.heldHost := rfl
@[simp] theorem State.modCore_heldRegs (s : State) (c : Nat) (f : Core → Core) :
    (s.modCore c f).heldRegs = s.heldRegs := rfl
@[simp] theorem State.modCore_flipAt (s : State) (c : Nat) (f : Core → Core) :
    (s.modCore c f).flipAt = s.flipAt := rfl
@[simp] theorem State.modCore_flipSent (s : State) (c : Nat) (f : Core → Core) :
    (s.modCore c f).flipSent = s.flipSent := rfl
@[simp] theorem State.modCore_biWait (s : State) (c : Nat) (f : Core → Core) :
    (s.modCore c f).biWait = s.biWait := rfl
@[simp] theorem State.modCore_hdm (s : State) (c : Nat) (f : Core → Core) :
    (s.modCore c f).hdm = s.hdm := rfl
@[simp] theorem State.modCore_regReqs (s : State) (c : Nat) (f : Core → Core) :
    (s.modCore c f).regReqs = s.regReqs := rfl
@[simp] theorem State.modCore_out (s : State) (c : Nat) (f : Core → Core) :
    (s.modCore c f).out = s.out := rfl
@[simp] theorem State.modCore_links (s : State) (c : Nat) (f : Core → Core) :
    (s.modCore c f).links = s.links := rfl
@[simp] theorem State.modCore_joins (s : State) (c : Nat) (f : Core → Core) :
    (s.modCore c f).joins = s.joins := rfl
@[simp] theorem State.modCore_inbox (s : State) (c : Nat) (f : Core → Core) :
    (s.modCore c f).inbox = s.inbox := rfl
@[simp] theorem State.modCore_heldMsgs (s : State) (c : Nat) (f : Core → Core) :
    (s.modCore c f).heldMsgs = s.heldMsgs := rfl
@[simp] theorem State.modCore_routes (s : State) (c : Nat) (f : Core → Core) :
    (s.modCore c f).routes = s.routes := rfl
@[simp] theorem State.modCore_sync (s : State) (c : Nat) (f : Core → Core) :
    (s.modCore c f).sync = s.sync := rfl
@[simp] theorem State.modCore_erbase (s : State) (c : Nat) (f : Core → Core) :
    (s.modCore c f).erbase = s.erbase := rfl
@[simp] theorem State.modCore_erhead (s : State) (c : Nat) (f : Core → Core) :
    (s.modCore c f).erhead = s.erhead := rfl
@[simp] theorem State.modCore_ertail (s : State) (c : Nat) (f : Core → Core) :
    (s.modCore c f).ertail = s.ertail := rfl
@[simp] theorem State.modCore_erCorr (s : State) (c : Nat) (f : Core → Core) :
    (s.modCore c f).erCorr = s.erCorr := rfl
@[simp] theorem State.modCore_erLost (s : State) (c : Nat) (f : Core → Core) :
    (s.modCore c f).erLost = s.erLost := rfl
@[simp] theorem State.modCore_tally (s : State) (c : Nat) (f : Core → Core) :
    (s.modCore c f).tally = s.tally := rfl
@[simp] theorem State.modCore_moved (s : State) (c : Nat) (f : Core → Core) :
    (s.modCore c f).moved = s.moved := rfl
@[simp] theorem State.modCore_fresh (s : State) (c : Nat) (f : Core → Core) :
    (s.modCore c f).fresh = s.fresh := rfl
@[simp] theorem State.modCore_mgmt (s : State) (c : Nat) (f : Core → Core) :
    (s.modCore c f).mgmt = s.mgmt := rfl
@[simp] theorem State.modCore_agenda (s : State) (c : Nat) (f : Core → Core) :
    (s.modCore c f).agenda = s.agenda := rfl
@[simp] theorem State.modCore_focus (s : State) (c : Nat) (f : Core → Core) :
    (s.modCore c f).focus = s.focus := rfl
@[simp] theorem State.modCore_need (s : State) (c : Nat) (f : Core → Core) :
    (s.modCore c f).need = s.need := rfl
@[simp] theorem State.modCore_used (s : State) (c : Nat) (f : Core → Core) :
    (s.modCore c f).used = s.used := rfl
@[simp] theorem State.modCore_fetched (s : State) (c : Nat) (f : Core → Core) :
    (s.modCore c f).fetched = s.fetched := rfl
@[simp] theorem State.modCore_free (s : State) (c : Nat) (f : Core → Core) :
    (s.modCore c f).free = s.free := rfl
@[simp] theorem State.modCore_ids (s : State) (c : Nat) (f : Core → Core) :
    (s.modCore c f).ids = s.ids := rfl

/-! ## `State.setWarp` -/

@[simp] theorem State.setWarp_warps (s : State) (w : Nat) (x : Warp) :
    (s.setWarp w x).warps = s.warps.set w x := rfl
@[simp] theorem State.setWarp_groups (s : State) (w : Nat) (x : Warp) :
    (s.setWarp w x).groups = s.groups := rfl
@[simp] theorem State.setWarp_mem (s : State) (w : Nat) (x : Warp) :
    (s.setWarp w x).mem = s.mem := rfl
@[simp] theorem State.setWarp_focus (s : State) (w : Nat) (x : Warp) :
    (s.setWarp w x).focus = s.focus := rfl
@[simp] theorem State.setWarp_lines (s : State) (w : Nat) (x : Warp) :
    (s.setWarp w x).lines = s.lines := rfl
@[simp] theorem State.setWarp_ctxs (s : State) (w : Nat) (x : Warp) :
    (s.setWarp w x).ctxs = s.ctxs := rfl

/-! ## `State.modWarp` -/

@[simp] theorem State.modWarp_warps (s : State) (w : Nat) (f : Warp → Warp) :
    (s.modWarp w f).warps = s.warps.modify w f := rfl
@[simp] theorem State.modWarp_clock (s : State) (w : Nat) (f : Warp → Warp) :
    (s.modWarp w f).clock = s.clock := rfl
@[simp] theorem State.modWarp_time (s : State) (w : Nat) (f : Warp → Warp) :
    (s.modWarp w f).time = s.time := rfl
@[simp] theorem State.modWarp_frac (s : State) (w : Nat) (f : Warp → Warp) :
    (s.modWarp w f).frac = s.frac := rfl
@[simp] theorem State.modWarp_dieOff (s : State) (w : Nat) (f : Warp → Warp) :
    (s.modWarp w f).dieOff = s.dieOff := rfl
@[simp] theorem State.modWarp_blocks (s : State) (w : Nat) (f : Warp → Warp) :
    (s.modWarp w f).blocks = s.blocks := rfl
@[simp] theorem State.modWarp_launches (s : State) (w : Nat) (f : Warp → Warp) :
    (s.modWarp w f).launches = s.launches := rfl
@[simp] theorem State.modWarp_groups (s : State) (w : Nat) (f : Warp → Warp) :
    (s.modWarp w f).groups = s.groups := rfl
@[simp] theorem State.modWarp_cbars (s : State) (w : Nat) (f : Warp → Warp) :
    (s.modWarp w f).cbars = s.cbars := rfl
@[simp] theorem State.modWarp_works (s : State) (w : Nat) (f : Warp → Warp) :
    (s.modWarp w f).works = s.works := rfl
@[simp] theorem State.modWarp_ops (s : State) (w : Nat) (f : Warp → Warp) :
    (s.modWarp w f).ops = s.ops := rfl
@[simp] theorem State.modWarp_remotes (s : State) (w : Nat) (f : Warp → Warp) :
    (s.modWarp w f).remotes = s.remotes := rfl
@[simp] theorem State.modWarp_spills (s : State) (w : Nat) (f : Warp → Warp) :
    (s.modWarp w f).spills = s.spills := rfl
@[simp] theorem State.modWarp_cmds (s : State) (w : Nat) (f : Warp → Warp) :
    (s.modWarp w f).cmds = s.cmds := rfl
@[simp] theorem State.modWarp_mem (s : State) (w : Nat) (f : Warp → Warp) :
    (s.modWarp w f).mem = s.mem := rfl
@[simp] theorem State.modWarp_lines (s : State) (w : Nat) (f : Warp → Warp) :
    (s.modWarp w f).lines = s.lines := rfl
@[simp] theorem State.modWarp_caches (s : State) (w : Nat) (f : Warp → Warp) :
    (s.modWarp w f).caches = s.caches := rfl
@[simp] theorem State.modWarp_slices (s : State) (w : Nat) (f : Warp → Warp) :
    (s.modWarp w f).slices = s.slices := rfl
@[simp] theorem State.modWarp_msgs (s : State) (w : Nat) (f : Warp → Warp) :
    (s.modWarp w f).msgs = s.msgs := rfl
@[simp] theorem State.modWarp_hostReqs (s : State) (w : Nat) (f : Warp → Warp) :
    (s.modWarp w f).hostReqs = s.hostReqs := rfl
@[simp] theorem State.modWarp_weir (s : State) (w : Nat) (f : Warp → Warp) :
    (s.modWarp w f).weir = s.weir := rfl
@[simp] theorem State.modWarp_tlb (s : State) (w : Nat) (f : Warp → Warp) :
    (s.modWarp w f).tlb = s.tlb := rfl
@[simp] theorem State.modWarp_walks (s : State) (w : Nat) (f : Warp → Warp) :
    (s.modWarp w f).walks = s.walks := rfl
@[simp] theorem State.modWarp_shoots (s : State) (w : Nat) (f : Warp → Warp) :
    (s.modWarp w f).shoots = s.shoots := rfl
@[simp] theorem State.modWarp_mons (s : State) (w : Nat) (f : Warp → Warp) :
    (s.modWarp w f).mons = s.mons := rfl
@[simp] theorem State.modWarp_monsAway (s : State) (w : Nat) (f : Warp → Warp) :
    (s.modWarp w f).monsAway = s.monsAway := rfl
@[simp] theorem State.modWarp_rels (s : State) (w : Nat) (f : Warp → Warp) :
    (s.modWarp w f).rels = s.rels := rfl
@[simp] theorem State.modWarp_cores (s : State) (w : Nat) (f : Warp → Warp) :
    (s.modWarp w f).cores = s.cores := rfl
@[simp] theorem State.modWarp_ctxs (s : State) (w : Nat) (f : Warp → Warp) :
    (s.modWarp w f).ctxs = s.ctxs := rfl
@[simp] theorem State.modWarp_parts (s : State) (w : Nat) (f : Warp → Warp) :
    (s.modWarp w f).parts = s.parts := rfl
@[simp] theorem State.modWarp_chip (s : State) (w : Nat) (f : Warp → Warp) :
    (s.modWarp w f).chip = s.chip := rfl
@[simp] theorem State.modWarp_domain (s : State) (w : Nat) (f : Warp → Warp) :
    (s.modWarp w f).domain = s.domain := rfl
@[simp] theorem State.modWarp_hrb (s : State) (w : Nat) (f : Warp → Warp) :
    (s.modWarp w f).hrb = s.hrb := rfl
@[simp] theorem State.modWarp_hrErr (s : State) (w : Nat) (f : Warp → Warp) :
    (s.modWarp w f).hrErr = s.hrErr := rfl
@[simp] theorem State.modWarp_hrFails (s : State) (w : Nat) (f : Warp → Warp) :
    (s.modWarp w f).hrFails = s.hrFails := rfl
@[simp] theorem State.modWarp_btb (s : State) (w : Nat) (f : Warp → Warp) :
    (s.modWarp w f).btb = s.btb := rfl
@[simp] theorem State.modWarp_flips (s : State) (w : Nat) (f : Warp → Warp) :
    (s.modWarp w f).flips = s.flips := rfl
@[simp] theorem State.modWarp_flipOn (s : State) (w : Nat) (f : Warp → Warp) :
    (s.modWarp w f).flipOn = s.flipOn := rfl
@[simp] theorem State.modWarp_flipDone (s : State) (w : Nat) (f : Warp → Warp) :
    (s.modWarp w f).flipDone = s.flipDone := rfl
@[simp] theorem State.modWarp_flipErr (s : State) (w : Nat) (f : Warp → Warp) :
    (s.modWarp w f).flipErr = s.flipErr := rfl
@[simp] theorem State.modWarp_bflip (s : State) (w : Nat) (f : Warp → Warp) :
    (s.modWarp w f).bflip = s.bflip := rfl
@[simp] theorem State.modWarp_heldHost (s : State) (w : Nat) (f : Warp → Warp) :
    (s.modWarp w f).heldHost = s.heldHost := rfl
@[simp] theorem State.modWarp_heldRegs (s : State) (w : Nat) (f : Warp → Warp) :
    (s.modWarp w f).heldRegs = s.heldRegs := rfl
@[simp] theorem State.modWarp_flipAt (s : State) (w : Nat) (f : Warp → Warp) :
    (s.modWarp w f).flipAt = s.flipAt := rfl
@[simp] theorem State.modWarp_flipSent (s : State) (w : Nat) (f : Warp → Warp) :
    (s.modWarp w f).flipSent = s.flipSent := rfl
@[simp] theorem State.modWarp_biWait (s : State) (w : Nat) (f : Warp → Warp) :
    (s.modWarp w f).biWait = s.biWait := rfl
@[simp] theorem State.modWarp_hdm (s : State) (w : Nat) (f : Warp → Warp) :
    (s.modWarp w f).hdm = s.hdm := rfl
@[simp] theorem State.modWarp_regReqs (s : State) (w : Nat) (f : Warp → Warp) :
    (s.modWarp w f).regReqs = s.regReqs := rfl
@[simp] theorem State.modWarp_out (s : State) (w : Nat) (f : Warp → Warp) :
    (s.modWarp w f).out = s.out := rfl
@[simp] theorem State.modWarp_links (s : State) (w : Nat) (f : Warp → Warp) :
    (s.modWarp w f).links = s.links := rfl
@[simp] theorem State.modWarp_joins (s : State) (w : Nat) (f : Warp → Warp) :
    (s.modWarp w f).joins = s.joins := rfl
@[simp] theorem State.modWarp_inbox (s : State) (w : Nat) (f : Warp → Warp) :
    (s.modWarp w f).inbox = s.inbox := rfl
@[simp] theorem State.modWarp_heldMsgs (s : State) (w : Nat) (f : Warp → Warp) :
    (s.modWarp w f).heldMsgs = s.heldMsgs := rfl
@[simp] theorem State.modWarp_routes (s : State) (w : Nat) (f : Warp → Warp) :
    (s.modWarp w f).routes = s.routes := rfl
@[simp] theorem State.modWarp_sync (s : State) (w : Nat) (f : Warp → Warp) :
    (s.modWarp w f).sync = s.sync := rfl
@[simp] theorem State.modWarp_erbase (s : State) (w : Nat) (f : Warp → Warp) :
    (s.modWarp w f).erbase = s.erbase := rfl
@[simp] theorem State.modWarp_erhead (s : State) (w : Nat) (f : Warp → Warp) :
    (s.modWarp w f).erhead = s.erhead := rfl
@[simp] theorem State.modWarp_ertail (s : State) (w : Nat) (f : Warp → Warp) :
    (s.modWarp w f).ertail = s.ertail := rfl
@[simp] theorem State.modWarp_erCorr (s : State) (w : Nat) (f : Warp → Warp) :
    (s.modWarp w f).erCorr = s.erCorr := rfl
@[simp] theorem State.modWarp_erLost (s : State) (w : Nat) (f : Warp → Warp) :
    (s.modWarp w f).erLost = s.erLost := rfl
@[simp] theorem State.modWarp_tally (s : State) (w : Nat) (f : Warp → Warp) :
    (s.modWarp w f).tally = s.tally := rfl
@[simp] theorem State.modWarp_moved (s : State) (w : Nat) (f : Warp → Warp) :
    (s.modWarp w f).moved = s.moved := rfl
@[simp] theorem State.modWarp_fresh (s : State) (w : Nat) (f : Warp → Warp) :
    (s.modWarp w f).fresh = s.fresh := rfl
@[simp] theorem State.modWarp_mgmt (s : State) (w : Nat) (f : Warp → Warp) :
    (s.modWarp w f).mgmt = s.mgmt := rfl
@[simp] theorem State.modWarp_agenda (s : State) (w : Nat) (f : Warp → Warp) :
    (s.modWarp w f).agenda = s.agenda := rfl
@[simp] theorem State.modWarp_focus (s : State) (w : Nat) (f : Warp → Warp) :
    (s.modWarp w f).focus = s.focus := rfl
@[simp] theorem State.modWarp_need (s : State) (w : Nat) (f : Warp → Warp) :
    (s.modWarp w f).need = s.need := rfl
@[simp] theorem State.modWarp_used (s : State) (w : Nat) (f : Warp → Warp) :
    (s.modWarp w f).used = s.used := rfl
@[simp] theorem State.modWarp_fetched (s : State) (w : Nat) (f : Warp → Warp) :
    (s.modWarp w f).fetched = s.fetched := rfl
@[simp] theorem State.modWarp_free (s : State) (w : Nat) (f : Warp → Warp) :
    (s.modWarp w f).free = s.free := rfl
@[simp] theorem State.modWarp_ids (s : State) (w : Nat) (f : Warp → Warp) :
    (s.modWarp w f).ids = s.ids := rfl

/-! ## `State.modLane` -/

@[simp] theorem State.modLane_warps (s : State) (w l : Nat) (f : Lane → Lane) :
    (s.modLane w l f).warps = s.warps.modify w fun W => W.modLane l f := rfl
@[simp] theorem State.modLane_clock (s : State) (w l : Nat) (f : Lane → Lane) :
    (s.modLane w l f).clock = s.clock := rfl
@[simp] theorem State.modLane_time (s : State) (w l : Nat) (f : Lane → Lane) :
    (s.modLane w l f).time = s.time := rfl
@[simp] theorem State.modLane_frac (s : State) (w l : Nat) (f : Lane → Lane) :
    (s.modLane w l f).frac = s.frac := rfl
@[simp] theorem State.modLane_dieOff (s : State) (w l : Nat) (f : Lane → Lane) :
    (s.modLane w l f).dieOff = s.dieOff := rfl
@[simp] theorem State.modLane_blocks (s : State) (w l : Nat) (f : Lane → Lane) :
    (s.modLane w l f).blocks = s.blocks := rfl
@[simp] theorem State.modLane_launches (s : State) (w l : Nat) (f : Lane → Lane) :
    (s.modLane w l f).launches = s.launches := rfl
@[simp] theorem State.modLane_groups (s : State) (w l : Nat) (f : Lane → Lane) :
    (s.modLane w l f).groups = s.groups := rfl
@[simp] theorem State.modLane_cbars (s : State) (w l : Nat) (f : Lane → Lane) :
    (s.modLane w l f).cbars = s.cbars := rfl
@[simp] theorem State.modLane_works (s : State) (w l : Nat) (f : Lane → Lane) :
    (s.modLane w l f).works = s.works := rfl
@[simp] theorem State.modLane_ops (s : State) (w l : Nat) (f : Lane → Lane) :
    (s.modLane w l f).ops = s.ops := rfl
@[simp] theorem State.modLane_remotes (s : State) (w l : Nat) (f : Lane → Lane) :
    (s.modLane w l f).remotes = s.remotes := rfl
@[simp] theorem State.modLane_spills (s : State) (w l : Nat) (f : Lane → Lane) :
    (s.modLane w l f).spills = s.spills := rfl
@[simp] theorem State.modLane_cmds (s : State) (w l : Nat) (f : Lane → Lane) :
    (s.modLane w l f).cmds = s.cmds := rfl
@[simp] theorem State.modLane_mem (s : State) (w l : Nat) (f : Lane → Lane) :
    (s.modLane w l f).mem = s.mem := rfl
@[simp] theorem State.modLane_lines (s : State) (w l : Nat) (f : Lane → Lane) :
    (s.modLane w l f).lines = s.lines := rfl
@[simp] theorem State.modLane_caches (s : State) (w l : Nat) (f : Lane → Lane) :
    (s.modLane w l f).caches = s.caches := rfl
@[simp] theorem State.modLane_slices (s : State) (w l : Nat) (f : Lane → Lane) :
    (s.modLane w l f).slices = s.slices := rfl
@[simp] theorem State.modLane_msgs (s : State) (w l : Nat) (f : Lane → Lane) :
    (s.modLane w l f).msgs = s.msgs := rfl
@[simp] theorem State.modLane_hostReqs (s : State) (w l : Nat) (f : Lane → Lane) :
    (s.modLane w l f).hostReqs = s.hostReqs := rfl
@[simp] theorem State.modLane_weir (s : State) (w l : Nat) (f : Lane → Lane) :
    (s.modLane w l f).weir = s.weir := rfl
@[simp] theorem State.modLane_tlb (s : State) (w l : Nat) (f : Lane → Lane) :
    (s.modLane w l f).tlb = s.tlb := rfl
@[simp] theorem State.modLane_walks (s : State) (w l : Nat) (f : Lane → Lane) :
    (s.modLane w l f).walks = s.walks := rfl
@[simp] theorem State.modLane_shoots (s : State) (w l : Nat) (f : Lane → Lane) :
    (s.modLane w l f).shoots = s.shoots := rfl
@[simp] theorem State.modLane_mons (s : State) (w l : Nat) (f : Lane → Lane) :
    (s.modLane w l f).mons = s.mons := rfl
@[simp] theorem State.modLane_monsAway (s : State) (w l : Nat) (f : Lane → Lane) :
    (s.modLane w l f).monsAway = s.monsAway := rfl
@[simp] theorem State.modLane_rels (s : State) (w l : Nat) (f : Lane → Lane) :
    (s.modLane w l f).rels = s.rels := rfl
@[simp] theorem State.modLane_cores (s : State) (w l : Nat) (f : Lane → Lane) :
    (s.modLane w l f).cores = s.cores := rfl
@[simp] theorem State.modLane_ctxs (s : State) (w l : Nat) (f : Lane → Lane) :
    (s.modLane w l f).ctxs = s.ctxs := rfl
@[simp] theorem State.modLane_parts (s : State) (w l : Nat) (f : Lane → Lane) :
    (s.modLane w l f).parts = s.parts := rfl
@[simp] theorem State.modLane_chip (s : State) (w l : Nat) (f : Lane → Lane) :
    (s.modLane w l f).chip = s.chip := rfl
@[simp] theorem State.modLane_domain (s : State) (w l : Nat) (f : Lane → Lane) :
    (s.modLane w l f).domain = s.domain := rfl
@[simp] theorem State.modLane_hrb (s : State) (w l : Nat) (f : Lane → Lane) :
    (s.modLane w l f).hrb = s.hrb := rfl
@[simp] theorem State.modLane_hrErr (s : State) (w l : Nat) (f : Lane → Lane) :
    (s.modLane w l f).hrErr = s.hrErr := rfl
@[simp] theorem State.modLane_hrFails (s : State) (w l : Nat) (f : Lane → Lane) :
    (s.modLane w l f).hrFails = s.hrFails := rfl
@[simp] theorem State.modLane_btb (s : State) (w l : Nat) (f : Lane → Lane) :
    (s.modLane w l f).btb = s.btb := rfl
@[simp] theorem State.modLane_flips (s : State) (w l : Nat) (f : Lane → Lane) :
    (s.modLane w l f).flips = s.flips := rfl
@[simp] theorem State.modLane_flipOn (s : State) (w l : Nat) (f : Lane → Lane) :
    (s.modLane w l f).flipOn = s.flipOn := rfl
@[simp] theorem State.modLane_flipDone (s : State) (w l : Nat) (f : Lane → Lane) :
    (s.modLane w l f).flipDone = s.flipDone := rfl
@[simp] theorem State.modLane_flipErr (s : State) (w l : Nat) (f : Lane → Lane) :
    (s.modLane w l f).flipErr = s.flipErr := rfl
@[simp] theorem State.modLane_bflip (s : State) (w l : Nat) (f : Lane → Lane) :
    (s.modLane w l f).bflip = s.bflip := rfl
@[simp] theorem State.modLane_heldHost (s : State) (w l : Nat) (f : Lane → Lane) :
    (s.modLane w l f).heldHost = s.heldHost := rfl
@[simp] theorem State.modLane_heldRegs (s : State) (w l : Nat) (f : Lane → Lane) :
    (s.modLane w l f).heldRegs = s.heldRegs := rfl
@[simp] theorem State.modLane_flipAt (s : State) (w l : Nat) (f : Lane → Lane) :
    (s.modLane w l f).flipAt = s.flipAt := rfl
@[simp] theorem State.modLane_flipSent (s : State) (w l : Nat) (f : Lane → Lane) :
    (s.modLane w l f).flipSent = s.flipSent := rfl
@[simp] theorem State.modLane_biWait (s : State) (w l : Nat) (f : Lane → Lane) :
    (s.modLane w l f).biWait = s.biWait := rfl
@[simp] theorem State.modLane_hdm (s : State) (w l : Nat) (f : Lane → Lane) :
    (s.modLane w l f).hdm = s.hdm := rfl
@[simp] theorem State.modLane_regReqs (s : State) (w l : Nat) (f : Lane → Lane) :
    (s.modLane w l f).regReqs = s.regReqs := rfl
@[simp] theorem State.modLane_out (s : State) (w l : Nat) (f : Lane → Lane) :
    (s.modLane w l f).out = s.out := rfl
@[simp] theorem State.modLane_links (s : State) (w l : Nat) (f : Lane → Lane) :
    (s.modLane w l f).links = s.links := rfl
@[simp] theorem State.modLane_joins (s : State) (w l : Nat) (f : Lane → Lane) :
    (s.modLane w l f).joins = s.joins := rfl
@[simp] theorem State.modLane_inbox (s : State) (w l : Nat) (f : Lane → Lane) :
    (s.modLane w l f).inbox = s.inbox := rfl
@[simp] theorem State.modLane_heldMsgs (s : State) (w l : Nat) (f : Lane → Lane) :
    (s.modLane w l f).heldMsgs = s.heldMsgs := rfl
@[simp] theorem State.modLane_routes (s : State) (w l : Nat) (f : Lane → Lane) :
    (s.modLane w l f).routes = s.routes := rfl
@[simp] theorem State.modLane_sync (s : State) (w l : Nat) (f : Lane → Lane) :
    (s.modLane w l f).sync = s.sync := rfl
@[simp] theorem State.modLane_erbase (s : State) (w l : Nat) (f : Lane → Lane) :
    (s.modLane w l f).erbase = s.erbase := rfl
@[simp] theorem State.modLane_erhead (s : State) (w l : Nat) (f : Lane → Lane) :
    (s.modLane w l f).erhead = s.erhead := rfl
@[simp] theorem State.modLane_ertail (s : State) (w l : Nat) (f : Lane → Lane) :
    (s.modLane w l f).ertail = s.ertail := rfl
@[simp] theorem State.modLane_erCorr (s : State) (w l : Nat) (f : Lane → Lane) :
    (s.modLane w l f).erCorr = s.erCorr := rfl
@[simp] theorem State.modLane_erLost (s : State) (w l : Nat) (f : Lane → Lane) :
    (s.modLane w l f).erLost = s.erLost := rfl
@[simp] theorem State.modLane_tally (s : State) (w l : Nat) (f : Lane → Lane) :
    (s.modLane w l f).tally = s.tally := rfl
@[simp] theorem State.modLane_moved (s : State) (w l : Nat) (f : Lane → Lane) :
    (s.modLane w l f).moved = s.moved := rfl
@[simp] theorem State.modLane_fresh (s : State) (w l : Nat) (f : Lane → Lane) :
    (s.modLane w l f).fresh = s.fresh := rfl
@[simp] theorem State.modLane_mgmt (s : State) (w l : Nat) (f : Lane → Lane) :
    (s.modLane w l f).mgmt = s.mgmt := rfl
@[simp] theorem State.modLane_agenda (s : State) (w l : Nat) (f : Lane → Lane) :
    (s.modLane w l f).agenda = s.agenda := rfl
@[simp] theorem State.modLane_focus (s : State) (w l : Nat) (f : Lane → Lane) :
    (s.modLane w l f).focus = s.focus := rfl
@[simp] theorem State.modLane_need (s : State) (w l : Nat) (f : Lane → Lane) :
    (s.modLane w l f).need = s.need := rfl
@[simp] theorem State.modLane_used (s : State) (w l : Nat) (f : Lane → Lane) :
    (s.modLane w l f).used = s.used := rfl
@[simp] theorem State.modLane_fetched (s : State) (w l : Nat) (f : Lane → Lane) :
    (s.modLane w l f).fetched = s.fetched := rfl
@[simp] theorem State.modLane_free (s : State) (w l : Nat) (f : Lane → Lane) :
    (s.modLane w l f).free = s.free := rfl
@[simp] theorem State.modLane_ids (s : State) (w l : Nat) (f : Lane → Lane) :
    (s.modLane w l f).ids = s.ids := rfl

/-! ## `State.setBlock` -/

@[simp] theorem State.setBlock_blocks (s : State) (b : Nat) (x : Block) :
    (s.setBlock b x).blocks = s.blocks.set b x := rfl
@[simp] theorem State.setBlock_warps (s : State) (b : Nat) (x : Block) :
    (s.setBlock b x).warps = s.warps := rfl
@[simp] theorem State.setBlock_groups (s : State) (b : Nat) (x : Block) :
    (s.setBlock b x).groups = s.groups := rfl
@[simp] theorem State.setBlock_mem (s : State) (b : Nat) (x : Block) :
    (s.setBlock b x).mem = s.mem := rfl
@[simp] theorem State.setBlock_focus (s : State) (b : Nat) (x : Block) :
    (s.setBlock b x).focus = s.focus := rfl
@[simp] theorem State.setBlock_lines (s : State) (b : Nat) (x : Block) :
    (s.setBlock b x).lines = s.lines := rfl
@[simp] theorem State.setBlock_ctxs (s : State) (b : Nat) (x : Block) :
    (s.setBlock b x).ctxs = s.ctxs := rfl

/-! ## `State.modBlock` -/

@[simp] theorem State.modBlock_blocks (s : State) (b : Nat) (f : Block → Block) :
    (s.modBlock b f).blocks = s.blocks.modify b f := rfl
@[simp] theorem State.modBlock_clock (s : State) (b : Nat) (f : Block → Block) :
    (s.modBlock b f).clock = s.clock := rfl
@[simp] theorem State.modBlock_time (s : State) (b : Nat) (f : Block → Block) :
    (s.modBlock b f).time = s.time := rfl
@[simp] theorem State.modBlock_frac (s : State) (b : Nat) (f : Block → Block) :
    (s.modBlock b f).frac = s.frac := rfl
@[simp] theorem State.modBlock_dieOff (s : State) (b : Nat) (f : Block → Block) :
    (s.modBlock b f).dieOff = s.dieOff := rfl
@[simp] theorem State.modBlock_warps (s : State) (b : Nat) (f : Block → Block) :
    (s.modBlock b f).warps = s.warps := rfl
@[simp] theorem State.modBlock_launches (s : State) (b : Nat) (f : Block → Block) :
    (s.modBlock b f).launches = s.launches := rfl
@[simp] theorem State.modBlock_groups (s : State) (b : Nat) (f : Block → Block) :
    (s.modBlock b f).groups = s.groups := rfl
@[simp] theorem State.modBlock_cbars (s : State) (b : Nat) (f : Block → Block) :
    (s.modBlock b f).cbars = s.cbars := rfl
@[simp] theorem State.modBlock_works (s : State) (b : Nat) (f : Block → Block) :
    (s.modBlock b f).works = s.works := rfl
@[simp] theorem State.modBlock_ops (s : State) (b : Nat) (f : Block → Block) :
    (s.modBlock b f).ops = s.ops := rfl
@[simp] theorem State.modBlock_remotes (s : State) (b : Nat) (f : Block → Block) :
    (s.modBlock b f).remotes = s.remotes := rfl
@[simp] theorem State.modBlock_spills (s : State) (b : Nat) (f : Block → Block) :
    (s.modBlock b f).spills = s.spills := rfl
@[simp] theorem State.modBlock_cmds (s : State) (b : Nat) (f : Block → Block) :
    (s.modBlock b f).cmds = s.cmds := rfl
@[simp] theorem State.modBlock_mem (s : State) (b : Nat) (f : Block → Block) :
    (s.modBlock b f).mem = s.mem := rfl
@[simp] theorem State.modBlock_lines (s : State) (b : Nat) (f : Block → Block) :
    (s.modBlock b f).lines = s.lines := rfl
@[simp] theorem State.modBlock_caches (s : State) (b : Nat) (f : Block → Block) :
    (s.modBlock b f).caches = s.caches := rfl
@[simp] theorem State.modBlock_slices (s : State) (b : Nat) (f : Block → Block) :
    (s.modBlock b f).slices = s.slices := rfl
@[simp] theorem State.modBlock_msgs (s : State) (b : Nat) (f : Block → Block) :
    (s.modBlock b f).msgs = s.msgs := rfl
@[simp] theorem State.modBlock_hostReqs (s : State) (b : Nat) (f : Block → Block) :
    (s.modBlock b f).hostReqs = s.hostReqs := rfl
@[simp] theorem State.modBlock_weir (s : State) (b : Nat) (f : Block → Block) :
    (s.modBlock b f).weir = s.weir := rfl
@[simp] theorem State.modBlock_tlb (s : State) (b : Nat) (f : Block → Block) :
    (s.modBlock b f).tlb = s.tlb := rfl
@[simp] theorem State.modBlock_walks (s : State) (b : Nat) (f : Block → Block) :
    (s.modBlock b f).walks = s.walks := rfl
@[simp] theorem State.modBlock_shoots (s : State) (b : Nat) (f : Block → Block) :
    (s.modBlock b f).shoots = s.shoots := rfl
@[simp] theorem State.modBlock_mons (s : State) (b : Nat) (f : Block → Block) :
    (s.modBlock b f).mons = s.mons := rfl
@[simp] theorem State.modBlock_monsAway (s : State) (b : Nat) (f : Block → Block) :
    (s.modBlock b f).monsAway = s.monsAway := rfl
@[simp] theorem State.modBlock_rels (s : State) (b : Nat) (f : Block → Block) :
    (s.modBlock b f).rels = s.rels := rfl
@[simp] theorem State.modBlock_cores (s : State) (b : Nat) (f : Block → Block) :
    (s.modBlock b f).cores = s.cores := rfl
@[simp] theorem State.modBlock_ctxs (s : State) (b : Nat) (f : Block → Block) :
    (s.modBlock b f).ctxs = s.ctxs := rfl
@[simp] theorem State.modBlock_parts (s : State) (b : Nat) (f : Block → Block) :
    (s.modBlock b f).parts = s.parts := rfl
@[simp] theorem State.modBlock_chip (s : State) (b : Nat) (f : Block → Block) :
    (s.modBlock b f).chip = s.chip := rfl
@[simp] theorem State.modBlock_domain (s : State) (b : Nat) (f : Block → Block) :
    (s.modBlock b f).domain = s.domain := rfl
@[simp] theorem State.modBlock_hrb (s : State) (b : Nat) (f : Block → Block) :
    (s.modBlock b f).hrb = s.hrb := rfl
@[simp] theorem State.modBlock_hrErr (s : State) (b : Nat) (f : Block → Block) :
    (s.modBlock b f).hrErr = s.hrErr := rfl
@[simp] theorem State.modBlock_hrFails (s : State) (b : Nat) (f : Block → Block) :
    (s.modBlock b f).hrFails = s.hrFails := rfl
@[simp] theorem State.modBlock_btb (s : State) (b : Nat) (f : Block → Block) :
    (s.modBlock b f).btb = s.btb := rfl
@[simp] theorem State.modBlock_flips (s : State) (b : Nat) (f : Block → Block) :
    (s.modBlock b f).flips = s.flips := rfl
@[simp] theorem State.modBlock_flipOn (s : State) (b : Nat) (f : Block → Block) :
    (s.modBlock b f).flipOn = s.flipOn := rfl
@[simp] theorem State.modBlock_flipDone (s : State) (b : Nat) (f : Block → Block) :
    (s.modBlock b f).flipDone = s.flipDone := rfl
@[simp] theorem State.modBlock_flipErr (s : State) (b : Nat) (f : Block → Block) :
    (s.modBlock b f).flipErr = s.flipErr := rfl
@[simp] theorem State.modBlock_bflip (s : State) (b : Nat) (f : Block → Block) :
    (s.modBlock b f).bflip = s.bflip := rfl
@[simp] theorem State.modBlock_heldHost (s : State) (b : Nat) (f : Block → Block) :
    (s.modBlock b f).heldHost = s.heldHost := rfl
@[simp] theorem State.modBlock_heldRegs (s : State) (b : Nat) (f : Block → Block) :
    (s.modBlock b f).heldRegs = s.heldRegs := rfl
@[simp] theorem State.modBlock_flipAt (s : State) (b : Nat) (f : Block → Block) :
    (s.modBlock b f).flipAt = s.flipAt := rfl
@[simp] theorem State.modBlock_flipSent (s : State) (b : Nat) (f : Block → Block) :
    (s.modBlock b f).flipSent = s.flipSent := rfl
@[simp] theorem State.modBlock_biWait (s : State) (b : Nat) (f : Block → Block) :
    (s.modBlock b f).biWait = s.biWait := rfl
@[simp] theorem State.modBlock_hdm (s : State) (b : Nat) (f : Block → Block) :
    (s.modBlock b f).hdm = s.hdm := rfl
@[simp] theorem State.modBlock_regReqs (s : State) (b : Nat) (f : Block → Block) :
    (s.modBlock b f).regReqs = s.regReqs := rfl
@[simp] theorem State.modBlock_out (s : State) (b : Nat) (f : Block → Block) :
    (s.modBlock b f).out = s.out := rfl
@[simp] theorem State.modBlock_links (s : State) (b : Nat) (f : Block → Block) :
    (s.modBlock b f).links = s.links := rfl
@[simp] theorem State.modBlock_joins (s : State) (b : Nat) (f : Block → Block) :
    (s.modBlock b f).joins = s.joins := rfl
@[simp] theorem State.modBlock_inbox (s : State) (b : Nat) (f : Block → Block) :
    (s.modBlock b f).inbox = s.inbox := rfl
@[simp] theorem State.modBlock_heldMsgs (s : State) (b : Nat) (f : Block → Block) :
    (s.modBlock b f).heldMsgs = s.heldMsgs := rfl
@[simp] theorem State.modBlock_routes (s : State) (b : Nat) (f : Block → Block) :
    (s.modBlock b f).routes = s.routes := rfl
@[simp] theorem State.modBlock_sync (s : State) (b : Nat) (f : Block → Block) :
    (s.modBlock b f).sync = s.sync := rfl
@[simp] theorem State.modBlock_erbase (s : State) (b : Nat) (f : Block → Block) :
    (s.modBlock b f).erbase = s.erbase := rfl
@[simp] theorem State.modBlock_erhead (s : State) (b : Nat) (f : Block → Block) :
    (s.modBlock b f).erhead = s.erhead := rfl
@[simp] theorem State.modBlock_ertail (s : State) (b : Nat) (f : Block → Block) :
    (s.modBlock b f).ertail = s.ertail := rfl
@[simp] theorem State.modBlock_erCorr (s : State) (b : Nat) (f : Block → Block) :
    (s.modBlock b f).erCorr = s.erCorr := rfl
@[simp] theorem State.modBlock_erLost (s : State) (b : Nat) (f : Block → Block) :
    (s.modBlock b f).erLost = s.erLost := rfl
@[simp] theorem State.modBlock_tally (s : State) (b : Nat) (f : Block → Block) :
    (s.modBlock b f).tally = s.tally := rfl
@[simp] theorem State.modBlock_moved (s : State) (b : Nat) (f : Block → Block) :
    (s.modBlock b f).moved = s.moved := rfl
@[simp] theorem State.modBlock_fresh (s : State) (b : Nat) (f : Block → Block) :
    (s.modBlock b f).fresh = s.fresh := rfl
@[simp] theorem State.modBlock_mgmt (s : State) (b : Nat) (f : Block → Block) :
    (s.modBlock b f).mgmt = s.mgmt := rfl
@[simp] theorem State.modBlock_agenda (s : State) (b : Nat) (f : Block → Block) :
    (s.modBlock b f).agenda = s.agenda := rfl
@[simp] theorem State.modBlock_focus (s : State) (b : Nat) (f : Block → Block) :
    (s.modBlock b f).focus = s.focus := rfl
@[simp] theorem State.modBlock_need (s : State) (b : Nat) (f : Block → Block) :
    (s.modBlock b f).need = s.need := rfl
@[simp] theorem State.modBlock_used (s : State) (b : Nat) (f : Block → Block) :
    (s.modBlock b f).used = s.used := rfl
@[simp] theorem State.modBlock_fetched (s : State) (b : Nat) (f : Block → Block) :
    (s.modBlock b f).fetched = s.fetched := rfl
@[simp] theorem State.modBlock_free (s : State) (b : Nat) (f : Block → Block) :
    (s.modBlock b f).free = s.free := rfl
@[simp] theorem State.modBlock_ids (s : State) (b : Nat) (f : Block → Block) :
    (s.modBlock b f).ids = s.ids := rfl

/-! ## `State.modGroup` -/

@[simp] theorem State.modGroup_groups (s : State) (g : Nat) (f : Group → Group) :
    (s.modGroup g f).groups = s.groups.modify g f := rfl
@[simp] theorem State.modGroup_clock (s : State) (g : Nat) (f : Group → Group) :
    (s.modGroup g f).clock = s.clock := rfl
@[simp] theorem State.modGroup_time (s : State) (g : Nat) (f : Group → Group) :
    (s.modGroup g f).time = s.time := rfl
@[simp] theorem State.modGroup_frac (s : State) (g : Nat) (f : Group → Group) :
    (s.modGroup g f).frac = s.frac := rfl
@[simp] theorem State.modGroup_dieOff (s : State) (g : Nat) (f : Group → Group) :
    (s.modGroup g f).dieOff = s.dieOff := rfl
@[simp] theorem State.modGroup_warps (s : State) (g : Nat) (f : Group → Group) :
    (s.modGroup g f).warps = s.warps := rfl
@[simp] theorem State.modGroup_blocks (s : State) (g : Nat) (f : Group → Group) :
    (s.modGroup g f).blocks = s.blocks := rfl
@[simp] theorem State.modGroup_launches (s : State) (g : Nat) (f : Group → Group) :
    (s.modGroup g f).launches = s.launches := rfl
@[simp] theorem State.modGroup_cbars (s : State) (g : Nat) (f : Group → Group) :
    (s.modGroup g f).cbars = s.cbars := rfl
@[simp] theorem State.modGroup_works (s : State) (g : Nat) (f : Group → Group) :
    (s.modGroup g f).works = s.works := rfl
@[simp] theorem State.modGroup_ops (s : State) (g : Nat) (f : Group → Group) :
    (s.modGroup g f).ops = s.ops := rfl
@[simp] theorem State.modGroup_remotes (s : State) (g : Nat) (f : Group → Group) :
    (s.modGroup g f).remotes = s.remotes := rfl
@[simp] theorem State.modGroup_spills (s : State) (g : Nat) (f : Group → Group) :
    (s.modGroup g f).spills = s.spills := rfl
@[simp] theorem State.modGroup_cmds (s : State) (g : Nat) (f : Group → Group) :
    (s.modGroup g f).cmds = s.cmds := rfl
@[simp] theorem State.modGroup_mem (s : State) (g : Nat) (f : Group → Group) :
    (s.modGroup g f).mem = s.mem := rfl
@[simp] theorem State.modGroup_lines (s : State) (g : Nat) (f : Group → Group) :
    (s.modGroup g f).lines = s.lines := rfl
@[simp] theorem State.modGroup_caches (s : State) (g : Nat) (f : Group → Group) :
    (s.modGroup g f).caches = s.caches := rfl
@[simp] theorem State.modGroup_slices (s : State) (g : Nat) (f : Group → Group) :
    (s.modGroup g f).slices = s.slices := rfl
@[simp] theorem State.modGroup_msgs (s : State) (g : Nat) (f : Group → Group) :
    (s.modGroup g f).msgs = s.msgs := rfl
@[simp] theorem State.modGroup_hostReqs (s : State) (g : Nat) (f : Group → Group) :
    (s.modGroup g f).hostReqs = s.hostReqs := rfl
@[simp] theorem State.modGroup_weir (s : State) (g : Nat) (f : Group → Group) :
    (s.modGroup g f).weir = s.weir := rfl
@[simp] theorem State.modGroup_tlb (s : State) (g : Nat) (f : Group → Group) :
    (s.modGroup g f).tlb = s.tlb := rfl
@[simp] theorem State.modGroup_walks (s : State) (g : Nat) (f : Group → Group) :
    (s.modGroup g f).walks = s.walks := rfl
@[simp] theorem State.modGroup_shoots (s : State) (g : Nat) (f : Group → Group) :
    (s.modGroup g f).shoots = s.shoots := rfl
@[simp] theorem State.modGroup_mons (s : State) (g : Nat) (f : Group → Group) :
    (s.modGroup g f).mons = s.mons := rfl
@[simp] theorem State.modGroup_monsAway (s : State) (g : Nat) (f : Group → Group) :
    (s.modGroup g f).monsAway = s.monsAway := rfl
@[simp] theorem State.modGroup_rels (s : State) (g : Nat) (f : Group → Group) :
    (s.modGroup g f).rels = s.rels := rfl
@[simp] theorem State.modGroup_cores (s : State) (g : Nat) (f : Group → Group) :
    (s.modGroup g f).cores = s.cores := rfl
@[simp] theorem State.modGroup_ctxs (s : State) (g : Nat) (f : Group → Group) :
    (s.modGroup g f).ctxs = s.ctxs := rfl
@[simp] theorem State.modGroup_parts (s : State) (g : Nat) (f : Group → Group) :
    (s.modGroup g f).parts = s.parts := rfl
@[simp] theorem State.modGroup_chip (s : State) (g : Nat) (f : Group → Group) :
    (s.modGroup g f).chip = s.chip := rfl
@[simp] theorem State.modGroup_domain (s : State) (g : Nat) (f : Group → Group) :
    (s.modGroup g f).domain = s.domain := rfl
@[simp] theorem State.modGroup_hrb (s : State) (g : Nat) (f : Group → Group) :
    (s.modGroup g f).hrb = s.hrb := rfl
@[simp] theorem State.modGroup_hrErr (s : State) (g : Nat) (f : Group → Group) :
    (s.modGroup g f).hrErr = s.hrErr := rfl
@[simp] theorem State.modGroup_hrFails (s : State) (g : Nat) (f : Group → Group) :
    (s.modGroup g f).hrFails = s.hrFails := rfl
@[simp] theorem State.modGroup_btb (s : State) (g : Nat) (f : Group → Group) :
    (s.modGroup g f).btb = s.btb := rfl
@[simp] theorem State.modGroup_flips (s : State) (g : Nat) (f : Group → Group) :
    (s.modGroup g f).flips = s.flips := rfl
@[simp] theorem State.modGroup_flipOn (s : State) (g : Nat) (f : Group → Group) :
    (s.modGroup g f).flipOn = s.flipOn := rfl
@[simp] theorem State.modGroup_flipDone (s : State) (g : Nat) (f : Group → Group) :
    (s.modGroup g f).flipDone = s.flipDone := rfl
@[simp] theorem State.modGroup_flipErr (s : State) (g : Nat) (f : Group → Group) :
    (s.modGroup g f).flipErr = s.flipErr := rfl
@[simp] theorem State.modGroup_bflip (s : State) (g : Nat) (f : Group → Group) :
    (s.modGroup g f).bflip = s.bflip := rfl
@[simp] theorem State.modGroup_heldHost (s : State) (g : Nat) (f : Group → Group) :
    (s.modGroup g f).heldHost = s.heldHost := rfl
@[simp] theorem State.modGroup_heldRegs (s : State) (g : Nat) (f : Group → Group) :
    (s.modGroup g f).heldRegs = s.heldRegs := rfl
@[simp] theorem State.modGroup_flipAt (s : State) (g : Nat) (f : Group → Group) :
    (s.modGroup g f).flipAt = s.flipAt := rfl
@[simp] theorem State.modGroup_flipSent (s : State) (g : Nat) (f : Group → Group) :
    (s.modGroup g f).flipSent = s.flipSent := rfl
@[simp] theorem State.modGroup_biWait (s : State) (g : Nat) (f : Group → Group) :
    (s.modGroup g f).biWait = s.biWait := rfl
@[simp] theorem State.modGroup_hdm (s : State) (g : Nat) (f : Group → Group) :
    (s.modGroup g f).hdm = s.hdm := rfl
@[simp] theorem State.modGroup_regReqs (s : State) (g : Nat) (f : Group → Group) :
    (s.modGroup g f).regReqs = s.regReqs := rfl
@[simp] theorem State.modGroup_out (s : State) (g : Nat) (f : Group → Group) :
    (s.modGroup g f).out = s.out := rfl
@[simp] theorem State.modGroup_links (s : State) (g : Nat) (f : Group → Group) :
    (s.modGroup g f).links = s.links := rfl
@[simp] theorem State.modGroup_joins (s : State) (g : Nat) (f : Group → Group) :
    (s.modGroup g f).joins = s.joins := rfl
@[simp] theorem State.modGroup_inbox (s : State) (g : Nat) (f : Group → Group) :
    (s.modGroup g f).inbox = s.inbox := rfl
@[simp] theorem State.modGroup_heldMsgs (s : State) (g : Nat) (f : Group → Group) :
    (s.modGroup g f).heldMsgs = s.heldMsgs := rfl
@[simp] theorem State.modGroup_routes (s : State) (g : Nat) (f : Group → Group) :
    (s.modGroup g f).routes = s.routes := rfl
@[simp] theorem State.modGroup_sync (s : State) (g : Nat) (f : Group → Group) :
    (s.modGroup g f).sync = s.sync := rfl
@[simp] theorem State.modGroup_erbase (s : State) (g : Nat) (f : Group → Group) :
    (s.modGroup g f).erbase = s.erbase := rfl
@[simp] theorem State.modGroup_erhead (s : State) (g : Nat) (f : Group → Group) :
    (s.modGroup g f).erhead = s.erhead := rfl
@[simp] theorem State.modGroup_ertail (s : State) (g : Nat) (f : Group → Group) :
    (s.modGroup g f).ertail = s.ertail := rfl
@[simp] theorem State.modGroup_erCorr (s : State) (g : Nat) (f : Group → Group) :
    (s.modGroup g f).erCorr = s.erCorr := rfl
@[simp] theorem State.modGroup_erLost (s : State) (g : Nat) (f : Group → Group) :
    (s.modGroup g f).erLost = s.erLost := rfl
@[simp] theorem State.modGroup_tally (s : State) (g : Nat) (f : Group → Group) :
    (s.modGroup g f).tally = s.tally := rfl
@[simp] theorem State.modGroup_moved (s : State) (g : Nat) (f : Group → Group) :
    (s.modGroup g f).moved = s.moved := rfl
@[simp] theorem State.modGroup_fresh (s : State) (g : Nat) (f : Group → Group) :
    (s.modGroup g f).fresh = s.fresh := rfl
@[simp] theorem State.modGroup_mgmt (s : State) (g : Nat) (f : Group → Group) :
    (s.modGroup g f).mgmt = s.mgmt := rfl
@[simp] theorem State.modGroup_agenda (s : State) (g : Nat) (f : Group → Group) :
    (s.modGroup g f).agenda = s.agenda := rfl
@[simp] theorem State.modGroup_focus (s : State) (g : Nat) (f : Group → Group) :
    (s.modGroup g f).focus = s.focus := rfl
@[simp] theorem State.modGroup_need (s : State) (g : Nat) (f : Group → Group) :
    (s.modGroup g f).need = s.need := rfl
@[simp] theorem State.modGroup_used (s : State) (g : Nat) (f : Group → Group) :
    (s.modGroup g f).used = s.used := rfl
@[simp] theorem State.modGroup_fetched (s : State) (g : Nat) (f : Group → Group) :
    (s.modGroup g f).fetched = s.fetched := rfl
@[simp] theorem State.modGroup_free (s : State) (g : Nat) (f : Group → Group) :
    (s.modGroup g f).free = s.free := rfl
@[simp] theorem State.modGroup_ids (s : State) (g : Nat) (f : Group → Group) :
    (s.modGroup g f).ids = s.ids := rfl

/-! ## `State.delGroup` -/

@[simp] theorem State.delGroup_groups (s : State) (g : Nat) :
    (s.delGroup g).groups = s.groups.del g := rfl
@[simp] theorem State.delGroup_clock (s : State) (g : Nat) :
    (s.delGroup g).clock = s.clock := rfl
@[simp] theorem State.delGroup_time (s : State) (g : Nat) :
    (s.delGroup g).time = s.time := rfl
@[simp] theorem State.delGroup_frac (s : State) (g : Nat) :
    (s.delGroup g).frac = s.frac := rfl
@[simp] theorem State.delGroup_dieOff (s : State) (g : Nat) :
    (s.delGroup g).dieOff = s.dieOff := rfl
@[simp] theorem State.delGroup_warps (s : State) (g : Nat) :
    (s.delGroup g).warps = s.warps := rfl
@[simp] theorem State.delGroup_blocks (s : State) (g : Nat) :
    (s.delGroup g).blocks = s.blocks := rfl
@[simp] theorem State.delGroup_launches (s : State) (g : Nat) :
    (s.delGroup g).launches = s.launches := rfl
@[simp] theorem State.delGroup_cbars (s : State) (g : Nat) :
    (s.delGroup g).cbars = s.cbars := rfl
@[simp] theorem State.delGroup_works (s : State) (g : Nat) :
    (s.delGroup g).works = s.works := rfl
@[simp] theorem State.delGroup_ops (s : State) (g : Nat) :
    (s.delGroup g).ops = s.ops := rfl
@[simp] theorem State.delGroup_remotes (s : State) (g : Nat) :
    (s.delGroup g).remotes = s.remotes := rfl
@[simp] theorem State.delGroup_spills (s : State) (g : Nat) :
    (s.delGroup g).spills = s.spills := rfl
@[simp] theorem State.delGroup_cmds (s : State) (g : Nat) :
    (s.delGroup g).cmds = s.cmds := rfl
@[simp] theorem State.delGroup_mem (s : State) (g : Nat) :
    (s.delGroup g).mem = s.mem := rfl
@[simp] theorem State.delGroup_lines (s : State) (g : Nat) :
    (s.delGroup g).lines = s.lines := rfl
@[simp] theorem State.delGroup_caches (s : State) (g : Nat) :
    (s.delGroup g).caches = s.caches := rfl
@[simp] theorem State.delGroup_slices (s : State) (g : Nat) :
    (s.delGroup g).slices = s.slices := rfl
@[simp] theorem State.delGroup_msgs (s : State) (g : Nat) :
    (s.delGroup g).msgs = s.msgs := rfl
@[simp] theorem State.delGroup_hostReqs (s : State) (g : Nat) :
    (s.delGroup g).hostReqs = s.hostReqs := rfl
@[simp] theorem State.delGroup_weir (s : State) (g : Nat) :
    (s.delGroup g).weir = s.weir := rfl
@[simp] theorem State.delGroup_tlb (s : State) (g : Nat) :
    (s.delGroup g).tlb = s.tlb := rfl
@[simp] theorem State.delGroup_walks (s : State) (g : Nat) :
    (s.delGroup g).walks = s.walks := rfl
@[simp] theorem State.delGroup_shoots (s : State) (g : Nat) :
    (s.delGroup g).shoots = s.shoots := rfl
@[simp] theorem State.delGroup_mons (s : State) (g : Nat) :
    (s.delGroup g).mons = s.mons := rfl
@[simp] theorem State.delGroup_monsAway (s : State) (g : Nat) :
    (s.delGroup g).monsAway = s.monsAway := rfl
@[simp] theorem State.delGroup_rels (s : State) (g : Nat) :
    (s.delGroup g).rels = s.rels := rfl
@[simp] theorem State.delGroup_cores (s : State) (g : Nat) :
    (s.delGroup g).cores = s.cores := rfl
@[simp] theorem State.delGroup_ctxs (s : State) (g : Nat) :
    (s.delGroup g).ctxs = s.ctxs := rfl
@[simp] theorem State.delGroup_parts (s : State) (g : Nat) :
    (s.delGroup g).parts = s.parts := rfl
@[simp] theorem State.delGroup_chip (s : State) (g : Nat) :
    (s.delGroup g).chip = s.chip := rfl
@[simp] theorem State.delGroup_domain (s : State) (g : Nat) :
    (s.delGroup g).domain = s.domain := rfl
@[simp] theorem State.delGroup_hrb (s : State) (g : Nat) :
    (s.delGroup g).hrb = s.hrb := rfl
@[simp] theorem State.delGroup_hrErr (s : State) (g : Nat) :
    (s.delGroup g).hrErr = s.hrErr := rfl
@[simp] theorem State.delGroup_hrFails (s : State) (g : Nat) :
    (s.delGroup g).hrFails = s.hrFails := rfl
@[simp] theorem State.delGroup_btb (s : State) (g : Nat) :
    (s.delGroup g).btb = s.btb := rfl
@[simp] theorem State.delGroup_flips (s : State) (g : Nat) :
    (s.delGroup g).flips = s.flips := rfl
@[simp] theorem State.delGroup_flipOn (s : State) (g : Nat) :
    (s.delGroup g).flipOn = s.flipOn := rfl
@[simp] theorem State.delGroup_flipDone (s : State) (g : Nat) :
    (s.delGroup g).flipDone = s.flipDone := rfl
@[simp] theorem State.delGroup_flipErr (s : State) (g : Nat) :
    (s.delGroup g).flipErr = s.flipErr := rfl
@[simp] theorem State.delGroup_bflip (s : State) (g : Nat) :
    (s.delGroup g).bflip = s.bflip := rfl
@[simp] theorem State.delGroup_heldHost (s : State) (g : Nat) :
    (s.delGroup g).heldHost = s.heldHost := rfl
@[simp] theorem State.delGroup_heldRegs (s : State) (g : Nat) :
    (s.delGroup g).heldRegs = s.heldRegs := rfl
@[simp] theorem State.delGroup_flipAt (s : State) (g : Nat) :
    (s.delGroup g).flipAt = s.flipAt := rfl
@[simp] theorem State.delGroup_flipSent (s : State) (g : Nat) :
    (s.delGroup g).flipSent = s.flipSent := rfl
@[simp] theorem State.delGroup_biWait (s : State) (g : Nat) :
    (s.delGroup g).biWait = s.biWait := rfl
@[simp] theorem State.delGroup_hdm (s : State) (g : Nat) :
    (s.delGroup g).hdm = s.hdm := rfl
@[simp] theorem State.delGroup_regReqs (s : State) (g : Nat) :
    (s.delGroup g).regReqs = s.regReqs := rfl
@[simp] theorem State.delGroup_out (s : State) (g : Nat) :
    (s.delGroup g).out = s.out := rfl
@[simp] theorem State.delGroup_links (s : State) (g : Nat) :
    (s.delGroup g).links = s.links := rfl
@[simp] theorem State.delGroup_joins (s : State) (g : Nat) :
    (s.delGroup g).joins = s.joins := rfl
@[simp] theorem State.delGroup_inbox (s : State) (g : Nat) :
    (s.delGroup g).inbox = s.inbox := rfl
@[simp] theorem State.delGroup_heldMsgs (s : State) (g : Nat) :
    (s.delGroup g).heldMsgs = s.heldMsgs := rfl
@[simp] theorem State.delGroup_routes (s : State) (g : Nat) :
    (s.delGroup g).routes = s.routes := rfl
@[simp] theorem State.delGroup_sync (s : State) (g : Nat) :
    (s.delGroup g).sync = s.sync := rfl
@[simp] theorem State.delGroup_erbase (s : State) (g : Nat) :
    (s.delGroup g).erbase = s.erbase := rfl
@[simp] theorem State.delGroup_erhead (s : State) (g : Nat) :
    (s.delGroup g).erhead = s.erhead := rfl
@[simp] theorem State.delGroup_ertail (s : State) (g : Nat) :
    (s.delGroup g).ertail = s.ertail := rfl
@[simp] theorem State.delGroup_erCorr (s : State) (g : Nat) :
    (s.delGroup g).erCorr = s.erCorr := rfl
@[simp] theorem State.delGroup_erLost (s : State) (g : Nat) :
    (s.delGroup g).erLost = s.erLost := rfl
@[simp] theorem State.delGroup_tally (s : State) (g : Nat) :
    (s.delGroup g).tally = s.tally := rfl
@[simp] theorem State.delGroup_moved (s : State) (g : Nat) :
    (s.delGroup g).moved = s.moved := rfl
@[simp] theorem State.delGroup_fresh (s : State) (g : Nat) :
    (s.delGroup g).fresh = s.fresh := rfl
@[simp] theorem State.delGroup_mgmt (s : State) (g : Nat) :
    (s.delGroup g).mgmt = s.mgmt := rfl
@[simp] theorem State.delGroup_agenda (s : State) (g : Nat) :
    (s.delGroup g).agenda = s.agenda := rfl
@[simp] theorem State.delGroup_focus (s : State) (g : Nat) :
    (s.delGroup g).focus = s.focus := rfl
@[simp] theorem State.delGroup_need (s : State) (g : Nat) :
    (s.delGroup g).need = s.need := rfl
@[simp] theorem State.delGroup_used (s : State) (g : Nat) :
    (s.delGroup g).used = s.used := rfl
@[simp] theorem State.delGroup_fetched (s : State) (g : Nat) :
    (s.delGroup g).fetched = s.fetched := rfl
@[simp] theorem State.delGroup_free (s : State) (g : Nat) :
    (s.delGroup g).free = s.free := rfl
@[simp] theorem State.delGroup_ids (s : State) (g : Nat) :
    (s.delGroup g).ids = s.ids := rfl

/-! ## `State.unfocus` -/

@[simp] theorem State.unfocus_focus (s : State) (g : Nat) :
    (s.unfocus g).focus = if s.focus = .group g then .none else s.focus := rfl
@[simp] theorem State.unfocus_clock (s : State) (g : Nat) :
    (s.unfocus g).clock = s.clock := rfl
@[simp] theorem State.unfocus_time (s : State) (g : Nat) :
    (s.unfocus g).time = s.time := rfl
@[simp] theorem State.unfocus_frac (s : State) (g : Nat) :
    (s.unfocus g).frac = s.frac := rfl
@[simp] theorem State.unfocus_dieOff (s : State) (g : Nat) :
    (s.unfocus g).dieOff = s.dieOff := rfl
@[simp] theorem State.unfocus_warps (s : State) (g : Nat) :
    (s.unfocus g).warps = s.warps := rfl
@[simp] theorem State.unfocus_blocks (s : State) (g : Nat) :
    (s.unfocus g).blocks = s.blocks := rfl
@[simp] theorem State.unfocus_launches (s : State) (g : Nat) :
    (s.unfocus g).launches = s.launches := rfl
@[simp] theorem State.unfocus_groups (s : State) (g : Nat) :
    (s.unfocus g).groups = s.groups := rfl
@[simp] theorem State.unfocus_cbars (s : State) (g : Nat) :
    (s.unfocus g).cbars = s.cbars := rfl
@[simp] theorem State.unfocus_works (s : State) (g : Nat) :
    (s.unfocus g).works = s.works := rfl
@[simp] theorem State.unfocus_ops (s : State) (g : Nat) :
    (s.unfocus g).ops = s.ops := rfl
@[simp] theorem State.unfocus_remotes (s : State) (g : Nat) :
    (s.unfocus g).remotes = s.remotes := rfl
@[simp] theorem State.unfocus_spills (s : State) (g : Nat) :
    (s.unfocus g).spills = s.spills := rfl
@[simp] theorem State.unfocus_cmds (s : State) (g : Nat) :
    (s.unfocus g).cmds = s.cmds := rfl
@[simp] theorem State.unfocus_mem (s : State) (g : Nat) :
    (s.unfocus g).mem = s.mem := rfl
@[simp] theorem State.unfocus_lines (s : State) (g : Nat) :
    (s.unfocus g).lines = s.lines := rfl
@[simp] theorem State.unfocus_caches (s : State) (g : Nat) :
    (s.unfocus g).caches = s.caches := rfl
@[simp] theorem State.unfocus_slices (s : State) (g : Nat) :
    (s.unfocus g).slices = s.slices := rfl
@[simp] theorem State.unfocus_msgs (s : State) (g : Nat) :
    (s.unfocus g).msgs = s.msgs := rfl
@[simp] theorem State.unfocus_hostReqs (s : State) (g : Nat) :
    (s.unfocus g).hostReqs = s.hostReqs := rfl
@[simp] theorem State.unfocus_weir (s : State) (g : Nat) :
    (s.unfocus g).weir = s.weir := rfl
@[simp] theorem State.unfocus_tlb (s : State) (g : Nat) :
    (s.unfocus g).tlb = s.tlb := rfl
@[simp] theorem State.unfocus_walks (s : State) (g : Nat) :
    (s.unfocus g).walks = s.walks := rfl
@[simp] theorem State.unfocus_shoots (s : State) (g : Nat) :
    (s.unfocus g).shoots = s.shoots := rfl
@[simp] theorem State.unfocus_mons (s : State) (g : Nat) :
    (s.unfocus g).mons = s.mons := rfl
@[simp] theorem State.unfocus_monsAway (s : State) (g : Nat) :
    (s.unfocus g).monsAway = s.monsAway := rfl
@[simp] theorem State.unfocus_rels (s : State) (g : Nat) :
    (s.unfocus g).rels = s.rels := rfl
@[simp] theorem State.unfocus_cores (s : State) (g : Nat) :
    (s.unfocus g).cores = s.cores := rfl
@[simp] theorem State.unfocus_ctxs (s : State) (g : Nat) :
    (s.unfocus g).ctxs = s.ctxs := rfl
@[simp] theorem State.unfocus_parts (s : State) (g : Nat) :
    (s.unfocus g).parts = s.parts := rfl
@[simp] theorem State.unfocus_chip (s : State) (g : Nat) :
    (s.unfocus g).chip = s.chip := rfl
@[simp] theorem State.unfocus_domain (s : State) (g : Nat) :
    (s.unfocus g).domain = s.domain := rfl
@[simp] theorem State.unfocus_hrb (s : State) (g : Nat) :
    (s.unfocus g).hrb = s.hrb := rfl
@[simp] theorem State.unfocus_hrErr (s : State) (g : Nat) :
    (s.unfocus g).hrErr = s.hrErr := rfl
@[simp] theorem State.unfocus_hrFails (s : State) (g : Nat) :
    (s.unfocus g).hrFails = s.hrFails := rfl
@[simp] theorem State.unfocus_btb (s : State) (g : Nat) :
    (s.unfocus g).btb = s.btb := rfl
@[simp] theorem State.unfocus_flips (s : State) (g : Nat) :
    (s.unfocus g).flips = s.flips := rfl
@[simp] theorem State.unfocus_flipOn (s : State) (g : Nat) :
    (s.unfocus g).flipOn = s.flipOn := rfl
@[simp] theorem State.unfocus_flipDone (s : State) (g : Nat) :
    (s.unfocus g).flipDone = s.flipDone := rfl
@[simp] theorem State.unfocus_flipErr (s : State) (g : Nat) :
    (s.unfocus g).flipErr = s.flipErr := rfl
@[simp] theorem State.unfocus_bflip (s : State) (g : Nat) :
    (s.unfocus g).bflip = s.bflip := rfl
@[simp] theorem State.unfocus_heldHost (s : State) (g : Nat) :
    (s.unfocus g).heldHost = s.heldHost := rfl
@[simp] theorem State.unfocus_heldRegs (s : State) (g : Nat) :
    (s.unfocus g).heldRegs = s.heldRegs := rfl
@[simp] theorem State.unfocus_flipAt (s : State) (g : Nat) :
    (s.unfocus g).flipAt = s.flipAt := rfl
@[simp] theorem State.unfocus_flipSent (s : State) (g : Nat) :
    (s.unfocus g).flipSent = s.flipSent := rfl
@[simp] theorem State.unfocus_biWait (s : State) (g : Nat) :
    (s.unfocus g).biWait = s.biWait := rfl
@[simp] theorem State.unfocus_hdm (s : State) (g : Nat) :
    (s.unfocus g).hdm = s.hdm := rfl
@[simp] theorem State.unfocus_regReqs (s : State) (g : Nat) :
    (s.unfocus g).regReqs = s.regReqs := rfl
@[simp] theorem State.unfocus_out (s : State) (g : Nat) :
    (s.unfocus g).out = s.out := rfl
@[simp] theorem State.unfocus_links (s : State) (g : Nat) :
    (s.unfocus g).links = s.links := rfl
@[simp] theorem State.unfocus_joins (s : State) (g : Nat) :
    (s.unfocus g).joins = s.joins := rfl
@[simp] theorem State.unfocus_inbox (s : State) (g : Nat) :
    (s.unfocus g).inbox = s.inbox := rfl
@[simp] theorem State.unfocus_heldMsgs (s : State) (g : Nat) :
    (s.unfocus g).heldMsgs = s.heldMsgs := rfl
@[simp] theorem State.unfocus_routes (s : State) (g : Nat) :
    (s.unfocus g).routes = s.routes := rfl
@[simp] theorem State.unfocus_sync (s : State) (g : Nat) :
    (s.unfocus g).sync = s.sync := rfl
@[simp] theorem State.unfocus_erbase (s : State) (g : Nat) :
    (s.unfocus g).erbase = s.erbase := rfl
@[simp] theorem State.unfocus_erhead (s : State) (g : Nat) :
    (s.unfocus g).erhead = s.erhead := rfl
@[simp] theorem State.unfocus_ertail (s : State) (g : Nat) :
    (s.unfocus g).ertail = s.ertail := rfl
@[simp] theorem State.unfocus_erCorr (s : State) (g : Nat) :
    (s.unfocus g).erCorr = s.erCorr := rfl
@[simp] theorem State.unfocus_erLost (s : State) (g : Nat) :
    (s.unfocus g).erLost = s.erLost := rfl
@[simp] theorem State.unfocus_tally (s : State) (g : Nat) :
    (s.unfocus g).tally = s.tally := rfl
@[simp] theorem State.unfocus_moved (s : State) (g : Nat) :
    (s.unfocus g).moved = s.moved := rfl
@[simp] theorem State.unfocus_fresh (s : State) (g : Nat) :
    (s.unfocus g).fresh = s.fresh := rfl
@[simp] theorem State.unfocus_mgmt (s : State) (g : Nat) :
    (s.unfocus g).mgmt = s.mgmt := rfl
@[simp] theorem State.unfocus_agenda (s : State) (g : Nat) :
    (s.unfocus g).agenda = s.agenda := rfl
@[simp] theorem State.unfocus_need (s : State) (g : Nat) :
    (s.unfocus g).need = s.need := rfl
@[simp] theorem State.unfocus_used (s : State) (g : Nat) :
    (s.unfocus g).used = s.used := rfl
@[simp] theorem State.unfocus_fetched (s : State) (g : Nat) :
    (s.unfocus g).fetched = s.fetched := rfl
@[simp] theorem State.unfocus_free (s : State) (g : Nat) :
    (s.unfocus g).free = s.free := rfl
@[simp] theorem State.unfocus_ids (s : State) (g : Nat) :
    (s.unfocus g).ids = s.ids := rfl

/-! ## `State.modCtx` -/

@[simp] theorem State.modCtx_ctxs (s : State) (c : Nat) (f : Ctx → Ctx) :
    (s.modCtx c f).ctxs = s.ctxs.modify c f := rfl
@[simp] theorem State.modCtx_clock (s : State) (c : Nat) (f : Ctx → Ctx) :
    (s.modCtx c f).clock = s.clock := rfl
@[simp] theorem State.modCtx_time (s : State) (c : Nat) (f : Ctx → Ctx) :
    (s.modCtx c f).time = s.time := rfl
@[simp] theorem State.modCtx_frac (s : State) (c : Nat) (f : Ctx → Ctx) :
    (s.modCtx c f).frac = s.frac := rfl
@[simp] theorem State.modCtx_dieOff (s : State) (c : Nat) (f : Ctx → Ctx) :
    (s.modCtx c f).dieOff = s.dieOff := rfl
@[simp] theorem State.modCtx_warps (s : State) (c : Nat) (f : Ctx → Ctx) :
    (s.modCtx c f).warps = s.warps := rfl
@[simp] theorem State.modCtx_blocks (s : State) (c : Nat) (f : Ctx → Ctx) :
    (s.modCtx c f).blocks = s.blocks := rfl
@[simp] theorem State.modCtx_launches (s : State) (c : Nat) (f : Ctx → Ctx) :
    (s.modCtx c f).launches = s.launches := rfl
@[simp] theorem State.modCtx_groups (s : State) (c : Nat) (f : Ctx → Ctx) :
    (s.modCtx c f).groups = s.groups := rfl
@[simp] theorem State.modCtx_cbars (s : State) (c : Nat) (f : Ctx → Ctx) :
    (s.modCtx c f).cbars = s.cbars := rfl
@[simp] theorem State.modCtx_works (s : State) (c : Nat) (f : Ctx → Ctx) :
    (s.modCtx c f).works = s.works := rfl
@[simp] theorem State.modCtx_ops (s : State) (c : Nat) (f : Ctx → Ctx) :
    (s.modCtx c f).ops = s.ops := rfl
@[simp] theorem State.modCtx_remotes (s : State) (c : Nat) (f : Ctx → Ctx) :
    (s.modCtx c f).remotes = s.remotes := rfl
@[simp] theorem State.modCtx_spills (s : State) (c : Nat) (f : Ctx → Ctx) :
    (s.modCtx c f).spills = s.spills := rfl
@[simp] theorem State.modCtx_cmds (s : State) (c : Nat) (f : Ctx → Ctx) :
    (s.modCtx c f).cmds = s.cmds := rfl
@[simp] theorem State.modCtx_mem (s : State) (c : Nat) (f : Ctx → Ctx) :
    (s.modCtx c f).mem = s.mem := rfl
@[simp] theorem State.modCtx_lines (s : State) (c : Nat) (f : Ctx → Ctx) :
    (s.modCtx c f).lines = s.lines := rfl
@[simp] theorem State.modCtx_caches (s : State) (c : Nat) (f : Ctx → Ctx) :
    (s.modCtx c f).caches = s.caches := rfl
@[simp] theorem State.modCtx_slices (s : State) (c : Nat) (f : Ctx → Ctx) :
    (s.modCtx c f).slices = s.slices := rfl
@[simp] theorem State.modCtx_msgs (s : State) (c : Nat) (f : Ctx → Ctx) :
    (s.modCtx c f).msgs = s.msgs := rfl
@[simp] theorem State.modCtx_hostReqs (s : State) (c : Nat) (f : Ctx → Ctx) :
    (s.modCtx c f).hostReqs = s.hostReqs := rfl
@[simp] theorem State.modCtx_weir (s : State) (c : Nat) (f : Ctx → Ctx) :
    (s.modCtx c f).weir = s.weir := rfl
@[simp] theorem State.modCtx_tlb (s : State) (c : Nat) (f : Ctx → Ctx) :
    (s.modCtx c f).tlb = s.tlb := rfl
@[simp] theorem State.modCtx_walks (s : State) (c : Nat) (f : Ctx → Ctx) :
    (s.modCtx c f).walks = s.walks := rfl
@[simp] theorem State.modCtx_shoots (s : State) (c : Nat) (f : Ctx → Ctx) :
    (s.modCtx c f).shoots = s.shoots := rfl
@[simp] theorem State.modCtx_mons (s : State) (c : Nat) (f : Ctx → Ctx) :
    (s.modCtx c f).mons = s.mons := rfl
@[simp] theorem State.modCtx_monsAway (s : State) (c : Nat) (f : Ctx → Ctx) :
    (s.modCtx c f).monsAway = s.monsAway := rfl
@[simp] theorem State.modCtx_rels (s : State) (c : Nat) (f : Ctx → Ctx) :
    (s.modCtx c f).rels = s.rels := rfl
@[simp] theorem State.modCtx_cores (s : State) (c : Nat) (f : Ctx → Ctx) :
    (s.modCtx c f).cores = s.cores := rfl
@[simp] theorem State.modCtx_parts (s : State) (c : Nat) (f : Ctx → Ctx) :
    (s.modCtx c f).parts = s.parts := rfl
@[simp] theorem State.modCtx_chip (s : State) (c : Nat) (f : Ctx → Ctx) :
    (s.modCtx c f).chip = s.chip := rfl
@[simp] theorem State.modCtx_domain (s : State) (c : Nat) (f : Ctx → Ctx) :
    (s.modCtx c f).domain = s.domain := rfl
@[simp] theorem State.modCtx_hrb (s : State) (c : Nat) (f : Ctx → Ctx) :
    (s.modCtx c f).hrb = s.hrb := rfl
@[simp] theorem State.modCtx_hrErr (s : State) (c : Nat) (f : Ctx → Ctx) :
    (s.modCtx c f).hrErr = s.hrErr := rfl
@[simp] theorem State.modCtx_hrFails (s : State) (c : Nat) (f : Ctx → Ctx) :
    (s.modCtx c f).hrFails = s.hrFails := rfl
@[simp] theorem State.modCtx_btb (s : State) (c : Nat) (f : Ctx → Ctx) :
    (s.modCtx c f).btb = s.btb := rfl
@[simp] theorem State.modCtx_flips (s : State) (c : Nat) (f : Ctx → Ctx) :
    (s.modCtx c f).flips = s.flips := rfl
@[simp] theorem State.modCtx_flipOn (s : State) (c : Nat) (f : Ctx → Ctx) :
    (s.modCtx c f).flipOn = s.flipOn := rfl
@[simp] theorem State.modCtx_flipDone (s : State) (c : Nat) (f : Ctx → Ctx) :
    (s.modCtx c f).flipDone = s.flipDone := rfl
@[simp] theorem State.modCtx_flipErr (s : State) (c : Nat) (f : Ctx → Ctx) :
    (s.modCtx c f).flipErr = s.flipErr := rfl
@[simp] theorem State.modCtx_bflip (s : State) (c : Nat) (f : Ctx → Ctx) :
    (s.modCtx c f).bflip = s.bflip := rfl
@[simp] theorem State.modCtx_heldHost (s : State) (c : Nat) (f : Ctx → Ctx) :
    (s.modCtx c f).heldHost = s.heldHost := rfl
@[simp] theorem State.modCtx_heldRegs (s : State) (c : Nat) (f : Ctx → Ctx) :
    (s.modCtx c f).heldRegs = s.heldRegs := rfl
@[simp] theorem State.modCtx_flipAt (s : State) (c : Nat) (f : Ctx → Ctx) :
    (s.modCtx c f).flipAt = s.flipAt := rfl
@[simp] theorem State.modCtx_flipSent (s : State) (c : Nat) (f : Ctx → Ctx) :
    (s.modCtx c f).flipSent = s.flipSent := rfl
@[simp] theorem State.modCtx_biWait (s : State) (c : Nat) (f : Ctx → Ctx) :
    (s.modCtx c f).biWait = s.biWait := rfl
@[simp] theorem State.modCtx_hdm (s : State) (c : Nat) (f : Ctx → Ctx) :
    (s.modCtx c f).hdm = s.hdm := rfl
@[simp] theorem State.modCtx_regReqs (s : State) (c : Nat) (f : Ctx → Ctx) :
    (s.modCtx c f).regReqs = s.regReqs := rfl
@[simp] theorem State.modCtx_out (s : State) (c : Nat) (f : Ctx → Ctx) :
    (s.modCtx c f).out = s.out := rfl
@[simp] theorem State.modCtx_links (s : State) (c : Nat) (f : Ctx → Ctx) :
    (s.modCtx c f).links = s.links := rfl
@[simp] theorem State.modCtx_joins (s : State) (c : Nat) (f : Ctx → Ctx) :
    (s.modCtx c f).joins = s.joins := rfl
@[simp] theorem State.modCtx_inbox (s : State) (c : Nat) (f : Ctx → Ctx) :
    (s.modCtx c f).inbox = s.inbox := rfl
@[simp] theorem State.modCtx_heldMsgs (s : State) (c : Nat) (f : Ctx → Ctx) :
    (s.modCtx c f).heldMsgs = s.heldMsgs := rfl
@[simp] theorem State.modCtx_routes (s : State) (c : Nat) (f : Ctx → Ctx) :
    (s.modCtx c f).routes = s.routes := rfl
@[simp] theorem State.modCtx_sync (s : State) (c : Nat) (f : Ctx → Ctx) :
    (s.modCtx c f).sync = s.sync := rfl
@[simp] theorem State.modCtx_erbase (s : State) (c : Nat) (f : Ctx → Ctx) :
    (s.modCtx c f).erbase = s.erbase := rfl
@[simp] theorem State.modCtx_erhead (s : State) (c : Nat) (f : Ctx → Ctx) :
    (s.modCtx c f).erhead = s.erhead := rfl
@[simp] theorem State.modCtx_ertail (s : State) (c : Nat) (f : Ctx → Ctx) :
    (s.modCtx c f).ertail = s.ertail := rfl
@[simp] theorem State.modCtx_erCorr (s : State) (c : Nat) (f : Ctx → Ctx) :
    (s.modCtx c f).erCorr = s.erCorr := rfl
@[simp] theorem State.modCtx_erLost (s : State) (c : Nat) (f : Ctx → Ctx) :
    (s.modCtx c f).erLost = s.erLost := rfl
@[simp] theorem State.modCtx_tally (s : State) (c : Nat) (f : Ctx → Ctx) :
    (s.modCtx c f).tally = s.tally := rfl
@[simp] theorem State.modCtx_moved (s : State) (c : Nat) (f : Ctx → Ctx) :
    (s.modCtx c f).moved = s.moved := rfl
@[simp] theorem State.modCtx_fresh (s : State) (c : Nat) (f : Ctx → Ctx) :
    (s.modCtx c f).fresh = s.fresh := rfl
@[simp] theorem State.modCtx_mgmt (s : State) (c : Nat) (f : Ctx → Ctx) :
    (s.modCtx c f).mgmt = s.mgmt := rfl
@[simp] theorem State.modCtx_agenda (s : State) (c : Nat) (f : Ctx → Ctx) :
    (s.modCtx c f).agenda = s.agenda := rfl
@[simp] theorem State.modCtx_focus (s : State) (c : Nat) (f : Ctx → Ctx) :
    (s.modCtx c f).focus = s.focus := rfl
@[simp] theorem State.modCtx_need (s : State) (c : Nat) (f : Ctx → Ctx) :
    (s.modCtx c f).need = s.need := rfl
@[simp] theorem State.modCtx_used (s : State) (c : Nat) (f : Ctx → Ctx) :
    (s.modCtx c f).used = s.used := rfl
@[simp] theorem State.modCtx_fetched (s : State) (c : Nat) (f : Ctx → Ctx) :
    (s.modCtx c f).fetched = s.fetched := rfl
@[simp] theorem State.modCtx_free (s : State) (c : Nat) (f : Ctx → Ctx) :
    (s.modCtx c f).free = s.free := rfl
@[simp] theorem State.modCtx_ids (s : State) (c : Nat) (f : Ctx → Ctx) :
    (s.modCtx c f).ids = s.ids := rfl

/-! ## `State.modPart` -/

@[simp] theorem State.modPart_parts (s : State) (n : Nat) (f : Partn → Partn) :
    (s.modPart n f).parts = s.parts.putD n (f (s.part n)) {} := rfl
@[simp] theorem State.modPart_warps (s : State) (n : Nat) (f : Partn → Partn) :
    (s.modPart n f).warps = s.warps := rfl
@[simp] theorem State.modPart_groups (s : State) (n : Nat) (f : Partn → Partn) :
    (s.modPart n f).groups = s.groups := rfl
@[simp] theorem State.modPart_mem (s : State) (n : Nat) (f : Partn → Partn) :
    (s.modPart n f).mem = s.mem := rfl
@[simp] theorem State.modPart_focus (s : State) (n : Nat) (f : Partn → Partn) :
    (s.modPart n f).focus = s.focus := rfl
@[simp] theorem State.modPart_lines (s : State) (n : Nat) (f : Partn → Partn) :
    (s.modPart n f).lines = s.lines := rfl
@[simp] theorem State.modPart_ctxs (s : State) (n : Nat) (f : Partn → Partn) :
    (s.modPart n f).ctxs = s.ctxs := rfl

/-! ## `State.setHline` -/

@[simp] theorem State.setHline_lines (s : State) (l : Nat) (x : HLine) :
    (s.setHline l x).lines = s.lines.putD l x {} := rfl
@[simp] theorem State.setHline_clock (s : State) (l : Nat) (x : HLine) :
    (s.setHline l x).clock = s.clock := rfl
@[simp] theorem State.setHline_time (s : State) (l : Nat) (x : HLine) :
    (s.setHline l x).time = s.time := rfl
@[simp] theorem State.setHline_frac (s : State) (l : Nat) (x : HLine) :
    (s.setHline l x).frac = s.frac := rfl
@[simp] theorem State.setHline_dieOff (s : State) (l : Nat) (x : HLine) :
    (s.setHline l x).dieOff = s.dieOff := rfl
@[simp] theorem State.setHline_warps (s : State) (l : Nat) (x : HLine) :
    (s.setHline l x).warps = s.warps := rfl
@[simp] theorem State.setHline_blocks (s : State) (l : Nat) (x : HLine) :
    (s.setHline l x).blocks = s.blocks := rfl
@[simp] theorem State.setHline_launches (s : State) (l : Nat) (x : HLine) :
    (s.setHline l x).launches = s.launches := rfl
@[simp] theorem State.setHline_groups (s : State) (l : Nat) (x : HLine) :
    (s.setHline l x).groups = s.groups := rfl
@[simp] theorem State.setHline_cbars (s : State) (l : Nat) (x : HLine) :
    (s.setHline l x).cbars = s.cbars := rfl
@[simp] theorem State.setHline_works (s : State) (l : Nat) (x : HLine) :
    (s.setHline l x).works = s.works := rfl
@[simp] theorem State.setHline_ops (s : State) (l : Nat) (x : HLine) :
    (s.setHline l x).ops = s.ops := rfl
@[simp] theorem State.setHline_remotes (s : State) (l : Nat) (x : HLine) :
    (s.setHline l x).remotes = s.remotes := rfl
@[simp] theorem State.setHline_spills (s : State) (l : Nat) (x : HLine) :
    (s.setHline l x).spills = s.spills := rfl
@[simp] theorem State.setHline_cmds (s : State) (l : Nat) (x : HLine) :
    (s.setHline l x).cmds = s.cmds := rfl
@[simp] theorem State.setHline_mem (s : State) (l : Nat) (x : HLine) :
    (s.setHline l x).mem = s.mem := rfl
@[simp] theorem State.setHline_caches (s : State) (l : Nat) (x : HLine) :
    (s.setHline l x).caches = s.caches := rfl
@[simp] theorem State.setHline_slices (s : State) (l : Nat) (x : HLine) :
    (s.setHline l x).slices = s.slices := rfl
@[simp] theorem State.setHline_msgs (s : State) (l : Nat) (x : HLine) :
    (s.setHline l x).msgs = s.msgs := rfl
@[simp] theorem State.setHline_hostReqs (s : State) (l : Nat) (x : HLine) :
    (s.setHline l x).hostReqs = s.hostReqs := rfl
@[simp] theorem State.setHline_weir (s : State) (l : Nat) (x : HLine) :
    (s.setHline l x).weir = s.weir := rfl
@[simp] theorem State.setHline_tlb (s : State) (l : Nat) (x : HLine) :
    (s.setHline l x).tlb = s.tlb := rfl
@[simp] theorem State.setHline_walks (s : State) (l : Nat) (x : HLine) :
    (s.setHline l x).walks = s.walks := rfl
@[simp] theorem State.setHline_shoots (s : State) (l : Nat) (x : HLine) :
    (s.setHline l x).shoots = s.shoots := rfl
@[simp] theorem State.setHline_mons (s : State) (l : Nat) (x : HLine) :
    (s.setHline l x).mons = s.mons := rfl
@[simp] theorem State.setHline_monsAway (s : State) (l : Nat) (x : HLine) :
    (s.setHline l x).monsAway = s.monsAway := rfl
@[simp] theorem State.setHline_rels (s : State) (l : Nat) (x : HLine) :
    (s.setHline l x).rels = s.rels := rfl
@[simp] theorem State.setHline_cores (s : State) (l : Nat) (x : HLine) :
    (s.setHline l x).cores = s.cores := rfl
@[simp] theorem State.setHline_ctxs (s : State) (l : Nat) (x : HLine) :
    (s.setHline l x).ctxs = s.ctxs := rfl
@[simp] theorem State.setHline_parts (s : State) (l : Nat) (x : HLine) :
    (s.setHline l x).parts = s.parts := rfl
@[simp] theorem State.setHline_chip (s : State) (l : Nat) (x : HLine) :
    (s.setHline l x).chip = s.chip := rfl
@[simp] theorem State.setHline_domain (s : State) (l : Nat) (x : HLine) :
    (s.setHline l x).domain = s.domain := rfl
@[simp] theorem State.setHline_hrb (s : State) (l : Nat) (x : HLine) :
    (s.setHline l x).hrb = s.hrb := rfl
@[simp] theorem State.setHline_hrErr (s : State) (l : Nat) (x : HLine) :
    (s.setHline l x).hrErr = s.hrErr := rfl
@[simp] theorem State.setHline_hrFails (s : State) (l : Nat) (x : HLine) :
    (s.setHline l x).hrFails = s.hrFails := rfl
@[simp] theorem State.setHline_btb (s : State) (l : Nat) (x : HLine) :
    (s.setHline l x).btb = s.btb := rfl
@[simp] theorem State.setHline_flips (s : State) (l : Nat) (x : HLine) :
    (s.setHline l x).flips = s.flips := rfl
@[simp] theorem State.setHline_flipOn (s : State) (l : Nat) (x : HLine) :
    (s.setHline l x).flipOn = s.flipOn := rfl
@[simp] theorem State.setHline_flipDone (s : State) (l : Nat) (x : HLine) :
    (s.setHline l x).flipDone = s.flipDone := rfl
@[simp] theorem State.setHline_flipErr (s : State) (l : Nat) (x : HLine) :
    (s.setHline l x).flipErr = s.flipErr := rfl
@[simp] theorem State.setHline_bflip (s : State) (l : Nat) (x : HLine) :
    (s.setHline l x).bflip = s.bflip := rfl
@[simp] theorem State.setHline_heldHost (s : State) (l : Nat) (x : HLine) :
    (s.setHline l x).heldHost = s.heldHost := rfl
@[simp] theorem State.setHline_heldRegs (s : State) (l : Nat) (x : HLine) :
    (s.setHline l x).heldRegs = s.heldRegs := rfl
@[simp] theorem State.setHline_flipAt (s : State) (l : Nat) (x : HLine) :
    (s.setHline l x).flipAt = s.flipAt := rfl
@[simp] theorem State.setHline_flipSent (s : State) (l : Nat) (x : HLine) :
    (s.setHline l x).flipSent = s.flipSent := rfl
@[simp] theorem State.setHline_biWait (s : State) (l : Nat) (x : HLine) :
    (s.setHline l x).biWait = s.biWait := rfl
@[simp] theorem State.setHline_hdm (s : State) (l : Nat) (x : HLine) :
    (s.setHline l x).hdm = s.hdm := rfl
@[simp] theorem State.setHline_regReqs (s : State) (l : Nat) (x : HLine) :
    (s.setHline l x).regReqs = s.regReqs := rfl
@[simp] theorem State.setHline_out (s : State) (l : Nat) (x : HLine) :
    (s.setHline l x).out = s.out := rfl
@[simp] theorem State.setHline_links (s : State) (l : Nat) (x : HLine) :
    (s.setHline l x).links = s.links := rfl
@[simp] theorem State.setHline_joins (s : State) (l : Nat) (x : HLine) :
    (s.setHline l x).joins = s.joins := rfl
@[simp] theorem State.setHline_inbox (s : State) (l : Nat) (x : HLine) :
    (s.setHline l x).inbox = s.inbox := rfl
@[simp] theorem State.setHline_heldMsgs (s : State) (l : Nat) (x : HLine) :
    (s.setHline l x).heldMsgs = s.heldMsgs := rfl
@[simp] theorem State.setHline_routes (s : State) (l : Nat) (x : HLine) :
    (s.setHline l x).routes = s.routes := rfl
@[simp] theorem State.setHline_sync (s : State) (l : Nat) (x : HLine) :
    (s.setHline l x).sync = s.sync := rfl
@[simp] theorem State.setHline_erbase (s : State) (l : Nat) (x : HLine) :
    (s.setHline l x).erbase = s.erbase := rfl
@[simp] theorem State.setHline_erhead (s : State) (l : Nat) (x : HLine) :
    (s.setHline l x).erhead = s.erhead := rfl
@[simp] theorem State.setHline_ertail (s : State) (l : Nat) (x : HLine) :
    (s.setHline l x).ertail = s.ertail := rfl
@[simp] theorem State.setHline_erCorr (s : State) (l : Nat) (x : HLine) :
    (s.setHline l x).erCorr = s.erCorr := rfl
@[simp] theorem State.setHline_erLost (s : State) (l : Nat) (x : HLine) :
    (s.setHline l x).erLost = s.erLost := rfl
@[simp] theorem State.setHline_tally (s : State) (l : Nat) (x : HLine) :
    (s.setHline l x).tally = s.tally := rfl
@[simp] theorem State.setHline_moved (s : State) (l : Nat) (x : HLine) :
    (s.setHline l x).moved = s.moved := rfl
@[simp] theorem State.setHline_fresh (s : State) (l : Nat) (x : HLine) :
    (s.setHline l x).fresh = s.fresh := rfl
@[simp] theorem State.setHline_mgmt (s : State) (l : Nat) (x : HLine) :
    (s.setHline l x).mgmt = s.mgmt := rfl
@[simp] theorem State.setHline_agenda (s : State) (l : Nat) (x : HLine) :
    (s.setHline l x).agenda = s.agenda := rfl
@[simp] theorem State.setHline_focus (s : State) (l : Nat) (x : HLine) :
    (s.setHline l x).focus = s.focus := rfl
@[simp] theorem State.setHline_need (s : State) (l : Nat) (x : HLine) :
    (s.setHline l x).need = s.need := rfl
@[simp] theorem State.setHline_used (s : State) (l : Nat) (x : HLine) :
    (s.setHline l x).used = s.used := rfl
@[simp] theorem State.setHline_fetched (s : State) (l : Nat) (x : HLine) :
    (s.setHline l x).fetched = s.fetched := rfl
@[simp] theorem State.setHline_free (s : State) (l : Nat) (x : HLine) :
    (s.setHline l x).free = s.free := rfl
@[simp] theorem State.setHline_ids (s : State) (l : Nat) (x : HLine) :
    (s.setHline l x).ids = s.ids := rfl

/-! ## `State.setSlice` -/

@[simp] theorem State.setSlice_slices (s : State) (n : Nat) (x : Slice) :
    (s.setSlice n x).slices = s.slices.putD n x {} := rfl
@[simp] theorem State.setSlice_warps (s : State) (n : Nat) (x : Slice) :
    (s.setSlice n x).warps = s.warps := rfl
@[simp] theorem State.setSlice_groups (s : State) (n : Nat) (x : Slice) :
    (s.setSlice n x).groups = s.groups := rfl
@[simp] theorem State.setSlice_mem (s : State) (n : Nat) (x : Slice) :
    (s.setSlice n x).mem = s.mem := rfl
@[simp] theorem State.setSlice_focus (s : State) (n : Nat) (x : Slice) :
    (s.setSlice n x).focus = s.focus := rfl
@[simp] theorem State.setSlice_lines (s : State) (n : Nat) (x : Slice) :
    (s.setSlice n x).lines = s.lines := rfl
@[simp] theorem State.setSlice_ctxs (s : State) (n : Nat) (x : Slice) :
    (s.setSlice n x).ctxs = s.ctxs := rfl

/-! ## `State.setLink` -/

@[simp] theorem State.setLink_links (s : State) (k : Nat) (x : Link) :
    (s.setLink k x).links = s.links.putD k x {} := rfl
@[simp] theorem State.setLink_warps (s : State) (k : Nat) (x : Link) :
    (s.setLink k x).warps = s.warps := rfl
@[simp] theorem State.setLink_groups (s : State) (k : Nat) (x : Link) :
    (s.setLink k x).groups = s.groups := rfl
@[simp] theorem State.setLink_mem (s : State) (k : Nat) (x : Link) :
    (s.setLink k x).mem = s.mem := rfl
@[simp] theorem State.setLink_focus (s : State) (k : Nat) (x : Link) :
    (s.setLink k x).focus = s.focus := rfl
@[simp] theorem State.setLink_lines (s : State) (k : Nat) (x : Link) :
    (s.setLink k x).lines = s.lines := rfl
@[simp] theorem State.setLink_ctxs (s : State) (k : Nat) (x : Link) :
    (s.setLink k x).ctxs = s.ctxs := rfl

/-! ## `State.setCline` -/

@[simp] theorem State.setCline_caches (s : State) (a l : Nat) (x : CLine) :
    (s.setCline a l x).caches = s.caches.set (ckey a l) x := rfl
@[simp] theorem State.setCline_warps (s : State) (a l : Nat) (x : CLine) :
    (s.setCline a l x).warps = s.warps := rfl
@[simp] theorem State.setCline_groups (s : State) (a l : Nat) (x : CLine) :
    (s.setCline a l x).groups = s.groups := rfl
@[simp] theorem State.setCline_mem (s : State) (a l : Nat) (x : CLine) :
    (s.setCline a l x).mem = s.mem := rfl
@[simp] theorem State.setCline_focus (s : State) (a l : Nat) (x : CLine) :
    (s.setCline a l x).focus = s.focus := rfl
@[simp] theorem State.setCline_lines (s : State) (a l : Nat) (x : CLine) :
    (s.setCline a l x).lines = s.lines := rfl
@[simp] theorem State.setCline_ctxs (s : State) (a l : Nat) (x : CLine) :
    (s.setCline a l x).ctxs = s.ctxs := rfl

/-! ## `State.delCline` -/

@[simp] theorem State.delCline_caches (s : State) (a l : Nat) :
    (s.delCline a l).caches = s.caches.del (ckey a l) := rfl
@[simp] theorem State.delCline_warps (s : State) (a l : Nat) :
    (s.delCline a l).warps = s.warps := rfl
@[simp] theorem State.delCline_groups (s : State) (a l : Nat) :
    (s.delCline a l).groups = s.groups := rfl
@[simp] theorem State.delCline_mem (s : State) (a l : Nat) :
    (s.delCline a l).mem = s.mem := rfl
@[simp] theorem State.delCline_focus (s : State) (a l : Nat) :
    (s.delCline a l).focus = s.focus := rfl
@[simp] theorem State.delCline_lines (s : State) (a l : Nat) :
    (s.delCline a l).lines = s.lines := rfl
@[simp] theorem State.delCline_ctxs (s : State) (a l : Nat) :
    (s.delCline a l).ctxs = s.ctxs := rfl

/-! ## `State.count` -/

@[simp] theorem State.count_tally (s : State) (c u e n x : Nat) :
    (s.count c u e n x).tally = s.tally ++ [⟨c, u, e, n, x⟩] := rfl
@[simp] theorem State.count_clock (s : State) (c u e n x : Nat) :
    (s.count c u e n x).clock = s.clock := rfl
@[simp] theorem State.count_time (s : State) (c u e n x : Nat) :
    (s.count c u e n x).time = s.time := rfl
@[simp] theorem State.count_frac (s : State) (c u e n x : Nat) :
    (s.count c u e n x).frac = s.frac := rfl
@[simp] theorem State.count_dieOff (s : State) (c u e n x : Nat) :
    (s.count c u e n x).dieOff = s.dieOff := rfl
@[simp] theorem State.count_warps (s : State) (c u e n x : Nat) :
    (s.count c u e n x).warps = s.warps := rfl
@[simp] theorem State.count_blocks (s : State) (c u e n x : Nat) :
    (s.count c u e n x).blocks = s.blocks := rfl
@[simp] theorem State.count_launches (s : State) (c u e n x : Nat) :
    (s.count c u e n x).launches = s.launches := rfl
@[simp] theorem State.count_groups (s : State) (c u e n x : Nat) :
    (s.count c u e n x).groups = s.groups := rfl
@[simp] theorem State.count_cbars (s : State) (c u e n x : Nat) :
    (s.count c u e n x).cbars = s.cbars := rfl
@[simp] theorem State.count_works (s : State) (c u e n x : Nat) :
    (s.count c u e n x).works = s.works := rfl
@[simp] theorem State.count_ops (s : State) (c u e n x : Nat) :
    (s.count c u e n x).ops = s.ops := rfl
@[simp] theorem State.count_remotes (s : State) (c u e n x : Nat) :
    (s.count c u e n x).remotes = s.remotes := rfl
@[simp] theorem State.count_spills (s : State) (c u e n x : Nat) :
    (s.count c u e n x).spills = s.spills := rfl
@[simp] theorem State.count_cmds (s : State) (c u e n x : Nat) :
    (s.count c u e n x).cmds = s.cmds := rfl
@[simp] theorem State.count_mem (s : State) (c u e n x : Nat) :
    (s.count c u e n x).mem = s.mem := rfl
@[simp] theorem State.count_lines (s : State) (c u e n x : Nat) :
    (s.count c u e n x).lines = s.lines := rfl
@[simp] theorem State.count_caches (s : State) (c u e n x : Nat) :
    (s.count c u e n x).caches = s.caches := rfl
@[simp] theorem State.count_slices (s : State) (c u e n x : Nat) :
    (s.count c u e n x).slices = s.slices := rfl
@[simp] theorem State.count_msgs (s : State) (c u e n x : Nat) :
    (s.count c u e n x).msgs = s.msgs := rfl
@[simp] theorem State.count_hostReqs (s : State) (c u e n x : Nat) :
    (s.count c u e n x).hostReqs = s.hostReqs := rfl
@[simp] theorem State.count_weir (s : State) (c u e n x : Nat) :
    (s.count c u e n x).weir = s.weir := rfl
@[simp] theorem State.count_tlb (s : State) (c u e n x : Nat) :
    (s.count c u e n x).tlb = s.tlb := rfl
@[simp] theorem State.count_walks (s : State) (c u e n x : Nat) :
    (s.count c u e n x).walks = s.walks := rfl
@[simp] theorem State.count_shoots (s : State) (c u e n x : Nat) :
    (s.count c u e n x).shoots = s.shoots := rfl
@[simp] theorem State.count_mons (s : State) (c u e n x : Nat) :
    (s.count c u e n x).mons = s.mons := rfl
@[simp] theorem State.count_monsAway (s : State) (c u e n x : Nat) :
    (s.count c u e n x).monsAway = s.monsAway := rfl
@[simp] theorem State.count_rels (s : State) (c u e n x : Nat) :
    (s.count c u e n x).rels = s.rels := rfl
@[simp] theorem State.count_cores (s : State) (c u e n x : Nat) :
    (s.count c u e n x).cores = s.cores := rfl
@[simp] theorem State.count_ctxs (s : State) (c u e n x : Nat) :
    (s.count c u e n x).ctxs = s.ctxs := rfl
@[simp] theorem State.count_parts (s : State) (c u e n x : Nat) :
    (s.count c u e n x).parts = s.parts := rfl
@[simp] theorem State.count_chip (s : State) (c u e n x : Nat) :
    (s.count c u e n x).chip = s.chip := rfl
@[simp] theorem State.count_domain (s : State) (c u e n x : Nat) :
    (s.count c u e n x).domain = s.domain := rfl
@[simp] theorem State.count_hrb (s : State) (c u e n x : Nat) :
    (s.count c u e n x).hrb = s.hrb := rfl
@[simp] theorem State.count_hrErr (s : State) (c u e n x : Nat) :
    (s.count c u e n x).hrErr = s.hrErr := rfl
@[simp] theorem State.count_hrFails (s : State) (c u e n x : Nat) :
    (s.count c u e n x).hrFails = s.hrFails := rfl
@[simp] theorem State.count_btb (s : State) (c u e n x : Nat) :
    (s.count c u e n x).btb = s.btb := rfl
@[simp] theorem State.count_flips (s : State) (c u e n x : Nat) :
    (s.count c u e n x).flips = s.flips := rfl
@[simp] theorem State.count_flipOn (s : State) (c u e n x : Nat) :
    (s.count c u e n x).flipOn = s.flipOn := rfl
@[simp] theorem State.count_flipDone (s : State) (c u e n x : Nat) :
    (s.count c u e n x).flipDone = s.flipDone := rfl
@[simp] theorem State.count_flipErr (s : State) (c u e n x : Nat) :
    (s.count c u e n x).flipErr = s.flipErr := rfl
@[simp] theorem State.count_bflip (s : State) (c u e n x : Nat) :
    (s.count c u e n x).bflip = s.bflip := rfl
@[simp] theorem State.count_heldHost (s : State) (c u e n x : Nat) :
    (s.count c u e n x).heldHost = s.heldHost := rfl
@[simp] theorem State.count_heldRegs (s : State) (c u e n x : Nat) :
    (s.count c u e n x).heldRegs = s.heldRegs := rfl
@[simp] theorem State.count_flipAt (s : State) (c u e n x : Nat) :
    (s.count c u e n x).flipAt = s.flipAt := rfl
@[simp] theorem State.count_flipSent (s : State) (c u e n x : Nat) :
    (s.count c u e n x).flipSent = s.flipSent := rfl
@[simp] theorem State.count_biWait (s : State) (c u e n x : Nat) :
    (s.count c u e n x).biWait = s.biWait := rfl
@[simp] theorem State.count_hdm (s : State) (c u e n x : Nat) :
    (s.count c u e n x).hdm = s.hdm := rfl
@[simp] theorem State.count_regReqs (s : State) (c u e n x : Nat) :
    (s.count c u e n x).regReqs = s.regReqs := rfl
@[simp] theorem State.count_out (s : State) (c u e n x : Nat) :
    (s.count c u e n x).out = s.out := rfl
@[simp] theorem State.count_links (s : State) (c u e n x : Nat) :
    (s.count c u e n x).links = s.links := rfl
@[simp] theorem State.count_joins (s : State) (c u e n x : Nat) :
    (s.count c u e n x).joins = s.joins := rfl
@[simp] theorem State.count_inbox (s : State) (c u e n x : Nat) :
    (s.count c u e n x).inbox = s.inbox := rfl
@[simp] theorem State.count_heldMsgs (s : State) (c u e n x : Nat) :
    (s.count c u e n x).heldMsgs = s.heldMsgs := rfl
@[simp] theorem State.count_routes (s : State) (c u e n x : Nat) :
    (s.count c u e n x).routes = s.routes := rfl
@[simp] theorem State.count_sync (s : State) (c u e n x : Nat) :
    (s.count c u e n x).sync = s.sync := rfl
@[simp] theorem State.count_erbase (s : State) (c u e n x : Nat) :
    (s.count c u e n x).erbase = s.erbase := rfl
@[simp] theorem State.count_erhead (s : State) (c u e n x : Nat) :
    (s.count c u e n x).erhead = s.erhead := rfl
@[simp] theorem State.count_ertail (s : State) (c u e n x : Nat) :
    (s.count c u e n x).ertail = s.ertail := rfl
@[simp] theorem State.count_erCorr (s : State) (c u e n x : Nat) :
    (s.count c u e n x).erCorr = s.erCorr := rfl
@[simp] theorem State.count_erLost (s : State) (c u e n x : Nat) :
    (s.count c u e n x).erLost = s.erLost := rfl
@[simp] theorem State.count_moved (s : State) (c u e n x : Nat) :
    (s.count c u e n x).moved = s.moved := rfl
@[simp] theorem State.count_fresh (s : State) (c u e n x : Nat) :
    (s.count c u e n x).fresh = s.fresh := rfl
@[simp] theorem State.count_mgmt (s : State) (c u e n x : Nat) :
    (s.count c u e n x).mgmt = s.mgmt := rfl
@[simp] theorem State.count_agenda (s : State) (c u e n x : Nat) :
    (s.count c u e n x).agenda = s.agenda := rfl
@[simp] theorem State.count_focus (s : State) (c u e n x : Nat) :
    (s.count c u e n x).focus = s.focus := rfl
@[simp] theorem State.count_need (s : State) (c u e n x : Nat) :
    (s.count c u e n x).need = s.need := rfl
@[simp] theorem State.count_used (s : State) (c u e n x : Nat) :
    (s.count c u e n x).used = s.used := rfl
@[simp] theorem State.count_fetched (s : State) (c u e n x : Nat) :
    (s.count c u e n x).fetched = s.fetched := rfl
@[simp] theorem State.count_free (s : State) (c u e n x : Nat) :
    (s.count c u e n x).free = s.free := rfl
@[simp] theorem State.count_ids (s : State) (c u e n x : Nat) :
    (s.count c u e n x).ids = s.ids := rfl

end Sys2Proof.Machine
end

