-- ==== Sys2Proof/Laws/Ops.lean ====
section
/-! SUPPORT. What the shared operations do: raising traps, issuing, retiring. -/

namespace Sys2Proof.Machine

@[simp] theorem State.atWord_warps (s : State) (g : Nat) : (s.atWord g).warps = s.warps := rfl
@[simp] theorem State.atWord_warp (s : State) (g w : Nat) : (s.atWord g).warp w = s.warp w := rfl
@[simp] theorem State.atWord_lane (s : State) (g w l : Nat) : (s.atWord g).lane w l = s.lane w l := rfl
@[simp] theorem State.atWord_block (s : State) (g b : Nat) : (s.atWord g).block b = s.block b := rfl
@[simp] theorem State.atWord_mem (s : State) (g : Nat) : (s.atWord g).mem = s.mem := rfl
@[simp] theorem State.atWord_execs (s : State) (g : Nat) (gr : Group) (p : Pred) :
    (s.atWord g).execs gr p = s.execs gr p := rfl
@[simp] theorem State.atWord_execThreads (s : State) (g : Nat) (gr : Group) (p : Pred) :
    (s.atWord g).execThreads gr p = s.execThreads gr p := rfl

/-- With nothing to raise, an instruction goes on. -/
@[simp] theorem State.raising_nil (s : State) (g : Nat) (gr : Group) (k : Group → State → Out) :
    s.raising g gr [] k = k gr s := by
  simp [State.raising]

/-- Raising ends in the continuation for what is left of the group, or, with nothing left, in a next state. -/
theorem State.raising_cases (s : State) (g : Nat) (gr : Group) (rs : List Raise) (k : Group → State → Out) :
    (rs = [] ∧ s.raising g gr rs k = k gr s) ∨
      (rs ≠ [] ∧ ∃ gr', (s.raise g gr rs).2 = some gr' ∧ s.raising g gr rs k = k gr' (s.raise g gr rs).1) ∨
      (rs ≠ [] ∧ (s.raise g gr rs).2 = none ∧ s.raising g gr rs k = .next (s.raise g gr rs).1) := by
  unfold State.raising
  by_cases h : rs = []
  · exact .inl ⟨h, by simp [h]⟩
  · rw [if_neg h]
    cases hr : s.raise g gr rs with
    | mk t x =>
      cases x with
      | none => exact .inr (.inr ⟨h, rfl, rfl⟩)
      | some gr' => exact .inr (.inl ⟨h, gr', rfl, rfl⟩)

theorem allocOk_of_fits {s : State} {gr : Group} {regs : List Nat}
    (h : ∀ w ∈ gr.warpIds, ∀ r ∈ regs, r < (s.warp w).regs) : allocOk s gr regs = true := by
  simpa [allocOk, List.all_eq_true] using h

/-- A lane whose registers are good reads no bad one. -/
theorem Warp.badReg_none {W : Warp} {L : Lane} {vs ss : List Nat} (hv : ∀ r ∈ vs, r ∉ L.vBad) (hs : ∀ r ∈ ss, r ∉ W.sBad) :
    W.badReg L vs ss = none := by
  have h1 : vs.find? L.vBad.contains = none := List.find?_eq_none.2 fun r hr => by simpa using hv r hr
  have h2 : ss.find? W.sBad.contains = none := List.find?_eq_none.2 fun r hr => by simpa using hs r hr
  unfold Warp.badReg
  rw [h1, h2]
  rfl

/-- Where the guards of thread lanes, and the operands of those that execute, are good, there is no REGECC (R125). -/
theorem regEcc_nil {s : State} {gr : Group} {p : Pred} {vs ss : List Nat}
    (hp : ∀ x ∈ gr.lanes, s.isLive x = true → ∀ r ∈ predReads p, r ∉ (s.lane x.1 x.2).vBad)
    (h : ∀ x ∈ s.execThreads gr p, (∀ r ∈ vs, r ∉ (s.lane x.1 x.2).vBad) ∧ ∀ r ∈ ss, r ∉ (s.warp x.1).sBad) :
    regEcc s gr p vs ss = [] := by
  unfold regEcc
  rw [List.filterMap_eq_nil_iff]
  intro w _
  simp only [Option.map_eq_none_iff]
  rw [List.findSome?_eq_none_iff]
  intro x hx
  obtain ⟨hx, hw⟩ := List.mem_filter.1 hx
  obtain ⟨-, hl⟩ : x.1 = w ∧ s.isLive x = true := by simpa using hw
  have h1 : (s.warp x.1).badReg ((s.warp x.1).lane x.2) (predReads p) [] = none :=
    Warp.badReg_none (hp x hx hl) (by simp)
  simp only [State.badRead, h1, Option.map_eq_none_iff]
  split
  · rename_i he
    have hm : x ∈ s.execThreads gr p := by
      simp [State.execThreads, State.execs, State.exec?, State.lane, hx, hl, he]
    exact Warp.badReg_none (h x hm).1 (h x hm).2
  · rfl

/-- An instruction of the lane set whose operands may be read goes on with its effect. -/
theorem issueLane_ready {s : State} {g : Nat} {gr : Group} {o : Ops} {wd : Widths} (h : s.Ready g gr o wd)
    (priv : Bool) (hp : priv = true → gr.handler = true) (k : Nat → Group → State → Out) :
    issueLane s priv o wd k = k g gr (s.atWord g) := by
  unfold issueLane
  rw [h.current]
  have h1 : allocOk (s.atWord g) gr (wd.all o) = true := allocOk_of_fits h.fits
  have h2 : regEcc (s.atWord g) gr o.pr (wd.reads o) (wd.readsS o) = [] := regEcc_nil h.guard h.sound
  have h3 : (priv && !gr.handler) = false := by
    cases priv with
    | false => rfl
    | true => simp [hp rfl]
  unfold State.atWord at h1 h2
  simp [h1, h2, h3, State.reportRegs, State.atWord]

/-- An instruction that computes each lane by itself. -/
theorem lanewise_ready {s : State} {g : Nat} {gr : Group} {o : Ops} {wd : Widths} (h : s.Ready g gr o wd)
    (f : Warp → Nat → Lane → Lane) :
    lanewise s o wd f = .next (((s.atWord g).eachLane (s.execs gr o.pr) (ifGood o wd f)).retire g gr) := by
  unfold lanewise
  rw [issueLane_ready h false (by simp)]
  rfl

theorem issueBare_current {s : State} {g : Nat} {gr : Group} (h : s.current = some (g, gr))
    (k : Nat → Group → State → Out) : issueBare s k = k g gr (s.atWord g) := by
  unfold issueBare
  rw [h]
  rfl

/-- An instruction of the uniform set whose operands may be read goes on with its effect. -/
theorem issueUni_ready {s : State} {g : Nat} {gr : Group} {reads : List Nat} (h : s.ReadyU g gr reads)
    (k : Nat → Group → State → Out) : issueUni s reads k = k g gr (s.atWord g) := by
  unfold issueUni
  rw [issueBare_current h.current]
  have h1 : regEccU (s.atWord g) gr reads = [] := by
    unfold regEccU
    rw [List.filterMap_eq_nil_iff]
    intro w _
    split
    · rename_i hl
      obtain ⟨l, hl, hlive⟩ := List.any_eq_true.1 hl
      simp only [Option.map_eq_none_iff, List.find?_eq_none]
      intro r hr
      have hm : (w, l) ∈ gr.lanes := by
        unfold Group.lanesOf at hl
        obtain ⟨x, hx, rfl⟩ := List.mem_map.1 hl
        obtain ⟨hm, hw⟩ := List.mem_filter.1 hx
        have hw : x.1 = w := by simpa using hw
        subst hw
        exact hm
      simpa using h.sound _ hm hlive r hr
    · rfl
  simp [h1, State.reportRegs]

/-- A uniform instruction that computes each warp by itself. -/
theorem warpwise_ready {s : State} {g : Nat} {gr : Group} {reads : List Nat} (h : s.ReadyU g gr reads)
    (f : Warp → Warp) :
    warpwise s reads f = .next ((gr.warpIds.foldl (fun s w => s.modWarp w f) (s.atWord g)).retire g gr) := by
  unfold warpwise
  rw [issueUni_ready h]

/-! ## What retiring and computing lanes leave alone -/

theorem State.onlyThreads_refl (s : State) : s.onlyThreads s := rfl

theorem State.onlyThreads_trans {s t u : State} (h1 : s.onlyThreads t) (h2 : t.onlyThreads u) : s.onlyThreads u := by
  unfold State.onlyThreads at *
  rw [h2, h1]

theorem State.onlyThreads_modWarp (s : State) (w : Nat) (f : Warp → Warp) : s.onlyThreads (s.modWarp w f) := rfl
theorem State.onlyThreads_modGroup (s : State) (g : Nat) (f : Group → Group) : s.onlyThreads (s.modGroup g f) := rfl
theorem State.onlyThreads_delGroup (s : State) (g : Nat) : s.onlyThreads (s.delGroup g) := rfl
theorem State.onlyThreads_unfocus (s : State) (g : Nat) : s.onlyThreads (s.unfocus g) := rfl

/-- A fold of changes to threads changes threads only. -/
theorem State.onlyThreads_foldl {β : Type} (f : State → β → State) (hf : ∀ (s : State) x, s.onlyThreads (f s x)) (l : List β)
    (s : State) : s.onlyThreads (l.foldl f s) := by
  induction l generalizing s with
  | nil => exact s.onlyThreads_refl
  | cons x l ih => exact State.onlyThreads_trans (hf s x) (ih _)

theorem State.onlyThreads_eachLane (s : State) (ls : List (Nat × Nat)) (f : Warp → Nat → Lane → Lane) :
    s.onlyThreads (s.eachLane ls f) :=
  State.onlyThreads_foldl _ (fun s _ => s.onlyThreads_modWarp _ _) _ _

theorem State.onlyThreads_endClause (s : State) (g : Nat) (gr : Group)
    (target : Nat × Nat → DWord × Option DWord) : s.onlyThreads (s.endClause g gr target) :=
  State.onlyThreads_trans (State.onlyThreads_trans
    (State.onlyThreads_foldl _ (fun s _ => s.onlyThreads_modWarp _ _) _ _) (State.onlyThreads_delGroup _ _))
    (State.onlyThreads_unfocus _ _)

theorem State.onlyThreads_retire (s : State) (g : Nat) (gr : Group) : s.onlyThreads (s.retire g gr) := by
  unfold State.retire
  split
  · exact s.onlyThreads_endClause g gr _
  · exact s.onlyThreads_modGroup g _

end Sys2Proof.Machine
end

