-- ==== Sys2Proof/Tests/Slice0.lean ====
section
/-! SUPPORT. Tests: ill-formed terms that the check refuses, words written out from the spec's encodings, and for each
statement a state and operands that meet its hypotheses. -/

namespace Sys2Proof.Machine

/-! ## A small machine -/

/-- A thread lane in group 7, with its values in v1 to v8. -/
def tLane (vs : List Word) : Lane :=
  { life := .live, entry := .group 7, pc := 0x1000, v := (List.range vs.length).map (fun k => (k + 1, vs.getD k 0)) }

/-- Warp 3 of block 1. -/
def tWarp (lanes : AMap Lane) : Warp :=
  { block := 1, regs := 32, quarters := [(0, 0)], quarterSet := [0], lanes }

/-- Group 7 of lanes of warp 3, at the first of two words. -/
def tGroup (ls : List Nat) : Group :=
  { block := 1, lanes := ls.map (fun l => (3, l)), hdr := 0x1000, words := [0x020603E2, 0x020603E2], pc := 0x1004,
    next := 0x1008, word0 := 0x020603E2 }

def tBlock : Block := { ctx := 1, launch := 2, warps := [3], nthread := 32, lsGran := 4, lsSize := 4096 }

/-- One block on core 0 of a context with identity translations below 2^36, and one group that has the turn. -/
def tState (gr : Group) (W : Warp) : State :=
  { warps := [(3, W)], groups := [(7, gr)], blocks := [(1, tBlock)], focus := .group 7, ids := 20,
    ctxs := [(1, { status := .bound 0, qcount := 2, qtb := 0x20000 })], parts := [(0, { run := true, ctx := 1, cores := [0] })],
    tlb := [⟨1, 3, 0, 0x01⟩, ⟨1, 2, 0, 0x1F⟩] }

/-- Two lanes with v1 to v6 given. -/
def tTwo (xs ys : List Word) : State := tState (tGroup [0, 1]) (tWarp [(0, tLane xs), (1, tLane ys)])

/-- One lane. -/
def tOne (xs : List Word) : State := tState (tGroup [0]) (tWarp [(0, tLane xs)])

/-- d = v9, a = v1, b = v3, c = v5. -/
def tOps : Ops := ⟨.v 9, .v 1, .v 3, .v 5, ⟨7, false⟩⟩

theorem ready_of {s : State} {g : Nat} {gr : Group} {o : Ops} {wd : Widths}
    (h : s.current = some (g, gr) ∧ (∀ w ∈ gr.warpIds, ∀ r ∈ wd.all o, r < (s.warp w).regs) ∧
      (∀ x ∈ gr.lanes, s.isLive x = true → ∀ r ∈ predReads o.pr, r ∉ (s.lane x.1 x.2).vBad) ∧
      ∀ x ∈ s.execThreads gr o.pr,
        (∀ r ∈ wd.reads o, r ∉ (s.lane x.1 x.2).vBad) ∧ ∀ r ∈ wd.readsS o, r ∉ (s.warp x.1).sBad) :
    s.Ready g gr o wd := ⟨h.1, h.2.1, h.2.2.1, h.2.2.2⟩

theorem readyU_of {s : State} {g : Nat} {gr : Group} {rs : List Nat}
    (h : s.current = some (g, gr) ∧ ∀ x ∈ gr.lanes, s.isLive x = true → ∀ r ∈ rs, r ∉ (s.warp x.1).sBad) :
    s.ReadyU g gr rs := ⟨h.1, h.2⟩

theorem threads_of {s : State} (h : AMap.sorted s.warps = true ∧ AMap.sorted s.groups = true ∧
    ∀ e ∈ s.warps, AMap.sorted e.2.s = true ∧ AMap.sorted e.2.lanes = true ∧
      ∀ x ∈ e.2.lanes, AMap.sorted x.2.v = true ∧ x.2.getP 7 = true) : s.threadsOk := h

theorem team_of {s : State} {g : Nat} {gr : Group} {w : Nat} {ls : List Nat} {p : Pred}
    (h : gr.lanes = ls.map (fun l => (w, l)) ∧ ls ≠ [] ∧ ls.Nodup ∧ gr.block = (s.warp w).block ∧
      ∀ l ∈ ls, (s.lane w l).life = .live ∧ (s.lane w l).entry = .group g ∧ s.exec? p (w, l) = true)
    (f : s.threadsOk) : s.Team g gr w ls p := ⟨h.1, h.2.1, h.2.2.1, h.2.2.2.1, h.2.2.2.2, f⟩

theorem open_of {s : State} {gr : Group} {n : Nat} {a : Acc} {p : Nat}
    (h : s.resolve [] (s.block gr.block).ctx n a = .pa p ∧ s.ownPa p = true ∧ (s.hline (p / 128)).poison = false ∧
      s.lineBusy gr.core (p / 128) = false ∧ gr.memo.xl = []) : s.Open gr n a p :=
  ⟨h.1, fun f hf => (by rw [h.2.2.2.2] at hf; cases hf), h.2.1, h.2.2.1, h.2.2.2.1⟩

theorem kept_of {gr : Group} (h : gr.memo.xl = []) (a : Acc) (p : Nat) : gr.keptAt a p := fun f hf => by
  rw [h] at hf; cases hf

/-- Does an outcome go on? -/
def isNext (o : Out) : Bool :=
  match o with
  | .next _ => true
  | _ => false

theorem next_of {o : Out} (h : isNext o = true) : ∃ t, o = .next t := by
  cases o <;> simp_all [isNext]

/-! ## Steps, encodings, arithmetic -/

/-- Group 7 has the agenda's turn. -/
def tTurn : State := { tTwo [1, 2] [3, 4] with agenda := [.issue 7], focus := .none }

theorem witness_StepRunsDecoded : tTurn.NextChoice { tTurn with agenda := [] } (.issue 7) ∧
    tTurn.groups.get? 7 = some (tGroup [0, 1]) ∧ { tTurn with agenda := [] }.mayIssue (tGroup [0, 1]) = true ∧
    decode (tGroup [0, 1]).rest = .ok (.iAdd ⟨.v 3, .v 1, .k 1, .none, ⟨7, false⟩⟩ ⟨false, false, false, false, 0, 0⟩) 1 :=
  ⟨.inl ⟨[], rfl, rfl⟩, by decide, by decide, by decide⟩

/-- The same at a word that is no instruction, at one whose second word is missing, at a header, and at a transfer that does
not stand at the end. -/
def tBadGroup (ws : List Word) : Group := { tGroup [0, 1] with words := ws }

def tBadTurn (ws : List Word) : State :=
  { tState (tBadGroup ws) (tWarp [(0, tLane [1, 2]), (1, tLane [3, 4])]) with agenda := [.issue 7], focus := .none }

theorem witness_StepRunsDecoded_words :
    (∀ ws, (tBadTurn ws).NextChoice { tBadTurn ws with agenda := [] } (.issue 7)) ∧
    (∀ ws ∈ ([[0x7E000000, 0x020603E2], [0x0DE201FD], [0xFC003FC2, 0x020603E2], [0x22000020, 0x020603E2]] : List (List Word)),
      let s := { tBadTurn ws with agenda := [] };
      s.groups.get? 7 = some (tBadGroup ws) ∧ s.mayIssue (tBadGroup ws) = true ∧ s.Team 7 (tBadGroup ws) 3 [0, 1] ⟨7, false⟩ ∧
        s.holdsTraps 3 = false) ∧
    decode (tBadGroup [0x7E000000, 0x020603E2]).rest = .illegal ∧ decode (tBadGroup [0x0DE201FD]).rest = .truncated ∧
    decode (tBadGroup [0xFC003FC2, 0x020603E2]).rest = .header ∧ decode (tBadGroup [0x22000020, 0x020603E2]).rest = .notLast := by
  refine ⟨fun ws => .inl ⟨[], rfl, rfl⟩, ?_, by decide, by decide, by decide, by decide⟩
  simp only [List.mem_cons, List.not_mem_nil, or_false]
  rintro ws (rfl | rfl | rfl | rfl) <;> exact ⟨by decide, by decide, team_of (by decide) (threads_of (by decide)), by decide⟩

/-- A lane that may start the clause at 0x2000, whose header 0xFC003FC2 and one word stand in memory. -/
def tForm : State :=
  { tOne [1, 2] with
    agenda := [.form 0 0], focus := .none, groups := [],
    warps := [(3, tWarp [(0, { tLane [1, 2] with entry := .runnable, pc := 0x2000 })])],
    mem := [(0x2000, 0xC2), (0x2001, 0x3F), (0x2003, 0xFC), (0x2004, 0xE2), (0x2005, 0x03), (0x2006, 0x06), (0x2007, 0x02)] }

theorem witness_StepStartsClause :
    tForm.NextChoice { tForm with agenda := [] } (.form 0 0) ∧ tForm.formation 0 0 = some (1, 0x2000, false, [(3, 0)]) ∧
    (tForm.fetch 0 1 (tForm.oldCode [(3, 0)]) 0x2000 1).2 = .words [0xFC003FC2] ∧ isHeader 0xFC003FC2 = true ∧
    decodeHeader 0xFC003FC2 = some ⟨0, none, none, 1, false⟩ ∧
    (let s1 := (tForm.fetch 0 1 (tForm.oldCode [(3, 0)]) 0x2000 1).1;
      (s1.fetch 0 1 (s1.oldCode [(3, 0)]) 0x2004 (hdrLen ⟨0, none, none, 1, false⟩)).2 = .words [0x020603E2]) :=
  ⟨.inl ⟨[], rfl, rfl⟩, by decide, by decide, by decide, by decide, by decide⟩

/-- At 0x2000 stands a word that is no header, or a header with a reserved field. -/
theorem witness_StepStartsClause_bad : ∀ x ∈ [(0x020603E2 : Word), 0xFC000000],
    let s := { tForm with mem := memWrite [] 0x2000 4 x.toNat, agenda := [] };
    s.formation 0 0 = some (1, 0x2000, false, [0].map fun l => (3, l)) ∧
    (s.fetch 0 1 (s.oldCode ([0].map fun l => (3, l))) 0x2000 1).2 = .words [x] ∧
    (isHeader x = true → decodeHeader x = none) ∧ s.threadsOk ∧ s.holdsTraps 3 = false ∧ ∀ l ∈ [0], (s.lane 3 l).life = .live := by
  intro x hx
  have hx : x = 0x020603E2 ∨ x = 0xFC000000 := by simpa using hx
  rcases hx with rfl | rfl <;> exact ⟨by decide, by decide, by decide, threads_of (by decide), by decide, by decide⟩

theorem witness_DecodeEncode : WellFormed (.iAdd ⟨.v 3, .v 1, .k 1, .none, ⟨7, false⟩⟩ ⟨false, false, false, false, 0, 0⟩) ∧
    (Instr.iAdd ⟨.v 3, .v 1, .k 1, .none, ⟨7, false⟩⟩ ⟨false, false, false, false, 0, 0⟩).laneRaw.isSome = true ∧
    (Instr.clauseHeader ⟨1, none, none, 7, false⟩).wf = true := by decide

theorem witness_MemOkKept : tTurn.memOk ∧ ∃ t, step tTurn = .next t := ⟨(by decide : Memory.wf tTurn.mem = true), next_of (by decide)⟩

theorem witness_LaneFormsComplete : (tTwo [1, 2] [3, 4]).Ready 7 (tGroup [0, 1]) tOps {} := ready_of (by decide)

theorem witness_IntegerForms : (tTwo [1, 2] [3, 4]).Ready 7 (tGroup [0, 1]) tOps ⟨2, 2, 2, 1, false, []⟩ :=
  ready_of (by decide)

theorem witness_Products : (tTwo [1, 2] [3, 4]).Ready 7 (tGroup [0, 1]) tOps ⟨2, 1, 1, 2, false, []⟩ ∧
    (tTwo [1, 2] [3, 4]).Ready 7 (tGroup [0, 1]) tOps {} := ⟨ready_of (by decide), ready_of (by decide)⟩

theorem witness_LogicForms : (tTwo [1, 2] [3, 4]).Ready 7 (tGroup [0, 1]) tOps ⟨2, 2, 2, 1, false, []⟩ ∧
    (tTwo [1, 2] [3, 4]).Ready 7 (tGroup [0, 1]) { tOps with d := .p 2 } {} := ⟨ready_of (by decide), ready_of (by decide)⟩

/-- d = s4, a = s2, b = s3. -/
def tUops : UOps := ⟨.s 4, .s 2, .s 3⟩

/-- A group of one warp with s2 and s3 given. -/
def tUni (x y : Word) : State :=
  tState (tGroup [0, 1]) { tWarp [(0, tLane [1, 2]), (1, tLane [3, 4])] with s := [(2, x), (3, y)] }

theorem witness_UniformForms : (tUni 6 7).ReadyU 7 (tGroup [0, 1]) (usrcS tUops.a 1 ++ usrcS tUops.b 1) :=
  readyU_of (by decide)

theorem witness_UniformReads :
    (tUni 4 8).ReadyU 7 (tGroup [0, 1]) (usrcS tUops.a 1 ++ usrcS tUops.b 1) ∧ (tUni 4 8).threadsOk ∧
    (∀ w ∈ (tGroup [0, 1]).warpIds, ((tUni 4 8).warps.get? w).isSome = true ∧
      (usrc32 ((tUni 4 8).warp w) tUops.a + usrc32 ((tUni 4 8).warp w) tUops.b).toNat % 4 = 0) ∧
    (tUni 4 8).Ready 7 (tGroup [0, 1]) ⟨.s 4, .v 1, .lit 1, .none, ⟨7, false⟩⟩ {} ∧
    (∀ x ∈ (tUni 4 8).execs (tGroup [0, 1]) ⟨7, false⟩, ∀ r ∈ srcV (.v 1) 1, r ∉ ((tUni 4 8).lane x.1 x.2).vBad) ∧
    (src32 ((tUni 4 8).warp 3) {} (.lit 1)).toNat % 32 = 1 ∧ (3, 1) ∈ (tUni 4 8).execs (tGroup [0, 1]) ⟨7, false⟩ ∧
    (tGroup [0, 1]).lanesOf 3 = [] ++ 0 :: [1] :=
  ⟨readyU_of (by decide), threads_of (by decide), by decide, ready_of (by decide), by decide, by decide, by decide, by decide⟩

theorem tTwo_threads : (tTwo [1, 2] [3, 4]).threadsOk := threads_of (by decide)

theorem witness_SpecialRegisters : (tTwo [1, 2] [3, 4]).Ready 7 (tGroup [0, 1]) { tOps with a := .none, b := .none } ⟨2, 1, 1, 1, false, []⟩ ∧
    (tTwo [1, 2] [3, 4]).threadsOk ∧ (tTwo [1, 2] [3, 4]).Stands (tGroup [0, 1]) :=
  ⟨ready_of (by decide), tTwo_threads, by decide, by decide⟩

/-! ## Control transfers -/

theorem witness_BranchesComplete : (tTwo [0x3000] [0x4000]).Stands (tGroup [0, 1]) ∧
    (tTwo [0x3000] [0x4000]).current = some (7, tGroup [0, 1]) ∧
    (tTwo [0x3000] [0x4000]).Ready 7 (tGroup [0, 1]) tOps ⟨1, 2, 1, 1, false, []⟩ ∧
    (∀ x ∈ (tTwo [0x3000] [0x4000]).execThreads (tGroup [0, 1]) tOps.pr,
      src64 ((tTwo [0x3000] [0x4000]).warp x.1) ((tTwo [0x3000] [0x4000]).lane x.1 x.2) tOps.a &&& 3 = 0) ∧
    (∀ x ∈ (tGroup [0, 1]).lanes, (tTwo [0x3000] [0x4000]).isLive x = true →
      ∀ r ∈ predReads ⟨1, true⟩, r ∉ ((tTwo [0x3000] [0x4000]).lane x.1 x.2).vBad) ∧
    (tTwo [0x3000] [0x4000]).ReadyU 7 (tGroup [0, 1]) [4] ∧ (tTwo [0x3000] [0x4000]).threadsOk :=
  ⟨⟨by decide, by decide⟩, by decide, ready_of (by decide), by decide, by decide, readyU_of (by decide), threads_of (by decide)⟩

/-- Lanes in a call, with one entry to return to. -/
def tCalled : State :=
  let l : Lane := { tLane [0x3000] with depth := 2, stack := [⟨0x5000, 0⟩] }
  tState (tGroup [0, 1]) (tWarp [(0, l), (1, l)])

theorem witness_CallsAndReturns : tCalled.Stands (tGroup [0, 1]) ∧ (tGroup [0, 1]).park = .run ∧ (tGroup [0, 1]).pc &&& 3 = 0 ∧
    (∀ x ∈ tCalled.execs (tGroup [0, 1]) tOps.pr, (tCalled.lane x.1 x.2).stack.length < 16 ∧
      (tCalled.lane x.1 x.2).depth < 65535 ∧ src64 (tCalled.warp x.1) (tCalled.lane x.1 x.2) tOps.a &&& 3 = 0) ∧
    tCalled.current = some (7, tGroup [0, 1]) ∧ tCalled.Ready 7 (tGroup [0, 1]) tOps ⟨1, 2, 1, 1, false, []⟩ ∧
    tCalled.Ready 7 (tGroup [0, 1]) tOps {} ∧ (tGroup [0, 1]).memo.bad = [] ∧
    (∀ x ∈ (tGroup [0, 1]).lanes, tCalled.exec? tOps.pr x = true ∧ (tCalled.lane x.1 x.2).depth ≠ 0 ∧
      (∀ c ∈ (tCalled.lane x.1 x.2).slots, c.depth ≠ (tCalled.lane x.1 x.2).depth) ∧
      (tCalled.lane x.1 x.2).stack = [⟨0x5000, 0⟩] ∧ (0x5000 : DWord) &&& 3 = 0) :=
  ⟨⟨by decide, by decide⟩, by decide, by decide, by decide, by decide, ready_of (by decide), ready_of (by decide),
    by decide, by decide⟩

theorem witness_YieldsAndExits : (tTwo [5] [0]).Ready 7 (tGroup [0, 1]) tOps {} ∧ (tTwo [5] [0]).Stands (tGroup [0, 1]) ∧
    ∀ w ∈ (tGroup [0, 1]).warpIds, (tTwo [5] [0]).parkedHelpers w = [] :=
  ⟨ready_of (by decide), ⟨by decide, by decide⟩, by decide⟩

/-- A lane that naps, one that has yielded, and one that has been runnable for long. -/
def tWaits : State :=
  { tState (tGroup []) (tWarp [(0, { tLane [] with entry := .napping 50 }), (1, { tLane [] with entry := .yielded 900 }),
      (2, { tLane [] with entry := .runnable, since := 10 })]) with groups := [], focus := .none, clock := 2000, time := 60 }

theorem witness_YieldsAndExits_events : (tWaits.lane 3 0).entry = .napping 50 ∧ 50 ≤ tWaits.timeAt (tWaits.warp 3).core ∧
    (tWaits.lane 3 1).entry = .yielded 900 ∧ 900 ≤ tWaits.clock ∧ (tWaits.lane 3 2).entry = .runnable ∧
    (tWaits.lane 3 2).promoted = false ∧ (tWaits.lane 3 2).since + 1024 < tWaits.clock := by decide

/-! ## Traps -/

/-- Warp 3 with lanes 0 and 1 in group 7, in a handler at the clause 0x1000, and lane 2 elsewhere. -/
def tHandler : State :=
  let gr : Group := { tGroup [0, 1] with handler := true }
  let W := tWarp [(0, { tLane [0x8000, 0, 1, 0] with handler := true }), (1, { tLane [0x8000, 0, 1, 0] with handler := true }),
    (2, { tLane [] with entry := .runnable, pc := 0x3000 })]
  { tState gr { W with tpc := 0x3000, tch := 0x3000, tlm := 3, tcs := 0x16 } with
    ctxs := [(1, { status := .bound 0, qcount := 2, qtb := 0x20000, mgmt := true, tvb := 0x7000 })],
    tlb := [⟨1, 3, 0, 0x01⟩, ⟨1, 2, 0, 0x1F⟩, ⟨1, 0, 9, 0x9007⟩] }

def tHgroup : Group := { tGroup [0, 1] with handler := true }

theorem tHandler_team : tHandler.Team 7 tHgroup 3 [0, 1] ⟨7, false⟩ := team_of (by decide) (threads_of (by decide))

def tTrap : Trap := { code := 0x15, info := 4, tpc := 0x1004, tch := 0x1000, tad := 0x77, lanes := [0, 1] }

theorem witness_TrapsTaken :
    ((tTwo [1, 2] [3, 4]).warps.get? 3 = some (tWarp [(0, tLane [1, 2]), (1, tLane [3, 4])]) ∧
      (tTwo [1, 2] [3, 4]).threadsOk ∧ (tTwo [1, 2] [3, 4]).holdsTraps 3 = false ∧ tTrap.lanes.Nodup ∧
      ∀ l ∈ tTrap.lanes, ((tTwo [1, 2] [3, 4]).lane 3 l).life = .live) ∧
    ((tHandler.warps.get? 3).isSome = true ∧ tHandler.threadsOk ∧ tHandler.holdsTraps 3 = true ∧ [2].Nodup ∧
      ∀ l ∈ [2], (tHandler.lane 3 l).life = .live ∧ (tHandler.lane 3 l).handler = false) :=
  ⟨⟨by decide, tTwo_threads, by decide, by decide, by decide⟩, by decide, tHandler_team.forms, by decide, by decide, by decide⟩

theorem tTwo_team : (tTwo [1, 2] [3, 4]).Team 7 (tGroup [0, 1]) 3 [0, 1] ⟨7, false⟩ := team_of (by decide) tTwo_threads

theorem witness_SoftTrapsTaken : (tTwo [1, 2] [3, 4]).Ready 7 (tGroup [0, 1]) tOps {} ∧
    (tTwo [1, 2] [3, 4]).Team 7 (tGroup [0, 1]) 3 [0, 1] tOps.pr ∧ (tTwo [1, 2] [3, 4]).holdsTraps 3 = false :=
  ⟨ready_of (by decide), tTwo_team, by decide⟩

theorem witness_PrivilegedForms : (tTwo [1, 2] [3, 4]).Ready 7 (tGroup [0, 1]) tOps {} ∧
    (tTwo [1, 2] [3, 4]).Ready 7 (tGroup [0, 1]) tOps ⟨2, 1, 1, 1, false, []⟩ ∧
    (tTwo [1, 2] [3, 4]).Ready 7 (tGroup [0, 1]) tOps ⟨1, 2, 1, 1, false, []⟩ ∧
    (tTwo [1, 2] [3, 4]).Team 7 (tGroup [0, 1]) 3 [0, 1] tOps.pr ∧ (tGroup [0, 1]).handler = false ∧
    (tTwo [1, 2] [3, 4]).holdsTraps 3 = false :=
  ⟨ready_of (by decide), ready_of (by decide), ready_of (by decide), tTwo_team, by decide, by decide⟩

theorem witness_HandlersEnd : tHandler.Ready 7 tHgroup tOps {} ∧ tHandler.Team 7 tHgroup 3 [0, 1] tOps.pr ∧
    tHgroup.handler = true ∧ tHgroup.park = .run ∧ (tHandler.warp 3).tpc = (tHandler.warp 3).tch ∧
    (tHandler.warp 3).pending = [] ∧ (tHandler.warp 3).lsecc = none ∧ (∀ x ∈ (tHandler.warp 3).lanes, x.2.life ≠ .helper) ∧
    (tHandler.core tHgroup.core).onhalt = false ∧ tHandler.cores.sorted = true :=
  ⟨ready_of (by decide), tHandler_team, by decide⟩

theorem witness_SystemRegisters : tHandler.Ready 7 tHgroup tOps ⟨2, 1, 1, 1, false, []⟩ ∧ tHandler.Team 7 tHgroup 3 [0, 1] tOps.pr ∧
    tHgroup.handler = true ∧ tHandler.Ready 7 tHgroup tOps ⟨1, 2, 1, 1, false, []⟩ ∧ (tHandler.warp 3).tsv.sorted = true ∧
    (tHandler.ctxs.get? (tHandler.block (tHandler.warp 3).block).ctx).isSome = true ∧
    (tHandler.ctx (tHandler.block (tHandler.warp 3).block).ctx).mgmt = true ∧ tHandler.weir.sorted = true :=
  ⟨ready_of (by decide), tHandler_team, by decide, ready_of (by decide), by decide⟩

/-- A shootdown of group 7 with nothing left to wait for. -/
def tShoot : State :=
  { tHandler with shoots := [(5, { ctx := 1, all := false, lo := 9, n := 1, domain := false, group := 7, ops := [], cmds := [] })] }

theorem witness_Shootdowns : tHandler.Ready 7 tHgroup tOps ⟨1, 2, 1, 1, false, []⟩ ∧ tHandler.Team 7 tHgroup 3 [0, 1] tOps.pr ∧
    tHgroup.handler = true ∧ tHgroup.memo.passed = false ∧ (tShoot.shoots.get? 5).isSome = true ∧
    (∀ d, tShoot.shoots.get? 5 = some d → tShoot.shootDone 5 d = true ∧ d.origin = none) ∧ tShoot.shoots.del 5 = [] ∧
    tShoot.groups.get? 7 = some tHgroup := by
  refine ⟨ready_of (by decide), tHandler_team, by decide, by decide, by decide, ?_, by decide, by decide⟩
  rintro d h
  obtain rfl : _ = d := Option.some.inj h
  decide

/-- Two shootdowns of group 7, and one begun for chip 1. -/
def tShoots : State :=
  let d : Shootdown := { ctx := 1, all := false, lo := 9, n := 1, domain := false, group := 7, ops := [], cmds := [] }
  { tShoot with shoots := [(5, d), (6, d), (8, { d with origin := some (1, 3) })] }

theorem witness_Shootdowns_more : (∀ e ∈ tShoots.shoots, tShoots.shootDone e.1 e.2 = true) ∧
    ((tShoots.shoots.get? 5).map fun d => (d.group, d.origin)) = some (7, none) ∧
    (tShoots.shoots.del 5).any (fun e => e.2.group == 7 && e.2.origin == none) = true ∧
    ((tShoots.shoots.get? 8).map fun d => d.origin) = some (some (1, 3)) := by decide

/-- A walk at level 2 that reads the entry at 0x30000, with the entry given. -/
def tWalk (e : DWord) : State :=
  { tOne [] with
    walks := [(4, { ctx := 1, va := 0x1000000000, need := { rd := true }, lvl := 2, table := 0x30000 })],
    mem := memWrite [] 0x30008 8 e.toNat }

theorem witness_WalkReads :
    (tWalk 0).walks.get? 4 = some { ctx := 1, va := 0x1000000000, need := { rd := true }, lvl := 2, table := 0x30000 } ∧
    0x30000 + 8 * (vIndex 2 0x1000000000 % 4096) = 0x30008 ∧ (tWalk 0).ownPa 0x30008 = true ∧
    ((tWalk 0x100000001F).unasked.devRead 0x30008 8).1.need = [] ∧
    ((tWalk 0x100000001F).unasked.devRead 0x30008 8).2 = (0x100000001F : DWord).toNat ∧ entryOk 0 2 0x100000001F = true ∧
    eCt 0x100000001F = false ∧ eLeaf 0x100000001F = true ∧ permits { rd := true } 0x100000001F = true ∧
    (tWalk 0x100000001F).leafFault { rd := true } (leafPa 2 0x100000001F 0x1000000000) = none ∧ (tWalk 0x100000001F).threadsOk :=
  ⟨by decide, by decide, by decide, by decide, by decide, by decide, by decide, by decide, by decide, by decide,
    threads_of (by decide)⟩

theorem witness_WalkReads_table : ((tWalk 0x48001).unasked.devRead 0x30008 8).2 = (0x48001 : DWord).toNat ∧
    entryOk 0 2 0x48001 = true ∧ eCt 0x48001 = false ∧ eLeaf 0x48001 = false :=
  ⟨by decide, by decide, by decide, by decide⟩

theorem witness_WalkReads_reserved : ((tWalk 0).unasked.devRead 0x30008 8).2 = (0 : DWord).toNat ∧ entryOk 0 2 0 = false ∧
    ((tWalk 0x100000001F).unasked.devRead 0x30008 8).2 = (0x100000001F : DWord).toNat ∧ permits { wr := true } 0x1000000017 = false ∧
    entryOk 0 2 0x1000000017 = true ∧ ∀ e ∈ ((tWalk 0).warp 3).lanes, e.2.entry ≠ .fetching 4 :=
  ⟨by decide, by decide, by decide, by decide, by decide, by decide⟩

/-! ## Clauses and meetings -/

/-- The sub-core's turn to start the clause of `tForm`, with lane 1 flag-blocked beside it. -/
def tStart : State := { tForm with agenda := [], focus := .sub 0 0 }

theorem witness_HeaderStarts : tStart.threadsOk ∧ tStart.focus = .sub 0 0 ∧
    tStart.formation 0 0 = some (1, 0x2000, false, [(3, 0)]) ∧
    (tStart.fetch 0 (tStart.block 1).ctx (tStart.oldCode [(3, 0)]) (0x2000 + 4) (hdrLen ⟨0, none, none, 1, false⟩)).2 = .words [0x020603E2] ∧
    (∃ x ∈ [(3, 0)], (tStart.warp x.1).passes 0 = true) ∧
    ∀ x ∈ [(3, 0)], ({ tStart.warp x.1 with flags := [(0, 1)] } : Warp).passes 1 = false :=
  ⟨threads_of (by decide), rfl, by decide, by decide, by decide, by decide⟩

/-- Work 4 of warp 3 that is done with, attached to flag 2. -/
def tWork : State :=
  let s := tTwo [1, 2] [3, 4]
  { s with warps := [(3, { s.warp 3 with flags := [(2, 3)] })], works := [(4, { warp := 3, flag := some 2, left := 0 })] }

theorem witness_FlagReleased : tWork.works.get? 4 = some { warp := 3, flag := some 2, left := 0 } ∧
    tWork.warps.get? 3 = some (tWork.warp 3) ∧ tWork.threadsOk ∧ AMap.sorted (tWork.warp 3).flags = true :=
  ⟨by decide, by decide, threads_of (by decide), by decide⟩

/-- Both lanes hold the mask 3 in v3 and v5. -/
def tMeet : State := tTwo [1, 0, 3, 0, 3] [2, 0, 3, 0, 3]

theorem tMeet_team : tMeet.Team 7 (tGroup [0, 1]) 3 [0, 1] ⟨7, false⟩ := team_of (by decide) (threads_of (by decide))

theorem tMeet_meets (wds : Widths) (h : tMeet.Ready 7 (tGroup [0, 1]) tOps wds) :
    tMeet.Meets 7 (tGroup [0, 1]) tOps wds 3 [0, 1] :=
  ⟨h, tMeet_team, by decide, by decide, by decide, by decide, fun _ => List.not_mem_nil⟩

theorem witness_MeetingsComplete : tMeet.Meets 7 (tGroup [0, 1]) tOps {} 3 [0, 1] ∧
    (∀ l ∈ [0, 1], src32 (tMeet.warp 3) (tMeet.lane 3 l) tOps.b = laneMask [0, 1]) ∧
    tMeet.Meets 7 (tGroup [0, 1]) tOps ⟨2, 2, 1, 1, false, []⟩ 3 [0, 1] ∧
    (∀ l ∈ [0, 1], src32 (tMeet.warp 3) (tMeet.lane 3 l) tOps.c = laneMask [0, 1]) ∧
    tMeet.Meets 7 (tGroup [0, 1]) tOps { ps := [2] } 3 [0, 1] ∧
    ∀ l ∈ [0, 1], ∀ j ∈ List.range 32, j / 4 = l / 4 →
      (tMeet.isLive (3, j) = true → j ∈ [0, 1]) ∧
        ∀ r ∈ srcV tOps.a 1, r ∉ (tMeet.lane 3 j).vBad ∧ r ∉ tMeet.pendingV 3 j :=
  ⟨tMeet_meets _ (ready_of (by decide)), by decide, tMeet_meets _ (ready_of (by decide)), by decide,
    tMeet_meets _ (ready_of (by decide)), by decide⟩

theorem witness_BarriersComplete : (tTwo [0, 0, 2] [0, 0, 2]).Ready 7 (tGroup [0, 1]) tOps {} ∧
    (tTwo [0, 0, 2] [0, 0, 2]).Team 7 (tGroup [0, 1]) 3 [0, 1] tOps.pr ∧ (tGroup [0, 1]).memo = {} ∧
    (tTwo [0, 0, 2] [0, 0, 2]).blocks.get? 1 = some tBlock ∧ (tTwo [0, 0, 2] [0, 0, 2]).fencedCore (tGroup [0, 1]).lanes = true ∧
    tBlock.bars = [] ∧ (∀ e ∈ (tTwo [0, 0, 2] [0, 0, 2]).groups, e.1 ≠ 7 → e.2.park ≠ .barrier 0) ∧
    (∀ l ∈ [0, 1], (src32 ((tTwo [0, 0, 2] [0, 0, 2]).warp 3) ((tTwo [0, 0, 2] [0, 0, 2]).lane 3 l) tOps.b).toNat = 2) ∧
    (∀ l ∈ [0, 1], src32 ((tTwo [0] [0]).warp 3) ((tTwo [0] [0]).lane 3 l) tOps.b = 0) ∧
    (∀ x ∈ (tTwo [0] [0]).liveOf 1, x ∈ (tGroup [0, 1]).lanes) ∧ (tTwo [0] [0]).cbars = [] ∧
    (tTwo [0] [0]).clusterOf 2 0 = [1] ∧ (∀ e ∈ (tTwo [0] [0]).caches, e.2.st ≠ .u) ∧
    (tTwo [0] [0]).fencedWide 0 (tGroup [0, 1]).lanes ((tTwo [0] [0]).pushedBy 0) = true :=
  ⟨ready_of (by decide), team_of (by decide) (threads_of (by decide)), by decide⟩

/-! ## Global accesses -/

/-- Group 7 with its lanes' colours known to be 0. -/
def tClear (ls : List Nat) : Group := { tGroup ls with memo := { colours := ls.map fun l => (96 + l, 0) } }

/-- Lanes that address 0x8000 and 0x9000. -/
def tAcc : State :=
  tState (tClear [0, 1]) (tWarp [(0, tLane [0x8000, 0, 4, 0, 7]), (1, tLane [0x9000, 0, 4, 0, 9])])

theorem tAcc_team : tAcc.Team 7 (tClear [0, 1]) 3 [0, 1] ⟨7, false⟩ := team_of (by decide) (threads_of (by decide))

theorem tAcc_open (need : Need) (h : need ∈ [({ rd := true } : Need), { wr := true }, { rd := true, wr := true }]) :
    ∀ x ∈ tAcc.execThreads (tClear [0, 1]) tOps.pr,
      tAcc.Open (tClear [0, 1]) 4 ⟨x.1, x.2, wAddr tAcc tOps x, need⟩ (if x.2 = 0 then 0x8004 else 0x9004) ∧
        tAcc.cline? 0 ((if x.2 = 0 then 0x8004 else 0x9004) / 128) = none := by
  have hx : tAcc.execThreads (tClear [0, 1]) tOps.pr = [(3, 0), (3, 1)] := by decide
  rw [hx]
  simp only [List.mem_cons, List.not_mem_nil, or_false] at h
  intro x hm
  simp only [List.mem_cons, List.not_mem_nil, or_false] at hm
  rcases h with rfl | rfl | rfl <;> rcases hm with rfl | rfl <;> exact ⟨open_of (by decide), by decide⟩

theorem witness_AccessesComplete :
    accessForm (.ldB32 tOps ⟨.own, true⟩) = some (loadAs .b32 tOps ⟨.own, true⟩) ∧
    accessForm (.stB32 tOps ⟨.thru, false⟩) = some (storeAs .b32 tOps ⟨.thru, false⟩) ∧
    tAcc.Ready 7 (tClear [0, 1]) tOps ⟨1, 2, 1, 1, false, []⟩ ∧ tAcc.threadsOk ∧ AMap.sorted tAcc.ops = true ∧
    (tClear [0, 1]).park = .run ∧ tAcc.execHelpers (tClear [0, 1]) tOps.pr = [] ∧ tAcc.uncoloured (tClear [0, 1]) tOps.pr ∧
    Group.flagFull tAcc (tClear [0, 1]) true = false ∧ Group.flagFull tAcc (tClear [0, 1]) false = false ∧
    (∀ need ∈ [({ rd := true } : Need), { wr := true }, { rd := true, wr := true }],
      ∀ x ∈ tAcc.execThreads (tClear [0, 1]) tOps.pr,
        tAcc.Open (tClear [0, 1]) 4 ⟨x.1, x.2, wAddr tAcc tOps x, need⟩ (if x.2 = 0 then 0x8004 else 0x9004) ∧
          tAcc.cline? 0 ((if x.2 = 0 then 0x8004 else 0x9004) / 128) = none) :=
  ⟨rfl, rfl, ready_of (by decide), tAcc_team.forms, by decide, by decide, by decide, ⟨by decide, .inr (by decide)⟩,
    by decide, by decide, fun need h => tAcc_open need h⟩

/-- Lane 0 addresses 0x8004, and lane 1 an address with high bits, one that is not aligned, or one in the read-only page 1. -/
def tFaultAcc (ys : List Word) : State := tTwo [0x8000, 0, 4, 0, 7] ys

theorem witness_AccessesComplete_fault :
    (∀ ys ∈ ([[0x9000, 0x10000000, 4], [0x9001, 0, 4], [0x1000, 0, 4]] : List (List Word)), let s := tFaultAcc ys;
      s.Ready 7 (tGroup [0, 1]) tOps ⟨1, 2, 1, 1, false, []⟩ ∧ s.Team 7 (tGroup [0, 1]) 3 ([0] ++ 1 :: []) tOps.pr ∧
      s.holdsTraps 3 = false ∧ (∀ j ∈ [0, 1], (s.resolve [] 1 4 ⟨3, j, wAddr s tOps (3, j), { wr := true }⟩ matches .walk _ _ _) = false) ∧
      ∀ j ∈ [0], s.Open (tGroup [0, 1]) 4 ⟨3, j, wAddr s tOps (3, j), { wr := true }⟩ 0x8004) ∧
    (tGroup [0, 1]).park = .run ∧ (tGroup [0, 1]).memo = {} ∧
    (wAddr (tFaultAcc [0x9000, 0x10000000, 4]) tOps (3, 1)).toNat / 2 ^ 60 ≠ 0 ∧
    (wAddr (tFaultAcc [0x9001, 0, 4]) tOps (3, 1)).toNat % 4 ≠ 0 ∧
    (tFaultAcc [0x1000, 0, 4]).resolve [] 1 4 ⟨3, 1, wAddr (tFaultAcc [0x1000, 0, 4]) tOps (3, 1), { wr := true }⟩ = .fault .prot := by
  refine ⟨?_, by decide, by decide, by decide, by decide, by decide⟩
  intro ys hy
  have hy : ys = [0x9000, 0x10000000, 4] ∨ ys = [0x9001, 0, 4] ∨ ys = [0x1000, 0, 4] := by simpa using hy
  rcases hy with rfl | rfl | rfl <;>
    exact ⟨ready_of (by decide), team_of (by decide) (threads_of (by decide)), by decide, by decide, fun j hj => by
      obtain rfl := List.mem_singleton.1 hj; exact open_of (by decide)⟩

/-- The block is deterministic, with room for ordered records. -/
def tDet : State := { tAcc with blocks := [(1, { tBlock with det := true, ordBase := 0x10000, ordSize := 4096 })] }

theorem witness_OrderedReductions : tDet.Ready 7 (tClear [0, 1]) tOps ⟨1, 2, 1, 1, false, []⟩ ∧
    tDet.Team 7 (tClear [0, 1]) 3 [0, 1] tOps.pr ∧ (tClear [0, 1]).park = .run ∧ (tDet.blocks.get? 1).isSome = true ∧
    AMap.sorted tDet.blocks = true ∧ (tDet.block 1).det = true ∧ tDet.uncoloured (tClear [0, 1]) tOps.pr ∧
    16 * ((tDet.block 1).ords.length + 2) ≤ (tDet.block 1).ordSize ∧
    (∀ j ∈ [0, 1], tDet.Open (tClear [0, 1]) 4 ⟨3, j, (tDet.block 1).ordAddr ((tDet.block 1).ords.length + j), { wr := true }⟩
      (0x10000 + 16 * j) ∧ (0x10000 + 16 * j) % 16 = 0) ∧
    (∀ l ∈ [0, 1], tDet.Open (tClear [0, 1]) 4 ⟨3, l, wAddr tDet tOps (3, l), (Act.rd .add false).need⟩
      (if l = 0 then 0x8004 else 0x9004)) ∧
    tAcc.Ready 7 (tClear [0, 1]) tOps ⟨1, 2, 1, 1, false, []⟩ ∧ tAcc.Team 7 (tClear [0, 1]) 3 [0, 1] tOps.pr ∧
    (tAcc.block 1).det = false ∧ tAcc.holdsTraps 3 = false ∧ (tClear [0, 1]).handler = false := by
  refine ⟨ready_of (by decide), team_of (by decide) (threads_of (by decide)), by decide, by decide, by decide, by decide,
    ⟨by decide, .inr (by decide)⟩, by decide, ?_, ?_, ready_of (by decide), tAcc_team, by decide, by decide, by decide⟩ <;>
    (intro l hl; simp only [List.mem_cons, List.not_mem_nil, or_false] at hl)
  · rcases hl with rfl | rfl <;> exact ⟨open_of (by decide), by decide⟩
  · rcases hl with rfl | rfl <;> exact open_of (by decide)

/-- Group 7 waits at a fence for its lanes' work, of which nothing is left. -/
def tFence (sc : Scope) : State := tState { tGroup [0, 1] with park := .fence sc, memo := { who := [(3, 0), (3, 1)] } }
  (tWarp [(0, tLane [1]), (1, tLane [2])])

theorem witness_FencesComplete : (tTwo [1, 2] [3, 4]).Ready 7 (tGroup [0, 1]) tOps {} ∧ (tTwo [1, 2] [3, 4]).threadsOk ∧
    (tGroup [0, 1]).memo.fenced = false ∧ (tTwo [1, 2] [3, 4]).execThreads (tGroup [0, 1]) tOps.pr ≠ [] ∧
    AMap.sorted (tTwo [1, 2] [3, 4]).caches = true ∧
    (∃ gr, (tFence .die).groups.get? 7 = some gr ∧ gr.park = .fence .die ∧ (tFence .die).threadsOk ∧
      (∀ e ∈ (tFence .die).ops, gr.memo.who.contains (e.2.warp, e.2.lane) = false) ∧
      (∀ e ∈ (tFence .die).cmds, gr.memo.who.any (fun x => x.1 == e.2.warp) = false ∨ e.2.want = []) ∧
      (tFence .die).remotes = [] ∧ (tFence .die).spills = [] ∧ (tFence .die).partialOf gr.memo.who.contains = false ∧
      (∀ k ∈ gr.memo.pushes, (tFence .die).foldedIn k = true) ∧
      ∀ x ∈ gr.memo.who, ((tFence .die).warp x.1).gwct ≤ (tFence .die).timeAt gr.core) :=
  ⟨ready_of (by decide), tTwo_threads, by decide, by decide, by decide, _, rfl, by decide, threads_of (by decide), by decide, by decide,
    by decide, by decide, by decide, by decide, by decide⟩

/-- A group past its fence, or with no lane that executes. -/
theorem witness_FencesComplete_passed :
    (tState { tGroup [0, 1] with memo := { fenced := true } } (tWarp [(0, tLane [1]), (1, tLane [2])])).Ready 7
      { tGroup [0, 1] with memo := { fenced := true } } tOps {} := ready_of (by decide)

/-- Lanes that name 256 bytes at 0x8000 and 8 at 0x9040, held as a dirty and a tracked line. -/
def tRange : State :=
  { tTwo [0x8000, 0, 256] [0x9040, 0, 8] with
    caches := [(ckey 0 0x100, { st := .m, dirty := [1], data := [(4, 9)] }), (ckey 0 0x120, { st := .t })] }

theorem witness_RangeForms : tRange.Ready 7 (tGroup [0, 1]) tOps ⟨1, 2, 1, 1, false, []⟩ ∧
    tRange.Team 7 (tGroup [0, 1]) 3 [0, 1] tOps.pr ∧ (tGroup [0, 1]).park = .run ∧
    Group.flagFull tRange (tGroup [0, 1]) true = false ∧ AMap.sorted tRange.caches = true ∧ AMap.sorted tRange.ops = true ∧
    (∀ l ∈ [0, 1],
      let va := src64 (tRange.warp 3) (tRange.lane 3 l) tOps.a
      let len := (src32 (tRange.warp 3) (tRange.lane 3 l) tOps.b).toNat
      let p := if l = 0 then 0x8000 else 0x9040
      len ≠ 0 ∧ va.toNat % 4096 + len ≤ 4096 ∧ tRange.resolve [] 1 1 ⟨3, l, va, { rd := true }⟩ = .pa p ∧
        tRange.ownPa p = true ∧ ∀ line ∈ [0x100, 0x101, 0x120], tRange.lineBusy 0 line = false) ∧
    (∀ a p, (tGroup [0, 1]).keptAt a p) ∧
    (∀ line ∈ [0x100, 0x101, 0x120], (tTwo [0x8000, 0, 256] [0x9040, 0, 8]).cline? 0 line = none) :=
  ⟨ready_of (by decide), team_of (by decide) (threads_of (by decide)), by decide, by decide, by decide, by decide, by decide,
    kept_of rfl, by decide⟩

/-! ## Lines and their homes -/

theorem idle_of {s : State} {id : Nat} {m : Msg}
    (h : (s.msgs.get? id = some m ∧ s.deliverable id m = true) ∧
      (s.remoteChip m.line = none ∧ isHostLine m.line = false ∧ m.dst = homeOf m.line) ∧
      ((s.hline m.line).busy = none ∧ (s.hline m.line).queue = [] ∧ (s.hline m.line).pkg = .i) ∧
      ((s.hline m.line).st = 0 ∧ (s.hline m.line).hs = false) ∧
      (weirEn (s.weirOf m.cls) = false ∧ (s.slice (m.dst - 1000)).port = []) ∧
      AMap.sorted s.msgs = true ∧ AMap.sorted s.lines = true ∧ AMap.sorted s.slices = true ∧ AMap.sorted s.ops = true)
    (f : s.threadsOk) : s.Idle id m :=
  ⟨h.1.1, h.1.2, h.2.1, h.2.2.1, h.2.2.2.1, h.2.2.2.2.1, h.2.2.2.2.2.1, h.2.2.2.2.2.2.1, h.2.2.2.2.2.2.2.1,
    h.2.2.2.2.2.2.2.2, f⟩

/-- Access 9: what lane 0 of warp 3 does to the word at 0x8004. -/
def tOp (act : Act) : Op :=
  { work := 4, warp := 3, lane := 0, core := 0, agent := 0, ctx := 1, act, pol := .own, pa := 0x8004, len := 4, val := 0x55,
    dst := none }

/-- Message 5 from core 0 to the home of line 0x100. -/
def tMsg (b : Body) : Msg := { src := 0, dst := homeOf 0x100, line := 0x100, body := b }

def tHome (act : Act) (b : Body) : State :=
  { tTwo [1, 2] [3, 4] with
    ops := [(9, tOp act)], works := [(4, { warp := 3, flag := none, left := 1 })], msgs := [(5, tMsg b)],
    mem := [(0x8004, 0x11)], time := 5000 }

theorem tHome_threads (act : Act) (b : Body) : (tHome act b).threadsOk := tTwo_threads

theorem witness_HomeReads : (tHome (.ld false) (.own (some 9))).Idle 5 (tMsg (.own (some 9))) ∧
    (tHome (.ld false) (.thruRd 9)).Idle 5 (tMsg (.thruRd 9)) ∧
    (tHome (.ld false) (.leaseReq 9 64)).Idle 5 (tMsg (.leaseReq 9 64)) ∧
    (tHome (.ld false) (.trackReq 9)).Idle 5 (tMsg (.trackReq 9)) ∧ (tHome (.ld false) (.rdLoc 9)).Idle 5 (tMsg (.rdLoc 9)) ∧
    (tHome (.ld false) (.colourQ 7 96)).Idle 5 (tMsg (.colourQ 7 96)) ∧
    (tHome (.ld false) (.thruRd 9)).ops.get? 9 = some (tOp (.ld false)) ∧
    (tHome (.ld false) (.thruRd 9)).sync.lock = false ∧
    (tHome (.ld false) (.colourQ 7 96)).groups.get? 7 = some (tGroup [0, 1]) ∧
    AMap.sorted (tGroup [0, 1]).memo.colours = true :=
  ⟨idle_of (by decide) (tHome_threads _ _), idle_of (by decide) (tHome_threads _ _), idle_of (by decide) (tHome_threads _ _), idle_of (by decide) (tHome_threads _ _),
    idle_of (by decide) (tHome_threads _ _), idle_of (by decide) (tHome_threads _ _), by decide, by decide, by decide, by decide⟩

/-- The same with the time locked. -/
theorem witness_HomeReads_lease :
    { tHome (.ld false) (.leaseReq 9 64) with sync := { lock := true } }.Idle 5 (tMsg (.leaseReq 9 64)) ∧
    { tHome (.ld false) (.leaseReq 9 64) with sync := { lock := true } }.sync.lock = true :=
  ⟨idle_of (by decide) (threads_of (by decide)), rfl⟩

theorem witness_HomeWrites : (tHome .st (.write 9 64)).Idle 5 (tMsg (.write 9 64)) ∧ (tHome .st (.write 9 64)).memOk ∧
    (tHome .st (.write 9 64)).ops.get? 9 = some (tOp .st) ∧ (tOp .st).len = 4 ∧ (tOp .st).pol = .own ∧
    (tHome (.rd .add false) (.rdThru 9)).Idle 5 (tMsg (.rdThru 9)) ∧ (tHome (.rd .add false) (.rdThru 9)).memOk ∧
    (tHome (.rd .add false) (.rdThru 9)).ops.get? 9 = some (tOp (.rd .add false)) :=
  ⟨idle_of (by decide) (tHome_threads _ _), (by decide : Memory.wf _ = true), by decide, by decide, by decide, idle_of (by decide) (tHome_threads _ _),
    (by decide : Memory.wf _ = true), by decide⟩

/-- Stores of 1 and 2 bytes, and an atomic, at the home. -/
theorem witness_HomeWrites_more :
    (∀ n ∈ [1, 2], { tHome .st (.write 9 64) with ops := [(9, { tOp .st with len := n })] }.Idle 5 (tMsg (.write 9 64))) ∧
    (tHome (.at_ .add false) (.write 9 64)).Idle 5 (tMsg (.write 9 64)) ∧
    (tHome (.at_ .add false) (.write 9 64)).ops.get? 9 = some (tOp (.at_ .add false)) := by
  refine ⟨?_, idle_of (by decide) (tHome_threads _ _), by decide⟩
  simp only [List.mem_cons, List.not_mem_nil, or_false]
  rintro n (rfl | rfl) <;> exact idle_of (by decide) tTwo_threads

/-- Core 0 owns line 0x100, or its copy is on its way back. -/
def tHeld (b : Body) (m : Msg) : State :=
  { tTwo [1, 2] [3, 4] with
    msgs := [(5, { m with body := b })], lines := [(0x100, { inL2 := true, pkg := .o 0 })],
    caches := [(ckey 0 0x100, { st := .m, dirty := [1], data := [(4, 9)] })] }

/-- A message from line 0x100's home to core 0. -/
def tDown : Msg := { src := homeOf 0x100, dst := 0, line := 0x100, body := .ack }

theorem witness_HolderReturns :
    (let s := tHeld (.wb [1] [(4, 9)] true none) (tMsg .ack);
      s.msgs.get? 5 = some (tMsg (.wb [1] [(4, 9)] true none)) ∧ s.deliverable 5 (tMsg (.wb [1] [(4, 9)] true none)) = true ∧
        AMap.sorted s.lines = true ∧ (s.hline 0x100).pkg = .o (tMsg .ack).src) ∧
    (tHome .st (.pushed ⟨.add, false, false, [(4, 2)], [(3, 0)]⟩ true false)).Idle 5
      (tMsg (.pushed ⟨.add, false, false, [(4, 2)], [(3, 0)]⟩ true false)) ∧
    (∀ dg ∈ [true, false], let s := tHeld (.recall dg false) tDown;
      s.msgs.get? 5 = some { tDown with body := .recall dg false } ∧
        s.deliverable 5 { tDown with body := .recall dg false } = true ∧ (s.cline? 0 0x100).map (·.st) = some .m ∧
        tDown.dst < 256 ∧ tDown.src = homeOf tDown.line) ∧
    (let s := { tHeld (.recall false true) tDown with
        caches := [(ckey 0 0x100, { st := .u, partial_ := some ⟨.add, false, false, [(4, 2)], [(3, 0)]⟩ })] };
      s.msgs.get? 5 = some { tDown with body := .recall false true } ∧
        s.deliverable 5 { tDown with body := .recall false true } = true ∧
        (s.cline? 0 0x100).bind (·.partial_) = some ⟨.add, false, false, [(4, 2)], [(3, 0)]⟩) ∧
    (let s := tHeld .inval tDown;
      s.msgs.get? 5 = some { tDown with body := .inval } ∧ s.deliverable 5 { tDown with body := .inval } = true) :=
  ⟨by decide, idle_of (by decide) (tHome_threads _ _), by decide, by decide, by decide⟩

/-- Line 0x100 waits for core 0 to answer, so that core 1 may own it. -/
def tAwait : State :=
  { tTwo [1, 2] [3, 4] with
    msgs := [(4, { src := 1, dst := homeOf 0x100, line := 0x100, body := .own (some 9) }), (5, tMsg .ack)],
    lines := [(0x100, { inL2 := true, pkg := .o 0, busy := some { msg := 4, from_ := [0] } })] }

theorem witness_HolderReturns_ack : tAwait.msgs.get? 5 = some (tMsg .ack) ∧ tAwait.deliverable 5 (tMsg .ack) = true ∧
    (tAwait.hline 0x100).busy = some { msg := 4, from_ := [(tMsg .ack).src] } ∧
    (let b : Busy := { msg := 4, from_ := [0] };
      b.host = false ∧ b.chips = [] ∧ b.remote = false ∧ b.dead = false ∧ b.parts = [] ∧ b.toAsk = none ∧ b.sent = none) ∧
    tAwait.msgs.get? 4 = some { src := 1, dst := homeOf 0x100, line := 0x100, body := .own (some 9) } ∧
    tAwait.remoteChip 0x100 = none ∧ isHostLine 0x100 = false ∧ (tAwait.hline 0x100).queue = [] ∧
    AMap.sorted tAwait.msgs = true ∧ AMap.sorted tAwait.lines = true ∧ AMap.sorted tAwait.caches = true := by decide

/-- A reply to access 9. -/
def tReply (op : Op) (b : Body) : State :=
  { tTwo [1, 2] [3, 4] with
    ops := [(9, op)], works := [(4, { warp := 3, flag := none, left := 1 })], msgs := [(5, { tDown with body := b })],
    lines := [(0x100, { inL2 := true, pkg := .o 0 })] }

def tLoadOp : Op := { tOp (.ld false) with dst := some 9, dstLen := 1 }

/-- An atomic whose old value goes to v9, and a load of a signed byte. -/
def tAtOp : Op := { tOp (.at_ .add false) with dst := some 9, dstLen := 1 }

def tByteOp : Op := { tOp (.ld true) with dst := some 9, dstLen := 1, len := 1 }

theorem witness_RepliesArrive :
    (∀ x ∈ [(tLoadOp, Body.data 9 0x66 none), (tOp .st, Body.grant (some 9) true { st := .e }), (tOp .st, Body.wack 9 70 0 none),
        (tAtOp, .grant (some 9) true { st := .e }), (tAtOp, .wack 9 70 8 none), (tByteOp, .data 9 0x80 none)],
      let s := tReply x.1 x.2;
      s.msgs.get? 5 = some { tDown with body := x.2 } ∧ s.deliverable 5 { tDown with body := x.2 } = true ∧
        s.ops.get? 9 = some x.1 ∧ s.warps.get? x.1.warp = some (s.warp 3) ∧ AMap.sorted s.caches = true ∧ x.1.hold = none ∧
        x.1.spill = none ∧ x.1.chain = [] ∧ x.1.agent = tDown.dst ∧ x.1.pol = .own ∧ x.1.stage = .waiting ∧
        x.1.pa / 128 = tDown.line ∧ AMap.sorted s.ops = true ∧ (s.hline 0x100).pkg = .o tDown.dst ∧
        ∀ e ∈ s.ops, ¬e.1 < 9) ∧ (0x80 : DWord).toNat < 2 ^ (8 * tByteOp.len) ∧
    tLoadOp.act = .ld false ∧ tLoadOp.dst = some 9 ∧ (tOp .st).act = .st ∧ (tOp .st).dst = none ∧
    (tReply tLoadOp .ack).threadsOk := ⟨by decide, by decide, by decide, by decide, by decide, by decide, tTwo_threads⟩

/-- A TRACK store is applied while the core keeps a tracked copy. -/
theorem witness_RepliesArrive_track :
    let s := { tReply { tOp .st with pol := .track } (.wack 9 70 0 none) with caches := [(ckey 0 0x100, { st := .t })] };
    s.deliverable 5 { tDown with body := .wack 9 70 0 none } = true ∧ (s.cline? 0 0x100).map (·.st) = some .t := by decide

/-- Copies that may leave: core 0's dirty line, an idle line in the L2, and a line of chip 1 that the proxy tracks. -/
def tLeave : State :=
  { tTwo [1, 2] [3, 4] with
    caches := [(ckey 0 0x100, { st := .m, dirty := [1], data := [(4, 9)] })],
    lines := [(0x200, { inL2 := true, lx := 60 }), (2 ^ 38 + 1, { chip := .tracked })],
    routes := [(1, [2])], links := [(2, { up := true, peer := 1 })], domain := [0, 1], time := 5000,
    weir := [(3, 0x80100004)], slices := [(4, { buckets := [(3, 0x200)], pool := 9 })] }

theorem witness_LinesLeaveAndTokensCome :
    AMap.sorted tLeave.caches = true ∧ AMap.sorted tLeave.lines = true ∧ AMap.sorted tLeave.slices = true ∧
    (tLeave.cline? 0 0x100).isSome = true ∧
    ((tLeave.hline 0x200).inL2 = true ∧ (tLeave.hline 0x200).busy = none ∧ (tLeave.hline 0x200).queue = [] ∧
      (tLeave.hline 0x200).pkg = .i ∧ tLeave.remoteChip 0x200 = none ∧ isHostLine 0x200 = false) ∧
    (let l := 2 ^ 38 + 1;
      tLeave.remoteChip l = some 1 ∧ tLeave.upLinks 1 ≠ [] ∧ (tLeave.hline l).busy = none ∧ (tLeave.hline l).queue = [] ∧
        (tLeave.hline l).chip = .tracked ∧ (tLeave.hline l).pkg = .i) ∧
    4 < Config.nSlice ∧ AMap.sorted (tLeave.slice 4).buckets = true ∧ (tLeave.slice 4).port = [] ∧
    (tLeave.slice 4).tick < tLeave.time / 64 ∧ (tLeave.slice 4).pmark < tLeave.time / 1000 := by decide

/-! ## The local store and the Churn -/

/-- Lane 0 alone: v1 = 0x100, v3 = 8, v5 = 7. -/
def tLs : State := tOne [0x100, 0, 8, 0, 7]

theorem tLs_team : tLs.Team 7 (tGroup [0]) 3 [0] ⟨7, false⟩ := team_of (by decide) (threads_of (by decide))

theorem witness_LocalStoreForms :
    (localForm (.lsLd tOps .b32 true)).map (fun A => (A.o, A.wds, A.n, A.act)) = some (tOps, ⟨1, 1, 1, 1, false, []⟩, 4, .ld false) ∧
    tLs.Ready 7 (tGroup [0]) tOps ⟨1, 1, 1, 1, false, []⟩ ∧ tLs.Team 7 (tGroup [0]) 3 [0] tOps.pr ∧
    tLs.blocks.get? 1 = some tBlock ∧ tBlock.core = (tGroup [0]).core ∧
    (let x := src32 (tLs.warp 3) (tLs.lane 3 0) tOps.a + src32 (tLs.warp 3) (tLs.lane 3 0) tOps.b;
      tLs.lsTarget 1 x.toNat = some 1 ∧ (x.toNat % 2 ^ 19) % 4 = 0 ∧ x.toNat % 2 ^ 19 + 4 ≤ tBlock.lsSize) ∧
    tBlock.churn = none ∧ tBlock.lsBad = [] :=
  ⟨rfl, ready_of (by decide), tLs_team, by decide, by decide, by decide, by decide, by decide⟩

def tRemoteLs : RemoteLs :=
  { work := 4, warp := 3, lane := 0, block := 1, addr := 16, len := 4, act := .st, val := 5, cmp := 0, dst := none, dstLen := 0 }

theorem witness_LocalStoreForms_remote :
    let s := { tLs with remotes := [(6, tRemoteLs)], works := [(4, { warp := 3, flag := none, left := 1 })] }
    s.remotes = [(6, tRemoteLs)] ∧ s.blocks.get? 1 = some tBlock ∧ AMap.sorted s.blocks = true ∧ tBlock.ended = false ∧
      tRemoteLs.acc = none ∧ s.threadsOk ∧ (s.warps.get? 3).isSome = true ∧ tBlock.badIn tRemoteLs.addr tRemoteLs.len = none :=
  ⟨rfl, by decide, by decide, by decide, by decide, tLs_team.forms, by decide, by decide⟩

/-- A block with a Churn budget, and a warp whose s2 and s3 hold 0, and s4 the operand that names region 0 of 2 KiB. -/
def tClaim (c : Option Churn) : State :=
  { tState (tGroup [0]) { tWarp [(0, tLane [1, 0, 6])] with s := [(4, 0x10000)] } with
    blocks := [(1, { tBlock with churnSize := 2048, churn := c })] }

def tRegion : Churn := { off := 0, k := 1, hdr := 0, clearing := false }

theorem witness_ChurnClaims :
    (tClaim none).Team 7 (tGroup [0]) 3 [0] ⟨7, false⟩ ∧ ((tClaim none).blocks.get? 1).isSome = true ∧
    AMap.sorted (tClaim none).blocks = true ∧ (tClaim none).ReadyU 7 (tGroup [0]) (usrcS (.s 2) 2 ++ usrcS (.s 4) 1) ∧
    (tGroup [0]).memo = {} ∧ (tGroup [0]).park = .run ∧ ((tClaim none).block 1).churn = none ∧ usrc64 ((tClaim none).warp 3) (.s 2) = 0 ∧
    usrc32 ((tClaim none).warp 3) (.s 4) = BitVec.ofNat 32 (0 + 2 ^ 16 * 1) ∧ 1024 * 2 ^ 1 ≤ ((tClaim none).block 1).churnSize ∧
    1024 * (0 + 2 ^ 1) ≤ ((tClaim none).block 1).lsSize ∧ (tClaim (some tRegion)).ReadyU 7 (tGroup [0]) [] ∧
    (tClaim (some tRegion)).Ready 7 (tGroup [0]) tOps {} ∧
    (∀ c, ((tClaim (some tRegion)).block 1).churn = some c → c.clearing = false) ∧ tRegion.off = 1024 * 0 ∧ tRegion.k = 1 ∧
    ((tClaim (some tRegion)).atWord 7).freeWaits (tGroup [0]) = false :=
  ⟨team_of (by decide) (threads_of (by decide)), by decide, by decide, readyU_of (by decide), by decide, by decide, by decide, by decide,
    by decide, by decide, by decide, readyU_of (by decide), ready_of (by decide), by
      intro c h
      obtain rfl : tRegion = c := Option.some.inj h
      rfl, by decide, by decide, by decide⟩

/-- The region is being cleared, and group 7 waits for it at its second word, or past its last. -/
def tClearing (pc : DWord) : Group := { tGroup [0] with park := .claim, memo := { passed := true }, pc }

theorem witness_ChurnClaims_clearing :
    ((tClaim (some { tRegion with clearing := true })).atWord 7).freeWaits (tGroup [0]) = true ∧
    (((tClaim (some { tRegion with clearing := true })).block 1).churn).map (·.clearing) = some true ∧
    AMap.sorted ((tClaim (some { tRegion with clearing := true })).block 1).ls = true ∧
    (tClearing 0x1008).park = .claim ∧ (tClearing 0x1008).memo.passed = true ∧
    (tClearing 0x1008).pc ≠ (tClearing 0x1008).clauseEnd ∧ (tClearing 0x100C).pc = (tClearing 0x100C).clauseEnd := by decide

/-- A spill whose TAIL has returned above LIMIT, with one record of lane 0, whose status goes to v9. -/
def tSpill : Spill :=
  { work := 4, warp := 3, block := 1, claim := 0, recs := [(0, 5, 6, 0)], dsts := [(0, 9)], core := 0, base := 0x40000,
    limit := 10, tail := some 10 }

theorem witness_ChurnClaims_spill :
    let s := { tClaim (some tRegion) with spills := [(6, tSpill)], works := [(4, { warp := 3, flag := none, left := 1 })] }
    s.spills.get? 6 = some tSpill ∧ tSpill.tail = some 10 ∧ tSpill.limit ≤ 10 ∧ tSpill.walks = [] ∧ tSpill.block = 1 ∧
      (s.block 1).churn = some tRegion ∧ tRegion.id = tSpill.claim ∧ tRegion.full + tSpill.recs.length < 2 ^ 32 ∧
      tRegion.spilled < 2 ^ 32 ∧ tSpill.warp = 3 ∧ AMap.sorted s.spills = true ∧
      (∀ x ∈ tSpill.dsts, ∃ e ∈ tSpill.recs, e.1 = x.1) ∧ (tSpill.dsts.map (·.1)).Nodup := by decide

/-- The region with key 1 at its home bucket's first slot, and a free slot at that of key 2. -/
def tTable : State :=
  let s := tClaim (some tRegion)
  { s with blocks := [(1, ((s.block 1).putKey tRegion ⟨homeBucket tRegion.bits 2, 1, 0⟩ emptyKey).putKey tRegion ⟨homeBucket tRegion.bits 1, 0, 0⟩ 1)] }

theorem witness_TableForms :
    (tTable).Team 7 (tGroup [0]) 3 [0] tOps.pr ∧ (tTable.block 1).churn = some tRegion ∧ AMap.sorted tTable.blocks = true ∧
    tRegion.hdr = 0 ∧ (tTable.block 1).lsBad = [] ∧ Group.flagFull tTable (tGroup [0]) true = false ∧
    tTable.Ready 7 (tGroup [0]) tOps ⟨1, 2, 2, 1, false, []⟩ ∧ tTable.Ready 7 (tGroup [0]) tOps ⟨4, 2, 1, 1, false, []⟩ ∧
    isLiveKey (src64 (tTable.warp 3) (tTable.lane 3 0) tOps.a) = true ∧
    ((tTable.block 1).findKey tRegion (src64 (tTable.warp 3) (tTable.lane 3 0) tOps.a)).isSome = true ∧
    ((tTable.block 1).findKey tRegion 2) = none ∧ ((tTable.block 1).findFree tRegion 2).isSome = true ∧
    isLiveKey (BitVec.allOnes 64) = false ∧ tTable.Ready 7 (tGroup [0]) { tOps with a := .s 4 } ⟨4, 1, 1, 1, false, []⟩ :=
  ⟨team_of (by decide) (threads_of (by decide)), by decide, by decide, by decide, by decide, by decide, ready_of (by decide),
    ready_of (by decide), by decide, by decide, by decide, by decide, by decide, ready_of (by decide)⟩

/-! ## Matrix passes and accumulators -/

/-- Four lanes, one in each quarter, at M.MMA with v5 = 0, and tiles 0 and 1 of the warp. -/
def tMma : State :=
  let l := tLane [1, 2, 3, 4]
  tState (tGroup [0, 8, 16, 24]) { tWarp [(0, l), (8, l), (16, l), (24, l)] with
    quarters := [(0, 0), (1, 0), (2, 0), (3, 0)], quarterSet := [0, 1, 2, 3], tileNeed := 2, tiles := [(0, 0x3F800000)] }

theorem tMma_team : tMma.Team 7 (tGroup [0, 8, 16, 24]) 3 [0, 8, 16, 24] ⟨7, false⟩ :=
  team_of (by decide) (threads_of (by decide))

def tFmt : FmtWord := ⟨.e4m3, .e4m3, false, false, false, false, false, false, false⟩

theorem witness_MatrixPasses :
    tMma.Meets 7 (tGroup [0, 8, 16, 24]) tOps ⟨1, 4, 4, 2, false, []⟩ 3 [0, 8, 16, 24] ∧
    (∀ e ∈ (tMma.warp 3).lanes, e.2.life = .live → e.1 ∈ [0, 8, 16, 24]) ∧ (tMma.warp 3).goneBits = 0 ∧
    (0 : Fin 64).val < (tMma.warp 3).tileNeed ∧
    (∀ l ∈ [0, 8, 16, 24], srcQ (tMma.warp 3) (tMma.lane 3 l) tOps.c 0 = 0) ∧ fmtWord false 0 = some tFmt ∧
    AMap.sorted (tMma.warp 3).tiles = true ∧ (tMma.warp 3).tileBad = [] ∧ (tMma.warp 3).mmaEcc tOps tFmt = none ∧
    (∀ l ∈ List.range 32, ∀ r ∈ mmaWidths.readsV tOps ++ mmaRegs tOps tFmt.scb, r ∉ tMma.pendingV 3 l) ∧
    tMma.remotes = [] ∧ AMap.sorted tMma.cores = true ∧ (tMma.block 1).redun = false ∧
    (tMma.core 0).mxcRed = false ∧ ((tMma.core 0).roll tMma.windowNow).sluiceOpen (tMma.tcapOf 0) 8 = true :=
  ⟨⟨ready_of (by decide), tMma_team, by decide, by decide, by decide, by decide, fun _ => List.not_mem_nil⟩, by decide⟩

theorem witness_MatrixPasses_window : (0 : Nat) < Config.nCore ∧ AMap.sorted { tMma with clock := 10000 }.cores = true ∧
    ({ tMma with clock := 10000 }.core 0).window < { tMma with clock := 10000 }.windowNow := by decide

/-- One lane at a tile form: v1 = 0x100, v3 = 0. -/
def tTile : State :=
  tState (tGroup [0]) { tWarp [(0, tLane [0x100, 0, 0, 0, 9])] with tileNeed := 2, tiles := [(0, 0x3F800000), (5, 0x40000000)] }

theorem witness_TileForms : tTile.Team 7 (tGroup [0]) 3 [0] tOps.pr ∧ (0 : Fin 64).val < (tTile.warp 3).tileNeed ∧
    AMap.sorted (tTile.warp 3).tiles = true ∧ (tTile.warp 3).tileBad = [] ∧ tTile.remotes = [] ∧
    (∀ l ∈ List.range 32, ∀ r ∈ ({} : Widths).readsV tOps, r ∉ (tTile.lane 3 l).vBad ∧ r ∉ tTile.pendingV 3 l) ∧ tTile.Ready 7 (tGroup [0]) tOps {} ∧
    sortNat [0] = [0] ∧ tTile.blocks.get? 1 = some tBlock ∧ tBlock.core = (tGroup [0]).core ∧ tBlock.churn = none ∧
    (let x := src32 (tTile.warp 3) (tTile.lane 3 0) tOps.a + src32 (tTile.warp 3) (tTile.lane 3 0) tOps.b;
      tTile.lsTarget 1 x.toNat = some 1 ∧ x.toNat % 2 ^ 19 % 64 = 0 ∧
        x.toNat % 2 ^ 19 + 64 * AccFmt.bytes .f32 * (0 / 8 + 1) ≤ tBlock.lsSize) ∧
    tTile.Ready 7 (tGroup [0]) tOps ⟨4, 1, 1, 1, false, []⟩ ∧ tTile.Ready 7 (tGroup [0]) tOps ⟨1, 1, 4, 1, false, []⟩ ∧
    src32 (tTile.warp 3) (tTile.lane 3 0) (.lit 4) = BitVec.ofNat 32 4 ∧ 4 < 256 ∧ 4 % 4 = 0 :=
  ⟨team_of (by decide) (threads_of (by decide)), by decide, by decide, by decide, by decide, by decide, ready_of (by decide), by decide, by decide,
    by decide, by decide, by decide, ready_of (by decide), ready_of (by decide), by decide, by decide, by decide⟩

/-! ## Colours and monitors -/

/-- Lane 0 holds colour 6, another waits for it. -/
def tMon : State :=
  tState { tGroup [0] with memo := { colours := [(96, 6)] } } (tWarp [(0, { tLane [6, 0, 40] with slots := [⟨6, 0⟩] })])

def tMgroup : Group := { tGroup [0] with memo := { colours := [(96, 6)] } }

def tMonQ : State := { tMon with mons := [(4096 + 6, { holder := some (.here 3 0), condQ := [⟨.here 3 5, none, 0⟩] })] }

theorem witness_MonitorForms : tMonQ.Team 7 tMgroup 3 [0] tOps.pr ∧ tMgroup.park = .run ∧
    tMonQ.Ready 7 tMgroup tOps ⟨1, 2, 1, 1, false, []⟩ ∧ tMgroup.memo.waiting = 0 ∧
    tMonQ.Open tMgroup 1 ⟨3, 0, addrOf (tMonQ.warp 3) (tMonQ.lane 3 0) tOps, { rd := true }⟩ 46 ∧
    tMgroup.memo.colours.get? (32 * 3 + 0) = some 6 ∧ tMgroup.memo.bad.get? (32 * 3 + 0) = none ∧ tMonQ.Ready 7 tMgroup tOps {} ∧
    (tMonQ.lane 3 0).holds (src32 (tMonQ.warp 3) (tMonQ.lane 3 0) tOps.a).toNat = true ∧ AMap.sorted tMonQ.mons = true ∧
    (tMonQ.mon 1 6).condQ = [⟨.here 3 5, none, 0⟩] ∧ tMgroup.memo.passed = false ∧ (tMonQ.lane 3 0).topColour = 6 ∧
    AMap.sorted tMonQ.rels = true ∧ 7 ≤ tMonQ.ids ∧ tMonQ.monHome 1 6 = tMonQ.chip ∧
    (tState { tMgroup with memo := { passed := true } } (tMonQ.warp 3)).Ready 7 { tMgroup with memo := { passed := true } } tOps {} :=
  ⟨team_of (by decide) (threads_of (by decide)), by decide, ready_of (by decide), by decide, open_of (by decide), by decide, by decide,
    ready_of (by decide), by decide, by decide, by decide, by decide, by decide, by decide, by decide, by decide, ready_of (by decide)⟩

/-- A warp whose s2 and s3 hold 0x8000, and s4 the control word for one line and colour 6. -/
def tUc : State := tState (tGroup [0]) { tWarp [(0, tLane [])] with s := [(2, 0x8000), (4, 0x1006)] }

def tUcOps : UOps := ⟨.none, .s 2, .s 4⟩

theorem witness_LineColoursSet : tUc.ReadyU 7 (tGroup [0]) (usrcS tUcOps.a 2 ++ usrcS tUcOps.b 1) ∧
    tUc.Team 7 (tGroup [0]) 3 [0] ⟨7, false⟩ ∧ (tGroup [0]).park = .run ∧ tUc.msgs = [] ∧ AMap.sorted tUc.lines = true ∧
    (usrc32 (tUc.warp 3) tUcOps.b).toNat / 4096 = 1 ∧ (usrc64 (tUc.warp 3) tUcOps.a).toNat % 128 = 0 ∧
    tUc.resolve [] 1 1 ⟨3, 0, usrc64 (tUc.warp 3) tUcOps.a, { wr := true }⟩ = .pa 0x8000 ∧ tUc.ownPa 0x8000 = true ∧
    0x8000 % 4096 = (usrc64 (tUc.warp 3) tUcOps.a).toNat % 4096 ∧ (tGroup [0]).memo.waiting = 0 ∧
    (tGroup [0]).memo.colours.get? (recolourKey 3 (0x8000 / 128)) = none ∧ (tGroup [0]).memo.xl = [] ∧
    (tUc.hline (0x8000 / 128)).busy = none ∧ (tUc.hline (0x8000 / 128)).pkg = .i ∧ (tUc.hline (0x8000 / 128)).colour = 0 ∧
    (usrc32 (tUc.warp 3) tUcOps.b).toNat % 4096 ≠ 0 ∧ (tUc.hline (0x8000 / 128)).st = 0 ∧ (tUc.hline (0x8000 / 128)).hs = false ∧
    tUc.holdsTraps 3 = false ∧ (tGroup [0]).handler = false :=
  ⟨readyU_of (by decide), team_of (by decide) (threads_of (by decide)), by decide⟩

/-- The line is shared by a chip, or has a colour that the lane does not hold. -/
theorem witness_LineColoursSet_others :
    (let h : HLine := { st := 1, who := 2 };
      ({ tUc with lines := [(0x100, h)] }.hline (0x8000 / 128)) = h ∧ h.colour = 0 ∧ h.colour ≠ 6 ∧ h.st ≠ 0) ∧
    (let h : HLine := { colour := 9 };
      ({ tUc with lines := [(0x100, h)] }.hline (0x8000 / 128)) = h ∧ ¬(h.colour = 6 ∨ h.colour = 0 ∨ (tUc.lane 3 0).holds h.colour = true)) := by
  decide

theorem witness_LineColoursSet_end :
    let gr : Group := { tGroup [0] with park := .until_ 50 };
    let s := { tState gr (tWarp [(0, tLane [])]) with time := 60 };
    s.groups.get? 7 = some gr ∧ gr.park = .until_ 50 ∧ 50 ≤ s.timeAt gr.core := by decide

/-- A free monitor with lane 0 at the head of its queue, and another with a waiter whose deadline has passed. -/
def tMonFree : State :=
  { tState { tGroup [0] with park := .monitor 6 } (tWarp [(0, tLane [])]) with
    time := 90, mons := [(4096 + 6, { entryQ := [⟨.here 3 0, none⟩] }), (4096 + 8, { condQ := [⟨.here 3 0, some 80, 0⟩] })] }

/-- Lane 0's release of colour 6, which may complete. -/
def tRel (w : Option (Option Nat)) : State :=
  { tState { tGroup [0] with park := .release } (tWarp [(0, { tLane [] with slots := [⟨6, 0⟩] })]) with
    mons := [(4096 + 6, { holder := some (.here 3 0) })],
    rels := [(9, { ctx := 1, warp := 3, lane := 0, colours := [6], wait := w, group := some 7, ops := [], cmds := [] })] }

theorem witness_MonitorEvents :
    AMap.sorted tMonFree.mons = true ∧ (tMonFree.groups.get? 7).isSome = true ∧ (tMonFree.warps.get? 3).isSome = true ∧
    (tMonFree.mon 1 6).holder = none ∧ (tMonFree.mon 1 6).entryQ = [⟨.here 3 0, none⟩] ∧
    (tMonFree.lane 3 0).entry = .group 7 ∧ (⟨.here 3 0, some 80, 0⟩ : Waiter) ∈ (tMonFree.mon 1 8).condQ ∧
    (∀ y ∈ (tMonFree.mon 1 8).condQ, y.who = .here 3 0 → y = ⟨.here 3 0, some 80, 0⟩) ∧
    80 ≤ tMonFree.time ∧ (3 < 2 ^ 32) ∧ tMonFree.monHome 1 6 = tMonFree.chip ∧ tMonFree.monHome 1 8 = tMonFree.chip := by decide

theorem tRel_meets (w : Option (Option Nat)) (h : w = none ∨ w = some (some 200)) :
    (tRel w).rels.get? 9 =
      some { ctx := 1, warp := 3, lane := 0, colours := [6], wait := w, group := some 7, ops := [], cmds := [] } ∧
    (tRel w).relDone { ctx := 1, warp := 3, lane := 0, colours := [6], wait := w, group := some 7, ops := [], cmds := [] } =
      true ∧ ((tRel w).mon 1 6).holder = some (.here 3 0) ∧ ∀ e ∈ (tRel w).rels.del 9, e.2.group ≠ some 7 := by
  rcases h with rfl | rfl <;> decide

theorem witness_MonitorEvents_forms : (tRel none).rels.del 9 = [] ∧ tMonFree.threadsOk ∧ (tRel none).threadsOk :=
  ⟨rfl, threads_of (by decide), threads_of (by decide)⟩

/-! ## Copy engines, guard slots and rings -/

/-- Lane 0 at CP.LIN from its block's store at 0x100 to 0x9000, 16 bytes: v1 = 0x100, v3 = 0x9000, v5 = 16. -/
def tCpGroup : Group := { tGroup [0] with memo := { colours := [(0x120, 0)] } }

def tCp : State := tState tCpGroup (tWarp [(0, tLane [0x100, 0, 0x9000, 0, 16])])

def tCpMod : CpMod := ⟨none, none, true, false, true⟩

def tLin : CmdKind := .lin true false 0x100 0x9000 16

theorem tCp_accs : globalAccs (3, 0) tLin = [⟨3, 0, 0x9000, { wr := true }⟩] := by decide

theorem witness_CommandsQueued : tCp.Ready 7 tCpGroup tOps CpForm.lin.widths ∧ tCp.Team 7 tCpGroup 3 [0] tOps.pr ∧
    tCpGroup.park = .run ∧ tCpGroup.memo.waiting = 0 ∧ tCpGroup.memo.bad = [] ∧
    tCp.prepare tCpGroup .lin tOps tCpMod (fun a j => tCpGroup.memo.refill.getD (wordKey a j) 0) (fun _ => none) (3, 0) =
      .inr (tLin, none) ∧
    globalFault .lin tLin [⟨3, 0, 0x9000, { wr := true }⟩] (tCp.resolve [] 1 1) = none ∧
    tCp.resolve [] 1 1 ⟨3, 0, 0x9000, { wr := true }⟩ = .pa 0x9000 ∧
    colourLines tLin (xlOf [⟨3, 0, 0x9000, { wr := true }⟩] (tCp.resolve [] 1 1)) = [(0x120, 0x9000)] ∧
    tCpGroup.memo.colours.get? 0x120 = some 0 ∧
    (tCp.core 0).engineQ.length < Config.engineQueue ∧ Group.flagFull tCp tCpGroup true = false ∧
    AMap.sorted tCp.cores = true ∧ AMap.sorted tCp.cmds = true :=
  ⟨ready_of (by decide), team_of (by decide) (threads_of (by decide)), by decide⟩

theorem witness_EngineForms : tCp.Ready 7 tCpGroup tOps {} ∧ tCp.threadsOk ∧ tCp.Stands tCpGroup ∧
    (∀ x ∈ tCp.execThreads tCpGroup tOps.pr, (tCp.lane x.1 x.2).batches.length < 16 ∧
      (tCp.lane x.1 x.2).batches.length ≤ (src32 (tCp.warp x.1) (tCp.lane x.1 x.2) tOps.a).toNat) ∧
    tCp.ReadyU 7 tCpGroup [] ∧ tCp.ReadyU 7 tCpGroup (GVal.reads (.q 2)) ∧ (∀ w ∈ tCpGroup.warpIds, ∀ e ∈ tCp.cmds, e.2.warp = w → e.2.started = true) :=
  ⟨ready_of (by decide), threads_of (by decide), ⟨by decide, by decide⟩, by decide, readyU_of (by decide), readyU_of (by decide),
    by decide⟩

/-- Lane 0 at RG forms: v1 = 2, v3 = 0 and v5 = 0x01010011, that is two stages of 128 bytes with counts of 1. -/
def tRing (rs : AMap Ring) : State :=
  { tState (tGroup [0]) (tWarp [(0, tLane [2, 0, 0, 0, 0x01010011])]) with blocks := [(1, { tBlock with rings := rs })] }

theorem witness_EngineForms_init : (tRing []).Ready 7 (tGroup [0]) tOps {} ∧ (tRing []).Team 7 (tGroup [0]) 3 [0] tOps.pr ∧
    AMap.sorted (tRing []).blocks = true ∧ AMap.sorted ((tRing []).block 1).rings = true ∧ (tGroup [0]).memo.asked = false ∧
    (tRing []).rgInitCheck (tGroup [0]) 3 0 tOps = none :=
  ⟨ready_of (by decide), team_of (by decide) (threads_of (by decide)), by decide⟩

theorem witness_EngineForms_ring :
    let R : Ring := { base := 0, s := 2, sz := 128, fc := 1, ec := 1 };
    ((tRing [(2, R)]).block 1).rings.get? 2 = some R ∧ (0 : Word).toNat < R.s ∧ (tRing [(2, R)]).fencedCore [(3, 0)] = true ∧
      AMap.sorted R.stages = true ∧ (R.stage 0).fp ≠ (0x01010011 : Word).getLsbD 0 := by decide

/-- The engine of core 0 with one local-to-global copy. -/
def tCmd : Cmd :=
  { ctx := 1, core := 0, block := 1, warp := 3, lane := 0, work := 4, kind := tLin, xl := [(9, 9)], lines := [0x120],
    want := [0x120] }

def tEngine (c : Cmd) : State :=
  { tCp with cmds := [(6, c)], cores := [(0, { engineQ := [6] })], works := [(4, { warp := 3, flag := none, left := 1 })] }

theorem witness_EngineEvents : (tEngine tCmd).engineHead 0 = some (6, tCmd) ∧ (tEngine tCmd).cmds.get? 6 = some tCmd ∧
    AMap.sorted (tEngine tCmd).cmds = true ∧ ((tEngine tCmd).block 1).ended = false ∧ (tEngine tCmd).guardOf tCmd = .tru ∧
    (tEngine tCmd).admitted tCmd = true ∧ (tEngine tCmd).beforeCmd 6 tCmd = true ∧
    (∀ e ∈ (tEngine tCmd).cmds, e.2.core = 0 → e.2.started = true → e.2.ctx = tCmd.ctx) ∧
    (∀ b ∈ (tEngine tCmd).cmdBlocks tCmd, ((tEngine tCmd).block b).ended = false) ∧ (tEngine tCmd).ops = [] ∧
    tCmd.read = [] ∧ (tEngine tCmd).caches = [] := by decide

/-- The same for a copy from 0x9000 to 0x100 in the store: what it reads lies in device memory. -/
def tInCmd : Cmd := { tCmd with kind := .lin false true 0x9000 0x100 16, lines := [], want := [] }

theorem witness_EngineEvents_reads : (tEngine tInCmd).engineHead 0 = some (6, tInCmd) ∧
    (∀ p ∈ tInCmd.kind.steps, (tEngine tInCmd).earlierHolds 6 tInCmd (tInCmd.pa (0x9000 + p.1) / 128) = false ∧
      p.2.src = .glob (0x9000 + p.1) ∧ tInCmd.pa (0x9000 + p.1) / 128 ∉ tInCmd.want) ∧ ((tEngine tInCmd).hline 0x120).pkg ≠ .o (engineAgent 0) := by decide

/-- Its guard is false, or its block has ended. -/
theorem witness_EngineEvents_guard :
    (let s := { tEngine { tCmd with guard := some 2 } with warps := [(3, { tCp.warp 3 with guards := [(2, .fls)] })] };
      s.engineHead 0 = some (6, { tCmd with guard := some 2 }) ∧ s.guardOf { tCmd with guard := some 2 } = .fls ∧
        s.admitted { tCmd with guard := some 2 } = true ∧ AMap.sorted s.cores = true ∧ tCmd.core < Config.nCore) ∧
    (let s := { tEngine tCmd with blocks := [(1, { tBlock with ended := true })] };
      s.engineHead 0 = some (6, tCmd) ∧ (s.block tCmd.block).ended = true) := by decide

theorem witness_EngineEvents_complete :
    let c := { tCmd with started := true, want := [] };
    (tEngine c).cmds.get? 6 = some c ∧ Memory.wf (tEngine c).mem = true ∧ c.saved = false ∧ (tEngine c).ops = [] ∧
      ((tEngine c).core 0).engineQ.head? = some 6 ∧ c.kind = .lin true false 0x100 0x9000 16 ∧
      (tEngine c).lsTarget 1 0x100 = some 1 ∧ ((tEngine c).block 1).lsBad = [] ∧
      c.srcBytes = [] ∧ c.read = [] ∧ c.written = [] ∧ c.units = [] ∧ c.srcBad = [] ∧ c.dead = [] ∧ c.arv = none ∧
      0x9000 % 4096 + 16 ≤ 4096 ∧ 0x9000 / 4096 ≠ 1 ∧ ∀ i ∈ [0, 1], c.pa (0x9000 + 8 * i) / 128 ∈ c.lines := by decide

/-- Ownership of line 0x120 arrives at core 0's engine. -/
def tGranted : State :=
  { tEngine tCmd with
    msgs := [(5, { src := homeOf 0x120, dst := 256, line := 0x120, body := .grant none true { st := .e, lx := 44 } })] }

theorem witness_EngineEvents_grant :
    let m : Msg := { src := homeOf 0x120, dst := 256, line := 0x120, body := .grant none true { st := .e, lx := 44 } };
    tGranted.msgs.get? 5 = some m ∧ tGranted.deliverable 5 m = true ∧ tGranted.cmds.get? 6 = some tCmd ∧
      (tGranted.core (m.dst - 256)).engineQ.head? = some 6 ∧ m.line ∈ tCmd.want ∧ (tGranted.warps.get? 3).isSome = true := by
  decide

/-- Lane 1's load of v1 has not returned, and the next word reads v1. -/
def tLate : State :=
  { tTwo [1] [2] with
    ops := [(9, { tOp (.ld false) with lane := 1, dst := some 1, dstLen := 1 })],
    works := [(4, { warp := 3, flag := none, left := 1 })] }

theorem witness_EngineEvents_split :
    let i : Instr := .iAdd ⟨.v 3, .v 1, .k 1, .none, ⟨7, false⟩⟩ ⟨false, false, false, false, 0, 0⟩;
    tLate.groups.get? 7 = some (tGroup [0, 1]) ∧ 7 ≤ tLate.ids ∧ decode (tGroup [0, 1]).rest = .ok i 1 ∧
      ((tLate.execs (tGroup [0, 1]) (instrPred i)).filter fun x => (tLate.pendingV x.1 x.2).any (instrRegs i).contains) = [(3, 1)] ∧
      (3, 0) ∈ tLate.execs (tGroup [0, 1]) (instrPred i) ∧ 1 ∈ readRegs i ∧ (tGroup [0, 1]).memo = {} := by decide

/-! ## Work queues -/

/-- Two queues at 0x20000: queue 0 of the device, with its entries at 0x30000, and queue 1 of the host; the tables of an
identity translation at 0x50000. -/
def tQmem : List Host.Cell :=
  [(0x20002, 0x03), (0x20008, 2), (0x2000B, 1), (0x20010, 1), (0x20018, 1), (0x20042, 0x04), (0x20048, 2), (0x2004B, 3),
    (0x20050, 1), (0x20058, 1), (0x20060, 9), (0x50000, 0x01), (0x50001, 0x80), (0x50002, 0x05), (0x58000, 0x1F)]

/-- A state with these queues in context 1. -/
def tQs (s : State) : State :=
  { s with mem := tQmem, ctxs := [(1, { status := .bound 0, root := 0x50000, qcount := 2, qtb := 0x20000 })] }

/-- Lane 0 addresses 0x8000 and names queue 0; its group has read an image of the given KIND there. -/
def tQueue (kind : DWord) : State :=
  let words := (List.range 16).map fun j => (wordKey ⟨3, 0, 0x8000, { rd := true }⟩ j, if j = 0 then kind else 0)
  let gr : Group := { tGroup [0] with memo := { fenced := true, colours := [(96, 0)], refill := words } }
  tQs (tState gr (tWarp [(0, tLane [0x8000])]))

def tQgroup (kind : DWord) : Group := ((tQueue kind).groups.get? 7).getD {}

def tDev : QDesc :=
  { pa := 0x20000, base := 0x30000, logn := 2, prio := 0, bumpto := 0, en := true, host := false, bump := false, miss := 0,
    head := 1, tail := 1, deadline := 0, faults := 0, last := 0 }

def tHostQ : QDesc := { tDev with pa := 0x20040, base := 0x40000, host := true, deadline := 9 }

theorem tQueue_queue : (tQueue 1).unasked.queue 1 0 = ((tQueue 1).unasked, some tDev) := by decide +kernel

theorem witness_QueueForms : (tQueue 1).Team 7 (tQgroup 1) 3 [0] tOps.pr ∧ (tQgroup 1).park = .run ∧ (tQgroup 1).memo.bad = [] ∧
    (tQueue 1).Ready 7 (tQgroup 1) tOps ⟨1, 2, 1, 1, false, []⟩ ∧ (tQgroup 1).memo.fenced = true ∧
    (src32 ((tQueue 1).warp 3) ((tQueue 1).lane 3 0) tOps.c).toNat < ((tQueue 1).ctx 1).qcount ∧
    (tQueue 1).unasked.queue 1 0 = ((tQueue 1).unasked, some tDev) ∧ tDev.host = false ∧ tDev.full = false ∧ (tQueue 1).pushesAt 1 0 = [] ∧
    (tQueue 1).Open (tQgroup 1) 128 ⟨3, 0, wAddr (tQueue 1) tOps (3, 0), { rd := true }⟩ 0x8000 ∧
    (∀ j ∈ List.range 16, ((tQgroup 1).memo.refill.get? (wordKey ⟨3, 0, 0x8000, { rd := true }⟩ j)).isSome = true) ∧
    ((tQgroup 1).memo.refill.getD (wordKey ⟨3, 0, 0x8000, { rd := true }⟩ 0) 0).toNat % 256 = 1 ∧
    ((tQgroup 2).memo.refill.getD (wordKey ⟨3, 0, 0x8000, { rd := true }⟩ 0) 0).toNat % 256 = 2 ∧
    (Group.flagFull (tQueue 1) (tQgroup 1) true = false ∧ (tQgroup 1).memo.waiting = 0) ∧
    (tQueue 1).Open (tQgroup 1) 64 ⟨3, 0, wAddr (tQueue 1) tOps (3, 0), { rd := true, wr := true }⟩ 0x8000 ∧
    (tQueue 1).Ready 7 (tQgroup 1) tOps ⟨1, 1, 2, 1, false, []⟩ ∧ (tQueue 1).Ready 7 (tQgroup 1) tOps {} ∧ tDev.tail ≤ tDev.head :=
  ⟨team_of (by decide) (threads_of (by decide)), by decide, by decide, ready_of (by decide), by decide, by decide, tQueue_queue,
    by decide, by decide, by decide, open_of (by decide), by decide +kernel, by decide, by decide, by decide, open_of (by decide),
    ready_of (by decide), ready_of (by decide), by decide⟩

/-- What the forms write is device memory that nothing else holds. -/
theorem witness_QueueForms_writes : ((tQueue 1).unasked.pushEntry 1 tDev 1).need = [] ∧
    ((tQueue 1).unasked.joinHere 1 0x8000 (-1)).1.need = [] ∧
    (((tQueue 1).unasked.noteLate 1 0 tDev).devWrite (tDev.pa + 32) 8 5).need = [] :=
  ⟨by decide +kernel, by decide +kernel, by decide +kernel⟩

/-- Context 1 with a waiting push for queue 0; queue 1 has one record, and a deadline, at 9, that has passed. -/
def tPush : State :=
  let s := tQs (tOne [])
  { s with ctxs := [(1, { status := .bound 0, root := 0x50000, qcount := 2, qtb := 0x20000, pushQ := [(0, [77])] })],
           time := 50, mem := (s.mem.filter fun c => decide (c.1 < 0x50000)).map (fun c => if c.1 = 0x20058 then (c.1, 2) else c) ++
             [(0x40080, 2), (0x40084, 1)] ++ s.mem.filter fun c => decide (0x50000 ≤ c.1) }

theorem witness_QueueEvents : tPush.unasked.queue 1 0 = (tPush.unasked, some tDev) ∧
    tPush.ctxs.get? 1 = some (tPush.ctx 1) ∧
    AMap.sorted tPush.ctxs = true ∧ AMap.sorted (tPush.ctx 1).pushQ = true ∧ (tPush.ctx 1).pushQ.get? 0 = some [77] ∧
    tDev.full = false ∧ (tPush.unasked.pushEntry 1 tDev 77).need = [] ∧
    (tPush.part 0).run = true ∧ (tPush.part 0).ctx = 1 ∧ tPush.mgmt.pstate = 0 ∧ tPush.mgmt.a1 = [] ∧
    tDev.host = false ∧ (tPush.unasked.queueFault tDev 5 0).need = [] :=
  ⟨by decide +kernel, by decide, by decide, by decide, by decide, by decide, by decide +kernel, by decide, by decide, by decide,
    by decide, by decide, by decide +kernel⟩

def tQ1 : QDesc := { tHostQ with tail := 2 }

/-- The tail register at both ends of its range, and past it. -/
theorem witness_QueueEvents_host : tPush.unasked.queue 1 1 = (tPush.unasked, some tQ1) ∧ tQ1.host = true ∧
    tQ1.tail ≤ (2 : DWord).toNat ∧ (5 : DWord).toNat ≤ tQ1.head + 2 ^ tQ1.logn ∧ tQ1.head + 2 ^ tQ1.logn < (6 : DWord).toNat ∧
    (tPush.unasked.devWrite (tQ1.pa + 24) 8 5).need = [] ∧ (tPush.unasked.queueFault tQ1 5 0).need = [] :=
  ⟨by decide +kernel, by decide, by decide, by decide, by decide, by decide +kernel, by decide +kernel⟩

/-- Queue 1 is late; with its deadline in the future it is not. -/
theorem witness_QueueEvents_late : AMap.sorted (tPush.ctx 1).late = true ∧ (tPush.ctx 1).late.get? 1 = none ∧
    tPush.unasked.queueIsLate 1 1 tQ1 = (tPush.unasked, true) ∧
    (tPush.unasked.devWrite (tQ1.pa + 12) 4 (min (tQ1.miss + 1) (2 ^ 32 - 1))).need = [] ∧
    (let s := { tPush with time := 5, ctxs := [(1, { tPush.ctx 1 with late := [(1, (tQ1.pa + 32, tQ1.deadline, true, true))] })] };
      s.unasked.queue 1 1 = (s.unasked, some tQ1) ∧ (s.ctx 1).late.get? 1 = some (tQ1.pa + 32, tQ1.deadline, true, true) ∧
        s.unasked.queueIsLate 1 1 tQ1 = (s.unasked, false)) ∧
    (let s := { tPush with ctxs := [(1, { tPush.ctx 1 with late := [(1, (tQ1.pa + 32, tQ1.deadline, false, true))] })] };
      s.unasked.queue 1 1 = (s.unasked, some tQ1) ∧ (s.ctx 1).late.get? 1 = some (tQ1.pa + 32, tQ1.deadline, false, true) ∧
        s.unasked.queueIsLate 1 1 tQ1 = (s.unasked, true)) :=
  ⟨by decide, by decide, by decide +kernel, by decide +kernel, by decide +kernel, by decide +kernel⟩

/-- A launch of one block per cluster of one thread, taken or still at queue 0's head. -/
def tLaunch : Launch := { ctx := 1, gcx := 2, code := 0x1000, csize := 1, regs := 8 }

/-- A launch record of two clusters of one block, at index 1 of queue 0: SEQ is 1, CODE 0x1000. -/
def tRecord : List Host.Cell :=
  [(0x30080, 2), (0x30081, 1), (0x30084, 1), (0x30089, 0x10), (0x300A0, 2), (0x300A4, 1), (0x300A8, 1), (0x300AA, 1),
    (0x300AB, 1), (0x300AC, 8), (0x300C8, 1)]

def tHeadMem (r : List Host.Cell) : List Host.Cell :=
  (tQmem.filter fun c => decide (c.1 < 0x30000)).map (fun c => if c.1 = 0x20018 then (c.1, 2) else c) ++ r ++
    tQmem.filter fun c => decide (0x30000 ≤ c.1)

/-- Queue 0 has one record. -/
def tHead (r : List Host.Cell) : State := { tQs (tOne []) with mem := tHeadMem r, launches := [] }

def tDev2 : QDesc := { tDev with tail := 2 }

theorem witness_QueueForms_prio : (tDev2.head < tDev2.tail) ∧
    ((tHead tRecord).unasked.effPrio 1 0 tDev2 tDev2.prio).1 = (tHead tRecord).unasked :=
  ⟨by decide, by decide +kernel⟩

/-- The launch that the record gives. -/
def tTaken : Launch :=
  { ctx := 1, queue := 0, index := 1, curve := 1, gcx := 2, code := 0x1000, regs := 8, chips := 1 }

/-- The record with a KIND that no record has. -/
def tBadRecord : List Host.Cell := tRecord.map fun c => if c.1 = 0x30080 then (c.1, 7) else c

theorem witness_DispatchCompletes : ((tHead tRecord).part 0).dispatches (tHead tRecord) = true ∧
    AMap.sorted (tHead tRecord).launches = true ∧ AMap.sorted (tHead tRecord).blocks = true ∧
    AMap.sorted (tHead tRecord).warps = true ∧
    (tHead tRecord).unasked.heads 1 = ((tHead tRecord).unasked, [(⟨jobKey 0 false none 0, 0, 0, none⟩, tDev2,
      .record tTaken (memRead (tHeadMem tRecord) 0x30080 128))]) ∧
    tTaken.cont = false ∧ (tHead tRecord).others tTaken = [] ∧
    (((tHead tRecord).unasked.noteLate 1 0 tDev2).devWrite (tDev2.pa + 16) 8 2).need = [] ∧
    (tHead tBadRecord).unasked.heads 1 = ((tHead tBadRecord).unasked, [(⟨jobKey 0 false none 0, 0, 0, none⟩, tDev2, .refused 2 7)]) ∧
    ((((tHead tBadRecord).unasked.noteLate 1 0 tDev2).takeHead 1 0 0 tDev2).refuseRecord 1 tDev2 1 2 7).need = [] :=
  ⟨by decide, by decide, by decide, by decide, by decide +kernel, by decide, by decide, by decide +kernel, by decide +kernel,
    by decide +kernel⟩

/-- The launch is active, and its cluster 0 is still to be placed. -/
def tActive : State := { tQs (tOne []) with launches := [(5, tTaken)] }

def tJob : Job := ⟨jobKey 0 false (some 5) 0, 0, 0, some 5⟩

theorem witness_DispatchCompletes_place : (tActive.part 0).dispatches tActive = true ∧
    tActive.unasked.heads 1 = (tActive.unasked, []) ∧
    tActive.unasked.activeJobs 1 = (tActive.unasked, [tJob]) ∧ tActive.launches.get? 5 = some tTaken ∧
    tActive.unasked.spotsFor (tActive.part 0).cores tTaken = some [(0, ⟨0, 0, [([(0, 4)], 0)]⟩)] ∧
    ((tActive.unasked.noteJob 1 tJob).paramOf tTaken).1.need = [] :=
  ⟨by decide, by decide +kernel, by decide +kernel, by decide, by decide +kernel, by decide +kernel⟩

theorem witness_DispatchCompletes_zeroing :
    let s := { tOne [] with blocks := [(1, { tBlock with zeroing := true })] };
    s.blocks = [(1, { tBlock with zeroing := true })] ∧ tBlock.launch = 2 ∧ tBlock.cluster = 0 := by decide

/-- Block 1 whose lane has exited, of a launch with two blocks in its cluster, or with one. -/
def tDone (n : Nat) : State :=
  { tState (tGroup []) (tWarp [(0, { tLane [] with life := .exited })]) with
    groups := [], focus := .none, launches := [(2, { ctx := 1, gcx := 1, gcy := 1, csize := n, nextK := 1, placed := [(0, n)] })] }

def tDoneLaunch (n : Nat) : Launch := { ctx := 1, gcx := 1, gcy := 1, csize := n, nextK := 1, placed := [(0, n)] }

theorem witness_BlocksRetire (n : Nat) (h : n = 1 ∨ n = 2) : (tDone n).blocks.get? 1 = some tBlock ∧
    AMap.sorted (tDone n).blocks = true ∧ (tDone n).launches.get? 2 = some (tDoneLaunch n) ∧
    (tDoneLaunch n).placed.get? 0 = some n ∧ (tDoneLaunch n).total = 1 ∧ (tDoneLaunch n).det = false ∧
    AMap.sorted (tDone n).launches = true ∧ AMap.sorted (tDone n).warps = true ∧ (tDone n).blockComplete 1 = true ∧
    tBlock.retired = false ∧ tBlock.zeroing = false ∧ (tDone n).storesOut = false ∧ (tDone n).issuing 1 = true ∧ (tDone n).heldPartials 1 = [] ∧
    (tDone n).blockQuiet 1 = true ∧ (∀ e ∈ (tDone n).parts, e.2.ctx = 1 → ringBase e.2.brbase = 0) := by
  rcases h with rfl | rfl <;> decide

theorem witness_BlocksRetire_ord :
    let s := { tDone 1 with blocks := [(1, { tBlock with det := true, ords := [⟨0, 0, 0, 0x8004, .add, false, false, 7, 8⟩] })] };
    s.blockComplete 1 = true ∧ (s.block 1).det = true ∧ (s.block 1).ordDone = false ∧
      (s.launches.get? 2).map (·.ordNext) = some (s.block 1).block ∧ s.ops = [] := by decide

/-- Launches that wait for an answer: this chip's own, of chips 0 and 1, and one of chip 1. -/
def tPend : State :=
  { tQs (tOne []) with
    domain := [0, 1], routes := [(1, [2])], links := [(2, { up := true, peer := 1 })],
    launches := [(5, { tTaken with chips := 3, gen := 8, started := false, answers := [1] }),
      (6, { tTaken with chips := 3, gen := 9, src := 1, started := false })] }

theorem tPend_link : ({ up := true, peer := 1 } : Link).credit .ctl = true := by
  simp [Link.credit, AMap.getD, AMap.get?]

theorem witness_ReplicatedLaunches : AMap.sorted tPend.launches = true ∧ (tPend.ctxs.get? 1).isSome = true ∧
    tPend.pendingLaunch tPend.chip 1 8 = some (5, { tTaken with chips := 3, gen := 8, started := false, answers := [1] }) ∧
    (3 : BitVec 64).getLsbD tPend.chip = true ∧
    tPend.pendingLaunch 1 1 9 = some (6, { tTaken with chips := 3, gen := 9, src := 1, started := false }) ∧
    tPend.pendingLaunch tPend.chip 1 9 = none ∧ tPend.pendingLaunch 1 1 8 = none ∧ tPend.upLinks 1 = [2] ∧
    tPend.links.get? 2 = some { up := true, peer := 1 } ∧ ({ up := true, peer := 1 } : Link).credit .ctl = true ∧
    AMap.sorted tPend.links = true :=
  ⟨by decide, by decide, by decide, by decide, by decide, by decide, by decide, by decide, by decide, tPend_link, by decide⟩

/-- Chip 1 refuses the launch of chips 0 and 1: no other chip is told. -/
theorem witness_ReplicatedLaunches_refused :
    let L : Launch := { tTaken with chips := 3, gen := 8, started := false, answers := [1] };
    let told := { tPend.unasked with launches := tPend.launches.del 5 };
    (tPend.others L).filter (· != 1) = [] ∧ told.queue 1 L.queue = (told, some tDev) ∧
      (told.refuseRecord 1 tDev L.index 2 2).need = [] :=
  ⟨by decide, by decide +kernel, by decide +kernel⟩

/-- The image of a record that chip 0 can place. -/
def tImage : List Byte := (List.range 128).map fun i => memGet tRecord (0x30080 + i)

theorem witness_ReplicatedLaunches_record :
    let x := ((List.range 128).map fun i => (tImage.getD i (0 : Byte)).toNat * 256 ^ i).sum;
    tPend.unasked.recordFault { recordOf 1 x with src := 1, gen := 9, started := false } x = (tPend.unasked, none) := by
  decide +kernel

/-- Core 0 with a unit that waits for a run: 300 KiB of store beside 1 KiB in the middle; 40 tiles beside one in the middle
on each sub-core; or 24 slices of a bank beside two runs of 24 on each sub-core. -/
def tFull (L : Launch) (ws : AMap Warp) (B : Block) : State :=
  { tQs (tOne []) with
    groups := [], focus := .none, warps := ws, blocks := [(1, B)],
    launches := [(2, { ctx := 1, nextK := 1, placed := [(0, 1)] }), (5, L)] }

def tRun (sub base tileBase tileNeed : Nat) : Warp :=
  { block := 1, sub, regs := 192, quarters := [(0, base)], quarterSet := [0], tileBase, tileNeed,
    lanes := [(0, { life := .live, entry := .runnable })] }

def tStoreShort : State := tFull { tTaken with lstore := 307200 } [(3, tRun 0 0 0 0)] { tBlock with lsGran := 1, lsBase := 256 }

def tTileShort : State :=
  tFull { tTaken with tiles := 40 } ((List.range 4).map fun k => (3 + k, tRun k 0 32 1)) { tBlock with warps := [3, 4, 5, 6] }

def tBankShort : State :=
  tFull { tTaken with regs := 192 } ((List.range 8).map fun k => (3 + k, tRun (k / 2) (16 + 64 * (k % 2)) 0 0))
    { tBlock with warps := [3, 4, 5, 6, 7, 8, 9, 10] }

theorem witness_CompactorsMove_store : tStoreShort.wanted 0 = some ⟨1, 8, 0, 307200, 0, 1⟩ ∧
    (tStoreShort.shortOn 0 ⟨1, 8, 0, 307200, 0, 1⟩).contains .store = true ∧ (1, 256, 1) ∈ tStoreShort.storeRuns 0 ∧
    (lowerPlace (((tStoreShort.storeRuns 0).filter fun y => y.1 != 1).map fun y => (y.2.1, y.2.2)) 256 1).isSome = true ∧
    ∀ w ∈ (tStoreShort.block 1).warps, tStoreShort.pinned w = false :=
  ⟨by decide +kernel, by decide +kernel, by decide +kernel, by decide +kernel, by decide⟩

theorem witness_CompactorsMove_tiles : tTileShort.wanted 0 = some ⟨1, 8, 40, 0, 0, 1⟩ ∧
    (tTileShort.shortOn 0 ⟨1, 8, 40, 0, 0, 1⟩).contains (.tiles 0) = true ∧ (3, 32, 1) ∈ tTileShort.tileRuns 0 0 ∧
    (lowerPlace (((tTileShort.tileRuns 0 0).filter fun y => y.1 != 3).map fun y => (y.2.1, y.2.2)) 32 1).isSome = true ∧
    tTileShort.pinned 3 = false ∧ tTileShort.tileBusy 3 = false :=
  ⟨by decide +kernel, by decide +kernel, by decide +kernel, by decide +kernel, by decide, by decide⟩

theorem witness_CompactorsMove_bank : tBankShort.wanted 0 = some ⟨1, 192, 0, 0, 0, 1⟩ ∧
    (tBankShort.shortOn 0 ⟨1, 192, 0, 0, 0, 1⟩).contains (.bank 0 0) = true ∧ (4, 80, 24) ∈ tBankShort.bankRuns 0 0 0 ∧
    (lowerPlace (((tBankShort.bankRuns 0 0 0).filter fun y => y.1 != 4).map fun y => (y.2.1, y.2.2)) 80 24).isSome = true ∧
    tBankShort.quarterMoves 4 0 = true :=
  ⟨by decide +kernel, by decide +kernel, by decide +kernel, by decide +kernel, by decide⟩

/-! ## Contexts, the host, the fabric, management -/

/-- A descriptor of context 2 at 0x10000: its tables at 0x58000, MAXQ 1, and a save area of 2 MiB. -/
def tDesc : List Host.Cell := [(0x10001, 0x80), (0x10002, 0x05), (0x10008, 2), (0x1000C, 1), (0x1003A, 0x20)]

def tDescX : Nat := memRead tDesc 0x10000 128

/-- No context runs on core 0, or context 1 does. -/
def tPartn (P : Partn) : State :=
  { tOne [] with groups := [], focus := .none, warps := [], blocks := [], mem := tDesc, parts := [(0, P)],
                 ctxs := [(1, { status := if P.run then .bound 0 else .saved })] }

theorem witness_ContextSwitches :
    let s := tPartn { cores := [0] };
    AMap.sorted s.parts = true ∧ AMap.sorted s.cores = true ∧ AMap.sorted s.ctxs = true ∧ s.mgmt.pstate = 0 ∧
      s.mgmt.a1 = [] ∧ (s.part 0).atRest ∧ s.ownPa 0x10000 = true ∧ (s.part 0).run = false ∧ (s.part 0).ready = false ∧
      s.bindable 0 tDescX = true ∧ s.unasked.devRead 0x10000 128 = (s.unasked, tDescX) ∧ descCtx tDescX = 2 :=
  ⟨by decide, by decide, by decide, by decide, by decide, ⟨by decide, by decide, by decide, by decide, by decide⟩, by decide,
    by decide, by decide, by decide +kernel, by decide +kernel, by decide +kernel⟩

theorem witness_ContextSwitches_ready :
    let P : Partn := { cores := [0], ready := true, shadow := some (0x10000, tDescX) };
    P.atRest ∧ (tPartn P).part 0 = P ∧ (tPartn P).bindable 0 tDescX = true :=
  ⟨⟨rfl, rfl, rfl, rfl, rfl⟩, rfl, by decide +kernel⟩

theorem witness_ContextSwitches_unbind :
    let P : Partn := { cores := [0], run := true, ctx := 1 };
    P.atRest ∧ (tPartn P).part 0 = P := ⟨⟨rfl, rfl, rfl, rfl, rfl⟩, by decide⟩

theorem witness_ContextSwitches_cores : ∀ e ∈ (tPartn { cores := [0] }).parts, e.1 ≠ 0 → ∀ i, i < 64 →
    (6 : DWord).getLsbD i = true → 64 * 0 + i ∉ e.2.cores := by decide

/-- A preload that ends, alone or with a switch that waits for it. -/
theorem witness_ContextSwitches_preloaded (swt : Bool) :
    let P : Partn := { cores := [0], pre := true, shadow := some (0x10000, tDescX), swt,
                       incoming := if swt then some 0x10000 else none };
    (tPartn P).part 0 = P ∧ (tPartn P).preloadable tDescX = true := by
  cases swt <;> exact ⟨rfl, by decide +kernel⟩

/-- A switch that may flip: onto an idle partition, or in place of context 1. -/
theorem witness_ContextSwitches_flip (run : Bool) :
    let P : Partn := { cores := [0], swt := true, ready := true, shadow := some (0x10000, tDescX), incoming := some 0x10000,
                       run, ctx := if run then 1 else 0 };
    let s := tPartn P;
    s.part 0 = P ∧ s.warps = [] ∧ s.groups = [] ∧ s.blocks = [] ∧ s.cmds = [] ∧
      (run = true → s.halted 1 = true ∧ P.drn = false ∧ (s.ctxs.get? 1).isSome = true ∧ 1 ≠ descCtx tDescX) := by
  cases run
  · exact ⟨rfl, rfl, rfl, rfl, rfl, nofun⟩
  · exact ⟨rfl, rfl, rfl, rfl, rfl, fun _ => ⟨by decide, rfl, by decide, by decide +kernel⟩⟩

theorem witness_ContextSwitches_off :
    let P : Partn := { cores := [0], swt := true, run := true, ctx := 1 };
    (tPartn P).part 0 = P ∧ (tPartn P).halted 1 = true ∧ ((tPartn P).ctxs.get? 1).isSome = true ∧ (tPartn P).cmds = [] := by
  decide

theorem witness_ContextSwitches_saved :
    let s := { tPartn { cores := [0], drn := true, draining := some 1 } with ctxs := [(1, { status := .draining 0 })] };
    s.ctxs.get? 1 = some { status := .draining 0 } ∧ (s.part 0).draining = some 1 ∧ (s.part 0).waiting = [] ∧
      s.imagesOut 1 = false ∧ s.ops = [] ∧ s.cmds = [] ∧ s.joins = [] ∧ s.spills = [] ∧
      s.partialOf (fun x => (s.block (s.warp x.1).block).ctx == 1) = false := by decide

/-- A ready module. -/
def tReady : State := { tOne [] with mgmt := { stage := .ready }, mem := [(0x9040, 5), (0x9041, 6)] }

theorem witness_HostRequests : AMap.sorted tReady.msgs = true ∧ AMap.sorted tReady.lines = true ∧
    AMap.sorted tReady.hostReqs = true ∧ Memory.wf tReady.mem = true ∧ tReady.mgmt.pstate = 0 ∧ tReady.mgmt.a1 = [] ∧
    tReady.flipOn = false ∧ tReady.mgmt.stage = .ready ∧ (0x9040 < Config.memBytes ∧ 0x9040 % 64 = 0) ∧ tReady.chip < 64 ∧
    tReady.hline 0x120 = {} ∧ tReady.hostBias (128 * 0x120) = false := by decide

theorem witness_HostRequests_bias :
    { tReady with btb := 0x20000, mem := [(0x9040, 5), (0x20001, 0x02)] }.hostBias (128 * 0x120) = true := by decide

theorem witness_HostRequests_snoop : placeOf 0x8000000001000 = .host 0x1000 ∧
    tReady.hline (0x8000000001000 / 128) = {} := by decide

theorem witness_HostRequests_answer :
    let s := { tReady with biWait := [(0x120, true)] };
    (s.biWait.get? 0x120).isSome = true ∧ (s.hline 0x120).busy = none := by decide

theorem witness_FlipsAndHostRegisters : tReady.flips.length < 16 ∧ tReady.ownPa (4096 * 9) = true ∧
    tReady.ownPa (4096 * ((2 ^ 51 : DWord).toNat % 2 ^ 52 / 4096)) = false := by decide

/-- Page 9 is to be in host bias: its flip is queued, or all its lines are done. -/
def tFlip (on : Bool) : State := { tReady with flips := [0x9001], flipOn := on, flipAt := 32, btb := 0x20000 }

theorem witness_FlipsAndHostRegisters_flip :
    (tFlip false).flips = [0x9001] ∧ (tFlip false).flipOn = false ∧
    ({ tFlip false with flips := [0x9000] }.holdQueued 9).hostBias (4096 * 9) = (0x9000 : DWord).getLsbD 0 ∧
    (∀ e ∈ (tFlip false).msgs, e.2.line / 32 = 9 → e.1 ∉ ((tFlip false).hline e.2.line).queue) ∧
    (tFlip true).flipBusy 9 = false ∧ (tFlip true).heldHost = [] ∧ (tFlip true).ownPa ((tFlip true).biasByte 9) = true ∧
    Memory.wf (tFlip true).mem = true ∧ AMap.sorted (tFlip true).lines = true ∧
    (tFlip true).atHand ((tFlip true).biasByte 9 / 128) true = true ∧
    (tFlip true).hline ((tFlip true).biasByte 9 / 128) = {} ∧ (tFlip true).msgs = [] ∧ (tFlip true).fetched = [] := by decide

/-- Page 9 leaves host bias, and the host has its first line, or its last. -/
theorem witness_FlipsAndHostRegisters_ask : ∀ i ∈ [0, 31],
    let s := { tReady with flips := [0x9000], btb := 0x20000, mem := [(0x9040, 5), (0x20001, 0x02)], lines := [(0x120 + i, { hs := true })] };
    s.flips = [0x9000] ∧ s.flipOn = false ∧ s.hostBias (4096 * 9) = true ∧ (0x9000 : DWord).getLsbD 0 = false ∧
      (∀ j ∈ List.range i, (s.hline (32 * 9 + j)).atHost = false ∧ s.hostServing (32 * 9 + j) = false) ∧
      (s.hline (32 * 9 + i)).atHost = true ∧ s.hostServing (32 * 9 + i) = false ∧ s.holdQueued 9 = s ∧ s.biWait.get? (32 * 9 + i) = none := by decide +kernel

/-- Lane 0's load into v4 and v5 waits for a host register. -/
def tHostLoad : State :=
  { tOne [1] with regReqs := [(5, ⟨9, true⟩)], works := [(4, { warp := 3, flag := none, left := 1 })],
                  ops := [(9, { tOp (.ld false) with dst := some 4, dstLen := 2 })] }

theorem witness_FlipsAndHostRegisters_load : tHostLoad.regReqs.get? 5 = some ⟨9, true⟩ ∧
    tHostLoad.ops.get? 9 = some { tOp (.ld false) with dst := some 4, dstLen := 2 } ∧ tHostLoad.threadsOk ∧
    (tHostLoad.warps.get? 3).isSome = true ∧ (tOp (.ld false)).hold = none ∧ (tOp (.ld false)).spill = none :=
  ⟨by decide, by decide, threads_of (by decide), by decide, by decide, by decide⟩

/-- Link 2 to chip 1. -/
def tLink (l : Link) : State := { tReady with links := [(2, { l with peer := 1 })], time := 5000 }

theorem crc_wrong (x : BitVec 64) : x ≠ ~~~x := fun h => by
  have h := congrArg (fun y : BitVec 64 => y.getLsbD 0) h
  simp at h

/-- Whatever the CRC of a flit is, there are flits that carry it and flits that do not, in order and out of order. -/
theorem witness_FabricEvents (ack : BitVec 16) (slots : List FlitSlot) :
    AMap.sorted (tLink { up := true }).links = true ∧ ((tLink { up := true }).link 2).up = true ∧
    ((tLink { up := true }).link 2).failed = false ∧ (tLink { up := true }).mgmt.pstate = 0 ∧
    (0 : Word).toNat = ((tLink { up := true }).link 2).rxSeq ∧ (7 : Word).toNat ≠ ((tLink { up := true }).link 2).rxSeq ∧
    ((tLink { up := true }).link 2).fails = 0 ∧ ((tLink { up := true, fails := 1 }).link 2).fails ≠ 0 ∧
    (∃ crc, Config.crc64 (flitBytes 0 ack slots) = crc) ∧ (∃ crc, Config.crc64 (flitBytes 0 ack slots) ≠ crc) ∧
    (tLink { up := true }).remoteChip 0x120 = none ∧ (tLink { up := true }).sync.sent < (tLink { up := true }).time / 1000 ∧
    (tLink { up := true }).sync.master = false :=
  ⟨by decide, by decide, by decide, by decide, by decide, by decide, by decide, by decide, ⟨_, rfl⟩,
    ⟨_, crc_wrong _⟩, by decide, by decide, by decide⟩

/-- A link that has failed, with nothing on its way, or with one request. -/
theorem witness_FabricEvents_down (f : Flit) : ∀ l ∈ [({ up := true, fails := 9 } : Link), { up := true, fails := 9, replay := [f] }],
    let s := tLink l;
    (s.link 2).up = true ∧ (s.link 2).failed = true ∧ s.lines = [] ∧ s.joins = [] ∧ s.launches = [] ∧ s.shoots = [] ∧
      ringBase s.erbase = 0 ∧ (s.link 2).wait = [] ∧ (s.link 2).held = [] ∧ ∀ lost, s.lostMons lost = [] := by
  simp only [List.mem_cons, List.not_mem_nil, or_false]
  rintro l (rfl | rfl) <;> exact ⟨rfl, rfl, rfl, rfl, rfl, rfl, (by decide : ringBase 0 = 0), rfl, rfl, fun _ => rfl⟩

/-- A link to a chip in A3 that has kept a message, and a chip that is itself in A3. -/
theorem witness_FabricEvents_wake (p : Packet) :
    ((tLink { up := true, asleep := true, held := [p] }).link 2).held ≠ [] ∧
    (tLink { up := true, asleep := true, held := [p] }).mgmt.pstate ≠ 3 ∧
    { tReady with mgmt := { tReady.mgmt with pstate := 3 } }.mgmt.pstate = 3 ∧ (2 < Config.nLink) ∧ tReady.mayRoute 1 = false ∧
    { tReady with parts := [] }.mayRoute 1 = true ∧ AMap.sorted tReady.routes = true :=
  ⟨nofun, nofun, rfl, by decide, by decide, by decide, by decide⟩

theorem witness_FabricEvents_lock :
    let s := { tLink { up := true } with sync := { lock := true, within := 64 }, time := 100000 };
    s.sync.lock = true ∧ s.sync.last + 100000 ≤ s.time ∧
      { s with sync := { within := 63 } }.sync.within = 63 := by decide

/-- An image without a body; its argument block is at 0x400, and its bytes are at 0x1000. -/
def tImageMem : List Host.Cell :=
  [(0x401, 0x10), (0x408, 0x44), (0x409, 0x0B), (0x1000, 0x55), (0x1001, 0x58), (0x1002, 0x46), (0x1003, 0x58), (0x1004, 1)]

def tManaged (g : MStage) : State := { tReady with mem := tImageMem, mgmt := { stage := g, marg := 0x400 } }

def tArg : Nat := memRead tImageMem 0x400 64
def tHdr : Nat := memRead tImageMem 0x1000 64

theorem witness_ManagementCommands (g : MStage) : (tManaged g).mgmt.busy = false ∧
    (tManaged g).mgmt.marg.toNat % 2 ^ 52 / 64 * 64 = 0x400 ∧
    (tManaged g).unasked.devRead 0x400 64 = ((tManaged g).unasked, tArg) ∧ field tArg 0 8 % 2 ^ 52 = 0x1000 ∧ field tArg 8 4 = 2884 ∧
    (tManaged g).unasked.devRead 0x1000 64 = ((tManaged g).unasked, tHdr) ∧ imageShape (bytesOfNat 64 tHdr) 2884 = true ∧
    imageShape (bytesOfNat 64 0) 2884 = false := by
  refine ⟨by cases g <;> decide, by cases g <;> decide, ?_, by decide +kernel, by decide +kernel, ?_, by decide +kernel, by decide +kernel⟩ <;>
    cases g <;> decide +kernel

/-- The image's 2,884 bytes are device memory that nothing else holds. -/
theorem witness_ManagementCommands_image (g : MStage) : (tManaged g).unasked.devRead 0x1000 2884 =
    ((tManaged g).unasked, memRead tImageMem 0x1000 2884) := by cases g <;> decide +kernel

/-- A report that is to be written at 0x9000, or another command that ends. -/
def tEnds (j : MJob) (e : Nat) (im : List Byte) : State :=
  { tReady with mgmt := { tReady.mgmt with busy := true, job := some j, jobErr := e, jobImage := im, jobAddr := 0x9000 } }

theorem witness_ManagementCommands_done (j : MJob) (e : Nat) :
    (tEnds j e []).mgmt.job = some j ∧ (tEnds j e []).storesOut = false ∧
    State.reset.mgmt.stage = .rom ∧ State.reset.mgmt.flash = [] ∧ (tManaged .init).mgmt.stage = .init ∧
    (tManaged .verify).mgmt.stage = .verify ∧
    imageCheck (tManaged .verify).mgmt.flash (tManaged .verify).mgmt.flash.length (tManaged .verify).mgmt.minver = 3 :=
  ⟨rfl, rfl, rfl, rfl, rfl, rfl, by decide⟩

theorem witness_ManagementCommands_report :
    let s := tEnds .attest 0 [1, 2, 3];
    s.mgmt.job = some .attest ∧ s.mgmt.jobErr = 0 ∧ s.mgmt.jobImage ≠ [] ∧ s.storesOut = false ∧ Memory.wf s.mem = true ∧
      ∀ n ∈ linesOf s.mgmt.jobAddr s.mgmt.jobImage.length, s.atHand n true = true := by decide

theorem witness_PowerStates :
    let s := { tReady with time := 2000000 };
    let cool (d : Nat) : BitVec 16 := ([850, 799, 820] : List (BitVec 16)).getD d 0;
    let hot (d : Nat) : BitVec 16 := ([0, 921] : List (BitVec 16)).getD d 0;
    s.cxlIo = true ∧ s.mgmt.sensAt < s.time / 1000000 ∧ AMap.sorted s.mgmt.sens = true ∧
      AMap.sorted s.mgmt.tcap = true ∧ (∀ d, d < 3 → (cool d).toInt ≤ 920) ∧ 840 < (cool 0).toInt ∧ (cool 1).toInt < 800 ∧
      920 < (hot 1).toInt := by decide

/-- A module that nothing occupies, of a domain of so many chips, with chip 1 behind link 0 and chip 2 behind link 1. -/
def tIdle (n tol : Nat) (en : Bool) : State :=
  { tReady with warps := [], parts := [], domain := List.range n, time := 100000, routes := [(1, [0]), (2, [1])],
                links := [(0, { up := true, peer := 1 }), (1, { up := true, peer := 2 })], mgmt := { stage := .ready, tol, ltrEn := en } }

theorem witness_PowerStates_idle : (tIdle 1 800000 true).idleNow = true ∧ (tIdle 1 800000 true).a3Ok = true ∧
    (tIdle 3 800000 true).idleNow = true ∧ (tIdle 3 800000 true).a3Ok = false ∧ (tIdle 1 40000 true).idleNow = true ∧
    (tIdle 1 40000 true).mgmt.busyAt + 100000 ≤ (tIdle 1 40000 true).time ∧ (tIdle 1 2000 false).dieBusy 0 = false ∧
    (tIdle 1 2000 false).mgmt.dieBusyAt.getD 0 0 + 10000 ≤ (tIdle 1 2000 false).time := by decide

theorem witness_PowerStates_wake :
    { tReady with mgmt := { tReady.mgmt with pstate := 2 } }.lowPower = true ∧
    { tReady with mgmt := { tReady.mgmt with a1 := [1] } }.lowPower = true ∧ tReady.lowPower = false ∧
    { tReady with mgmt := { tReady.mgmt with a1 := [1] } }.cxlIo = true ∧ { tReady.mgmt with pstate := 2, exiting := true }.exiting = true ∧
    tReady.heldHost = [] ∧ tReady.heldRegs = [] ∧ tReady.heldMsgs = [] ∧ inPage 0 0x100010 = true ∧ inPage 3 0 = true ∧
    inPage 0 0x10 = false := by decide

/-- Group 7 halted before its last word, or past it. -/
def tHalted (pc : DWord) : State := tState { tGroup [0] with park := .halt, pc } (tWarp [(0, tLane [1])])

theorem witness_StopsAndRegisters : ∀ pc ∈ [(0x1004 : DWord), 0x100C],
    (tHalted pc).threadsOk ∧ AMap.sorted (tHalted pc).cores = true ∧
    (tHalted pc).groups.get? 7 = some { tGroup [0] with park := .halt, pc } ∧ (1 : BitVec 4).getLsbD (tGroup [0]).sub = true ∧
    (∀ e ∈ (tHalted pc).groups, e.1 ≠ 7 → e.2.park ≠ .halt) ∧ (tHalted pc).issuing ((tHalted pc).block 1).ctx = true ∧
    ((tHalted pc).core 0).stop.getLsbD 1 = false ∧ ((tHalted pc).core 0).ecmp.toNat = (tHalted pc).clock ∧
    ((tHalted pc).core 0).ecmpHit = false ∧
    (∀ e ∈ (tHalted pc).warps, e.2.pending = [] ∧ e.2.lsecc = none) ∧
    (pc = 0x100C ↔ ({ tGroup [0] with pc } : Group).pc = (tGroup [0]).clauseEnd) := by
  simp only [List.mem_cons, List.not_mem_nil, or_false]
  rintro pc (rfl | rfl) <;> exact ⟨threads_of (by decide), by decide⟩

/-- A dump of three bytes. -/
def tDump : State := { tOne [] with cores := [(0, { dumping := [(2, (0xA000, [1, 0, 3]))] })] }

theorem witness_StopsAndRegisters_dump :
    (tDump.core 0).dumping.get? 2 = some (0xA000, [1, 0, 3]) ∧ tDump.storesOut = false ∧ Memory.wf tDump.mem = true ∧
      ∀ n ∈ linesOf 0xA000 3, tDump.atHand n true = true := by decide

theorem witness_StopsAndRegisters_again (idem : Bool) :
    let s := { tOne [1] with groups := [], focus := .none, blocks := [(1, { tBlock with ended := true, told := true, idem })] };
    s.threadsOk ∧ s.blocks.get? 1 = some { tBlock with ended := true, told := true, idem } ∧ (s.reallot 1).isSome = true ∧ AMap.sorted s.blocks = true ∧
      s.issuing 1 = true ∧ s.cmds = [] ∧ s.rels = [] ∧ s.ops = [] ∧ s.spills = [] ∧ s.joins = [] ∧ s.works = [] ∧
      s.remotes = [] ∧ ∀ w ∈ tBlock.warps, (s.warp w).gwct ≤ s.timeAt tBlock.core := by
  cases idem <;> exact ⟨threads_of (by decide), by decide⟩

theorem witness_StopsAndRegisters_flips : tReady.flips = [] ∧ (tFlip false).flips ≠ [] ∧ 12 % 8 ≠ 0 ∧
    tReady.cxlIo = true ∧ tReady.mgmt.pstate = 0 ∧ tReady.mgmt.a1 = [] ∧ (4 : Nat) ≠ 8 ∧ 1 ≤ 1 ∧ 0x1000 ≤ 0x1000 := by decide

theorem witness_ThreadsOkKept : tTurn.threadsOk ∧ ∃ t, step tTurn = .next t := ⟨threads_of (by decide), next_of (by decide)⟩

theorem witness_ShiftsFieldsMoves : (tTwo [1, 2] [3, 4]).Ready 7 (tGroup [0, 1]) tOps ⟨2, 2, 1, 1, false, []⟩ :=
  ready_of (by decide)

theorem witness_ShiftsFieldsMoves_words : (tTwo [1, 2] [3, 4]).Ready 7 (tGroup [0, 1]) tOps {} := ready_of (by decide)

theorem witness_ShiftsFieldsMoves_select : (tTwo [1, 2] [3, 4]).Ready 7 (tGroup [0, 1]) tOps ⟨2, 2, 2, 1, false, []⟩ :=
  ready_of (by decide)

theorem witness_UniformForms_truth : (tUni 6 7).ReadyU 7 (tGroup [0, 1]) (usrcS (.s 2) 1 ++ usrcS (.s 3) 1) ∧
    (⟨.q 1, .s 2, .s 3⟩ : UOps).d = .q 1 := ⟨readyU_of (by decide), rfl⟩

/-! ## Ill-formed terms -/

def tNo : Ops := ⟨.none, .none, .none, .none, ⟨7, false⟩⟩
def tPlain : FMod := ⟨.rn, false, false, false, false, false, false⟩
def tNoMod : IMod := ⟨false, false, false, false, 0, 0⟩
def tDot : DotMod := ⟨false, false, false, false, false⟩
def tCpNone : CpMod := ⟨none, none, false, false, false⟩
def tNoComb : Comb := ⟨.none, 0, false⟩

/-- A header with SETB alone, or with one flag twice. -/
theorem ill_header : (Instr.clauseHeader ⟨0, none, some 1, 1, false⟩).wf = false ∧
    (Instr.clauseHeader ⟨0, some 1, some 1, 1, false⟩).wf = false := by decide

/-- Two literals, no destination, a predicate destination, an odd pair, a pair past the file, an s destination. -/
theorem ill_operands : (Instr.iAdd { tOps with a := .lit 1, b := .lit 2 } tNoMod).wf = false ∧
    (Instr.iAdd { tOps with d := .none, c := .none } tNoMod).wf = false ∧ (Instr.iAdd { tOps with d := .p 1, c := .none } tNoMod).wf = false ∧
    (Instr.iAdd { tOps with d := .v 9, c := .none } { tNoMod with w64 := true }).wf = false ∧
    (Instr.mvMov ⟨.v 8, .s 47, .none, .none, ⟨7, false⟩⟩ true).wf = false ∧
    (Instr.iAdd { tOps with d := .s 3, c := .none } tNoMod).wf = false := by decide

/-- CO without CE, CI outside ADDC and SUBB, SAT with CE, U with ADDC, W64 with SAD, WIDE with MAD, COMB's fields. -/
theorem ill_integer : (Instr.iAdd { tOps with c := .none } { tNoMod with co := 1 }).wf = false ∧
    (Instr.iAdd { tOps with c := .none } { tNoMod with ci := 1 }).wf = false ∧
    (Instr.iSub { tOps with c := .none } { tNoMod with sat := true, ce := true }).wf = false ∧
    (Instr.iAddc { tOps with c := .none } { tNoMod with u := true }).wf = false ∧
    (Instr.iSad { tOps with c := .none } { tNoMod with w64 := true }).wf = false ∧
    (Instr.imMad tOps .wide false).wf = false ∧ (Instr.imMadw tOps false).wf = false ∧
    (Instr.cmpI { tOps with c := .none } .eq false { tNoComb with cp := 3 }).wf = false ∧
    (Instr.prLog { tOps with b := .none, c := .none } 1 2 3).wf = false := by decide

/-- RM = SR where it may not stand, NC without a C, a rounding mode with MIN, BF with F, SR to F32, SAT with F2I. -/
theorem ill_float : (Instr.fAdd { tOps with c := .none } { tPlain with rm := .sr }).wf = false ∧
    (Instr.fMul { tOps with c := .none } { tPlain with nc := true }).wf = false ∧
    (Instr.fMin { tOps with c := .none } { tPlain with rm := .rz }).wf = false ∧ (Instr.fFma tOps { tPlain with bf := true }).wf = false ∧
    (Instr.cvF2f { tOps with c := .none } ⟨.sr, false, false⟩ .f64 .f32).wf = false ∧
    (Instr.cvF2i { tOps with b := .none, c := .none } ⟨.rn, false, true⟩ .f32 .s32).wf = false ∧
    (Instr.dotE4m3x4 tOps { tDot with ua := true }).wf = false ∧ (Instr.dotI8x4 tOps { tDot with fz := true }).wf = false ∧
    (Instr.pkCvt tOps ⟨.e4m3, .rn, false, false, 2⟩).wf = false ∧ (Instr.pkCvt tOps ⟨.i8, .sr, false, false, 0⟩).wf = false ∧
    (Instr.pkScl { tOps with b := .none, c := .none } .f16).wf = false := by decide

/-- A numeric source in a logical form on q registers, a constant that is no truth value, two literals, ULD.C's literal base. -/
theorem ill_uniform : (Instr.uLogAnd ⟨.q 1, .s 2, .q 3⟩).wf = false ∧ (Instr.uLogOr ⟨.q 1, .k 2, .q 3⟩).wf = false ∧
    (Instr.uAdd ⟨.s 1, .lit 1, .lit 2⟩).wf = false ∧ (Instr.uldC ⟨.s 1, .lit 1, .k 0⟩).wf = false ∧
    (Instr.uCmpEq ⟨.s 1, .s 2, .s 3⟩).wf = false ∧ (Instr.uMov ⟨.q 1, .s 2, .k 0⟩).wf = false ∧
    (Instr.hcClaim ⟨.none, .s 3, .lit 0⟩).wf = false ∧ (Instr.ucSet ⟨.none, .k 0, .lit 0⟩).wf = false := by decide

/-- An address that is no register pair, ORD with THRU, U outside MIN and MAX, a 32-bit pair of a compare-and-swap. -/
theorem ill_memory : (Instr.ldB32 { tOps with a := .k 0, c := .none } ⟨.own, false⟩).wf = false ∧
    (Instr.stB64 { tOps with d := .none, a := .v 2, c := .v 5 } ⟨.own, false⟩).wf = false ∧
    (Instr.rdAdd { tOps with d := .none, a := .v 2 } ⟨true, false, false, true, false⟩).wf = false ∧
    (Instr.atAdd { tOps with a := .v 2 } ⟨.own, true, false, false⟩).wf = false ∧
    (Instr.atCas { tOps with a := .v 2, c := .k 1 } ⟨.own, false, false, false⟩).wf = false ∧
    (Instr.lsAt { tOps with d := .v 8 } .fadd true false).wf = false ∧
    (Instr.hAcc { tOps with a := .v 2, c := .none } .lo .add .i64 false).wf = false ∧
    (Instr.fnFence tOps .core).wf = false := by decide

/-- ACC.ST to F32 with a rounding mode, M.SCL with SR, ARV of a store, SL outside CP.LIN, ARV of CP.LIN out of the store. -/
theorem ill_tiles : (Instr.accSt { tNo with a := .v 1, b := .v 2 } 0 .f32 .rz false).wf = false ∧
    (Instr.mScl { tNo with a := .v 1 } 0 ⟨false, .sr, false, false⟩).wf = false ∧
    (Instr.cpStore ⟨.none, .v 4, .v 2, .v 8, ⟨7, false⟩⟩ { tCpNone with arv := some 1 }).wf = false ∧
    (Instr.cpTile ⟨.none, .v 4, .v 2, .v 8, ⟨7, false⟩⟩ { tCpNone with sl := true }).wf = false ∧
    (Instr.cpLin ⟨.none, .v 4, .v 2, .v 8, ⟨7, false⟩⟩ { tCpNone with sl := true, arv := some 1 }).wf = false ∧
    (Instr.mMma { tNo with a := .v 16, b := .v 24, c := .v 9 } 2).wf = false ∧
    (Instr.trTlbi { tNo with a := .v 4, b := .s 2 } true true).wf = false := by decide

/-! ## Words written out from the encodings

Each word stands field by field from bit 31 down, as its family's table has it. -/

/-- OP 0x00 I, OPC 0 ADD in R133: D v3, A v1, B the constant 1 (R23), C none, P p7 (R19, R20). -/
theorem word_iAdd : decode [0x020603E2] = .ok (.iAdd ⟨.v 3, .v 1, .k 1, .none, ⟨7, false⟩⟩ tNoMod) 1 := by decide

theorem word_fFma : decode [0x14141619, 0x0D703001] =
    .ok (.fFma ⟨.v 10, .v 11, .v 12, .v 13, ⟨7, false⟩⟩ { tPlain with rm := .rz }) 2 := by decide

theorem word_lit_missing : decode [0x0DE201FD, 0xFF700002] = .truncated := by decide

theorem word_brRel : decode [0x21FFFFF5, 0xFF900000] = .ok (.brRel (BitVec.ofInt 24 (-6)) ⟨1, true⟩) 2 := by decide

theorem word_uAdd : decode [0x84208300] = .ok (.uAdd ⟨.s 2, .s 2, .s 3⟩) 1 := by decide

theorem word_churn : decode [0x93FFFF02] = .ok .hcFree 1 ∧
    decode [0x93F13C01, 0x00050040] = .ok (.hcClaim ⟨.none, .s 4, .lit 0x00050040⟩) 2 ∧
    decode [0x3C100409, 0xFF703021] = .ok (.hAcc ⟨.v 8, .v 2, .v 4, .none, ⟨7, false⟩⟩ .lo .add .f32 false) 2 := by decide

theorem word_tiles : decode [0x3FFE1021, 0x18700002] = .ok (.mMma ⟨.none, .v 8, .v 16, .v 24, ⟨7, false⟩⟩ 2) 2 ∧
    decode [0x45FF9029, 0x18700030] =
      .ok (.cpTile ⟨.none, .s 8, .v 20, .v 24, ⟨7, false⟩⟩ { tCpNone with arv := some 1 }) 2 ∧
    decode [0x45FFFFFF, 0xFF704000] = .ok (.cpSeal tNo) 2 := by decide

theorem word_rings : decode [0x47FFE007, 0x04702000] = .ok (.rgWait ⟨.none, .k 0, .v 3, .v 4, ⟨7, false⟩⟩ .full) 2 ∧
    decode [0x982C7F00] = .ok (.gSet 2 (.q 1)) 1 ∧ decode [0x982FFF02] = .ok (.gClr 2) 1 := by decide

theorem word_colours : decode [0x97F13C01, 0x2005] = .ok (.ucSet ⟨.none, .s 4, .lit 0x2005⟩) 2 ∧
    decode [0x420409E0] = .ok (.cGet ⟨.v 2, .v 4, .k 0, .none, ⟨7, false⟩⟩) 1 := by decide

theorem word_memory : decode [0x33FE09E1, 0x09702001] = .ok (.stB32 ⟨.none, .v 4, .k 0, .v 9, ⟨7, false⟩⟩ ⟨.thru, false⟩) 2 ∧
    decode [0x300C09FD, 0xFF704002, 0x1000] = .ok (.ldB32 ⟨.v 6, .v 4, .lit 0x1000, .none, ⟨7, false⟩⟩ ⟨.lease, false⟩) 3 ∧
    decode [0x39FFFFFE] = .ok (.fnFence tNo .core) 1 := by decide

theorem word_cross : decode [0x280201E7, 0xC4700003] = .ok (.xlShfl ⟨.v 1, .v 0, .k 3, .s 4, ⟨7, false⟩⟩ .bfly false) 2 ∧
    decode [0x27E1FF81, 0xFF70001B] = .ok (.wvVote ⟨.p 0, .none, .s 0, .none, ⟨7, false⟩⟩ 3 true .any) 2 ∧
    decode [0x4A0609E1, 0xF2700000] = .ok (.wSpawn ⟨.v 3, .v 4, .k 0, .k 2, ⟨7, false⟩⟩ false) 2 := by decide

theorem word_traps : decode [0x4DFFE3FE] = .ok (.trTrap ⟨.none, .k 1, .none, .none, ⟨7, false⟩⟩) 1 ∧
    decode [0x4C09FFFF, 0xFF702001] = .ok (.trMfs ⟨.v 4, .none, .none, .none, ⟨7, false⟩⟩ .tcs) 2 ∧
    decode [0x4DFE0985, 0xFF704001] = .ok (.trTlbi ⟨.none, .v 4, .s 2, .none, ⟨7, false⟩⟩ true false) 2 := by decide

theorem word_header : decodeHeader 0xFC007FCE = some ⟨1, none, none, 7, false⟩ := by decide

/-! One word of each further family, its fields laid out by R19 and R20, R30, or R32 to R34 and its entry. -/

theorem word_imMad : decode [0x04080A0D, 0x07701005] = .ok (.imMad ⟨.v 4, .v 5, .v 6, .v 7, ⟨7, false⟩⟩ .hi true) 2 := by decide

theorem word_logAndn : decode [0x06098DE9, 0xFF703001] = .ok (.logAndn ⟨.v 4, .s 6, .k 4, .none, ⟨7, false⟩⟩ true) 2 := by decide

theorem word_shShr : decode [0x080811E5, 0xFF701003] = .ok (.shShr ⟨.v 4, .v 8, .k 2, .none, ⟨7, false⟩⟩ true true) 2 := by decide

theorem word_bfExt : decode [0x0A0811FD, 0xFF700001, 0x00000804] = .ok (.bfExt ⟨.v 4, .v 8, .lit 0x0804, .none, ⟨7, false⟩⟩ true) 3 := by decide

theorem word_cmpI : decode [0x0DE411E1, 0xFF700569] = .ok (.cmpI ⟨.p 2, .v 8, .k 0, .none, ⟨7, false⟩⟩ .geu false ⟨.and, 3, true⟩) 2 := by decide

theorem word_prLog : decode [0x0FE7FDFF, 0xFF7001D1, 0x00000020] = .ok (.prLog ⟨.p 3, .lit 0x20, .none, .none, ⟨7, false⟩⟩ 1 2 7) 3 := by decide

theorem word_mvSel : decode [0x10081013, 0xFF70100D] = .ok (.mvSel ⟨.v 4, .v 8, .v 9, .none, ⟨7, false⟩⟩ 5 true false) 2 := by decide

theorem word_cvF2i : decode [0x120811FF, 0xFF701549] = .ok (.cvF2i ⟨.v 4, .v 8, .none, .none, ⟨7, false⟩⟩ ⟨.rz, true, false⟩ .f16 .u16) 2 := by decide

theorem word_fhFma2 : decode [0x16081013, 0xFD702180] = .ok (.fhFma2 ⟨.v 4, .v 8, .v 9, .k 13, ⟨7, false⟩⟩ ⟨.rn, false, false, false, false, true, true⟩) 2 := by decide

theorem word_dMax : decode [0x180811ED, 0xFF704020] = .ok (.dMax ⟨.v 4, .v 8, .k 6, .none, ⟨7, false⟩⟩ ⟨.rn, false, false, true, false, false, false⟩) 2 := by decide

theorem word_sfRsq : decode [0x1A0811FF, 0xFF701008] = .ok (.sfRsq ⟨.v 4, .v 8, .none, .none, ⟨7, false⟩⟩ true) 2 := by decide

theorem word_dotE2m1 : decode [0x1C0A0205, 0x03704004] = .ok (.dotE2m1x8 ⟨.v 5, .v 1, .v 2, .v 3, ⟨7, false⟩⟩ ⟨false, false, true, false, false⟩) 2 := by decide

theorem word_pkCvt : decode [0x1E081013, 0x0A700744] = .ok (.pkCvt ⟨.v 4, .v 8, .v 9, .v 10, ⟨7, false⟩⟩ ⟨.e2m1, .sr, false, true, 3⟩) 2 := by decide

theorem word_clCall : decode [0x22000020] = .ok (.clCall 0x10 ⟨7, false⟩) 1 := by decide

theorem word_xNap : decode [0x25FFFDFF, 0xFF702000, 0x00000064] = .ok (.xNap ⟨.none, .lit 100, .none, .none, ⟨7, false⟩⟩) 3 := by decide

theorem word_qSwap : decode [0x2A0811FF, 0xFF700003] = .ok (.qSwap ⟨.v 4, .v 8, .none, .none, ⟨7, false⟩⟩ .diag) 2 := by decide

theorem word_wrScan : decode [0x2C081181, 0xFF701018] = .ok (.wrScan ⟨.v 4, .v 8, .s 0, .none, ⟨7, false⟩⟩ .fadd true) 2 := by decide

theorem word_srRead : decode [0x2E09FFFF, 0xFF700020] = .ok (.srRead ⟨.v 4, .none, .none, .none, ⟨7, false⟩⟩ .time) 2 := by decide

theorem word_bBar : decode [0x49FFFFFD, 0xFF700003, 0x00000040] = .ok (.bBar ⟨.none, .none, .lit 64, .none, ⟨7, false⟩⟩ 3) 3 := by decide

theorem word_atCas : decode [0x340811E1, 0x0C707802] = .ok (.atCas ⟨.v 4, .v 8, .k 0, .v 12, ⟨7, false⟩⟩ ⟨.lease, false, false, true⟩) 2 := by decide

theorem word_rdMin : decode [0x37FE11E1, 0x0C701014] = .ok (.rdMin ⟨.none, .v 8, .k 0, .v 12, ⟨7, false⟩⟩ ⟨false, true, false, true, false⟩) 2 := by decide

theorem word_lsAt : decode [0x3A0811E1, 0x0C702019] = .ok (.lsAt ⟨.v 4, .v 8, .k 0, .v 12, ⟨7, false⟩⟩ .minu true false) 2 := by decide

theorem word_accSt : decode [0x41FE1013, 0x0A701445] = .ok (.accSt ⟨.none, .v 8, .v 9, .v 10, ⟨7, false⟩⟩ 5 .f16 .sr false) 2 := by decide

theorem word_ubLoop : decode [0x885FF902] = .ok (.ubLoop 5 (.short (BitVec.ofInt 12 (-7)))) 1 := by decide

theorem word_ubBra : decode [0x8B100001, 0x00000040] = .ok (.ubBra (some 1) (.long 0x40)) 2 := by decide

theorem word_uldC : decode [0x8C51BC01, 0x00000018] = .ok (.uldC ⟨.s 5, .s 6, .lit 0x18⟩) 2 := by decide

theorem word_uSel : decode [0x8451B956] = .ok (.uSel ⟨.s 5, .s 6, .k 1⟩ 3) 1 := by decide

/-! ## One step each

The expected values are the spec's worked cases or sums done by hand. -/

/-- Register r of lane 0 after an outcome. -/
def afterV (r : Nat) (x : Out) : Option Word :=
  match x with
  | .next t => some ((t.lane 3 0).getV r)
  | .fault _ | .refused _ => none

/-- R146's worked case: 0.5 + 12 = 12.5. -/
theorem test_dot : afterV 5 (exec (.dotE2m1x8 ⟨.v 5, .v 1, .v 2, .v 3, ⟨7, false⟩⟩ ⟨false, false, true, false, false⟩)
    (tOne [0xA6, 0x22, 0x7F81, 0, 0x3F000000])) = some 0x41480000 := by decide +kernel

/-- R145's worked case: the reciprocal square root of 2. -/
theorem test_rsq : afterV 5 (exec (.sfRsq ⟨.v 5, .v 1, .none, .none, ⟨7, false⟩⟩ false) (tOne [0x40000000])) = some 0x3F350800 := by
  decide +kernel

/-- R133's worked cases: the absolute value of -2^31. -/
theorem test_abs : afterV 5 (exec (.iAbs ⟨.v 5, .v 1, .none, .none, ⟨7, false⟩⟩ tNoMod) (tOne [0x80000000])) = some 0x80000000 ∧
    afterV 5 (exec (.iAbs ⟨.v 5, .v 1, .none, .none, ⟨7, false⟩⟩ { tNoMod with sat := true }) (tOne [0x80000000])) =
      some 0x7FFFFFFF := by decide +kernel

/-- R24's worked cases: constants as 64-bit operands. -/
theorem test_constants : afterV 5 (exec (.mvMov ⟨.v 4, .k 11, .none, .none, ⟨7, false⟩⟩ true) (tOne [])) = some 0xFFFFFFFF ∧
    afterV 5 (exec (.dMax ⟨.v 4, .k 8, .k 8, .none, ⟨7, false⟩⟩ tPlain) (tOne [])) = some 0xBFF00000 := by decide +kernel

/-- R136, R137: shifts by more than the width, and the two counts of zero. -/
theorem test_corners : afterV 5 (exec (.shShr ⟨.v 5, .v 1, .v 2, .none, ⟨7, false⟩⟩ false true) (tOne [0x80000001, 40])) = some 0xFFFFFFFF ∧
    afterV 5 (exec (.shShl ⟨.v 5, .v 1, .v 2, .none, ⟨7, false⟩⟩ false) (tOne [0x80000001, 32])) = some 0 ∧
    afterV 5 (exec (.bfFfs ⟨.v 5, .k 0, .none, .none, ⟨7, false⟩⟩) (tOne [])) = some 0xFFFFFFFF ∧
    afterV 5 (exec (.bfClz ⟨.v 5, .k 0, .none, .none, ⟨7, false⟩⟩) (tOne [])) = some 32 := by decide +kernel

/-- A source that is also the destination, a wrap, and a predicate that is false. -/
theorem test_add : afterV 1 (exec (.iAdd ⟨.v 1, .v 1, .v 2, .none, ⟨7, false⟩⟩ tNoMod) (tOne [0xFFFFFFFF, 3])) = some 2 ∧
    afterV 1 (exec (.iAdd ⟨.v 1, .v 1, .v 2, .none, ⟨7, true⟩⟩ tNoMod) (tOne [0xFFFFFFFF, 3])) = some 0xFFFFFFFF := by decide +kernel

/-- R136: FUN takes bits from the pair B:A. -/
theorem test_fun : afterV 5 (exec (.shFun ⟨.v 5, .v 1, .v 2, .v 3, ⟨7, false⟩⟩ false) (tOne [0x12345678, 0x9ABCDEF0, 8])) =
    some 0xF0123456 := by decide +kernel

/-- R140: bytes by a selector, one of them a sign. -/
theorem test_prm : afterV 5 (exec (.mvPrm ⟨.v 5, .v 1, .v 2, .v 3, ⟨7, false⟩⟩) (tOne [0x00CC8011, 0x44332211, 0x9704])) =
    some 0xFF441111 := by decide +kernel

end Sys2Proof.Machine
end

section
/-! SUPPORT. What a change of warps, lanes, registers, cores and contexts leaves alone; what retiring does; a group of thread
lanes of one warp; issuing a word that reads the lowest lane of each warp. -/

namespace Sys2Proof.Machine

/-! ## Warps and lanes after a change -/

/-- Every warp lists its lanes in rising order. -/
def State.lanesOk (s : State) : Prop := ∀ w, AMap.sorted (s.warp w).lanes = true

theorem AMap.mem_of_get? {α : Type} {m : AMap α} {i : Nat} {x : α} (h : m.get? i = some x) : (i, x) ∈ m := by
  induction m with
  | nil => simp at h
  | cons a m ih =>
    obtain ⟨k, v⟩ := a
    simp only [AMap.get?] at h
    split at h
    · cases h
    · split at h
      · rename_i hik
        cases h
        simp [hik]
      · exact List.mem_cons_of_mem _ (ih h)

theorem AMap.sorted_putD {α : Type} [DecidableEq α] {m : AMap α} (i : Nat) (x d : α) (h : m.sorted = true) :
    (m.putD i x d).sorted = true := by
  unfold AMap.putD
  split
  · exact AMap.sorted_del _ h
  · exact AMap.sorted_set _ _ h

theorem State.warp_of_get? {s : State} {w : Nat} {W : Warp} (h : s.warps.get? w = some W) : s.warp w = W := by
  simp [State.warp, AMap.getD, h]

theorem State.warp_of_none {s : State} {w : Nat} (h : s.warps.get? w = none) : s.warp w = {} := by
  simp [State.warp, AMap.getD, h]

theorem State.threadsOk.lanesOk {s : State} (h : s.threadsOk) : s.lanesOk := by
  obtain ⟨-, -, htidy⟩ := h
  intro w
  cases hw : s.warps.get? w with
  | none => rw [State.warp_of_none hw]; rfl
  | some W =>
    obtain ⟨-, hl, -⟩ := htidy _ (AMap.mem_of_get? hw)
    rw [State.warp_of_get? hw]
    exact hl

/-- The v registers of every lane are listed in rising order. -/
theorem State.threadsOk.vSorted {s : State} (h : s.threadsOk) (w l : Nat) : AMap.sorted (s.lane w l).v = true := by
  obtain ⟨-, -, htidy⟩ := h
  cases hw : s.warps.get? w with
  | none => rw [State.lane, State.warp_of_none hw]; rfl
  | some W =>
    obtain ⟨-, -, hlanes⟩ := htidy _ (AMap.mem_of_get? hw)
    rw [State.lane, State.warp_of_get? hw, Warp.lane, AMap.getD]
    cases hl : W.lanes.get? l with
    | none => rfl
    | some L =>
      obtain ⟨hv, -⟩ := hlanes _ (AMap.mem_of_get? hl)
      exact hv

theorem State.warp_modWarp_other (s : State) {w v : Nat} (f : Warp → Warp) (h : v ≠ w) :
    (s.modWarp w f).warp v = s.warp v := by
  simp [State.warp, AMap.getD, AMap.get?_modify, h]

theorem State.warp_modWarp_same {s : State} {w : Nat} (f : Warp → Warp) (h : (s.warps.get? w).isSome = true) :
    (s.modWarp w f).warp w = f (s.warp w) := by
  obtain ⟨W, hW⟩ := Option.isSome_iff_exists.1 h
  simp [State.warp, AMap.getD, AMap.get?_modify, hW]

theorem State.modWarp_absent {s : State} {w : Nat} (f : Warp → Warp) (h : s.warps.get? w = none) : s.modWarp w f = s := by
  simp [State.modWarp, AMap.modify, h]

theorem State.isSome_modWarp (s : State) (w v : Nat) (f : Warp → Warp) :
    ((s.modWarp w f).warps.get? v).isSome = (s.warps.get? v).isSome := by
  rw [State.modWarp_warps, AMap.get?_modify]
  split
  · rename_i h
    simp [h]
  · rfl

/-- A change of a lane leaves its warp as it is otherwise, and every other warp. -/
theorem State.warp_modLane (s : State) (w l : Nat) (f : Lane → Lane) (v : Nat) :
    (s.modLane w l f).warp v = { s.warp v with lanes := ((s.modLane w l f).warp v).lanes } := by
  unfold State.modLane
  by_cases hv : v = w
  · subst hv
    cases hw : s.warps.get? v with
    | none => rw [State.modWarp_absent _ hw]
    | some W =>
      rw [State.warp_modWarp_same _ (by simp [hw])]
      rfl
  · rw [State.warp_modWarp_other _ _ hv]

theorem State.lanesOk_modLane {s : State} (h : s.lanesOk) (w l : Nat) (f : Lane → Lane) : (s.modLane w l f).lanesOk := by
  intro v
  unfold State.modLane
  by_cases hv : v = w
  · subst hv
    cases hw : s.warps.get? v with
    | none => rw [State.modWarp_absent _ hw]; exact h v
    | some W =>
      rw [State.warp_modWarp_same _ (by simp [hw])]
      exact AMap.sorted_putD _ _ _ (h v)
  · rw [State.warp_modWarp_other _ _ hv]
    exact h v

theorem State.lane_modLane_same {s : State} {w : Nat} (hs : s.lanesOk) (hw : (s.warps.get? w).isSome = true) (l : Nat)
    (f : Lane → Lane) : (s.modLane w l f).lane w l = f (s.lane w l) := by
  rw [State.lane, State.modLane, State.warp_modWarp_same _ hw]
  exact AMap.getD_putD_same _ _ _ _ (hs w)

theorem State.lane_modLane_other {s : State} {w l v k : Nat} (hs : s.lanesOk) (f : Lane → Lane)
    (h : v = w → k ≠ l) : (s.modLane w l f).lane v k = s.lane v k := by
  rw [State.lane, State.modLane]
  by_cases hv : v = w
  · subst hv
    cases hw : s.warps.get? v with
    | none => rw [State.modWarp_absent _ hw]; rfl
    | some W =>
      rw [State.warp_modWarp_same _ (by simp [hw])]
      exact AMap.getD_putD_other _ _ _ _ _ (hs v) (h rfl)
  · rw [State.warp_modWarp_other _ _ hv]
    rfl

/-! ## The same change of several lanes of a warp -/

/-- Each of these lanes of a warp is changed by f. -/
def State.modLanes (s : State) (w : Nat) (ls : List Nat) (f : Lane → Lane) : State :=
  ls.foldl (fun s l => s.modLane w l f) s

theorem State.onlyThreads_modLanes (s : State) (w : Nat) (ls : List Nat) (f : Lane → Lane) :
    s.onlyThreads (s.modLanes w ls f) :=
  State.onlyThreads_foldl _ (fun s _ => s.onlyThreads_modWarp _ _) _ _

theorem State.lanesOk_modLanes {s : State} (h : s.lanesOk) (w : Nat) (ls : List Nat) (f : Lane → Lane) :
    (s.modLanes w ls f).lanesOk :=
  List.foldlRecOn (motive := State.lanesOk) ls _ h fun _ ht l _ => State.lanesOk_modLane ht w l f

theorem State.warp_modLanes (s : State) (w : Nat) (ls : List Nat) (f : Lane → Lane) (v : Nat) :
    (s.modLanes w ls f).warp v = { s.warp v with lanes := ((s.modLanes w ls f).warp v).lanes } := by
  refine List.foldlRecOn (motive := fun t : State => t.warp v = { s.warp v with lanes := (t.warp v).lanes }) ls _ rfl ?_
  intro t ht l _
  rw [State.warp_modLane, ht]

/-- Each of the lanes is changed once, and no other lane. -/
theorem State.lane_modLanes {s : State} {w : Nat} {ls : List Nat} (hs : s.lanesOk)
    (hw : (s.warps.get? w).isSome = true) (hn : ls.Nodup) (f : Lane → Lane) (v k : Nat) :
    (s.modLanes w ls f).lane v k = if v = w ∧ k ∈ ls then f (s.lane v k) else s.lane v k := by
  induction ls generalizing s with
  | nil => simp [State.modLanes]
  | cons l ls ih =>
    obtain ⟨hl, hn⟩ := List.nodup_cons.1 hn
    have hstep : (s.modLanes w (l :: ls) f).lane v k = ((s.modLane w l f).modLanes w ls f).lane v k := rfl
    rw [hstep, ih (State.lanesOk_modLane hs w l f) (by rw [State.modLane, State.isSome_modWarp]; exact hw) hn]
    by_cases hk : v = w ∧ k = l
    · obtain ⟨rfl, rfl⟩ := hk
      simp [hl, State.lane_modLane_same hs hw]
    · rw [State.lane_modLane_other hs f (fun hv hkl => hk ⟨hv, hkl⟩)]
      have : (v = w ∧ k ∈ l :: ls) ↔ (v = w ∧ k ∈ ls) := by
        simp only [List.mem_cons]
        tauto
      simp only [this]

/-! ## A value in a pair of v registers -/

theorem Lane.getV_setV_same {L : Lane} (h : AMap.sorted L.v = true) (n : Nat) (x : Word) : (L.setV n x).getV n = x :=
  AMap.getD_putD_same _ _ _ _ h

theorem Lane.getV_setV_other {L : Lane} (h : AMap.sorted L.v = true) {n m : Nat} (x : Word) (hm : m ≠ n) :
    (L.setV n x).getV m = L.getV m :=
  AMap.getD_putD_other _ _ _ _ _ h hm

theorem Lane.sorted_setV {L : Lane} (h : AMap.sorted L.v = true) (n : Nat) (x : Word) : AMap.sorted (L.setV n x).v = true :=
  AMap.sorted_putD _ _ _ h

/-- The two words of a 64-bit value, put together again. -/
theorem append_extract_halves (x : DWord) : x.extractLsb' 32 32 ++ x.extractLsb' 0 32 = x := by
  refine BitVec.eq_of_getLsbD_eq fun i hi => BitVec.getLsbD_append.trans ?_
  by_cases h : i < 32
  · simp [h]
  · have hsum : 32 + (i - 32) = i := by omega
    have hlt : i - 32 < 32 := by omega
    simp [h, hsum, hlt]

theorem Lane.getV64_setV64 {L : Lane} (h : AMap.sorted L.v = true) (n : Nat) (x : DWord) : (L.setV64 n x).getV64 n = x := by
  rw [Lane.getV64, Lane.setV64, Lane.getV_setV_same (Lane.sorted_setV h _ _),
    Lane.getV_setV_other (Lane.sorted_setV h _ _) _ (by omega), Lane.getV_setV_same h]
  exact append_extract_halves x

/-- A 64-bit result changes the registers of D's pair alone. -/
theorem Lane.keeps_putD64 {L : Lane} (h : AMap.sorted L.v = true) (d : Dst) (x : DWord) :
    L.keeps (L.putD64 d x) (dstV d 2) [] := by
  cases d with
  | v n =>
    refine ⟨rfl, fun r hr => ?_, fun _ _ => rfl⟩
    have hne : r ≠ n.val ∧ r ≠ n.val + 1 := by
      simpa [dstV, span, List.range_succ] using hr
    show ((L.setV n.val _).setV (n.val + 1) _).getV r = L.getV r
    rw [Lane.getV_setV_other (Lane.sorted_setV h _ _) _ hne.2, Lane.getV_setV_other h _ hne.1]
  | s n => exact ⟨rfl, fun _ _ => rfl, fun _ _ => rfl⟩
  | p n => exact ⟨rfl, fun _ _ => rfl, fun _ _ => rfl⟩
  | none => exact ⟨rfl, fun _ _ => rfl, fun _ _ => rfl⟩

theorem Lane.keeps_refl (L : Lane) (vs : List Nat) (ps : List (Fin 8)) : L.keeps L vs ps :=
  ⟨rfl, fun _ _ => rfl, fun _ _ => rfl⟩

/-! ## Cores and contexts after a change -/

theorem State.core_modCore_same {s : State} (h : AMap.sorted s.cores = true) (c : Nat) (f : Core → Core) :
    (s.modCore c f).core c = f (s.core c) :=
  AMap.getD_putD_same _ _ _ _ h

theorem State.core_modCore_other {s : State} (h : AMap.sorted s.cores = true) {c j : Nat} (f : Core → Core) (hj : j ≠ c) :
    (s.modCore c f).core j = s.core j :=
  AMap.getD_putD_other _ _ _ _ _ h hj

theorem State.ctx_modCtx_same {s : State} {c : Nat} (h : (s.ctxs.get? c).isSome = true) (f : Ctx → Ctx) :
    (s.modCtx c f).ctx c = f (s.ctx c) := by
  obtain ⟨C, hC⟩ := Option.isSome_iff_exists.1 h
  simp [State.ctx, AMap.getD, AMap.get?_modify, hC]

theorem State.ctx_modCtx_other (s : State) {c j : Nat} (f : Ctx → Ctx) (hj : j ≠ c) : (s.modCtx c f).ctx j = s.ctx j := by
  simp [State.ctx, AMap.getD, AMap.get?_modify, hj]

/-! ## Lanes that go on -/

theorem Lane.goneOn_refl (L : Lane) : L.goneOn L := rfl

theorem Lane.goneOn_trans {L M N : Lane} (h1 : L.goneOn M) (h2 : M.goneOn N) : L.goneOn N := by
  unfold Lane.goneOn at *
  rw [h2, h1]

theorem Lane.goneOn_enter (L : Lane) (a : DWord) (led : Option DWord) (clock : Nat) : L.goneOn (L.enter a led clock) := by
  unfold Lane.enter
  split <;> rfl

theorem Lane.goneOn.getV64 {L L' : Lane} (h : L.goneOn L') (r : Nat) : L'.getV64 r = L.getV64 r := by
  rw [h]
  rfl

/-- From one state to another lanes have gone on, and every warp is as it was otherwise. -/
def State.movesOn (s t : State) : Prop :=
  ∀ v, t.warp v = { s.warp v with lanes := (t.warp v).lanes } ∧ ∀ l, (s.lane v l).goneOn (t.lane v l)

theorem State.movesOn_refl (s : State) : s.movesOn s := fun _ => ⟨rfl, fun _ => Lane.goneOn_refl _⟩

theorem State.movesOn_enter {s t : State} (hs : t.lanesOk) (h : s.movesOn t) (w l : Nat) (a : DWord) (led : Option DWord)
    (clock : Nat) : s.movesOn (t.modLane w l (·.enter a led clock)) := by
  intro v
  obtain ⟨hwarp, hlane⟩ := h v
  refine ⟨by rw [State.warp_modLane, hwarp], fun k => ?_⟩
  by_cases hk : v = w ∧ k = l
  · obtain ⟨rfl, rfl⟩ := hk
    cases hw : t.warps.get? v with
    | none => rw [State.modLane, State.modWarp_absent _ hw]; exact hlane k
    | some W =>
      rw [State.lane_modLane_same hs (by simp [hw])]
      exact Lane.goneOn_trans (hlane k) (Lane.goneOn_enter _ _ _ _)
  · rw [State.lane_modLane_other hs _ (fun hv hkl => hk ⟨hv, hkl⟩)]
    exact hlane k

theorem State.enterAll_movesOn {s : State} (hs : s.lanesOk) (ls : List (Nat × Nat))
    (target : Nat × Nat → DWord × Option DWord) : s.movesOn (s.enterAll ls target) := by
  refine (List.foldlRecOn (motive := fun t : State => t.lanesOk ∧ s.movesOn t) ls _ ⟨hs, s.movesOn_refl⟩ ?_).2
  rintro t ⟨hok, hmoves⟩ x _
  exact ⟨State.lanesOk_modLane hok _ _ _, State.movesOn_enter hok hmoves _ _ _ _ _⟩

theorem State.enterAll_groups (s : State) (ls : List (Nat × Nat)) (target : Nat × Nat → DWord × Option DWord) :
    (s.enterAll ls target).groups = s.groups :=
  List.foldlRecOn (motive := fun t : State => t.groups = s.groups) ls _ rfl fun _ ht _ _ => ht

theorem State.enterAll_warp_other (s : State) {ls : List (Nat × Nat)} (target : Nat × Nat → DWord × Option DWord) {v : Nat}
    (h : ∀ x ∈ ls, x.1 ≠ v) : (s.enterAll ls target).warp v = s.warp v := by
  refine List.foldlRecOn (motive := fun t : State => t.warp v = s.warp v) ls _ rfl ?_
  intro t ht x hx
  rw [State.modLane, State.warp_modWarp_other _ _ (h x hx).symm, ht]

/-! ## Retiring -/

/-- Where an instruction is done, lanes have gone on at most, and every warp is as it was otherwise. -/
theorem State.retire_movesOn {s : State} (hs : s.lanesOk) (g : Nat) (gr : Group) : s.movesOn (s.retire g gr) := by
  unfold State.retire
  split
  · exact s.enterAll_movesOn hs _ _
  · exact s.movesOn_refl

theorem State.retire_groups (s : State) (g : Nat) (gr : Group) :
    (s.retire g gr).groups = if gr.next = gr.clauseEnd then s.groups.del g
      else s.groups.modify g fun x => { x with pc := gr.next, park := .run, memo := {} } := by
  unfold State.retire
  split
  · rw [← s.enterAll_groups gr.lanes]
    rfl
  · rfl

theorem State.retire_groups_congr {s t : State} (h : t.groups = s.groups) (g : Nat) (gr : Group) :
    (t.retire g gr).groups = (s.retire g gr).groups := by
  rw [State.retire_groups, State.retire_groups, h]

theorem State.retire_warp_other (s : State) (g : Nat) {gr : Group} {v : Nat} (h : ∀ x ∈ gr.lanes, x.1 ≠ v) :
    (s.retire g gr).warp v = s.warp v := by
  unfold State.retire
  split
  · exact s.enterAll_warp_other _ h
  · rfl

/-! ## A group of thread lanes of one warp -/

section
variable {s : State} {g : Nat} {gr : Group} {w : Nat} {ls : List Nat} {p : Pred}

theorem State.Team.mem_lanes (h : s.Team g gr w ls p) {x : Nat × Nat} (hx : x ∈ gr.lanes) : x.1 = w ∧ x.2 ∈ ls := by
  rw [h.lanes] at hx
  obtain ⟨l, hl, rfl⟩ := List.mem_map.1 hx
  exact ⟨rfl, hl⟩

theorem State.Team.execs (h : s.Team g gr w ls p) : s.execs gr p = gr.lanes := by
  refine List.filter_eq_self.2 fun x hx => ?_
  obtain ⟨rfl, hl⟩ := h.mem_lanes hx
  exact (h.run _ hl).2.2

theorem State.Team.isLive (h : s.Team g gr w ls p) {x : Nat × Nat} (hx : x ∈ gr.lanes) : s.isLive x = true := by
  obtain ⟨rfl, hl⟩ := h.mem_lanes hx
  obtain ⟨hlive, -⟩ := h.run _ hl
  simp [State.isLive, hlive]

theorem State.Team.execThreads (h : s.Team g gr w ls p) : s.execThreads gr p = gr.lanes := by
  rw [State.execThreads, h.execs]
  exact List.filter_eq_self.2 fun x hx => h.isLive hx

theorem State.Team.execHelpers (h : s.Team g gr w ls p) : s.execHelpers gr p = [] := by
  rw [State.execHelpers, h.execs]
  exact List.filter_eq_nil_iff.2 fun x hx => by simp [h.isLive hx]

/-- The group has lanes of one warp. -/
theorem State.Team.warps_dedup (h : s.Team g gr w ls p) : (gr.lanes.map (·.1)).dedup = [w] := by
  have hmap : gr.lanes.map (·.1) = List.replicate ls.length w := by simp [h.lanes, Function.comp_def]
  rw [hmap]
  exact List.replicate_dedup (by simp [h.someLane])

theorem State.Team.leadOf (h : s.Team g gr w ls p) : s.leadOf gr p w = some (ls.headD 0) := by
  rw [State.leadOf, h.execThreads, h.lanes]
  cases hls : ls with
  | nil => exact absurd hls h.someLane
  | cons l ls => simp

theorem State.Team.warp_isSome (h : s.Team g gr w ls p) : (s.warps.get? w).isSome = true := by
  obtain ⟨l, hl⟩ := List.exists_mem_of_ne_nil _ h.someLane
  obtain ⟨hlive, -⟩ := h.run l hl
  cases hw : s.warps.get? w with
  | none =>
    rw [State.lane, State.warp_of_none hw] at hlive
    cases hlive
  | some W => rfl

end

/-! ## Issuing a word that reads a warp's lowest lane -/

theorem noReads_reads (o : Ops) : noReads.reads o = [] := by
  have hv (x : Src) : srcV x 0 = [] := by cases x <;> rfl
  simp [Widths.reads, Widths.readsV, noReads, hv]

theorem noReads_readsS (o : Ops) : noReads.readsS o = [] := by
  have hs (x : Src) : srcS x 0 = [] := by cases x <;> rfl
  simp [Widths.readsS, noReads, hs]

theorem State.mem_execThreads_of_leadOf {s : State} {gr : Group} {p : Pred} {w l : Nat} (h : s.leadOf gr p w = some l) :
    (w, l) ∈ s.execThreads gr p := by
  obtain ⟨x, hx, rfl⟩ := Option.map_eq_some_iff.1 h
  have hw : x.1 = w := by simpa using List.find?_some hx
  subst hw
  exact List.mem_of_find?_eq_some hx

/-- Where the operands of executing lanes are good, so are those of each warp's lowest one. -/
theorem someEcc_leadOf_nil {s : State} {gr : Group} {o : Ops} {wd : Widths}
    (h : ∀ x ∈ s.execThreads gr o.pr, (∀ r ∈ wd.reads o, r ∉ (s.lane x.1 x.2).vBad) ∧ ∀ r ∈ wd.readsS o, r ∉ (s.warp x.1).sBad) :
    (s.someEcc gr wd o fun w => (s.leadOf gr o.pr w).toList) = [] := by
  unfold State.someEcc
  rw [List.filterMap_eq_nil_iff]
  intro w _
  simp only [Option.map_eq_none_iff, List.findSome?_eq_none_iff, Option.mem_toList]
  intro l hl
  obtain ⟨hv, hs⟩ := h _ (State.mem_execThreads_of_leadOf hl)
  exact Warp.badReg_none (fun r hr => hv r (List.mem_append_left _ hr)) hs

theorem issueLead_ready {s : State} {g : Nat} {gr : Group} {o : Ops} {wd : Widths} (h : s.Ready g gr o wd)
    (priv : Bool) (hp : priv = true → gr.handler = true) (k : Nat → Group → State → Out) :
    issueLead s priv o wd k = k g gr (s.atWord g) := by
  have halloc : allocOk (s.atWord g) gr (wd.all o) = true := allocOk_of_fits h.fits
  have hguard : regEcc (s.atWord g) gr o.pr [] [] = [] := regEcc_nil h.guard (by simp)
  have hlead : ((s.atWord g).someEcc gr wd o fun w => ((s.atWord g).leadOf gr o.pr w).toList) = [] :=
    someEcc_leadOf_nil h.sound
  have hpriv : (priv && !gr.handler) = false := by
    cases priv with
    | false => rfl
    | true => simp [hp rfl]
  unfold issueLead issueLane
  rw [h.current, noReads_reads, noReads_readsS]
  unfold State.atWord at halloc hguard hlead
  simp [halloc, hguard, hlead, hpriv, State.reportRegs, State.atWord]

end Sys2Proof.Machine
end

section
/-! SUPPORT. System registers: what TR.MFS and TR.MTS do (14_translation_traps R337, R348; 00_scope R7). -/

namespace Sys2Proof.Machine

/-! ## Reading -/

/-- What a system register reads does not depend on the lanes of the warp. -/
theorem State.sysReg_modLane (s : State) (w l : Nat) (f : Lane → Lane) (r : SysReg) :
    (s.modLane w l f).sysReg w r = s.sysReg w r := by
  have hwarp := s.warp_modLane w l f w
  unfold State.sysReg
  rw [hwarp]
  rfl

/-- The loop of TR.MFS writes into each lane the value that the register has before the first. -/
theorem State.foldl_sysReg (s : State) (w : Nat) (ls : List Nat) (r : SysReg) (d : Dst) :
    (ls.map fun l => (w, l)).foldl (fun (s : State) x => s.modLane x.1 x.2 (·.putD64 d (s.sysReg x.1 r))) s =
      s.modLanes w ls (·.putD64 d (s.sysReg w r)) := by
  induction ls generalizing s with
  | nil => rfl
  | cons l ls ih =>
    rw [List.map_cons, List.foldl_cons, ih, s.sysReg_modLane]
    rfl

section
variable {s : State} {g : Nat} {gr : Group} {w : Nat} {ls : List Nat} {o : Ops}

theorem execTrMfs_team (hr : s.Ready g gr o ⟨2, 1, 1, 1, false, []⟩) (ht : s.Team g gr w ls o.pr)
    (hh : gr.handler = true) (r : SysReg) :
    execTrMfs o r s = .next (((s.atWord g).modLanes w ls (·.putD64 o.d (s.sysReg w r))).retire g gr) := by
  unfold execTrMfs
  rw [issueLane_ready hr true fun _ => hh]
  have hz : (s.atWord g).zeroHelpers gr o 2 = s.atWord g := by
    rw [State.zeroHelpers, show (s.atWord g).execHelpers gr o.pr = [] from ht.execHelpers]
    rfl
  simp only [hz, State.atWord_execThreads, ht.execThreads]
  rw [ht.lanes, State.foldl_sysReg]
  rfl

theorem execTrMts_team (hr : s.Ready g gr o ⟨1, 2, 1, 1, false, []⟩) (ht : s.Team g gr w ls o.pr)
    (hh : gr.handler = true) (r : SysReg) :
    execTrMts o r s = .next (((s.atWord g).setSysReg w r (src64 (s.warp w) (s.lane w (ls.headD 0)) o.a)).retire g gr) := by
  have hlead : (s.atWord g).leadOf gr o.pr w = some (ls.headD 0) := ht.leadOf
  unfold execTrMts
  rw [issueLead_ready hr true fun _ => hh]
  simp only [State.atWord_execThreads, ht.execThreads, ht.warps_dedup, List.foldl_cons, List.foldl_nil, hlead]
  rfl

end

/-! ## Writing -/

section
variable (s : State) (w : Nat) (x : DWord)

/-- What a write of a system register can be: of a register of the warp, of its context, with MGMT of its core or of the chip,
or nothing (R337, R348). -/
theorem State.setSysReg_cases (r : SysReg) :
    let c := (s.block (s.warp w).block).ctx
    ((r = .tpc ∨ r = .tch ∨ ∃ n, r = .tsv n) ∧ ∃ f, s.setSysReg w r x = s.modWarp w f) ∨
      ((r = .tvb ∨ r = .dpri ∨ r = .leasens) ∧ ∃ f, s.setSysReg w r x = s.modCtx c f) ∨
      ((s.ctx c).mgmt = true ∧ (r = .mxc ∨ r = .slb ∨ r = .sls) ∧ ∃ f, s.setSysReg w r x = s.modCore (s.warp w).core f) ∨
      ((s.ctx c).mgmt = true ∧ ∃ n, r = .weir n ∧ s.setSysReg w r x = s.writeWeir n.val x) ∨
      s.setSysReg w r x = s := by
  intro c
  cases r with
  | tpc => exact .inl ⟨.inl rfl, _, rfl⟩
  | tch => exact .inl ⟨.inr (.inl rfl), _, rfl⟩
  | tsv n => exact .inl ⟨.inr (.inr ⟨n, rfl⟩), _, rfl⟩
  | tvb => exact .inr (.inl ⟨.inl rfl, _, rfl⟩)
  | dpri => exact .inr (.inl ⟨.inr (.inl rfl), _, rfl⟩)
  | leasens => exact .inr (.inl ⟨.inr (.inr rfl), _, rfl⟩)
  | tcs | tad | tlm | ctxid => exact .inr (.inr (.inr (.inr rfl)))
  | mxc | slb | sls =>
    cases hm : (s.ctx c).mgmt with
    | false => exact .inr (.inr (.inr (.inr (if_neg (by simpa [c] using hm)))))
    | true => exact .inr (.inr (.inl ⟨rfl, by simp, _, if_pos hm⟩))
  | weir n =>
    cases hm : (s.ctx c).mgmt with
    | false => exact .inr (.inr (.inr (.inr (if_neg (by simpa [c] using hm)))))
    | true => exact .inr (.inr (.inr (.inl ⟨rfl, n, rfl, if_pos hm⟩)))

/-- A write of a system register reaches threads, contexts, cores and WEIRn alone. -/
theorem State.setSysReg_eq (r : SysReg) : s.setSysReg w r x =
    { s with warps := (s.setSysReg w r x).warps, ctxs := (s.setSysReg w r x).ctxs, cores := (s.setSysReg w r x).cores,
             weir := (s.setSysReg w r x).weir } := by
  obtain ⟨-, f, h⟩ | ⟨-, f, h⟩ | ⟨-, -, f, h⟩ | ⟨-, n, -, h⟩ | h := s.setSysReg_cases w x r <;> rw [h] <;> rfl

/-- Only TPC, TCH and TSVn are registers of a warp that a write changes. -/
theorem State.setSysReg_warps {r : SysReg} (h1 : r ≠ .tpc) (h2 : r ≠ .tch) (h3 : ∀ n, r ≠ .tsv n) :
    (s.setSysReg w r x).warps = s.warps := by
  obtain ⟨hr, -⟩ | ⟨-, f, h⟩ | ⟨-, -, f, h⟩ | ⟨-, n, -, h⟩ | h := s.setSysReg_cases w x r
  · simp [h1, h2, h3] at hr
  all_goals simp [h, State.writeWeir]

/-- Only TVB, DPRI and LEASENS are registers of a context that a write changes. -/
theorem State.setSysReg_ctxs {r : SysReg} (h1 : r ≠ .tvb) (h2 : r ≠ .dpri) (h3 : r ≠ .leasens) :
    (s.setSysReg w r x).ctxs = s.ctxs := by
  obtain ⟨-, f, h⟩ | ⟨hr, -⟩ | ⟨-, -, f, h⟩ | ⟨-, n, -, h⟩ | h := s.setSysReg_cases w x r
  · simp [h]
  · simp [h1, h2, h3] at hr
  all_goals simp [h, State.writeWeir]

/-- Only MXC, SLB and SLS are registers of a core. -/
theorem State.setSysReg_cores {r : SysReg} (h1 : r ≠ .mxc) (h2 : r ≠ .slb) (h3 : r ≠ .sls) :
    (s.setSysReg w r x).cores = s.cores := by
  obtain ⟨-, f, h⟩ | ⟨-, f, h⟩ | ⟨-, hr, -⟩ | ⟨-, n, -, h⟩ | h := s.setSysReg_cases w x r
  · simp [h]
  · simp [h]
  · simp [h1, h2, h3] at hr
  all_goals simp [h, State.writeWeir]

/-- Only WEIRn are registers of the chip. -/
theorem State.setSysReg_weir {r : SysReg} (hr : ∀ n, r ≠ .weir n) : (s.setSysReg w r x).weir = s.weir := by
  obtain ⟨-, f, h⟩ | ⟨-, f, h⟩ | ⟨-, -, f, h⟩ | ⟨-, n, hn, -⟩ | h := s.setSysReg_cases w x r
  · simp [h]
  · simp [h]
  · simp [h]
  · exact absurd hn (hr n)
  · simp [h]

/-- A context without MGMT writes no register of a core or of the chip (R337, R348). -/
theorem State.setSysReg_noMgmt (r : SysReg) (hm : (s.ctx (s.block (s.warp w).block).ctx).mgmt = false) :
    (s.setSysReg w r x).cores = s.cores ∧ (s.setSysReg w r x).weir = s.weir := by
  obtain ⟨-, f, h⟩ | ⟨-, f, h⟩ | ⟨hm', -⟩ | ⟨hm', -⟩ | h := s.setSysReg_cases w x r
  · rw [h]; exact ⟨rfl, rfl⟩
  · rw [h]; exact ⟨rfl, rfl⟩
  · exact absurd hm' (by simp [hm])
  · exact absurd hm' (by simp [hm])
  · rw [h]; exact ⟨rfl, rfl⟩

theorem State.setSysReg_warp_other (r : SysReg) {v : Nat} (hv : v ≠ w) : (s.setSysReg w r x).warp v = s.warp v := by
  obtain ⟨-, f, h⟩ | ⟨-, f, h⟩ | ⟨-, -, f, h⟩ | ⟨-, n, -, h⟩ | h := s.setSysReg_cases w x r
  · rw [h, State.warp_modWarp_other _ _ hv]
  all_goals simp [h, State.warp, State.writeWeir]

theorem State.setSysReg_ctx_other (r : SysReg) {j : Nat} (hj : j ≠ (s.block (s.warp w).block).ctx) :
    (s.setSysReg w r x).ctx j = s.ctx j := by
  obtain ⟨-, f, h⟩ | ⟨-, f, h⟩ | ⟨-, -, f, h⟩ | ⟨-, n, -, h⟩ | h := s.setSysReg_cases w x r
  · simp [h, State.ctx]
  · rw [h, State.ctx_modCtx_other _ _ hj]
  all_goals simp [h, State.ctx, State.writeWeir]

theorem State.setSysReg_core_other (r : SysReg) (hs : AMap.sorted s.cores = true) {j : Nat} (hj : j ≠ (s.warp w).core) :
    (s.setSysReg w r x).core j = s.core j := by
  obtain ⟨-, f, h⟩ | ⟨-, f, h⟩ | ⟨-, -, f, h⟩ | ⟨-, n, -, h⟩ | h := s.setSysReg_cases w x r
  · simp [h, State.core]
  · simp [h, State.core]
  · rw [h, State.core_modCore_other hs _ hj]
  all_goals simp [h, State.core, State.writeWeir]

/-- Of its warp a write changes TPC and TCH, as [59:2], and TSVn. -/
theorem State.setSysReg_warp_same (r : SysReg) (hw : (s.warps.get? w).isSome = true) :
    (s.setSysReg w r x).warp w =
      { s.warp w with tsv := ((s.setSysReg w r x).warp w).tsv,
                      tpc := if r = .tpc then x &&& 0x0FFFFFFFFFFFFFFC else (s.warp w).tpc,
                      tch := if r = .tch then x &&& 0x0FFFFFFFFFFFFFFC else (s.warp w).tch } := by
  cases r with
  | tpc | tch | tsv =>
    simp only [State.setSysReg, State.warp_modWarp_same _ hw]
    rfl
  | _ =>
    rw [State.warp, State.setSysReg_warps] <;> simp [State.warp]

theorem State.setSysReg_tsv (n : Fin 8) (hw : (s.warps.get? w).isSome = true) :
    ((s.setSysReg w (.tsv n) x).warp w).tsv = (s.warp w).tsv.putD n.val x 0 := by
  simp only [State.setSysReg, State.warp_modWarp_same _ hw]

theorem State.setSysReg_tsv_other {r : SysReg} (hr : ∀ n, r ≠ .tsv n) (hw : (s.warps.get? w).isSome = true) :
    ((s.setSysReg w r x).warp w).tsv = (s.warp w).tsv := by
  obtain ⟨hr', -⟩ | ⟨-, f, h⟩ | ⟨-, -, f, h⟩ | ⟨-, n, -, h⟩ | h := s.setSysReg_cases w x r
  · rcases hr' with rfl | rfl | ⟨n, rfl⟩
    · simp only [State.setSysReg, State.warp_modWarp_same _ hw]
    · simp only [State.setSysReg, State.warp_modWarp_same _ hw]
    · exact absurd rfl (hr n)
  all_goals simp [h, State.warp, State.writeWeir]

/-- Of its context a write changes TVB, as [59:12], DPRI and LEASENS. -/
theorem State.setSysReg_ctx_same (r : SysReg) (hc : (s.ctxs.get? (s.block (s.warp w).block).ctx).isSome = true) :
    let c := (s.block (s.warp w).block).ctx
    (s.setSysReg w r x).ctx c =
      { s.ctx c with tvb := if r = .tvb then x &&& 0x0FFFFFFFFFFFF000 else (s.ctx c).tvb,
                     dpri := if r = .dpri then x.toNat % 16 else (s.ctx c).dpri,
                     leasens := if r = .leasens then x.toNat % 65536 else (s.ctx c).leasens } := by
  cases r with
  | tvb | dpri | leasens =>
    simp only [State.setSysReg, State.ctx_modCtx_same hc]
    rfl
  | _ =>
    intro c
    rw [State.ctx, State.setSysReg_ctxs] <;> simp [State.ctx]

section
variable (hm : (s.ctx (s.block (s.warp w).block).ctx).mgmt = true)
include hm

theorem State.setSysReg_weir_putD (n : Fin 16) : (s.setSysReg w (.weir n) x).weir = s.weir.putD n.val (x &&& 0xCFFF0FFF) 0 := by
  simp only [State.setSysReg, hm]
  rfl

theorem State.setSysReg_mxc (hs : AMap.sorted s.cores = true) :
    (s.setSysReg w .mxc x).core (s.warp w).core = { s.core (s.warp w).core with mxcRed := x.getLsbD 0 } := by
  simp only [State.setSysReg, hm, if_true, State.core_modCore_same hs]
  rfl

theorem State.setSysReg_slb (hs : AMap.sorted s.cores = true) :
    (s.setSysReg w .slb x).core (s.warp w).core =
      { (s.core (s.warp w).core).roll s.windowNow with
        budget := x.toNat % 2 ^ 11, ramp := x.toNat / 2 ^ 16 % 2 ^ 11 } := by
  simp only [State.setSysReg, hm, if_true, State.core_modCore_same hs]
  rfl

/-- SLS as written: a write of 1 clears LIMITED but where the device has set it in this cycle (R7, R194). -/
theorem State.setSysReg_sls (hs : AMap.sorted s.cores = true) :
    let now := (s.core (s.warp w).core).roll s.windowNow
    let held := s.freshBits (.sls (s.warp w).core)
    (s.setSysReg w .sls x).core (s.warp w).core =
      { now with stalled := (x &&& ~~~held).toNat % 2 ^ 32,
                 limited := now.limited && !(x.getLsbD 48 && !held.getLsbD 48) } := by
  simp [State.setSysReg, hm, State.core_modCore_same hs, Core.writeSls]

end

end

end Sys2Proof.Machine
end

section
/-! PROOFS. O21: system registers are read and written (14_translation_traps R337, R348). -/

namespace Sys2Proof.Machine

section
variable {s : State} {g : Nat} {gr : Group} {w : Nat} {ls : List Nat} {o : Ops}

/-- The state after a TR.MFS of x: threads alone differ, D's pair of the lanes alone has changed, and holds x. -/
theorem State.mfs_effect (ht : s.Team g gr w ls o.pr) (x : DWord) :
    let t := ((s.atWord g).modLanes w ls (·.putD64 o.d x)).retire g gr
    s.onlyThreads t ∧ t.groups = ((s.atWord g).retire g gr).groups ∧
      s.changesOnly t (fun y => if y.1 = w ∧ y.2 ∈ ls then dstV o.d 2 else []) (fun _ => []) ∧
      ∀ l ∈ ls, ∀ d : Fin 192, o.d = .v d → (t.lane w l).getV64 d = x := by
  intro t
  have hok : (s.atWord g).lanesOk := ht.forms.lanesOk
  have hlane (v k : Nat) : ((s.atWord g).modLanes w ls (·.putD64 o.d x)).lane v k =
      if v = w ∧ k ∈ ls then (s.lane v k).putD64 o.d x else s.lane v k :=
    State.lane_modLanes hok ht.warp_isSome ht.nodup _ v k
  have hmoves : ((s.atWord g).modLanes w ls (·.putD64 o.d x)).movesOn t :=
    State.retire_movesOn (State.lanesOk_modLanes hok w ls _) g gr
  refine ⟨?_, ?_, fun v => ?_, fun l hl d hd => ?_⟩
  · exact State.onlyThreads_trans (s.onlyThreads_modGroup g _)
      (State.onlyThreads_trans (State.onlyThreads_modLanes _ w ls _) (State.onlyThreads_retire _ g gr))
  · refine State.retire_groups_congr ?_ g gr
    exact List.foldlRecOn (motive := fun u : State => u.groups = (s.atWord g).groups) ls _ rfl fun _ hu _ _ => hu
  · obtain ⟨hwarp, hgone⟩ := hmoves v
    refine ⟨?_, fun k => ⟨_, ?_, hgone k⟩⟩
    · rw [State.warp_modLanes] at hwarp
      exact hwarp
    · rw [hlane]
      by_cases hk : v = w ∧ k ∈ ls
      · simp only [if_pos hk]
        exact Lane.keeps_putD64 (ht.forms.vSorted v k) o.d x
      · rw [if_neg hk]
        exact Lane.keeps_refl _ _ _
  · obtain ⟨-, hgone⟩ := hmoves w
    rw [(hgone l).getV64, hlane, if_pos ⟨rfl, hl⟩, hd]
    exact Lane.getV64_setV64 (ht.forms.vSorted w l) d.val x

/-- The threads after a TR.MTS of x: of its own warp the register that it names has changed. -/
theorem State.mts_threads (ht : s.Team g gr w ls o.pr) (r : SysReg) (x : DWord) :
    let u := (s.atWord g).setSysReg w r x
    let t := u.retire g gr
    (∀ v, v ≠ w → t.warp v = s.warp v) ∧ (∀ l, (s.lane w l).goneOn (t.lane w l)) ∧
      t.warp w = { s.warp w with lanes := (t.warp w).lanes, tsv := (t.warp w).tsv,
                                 tpc := if r = .tpc then x &&& 0x0FFFFFFFFFFFFFFC else (s.warp w).tpc,
                                 tch := if r = .tch then x &&& 0x0FFFFFFFFFFFFFFC else (s.warp w).tch } ∧
      (t.warp w).tsv = (u.warp w).tsv := by
  intro u t
  have hself : u.warp w = _ := State.setSysReg_warp_same (s.atWord g) w x r ht.warp_isSome
  have hother (v : Nat) (hv : v ≠ w) : u.warp v = s.warp v := State.setSysReg_warp_other (s.atWord g) w x r hv
  have hlane (l : Nat) : u.lane w l = s.lane w l := by
    rw [State.lane, hself]
    rfl
  have hok : u.lanesOk := by
    intro v
    by_cases hv : v = w
    · rw [hv, hself]
      exact ht.forms.lanesOk w
    · rw [hother v hv]
      exact ht.forms.lanesOk v
  obtain ⟨hwarp, hgone⟩ := State.retire_movesOn hok g gr w
  have htsv : (t.warp w).tsv = (u.warp w).tsv := by rw [hwarp]
  refine ⟨fun v hv => ?_, fun l => ?_, ?_, htsv⟩
  · rw [← hother v hv]
    refine u.retire_warp_other g fun y hy => ?_
    rw [(ht.mem_lanes hy).1]
    exact hv.symm
  · rw [← hlane]
    exact hgone l
  · rw [htsv, hwarp, hself]
    rfl

/-- A change of registers of the system is followed by one of threads alone. -/
theorem State.sysRegs_onlyThreads {s u t : State}
    (h1 : u = { s with warps := u.warps, ctxs := u.ctxs, cores := u.cores, weir := u.weir }) (h2 : u.onlyThreads t) :
    t = { s with warps := t.warps, groups := t.groups, focus := t.focus, ctxs := t.ctxs, cores := t.cores, weir := t.weir } := by
  unfold State.onlyThreads at h2
  rw [h2, h1]

/-- TR.MTS leaves everything but threads, contexts, cores and WEIRn alone. -/
theorem State.mts_frame (s : State) (g : Nat) (gr : Group) (w : Nat) (r : SysReg) (x : DWord) :
    let t := ((s.atWord g).setSysReg w r x).retire g gr
    t = { s with warps := t.warps, groups := ((s.atWord g).retire g gr).groups, focus := t.focus, ctxs := t.ctxs,
                 cores := t.cores, weir := t.weir } := by
  intro t
  have hset := (s.atWord g).setSysReg_eq w x r
  have hsame : ((s.atWord g).setSysReg w r x).groups = (s.atWord g).groups := by rw [hset]
  rw [← State.retire_groups_congr hsame g gr]
  have hframe := State.sysRegs_onlyThreads hset (State.onlyThreads_retire _ g gr)
  exact hframe

end

/-- SLS as R194 lays it out. -/
theorem State.sysReg_sls (s : State) (w : Nat) :
    let now := (s.core (s.warp w).core).roll s.windowNow
    s.sysReg w .sls = BitVec.ofNat 64 (now.stalled + 2 ^ 32 * now.prev + 2 ^ 48 * now.limited.toNat) := by
  intro now
  have hsum : slsWord now = now.stalled + 2 ^ 32 * now.prev + 2 ^ 48 * now.limited.toNat := by
    unfold slsWord
    cases now.limited <;> simp
  exact congrArg (BitVec.ofNat 64) hsum

/-- Settles O21: in a handler TR.MFS is one change of its lanes, and TR.MTS one write of the register it names, before retiring. -/
theorem systemRegisters : Obligations.SystemRegisters := by
  refine ⟨fun o r s g gr w ls hr ht hh => ?_, fun o r s g gr w ls hr ht hh => ?_⟩
  · obtain ⟨honly, hgroups, hchanges, hvalue⟩ := State.mfs_effect ht (s.sysReg w r)
    refine ⟨_, execTrMfs_team hr ht hh r, honly, hgroups, hchanges, fun l hl d hd _ => ?_⟩
    intro x W C K now
    have reads {q : SysReg} {y : DWord} (hy : s.sysReg w q = y) (hq : r = q) : x = y := by
      rw [← hy, ← hq]
      exact hvalue l hl d hd
    exact ⟨reads rfl, reads rfl, reads rfl, reads rfl, reads rfl, reads rfl, fun _ => reads rfl, reads rfl, reads rfl,
      reads rfl, reads rfl, reads rfl, reads (s.sysReg_sls w), fun _ => reads rfl⟩
  · intro x c k now held
    let u := (s.atWord g).setSysReg w r x
    have honly : u.onlyThreads (u.retire g gr) := u.onlyThreads_retire g gr
    have hcores : (u.retire g gr).cores = u.cores := by rw [honly]
    have hweir : (u.retire g gr).weir = u.weir := by rw [honly]
    have hctx (j : Nat) : (u.retire g gr).ctx j = u.ctx j := by rw [honly]; rfl
    have hcore (j : Nat) : (u.retire g gr).core j = u.core j := by rw [honly]; rfl
    obtain ⟨hothers, hgone, hwarp, htsv⟩ := State.mts_threads ht r x
    refine ⟨u.retire g gr, execTrMts_team hr ht hh r, State.mts_frame s g gr w r x, hothers, hgone, hwarp,
      fun n hn hs => ?_, fun hn => ?_, fun hc _ => ⟨fun j hj => ?_, ?_⟩, fun hm => ⟨?_, ?_⟩, fun h1 h2 h3 => ?_,
      fun hn => ?_, fun hm => ⟨fun n hn hs => ?_, fun hs => ⟨fun j hj => ?_, ?_, ?_, ?_⟩⟩⟩
    · rw [htsv]
      subst hn
      rw [State.setSysReg_tsv (s.atWord g) w x n ht.warp_isSome]
      exact ⟨AMap.getD_putD_same _ _ _ _ hs, fun j hj => AMap.getD_putD_other _ _ _ _ _ hs hj⟩
    · rw [htsv]
      exact State.setSysReg_tsv_other (s.atWord g) w x hn ht.warp_isSome
    · rw [hctx]
      exact State.setSysReg_ctx_other (s.atWord g) w x r hj
    · rw [hctx]
      exact State.setSysReg_ctx_same (s.atWord g) w x r hc
    · rw [hcores]
      exact (State.setSysReg_noMgmt (s.atWord g) w x r hm).1
    · rw [hweir]
      exact (State.setSysReg_noMgmt (s.atWord g) w x r hm).2
    · rw [hcores]
      exact State.setSysReg_cores (s.atWord g) w x h1 h2 h3
    · rw [hweir]
      exact State.setSysReg_weir (s.atWord g) w x hn
    · subst hn
      rw [hweir]
      rw [State.setSysReg_weir_putD (s.atWord g) w x hm n]
      exact ⟨AMap.getD_putD_same _ _ _ _ hs, fun j hj => AMap.getD_putD_other _ _ _ _ _ hs hj⟩
    · rw [hcore]
      exact State.setSysReg_core_other (s.atWord g) w x r hs hj
    · rintro rfl
      rw [hcore]
      exact State.setSysReg_mxc (s.atWord g) w x hm hs
    · rintro rfl
      rw [hcore]
      exact State.setSysReg_slb (s.atWord g) w x hm hs
    · rintro rfl
      rw [hcore]
      exact State.setSysReg_sls (s.atWord g) w x hm hs

end Sys2Proof.Machine
end

section
/-! PROOFS. O60: the lanes of a group that RELH releases need not have gone to the table (14_translation_traps R350). -/

namespace Sys2Proof.Machine

/-- Group 1 of core 0 halted past the last word of its clause, with a lane in it that has exited: the statement on RELH
asks of the group that it is halted, and not, as `State.Stands` does elsewhere, that its lanes have not exited. -/
def exitedHalted : State :=
  { ctxs := [(0, { status := .bound 0 })], warps := [(0, { lanes := [(0, { life := .exited })] })],
    groups := [(1, { lanes := [(0, 0)], pc := 4, park := .halt })] }

theorem exitedHalted_threadsOk : exitedHalted.threadsOk := by
  unfold State.threadsOk Warp.tidy
  decide

/-- RELH ends the group's clause, and a lane that has exited enters no table (R94). -/
theorem relh_exitedHalted : exec (.relh 0 1) exitedHalted = .next { exitedHalted with groups := [] } := rfl

/-- Refutes O60: after RELH of `exitedHalted` its lane has the entry `.gone`, and is not runnable at the next clause. -/
theorem not_stopsAndRegisters : ¬ Obligations.StopsAndRegisters := by
  rintro ⟨hstops, -, -⟩
  obtain ⟨-, -, -, hrelh, -⟩ := hstops exitedHalted 0 (by decide) rfl
  obtain ⟨-, hend⟩ := hrelh 1 1 _ exitedHalted_threadsOk rfl rfl (by decide) (by decide) rfl rfl (by decide)
  obtain ⟨t, ht, hwent⟩ := hend (by decide)
  rw [relh_exitedHalted] at ht
  cases ht
  obtain ⟨hrun, -⟩ := hwent (0, 0) (by decide)
  exact absurd hrun (by decide)

end Sys2Proof.Machine
end

section
/-! SUPPORT. Words and fields: the fields that an instruction is encoded into come back from its words, each field
holds one operand or modifier, and each row of the tables of families is read as itself (02_encoding R17 to R38). -/

namespace Sys2Proof

/-! ## The words of an instruction -/

/-- The first word of a lane-set instruction, R19. -/
def LaneRaw.word0 (r : LaneRaw) : Word :=
  BitVec.ofBool false ++ r.fam ++ r.d ++ r.a ++ r.b ++ BitVec.ofBool r.needsM

/-- The modifier word of a lane-set instruction, R20. -/
def LaneRaw.word1 (r : LaneRaw) : Word := r.c ++ BitVec.ofBool r.neg ++ r.pr ++ r.fn ++ r.mod

/-- The first word of a uniform-set instruction, R32. -/
def UniRaw.word0 (r : UniRaw) : Word :=
  BitVec.ofBool true ++ r.ufam ++ r.d ++ r.a ++ r.b ++ r.ufn ++ BitVec.ofBool r.l

theorem LaneRaw.words_eq (r : LaneRaw) :
    r.words = r.word0 :: ((if r.needsM then [r.word1] else []) ++ if r.hasLit then [r.lit] else []) := rfl

theorem UniRaw.words_eq (r : UniRaw) : r.words = r.word0 :: if r.l then [r.lit] else [] := rfl

@[simp] theorem getLsbD_ofBool_zero (b : Bool) : (BitVec.ofBool b).getLsbD 0 = b := by cases b <;> rfl

/-- A bit of the high part of two fields beside each other. -/
theorem getLsbD_append_high {n k : Nat} (x : BitVec n) (y : BitVec k) {i : Nat} (h : k ≤ i) :
    (x ++ y).getLsbD i = x.getLsbD (i - k) := by
  rw [BitVec.getLsbD_append, if_neg (by omega)]

/-- A bit of the low part of two fields beside each other. -/
theorem getLsbD_append_low {n k : Nat} (x : BitVec n) (y : BitVec k) {i : Nat} (h : i < k) :
    (x ++ y).getLsbD i = y.getLsbD i := by
  rw [BitVec.getLsbD_append, if_pos h]

theorem LaneRaw.word0_set (r : LaneRaw) : r.word0.getLsbD 31 = false := by
  simp (disch := omega) only [word0, getLsbD_append_high, Nat.reduceSub, getLsbD_ofBool_zero]

theorem LaneRaw.word0_m (r : LaneRaw) : r.word0.getLsbD 0 = r.needsM := by
  simp (disch := omega) only [word0, getLsbD_append_low, getLsbD_ofBool_zero]

theorem LaneRaw.word0_fields (r : LaneRaw) :
    r.word0.extractLsb' 25 6 = r.fam ∧ r.word0.extractLsb' 17 8 = r.d ∧ r.word0.extractLsb' 9 8 = r.a ∧
      r.word0.extractLsb' 1 8 = r.b := by
  simp (disch := omega) only [word0, BitVec.extractLsb'_append_eq_of_le, BitVec.extractLsb'_append_eq_of_add_le,
    BitVec.extractLsb'_eq_self, Nat.reduceSub, and_self]

theorem LaneRaw.word1_neg (r : LaneRaw) : r.word1.getLsbD 23 = r.neg := by
  simp (disch := omega) only [word1, getLsbD_append_high, getLsbD_append_low, Nat.reduceSub, getLsbD_ofBool_zero]

theorem LaneRaw.word1_fields (r : LaneRaw) :
    r.word1.extractLsb' 24 8 = r.c ∧ r.word1.extractLsb' 20 3 = r.pr ∧ fnOf r.word1 = r.fn ∧
      r.word1.extractLsb' 0 12 = r.mod := by
  simp (disch := omega) only [word1, fnOf, BitVec.extractLsb'_append_eq_of_le, BitVec.extractLsb'_append_eq_of_add_le,
    BitVec.extractLsb'_eq_self, Nat.reduceSub, and_self]

theorem UniRaw.word0_bits (r : UniRaw) : r.word0.getLsbD 31 = true ∧ r.word0.getLsbD 0 = r.l := by
  simp (disch := omega) only [word0, getLsbD_append_high, getLsbD_append_low, Nat.reduceSub, getLsbD_ofBool_zero,
    and_self]

theorem UniRaw.word0_fields (r : UniRaw) :
    r.word0.extractLsb' 26 5 = r.ufam ∧ r.word0.extractLsb' 20 6 = r.d ∧ r.word0.extractLsb' 14 6 = r.a ∧
      r.word0.extractLsb' 8 6 = r.b ∧ r.word0.extractLsb' 1 7 = r.ufn := by
  simp (disch := omega) only [word0, BitVec.extractLsb'_append_eq_of_le, BitVec.extractLsb'_append_eq_of_add_le,
    BitVec.extractLsb'_eq_self, Nat.reduceSub, and_self]

/-- Without a modifier word the fields hold the defaults of R20. -/
theorem LaneRaw.defaults_of_needsM {r : LaneRaw} (h : r.needsM = false) :
    r.c = 255 ∧ r.neg = false ∧ r.pr = 7 ∧ r.fn = 0 ∧ r.mod = 0 := by
  simp only [needsM, Bool.or_eq_false_iff, bne_eq_false_iff_eq] at h
  obtain ⟨⟨⟨⟨hc, hn⟩, hp⟩, hf⟩, hm⟩ := h
  exact ⟨hc, hn, hp, hf, hm⟩

theorem LaneRaw.eq_of_fields {r : LaneRaw} {c fn : BitVec 8} {neg : Bool} {pr : BitVec 3} {mod : BitVec 12} (hc :
    r.c = c)
    (hn : r.neg = neg) (hp : r.pr = pr) (hf : r.fn = fn) (hm : r.mod = mod) :
    { r with c := c, neg := neg, pr := pr, fn := fn, mod := mod } = r := by
  subst hc hn hp hf hm
  rfl

/-- A word with no literal holds none. -/
def LaneRaw.litOk (r : LaneRaw) : Prop := r.hasLit = false → r.lit = 0

theorem LaneRaw.words_length_le (r : LaneRaw) : r.words.length ≤ 3 := by
  rw [words_eq]
  cases r.needsM <;> cases r.hasLit <;> simp

/-- The words say how many they are. -/
theorem LaneRaw.wordCount_words (r : LaneRaw) (w : Word) (ws : List Word) (h : r.words = w :: ws) :
    wordCount w (ws.headD 0) = r.words.length := by
  rw [words_eq] at h ⊢
  obtain ⟨rfl, rfl⟩ := List.cons.inj h
  obtain ⟨hfam, -, ha, hb⟩ := r.word0_fields
  obtain ⟨hc, -, hfn, -⟩ := r.word1_fields
  cases hm : r.needsM with
  | false =>
    obtain ⟨hc', -, -, hfn', -⟩ := defaults_of_needsM hm
    have hlit : r.hasLit = (!branchLayout r.fam 0 && (r.a == 254 || r.b == 254)) := by
      simp [hasLit, hc', hfn']
    simp only [wordCount, word0_set, word0_m, hm, hfam, ha, hb, ← hlit, Bool.false_eq_true, if_false, Bool.false_and,
      Bool.or_false]
    cases r.hasLit <;> rfl
  | true =>
    simp only [wordCount, word0_set, word0_m, hm, hfam, ha, hb, hc, hfn, List.headD_cons, if_true,
      List.singleton_append, Bool.true_and, Bool.false_eq_true, if_false]
    change 1 + true.toNat + r.hasLit.toNat = _
    cases r.hasLit <;> rfl

/-- The fields come back from their words. -/
theorem LaneRaw.ofWords_words {r : LaneRaw} (hl : r.litOk) (w : Word) (ws : List Word) (h : r.words = w :: ws) :
    LaneRaw.ofWords w (ws.headD 0) (ws.tail.headD 0) = r := by
  rw [words_eq] at h
  obtain ⟨rfl, rfl⟩ := List.cons.inj h
  obtain ⟨hfam, hd, ha, hb⟩ := r.word0_fields
  obtain ⟨hc, hpr, hfn, hmod⟩ := r.word1_fields
  have hlit : (if r.hasLit then [r.lit] else []).headD 0 = r.lit := by
    cases h : r.hasLit with
    | false => exact (hl h).symm
    | true => rfl
  cases hm : r.needsM with
  | false =>
    obtain ⟨hc', hn', hp', hf', hmod'⟩ := defaults_of_needsM hm
    simp only [ofWords, word0_m, hm, hfam, hd, ha, hb, Bool.false_eq_true, if_false, Bool.false_and,
      List.nil_append, hlit]
    rw [LaneRaw.eq_of_fields hc' hn' hp' hf' hmod']
  | true =>
    simp only [ofWords, word0_m, hm, hfam, hd, ha, hb, hc, hpr, hfn, hmod, word1_neg, if_true, Bool.true_and,
      List.singleton_append, List.headD_cons, List.tail_cons, hlit]

/-- The fields come back from their words. -/
theorem UniRaw.ofWords_words {r : UniRaw} (hl : r.l = false → r.lit = 0) (w : Word) (ws : List Word) (h : r.words =
    w :: ws) :
    UniRaw.ofWords w (ws.headD 0) = r := by
  rw [words_eq] at h
  obtain ⟨rfl, rfl⟩ := List.cons.inj h
  obtain ⟨hufam, hd, ha, hb, hufn⟩ := r.word0_fields
  have hlit : (if r.l then [r.lit] else []).headD 0 = r.lit := by
    cases h : r.l with
    | false => exact (hl h).symm
    | true => rfl
  simp only [ofWords, hufam, hd, ha, hb, hufn, r.word0_bits.2, hlit]

theorem UniRaw.wordCount_words (r : UniRaw) (w : Word) (ws : List Word) (h : r.words = w :: ws) :
    wordCount w (ws.headD 0) = r.words.length := by
  rw [words_eq] at h ⊢
  obtain ⟨rfl, rfl⟩ := List.cons.inj h
  obtain ⟨h31, h0⟩ := r.word0_bits
  rw [wordCount, if_pos h31, h0]
  cases r.l <;> rfl

theorem UniRaw.words_length_le (r : UniRaw) : r.words.length ≤ 3 := by
  rw [words_eq]
  cases r.l <;> simp

/-! ## Operand fields -/

theorem decSrc_enc (x : Src) (w : Word) (h : x.isLit = true → w = x.litOf) : decSrc x.enc w = x := by
  cases x with
  | v n => simp [decSrc, Src.enc, show n.val % 256 = n.val by omega]
  | s n => simp [decSrc, Src.enc, show (192 + n.val) % 256 = 192 + n.val by omega]
  | k n =>
    simp [decSrc, Src.enc, show (240 + n.val) % 256 = 240 + n.val by omega, show ¬240 + n.val < 192 by omega,
      show ¬240 + n.val - 192 < 48 by omega]
  | lit x =>
    rw [h rfl]
    simp [decSrc, Src.enc, Src.litOf]
  | none => simp [decSrc, Src.enc]

theorem decDst_enc (x : Dst) : decDst x.enc = some x := by
  cases x with
  | v n => simp [decDst, Dst.enc, show n.val % 256 = n.val by omega]
  | s n => simp [decDst, Dst.enc, show (192 + n.val) % 256 = 192 + n.val by omega]
  | p n =>
    simp [decDst, Dst.enc, show (240 + n.val) % 256 = 240 + n.val by omega, show ¬240 + n.val < 192 by omega,
      show ¬240 + n.val - 192 < 48 by omega]
  | none => simp [decDst, Dst.enc]

theorem decUSrc_enc (x : USrc) (w : Word) (h : x.isLit = true → w = x.litOf) : decUSrc x.enc w = some x := by
  cases x with
  | s n => simp [decUSrc, USrc.enc, show n.val % 64 = n.val by omega]
  | q n => simp [decUSrc, USrc.enc, show (48 + n.val) % 64 = 48 + n.val by omega]
  | k n =>
    simp [decUSrc, USrc.enc, show (56 + n.val) % 64 = 56 + n.val by omega, show ¬56 + n.val < 48 by omega,
      show ¬56 + n.val - 48 < 8 by omega]
  | lit x =>
    rw [h rfl]
    simp [decUSrc, USrc.enc, USrc.litOf]
  | none => simp [decUSrc, USrc.enc]

/-- A register number below the code is not the code. -/
theorem ofNat_beq_false {n x c : Nat} (hx : x < c) (hc : c < 2 ^ n) : (BitVec.ofNat n x == BitVec.ofNat n c) =
    false := by
  rw [beq_eq_false_iff_ne, Ne, ← BitVec.toNat_inj, BitVec.toNat_ofNat, BitVec.toNat_ofNat, Nat.mod_eq_of_lt hc,
    Nat.mod_eq_of_lt (hx.trans hc)]
  exact hx.ne

theorem Src.enc_beq_lit (x : Src) : (x.enc == 254) = x.isLit := by
  cases x with
  | v n => exact ofNat_beq_false (c := 254) (by omega) (by decide)
  | s n => exact ofNat_beq_false (c := 254) (by omega) (by decide)
  | k n => exact ofNat_beq_false (c := 254) (by omega) (by decide)
  | lit x => rfl
  | none => rfl

theorem USrc.enc_beq_lit (x : USrc) : (x.enc == 60) = x.isLit := by
  cases x with
  | s n => exact ofNat_beq_false (c := 60) (by omega) (by decide)
  | q n => exact ofNat_beq_false (c := 60) (by omega) (by decide)
  | k n => exact ofNat_beq_false (c := 60) (by omega) (by decide)
  | lit x => rfl
  | none => rfl

theorem Src.litOf_eq_zero {x : Src} (h : x.isLit = false) : x.litOf = 0 := by
  cases x with
  | lit w => cases h
  | v n | s n | k n | none => rfl

theorem USrc.litOf_eq_zero {x : USrc} (h : x.isLit = false) : x.litOf = 0 := by
  cases x with
  | lit w => cases h
  | s n | q n | k n | none => rfl

/-- The one literal of an instruction is that of each of its sources that is a literal, R27. -/
theorem Ops.litOf_of_oneLit {o : Ops} (h : o.oneLit = true) :
    (o.a.isLit = true → o.litOf = o.a.litOf) ∧ (o.b.isLit = true → o.litOf = o.b.litOf) ∧
      (o.c.isLit = true → o.litOf = o.c.litOf) := by
  simp only [oneLit, Bool.and_eq_true, Bool.not_eq_true', Bool.and_eq_false_iff] at h
  obtain ⟨⟨hab, hac⟩, hbc⟩ := h
  refine ⟨fun ha => ?_, fun hb => ?_, fun hc => ?_⟩
  · have hb := hab.resolve_left (by simp [ha])
    have hc := hac.resolve_left (by simp [ha])
    simp [litOf, Src.litOf_eq_zero hb, Src.litOf_eq_zero hc]
  · have ha := hab.resolve_right (by simp [hb])
    have hc := hbc.resolve_left (by simp [hb])
    simp [litOf, Src.litOf_eq_zero ha, Src.litOf_eq_zero hc]
  · have ha := hac.resolve_right (by simp [hc])
    have hb := hbc.resolve_right (by simp [hc])
    simp [litOf, Src.litOf_eq_zero ha, Src.litOf_eq_zero hb]

theorem UOps.litOf_of_oneLit {o : UOps} (h : o.oneLit = true) :
    (o.d.isLit = true → o.litOf = o.d.litOf) ∧ (o.a.isLit = true → o.litOf = o.a.litOf) ∧ (o.b.isLit = true →
      o.litOf = o.b.litOf) := by
  simp only [oneLit, Bool.and_eq_true, Bool.not_eq_true', Bool.and_eq_false_iff] at h
  obtain ⟨hd, hab⟩ := h
  refine ⟨fun h => absurd h (by simp [hd]), fun ha => ?_, fun hb => ?_⟩
  · simp [litOf, USrc.litOf_eq_zero (hab.resolve_left (by simp [ha]))]
  · simp [litOf, USrc.litOf_eq_zero (hab.resolve_right (by simp [hb]))]

theorem decP_ofNat (n : Fin 8) : decP (BitVec.ofNat 3 n.val) = n :=
  Fin.ext (by simp [decP])

theorem pred_raw (p : Pred) : (⟨decP (BitVec.ofNat 3 p.r.val), p.neg⟩ : Pred) = p := by rw [decP_ofNat]

/-- The operand fields come back, where MOD is inside the bits that the word defines. -/
theorem Ops.opsIn_raw {o : Ops} (h : o.oneLit = true) (fam fn : Nat) {mod mask : BitVec 12} (hm : mod &&& ~~~mask = 0) :
    (o.raw fam fn mod).opsIn mask = some o := by
  obtain ⟨ha, hb, hc⟩ := litOf_of_oneLit h
  simp only [raw, LaneRaw.opsIn, hm, if_true, LaneRaw.ops, LaneRaw.pred, decDst_enc, decSrc_enc _ _ ha, decSrc_enc
    _ _ hb,
    decSrc_enc _ _ hc, Option.map_some, pred_raw]

theorem UOps.ops_raw {o : UOps} (h : o.oneLit = true) (ufam ufn : Nat) : (o.raw ufam ufn).ops = some o := by
  obtain ⟨hd, ha, hb⟩ := litOf_of_oneLit h
  simp only [raw, UniRaw.ops, USrc.enc_beq_lit, decUSrc_enc _ _ hd, decUSrc_enc _ _ ha, decUSrc_enc _ _ hb, if_true]
  rfl

theorem Ops.litOk_raw (o : Ops) {fam fn : Nat} (mod : BitVec 12)
    (h : branchLayout (BitVec.ofNat 6 fam) (BitVec.ofNat 8 fn) = false) : (o.raw fam fn mod).litOk := by
  intro hl
  simp only [LaneRaw.hasLit, raw, h, Src.enc_beq_lit, Bool.not_false, Bool.true_and, Bool.or_eq_false_iff] at hl
  obtain ⟨⟨ha, hb⟩, hc⟩ := hl
  simp [raw, litOf, Src.litOf_eq_zero ha, Src.litOf_eq_zero hb, Src.litOf_eq_zero hc]

theorem UOps.lit_raw (o : UOps) (ufam ufn : Nat) (hl : (o.raw ufam ufn).l = false) : (o.raw ufam ufn).lit = 0 := by
  simp only [raw, Bool.or_eq_false_iff] at hl
  obtain ⟨ha, hb⟩ := hl
  simp [raw, litOf, USrc.litOf_eq_zero ha, USrc.litOf_eq_zero hb]

/-! ## Fields of MOD -/

theorem testBit_fld (m : BitVec 12) (lo n i : Nat) : (fld m lo n).testBit i = (decide (i < n) && m.getLsbD (lo +
    i)) := by
  simp [fld, BitVec.testBit_toNat]

theorem getLsbD_at (lo k i : Nat) : (at_ lo k).getLsbD i = (decide (i < 12) && decide (lo ≤ i) && k.testBit (i -
    lo)) := by
  unfold at_
  rw [BitVec.getLsbD_shiftLeft, BitVec.getLsbD_ofNat]
  by_cases h : i < lo
  · simp [h]
  · by_cases h2 : i < 12
    · simp [h, h2, show i - lo < 12 by omega, Nat.le_of_not_lt h]
    · simp [h2]

/-- A number has no bit at or above its width. -/
theorem testBit_of_width {k n i : Nat} (hk : k < 2 ^ n) (h : n ≤ i) : k.testBit i = false :=
  Nat.testBit_lt_two_pow (hk.trans_le (Nat.pow_le_pow_right (by decide) h))

@[simp] theorem fld_or (x y : BitVec 12) (lo n : Nat) : fld (x ||| y) lo n = fld x lo n ||| fld y lo n := by
  simp [fld, Nat.shiftRight_or_distrib, Nat.or_mod_two_pow]

theorem fld_at_same {lo n k : Nat} (hk : k < 2 ^ n) (h : lo + n ≤ 12) : fld (at_ lo k) lo n = k := by
  refine Nat.eq_of_testBit_eq fun i => ?_
  rw [testBit_fld, getLsbD_at]
  by_cases hi : i < n
  · simp [hi, show lo + i < 12 by omega]
  · simp [hi, testBit_of_width hk (Nat.le_of_not_lt hi)]

@[simp] theorem fld_at_above {lo lo' n k : Nat} (h : lo + n ≤ lo') : fld (at_ lo' k) lo n = 0 := by
  refine Nat.eq_of_testBit_eq fun i => ?_
  rw [testBit_fld, getLsbD_at, Nat.zero_testBit]
  by_cases hi : i < n
  · simp [show ¬ lo' ≤ lo + i by omega]
  · simp [hi]

theorem fld_at_below {lo lo' n k : Nat} (w : Nat) (hk : k < 2 ^ w) (h : lo' + w ≤ lo) : fld (at_ lo' k) lo n = 0 := by
  refine Nat.eq_of_testBit_eq fun i => ?_
  rw [testBit_fld, getLsbD_at, Nat.zero_testBit, testBit_of_width hk (show w ≤ lo + i - lo' by omega), Bool.and_false,
    Bool.and_false]

/-- Two fields do not meet. -/
theorem at_and_eq_zero {lo k : Nat} (n : Nat) (hk : k < 2 ^ n) {c : BitVec 12} (hc : fld c lo n = 0) :
    at_ lo k &&& c = 0 := by
  refine BitVec.eq_of_getLsbD_eq fun i hi => ?_
  rw [BitVec.getLsbD_and, getLsbD_at]
  by_cases h : lo ≤ i ∧ i < lo + n
  · have hbit := congrArg (Nat.testBit · (i - lo)) hc
    simp only [testBit_fld, Nat.zero_testBit, show lo + (i - lo) = i by omega, show i - lo < n by omega, decide_true,
      Bool.true_and] at hbit
    simp [hbit]
  · by_cases h1 : lo ≤ i
    · simp [testBit_of_width hk (show n ≤ i - lo by omega)]
    · simp [h1]

@[simp] theorem or_and_eq_zero (x y c : BitVec 12) : (x ||| y) &&& c = 0#12 ↔ x &&& c = 0#12 ∧ y &&& c = 0#12 := by
  simp only [← BitVec.toNat_inj, BitVec.toNat_and, BitVec.toNat_or, BitVec.toNat_ofNat, Nat.zero_mod,
    Nat.and_or_distrib_right]
  exact Nat.or_eq_zero_iff

@[simp] theorem fld_bit_same {i : Nat} (b : Bool) (h : i < 12) : fld (bit_ i b) i 1 = b.toNat :=
  fld_at_same (by cases b <;> decide) (by omega)

@[simp] theorem fld_bit_other {i lo n : Nat} (b : Bool) (h : i < lo ∨ lo + n ≤ i) : fld (bit_ i b) lo n = 0 := by
  cases h with
  | inl h => exact fld_at_below 1 (by cases b <;> decide) h
  | inr h => exact fld_at_above h

@[simp] theorem bit_and_eq_zero {i : Nat} (b : Bool) {c : BitVec 12} (hc : fld c i 1 = 0) : bit_ i b &&& c = 0#12 :=
  at_and_eq_zero 1 (by cases b <;> decide) hc

@[simp] theorem fld_fin_same {N lo n : Nat} (x : Fin N) (hN : N ≤ 2 ^ n) (h : lo + n ≤ 12) : fld (at_ lo x.val) lo
    n = x.val :=
  fld_at_same (x.isLt.trans_le hN) h

@[simp] theorem fld_fin_below {N lo lo' n : Nat} (x : Fin N) (h : lo' ≤ lo) (hN : N ≤ 2 ^ (lo - lo')) :
    fld (at_ lo' x.val) lo n = 0 :=
  fld_at_below _ (x.isLt.trans_le hN) (by omega)

@[simp] theorem fin_and_eq_zero {N lo : Nat} (x : Fin N) {c : BitVec 12} (hc : fld c lo (Nat.clog 2 N) = 0) :
    at_ lo x.val &&& c = 0#12 :=
  at_and_eq_zero _ (x.isLt.trans_le (Nat.le_pow_clog (by decide) _)) hc

section
variable {α : Type} [DecidableEq α] {l : List α} {x : α}

theorem codeOf_lt (h : x ∈ l) : codeOf l x < l.length := List.idxOf_lt_length_of_mem h

@[simp] theorem getElem?_codeOf (h : x ∈ l) : l[codeOf l x]? = some x := by
  rw [List.getElem?_eq_getElem (codeOf_lt h)]
  exact congrArg some (List.getElem_idxOf (codeOf_lt h))

@[simp] theorem fld_code_same {lo n : Nat} (h : x ∈ l) (hl : l.length ≤ 2 ^ n) (hn : lo + n ≤ 12) :
    fld (at_ lo (codeOf l x)) lo n = codeOf l x :=
  fld_at_same ((codeOf_lt h).trans_le hl) hn

@[simp] theorem fld_code_below {lo lo' n : Nat} (h : x ∈ l) (hlo : lo' ≤ lo) (hl : l.length ≤ 2 ^ (lo - lo')) :
    fld (at_ lo' (codeOf l x)) lo n = 0 :=
  fld_at_below _ ((codeOf_lt h).trans_le hl) (by omega)

@[simp] theorem code_and_eq_zero {lo : Nat} {c : BitVec 12} (h : x ∈ l) (hc : fld c lo (Nat.clog 2 l.length) = 0) :
    at_ lo (codeOf l x) &&& c = 0#12 :=
  at_and_eq_zero _ ((codeOf_lt h).trans_le (Nat.le_pow_clog (by decide) _)) hc

end

theorem getLsbD_eq_fld (m : BitVec 12) (i : Nat) : m.getLsbD i = decide (fld m i 1 = 1) := by
  have h := testBit_fld m i 1 0
  have hlt : fld m i 1 < 2 := (m.extractLsb' i 1).isLt
  rw [Nat.testBit_zero, Nat.mod_eq_of_lt hlt] at h
  simpa using h.symm

theorem p3_eq_fld (m : BitVec 12) (lo : Nat) : p3 m lo = Fin.ofNat 8 (fld m lo 3) :=
  Fin.ext (Nat.mod_eq_of_lt (m.extractLsb' lo 3).isLt).symm

theorem tileOf_eq_fld (m : BitVec 12) : tileOf m = Fin.ofNat 64 (fld m 0 6) :=
  Fin.ext (Nat.mod_eq_of_lt (m.extractLsb' 0 6).isLt).symm

theorem toFin4_eq_fld (m : BitVec 12) (lo : Nat) : (m.extractLsb' lo 2 : BitVec 2).toFin = Fin.ofNat 4 (fld m lo 2) :=
  Fin.ext (Nat.mod_eq_of_lt (m.extractLsb' lo 2).isLt).symm

theorem toFin16_eq_fld (m : BitVec 12) (lo : Nat) : (m.extractLsb' lo 4 : BitVec 4).toFin = Fin.ofNat 16 (fld m lo 4) :=
  Fin.ext (Nat.mod_eq_of_lt (m.extractLsb' lo 4).isLt).symm

@[simp] theorem Part.mem_codes (x : Part) : x ∈ Part.codes := by cases x <;> decide
@[simp] theorem ICond.mem_codes (x : ICond) : x ∈ ICond.codes := by cases x <;> decide
@[simp] theorem FCond.mem_codes (x : FCond) : x ∈ FCond.codes := by cases x <;> decide
@[simp] theorem CombOp.mem_codes (x : CombOp) : x ∈ CombOp.codes := by cases x <;> decide
@[simp] theorem RM.mem_codes (x : RM) : x ∈ RM.codes := by cases x <;> decide
@[simp] theorem ITy.mem_codes (x : ITy) : x ∈ ITy.codes := by cases x <;> decide
@[simp] theorem FTy.mem_codes (x : FTy) : x ∈ FTy.codes := by cases x <;> decide
@[simp] theorem Fmt.mem_codes (x : Fmt) : x ∈ Fmt.codes := by cases x <;> decide
@[simp] theorem VoteMode.mem_codes (x : VoteMode) : x ∈ VoteMode.codes := by cases x <;> decide
@[simp] theorem ShflMode.mem_codes (x : ShflMode) : x ∈ ShflMode.codes := by cases x <;> decide
@[simp] theorem SwapDir.mem_codes (x : SwapDir) : x ∈ SwapDir.codes := by cases x <;> decide
@[simp] theorem WrOp.mem_codes (x : WrOp) : x ∈ WrOp.codes := by cases x <;> decide
@[simp] theorem Pol.mem_codes (x : Pol) : x ∈ Pol.codes := by cases x <;> decide
@[simp] theorem Scope.mem_codes (x : Scope) : x ∈ Scope.codes := by cases x <;> decide
@[simp] theorem LdW.mem_codes (x : LdW) : x ∈ LdW.codes := by cases x <;> decide
@[simp] theorem StW.mem_codes (x : StW) : x ∈ StW.codes := by cases x <;> decide
@[simp] theorem LsAtOp.mem_codes (x : LsAtOp) : x ∈ LsAtOp.codes := by cases x <;> decide
@[simp] theorem Vs.mem_codes (x : Vs) : x ∈ Vs.codes := by cases x <;> decide
@[simp] theorem AccOp.mem_codes (x : AccOp) : x ∈ AccOp.codes := by cases x <;> decide
@[simp] theorem AccTy.mem_codes (x : AccTy) : x ∈ AccTy.codes := by cases x <;> decide
@[simp] theorem AccFmt.mem_codes (x : AccFmt) : x ∈ AccFmt.codes := by cases x <;> decide
@[simp] theorem QSel.mem_codes (x : QSel) : x ∈ QSel.codes := by cases x <;> decide

@[simp] theorem decSReg_code (r : SReg) : decSReg r.code = some r := by cases r <;> rfl

theorem SReg.code_lt (r : SReg) : r.code < 2 ^ 8 := by cases r <;> decide

@[simp] theorem decSys_code (r : SysReg) : decSys r.code = some r := by
  cases r with
  | tsv n => simp [decSys, SysReg.code]
  | weir n => simp [decSys, SysReg.code, show ¬48 + n.val - 8 < 8 by omega]
  | tvb | tcs | tpc | tad | tlm | tch | leasens | dpri | ctxid | mxc | slb | sls => rfl

theorem SysReg.code_lt (r : SysReg) : r.code < 2 ^ 8 := by
  cases r with
  | tsv n => simp only [code]; omega
  | weir n => simp only [code]; omega
  | tvb | tcs | tpc | tad | tlm | tch | leasens | dpri | ctxid | mxc | slb | sls => decide

/-! ## Modifiers -/

@[simp] theorem IMod.dec_enc (m : IMod) : IMod.dec m.enc = m := by
  simp +decide [dec, enc, getLsbD_eq_fld, p3_eq_fld, -BitVec.getLsbD_eq_getElem]

@[simp] theorem IMod.enc_and (m : IMod) : m.enc &&& 0xC00#12 = 0#12 := by
  simp +decide [enc]

@[simp] theorem FMod.dec_enc (m : FMod) : FMod.dec m.enc = some m := by
  simp +decide [dec, enc, getLsbD_eq_fld, -BitVec.getLsbD_eq_getElem]

@[simp] theorem FMod.enc_and (m : FMod) : m.enc &&& 0xE00#12 = 0#12 := by
  simp +decide [enc]

@[simp] theorem bit_false (lo : Nat) : bit_ lo false = 0#12 := by simp [bit_, at_]

/-- Without BF, R132. -/
theorem FMod.enc_and_of_bf {m : FMod} (h : m.bf = false) : m.enc &&& 0xF00#12 = 0#12 := by
  simp +decide [enc, h]

@[simp] theorem DotMod.dec_enc (m : DotMod) : DotMod.dec m.enc = m := by
  simp +decide [dec, enc, getLsbD_eq_fld, -BitVec.getLsbD_eq_getElem]

@[simp] theorem DotMod.enc_and (m : DotMod) : m.enc &&& 0xFE0#12 = 0#12 := by
  simp +decide [enc]

@[simp] theorem PkCvtMod.dec_enc (m : PkCvtMod) : PkCvtMod.dec m.enc = some m := by
  simp only [dec, toFin4_eq_fld]
  simp +decide [enc, getLsbD_eq_fld, -BitVec.getLsbD_eq_getElem]

@[simp] theorem PkCvtMod.enc_and (m : PkCvtMod) : m.enc &&& 0x800#12 = 0#12 := by
  simp +decide [enc]

@[simp] theorem GMod.dec_enc (m : GMod) : GMod.dec m.enc = some m := by
  simp +decide [dec, enc, getLsbD_eq_fld, -BitVec.getLsbD_eq_getElem]

@[simp] theorem GMod.enc_and (m : GMod) : m.enc &&& 0x7FC#12 = 0#12 := by
  simp +decide [enc]

@[simp] theorem AtMod.dec_enc (m : AtMod) : AtMod.dec m.enc = some m := by
  simp +decide [dec, enc, getLsbD_eq_fld, -BitVec.getLsbD_eq_getElem]

@[simp] theorem AtMod.enc_and (m : AtMod) : m.enc &&& 0x7F0#12 = 0#12 := by
  simp +decide [enc]

@[simp] theorem RdMod.dec_enc (m : RdMod) : RdMod.dec m.enc = some m := by
  simp +decide [dec, enc, getLsbD_eq_fld, -BitVec.getLsbD_eq_getElem]

@[simp] theorem RdMod.enc_and (m : RdMod) : m.enc &&& 0x7E0#12 = 0#12 := by
  simp +decide [enc]

@[simp] theorem fld_zero (lo n : Nat) : fld 0#12 lo n = 0 := by simp [fld]

@[simp] theorem CpMod.dec_enc (m : CpMod) : CpMod.dec m.enc = some m := by
  obtain ⟨gd, av, sl, dl, fs⟩ := m
  cases gd <;> cases av <;> simp +decide [dec, enc, optP, getLsbD_eq_fld, p3_eq_fld, -BitVec.getLsbD_eq_getElem]

@[simp] theorem CpMod.enc_and (m : CpMod) : m.enc &&& 0x400#12 = 0#12 := by
  obtain ⟨gd, av, sl, dl, fs⟩ := m
  cases gd <;> cases av <;> simp +decide [enc, optP]

section
variable (o : Ops) (fam fn : Nat) (mod : BitVec 12)
@[simp] theorem Ops.raw_fam : (o.raw fam fn mod).fam = BitVec.ofNat 6 fam := rfl
@[simp] theorem Ops.raw_fn : (o.raw fam fn mod).fn = BitVec.ofNat 8 fn := rfl
@[simp] theorem Ops.raw_mod : (o.raw fam fn mod).mod = mod := rfl
end

/-- The source and destination types leave RM, FZ and SAT as they are. -/
@[simp] theorem CvMod.dec_enc_or (m : CvMod) (st dt : Nat) : CvMod.dec (m.enc ||| cvTypes st dt) = some m := by
  simp +decide [dec, enc, cvTypes, getLsbD_eq_fld, -BitVec.getLsbD_eq_getElem]

/-! ## The families, R28: FN, MOD and instruction of each row -/

/-- Each row of a family gives FN and MOD of an instruction with these operands, and they are read as it. -/
def Ops.Rows (o : Ops) (fam : Nat) (rows : List (Nat × BitVec 12 × Instr)) : Prop :=
  ∀ row ∈ rows, (o.raw fam row.1 row.2.1).form = some row.2.2

theorem Ops.Rows.form {o : Ops} {fam fn : Nat} {mod : BitVec 12} {i : Instr} {rows : List (Nat × BitVec 12 × Instr)}
    (h : o.Rows fam rows) (hm : (fn, mod, i) ∈ rows) : (o.raw fam fn mod).form = some i := h _ hm

section
variable {o : Ops} (ho : o.oneLit = true)
include ho

theorem rows_i (m : IMod) :
    o.Rows 0x01 [(0, m.enc, Instr.iAdd o m),
    (1, m.enc, Instr.iSub o m),
    (2, m.enc, Instr.iAddc o m),
    (3, m.enc, Instr.iSubb o m),
    (4, m.enc, Instr.iNeg o m),
    (5, m.enc, Instr.iAbs o m),
    (6, m.enc, Instr.iMin o m),
    (7, m.enc, Instr.iMax o m),
    (8, m.enc, Instr.iSad o m)] := by
  have hform (fn : Nat) (mod : BitVec 12) : (o.raw 0x01 fn mod).form = (o.raw 0x01 fn mod).decI := rfl
  simp +decide [Ops.Rows, hform, LaneRaw.decI, Ops.opsIn_raw ho]

theorem rows_im (p : Part) (u : Bool) :
    o.Rows 0x02 [(0, at_ 0 (codeOf Part.codes p) ||| bit_ 2 u, Instr.imMul o p u),
    (1, at_ 0 (codeOf Part.codes p) ||| bit_ 2 u, Instr.imMad o p u),
    (2, bit_ 2 u, Instr.imMadw o u)] := by
  have hform (fn : Nat) (mod : BitVec 12) : (o.raw 0x02 fn mod).form = (o.raw 0x02 fn mod).decIM := rfl
  simp +decide [Ops.Rows, hform, LaneRaw.decIM, Ops.opsIn_raw ho, getLsbD_eq_fld, -BitVec.getLsbD_eq_getElem]

theorem rows_log (w : Bool) :
    o.Rows 0x03 [(0, bit_ 0 w, Instr.logAnd o w),
    (1, bit_ 0 w, Instr.logOr o w),
    (2, bit_ 0 w, Instr.logXor o w),
    (3, bit_ 0 w, Instr.logAndn o w),
    (4, bit_ 0 w, Instr.logNot o w)] := by
  have hform (fn : Nat) (mod : BitVec 12) : (o.raw 0x03 fn mod).form = (o.raw 0x03 fn mod).decLog := rfl
  simp +decide [Ops.Rows, hform, LaneRaw.decLog, Ops.opsIn_raw ho, getLsbD_eq_fld, -BitVec.getLsbD_eq_getElem]

theorem rows_sh (w x : Bool) :
    o.Rows 0x04 [(0, bit_ 0 w, Instr.shShl o w),
    (1, bit_ 0 w ||| bit_ 1 x, Instr.shShr o w x),
    (2, bit_ 0 w, Instr.shRot o w),
    (3, bit_ 2 x, Instr.shFun o x)] := by
  have hform (fn : Nat) (mod : BitVec 12) : (o.raw 0x04 fn mod).form = (o.raw 0x04 fn mod).decSh := rfl
  simp +decide [Ops.Rows, hform, LaneRaw.decSh, Ops.opsIn_raw ho, getLsbD_eq_fld, -BitVec.getLsbD_eq_getElem]

theorem rows_bf (x : Bool) :
    o.Rows 0x05 [(0, bit_ 0 x, Instr.bfExt o x),
    (1, 0, Instr.bfIns o),
    (2, 0, Instr.bfPopc o),
    (3, 0, Instr.bfClz o),
    (4, 0, Instr.bfBrev o),
    (5, 0, Instr.bfFfs o)] := by
  have hform (fn : Nat) (mod : BitVec 12) : (o.raw 0x05 fn mod).form = (o.raw 0x05 fn mod).decBf := rfl
  simp +decide [Ops.Rows, hform, LaneRaw.decBf, Ops.opsIn_raw ho, getLsbD_eq_fld, -BitVec.getLsbD_eq_getElem]

theorem rows_cmp (i : ICond) (f : FCond) (x : Bool) (k : Comb) :
    o.Rows 0x06 [(0, at_ 0 (codeOf ICond.codes i) ||| bit_ 4 x ||| k.enc, Instr.cmpI o i x k),
    (1, at_ 0 (codeOf FCond.codes f) ||| k.enc ||| bit_ 11 x, Instr.cmpF o f x k),
    (2, at_ 0 (codeOf FCond.codes f) ||| k.enc ||| bit_ 11 x, Instr.cmpD o f x k)] := by
  have hform (fn : Nat) (mod : BitVec 12) : (o.raw 0x06 fn mod).form = (o.raw 0x06 fn mod).decCmp := rfl
  simp +decide [Ops.Rows, hform, LaneRaw.decCmp, Ops.opsIn_raw ho, Comb.dec, Comb.enc, p3_eq_fld,
    getLsbD_eq_fld, -BitVec.getLsbD_eq_getElem]

theorem rows_pr (a b c : Fin 8) :
    o.Rows 0x07 [(0, at_ 0 a.val ||| at_ 3 b.val ||| at_ 6 c.val, Instr.prLog o a b c)] := by
  have hform (fn : Nat) (mod : BitVec 12) : (o.raw 0x07 fn mod).form = (o.raw 0x07 fn mod).decPr := rfl
  simp +decide [Ops.Rows, hform, LaneRaw.decPr, Ops.opsIn_raw ho, p3_eq_fld]

theorem rows_mv (n : Fin 8) (x w : Bool) :
    o.Rows 0x08 [(0, bit_ 0 w, Instr.mvMov o w),
    (1, at_ 0 n.val ||| bit_ 3 x ||| bit_ 4 w, Instr.mvSel o n x w),
    (2, 0, Instr.mvPrm o),
    (3, at_ 0 n.val ||| bit_ 3 x, Instr.mvLea o n x)] := by
  have hform (fn : Nat) (mod : BitVec 12) : (o.raw 0x08 fn mod).form = (o.raw 0x08 fn mod).decMv := rfl
  simp +decide [Ops.Rows, hform, LaneRaw.decMv, Ops.opsIn_raw ho, p3_eq_fld, getLsbD_eq_fld, -BitVec.getLsbD_eq_getElem]

theorem rows_cv (m : CvMod) (w : Bool) (i j : ITy) (f g : FTy) :
    o.Rows 0x09 [(0, m.enc ||| cvTypes (codeOf ITy.codes i) (codeOf FTy.codes f), Instr.cvI2f o m i f),
    (2, m.enc ||| cvTypes (codeOf FTy.codes f) (codeOf FTy.codes g), Instr.cvF2f o m f g),
    (3, bit_ 4 w ||| cvTypes (codeOf ITy.codes i) (codeOf ITy.codes j), Instr.cvI2i o w i j)] := by
  have hform (fn : Nat) (mod : BitVec 12) : (o.raw 0x09 fn mod).form = (o.raw 0x09 fn mod).decCv := rfl
  simp +decide [Ops.Rows, hform, LaneRaw.decCv, Ops.opsIn_raw ho, CvMod.dec, CvMod.enc, cvTypes,
    getLsbD_eq_fld, -BitVec.getLsbD_eq_getElem]

theorem form_cvF2i {m : CvMod} (hm : m.sat = false) (f : FTy) (i : ITy) :
    (o.raw 0x09 1 (m.enc ||| cvTypes (codeOf FTy.codes f) (codeOf ITy.codes i))).form = some (.cvF2i o m f i) := by
  have hform (mod : BitVec 12) : (o.raw 0x09 1 mod).form = (o.raw 0x09 1 mod).decCv := rfl
  have hmask : (m.enc ||| cvTypes (codeOf FTy.codes f) (codeOf ITy.codes i)) &&& 0x810#12 = 0#12 := by
    simp +decide [CvMod.enc, cvTypes, hm]
  have hst : fld (m.enc ||| cvTypes (codeOf FTy.codes f) (codeOf ITy.codes i)) 5 3 = codeOf FTy.codes f := by
    simp +decide [CvMod.enc, cvTypes]
  have hdt : fld (m.enc ||| cvTypes (codeOf FTy.codes f) (codeOf ITy.codes i)) 8 3 = codeOf ITy.codes i := by
    simp +decide [CvMod.enc, cvTypes]
  simp [hform, LaneRaw.decCv, Ops.opsIn_raw ho, hmask, hst, hdt, -fld_or, -or_and_eq_zero]

theorem rows_f {m : FMod} (hm : m.bf = false) :
    o.Rows 0x0A [(0, m.enc, Instr.fAdd o m),
    (1, m.enc, Instr.fSub o m),
    (2, m.enc, Instr.fMul o m),
    (3, m.enc, Instr.fFma o m),
    (4, m.enc, Instr.fMin o m),
    (5, m.enc, Instr.fMax o m),
    (6, 0, Instr.fCls o)] := by
  have hform (fn : Nat) (mod : BitVec 12) : (o.raw 0x0A fn mod).form = (o.raw 0x0A fn mod).decF := rfl
  simp +decide [Ops.Rows, hform, LaneRaw.decF, Ops.opsIn_raw ho, m.enc_and_of_bf hm]

theorem rows_fh (m : FMod) :
    o.Rows 0x0B [(0, m.enc, Instr.fhAdd2 o m),
    (1, m.enc, Instr.fhMul2 o m),
    (2, m.enc, Instr.fhFma2 o m),
    (3, m.enc, Instr.fhMin2 o m),
    (4, m.enc, Instr.fhMax2 o m)] := by
  have hform (fn : Nat) (mod : BitVec 12) : (o.raw 0x0B fn mod).form = (o.raw 0x0B fn mod).decFh := rfl
  simp +decide [Ops.Rows, hform, LaneRaw.decFh, Ops.opsIn_raw ho]

theorem rows_d {m : FMod} (hm : m.bf = false) :
    o.Rows 0x0C [(0, m.enc, Instr.dAdd o m),
    (1, m.enc, Instr.dMul o m),
    (2, m.enc, Instr.dFma o m),
    (3, m.enc, Instr.dMin o m),
    (4, m.enc, Instr.dMax o m)] := by
  have hform (fn : Nat) (mod : BitVec 12) : (o.raw 0x0C fn mod).form = (o.raw 0x0C fn mod).decD := rfl
  simp +decide [Ops.Rows, hform, LaneRaw.decD, Ops.opsIn_raw ho, m.enc_and_of_bf hm]

theorem rows_sf (z : Bool) :
    o.Rows 0x0D [(0, bit_ 3 z, Instr.sfRcp o z),
    (1, bit_ 3 z, Instr.sfRsq o z),
    (2, bit_ 3 z, Instr.sfSqrt o z),
    (3, bit_ 3 z, Instr.sfExp2 o z),
    (4, bit_ 3 z, Instr.sfLog2 o z),
    (5, bit_ 3 z, Instr.sfSin o z),
    (6, bit_ 3 z, Instr.sfCos o z),
    (7, bit_ 3 z, Instr.sfTanh o z)] := by
  have hform (fn : Nat) (mod : BitVec 12) : (o.raw 0x0D fn mod).form = (o.raw 0x0D fn mod).decSf := rfl
  simp +decide [Ops.Rows, hform, LaneRaw.decSf, Ops.opsIn_raw ho, getLsbD_eq_fld, -BitVec.getLsbD_eq_getElem]

theorem rows_dot (m : DotMod) :
    o.Rows 0x0E [(0, m.enc, Instr.dotI8x4 o m),
    (1, m.enc, Instr.dotI4x8 o m),
    (2, m.enc, Instr.dotE4m3x4 o m),
    (3, m.enc, Instr.dotE5m2x4 o m),
    (4, m.enc, Instr.dotE2m1x8 o m)] := by
  have hform (fn : Nat) (mod : BitVec 12) : (o.raw 0x0E fn mod).form = (o.raw 0x0E fn mod).decDot := rfl
  simp +decide [Ops.Rows, hform, LaneRaw.decDot, Ops.opsIn_raw ho]

theorem rows_pk (m : PkCvtMod) (f : Fmt) (x : Bool) :
    o.Rows 0x0F [(0, m.enc, Instr.pkCvt o m),
    (1, at_ 0 (codeOf Fmt.codes f) ||| bit_ 7 x, Instr.pkUnp o f x),
    (2, at_ 0 (codeOf Fmt.codes f), Instr.pkScl o f),
    (3, bit_ 0 x, Instr.pkPl6 o x)] := by
  have hform (fn : Nat) (mod : BitVec 12) : (o.raw 0x0F fn mod).form = (o.raw 0x0F fn mod).decPk := rfl
  simp +decide [Ops.Rows, hform, LaneRaw.decPk, Ops.opsIn_raw ho, getLsbD_eq_fld, -BitVec.getLsbD_eq_getElem]

theorem rows_br :
    o.Rows 0x10 [(1, 0, Instr.brInd o)] := by
  have hform (fn : Nat) (mod : BitVec 12) : (o.raw 0x10 fn mod).form = (o.raw 0x10 fn mod).decBr := rfl
  simp +decide [Ops.Rows, hform, LaneRaw.decBr, Ops.opsIn_raw ho]

theorem rows_cl :
    o.Rows 0x11 [(1, 0, Instr.clCalli o),
    (2, 0, Instr.clRet o)] := by
  have hform (fn : Nat) (mod : BitVec 12) : (o.raw 0x11 fn mod).form = (o.raw 0x11 fn mod).decCl := rfl
  simp +decide [Ops.Rows, hform, LaneRaw.decCl, Ops.opsIn_raw ho]

theorem rows_x :
    o.Rows 0x12 [(0, 0, Instr.xExit o),
    (1, 0, Instr.xYield o),
    (2, 0, Instr.xNap o)] := by
  have hform (fn : Nat) (mod : BitVec 12) : (o.raw 0x12 fn mod).form = (o.raw 0x12 fn mod).decX := rfl
  simp +decide [Ops.Rows, hform, LaneRaw.decX, Ops.opsIn_raw ho]

theorem rows_wv (n : Fin 8) (x : Bool) (m : VoteMode) :
    o.Rows 0x13 [(0, at_ 0 n.val ||| bit_ 3 x ||| at_ 4 (codeOf VoteMode.codes m), Instr.wvVote o n x m),
    (1, at_ 0 n.val ||| bit_ 3 x, Instr.wvBallot o n x),
    (2, bit_ 4 x, Instr.wvMatch o x),
    (3, 0, Instr.wvElect o)] := by
  have hform (fn : Nat) (mod : BitVec 12) : (o.raw 0x13 fn mod).form = (o.raw 0x13 fn mod).decWv := rfl
  simp +decide [Ops.Rows, hform, LaneRaw.decWv, Ops.opsIn_raw ho, p3_eq_fld, getLsbD_eq_fld, -BitVec.getLsbD_eq_getElem]

theorem rows_xl (m : ShflMode) (w : Bool) :
    o.Rows 0x14 [(0, at_ 0 (codeOf ShflMode.codes m) ||| bit_ 2 w, Instr.xlShfl o m w),
    (1, bit_ 0 w, Instr.xlRdl o w)] := by
  have hform (fn : Nat) (mod : BitVec 12) : (o.raw 0x14 fn mod).form = (o.raw 0x14 fn mod).decXl := rfl
  simp +decide [Ops.Rows, hform, LaneRaw.decXl, Ops.opsIn_raw ho, getLsbD_eq_fld, -BitVec.getLsbD_eq_getElem]

theorem rows_q (d : SwapDir) :
    o.Rows 0x15 [(0, at_ 0 (codeOf SwapDir.codes d + 1), Instr.qSwap o d), (1, 0, Instr.qBcast o)] := by
  have hform (fn : Nat) (mod : BitVec 12) : (o.raw 0x15 fn mod).form = (o.raw 0x15 fn mod).decQ := rfl
  have hlt : codeOf SwapDir.codes d + 1 < 2 ^ 2 := Nat.succ_lt_succ (codeOf_lt d.mem_codes)
  simp +decide [Ops.Rows, hform, LaneRaw.decQ, Ops.opsIn_raw ho, fld_at_same hlt, at_and_eq_zero 2 hlt]

theorem rows_wr (op : WrOp) (x : Bool) :
    o.Rows 0x16 [(0, at_ 0 (codeOf WrOp.codes op), Instr.wrRed o op),
    (1, at_ 0 (codeOf WrOp.codes op) ||| bit_ 4 x, Instr.wrScan o op x)] := by
  have hform (fn : Nat) (mod : BitVec 12) : (o.raw 0x16 fn mod).form = (o.raw 0x16 fn mod).decWr := rfl
  simp +decide [Ops.Rows, hform, LaneRaw.decWr, Ops.opsIn_raw ho, getLsbD_eq_fld, -BitVec.getLsbD_eq_getElem]

theorem rows_sr (r : SReg) :
    o.Rows 0x17 [(0, at_ 0 r.code, Instr.srRead o r)] := by
  have hform (fn : Nat) (mod : BitVec 12) : (o.raw 0x17 fn mod).form = (o.raw 0x17 fn mod).decSr := rfl
  simp +decide [Ops.Rows, hform, LaneRaw.decSr, Ops.opsIn_raw ho, fld_at_same r.code_lt, at_and_eq_zero 8 r.code_lt]

theorem rows_ld (m : GMod) :
    o.Rows 0x18 [(0, m.enc, Instr.ldU8 o m),
    (1, m.enc, Instr.ldS8 o m),
    (2, m.enc, Instr.ldU16 o m),
    (3, m.enc, Instr.ldS16 o m),
    (4, m.enc, Instr.ldB32 o m),
    (5, m.enc, Instr.ldB64 o m),
    (6, m.enc, Instr.ldB128 o m)] := by
  have hform (fn : Nat) (mod : BitVec 12) : (o.raw 0x18 fn mod).form = (o.raw 0x18 fn mod).decLd := rfl
  simp +decide [Ops.Rows, hform, LaneRaw.decLd, Ops.opsIn_raw ho]

theorem rows_st (m : GMod) :
    o.Rows 0x19 [(0, m.enc, Instr.stB8 o m),
    (1, m.enc, Instr.stB16 o m),
    (2, m.enc, Instr.stB32 o m),
    (3, m.enc, Instr.stB64 o m),
    (4, m.enc, Instr.stB128 o m)] := by
  have hform (fn : Nat) (mod : BitVec 12) : (o.raw 0x19 fn mod).form = (o.raw 0x19 fn mod).decSt := rfl
  simp +decide [Ops.Rows, hform, LaneRaw.decSt, Ops.opsIn_raw ho]

theorem rows_at (m : AtMod) :
    o.Rows 0x1A [(0, m.enc, Instr.atAdd o m),
    (1, m.enc, Instr.atMin o m),
    (2, m.enc, Instr.atMax o m),
    (3, m.enc, Instr.atAnd o m),
    (4, m.enc, Instr.atOr o m),
    (5, m.enc, Instr.atXor o m),
    (6, m.enc, Instr.atXchg o m),
    (7, m.enc, Instr.atCas o m),
    (8, m.enc, Instr.atFadd o m)] := by
  have hform (fn : Nat) (mod : BitVec 12) : (o.raw 0x1A fn mod).form = (o.raw 0x1A fn mod).decAt := rfl
  simp +decide [Ops.Rows, hform, LaneRaw.decAt, Ops.opsIn_raw ho]

theorem rows_rd (m : RdMod) :
    o.Rows 0x1B [(0, m.enc, Instr.rdAdd o m),
    (1, m.enc, Instr.rdMin o m),
    (2, m.enc, Instr.rdMax o m),
    (3, m.enc, Instr.rdAnd o m),
    (4, m.enc, Instr.rdOr o m),
    (5, m.enc, Instr.rdXor o m),
    (6, m.enc, Instr.rdFadd o m)] := by
  have hform (fn : Nat) (mod : BitVec 12) : (o.raw 0x1B fn mod).form = (o.raw 0x1B fn mod).decRd := rfl
  simp +decide [Ops.Rows, hform, LaneRaw.decRd, Ops.opsIn_raw ho]

theorem rows_fn (sc : Scope) (x fs : Bool) :
    o.Rows 0x1C [(0, at_ 0 (codeOf Scope.codes sc), Instr.fnFence o sc),
    (1, bit_ 0 x ||| bit_ 11 fs, Instr.fnInv o x fs),
    (2, bit_ 11 fs, Instr.fnWb o fs)] := by
  have hform (fn : Nat) (mod : BitVec 12) : (o.raw 0x1C fn mod).form = (o.raw 0x1C fn mod).decFn := rfl
  simp +decide [Ops.Rows, hform, LaneRaw.decFn, Ops.opsIn_raw ho, getLsbD_eq_fld, -BitVec.getLsbD_eq_getElem]

theorem rows_ls (l : LdW) (t : StW) (op : LsAtOp) (w fs : Bool) :
    o.Rows 0x1D [(0, at_ 0 (codeOf LdW.codes l) ||| bit_ 11 fs, Instr.lsLd o l fs),
    (1, at_ 0 (codeOf StW.codes t) ||| bit_ 11 fs, Instr.lsSt o t fs),
    (2, at_ 0 (codeOf LsAtOp.codes op) ||| bit_ 4 w ||| bit_ 11 fs, Instr.lsAt o op w fs)] := by
  have hform (fn : Nat) (mod : BitVec 12) : (o.raw 0x1D fn mod).form = (o.raw 0x1D fn mod).decLs := rfl
  simp +decide [Ops.Rows, hform, LaneRaw.decLs, Ops.opsIn_raw ho, getLsbD_eq_fld, -BitVec.getLsbD_eq_getElem]

theorem rows_h (vs : Vs) (op : AccOp) (ty : AccTy) (x fs : Bool) :
    o.Rows 0x1E [(0, at_ 0 (codeOf Vs.codes vs) ||| bit_ 11 fs, Instr.hIns o vs fs),
    (1, bit_ 11 fs, Instr.hPrb o fs),
    (2, bit_ 11 fs, Instr.hDel o fs),
    (3, at_ 0 (codeOf Vs.codes vs) ||| at_ 2 (codeOf AccOp.codes op) ||| at_ 4 (codeOf AccTy.codes ty) ||| bit_ 11
      fs, Instr.hAcc o vs op ty fs),
    (4, bit_ 6 x ||| bit_ 11 fs, Instr.hDrn o x fs),
    (5, 0, Instr.hSta o)] := by
  have hform (fn : Nat) (mod : BitVec 12) : (o.raw 0x1E fn mod).form = (o.raw 0x1E fn mod).decH := rfl
  simp +decide [Ops.Rows, hform, LaneRaw.decH, Ops.opsIn_raw ho, getLsbD_eq_fld, -BitVec.getLsbD_eq_getElem]

theorem rows_m (t : Fin 64) (f : Fmt) (m : SclMod) :
    o.Rows 0x1F [(0, at_ 0 t.val, Instr.mMma o t),
    (1, at_ 0 t.val, Instr.mSmma o t),
    (2, at_ 0 (codeOf Fmt.codes f), Instr.mSpc o f),
    (3, at_ 0 t.val, Instr.mZero o t),
    (4, at_ 0 t.val ||| m.enc, Instr.mScl o t m)] := by
  have hform (fn : Nat) (mod : BitVec 12) : (o.raw 0x1F fn mod).form = (o.raw 0x1F fn mod).decM := rfl
  simp +decide [Ops.Rows, hform, LaneRaw.decM, Ops.opsIn_raw ho, tileOf_eq_fld, SclMod.enc, getLsbD_eq_fld,
    -BitVec.getLsbD_eq_getElem]

theorem rows_acc (t : Fin 64) (f : AccFmt) (rm : RM) (x y : Bool) :
    o.Rows 0x20 [(0, at_ 0 t.val ||| at_ 6 (codeOf AccFmt.codes f) ||| bit_ 11 x, Instr.accLd o t f x),
    (1, at_ 0 t.val ||| at_ 6 (codeOf AccFmt.codes f) ||| at_ 8 (codeOf RM.codes rm) ||| bit_ 11 x, Instr.accSt o t
      f rm x),
    (2, at_ 0 t.val ||| bit_ 6 x, Instr.accRd o t x),
    (3, at_ 0 t.val ||| bit_ 6 x ||| bit_ 7 y, Instr.accWr o t x y)] := by
  have hform (fn : Nat) (mod : BitVec 12) : (o.raw 0x20 fn mod).form = (o.raw 0x20 fn mod).decAcc := rfl
  simp +decide [Ops.Rows, hform, LaneRaw.decAcc, Ops.opsIn_raw ho, tileOf_eq_fld, getLsbD_eq_fld,
    -BitVec.getLsbD_eq_getElem]

theorem rows_c :
    o.Rows 0x21 [(0, 0, Instr.cGet o),
    (1, 0, Instr.cWait o),
    (2, 0, Instr.cNtf o),
    (3, 0, Instr.cNta o),
    (4, 0, Instr.cHeld o)] := by
  have hform (fn : Nat) (mod : BitVec 12) : (o.raw 0x21 fn mod).form = (o.raw 0x21 fn mod).decC := rfl
  simp +decide [Ops.Rows, hform, LaneRaw.decC, Ops.opsIn_raw ho]

theorem rows_cp (m : CpMod) :
    o.Rows 0x22 [(0, m.enc, Instr.cpTile o m),
    (1, m.enc, Instr.cpStore o m),
    (2, m.enc, Instr.cpLin o m),
    (3, m.enc, Instr.cpGath o m),
    (4, 0, Instr.cpSeal o),
    (5, 0, Instr.cpWait o)] := by
  have hform (fn : Nat) (mod : BitVec 12) : (o.raw 0x22 fn mod).form = (o.raw 0x22 fn mod).decCp := rfl
  simp +decide [Ops.Rows, hform, LaneRaw.decCp, Ops.opsIn_raw ho]

theorem rows_rg (b : Bar) :
    o.Rows 0x23 [(0, 0, Instr.rgInit o), (1, b.enc, .rgArv o b), (2, b.enc, .rgWait o b)] := by
  have hform (fn : Nat) (mod : BitVec 12) : (o.raw 0x23 fn mod).form = (o.raw 0x23 fn mod).decRg := rfl
  cases b <;> simp [Ops.Rows, hform, LaneRaw.decRg, Ops.opsIn_raw ho, Bar.enc]

theorem form_fnPre (p : PrePol) (fs : Bool) : (o.raw 0x1C 3 (p.enc ||| bit_ 11 fs)).form = some (.fnPre o p fs) := by
  have hform (mod : BitVec 12) : (o.raw 0x1C 3 mod).form = (o.raw 0x1C 3 mod).decFn := rfl
  cases p <;> simp +decide [hform, LaneRaw.decFn, Ops.opsIn_raw ho, PrePol.enc, fld_at_same, fld_at_below 2,
    getLsbD_eq_fld,
    -BitVec.getLsbD_eq_getElem, decPrePol]

theorem rows_b (n : Fin 16) (k : Fin 4) :
    o.Rows 0x24 [(0, at_ 0 n.val, Instr.bBar o n), (1, at_ 0 k.val, Instr.bCbar o k)] := by
  have hform (fn : Nat) (mod : BitVec 12) : (o.raw 0x24 fn mod).form = (o.raw 0x24 fn mod).decB := rfl
  simp only [Ops.Rows, hform, LaneRaw.decB, toFin16_eq_fld, toFin4_eq_fld]
  simp +decide [Ops.opsIn_raw ho]

theorem rows_w (fs : Bool) (q : QSel) :
    o.Rows 0x25 [(0, bit_ 11 fs, Instr.wSpawn o fs),
    (1, bit_ 11 fs, Instr.wLaunch o fs),
    (2, bit_ 11 fs, Instr.wJoin o fs),
    (3, 0, Instr.wDead o),
    (4, at_ 0 (codeOf QSel.codes q), Instr.wQstat o q)] := by
  have hform (fn : Nat) (mod : BitVec 12) : (o.raw 0x25 fn mod).form = (o.raw 0x25 fn mod).decW := rfl
  simp +decide [Ops.Rows, hform, LaneRaw.decW, Ops.opsIn_raw ho, getLsbD_eq_fld, -BitVec.getLsbD_eq_getElem]

theorem rows_tr (r : SysReg) (x y : Bool) :
    o.Rows 0x26 [(0, 0, Instr.trTrap o),
    (1, bit_ 0 x, Instr.trRett o x),
    (2, at_ 0 r.code, Instr.trMfs o r),
    (3, at_ 0 r.code, Instr.trMts o r),
    (4, bit_ 0 x ||| bit_ 1 y, Instr.trTlbi o x y),
    (5, 0, Instr.trBkpt o),
    (6, 0, Instr.trHalt o)] := by
  have hform (fn : Nat) (mod : BitVec 12) : (o.raw 0x26 fn mod).form = (o.raw 0x26 fn mod).decTr := rfl
  simp +decide [Ops.Rows, hform, LaneRaw.decTr, Ops.opsIn_raw ho, fld_at_same r.code_lt,
    at_and_eq_zero 8 r.code_lt, getLsbD_eq_fld, -BitVec.getLsbD_eq_getElem]

end

/-! ## Branches and uniform words -/

theorem append_extract_24 (x : BitVec 24) : x.extractLsb' 16 8 ++ x.extractLsb' 8 8 ++ x.extractLsb' 0 8 = x := by
  rw [BitVec.extractLsb'_append_extractLsb'_eq_extractLsb' (by rfl),
    BitVec.extractLsb'_append_extractLsb'_eq_extractLsb' (by rfl)]
  exact BitVec.extractLsb'_eq_self

theorem append_extract_12 (x : BitVec 12) : x.extractLsb' 6 6 ++ x.extractLsb' 0 6 = x := by
  rw [BitVec.extractLsb'_append_extractLsb'_eq_extractLsb' (by rfl)]
  exact BitVec.extractLsb'_eq_self

theorem form_branch (off : BitVec 24) (p : Pred) :
    (branchRaw 0x10 off p).form = some (.brRel off p) ∧ (branchRaw 0x11 off p).form = some (.clCall off p) := by
  have hoff (fam : Nat) : (branchRaw fam off p).off = off := append_extract_24 off
  have hpred (fam : Nat) : (branchRaw fam off p).pred = p := pred_raw p
  have hbr : (branchRaw 0x10 off p).form = some (.brRel (branchRaw 0x10 off p).off (branchRaw 0x10 off p).pred) := rfl
  have hcl : (branchRaw 0x11 off p).form = some (.clCall (branchRaw 0x11 off p).off (branchRaw 0x11 off p).pred) := rfl
  rw [hbr, hcl, hoff, hoff, hpred, hpred]
  exact ⟨rfl, rfl⟩

section
variable {o : UOps} (ho : o.oneLit = true)
include ho

theorem form_u : ∀ row ∈ [(0x00, Instr.uAdd o), (0x01, .uSub o), (0x02, .uMul o), (0x08, .uLogAnd o), (0x09, .uLogOr o),
    (0x0A, .uLogXor o), (0x0B, .uLogAndn o), (0x10, .uShfShl o), (0x11, .uShfShr o), (0x12, .uShfSar o), (0x13,
      .uShfRot o),
    (0x18, .uCmpEq o), (0x19, .uCmpNe o), (0x1A, .uCmpLt o), (0x1B, .uCmpLe o), (0x1C, .uCmpGt o), (0x1D, .uCmpGe o),
    (0x1E, .uCmpLtu o), (0x1F, .uCmpGeu o), (0x20, .uMov o)], (o.raw 1 row.1).form = some row.2 := by
  have hform (fn : Nat) : (o.raw 1 fn).form = (o.raw 1 fn).decU := rfl
  have hufn (fn : Nat) : (o.raw 1 fn).ufn = BitVec.ofNat 7 fn := rfl
  simp [hform, hufn, UniRaw.decU, UOps.ops_raw ho]

theorem form_uSel (n : Fin 8) : (o.raw 1 (0x28 + n.val)).form = some (.uSel o n) := by
  have hform (fn : Nat) : (o.raw 1 fn).form = (o.raw 1 fn).decU := rfl
  have hufn (fn : Nat) : (o.raw 1 fn).ufn = BitVec.ofNat 7 fn := rfl
  fin_cases n <;> simp [hform, hufn, UniRaw.decU, UOps.ops_raw ho]

theorem form_uldC : (o.raw 3 0).form = some (.uldC o) := by
  have hform : (o.raw 3 0).form = (o.raw 3 0).ops.map .uldC := rfl
  rw [hform, UOps.ops_raw ho, Option.map_some]

theorem form_hcClaim : (o.raw 4 0).form = some (.hcClaim o) := by
  have hform : (o.raw 4 0).form = (o.raw 4 0).ops.map .hcClaim := rfl
  rw [hform, UOps.ops_raw ho, Option.map_some]

theorem form_ucSet : (o.raw 5 0).form = some (.ucSet o) := by
  have hform : (o.raw 5 0).form = (o.raw 5 0).ops.map .ucSet := rfl
  rw [hform, UOps.ops_raw ho, Option.map_some]

end

theorem off_ubRaw (d ufn : Nat) (off : UOff) : (ubRaw d off ufn).off = some off := by
  cases off with
  | short x => simp [ubRaw, UniRaw.off, UOff.l, UOff.field, append_extract_12]
  | long x => simp [ubRaw, UniRaw.off, UOff.l, UOff.field, UOff.lit]

theorem form_ubBra (cnd : Option (Fin 8)) (off : UOff) :
    (ubRaw (match cnd with | some n => 48 + n.val | none => 63) off 0).form = some (.ubBra cnd off) := by
  have hform (d : Nat) : (ubRaw d off 0).form = (ubRaw d off 0).decUb := rfl
  have hd (d : Nat) : (ubRaw d off 0).d.toNat = d % 64 := by simp [ubRaw]
  have hufn (d : Nat) : (ubRaw d off 0).ufn = 0 := rfl
  cases cnd with
  | none => simp [hform, UniRaw.decUb, off_ubRaw, hd, hufn]
  | some n => simp [hform, UniRaw.decUb, off_ubRaw, hd, hufn, show (48 + n.val) % 64 = 48 + n.val by omega]

theorem form_ubLoop (n : Fin 48) (off : UOff) : (ubRaw n.val off 1).form = some (.ubLoop n off) := by
  have hform (d : Nat) : (ubRaw d off 1).form = (ubRaw d off 1).decUb := rfl
  have hd (d : Nat) : (ubRaw d off 1).d.toNat = d % 64 := by simp [ubRaw]
  have hufn (d : Nat) : (ubRaw d off 1).ufn = 1 := rfl
  simp [hform, UniRaw.decUb, off_ubRaw, hd, hufn, show n.val % 64 = n.val by omega]

theorem form_gSet (n : Fin 8) (v : GVal) : (gRaw n v.enc 0).form = some (.gSet n v) := by
  have hform : (gRaw n v.enc 0).form = (gRaw n v.enc 0).decG := rfl
  rw [hform]
  cases v with
  | q m =>
    simp [UniRaw.decG, gRaw, GVal.enc, show n.val % 64 = n.val by omega, show (48 + m.val) % 64 = 48 + m.val by omega]
  | fls => simp [UniRaw.decG, gRaw, GVal.enc, show n.val % 64 = n.val by omega]
  | tru => simp [UniRaw.decG, gRaw, GVal.enc, show n.val % 64 = n.val by omega]

theorem form_gClr (n : Fin 8) : (gRaw n 63 1).form = some (.gClr n) := by
  have hform : (gRaw n 63 1).form = (gRaw n 63 1).decG := rfl
  rw [hform]
  simp [UniRaw.decG, gRaw, show n.val % 64 = n.val by omega]

/-- The fields of a uniform-set instruction are read as it, and hold a literal only where L says so. -/
theorem Instr.form_uniRaw {i : Instr} {r : UniRaw} (hw : WellFormed i) (h : i.uniRaw = some r) :
    r.form = some i ∧ (r.l = false → r.lit = 0) := by
  cases i
  case uAdd o | uSub o | uMul o | uLogAnd o | uLogOr o | uLogXor o | uLogAndn o | uShfShl o | uShfShr o | uShfSar o
    | uShfRot o
      | uCmpEq o | uCmpNe o | uCmpLt o | uCmpLe o | uCmpGt o | uCmpGe o | uCmpLtu o | uCmpGeu o | uMov o =>
    cases h
    have ho : o.oneLit = true := by simp_all [WellFormed, Instr.wf, UOps.arith, UOps.logic, UOps.cmp]
    exact ⟨form_u ho (_, _) (by simp), o.lit_raw 1 _⟩
  case uSel o n =>
    cases h
    have ho : o.oneLit = true := by simp_all [WellFormed, Instr.wf, UOps.arith]
    exact ⟨form_uSel ho n, o.lit_raw 1 _⟩
  case uldC o =>
    cases h
    have ho : o.oneLit = true := by simp_all [WellFormed, Instr.wf]
    exact ⟨form_uldC ho, o.lit_raw 3 _⟩
  case hcClaim o =>
    cases h
    have ho : o.oneLit = true := by simp_all [WellFormed, Instr.wf]
    exact ⟨form_hcClaim ho, o.lit_raw 4 _⟩
  case ucSet o =>
    cases h
    have ho : o.oneLit = true := by simp_all [WellFormed, Instr.wf]
    exact ⟨form_ucSet ho, o.lit_raw 5 _⟩
  case ubBra cnd off =>
    cases h
    refine ⟨form_ubBra cnd off, ?_⟩
    cases off with
    | short x => exact fun _ => rfl
    | long x => exact nofun
  case ubLoop n off =>
    cases h
    refine ⟨form_ubLoop n off, ?_⟩
    cases off with
    | short x => exact fun _ => rfl
    | long x => exact nofun
  case hcFree =>
    cases h
    exact ⟨rfl, fun _ => rfl⟩
  case gSet n v =>
    cases h
    exact ⟨form_gSet n v, fun _ => rfl⟩
  case gClr n =>
    cases h
    exact ⟨form_gClr n, fun _ => rfl⟩
  all_goals cases h

/-- The fields of a lane-set instruction are read as it, and hold a literal only where a source names one. -/
theorem Instr.form_laneRaw {i : Instr} {r : LaneRaw} (hw : WellFormed i) (h : i.laneRaw = some r) :
    r.form = some i ∧ r.litOk := by
  cases i
  case brRel off p =>
    cases h
    exact ⟨(form_branch off p).1, fun _ => rfl⟩
  case clCall off p =>
    cases h
    exact ⟨(form_branch off p).2, fun _ => rfl⟩
  case iAdd o m | iSub o m | iAddc o m | iSubb o m | iNeg o m | iAbs o m | iMin o m | iMax o m | iSad o m =>
    cases h
    have ho : o.oneLit = true := by simp_all [WellFormed, Instr.wf, Ops.ok]
    exact ⟨(rows_i ho m).form (by simp), o.litOk_raw _ rfl⟩
  case imMul o p u | imMad o p u =>
    cases h
    have ho : o.oneLit = true := by simp_all [WellFormed, Instr.wf, Ops.ok]
    exact ⟨(rows_im ho p u).form (by simp), o.litOk_raw _ rfl⟩
  case imMadw o u =>
    cases h
    have ho : o.oneLit = true := by simp_all [WellFormed, Instr.wf, Ops.ok]
    exact ⟨(rows_im ho .lo u).form (by simp), o.litOk_raw _ rfl⟩
  case logAnd o w | logOr o w | logXor o w | logAndn o w | logNot o w =>
    cases h
    have ho : o.oneLit = true := by simp_all [WellFormed, Instr.wf, Ops.ok]
    exact ⟨(rows_log ho w).form (by simp), o.litOk_raw _ rfl⟩
  case shShl o w | shRot o w =>
    cases h
    have ho : o.oneLit = true := by simp_all [WellFormed, Instr.wf, Ops.ok]
    exact ⟨(rows_sh ho w false).form (by simp), o.litOk_raw _ rfl⟩
  case shShr o w x =>
    cases h
    have ho : o.oneLit = true := by simp_all [WellFormed, Instr.wf, Ops.ok]
    exact ⟨(rows_sh ho w x).form (by simp), o.litOk_raw _ rfl⟩
  case shFun o x =>
    cases h
    have ho : o.oneLit = true := by simp_all [WellFormed, Instr.wf, Ops.ok]
    exact ⟨(rows_sh ho false x).form (by simp), o.litOk_raw _ rfl⟩
  case bfExt o x =>
    cases h
    have ho : o.oneLit = true := by simp_all [WellFormed, Instr.wf, Ops.ok]
    exact ⟨(rows_bf ho x).form (by simp), o.litOk_raw _ rfl⟩
  case bfIns o | bfPopc o | bfClz o | bfBrev o | bfFfs o =>
    cases h
    have ho : o.oneLit = true := by simp_all [WellFormed, Instr.wf, Ops.ok]
    exact ⟨(rows_bf ho false).form (by simp), o.litOk_raw _ rfl⟩
  case cmpI o c w k =>
    cases h
    have ho : o.oneLit = true := by simp_all [WellFormed, Instr.wf, Ops.ok]
    exact ⟨(rows_cmp ho c .eq w k).form (by simp), o.litOk_raw _ rfl⟩
  case cmpF o c z k | cmpD o c z k =>
    cases h
    have ho : o.oneLit = true := by simp_all [WellFormed, Instr.wf, Ops.ok]
    exact ⟨(rows_cmp ho .eq c z k).form (by simp), o.litOk_raw _ rfl⟩
  case prLog o a b c =>
    cases h
    have ho : o.oneLit = true := by simp_all [WellFormed, Instr.wf, Ops.ok]
    exact ⟨(rows_pr ho a b c).form (by simp), o.litOk_raw _ rfl⟩
  case mvMov o w =>
    cases h
    have ho : o.oneLit = true := by simp_all [WellFormed, Instr.wf, Ops.ok]
    exact ⟨(rows_mv ho 0 false w).form (by simp), o.litOk_raw _ rfl⟩
  case mvSel o n x w =>
    cases h
    have ho : o.oneLit = true := by simp_all [WellFormed, Instr.wf, Ops.ok]
    exact ⟨(rows_mv ho n x w).form (by simp), o.litOk_raw _ rfl⟩
  case mvPrm o =>
    cases h
    have ho : o.oneLit = true := by simp_all [WellFormed, Instr.wf, Ops.ok]
    exact ⟨(rows_mv ho 0 false false).form (by simp), o.litOk_raw _ rfl⟩
  case mvLea o n x =>
    cases h
    have ho : o.oneLit = true := by simp_all [WellFormed, Instr.wf, Ops.ok]
    exact ⟨(rows_mv ho n x false).form (by simp), o.litOk_raw _ rfl⟩
  case cvI2f o m s d =>
    cases h
    have ho : o.oneLit = true := by simp_all [WellFormed, Instr.wf, Ops.ok]
    exact ⟨(rows_cv ho m false s s d d).form (by simp), o.litOk_raw _ rfl⟩
  case cvF2i o m s d =>
    cases h
    have ho : o.oneLit = true := by simp_all [WellFormed, Instr.wf, Ops.ok]
    have hm : m.sat = false := by simp_all [WellFormed, Instr.wf]
    exact ⟨form_cvF2i ho hm s d, o.litOk_raw _ rfl⟩
  case cvF2f o m s d =>
    cases h
    have ho : o.oneLit = true := by simp_all [WellFormed, Instr.wf, Ops.ok]
    exact ⟨(rows_cv ho m false .s32 .s32 s d).form (by simp), o.litOk_raw _ rfl⟩
  case cvI2i o w s d =>
    cases h
    have ho : o.oneLit = true := by simp_all [WellFormed, Instr.wf, Ops.ok]
    exact ⟨(rows_cv ho ⟨.rn, false, false⟩ w s d .f32 .f32).form (by simp), o.litOk_raw _ rfl⟩
  case fAdd o m | fSub o m | fMul o m | fFma o m | fMin o m | fMax o m =>
    cases h
    have ho : o.oneLit = true := by simp_all [WellFormed, Instr.wf, Ops.ok]
    have hm : m.bf = false := by simp_all [WellFormed, Instr.wf, FMod.ok]
    exact ⟨(rows_f ho hm).form (by simp), o.litOk_raw _ rfl⟩
  case fCls o =>
    cases h
    have ho : o.oneLit = true := by simp_all [WellFormed, Instr.wf, Ops.ok]
    exact ⟨(rows_f (m := ⟨.rn, false, false, false, false, false, false⟩) ho rfl).form (by simp), o.litOk_raw _ rfl⟩
  case fhAdd2 o m | fhMul2 o m | fhFma2 o m | fhMin2 o m | fhMax2 o m =>
    cases h
    have ho : o.oneLit = true := by simp_all [WellFormed, Instr.wf, Ops.ok]
    exact ⟨(rows_fh ho m).form (by simp), o.litOk_raw _ rfl⟩
  case dAdd o m | dMul o m | dFma o m | dMin o m | dMax o m =>
    cases h
    have ho : o.oneLit = true := by simp_all [WellFormed, Instr.wf, Ops.ok]
    have hm : m.bf = false := by simp_all [WellFormed, Instr.wf, FMod.ok]
    exact ⟨(rows_d ho hm).form (by simp), o.litOk_raw _ rfl⟩
  case sfRcp o z | sfRsq o z | sfSqrt o z | sfExp2 o z | sfLog2 o z | sfSin o z | sfCos o z | sfTanh o z =>
    cases h
    have ho : o.oneLit = true := by simp_all [WellFormed, Instr.wf, Ops.ok]
    exact ⟨(rows_sf ho z).form (by simp), o.litOk_raw _ rfl⟩
  case dotI8x4 o m | dotI4x8 o m | dotE4m3x4 o m | dotE5m2x4 o m | dotE2m1x8 o m =>
    cases h
    have ho : o.oneLit = true := by simp_all [WellFormed, Instr.wf, Ops.ok]
    exact ⟨(rows_dot ho m).form (by simp), o.litOk_raw _ rfl⟩
  case pkCvt o m =>
    cases h
    have ho : o.oneLit = true := by simp_all [WellFormed, Instr.wf, Ops.ok]
    exact ⟨(rows_pk ho m m.fmt false).form (by simp), o.litOk_raw _ rfl⟩
  case pkUnp o f x =>
    cases h
    have ho : o.oneLit = true := by simp_all [WellFormed, Instr.wf, Ops.ok]
    exact ⟨(rows_pk ho ⟨.e4m3, .rn, false, false, 0⟩ f x).form (by simp), o.litOk_raw _ rfl⟩
  case pkScl o f =>
    cases h
    have ho : o.oneLit = true := by simp_all [WellFormed, Instr.wf, Ops.ok]
    exact ⟨(rows_pk ho ⟨.e4m3, .rn, false, false, 0⟩ f false).form (by simp), o.litOk_raw _ rfl⟩
  case pkPl6 o x =>
    cases h
    have ho : o.oneLit = true := by simp_all [WellFormed, Instr.wf, Ops.ok]
    exact ⟨(rows_pk ho ⟨.e4m3, .rn, false, false, 0⟩ .e4m3 x).form (by simp), o.litOk_raw _ rfl⟩
  case brInd o =>
    cases h
    have ho : o.oneLit = true := by simp_all [WellFormed, Instr.wf, Ops.ok]
    exact ⟨(rows_br ho).form (by simp), o.litOk_raw _ rfl⟩
  case clCalli o | clRet o =>
    cases h
    have ho : o.oneLit = true := by simp_all [WellFormed, Instr.wf, Ops.ok]
    exact ⟨(rows_cl ho).form (by simp), o.litOk_raw _ rfl⟩
  case xExit o | xYield o | xNap o =>
    cases h
    have ho : o.oneLit = true := by simp_all [WellFormed, Instr.wf, Ops.ok]
    exact ⟨(rows_x ho).form (by simp), o.litOk_raw _ rfl⟩
  case wvVote o n x m =>
    cases h
    have ho : o.oneLit = true := by simp_all [WellFormed, Instr.wf, Ops.ok]
    exact ⟨(rows_wv ho n x m).form (by simp), o.litOk_raw _ rfl⟩
  case wvBallot o n x =>
    cases h
    have ho : o.oneLit = true := by simp_all [WellFormed, Instr.wf, Ops.ok]
    exact ⟨(rows_wv ho n x .all).form (by simp), o.litOk_raw _ rfl⟩
  case wvMatch o x =>
    cases h
    have ho : o.oneLit = true := by simp_all [WellFormed, Instr.wf, Ops.ok]
    exact ⟨(rows_wv ho 0 x .all).form (by simp), o.litOk_raw _ rfl⟩
  case wvElect o =>
    cases h
    have ho : o.oneLit = true := by simp_all [WellFormed, Instr.wf, Ops.ok]
    exact ⟨(rows_wv ho 0 false .all).form (by simp), o.litOk_raw _ rfl⟩
  case xlShfl o m w =>
    cases h
    have ho : o.oneLit = true := by simp_all [WellFormed, Instr.wf, Ops.ok]
    exact ⟨(rows_xl ho m w).form (by simp), o.litOk_raw _ rfl⟩
  case xlRdl o w =>
    cases h
    have ho : o.oneLit = true := by simp_all [WellFormed, Instr.wf, Ops.ok]
    exact ⟨(rows_xl ho .idx w).form (by simp), o.litOk_raw _ rfl⟩
  case qSwap o d =>
    cases h
    have ho : o.oneLit = true := by simp_all [WellFormed, Instr.wf, Ops.ok]
    exact ⟨(rows_q ho d).form (by simp), o.litOk_raw _ rfl⟩
  case qBcast o =>
    cases h
    have ho : o.oneLit = true := by simp_all [WellFormed, Instr.wf, Ops.ok]
    exact ⟨(rows_q ho .h).form (by simp), o.litOk_raw _ rfl⟩
  case wrRed o op =>
    cases h
    have ho : o.oneLit = true := by simp_all [WellFormed, Instr.wf, Ops.ok]
    exact ⟨(rows_wr ho op false).form (by simp), o.litOk_raw _ rfl⟩
  case wrScan o op x =>
    cases h
    have ho : o.oneLit = true := by simp_all [WellFormed, Instr.wf, Ops.ok]
    exact ⟨(rows_wr ho op x).form (by simp), o.litOk_raw _ rfl⟩
  case srRead o r =>
    cases h
    have ho : o.oneLit = true := by simp_all [WellFormed, Instr.wf, Ops.ok]
    exact ⟨(rows_sr ho r).form (by simp), o.litOk_raw _ rfl⟩
  case ldU8 o m | ldS8 o m | ldU16 o m | ldS16 o m | ldB32 o m | ldB64 o m | ldB128 o m =>
    cases h
    have ho : o.oneLit = true := by simp_all [WellFormed, Instr.wf, Ops.ok]
    exact ⟨(rows_ld ho m).form (by simp), o.litOk_raw _ rfl⟩
  case stB8 o m | stB16 o m | stB32 o m | stB64 o m | stB128 o m =>
    cases h
    have ho : o.oneLit = true := by simp_all [WellFormed, Instr.wf, Ops.ok]
    exact ⟨(rows_st ho m).form (by simp), o.litOk_raw _ rfl⟩
  case atAdd o m | atMin o m | atMax o m | atAnd o m | atOr o m | atXor o m | atXchg o m | atCas o m | atFadd o m =>
    cases h
    have ho : o.oneLit = true := by simp_all [WellFormed, Instr.wf, Ops.ok]
    exact ⟨(rows_at ho m).form (by simp), o.litOk_raw _ rfl⟩
  case rdAdd o m | rdMin o m | rdMax o m | rdAnd o m | rdOr o m | rdXor o m | rdFadd o m =>
    cases h
    have ho : o.oneLit = true := by simp_all [WellFormed, Instr.wf, Ops.ok]
    exact ⟨(rows_rd ho m).form (by simp), o.litOk_raw _ rfl⟩
  case fnFence o sc =>
    cases h
    have ho : o.oneLit = true := by simp_all [WellFormed, Instr.wf, Ops.ok]
    exact ⟨(rows_fn ho sc false false).form (by simp), o.litOk_raw _ rfl⟩
  case fnInv o x fs =>
    cases h
    have ho : o.oneLit = true := by simp_all [WellFormed, Instr.wf, Ops.ok]
    exact ⟨(rows_fn ho .core x fs).form (by simp), o.litOk_raw _ rfl⟩
  case fnWb o fs =>
    cases h
    have ho : o.oneLit = true := by simp_all [WellFormed, Instr.wf, Ops.ok]
    exact ⟨(rows_fn ho .core false fs).form (by simp), o.litOk_raw _ rfl⟩
  case fnPre o p fs =>
    cases h
    have ho : o.oneLit = true := by simp_all [WellFormed, Instr.wf, Ops.ok]
    exact ⟨form_fnPre ho p fs, o.litOk_raw _ rfl⟩
  case lsLd o w fs =>
    cases h
    have ho : o.oneLit = true := by simp_all [WellFormed, Instr.wf, Ops.ok]
    exact ⟨(rows_ls ho w .b8 .add false fs).form (by simp), o.litOk_raw _ rfl⟩
  case lsSt o w fs =>
    cases h
    have ho : o.oneLit = true := by simp_all [WellFormed, Instr.wf, Ops.ok]
    exact ⟨(rows_ls ho .u8 w .add false fs).form (by simp), o.litOk_raw _ rfl⟩
  case lsAt o op w fs =>
    cases h
    have ho : o.oneLit = true := by simp_all [WellFormed, Instr.wf, Ops.ok]
    exact ⟨(rows_ls ho .u8 .b8 op w fs).form (by simp), o.litOk_raw _ rfl⟩
  case hIns o vs fs =>
    cases h
    have ho : o.oneLit = true := by simp_all [WellFormed, Instr.wf, Ops.ok]
    exact ⟨(rows_h ho vs .add .i32 false fs).form (by simp), o.litOk_raw _ rfl⟩
  case hPrb o fs | hDel o fs =>
    cases h
    have ho : o.oneLit = true := by simp_all [WellFormed, Instr.wf, Ops.ok]
    exact ⟨(rows_h ho .v64 .add .i32 false fs).form (by simp), o.litOk_raw _ rfl⟩
  case hAcc o vs op ty fs =>
    cases h
    have ho : o.oneLit = true := by simp_all [WellFormed, Instr.wf, Ops.ok]
    exact ⟨(rows_h ho vs op ty false fs).form (by simp), o.litOk_raw _ rfl⟩
  case hDrn o x fs =>
    cases h
    have ho : o.oneLit = true := by simp_all [WellFormed, Instr.wf, Ops.ok]
    exact ⟨(rows_h ho .v64 .add .i32 x fs).form (by simp), o.litOk_raw _ rfl⟩
  case hSta o =>
    cases h
    have ho : o.oneLit = true := by simp_all [WellFormed, Instr.wf, Ops.ok]
    exact ⟨(rows_h ho .v64 .add .i32 false false).form (by simp), o.litOk_raw _ rfl⟩
  case mMma o t | mSmma o t | mZero o t =>
    cases h
    have ho : o.oneLit = true := by simp_all [WellFormed, Instr.wf, Ops.ok]
    exact ⟨(rows_m ho t .e4m3 ⟨false, .rn, false, false⟩).form (by simp), o.litOk_raw _ rfl⟩
  case mSpc o f =>
    cases h
    have ho : o.oneLit = true := by simp_all [WellFormed, Instr.wf, Ops.ok]
    exact ⟨(rows_m ho 0 f ⟨false, .rn, false, false⟩).form (by simp), o.litOk_raw _ rfl⟩
  case mScl o t m =>
    cases h
    have ho : o.oneLit = true := by simp_all [WellFormed, Instr.wf, Ops.ok]
    exact ⟨(rows_m ho t .e4m3 m).form (by simp), o.litOk_raw _ rfl⟩
  case accLd o t f x =>
    cases h
    have ho : o.oneLit = true := by simp_all [WellFormed, Instr.wf, Ops.ok]
    exact ⟨(rows_acc ho t f .rn x false).form (by simp), o.litOk_raw _ rfl⟩
  case accSt o t f rm x =>
    cases h
    have ho : o.oneLit = true := by simp_all [WellFormed, Instr.wf, Ops.ok]
    exact ⟨(rows_acc ho t f rm x false).form (by simp), o.litOk_raw _ rfl⟩
  case accRd o t x =>
    cases h
    have ho : o.oneLit = true := by simp_all [WellFormed, Instr.wf, Ops.ok]
    exact ⟨(rows_acc ho t .f32 .rn x false).form (by simp), o.litOk_raw _ rfl⟩
  case accWr o t x y =>
    cases h
    have ho : o.oneLit = true := by simp_all [WellFormed, Instr.wf, Ops.ok]
    exact ⟨(rows_acc ho t .f32 .rn x y).form (by simp), o.litOk_raw _ rfl⟩
  case cGet o | cWait o | cNtf o | cNta o | cHeld o =>
    cases h
    have ho : o.oneLit = true := by simp_all [WellFormed, Instr.wf, Ops.ok]
    exact ⟨(rows_c ho).form (by simp), o.litOk_raw _ rfl⟩
  case cpTile o m | cpStore o m | cpLin o m | cpGath o m =>
    cases h
    have ho : o.oneLit = true := by simp_all [WellFormed, Instr.wf, Ops.ok]
    exact ⟨(rows_cp ho m).form (by simp), o.litOk_raw _ rfl⟩
  case cpSeal o | cpWait o =>
    cases h
    have ho : o.oneLit = true := by simp_all [WellFormed, Instr.wf, Ops.ok]
    exact ⟨(rows_cp ho ⟨none, none, false, false, false⟩).form (by simp), o.litOk_raw _ rfl⟩
  case rgInit o =>
    cases h
    have ho : o.oneLit = true := by simp_all [WellFormed, Instr.wf, Ops.ok]
    exact ⟨(rows_rg ho .full).form (by simp), o.litOk_raw _ rfl⟩
  case rgArv o b | rgWait o b =>
    cases h
    have ho : o.oneLit = true := by simp_all [WellFormed, Instr.wf, Ops.ok]
    exact ⟨(rows_rg ho b).form (by simp), o.litOk_raw _ rfl⟩
  case bBar o n =>
    cases h
    have ho : o.oneLit = true := by simp_all [WellFormed, Instr.wf, Ops.ok]
    exact ⟨(rows_b ho n 0).form (by simp), o.litOk_raw _ rfl⟩
  case bCbar o k =>
    cases h
    have ho : o.oneLit = true := by simp_all [WellFormed, Instr.wf, Ops.ok]
    exact ⟨(rows_b ho 0 k).form (by simp), o.litOk_raw _ rfl⟩
  case wSpawn o fs | wLaunch o fs | wJoin o fs =>
    cases h
    have ho : o.oneLit = true := by simp_all [WellFormed, Instr.wf, Ops.ok]
    exact ⟨(rows_w ho fs .pend).form (by simp), o.litOk_raw _ rfl⟩
  case wDead o =>
    cases h
    have ho : o.oneLit = true := by simp_all [WellFormed, Instr.wf, Ops.ok]
    exact ⟨(rows_w ho false .pend).form (by simp), o.litOk_raw _ rfl⟩
  case wQstat o q =>
    cases h
    have ho : o.oneLit = true := by simp_all [WellFormed, Instr.wf, Ops.ok]
    exact ⟨(rows_w ho false q).form (by simp), o.litOk_raw _ rfl⟩
  case trTrap o | trBkpt o | trHalt o =>
    cases h
    have ho : o.oneLit = true := by simp_all [WellFormed, Instr.wf, Ops.ok]
    exact ⟨(rows_tr ho .tvb false false).form (by simp), o.litOk_raw _ rfl⟩
  case trRett o x =>
    cases h
    have ho : o.oneLit = true := by simp_all [WellFormed, Instr.wf, Ops.ok]
    exact ⟨(rows_tr ho .tvb x false).form (by simp), o.litOk_raw _ rfl⟩
  case trMfs o r | trMts o r =>
    cases h
    have ho : o.oneLit = true := by simp_all [WellFormed, Instr.wf, Ops.ok]
    exact ⟨(rows_tr ho r false false).form (by simp), o.litOk_raw _ rfl⟩
  case trTlbi o x y =>
    cases h
    have ho : o.oneLit = true := by simp_all [WellFormed, Instr.wf, Ops.ok]
    exact ⟨(rows_tr ho .tvb x y).form (by simp), o.litOk_raw _ rfl⟩
  all_goals cases h

/-! ## Decoding -/

/-- No header and no empty word begins a lane-set instruction. -/
theorem LaneRaw.word0_of_form {r : LaneRaw} {i : Instr} (h : r.form = some i) : isHeader r.word0 = false ∧ r.word0
    ≠ 0 := by
  refine ⟨by rw [isHeader, r.word0_set, Bool.false_and], fun h0 => ?_⟩
  have hfam : r.fam = 0 := by
    rw [← r.word0_fields.1, h0]
    rfl
  rw [form, hfam] at h
  cases h

theorem UniRaw.word0_of_form {r : UniRaw} {i : Instr} (h : r.form = some i) : isHeader r.word0 = false ∧ r.word0 ≠
    0 := by
  obtain ⟨h31, -⟩ := r.word0_bits
  obtain ⟨hufam, -⟩ := r.word0_fields
  refine ⟨?_, fun h0 => ?_⟩
  · rw [isHeader, h31, hufam, Bool.true_and, beq_eq_false_iff_ne]
    intro hf
    rw [form, hf] at h
    cases h
  · rw [h0] at h31
    cases h31

/-- Words that are all of a clause's decode to what their fields are read as. -/
theorem decode_of_words {i : Instr} {w : Word} {ws : List Word} (hn : wordCount w (ws.headD 0) = (w :: ws).length)
    (hh : isHeader w = false) (h0 : w ≠ 0) (hd : decodeWords w (ws.headD 0) (ws.tail.headD 0) = some i) :
    decode (w :: ws) = .ok i (w :: ws).length := by
  simp only [decode, hh, Bool.false_eq_true, if_false, if_neg h0, hn, lt_irrefl, bne_self_eq_false, Bool.and_false, hd]

theorem decode_laneRaw {i : Instr} {r : LaneRaw} (hw : WellFormed i) (h : i.laneRaw = some r) :
    decode r.words = .ok i r.words.length := by
  obtain ⟨hform, hlit⟩ := Instr.form_laneRaw hw h
  obtain ⟨hh, h0⟩ := LaneRaw.word0_of_form hform
  obtain ⟨ws, hws⟩ : ∃ ws, r.words = r.word0 :: ws := ⟨_, r.words_eq⟩
  have hn := r.wordCount_words _ _ hws
  rw [hws] at hn ⊢
  refine decode_of_words hn hh h0 ?_
  rw [decodeWords, r.ofWords_words hlit _ _ hws, if_neg (by rw [r.word0_set]; decide), hform, Option.filter_some,
    if_pos hw]

theorem decode_uniRaw {i : Instr} {r : UniRaw} (hw : WellFormed i) (h : i.uniRaw = some r) :
    decode r.words = .ok i r.words.length := by
  obtain ⟨hform, hlit⟩ := Instr.form_uniRaw hw h
  obtain ⟨hh, h0⟩ := UniRaw.word0_of_form hform
  obtain ⟨ws, hws⟩ : ∃ ws, r.words = r.word0 :: ws := ⟨_, r.words_eq⟩
  have hn := r.wordCount_words _ _ hws
  rw [hws] at hn ⊢
  refine decode_of_words hn hh h0 ?_
  rw [decodeWords, if_pos r.word0_bits.1, r.ofWords_words hlit _ _ hws, hform, Option.filter_some, if_pos hw]

theorem encode_laneRaw {i : Instr} {r : LaneRaw} (h : i.laneRaw = some r) : encode i = r.words := by
  unfold encode
  split
  · cases h
  · rw [h]

theorem encode_uniRaw {i : Instr} {r : UniRaw} (hl : i.laneRaw = none) (h : i.uniRaw = some r) : encode i = r.words
    := by
  unfold encode
  split
  · cases h
  · rw [hl, h]

/-! ## Headers -/

theorem decFlag_enc (x : Option (Fin 12)) : decFlag (encFlag x) = some x := by
  cases x with
  | none => rfl
  | some n => simp [decFlag, encFlag, show n.val % 16 = n.val by omega]

theorem ClauseHdr.isHeader_word (h : ClauseHdr) : isHeader h.word = true := by
  simp (disch := omega) only [isHeader, word, getLsbD_append_high, BitVec.extractLsb'_append_eq_of_le, Nat.reduceSub]
  rfl

theorem ClauseHdr.word_fields (h : ClauseHdr) :
    h.word.extractLsb' 14 12 = h.wait ∧ h.word.extractLsb' 10 4 = encFlag h.seta ∧ h.word.extractLsb' 6 4 = encFlag
      h.setb ∧
      h.word.extractLsb' 1 5 = BitVec.ofNat 5 h.len.val ∧ h.word.getLsbD 0 = h.yld := by
  simp (disch := omega) only [word, BitVec.extractLsb'_append_eq_of_le, BitVec.extractLsb'_append_eq_of_add_le,
    BitVec.extractLsb'_eq_self, Nat.reduceSub, getLsbD_append_low, getLsbD_ofBool_zero, and_self]

theorem decodeHeader_word {h : ClauseHdr} (hw : (Instr.clauseHeader h).wf = true) : decodeHeader h.word = some h := by
  obtain ⟨hwait, ha, hb, hlen, hyld⟩ := h.word_fields
  have hok : (h.setb == none || (h.seta != none && h.seta != h.setb)) = true := hw
  have hn : (BitVec.ofNat 5 h.len.val).toFin = h.len := Fin.ext (by simp)
  rw [decodeHeader, if_pos h.isHeader_word, ha, hb, hwait, hlen, hyld, decFlag_enc, decFlag_enc, hn]
  simp only [Option.bind_eq_bind, Option.bind_some, hok, if_true]
  rfl

end Sys2Proof
end

section
/-! PROOFS. O3: decoding undoes encoding (02_encoding R17 to R38). -/

namespace Sys2Proof.Machine

/-- Settles O3: an instruction's words give its fields back, which are read as that instruction; so do a header's. -/
theorem decodeEncode : Obligations.DecodeEncode := by
  refine ⟨fun i hw hi => ?_, fun h hw => ⟨h.isHeader_word, decodeHeader_word hw⟩⟩
  cases hl : i.laneRaw with
  | some r =>
    rw [encode_laneRaw hl]
    exact ⟨decode_laneRaw hw hl, r.words_length_le⟩
  | none =>
    cases hu : i.uniRaw with
    | some r =>
      rw [encode_uniRaw hl hu]
      exact ⟨decode_uniRaw hw hu, r.words_length_le⟩
    | none => simp [hl, hu] at hi

end Sys2Proof.Machine
end

section
/-! PROOFS. O2: the words of the encoding tables, and O30: a flag that clears may complete its block. -/

namespace Sys2Proof.Machine

/-- Settles O2: three words, decoded. -/
theorem decodeWords : Obligations.DecodeWords := by
  unfold Obligations.DecodeWords
  refine ⟨?_, ?_, ?_⟩
  · decide
  · decide
  · decide

/-! ## The last work of a block that holds a Churn claim -/

/-- Every lane of block 1's warp has ended, flag 0 has one attachment left, to work that is done, and the block holds a
claim of its local store: when the flag clears, the block is complete, and R104 with R166 takes the claim away. -/
def lastWork : State :=
  { warps := [(1, { block := 1, lanes := [(0, { life := .exited })], flags := [(0, 1)] })]
    blocks := [(1, { warps := [1], churn := some { off := 0, k := 0, hdr := 0 } })]
    works := [(1, { warp := 1, flag := some 0, left := 0 })] }

theorem lastWork_threadsOk : lastWork.threadsOk := by
  unfold State.threadsOk Warp.tidy
  decide

/-- The state in which the flag has cleared: the attachment is gone, and so is the claim. -/
theorem flagClear_lastWork :
    exec (.flagClear 1) lastWork = .next
      { lastWork with
        warps := [(1, { block := 1, lanes := [(0, { life := .exited })] })]
        blocks := [(1, { warps := [1] })]
        works := [] } := rfl

/-- Refutes O30: FLAG_CLEAR of the last work of `lastWork` changes a block, and not warps and works alone. -/
theorem not_fencesComplete : ¬ Obligations.FencesComplete := by
  rintro ⟨-, hflag⟩
  obtain ⟨t, ht, -, hrest⟩ :=
    hflag 1 0 lastWork { warp := 1, flag := some 0, left := 0 } _ rfl rfl rfl rfl lastWork_threadsOk (by decide)
  rw [flagClear_lastWork] at ht
  cases ht
  exact absurd (congrArg State.blocks hrest) (by decide)

end Sys2Proof.Machine
end

section
/-! PROOFS. O28: the report of a poisoned line folds a partial that lies at the error ring, and its warps' GWCT rises. -/

namespace Sys2Proof.Machine

/-- A load of 4 bytes at the address in a lane's v0 and v1. -/
def loadAtV0 : Ops := ⟨.v 2, .v 0, .lit 0, .none, ⟨7, false⟩⟩

/-- Two lanes stand at a load. The address of lane 0 has high bits, and that of lane 1 leads to a poisoned line; the error ring
is set up, its first line holds a partial of warp 1, and sr.time is 5. The trap of lane 0 comes with a record for the poisoned
line (R205), whose store folds the partial (R224). -/
def poisonBehindTrap : State :=
  { time := 5
    warps := [(1, { block := 1, regs := 192, lanes :=
      [(0, { life := .live, entry := .group 1, v := [(1, 0xF0000000)] }),
        (1, { life := .live, entry := .group 1, v := [(0, 0x20000)] })] })]
    blocks := [(1, { ctx := 1, warps := [1] })]
    groups := [(1, { block := 1, lanes := [(1, 0), (1, 1)] })]
    focus := .group 1
    tlb := fetchTlb 0
    erbase := 0x40000
    lines := [(1024, { poison := true }), (2048, { pkg := .u [0] })]
    caches := [(ckey 0 2048, { st := .u, partial_ := some ⟨.add, false, false, [], [(1, 0)]⟩ })] }

/-- Lane 0's address has high bits, and lane 1's leads to the poisoned line: neither needs a walk. -/
theorem poisonBehindTrap_found (j : Nat) (hj : j ∈ [0, 1]) :
    poisonBehindTrap.resolve [] 1 4 ⟨1, j, wAddr poisonBehindTrap loadAtV0 (1, j), { rd := true }⟩ =
      if j = 0 then .fault .xlate else .pa 0x20000 := by
  revert j
  decide

theorem poisonBehindTrap_ready :
    poisonBehindTrap.Ready 1 { block := 1, lanes := [(1, 0), (1, 1)] } loadAtV0 ⟨1, 2, 1, 1, false, []⟩ where
  current := rfl
  fits := by decide
  guard := by decide
  sound := by decide

theorem poisonBehindTrap_team :
    poisonBehindTrap.Team 1 { block := 1, lanes := [(1, 0), (1, 1)] } 1 [0, 1] loadAtV0.pr where
  lanes := rfl
  someLane := by decide
  nodup := by decide
  block := rfl
  run := by decide
  forms := by
    unfold State.threadsOk Warp.tidy
    decide

/-- The GWCT of a warp after an instruction that has gone on. -/
def gwctAfter (w : Nat) : Out → Nat
  | .next t => (t.warp w).gwct
  | .fault _ | .refused _ => 0

theorem gwctAfter_poisonBehindTrap : gwctAfter 1 (exec (.ldB32 loadAtV0 ⟨.thru, false⟩) poisonBehindTrap) = 5 := by decide

/-- Refutes O28: in `poisonBehindTrap` the warp that traps does not keep its GWCT. -/
theorem not_accessesComplete : ¬ Obligations.AccessesComplete := by
  rintro ⟨-, htrap⟩
  obtain ⟨t, ht, -, -, -, -, -, -, hwarp, -⟩ :=
    htrap (.ldB32 loadAtV0 ⟨.thru, false⟩) (loadAs .b32 loadAtV0 ⟨.thru, false⟩) poisonBehindTrap 1
      { block := 1, lanes := [(1, 0), (1, 1)] } 1 0 0x0C [0, 1] [] [1] rfl poisonBehindTrap_ready poisonBehindTrap_team
      (by decide) rfl rfl
      (fun j hj _ _ _ h => by
        have hw := (poisonBehindTrap_found j hj).symm.trans h
        split at hw <;> cases hw)
      rfl (by simp) (by decide)
  have hgwct : gwctAfter 1 (exec (.ldB32 loadAtV0 ⟨.thru, false⟩) poisonBehindTrap) = 0 := by
    rw [ht]
    exact congrArg Warp.gwct hwarp
  rw [gwctAfter_poisonBehindTrap] at hgwct
  cases hgwct

end Sys2Proof.Machine
end

section
/-! SUPPORT. Taking a trap: the lanes of one warp leave their group and enter the handler, and nothing else changes
(14_translation_traps R331; 05_threads_control R96). -/

namespace Sys2Proof.Machine

theorem AMap.del_set_of_isSome {α : Type} {m : AMap α} {i : Nat} (h : (m.get? i).isSome = true) (x : α) :
    (m.set i x).del i = m.del i := by
  induction m with
  | nil => cases h
  | cons a m ih =>
    obtain ⟨k, v⟩ := a
    by_cases hlt : i < k
    · simp [AMap.get?, hlt] at h
    · by_cases heq : i = k
      · simp [AMap.set, AMap.del, heq]
      · simp only [AMap.get?, if_neg hlt, if_neg heq] at h
        simp [AMap.set, AMap.del, hlt, heq, ih h]

/-- An entry that goes may have been changed before. -/
theorem AMap.del_modify {α : Type} (m : AMap α) (i : Nat) (f : α → α) : (m.modify i f).del i = m.del i := by
  unfold AMap.modify
  split
  · next x hx => exact AMap.del_set_of_isSome (by simp [hx]) _
  · rfl

theorem AMap.sorted_modify {α : Type} {m : AMap α} (i : Nat) (f : α → α) (h : m.sorted = true) :
    (m.modify i f).sorted = true := by
  unfold AMap.modify
  split
  · exact AMap.sorted_set _ _ h
  · exact h

theorem State.threadsOk_atWord {s : State} (h : s.threadsOk) (g : Nat) : (s.atWord g).threadsOk := by
  obtain ⟨hwarps, hgroups, htidy⟩ := h
  exact ⟨hwarps, AMap.sorted_modify _ _ hgroups, htidy⟩

/-! ## The lanes of a group of one warp -/

section
variable {s : State} {g : Nat} {gr : Group} {w : Nat} {ls : List Nat} {p : Pred}

theorem State.Team.atWord (h : s.Team g gr w ls p) : (s.atWord g).Team g gr w ls p where
  lanes := h.lanes
  someLane := h.someLane
  nodup := h.nodup
  block := h.block
  run := h.run
  forms := State.threadsOk_atWord h.forms g

theorem State.Team.warpIds (h : s.Team g gr w ls p) : gr.warpIds = [w] := h.warps_dedup

theorem State.Team.lanesOf (h : s.Team g gr w ls p) : gr.lanesOf w = ls := by
  have hall : ∀ x ∈ gr.lanes, (x.1 == w) = true := fun x hx => by simp [(h.mem_lanes hx).1]
  rw [Group.lanesOf, List.filter_eq_self.2 hall, h.lanes]
  simp [Function.comp_def]

theorem State.Team.isLive_of_mem (h : s.Team g gr w ls p) {l : Nat} (hl : l ∈ ls) : s.isLive (w, l) = true := by
  obtain ⟨hlive, -⟩ := h.run l hl
  simp [State.isLive, hlive]

end

/-! ## Leaving a group -/

/-- A lane that is not the group's last one leaves it. -/
theorem State.leaveGroup_of_others {s : State} {w l g : Nat} {gr : Group} (hentry : (s.lane w l).entry = .group g)
    (hg : s.groups.get? g = some gr) (hrest : gr.lanes.filter (· != (w, l)) ≠ []) :
    s.leaveGroup w l = s.modGroup g fun x => { x with lanes := gr.lanes.filter (· != (w, l)) } := by
  simp [State.leaveGroup, hentry, hg, hrest]

/-- With its last lane the group goes. -/
theorem State.leaveGroup_last {s : State} {w l g : Nat} {gr : Group} (hentry : (s.lane w l).entry = .group g)
    (hg : s.groups.get? g = some gr) (hrest : gr.lanes.filter (· != (w, l)) = []) :
    s.leaveGroup w l = (s.delGroup g).unfocus g := by
  simp [State.leaveGroup, hentry, hg, hrest]

theorem State.delGroup_modGroup (s : State) (g : Nat) (f : Group → Group) : (s.modGroup g f).delGroup g = s.delGroup g := by
  simp [State.delGroup, State.modGroup, AMap.del_modify]

/-- All lanes leave a group of one warp. -/
theorem State.leaveGroup_all {s : State} {w g : Nat} {gr : Group} {ls : List Nat} (hsome : ls ≠ []) (hn : ls.Nodup)
    (hentry : ∀ l ∈ ls, (s.lane w l).entry = .group g) (hg : s.groups.get? g = some gr)
    (hlanes : gr.lanes = ls.map fun l => (w, l)) :
    ls.foldl (fun s l => s.leaveGroup w l) s = (s.delGroup g).unfocus g := by
  induction ls generalizing s gr with
  | nil => exact absurd rfl hsome
  | cons l ls ih =>
    obtain ⟨hl, hn⟩ := List.nodup_cons.1 hn
    have hrest : gr.lanes.filter (· != (w, l)) = ls.map fun l => (w, l) := by
      rw [hlanes, List.map_cons, List.filter_cons_of_neg (by simp)]
      refine List.filter_eq_self.2 fun x hx => ?_
      obtain ⟨k, hk, rfl⟩ := List.mem_map.1 hx
      simp [show k ≠ l from fun h => hl (h ▸ hk)]
    rw [List.foldl_cons]
    by_cases hnil : ls = []
    · subst hnil
      exact State.leaveGroup_last (hentry l (by simp)) hg hrest
    · have hmod : ((s.modGroup g fun x => { x with lanes := gr.lanes.filter (· != (w, l)) }).groups.get? g) =
          some { gr with lanes := gr.lanes.filter (· != (w, l)) } := by
        rw [State.modGroup_groups, AMap.get?_modify, if_pos rfl, hg]
        rfl
      rw [State.leaveGroup_of_others (hentry l (by simp)) hg (by simp [hrest, hnil]),
        ih (s := s.modGroup g _) hnil hn (fun k hk => hentry k (List.mem_cons_of_mem _ hk)) hmod hrest, State.delGroup_modGroup]

/-! ## Entering the handler -/

/-- The same change of several lanes of a warp. -/
def Warp.modLanes (W : Warp) (ls : List Nat) (f : Lane → Lane) : Warp := ls.foldl (fun W l => W.modLane l f) W

theorem Warp.modLanes_keeps (W : Warp) (ls : List Nat) (f : Lane → Lane) :
    W.modLanes ls f = { W with lanes := (W.modLanes ls f).lanes } :=
  List.foldlRecOn (motive := fun V : Warp => V = { W with lanes := V.lanes }) ls _ rfl
    fun V hV l _ => by rw [Warp.modLane, Warp.setLane, hV]

/-- Each lane is changed as often as the list names it. -/
theorem Warp.lane_modLanes {W : Warp} (h : AMap.sorted W.lanes = true) (ls : List Nat) (f : Lane → Lane) (k : Nat) :
    (W.modLanes ls f).lane k = f^[ls.count k] (W.lane k) := by
  induction ls generalizing W with
  | nil => rfl
  | cons l ls ih =>
    have hstep : W.modLanes (l :: ls) f = (W.modLane l f).modLanes ls f := rfl
    rw [hstep, ih (AMap.sorted_putD _ _ _ h)]
    by_cases hk : k = l
    · subst hk
      rw [List.count_cons_self, Function.iterate_succ_apply]
      exact congrArg _ (AMap.getD_putD_same _ _ _ _ h)
    · rw [List.count_cons_of_ne (Ne.symm hk)]
      exact congrArg _ (AMap.getD_putD_other _ _ _ _ _ h hk)

/-- Where the lanes of a trap enter the handler, R331. -/
def State.handlerAt (s : State) (w code : Nat) : DWord :=
  ((s.ctx (s.block (s.warp w).block).ctx).tvb &&& 0x0FFFFFFFFFFFF000) + BitVec.ofNat 64 (128 * code)

/-- A lane that enters a handler at an address. -/
def Lane.intoHandler (L : Lane) (a : DWord) (clock : Nat) : Lane := { L.enter a none clock with handler := true }

theorem Lane.intoHandler_live {L : Lane} (h : L.life = .live) (a : DWord) (clock : Nat) :
    L.intoHandler a clock =
      { L with handler := true, entry := .runnable, pc := a, led := none, since := clock, promoted := false } := by
  simp [Lane.intoHandler, Lane.enter, h]

/-- Entering the handler once more is entering it. -/
theorem Lane.intoHandler_iterate {L : Lane} (h : L.life = .live) (a : DWord) (clock n : Nat) :
    (fun L : Lane => L.intoHandler a clock)^[n + 1] L = L.intoHandler a clock := by
  induction n with
  | zero => rfl
  | succ n ih =>
    rw [Function.iterate_succ_apply', ih, Lane.intoHandler_live h]
    rw [Lane.intoHandler_live]
    exact h

section
variable {s : State} {w : Nat}

/-- The warp that takes a trap: its lanes, its trap registers and what its handler serves. -/
theorem State.warp_enterHandler_same (hw : (s.warps.get? w).isSome = true) (x : Trap) :
    ∃ b, (s.enterHandler w x).warp w =
      { (s.warp w).modLanes x.lanes (·.intoHandler (s.handlerAt w x.code) s.clock) with
        tcs := x.tcs, tpc := x.tpc &&& codeMask, tad := x.tad, tlm := laneMask x.lanes, tch := x.tch &&& codeMask,
        stop := x.stop, lsecc := b } := by
  unfold State.enterHandler
  extract_lets W tvb entry s1 s2
  have hwarps : s2.warps = s.warps := by
    simp only [s2]
    split <;> rfl
  have hclock : s2.clock = s.clock := by
    simp only [s2]
    split <;> rfl
  have hwarp : s2.warp w = s.warp w := by rw [State.warp, hwarps]; rfl
  rw [State.warp_modWarp_same _ (by rw [hwarps]; exact hw), hwarp, hclock]
  exact ⟨_, rfl⟩

theorem State.warp_enterHandler_other (x : Trap) {v : Nat} (h : v ≠ w) : (s.enterHandler w x).warp v = s.warp v := by
  unfold State.enterHandler
  extract_lets W tvb entry s1 s2
  have hwarps : s2.warps = s.warps := by
    simp only [s2]
    split <;> rfl
  rw [State.warp_modWarp_other _ _ h, State.warp, hwarps]
  rfl

theorem State.enterHandler_groups (s : State) (w : Nat) (x : Trap) : (s.enterHandler w x).groups = s.groups := by
  unfold State.enterHandler
  extract_lets W tvb entry s1 s2
  simp only [State.modWarp_groups, s2]
  split <;> rfl

/-- But for TR.TRAP and TR.BKPT, which a core notes, only warps and the events that count change. -/
theorem State.enterHandler_rest {x : Trap} (h : x.code ≠ 0x15 ∧ x.code ≠ 0x16) :
    s.enterHandler w x = { s with warps := (s.enterHandler w x).warps, tally := (s.enterHandler w x).tally } := by
  unfold State.enterHandler
  simp only [h, or_self, if_false]
  rfl

theorem State.trapped_enterHandler (hw : (s.warps.get? w).isSome = true) (x : Trap) :
    (s.warp w).trapped ((s.enterHandler w x).warp w) := by
  obtain ⟨b, hb⟩ := State.warp_enterHandler_same hw x
  unfold Warp.trapped
  rw [hb, Warp.modLanes_keeps]

theorem State.lane_enterHandler (hs : s.lanesOk) (hw : (s.warps.get? w).isSome = true) (x : Trap) (l : Nat) :
    (s.enterHandler w x).lane w l =
      (fun L : Lane => L.intoHandler (s.handlerAt w x.code) s.clock)^[x.lanes.count l] (s.lane w l) := by
  obtain ⟨b, hb⟩ := State.warp_enterHandler_same hw x
  rw [State.lane, hb]
  exact Warp.lane_modLanes (hs w) _ _ _

theorem State.lane_enterHandler_mem (hs : s.lanesOk) (hw : (s.warps.get? w).isSome = true) {x : Trap} {l : Nat}
    (hl : l ∈ x.lanes) (hlive : (s.lane w l).life = .live) :
    (s.enterHandler w x).lane w l = (s.lane w l).intoHandler (s.handlerAt w x.code) s.clock := by
  obtain ⟨n, hn⟩ := Nat.exists_eq_succ_of_ne_zero (List.count_pos_iff.2 hl).ne'
  rw [State.lane_enterHandler hs hw, hn, Lane.intoHandler_iterate hlive]

theorem State.lane_enterHandler_not_mem (hs : s.lanesOk) (hw : (s.warps.get? w).isSome = true) {x : Trap} {l : Nat}
    (hl : l ∉ x.lanes) : (s.enterHandler w x).lane w l = s.lane w l := by
  rw [State.lane_enterHandler hs hw, List.count_eq_zero.2 hl]
  rfl

/-- The lanes of the trap stand at the handler's clause, and are as they were otherwise. -/
theorem State.inHandler_enterHandler (hs : s.lanesOk) (hw : (s.warps.get? w).isSome = true) {x : Trap} {l : Nat}
    (hl : l ∈ x.lanes) (hlive : (s.lane w l).life = .live) :
    s.InHandler (s.enterHandler w x) w l x.code ∧ (s.lane w l).trapped ((s.enterHandler w x).lane w l) := by
  unfold State.InHandler State.Went Lane.trapped
  rw [State.lane_enterHandler_mem hs hw hl hlive, Lane.intoHandler_live hlive]
  exact ⟨⟨rfl, hlive, rfl, rfl⟩, rfl⟩

end

/-- A warp has taken a trap: its registers name it, its lanes have entered the handler, and warps and lanes are as they were
otherwise. -/
structure State.TrapTaken (s t : State) (w : Nat) (x : Trap) : Prop where
  tcs : (t.warp w).tcs = x.tcs
  tpc : (t.warp w).tpc = x.tpc &&& codeMask
  tad : (t.warp w).tad = x.tad
  tlm : (t.warp w).tlm = laneMask x.lanes
  tch : (t.warp w).tch = x.tch &&& codeMask
  enters : ∀ l ∈ x.lanes, (s.lane w l).life = .live → s.InHandler t w l x.code ∧ (s.lane w l).trapped (t.lane w l)
  stays : ∀ l, l ∉ x.lanes → t.lane w l = s.lane w l
  warp : (s.warp w).trapped (t.warp w)
  others : ∀ v, v ≠ w → t.warp v = s.warp v

theorem State.trapTaken_enterHandler {s : State} {w : Nat} (hs : s.lanesOk) (hw : (s.warps.get? w).isSome = true) (x : Trap) :
    s.TrapTaken (s.enterHandler w x) w x := by
  obtain ⟨b, hb⟩ := State.warp_enterHandler_same hw x
  exact {
    tcs := by rw [hb]
    tpc := by rw [hb]
    tad := by rw [hb]
    tlm := by rw [hb]
    tch := by rw [hb]
    enters := fun l hl hlive => State.inHandler_enterHandler hs hw hl hlive
    stays := fun l hl => State.lane_enterHandler_not_mem hs hw hl
    warp := State.trapped_enterHandler hw x
    others := fun v hv => State.warp_enterHandler_other x hv }

/-- TCS of a trap that no fetch and no write met, and that has no further cause (R335). -/
theorem Trap.tcs_plain {x : Trap} (hinfo : x.info = 0) (hfetch : x.fetch = false) (hwrite : x.write = false) :
    x.tcs = BitVec.ofNat 64 (x.code % 256) := by
  simp [Trap.tcs, hinfo, hfetch, hwrite]

/-! ## Taking a trap -/

/-- A warp of which no lane is in a handler takes a trap where its core and its sub-core are not stopped. -/
theorem State.takeTrap_of_free {s : State} {w : Nat} (h : s.holdsTraps w = false) (x : Trap) :
    s.takeTrap w x = s.enterHandler w x := by
  have hin : (s.warp w).inHandler = false := by
    simp only [State.holdsTraps, Bool.or_eq_false_iff] at h
    exact h.1.1
  have hany : (x.lanes.any fun l => ((s.warp w).lane l).handler) = false := by
    rw [List.any_eq_false]
    intro l _
    simp only [Warp.lane, AMap.getD]
    cases hl : (s.warp w).lanes.get? l with
    | none => simp
    | some L =>
      simp only [Warp.inHandler, List.any_eq_false] at hin
      exact hin _ (AMap.mem_of_get? hl)
  unfold State.takeTrap
  simp only [hany, h]
  rfl

/-- The trap that a whole group takes at its word. -/
def Group.trap (gr : Group) (g : Nat) (c : Cause) (tad : DWord) (ls : List Nat) : Trap :=
  { code := c.code, tpc := gr.pc, tad := tad, tch := gr.hdr, lanes := ls, stop := g }

/-- The state in which the thread lanes of one warp, a whole group, have taken a trap. -/
def State.teamTraps (s : State) (g : Nat) (gr : Group) (w : Nat) (ls : List Nat) (c : Cause) (tad : DWord) : State :=
  ((s.delGroup g).unfocus g).enterHandler w (gr.trap g c tad ls)

theorem State.trapTaken_teamTraps {s : State} {g : Nat} {gr : Group} {w : Nat} {ls : List Nat} {p : Pred}
    (h : s.Team g gr w ls p) (c : Cause) (tad : DWord) :
    s.TrapTaken (s.teamTraps g gr w ls c tad) w (gr.trap g c tad ls) := by
  have hok : ((s.delGroup g).unfocus g).lanesOk := h.forms.lanesOk
  have hw : (((s.delGroup g).unfocus g).warps.get? w).isSome = true := h.warp_isSome
  obtain ⟨htcs, htpc, htad, htlm, htch, henters, hstays, hwarp, hothers⟩ :=
    State.trapTaken_enterHandler hok hw (gr.trap g c tad ls)
  exact ⟨htcs, htpc, htad, htlm, htch, henters, hstays, hwarp, hothers⟩

/-- Thread lanes of one warp, a whole group, trap at their word: the group goes, and nothing goes on. -/
theorem State.raising_team {s : State} {g : Nat} {gr : Group} {w : Nat} {ls : List Nat} {p : Pred}
    (h : s.Team g gr w ls p) (hg : (s.groups.get? g).map Group.lanes = some gr.lanes) (hfree : s.holdsTraps w = false)
    (c : Cause) (tad : DWord) (k : Group → State → Out) :
    s.raising g gr (gr.allWarps c tad) k = .next (s.teamTraps g gr w ls c tad) := by
  obtain ⟨gr', hg', hlanes⟩ := Option.map_eq_some_iff.1 hg
  obtain ⟨-, hgroups, -⟩ := h.forms
  have hthreads : ls.filter (fun l => s.isLive (w, l)) = ls := List.filter_eq_self.2 fun l hl => h.isLive_of_mem hl
  have hhelpers : ls.filter (fun l => !s.isLive (w, l)) = [] :=
    List.filter_eq_nil_iff.2 fun l hl => by simp [h.isLive_of_mem hl]
  have hleave : ls.foldl (fun s l => s.leaveGroup w l) s = (s.delGroup g).unfocus g :=
    State.leaveGroup_all h.someLane h.nodup (fun l hl => (h.run l hl).2.1) hg' (hlanes.trans h.lanes)
  have hfree' : ((s.delGroup g).unfocus g).holdsTraps w = false := hfree
  have hstate : (s.raise g gr [⟨w, c, tad, 0, false⟩]).1 = s.teamTraps g gr w ls c tad := by
    rw [State.teamTraps, ← State.takeTrap_of_free hfree', ← hleave]
    simp only [State.raise, List.foldl_cons, List.foldl_nil]
    rw [h.lanesOf, hthreads, hhelpers, if_neg h.someLane, if_pos rfl]
    rfl
  have hgone : (s.raise g gr [⟨w, c, tad, 0, false⟩]).2 = none := by
    show (s.raise g gr [⟨w, c, tad, 0, false⟩]).1.groups.get? g = none
    rw [hstate, State.teamTraps, State.enterHandler_groups]
    exact AMap.get?_del_same _ hgroups
  have hraise : s.raise g gr [⟨w, c, tad, 0, false⟩] = (s.teamTraps g gr w ls c tad, none) := Prod.ext hstate hgone
  unfold State.raising
  simp only [Group.allWarps, h.warpIds, List.map_cons, List.map_nil, hraise]
  rfl

end Sys2Proof.Machine
end

section
/-! PROOFS. O20: privileged forms outside a handler (02_encoding R29). -/

namespace Sys2Proof.Machine

theorem State.get?_of_current {s : State} {g : Nat} {gr : Group} (h : s.current = some (g, gr)) :
    s.groups.get? g = some gr := by
  unfold State.current at h
  split at h
  · obtain ⟨gr', hg, heq⟩ := Option.map_eq_some_iff.1 h
    cases heq
    exact hg
  · cases h
  · cases h

/-- The five privileged forms, with the widths of their operands (R29). -/
def Privileged (i : Instr) (o : Ops) (wds : Widths) : Prop :=
  (∃ e, i = .trRett o e ∧ wds = {}) ∨ (∃ r, i = .trMfs o r ∧ wds = ⟨2, 1, 1, 1, false, []⟩) ∨
    (∃ r, i = .trMts o r ∧ wds = ⟨1, 2, 1, 1, false, []⟩) ∨ (∃ d a, i = .trTlbi o d a ∧ wds = ⟨1, 2, 1, 1, false, []⟩) ∨
    (i = .trHalt o ∧ wds = {})

/-- Each privileged form is issued as one. -/
theorem exec_privileged {i : Instr} {o : Ops} {wds : Widths} (h : Privileged i o wds) (s : State) :
    ∃ k chk, exec i s = issueLane s true o wds k chk := by
  obtain ⟨e, rfl, rfl⟩ | ⟨r, rfl, rfl⟩ | ⟨r, rfl, rfl⟩ | ⟨d, a, rfl, rfl⟩ | ⟨rfl, rfl⟩ := h
  · exact ⟨_, _, rfl⟩
  · exact ⟨_, _, rfl⟩
  · exact ⟨_, _, rfl⟩
  · exact ⟨_, _, rfl⟩
  · exact ⟨_, _, rfl⟩

/-- A privileged word outside a handler, of thread lanes of one warp, raises PRIV with TAD its first word. -/
theorem issueLane_priv {s : State} {g : Nat} {gr : Group} {w : Nat} {ls : List Nat} {o : Ops} {wd : Widths} {p : Pred}
    (hcur : s.current = some (g, gr)) (hfits : ∀ w ∈ gr.warpIds, ∀ r ∈ wd.all o, r < (s.warp w).regs)
    (h : s.Team g gr w ls p) (hg : gr.handler = false) (hfree : s.holdsTraps w = false)
    (k : Nat → Group → State → Out) (chk : Widths) :
    issueLane s true o wd k chk = .next ((s.atWord g).teamTraps g gr w ls .priv (gr.word0.setWidth 64)) := by
  have halloc : allocOk (s.atWord g) gr (wd.all o) = true := allocOk_of_fits hfits
  have hlanes : (((s.atWord g).groups.get? g).map Group.lanes) = some gr.lanes := by
    rw [State.atWord, State.modGroup_groups, AMap.get?_modify, if_pos rfl, State.get?_of_current hcur]
    rfl
  have hraise := State.raising_team h.atWord hlanes hfree .priv (gr.word0.setWidth 64)
    fun gr s => s.skipHelpers g gr o wd.d
  unfold State.atWord at halloc hraise ⊢
  unfold issueLane
  simp only [hcur, halloc, hg]
  exact hraise

/-- Settles O20: the word is issued as a privileged one, and its group, which is not in a handler, takes the trap. -/
theorem privilegedForms : Obligations.PrivilegedForms := by
  intro i o wds s g gr w ls hi hready hteam hhandler hfree
  obtain ⟨k, chk, hexec⟩ := exec_privileged hi s
  have htrap := State.trapTaken_teamTraps hteam.atWord .priv (gr.word0.setWidth 64)
  refine ⟨_, hexec.trans (issueLane_priv hready.current hready.fits hteam hhandler hfree k chk), ?_, htrap.tad, htrap.tlm,
    fun l hl => ?_, htrap.stays, htrap.warp, htrap.others, ?_⟩
  · rw [htrap.tcs]
    exact Trap.tcs_plain rfl rfl rfl
  · obtain ⟨hlive, -⟩ := hteam.run l hl
    exact htrap.enters l hl hlive
  · rw [State.teamTraps, State.enterHandler_rest (by simp [Group.trap, Cause.code]), State.atWord, State.delGroup_modGroup]
    rfl

end Sys2Proof.Machine
end

section
/-! SUPPORT. What fetching words of code leaves alone: a line that is brought to memory may raise the GWCT of warps whose
partials it folds, and a core keeps the line in its fetch path; threads, groups, blocks and contexts are as they were
(02_encoding R43). -/

namespace Sys2Proof.Machine

/-- From one state to another code has been read: warps differ in their GWCT alone, no core begins or ends a halt, and the
parts that lines and fetch paths have no part in are the same. -/
structure State.CodeRead (s t : State) : Prop where
  warp : ∀ v, t.warp v = { s.warp v with gwct := (t.warp v).gwct }
  present : ∀ v, (t.warps.get? v).isSome = (s.warps.get? v).isSome
  sorted : AMap.sorted s.warps = true → AMap.sorted t.warps = true
  halting : ∀ c, (t.core c).halting = (s.core c).halting
  rest : t = { s with
    mem := t.mem, lines := t.lines, caches := t.caches, msgs := t.msgs, warps := t.warps, tally := t.tally, cores := t.cores }

namespace State.CodeRead

theorem refl (s : State) : s.CodeRead s := ⟨fun _ => rfl, fun _ => rfl, id, fun _ => rfl, rfl⟩

theorem trans {s t u : State} (h1 : s.CodeRead t) (h2 : t.CodeRead u) : s.CodeRead u where
  warp v := by rw [h2.warp v, h1.warp v]
  present v := (h2.present v).trans (h1.present v)
  sorted h := h2.sorted (h1.sorted h)
  halting c := (h2.halting c).trans (h1.halting c)
  rest := by rw [h2.rest, h1.rest]

/-- Where warps and cores are the same, only the frame remains to be seen. -/
theorem of_frame {s t : State} (hw : t.warps = s.warps) (hc : t.cores = s.cores)
    (hrest : t = { s with mem := t.mem, lines := t.lines, caches := t.caches, msgs := t.msgs, warps := t.warps,
                          tally := t.tally, cores := t.cores }) : s.CodeRead t where
  warp v := by rw [State.warp, hw]; rfl
  present v := by rw [hw]
  sorted h := by rw [hw]; exact h
  halting c := by rw [State.core, hc]; rfl
  rest := hrest

theorem foldl {α : Type} {f : State → α → State} (hf : ∀ (s : State) (x : α), s.CodeRead (f s x)) (l : List α) (s : State) :
    s.CodeRead (l.foldl f s) :=
  List.foldlRecOn (motive := fun t => s.CodeRead t) l f (refl s) fun _ ht x _ => ht.trans (hf _ x)

variable {s t : State}

theorem lane (h : s.CodeRead t) (w l : Nat) : t.lane w l = s.lane w l := by
  rw [State.lane, h.warp w]
  rfl

theorem lanesOk (h : s.CodeRead t) (hs : s.lanesOk) : t.lanesOk := fun w => by
  rw [h.warp w]
  exact hs w

theorem passes (h : s.CodeRead t) (w : Nat) (wait : BitVec 12) : (t.warp w).passes wait = (s.warp w).passes wait := by
  rw [h.warp w]
  rfl

theorem isLive (h : s.CodeRead t) (x : Nat × Nat) : t.isLive x = s.isLive x := by
  rw [State.isLive, h.lane]
  rfl

theorem block (h : s.CodeRead t) (b : Nat) : t.block b = s.block b := by
  rw [h.rest]
  rfl

theorem ctx (h : s.CodeRead t) (c : Nat) : t.ctx c = s.ctx c := by
  rw [h.rest]
  rfl

theorem groups (h : s.CodeRead t) : t.groups = s.groups := by rw [h.rest]

theorem holdsTraps (h : s.CodeRead t) (w : Nat) : t.holdsTraps w = s.holdsTraps w := by
  unfold State.holdsTraps
  rw [h.halting, h.warp w]
  rfl

theorem handlerAt (h : s.CodeRead t) (w code : Nat) : t.handlerAt w code = s.handlerAt w code := by
  unfold State.handlerAt
  rw [h.ctx, h.block, h.warp w]

end State.CodeRead

/-! ## Bringing a line to memory -/

theorem State.codeRead_gwct (s : State) (w n : Nat) : s.CodeRead (s.gwct w n) where
  warp v := by
    unfold State.gwct
    by_cases hv : v = w
    · subst hv
      cases hw : s.warps.get? v with
      | none => rw [State.modWarp_absent _ hw]
      | some W => rw [State.warp_modWarp_same _ (by simp [hw])]
    · rw [State.warp_modWarp_other _ _ hv]
  present v := s.isSome_modWarp w v _
  sorted h := AMap.sorted_modify _ _ h
  halting _ := rfl
  rest := rfl

theorem State.codeRead_gwctAll (s : State) (who : List (Nat × Nat)) (n : Nat) : s.CodeRead (s.gwctAll who n) :=
  State.CodeRead.foldl (fun s w => s.codeRead_gwct w n) _ s

theorem State.codeRead_mem (s : State) (m : Memory) : s.CodeRead { s with mem := m } := .of_frame rfl rfl rfl

theorem State.codeRead_msgs (s : State) (m : AMap Msg) : s.CodeRead { s with msgs := m } := .of_frame rfl rfl rfl

theorem State.codeRead_setHline (s : State) (l : Nat) (x : HLine) : s.CodeRead (s.setHline l x) := .of_frame rfl rfl rfl

theorem State.codeRead_setCline (s : State) (a l : Nat) (x : CLine) : s.CodeRead (s.setCline a l x) := .of_frame rfl rfl rfl

theorem State.codeRead_delCline (s : State) (a l : Nat) : s.CodeRead (s.delCline a l) := .of_frame rfl rfl rfl

theorem State.codeRead_recalled (s : State) (a : Nat) : s.CodeRead (s.recalled a) := by
  unfold State.recalled
  split
  · exact .of_frame rfl rfl rfl
  · exact .refl s

theorem State.codeRead_absorb (s : State) (line : Nat) : s.CodeRead (s.absorb line) := by
  unfold State.absorb
  extract_lets s1 h
  have hmsgs : s.CodeRead s1 := by
    refine .foldl (fun s e => ?_) _ s
    dsimp only
    split
    · split
      · exact .of_frame rfl rfl rfl
      · exact ((s.codeRead_mem _).trans (State.codeRead_gwctAll _ _ _)).trans (State.codeRead_msgs _ _)
      · exact .refl s
    · exact .refl s
  split
  · refine (hmsgs.trans (.foldl (fun s e => ?_) _ s1)).trans (State.codeRead_setHline _ _ _)
    exact (s.codeRead_mem _).trans (State.codeRead_gwctAll _ _ _)
  · exact hmsgs

theorem State.codeRead_settle (s : State) (line : Nat) (write : Bool) : s.CodeRead (s.settle line write) := by
  unfold State.settle
  extract_lets s1 h
  have habsorb : s.CodeRead s1 := s.codeRead_absorb line
  refine habsorb.trans ?_
  split
  case h_1 => exact .refl s1
  case h_2 who _ =>
    split
    · refine (State.CodeRead.foldl (fun s a => ?_) who s1).trans (State.codeRead_setHline _ _ _)
      exact (s.codeRead_recalled a).trans (State.codeRead_delCline _ _ _)
    · exact .refl s1
  case h_3 a _ =>
    split
    · split
      · exact .refl s1
      · exact State.codeRead_setHline _ _ _
    · have hmem (c : CLine) : s1.CodeRead (State.recalled { s1 with mem := applyWords s1.mem line c.data c.dirty } a) :=
        (State.codeRead_mem _ _).trans (State.codeRead_recalled _ a)
      extract_lets s2
      split
      · exact ((hmem _).trans (State.codeRead_delCline _ _ _)).trans (State.codeRead_setHline _ _ _)
      · exact ((hmem _).trans (State.codeRead_setCline _ _ _ _)).trans (State.codeRead_setHline _ _ _)
  case h_4 who _ =>
    refine (State.CodeRead.foldl (fun s a => ?_) (sortNat who) s1).trans (State.codeRead_setHline _ _ _)
    refine (s.codeRead_recalled a).trans ?_
    dsimp only
    split
    · split
      · exact ((State.codeRead_mem _ _).trans (State.codeRead_gwctAll _ _ _)).trans (State.codeRead_delCline _ _ _)
      · exact State.codeRead_delCline _ _ _
    · exact .refl _

/-! ## Fetching words -/

theorem AMap.set_ne_nil {α : Type} (m : AMap α) (i : Nat) (x : α) : m.set i x ≠ [] := by
  cases m with
  | nil => simp [AMap.set]
  | cons a m =>
    obtain ⟨k, v⟩ := a
    unfold AMap.set
    split
    · simp
    · split <;> simp

/-- A core that keeps a line of code is not in its initial state, and is listed. -/
theorem State.keepCode_core (s : State) (core line : Nat) (bytes : AMap Byte) (c : Nat) :
    (s.keepCode core line bytes).core c =
      if c = core then { s.core core with icache := (s.core core).icache.set line bytes } else s.core c := by
  have hne : ({ s.core core with icache := (s.core core).icache.set line bytes } : Core) ≠ {} := fun h =>
    AMap.set_ne_nil _ _ _ (congrArg Core.icache h)
  unfold State.keepCode State.modCore State.setCore AMap.putD
  rw [if_neg hne]
  show ((s.cores.set core _).get? c).getD {} = _
  rw [AMap.get?_set]
  split
  · rfl
  · rfl

theorem State.codeRead_keepCode (s : State) (core line : Nat) (bytes : AMap Byte) :
    s.CodeRead (s.keepCode core line bytes) where
  warp _ := rfl
  present _ := rfl
  sorted h := h
  halting c := by
    rw [State.keepCode_core]
    split
    · next h => rw [h]
    · rfl
  rest := rfl

theorem State.codeRead_fetchLine (s : State) (core line : Nat) : s.CodeRead (s.fetchLine core line).1 := by
  unfold State.fetchLine
  split
  · exact .refl _
  · split
    · exact .refl _
    · exact State.codeRead_keepCode _ _ _ _
  · split
    · exact .refl _
    · split
      · exact (State.codeRead_settle _ _ _).trans (State.codeRead_keepCode _ _ _ _)
      · exact .refl _

/-- Words that are fetched have been read, and nothing else has happened. -/
theorem State.codeRead_fetch {core ctx : Nat} {old : AMap (AMap Byte)} {va : DWord} {n : Nat} {s t : State} {ws : List Word}
    (h : s.fetch core ctx old va n = (t, .words ws)) : s.CodeRead t := by
  induction n generalizing s va ws with
  | zero =>
    cases h
    exact .refl _
  | succ n ih =>
    unfold State.fetch at h
    split at h
    case h_1 a _ =>
      split at h
      case h_1 => cases h
      case h_2 => cases h
      case h_3 s1 l heq =>
        have hline : s.CodeRead s1 := by
          split at heq
          · cases heq
            exact .refl s
          · have hread := s.codeRead_fetchLine core (a / 128)
            rw [heq] at hread
            exact hread
        split at h
        case h_1 s2 ws' hrec =>
          cases h
          exact hline.trans (ih hrec)
        all_goals cases h
    all_goals cases h

end Sys2Proof.Machine
end

section
/-! SUPPORT. The same change of several lanes, of any warps; entries that X.YIELD held back. -/

namespace Sys2Proof.Machine

theorem AMap.get?_of_mem {α : Type} {m : AMap α} (h : m.sorted = true) {i : Nat} {x : α} (hx : (i, x) ∈ m) :
    m.get? i = some x := by
  induction m with
  | nil => cases hx
  | cons a m ih =>
    obtain ⟨k, v⟩ := a
    obtain ⟨hlt, hm⟩ := (AMap.sorted_cons _ _).1 h
    rcases List.mem_cons.1 hx with heq | hx
    · cases heq
      simp [AMap.get?]
    · have hki : k < i := hlt _ hx
      simp [AMap.get?, ih hm hx, hki.not_gt, hki.ne']

/-- Each of these lanes is changed by f. -/
def State.modAll (s : State) (xs : List (Nat × Nat)) (f : Lane → Lane) : State :=
  xs.foldl (fun s x => s.modLane x.1 x.2 f) s

theorem State.modAll_rest (s : State) (xs : List (Nat × Nat)) (f : Lane → Lane) :
    s.modAll xs f = { s with warps := (s.modAll xs f).warps } :=
  List.foldlRecOn (motive := fun t : State => t = { s with warps := t.warps }) xs _ rfl fun t ht x _ => by
    rw [State.modLane, State.modWarp, ht]

theorem State.lanesOk_modAll {s : State} (h : s.lanesOk) (xs : List (Nat × Nat)) (f : Lane → Lane) :
    (s.modAll xs f).lanesOk :=
  List.foldlRecOn (motive := State.lanesOk) xs _ h fun _ ht x _ => State.lanesOk_modLane ht x.1 x.2 f

theorem State.present_modAll (s : State) (xs : List (Nat × Nat)) (f : Lane → Lane) (v : Nat) :
    ((s.modAll xs f).warps.get? v).isSome = (s.warps.get? v).isSome :=
  List.foldlRecOn (motive := fun t : State => (t.warps.get? v).isSome = (s.warps.get? v).isSome) xs _ rfl
    fun t ht x _ => (t.isSome_modWarp x.1 v _).trans ht

theorem State.warpsSorted_modAll {s : State} (h : AMap.sorted s.warps = true) (xs : List (Nat × Nat)) (f : Lane → Lane) :
    AMap.sorted (s.modAll xs f).warps = true :=
  List.foldlRecOn (motive := fun t : State => AMap.sorted t.warps = true) xs _ h
    fun _ ht _ _ => AMap.sorted_modify _ _ ht

/-- Each lane is changed as often as the list names it. -/
theorem State.lane_modAll {s : State} (hs : s.lanesOk) (xs : List (Nat × Nat))
    (hw : ∀ x ∈ xs, (s.warps.get? x.1).isSome = true) (f : Lane → Lane) (v k : Nat) :
    (s.modAll xs f).lane v k = f^[xs.count (v, k)] (s.lane v k) := by
  induction xs generalizing s with
  | nil => rfl
  | cons x xs ih =>
    have hstep : s.modAll (x :: xs) f = (s.modLane x.1 x.2 f).modAll xs f := rfl
    rw [hstep, ih (State.lanesOk_modLane hs _ _ _) fun y hy => by
      rw [State.modLane, State.isSome_modWarp]
      exact hw y (List.mem_cons_of_mem _ hy)]
    by_cases hk : x = (v, k)
    · subst hk
      rw [List.count_cons_self, Function.iterate_succ_apply, State.lane_modLane_same hs (hw _ (by simp))]
    · rw [List.count_cons_of_ne hk,
        State.lane_modLane_other hs f fun hv hkl => hk (Prod.ext hv.symm hkl.symm)]

/-- A lane that the list names, by a change that is the same made again. -/
theorem State.lane_modAll_mem {s : State} (hs : s.lanesOk) {xs : List (Nat × Nat)}
    (hw : ∀ x ∈ xs, (s.warps.get? x.1).isSome = true) {f : Lane → Lane} (hf : ∀ L, f (f L) = f L) {x : Nat × Nat}
    (hx : x ∈ xs) : (s.modAll xs f).lane x.1 x.2 = f (s.lane x.1 x.2) := by
  obtain ⟨n, hn⟩ := Nat.exists_eq_succ_of_ne_zero (List.count_pos_iff.2 hx).ne'
  rw [State.lane_modAll hs xs hw, hn, Function.iterate_succ_apply]
  exact Function.iterate_fixed (hf _) n

theorem State.lane_modAll_not_mem {s : State} (hs : s.lanesOk) {xs : List (Nat × Nat)}
    (hw : ∀ x ∈ xs, (s.warps.get? x.1).isSome = true) (f : Lane → Lane) {x : Nat × Nat} (hx : x ∉ xs) :
    (s.modAll xs f).lane x.1 x.2 = s.lane x.1 x.2 := by
  rw [State.lane_modAll hs xs hw, List.count_eq_zero.2 hx]
  rfl

theorem State.endYields_rest (s : State) (core sub b : Nat) (a : DWord) :
    s.endYields core sub b a = { s with warps := (s.endYields core sub b a).warps } := by
  refine List.foldlRecOn (motive := fun t : State => t = { s with warps := t.warps }) s.warps _ rfl fun t ht e _ => ?_
  split
  · refine List.foldlRecOn (motive := fun t : State => t = { s with warps := t.warps }) e.2.lanes _ ht fun t ht x _ => ?_
    split
    · split
      · exact ht
      · rw [State.modLane, State.modWarp, ht]
    all_goals exact ht
  · exact ht

/-- Only entries that X.YIELD held back become runnable as a group starts. -/
theorem State.endYields_lane {s : State} (hw : AMap.sorted s.warps = true) (hs : s.lanesOk) (core sub b : Nat) (a : DWord)
    {v k : Nat} (h : ∀ n, (s.lane v k).entry ≠ .yielded n) : (s.endYields core sub b a).lane v k = s.lane v k := by
  refine (List.foldlRecOn (motive := fun t : State => t.lanesOk ∧ t.lane v k = s.lane v k) s.warps _ ⟨hs, rfl⟩
    fun t ht e he => ?_).2
  split
  · refine List.foldlRecOn (motive := fun t : State => t.lanesOk ∧ t.lane v k = s.lane v k) e.2.lanes _ ht fun t ht x hx => ?_
    have hwarp : s.warp e.1 = e.2 := State.warp_of_get? (AMap.get?_of_mem hw he)
    have hlane : s.lane e.1 x.1 = x.2 := by
      have hsorted : AMap.sorted e.2.lanes = true := hwarp ▸ hs e.1
      rw [State.lane, hwarp, Warp.lane, AMap.getD, AMap.get?_of_mem hsorted hx]
      rfl
    split
    next n hentry =>
      split
      · exact ht
      · refine ⟨State.lanesOk_modLane ht.1 _ _ _, ?_⟩
        rw [State.lane_modLane_other ht.1 _ fun hv hk => ?_]
        · exact ht.2
        · subst hv hk
          exact h n (hlane ▸ hentry)
    all_goals exact ht
  · exact ht

end Sys2Proof.Machine
end

section
/-! SUPPORT. The group that the grouping stage forms (05_threads_control R95). -/

namespace Sys2Proof.Machine

theorem mem_insertBy {α : Type} (key : α → Nat) (x y : α) (l : List α) : y ∈ insertBy key x l ↔ y = x ∨ y ∈ l := by
  induction l with
  | nil => simp [insertBy]
  | cons z l ih =>
    unfold insertBy
    split
    · simp
    · simp only [List.mem_cons, ih]
      tauto

theorem mem_sortBy {α : Type} (key : α → Nat) (y : α) (l : List α) : y ∈ sortBy key l ↔ y ∈ l := by
  induction l with
  | nil => rfl
  | cons z l ih => simp [sortBy, mem_insertBy, ih]

/-- An entry of a table is a lane of a warp. -/
theorem State.mem_table {s : State} {core sub : Nat} {e : (Nat × Nat) × Lane} (h : e ∈ s.table core sub) :
    ∃ W, (e.1.1, W) ∈ s.warps ∧ (e.1.2, e.2) ∈ W.lanes := by
  simp only [State.table, mem_sortBy, List.mem_flatMap] at h
  obtain ⟨⟨w, W⟩, hW, he⟩ := h
  split at he
  · obtain ⟨x, hx, rfl⟩ := List.mem_map.1 he
    exact ⟨W, hW, hx⟩
  · cases he

/-- The entry that waits longest, of those promoted, is one of them. -/
theorem foldl_pick_mem {α : Type} (f : Option α → α → Option α) (hf : ∀ b e, f b e = some e ∨ f b e = b) (l : List α)
    (b : Option α) {x : α} (h : l.foldl f b = some x) : b = some x ∨ x ∈ l := by
  induction l generalizing b with
  | nil => exact .inl h
  | cons e l ih =>
    rcases ih (f b e) h with hb | hx
    · rcases hf b e with he | he
      · exact .inr (by simp_all)
      · exact .inl (he ▸ hb)
    · exact .inr (List.mem_cons_of_mem _ hx)

/-- A group that is formed has lanes, and each is in the table. -/
theorem State.formation_spec {s : State} {core sub b : Nat} {a : DWord} {hd : Bool} {ls : List (Nat × Nat)}
    (h : s.formation core sub = some (b, a, hd, ls)) :
    ls ≠ [] ∧ ∀ x ∈ ls, ∃ L, (x, L) ∈ s.table core sub := by
  unfold State.formation at h
  extract_lets c cand pick head at h
  split at h
  · cases h
  · obtain ⟨e, he, heq⟩ := Option.map_eq_some_iff.1 h
    cases heq
    have hmem : e ∈ cand := by
      rcases Option.or_eq_some_iff.1 he with hp | ⟨-, hh⟩
      · have hpick : ∀ b e, pick b e = some e ∨ pick b e = b := by
          intro b e
          cases b with
          | none => exact .inl rfl
          | some b =>
            simp only [pick]
            split
            · exact .inl rfl
            · exact .inr rfl
        rcases foldl_pick_mem pick hpick _ none hp with hn | hin
        · cases hn
        · exact (List.mem_filter.1 hin).1
      · exact List.mem_of_head? hh
    refine ⟨fun hnil => ?_, fun x hx => ?_⟩
    · have hrun : e ∈ cand.filter fun x => x.2.pc == e.2.pc && (s.warp x.1.1).block == (s.warp e.1.1).block &&
          x.2.handler == e.2.handler := List.mem_filter.2 ⟨hmem, by simp⟩
      rw [List.take_eq_nil_iff] at hnil
      rcases hnil with h32 | hnil
      · cases h32
      · rw [List.map_eq_nil_iff] at hnil
        rw [hnil] at hrun
        cases hrun
    · obtain ⟨y, hy, rfl⟩ := List.mem_map.1 (List.mem_of_mem_take hx)
      exact ⟨y.2, (List.mem_filter.1 (List.mem_filter.1 hy).1).1⟩

theorem State.formation_present {s : State} (hs : AMap.sorted s.warps = true) {core sub b : Nat} {a : DWord} {hd : Bool}
    {ls : List (Nat × Nat)} (h : s.formation core sub = some (b, a, hd, ls)) :
    ∀ x ∈ ls, (s.warps.get? x.1).isSome = true := by
  intro x hx
  obtain ⟨-, htable⟩ := State.formation_spec h
  obtain ⟨L, hL⟩ := htable x hx
  obtain ⟨W, hW, -⟩ := State.mem_table hL
  simp [AMap.get?_of_mem hs hW]

end Sys2Proof.Machine
end

section
/-! PROOFS. O25: a clause header starts its clause (02_encoding R38, R39; 05_threads_control R95). -/

namespace Sys2Proof.Machine

/-- The group that starts a clause, as it stands at its first word. -/
def clauseGroup (h : ClauseHdr) (core sub b : Nat) (a : DWord) (hd : Bool) (ws : List Word) (go : List (Nat × Nat)) :
    Group :=
  { core, sub, block := b, lanes := go, handler := hd, hdr := a, words := ws, seta := h.seta, setb := h.setb, pc := a + 4,
    next := a + 4 }

/-- A lane that a WAIT field holds back. -/
def Lane.heldBack (wait : BitVec 12) (L : Lane) : Lane := { L with entry := .flagBlocked wait }

/-- A lane that a group has taken. -/
def Lane.intoGroup (g : Nat) (L : Lane) : Lane := { L with entry := .group g, promoted := false }

/-- A new group is there, and issues. -/
def State.newGroup (s : State) (gr : Group) : State :=
  { s with ids := s.ids + 1, groups := s.groups.set (s.ids + 1) gr, focus := .group (s.ids + 1) }

/-- It has taken its lanes. -/
def State.startGroup (s : State) (gr : Group) : State := (s.newGroup gr).modAll gr.lanes (Lane.intoGroup (s.ids + 1))

theorem Lane.heldBack_heldBack (wait : BitVec 12) (L : Lane) : (L.heldBack wait).heldBack wait = L.heldBack wait := rfl

theorem Lane.intoGroup_intoGroup (g : Nat) (L : Lane) : (L.intoGroup g).intoGroup g = L.intoGroup g := rfl

theorem State.startGroup_rest (s : State) (gr : Group) :
    s.startGroup gr = { s.newGroup gr with warps := (s.startGroup gr).warps } := State.modAll_rest _ _ _

theorem State.startGroup_entry {s : State} (hs : s.lanesOk) {gr : Group}
    (hw : ∀ x ∈ gr.lanes, (s.warps.get? x.1).isSome = true) {x : Nat × Nat} (hx : x ∈ gr.lanes) :
    ((s.startGroup gr).lane x.1 x.2).entry = .group (s.ids + 1) :=
  congrArg Lane.entry (State.lane_modAll_mem (s := s.newGroup gr) hs hw (Lane.intoGroup_intoGroup _) hx)

theorem State.startGroup_lane_other {s : State} (hs : s.lanesOk) {gr : Group}
    (hw : ∀ x ∈ gr.lanes, (s.warps.get? x.1).isSome = true) {x : Nat × Nat} (hx : x ∉ gr.lanes) :
    (s.startGroup gr).lane x.1 x.2 = s.lane x.1 x.2 :=
  State.lane_modAll_not_mem (s := s.newGroup gr) hs hw _ hx

/-- A clause that has started counts, and entries that X.YIELD held back for another run may join again (R114). -/
def State.started (s : State) (core sub b : Nat) (a : DWord) (n ctx : Nat) : State :=
  let s := (s.endYields core sub b a).count core sub 0x01 1 ctx
  if n < 32 then s.count core sub 0x04 1 ctx else s

section
variable {h : ClauseHdr} {s s1 : State} {core sub b : Nat} {a : DWord} {hd : Bool} {ls : List (Nat × Nat)} {ws : List Word}

/-- What a header does whose words are there. -/
theorem exec_clauseHeader (hfocus : s.focus = .sub core sub) (hform : s.formation core sub = some (b, a, hd, ls))
    (hfetch : s.fetch core (s.block b).ctx (s.oldCode ls) (a + 4) (hdrLen h) = (s1, .words ws)) :
    exec (.clauseHeader h) s =
      let s2 := s1.modAll (ls.filter fun x => !(s1.warp x.1).passes h.wait) (Lane.heldBack h.wait)
      let go := ls.filter fun x => (s1.warp x.1).passes h.wait
      if go = [] then .next { s2 with focus := .none }
      else .next ((s2.startGroup (clauseGroup h core sub b a hd ws go)).started core sub b a go.length (s.block b).ctx) := by
  show execClauseHeader h s = _
  simp only [execClauseHeader, hfocus, hform, hfetch]
  split
  · rfl
  · simp only [State.started]
    split <;> rfl

end

theorem State.started_rest (s : State) (core sub b : Nat) (a : DWord) (n ctx : Nat) :
    s.started core sub b a n ctx =
      { s with warps := (s.endYields core sub b a).warps, tally := (s.started core sub b a n ctx).tally } := by
  unfold State.started
  extract_lets t
  have ht : t = { s with warps := (s.endYields core sub b a).warps, tally := t.tally } := by
    simp only [t]
    rw [State.endYields_rest]
    rfl
  split
  · rw [ht]
    rfl
  · exact ht

theorem State.started_lane {s : State} (hw : AMap.sorted s.warps = true) (hs : s.lanesOk) (core sub b : Nat) (a : DWord)
    (n ctx : Nat) {v k : Nat} (h : ∀ n, (s.lane v k).entry ≠ .yielded n) :
    (s.started core sub b a n ctx).lane v k = s.lane v k := by
  rw [State.started_rest]
  exact State.endYields_lane hw hs core sub b a h

/-- Settles O25: the lanes whose flags are set become flag-blocked, and the others, where there are any, the group that
issues. -/
theorem headerStarts : Obligations.HeaderStarts := by
  intro h s s1 core sub b a hd ls ws hok hfocus hform hfetch
  have hread : s.CodeRead s1 := State.codeRead_fetch hfetch
  have hs1 : s1.lanesOk := hread.lanesOk hok.lanesOk
  obtain ⟨hsorted, -, -⟩ := hok
  have hpresent : ∀ x ∈ ls, (s1.warps.get? x.1).isSome = true := fun x hx =>
    (hread.present x.1).trans (State.formation_present hsorted hform x hx)
  have hpass (x : Nat × Nat) : (s1.warp x.1).passes h.wait = (s.warp x.1).passes h.wait := hread.passes x.1 h.wait
  have hexec := exec_clauseHeader hfocus hform hfetch
  simp only [hpass] at hexec
  generalize hblocked : (ls.filter fun x => !(s.warp x.1).passes h.wait) = blocked at hexec
  generalize hgo : (ls.filter fun x => (s.warp x.1).passes h.wait) = go at hexec ⊢
  have mem_blocked {x : Nat × Nat} : x ∈ blocked ↔ x ∈ ls ∧ (s.warp x.1).passes h.wait = false := by simp [← hblocked]
  have mem_go {x : Nat × Nat} : x ∈ go ↔ x ∈ ls ∧ (s.warp x.1).passes h.wait = true := by simp [← hgo]
  have hblock {x : Nat × Nat} (hx : x ∈ blocked) :
      ((s1.modAll blocked (Lane.heldBack h.wait)).lane x.1 x.2).entry = .flagBlocked h.wait :=
    congrArg Lane.entry
      (State.lane_modAll_mem hs1 (fun y hy => hpresent y (mem_blocked.1 hy).1) (Lane.heldBack_heldBack h.wait) hx)
  by_cases hnone : go = []
  · rw [if_pos hnone] at hexec
    refine ⟨_, hexec, ?_, fun x hx hp => hblock (mem_blocked.2 ⟨hx, hp⟩), fun _ => rfl, fun ⟨x, hx, hp⟩ => ?_⟩
    · rw [State.modAll_rest]
    · have hin : x ∈ go := mem_go.2 ⟨hx, hp⟩
      rw [hnone] at hin
      cases hin
  · rw [if_neg hnone] at hexec
    generalize hs2 : s1.modAll blocked (Lane.heldBack h.wait) = s2 at hexec hblock
    have hok2 : s2.lanesOk := hs2 ▸ State.lanesOk_modAll hs1 _ _
    have hsorted2 : AMap.sorted s2.warps = true := hs2 ▸ State.warpsSorted_modAll (hread.sorted hsorted) _ _
    have hpresent2 : ∀ x ∈ go, (s2.warps.get? x.1).isSome = true := fun x hx => by
      rw [← hs2, State.present_modAll]
      exact hpresent x (mem_go.1 hx).1
    generalize hgr : clauseGroup h core sub b a hd ws go = gr at hexec
    have hlanes : gr.lanes = go := by rw [← hgr]; rfl
    have hok3 : (s2.startGroup gr).lanesOk := State.lanesOk_modAll (s := s2.newGroup gr) hok2 _ _
    have hsorted3 : AMap.sorted (s2.startGroup gr).warps = true :=
      State.warpsSorted_modAll (s := s2.newGroup gr) hsorted2 _ _
    refine ⟨_, hexec, ?_, fun x hx hp => ?_, fun hall => ?_, fun _ => ⟨s2.ids + 1, gr, ?_, ?_, ?_⟩⟩
    · rw [State.started_rest, State.startGroup_rest, ← hs2, State.modAll_rest]
      rfl
    · have hx : x ∈ blocked := mem_blocked.2 ⟨hx, hp⟩
      have hother : (s2.startGroup gr).lane x.1 x.2 = s2.lane x.1 x.2 :=
        State.startGroup_lane_other hok2 (hlanes ▸ hpresent2) (by simp [hlanes, mem_go, hp])
      rw [State.started_lane hsorted3 hok3 _ _ _ _ _ _ (fun n => by rw [hother, hblock hx]; simp), hother, hblock hx]
    · refine absurd (List.eq_nil_iff_forall_not_mem.2 fun x hx => ?_) hnone
      obtain ⟨hin, hp⟩ := mem_go.1 hx
      simp [hall x hin] at hp
    · rw [State.started_rest, State.startGroup_rest]
      rfl
    · rw [State.started_rest, State.startGroup_rest]
      exact AMap.get?_set_same _ _ _
    · subst hgr
      refine ⟨rfl, rfl, rfl, rfl, rfl, rfl, rfl, rfl, fun x hx => ?_⟩
      have hentry := State.startGroup_entry hok2 hpresent2 hx
      rw [State.started_lane hsorted3 hok3 _ _ _ _ _ _ (fun n => by rw [hentry]; simp), hentry]

end Sys2Proof.Machine
end

section
/-! PROOFS. O1: what a step runs, and the traps of a bad word (02_encoding R35, R36). -/

namespace Sys2Proof.Machine

/-! ## The choice that a step makes -/

/-- A step makes the choice that is next. -/
theorem step_of_nextChoice {s s' : State} {c : Choice} (h : s.NextChoice s' c) (hact : s'.act c = s'.take c) :
    step s = s'.take c := by
  rcases h with ⟨rest, hagenda, rfl⟩ | ⟨hagenda, hquiet, hturn, rfl⟩
  · simp only [step, hagenda]
    exact hact
  · simp only [step, hagenda, State.auto, hquiet, hturn]

/-- Where it is a group's turn, and it may issue, it issues its word, and a cycle passes. -/
theorem step_issue {s s' : State} {g : Nat} {gr : Group} (h : s.NextChoice s' (.issue g)) (hg : s'.groups.get? g = some gr)
    (hmay : s'.mayIssue gr = true) : step s = andThen (s'.issue g gr) fun t => .next (t.advance gr.lanes) := by
  rw [step_of_nextChoice h rfl]
  simp only [State.take, hg, hmay, if_true]

/-- Where it is a sub-core's turn, it starts the clause of the group that forms, and a cycle passes. -/
theorem step_form {s s' : State} {core sub : Nat} {x : Nat × DWord × Bool × List (Nat × Nat)}
    (h : s.NextChoice s' (.form core sub)) (hform : s'.formation core sub = some x) :
    step s = andThen (s'.startClause core sub) fun t => .next (t.advance []) := by
  rw [step_of_nextChoice h rfl]
  simp only [State.take, hform, Option.isSome_some, if_true]

/-! ## A word that is no instruction -/

/-- A word that does not decode traps with the cause that R36 gives it. -/
theorem State.issue_bad {s : State} {g : Nat} {gr : Group} {code : Nat}
    (h : (decode gr.rest = .illegal ∧ code = 1) ∨
      ((decode gr.rest = .header ∨ decode gr.rest = .truncated ∨ decode gr.rest = .notLast) ∧ code = 2)) :
    ∃ c : Cause, c.code = code ∧ s.issue g gr = andThen (s.badWord g gr c) State.resting := by
  rcases h with ⟨hd, rfl⟩ | ⟨hd | hd | hd, rfl⟩
  · exact ⟨.illegal, rfl, by rw [State.issue, hd]⟩
  · exact ⟨.clause, rfl, by rw [State.issue, hd]⟩
  · exact ⟨.clause, rfl, by rw [State.issue, hd]⟩
  · exact ⟨.clause, rfl, by rw [State.issue, hd]⟩

/-- The state in which a group of thread lanes of one warp has trapped at a bad word, and no group issues. -/
theorem State.badWord_team {s : State} {g : Nat} {gr : Group} {w : Nat} {ls : List Nat} {p : Pred}
    (h : s.Team g gr w ls p) (hg : s.groups.get? g = some gr) (hfree : s.holdsTraps w = false) (c : Cause) :
    andThen (s.badWord g gr c) State.resting =
      .next { s.teamTraps g gr w ls c ((gr.rest.headD 0).setWidth 64) with focus := .none } := by
  unfold State.badWord
  rw [State.raising_team h (by rw [hg]; rfl) hfree]
  rfl

/-! ## A word at a clause start that is no header -/

/-- No lane of a warp is in a handler. -/
theorem State.inHandler_eq_false {s : State} (hs : s.lanesOk) (w : Nat) :
    (s.warp w).inHandler = false ↔ ∀ l, (s.lane w l).handler = false := by
  unfold Warp.inHandler State.lane Warp.lane AMap.getD
  rw [List.any_eq_false]
  constructor
  · intro h l
    cases hl : (s.warp w).lanes.get? l with
    | none => rfl
    | some L => simpa using h _ (AMap.mem_of_get? hl)
  · intro h e he
    have hlane := h e.1
    rw [AMap.get?_of_mem (hs w) he] at hlane
    simpa using hlane

/-- A lane that waits for its trap to be taken. -/
def Lane.stopped (L : Lane) : Lane := { L with entry := .trapped }

/-- Lanes of one warp that have left the table for a trap. -/
def State.stopLanes (s : State) (w : Nat) (ls : List Nat) : State := s.modAll (ls.map fun l => (w, l)) Lane.stopped

section
variable {s : State} {w : Nat}

theorem State.stopLanes_lane (hs : s.lanesOk) (hw : (s.warps.get? w).isSome = true) (ls : List Nat) (l : Nat) :
    (s.stopLanes w ls).lane w l = if l ∈ ls then (s.lane w l).stopped else s.lane w l := by
  have hpresent : ∀ x ∈ ls.map fun l => (w, l), (s.warps.get? x.1).isSome = true := by simp [hw]
  split
  next h =>
    exact State.lane_modAll_mem hs hpresent (f := Lane.stopped) (fun _ => rfl) (x := (w, l)) (by simpa using h)
  next h =>
    exact State.lane_modAll_not_mem hs hpresent Lane.stopped (x := (w, l)) (by simpa using h)

theorem State.stopLanes_warp (s : State) (w : Nat) (ls : List Nat) (v : Nat) :
    (s.stopLanes w ls).warp v = { s.warp v with lanes := ((s.stopLanes w ls).warp v).lanes } :=
  List.foldlRecOn (motive := fun t : State => t.warp v = { s.warp v with lanes := (t.warp v).lanes }) _ _ rfl
    fun t ht x _ => by rw [State.warp_modLane, ht]

theorem State.stopLanes_free (hs : s.lanesOk) (hw : (s.warps.get? w).isSome = true) (hfree : s.holdsTraps w = false)
    (ls : List Nat) : (s.stopLanes w ls).holdsTraps w = false := by
  simp only [State.holdsTraps, Bool.or_eq_false_iff] at hfree ⊢
  obtain ⟨⟨hin, hhalt⟩, hdbg⟩ := hfree
  rw [State.inHandler_eq_false hs] at hin
  have hok : (s.stopLanes w ls).lanesOk := State.lanesOk_modAll hs _ _
  rw [State.inHandler_eq_false hok]
  refine ⟨⟨fun l => ?_, ?_⟩, ?_⟩
  · rw [State.stopLanes_lane hs hw]
    split
    · exact hin l
    · exact hin l
  · rw [State.stopLanes_warp, State.stopLanes, State.modAll_rest]
    exact hhalt
  · rw [State.stopLanes_warp]
    exact hdbg

theorem State.stopLanes_handlerAt (s : State) (w : Nat) (ls : List Nat) (code : Nat) :
    (s.stopLanes w ls).handlerAt w code = s.handlerAt w code := by
  unfold State.handlerAt
  rw [State.stopLanes_warp, State.stopLanes, State.modAll_rest]
  rfl

end

/-- The trap that thread lanes take at their clause address. -/
def tableTrapOf (a : DWord) (tad : DWord) (ls : List Nat) : Trap :=
  { code := Cause.clause.code, tpc := a, tad := tad, tch := a, lanes := ls }

/-- Thread lanes of one warp leave the table and trap at their clause address. -/
theorem State.tableTrap_team {s : State} {w : Nat} {ls : List Nat} (hsome : ls ≠ []) (hs : s.lanesOk)
    (hw : (s.warps.get? w).isSome = true) (hfree : s.holdsTraps w = false) (hlive : ∀ l ∈ ls, (s.lane w l).life = .live)
    (a : DWord) (tad : Nat → DWord) :
    s.tableTrap (ls.map fun l => (w, l)) a .clause false tad =
      (s.stopLanes w ls).enterHandler w (tableTrapOf a (tad w) ls) := by
  have hws : ((ls.map fun l => (w, l)).map (·.1)).dedup = [w] := by
    have hmap : (ls.map fun l => (w, l)).map (·.1) = List.replicate ls.length w := by simp [Function.comp_def]
    rw [hmap]
    exact List.replicate_dedup (by simp [hsome])
  have hmine : ((ls.map fun l => (w, l)).filter (·.1 == w)).map (·.2) = ls := by
    rw [List.filter_eq_self.2 (by simp)]
    simp [Function.comp_def]
  have hthreads : ls.filter (fun l => s.isLive (w, l)) = ls :=
    List.filter_eq_self.2 fun l hl => by simp [State.isLive, hlive l hl]
  have hstop : ls.foldl (fun s l => s.modLane w l fun L => { L with entry := .trapped }) s = s.stopLanes w ls := by
    rw [State.stopLanes, State.modAll, List.foldl_map]
    rfl
  unfold State.tableTrap
  rw [hws, List.foldl_cons, List.foldl_nil]
  dsimp only
  rw [hmine, hthreads, hstop, if_neg hsome]
  exact State.takeTrap_of_free (State.stopLanes_free hs hw hfree ls) _

/-- Where the lanes of a trap stand depends on the handler's address alone. -/
theorem State.InHandler.congr {s s' t : State} {w l code : Nat} (h : s.InHandler t w l code)
    (heq : s.handlerAt w code = s'.handlerAt w code) : s'.InHandler t w l code := by
  obtain ⟨hhandler, hlive, hwent⟩ := h
  refine ⟨hhandler, hlive, ?_⟩
  change t.Went (w, l) (s'.handlerAt w code)
  rw [← heq]
  exact hwent

/-- TAD of lanes of one warp at a word that is no header: the transfer that led the lowest one there, or the word (R36). -/
theorem State.ledTad_team (s : State) (w : Nat) {ls : List Nat} (hsome : ls ≠ []) (x : Word) :
    s.ledTad (ls.map fun l => (w, l)) x w = ((s.lane w (ls.headD 0)).led).getD (x.setWidth 64) := by
  obtain ⟨l, ls, rfl⟩ := List.exists_cons_of_ne_nil hsome
  unfold State.ledTad
  rw [List.filter_eq_self.2 (by simp), List.map_cons, List.map_cons, List.headD_cons]
  cases (s.lane w l).led with
  | none => rfl
  | some a => rfl

/-- A sub-core that finds no header at a clause start has the lanes of its group trap there. -/
theorem State.startClause_noHeader {s s1 : State} {core sub b : Nat} {a : DWord} {hd : Bool} {ls : List (Nat × Nat)} {x : Word}
    (hform : s.formation core sub = some (b, a, hd, ls))
    (hfetch : s.fetch core (s.block b).ctx (s.oldCode ls) a 1 = (s1, .words [x]))
    (hx : isHeader x = true → decodeHeader x = none) :
    s.startClause core sub =
      .next (s1.tableTrap ls a .clause false fun w => if isHeader x then x.setWidth 64 else s1.ledTad ls x w) := by
  by_cases hh : isHeader x = true
  · simp only [State.startClause, hform, hfetch, List.headD_cons, hh, hx hh, Bool.not_true, Bool.false_eq_true, if_false, if_true]
  · rw [Bool.not_eq_true] at hh
    simp only [State.startClause, hform, hfetch, List.headD_cons, hh, Bool.not_false, Bool.false_eq_true, if_false, if_true]

/-- A sub-core that finds a header, and the clause's words, starts the clause. -/
theorem State.startClause_header {s s1 s2 : State} {core sub b : Nat} {a : DWord} {hd : Bool} {ls : List (Nat × Nat)} {w : Word}
    {h : ClauseHdr} {ws : List Word} (hform : s.formation core sub = some (b, a, hd, ls))
    (hfetch : s.fetch core (s.block b).ctx (s.oldCode ls) a 1 = (s1, .words [w])) (hw : isHeader w = true)
    (hh : decodeHeader w = some h)
    (hfetch' : s1.fetch core (s.block b).ctx (s1.oldCode ls) (a + 4) (hdrLen h) = (s2, .words ws)) :
    s.startClause core sub = andThen (exec (.clauseHeader h) { s2 with focus := .sub core sub }) State.resting := by
  simp only [State.startClause, hform, hfetch, List.headD_cons, hw, hh, hfetch', Bool.not_true, Bool.false_eq_true, if_false]

/-- Settles O1: the four turns that a step may take, each by the lemma on it. -/
theorem stepRunsDecoded : Obligations.StepRunsDecoded := by
  refine ⟨?_, ?_, ?_, ?_⟩
  · intro s s' g gr i n hnext hg hmay hdecode
    rw [step_issue hnext hg hmay, State.issue, hdecode]
  · intro s s' s1 s2 core sub b a hd ls w h ws hnext hform hfetch hw hh hfetch'
    rw [step_form hnext hform, State.startClause_header hform hfetch hw hh hfetch']
  · intro s s' g gr w code ls hnext hg hmay hteam hfree hbad
    obtain ⟨c, rfl, hissue⟩ := State.issue_bad (s := s') (g := g) hbad
    have hcode : c.code = 1 ∨ c.code = 2 := hbad.imp And.right And.right
    have htrap := State.trapTaken_teamTraps hteam c ((gr.rest.headD 0).setWidth 64)
    refine ⟨{ s'.teamTraps g gr w ls c ((gr.rest.headD 0).setWidth 64) with focus := .none }, ?_, ?_, ?_, htrap.tpc, htrap.tch,
      htrap.tad, htrap.tlm, htrap.warp, fun l hl => ?_, htrap.others⟩
    · rw [step_issue hnext hg hmay, hissue, State.badWord_team hteam hg hfree]
      rfl
    · show (s'.teamTraps g gr w ls c _).mem = s'.mem
      have hother : c.code ≠ 0x15 ∧ c.code ≠ 0x16 := by omega
      rw [State.teamTraps, State.enterHandler_rest (x := gr.trap g c _ ls) hother]
      rfl
    · have hsmall : c.code % 256 = c.code := by omega
      rw [← hsmall]
      exact htrap.tcs.trans (Trap.tcs_plain rfl rfl rfl)
    · obtain ⟨hlive, -⟩ := hteam.run l hl
      exact htrap.enters l hl hlive
  · intro s s' s1 core sub b w a hd ls x hnext hform hfetch hx hok hfree hlive
    have hread : s'.CodeRead s1 := State.codeRead_fetch hfetch
    obtain ⟨hsome, -⟩ := State.formation_spec hform
    have hsome : ls ≠ [] := by simpa using hsome
    obtain ⟨l0, hl0⟩ := List.exists_mem_of_ne_nil _ hsome
    have hs1 : s1.lanesOk := hread.lanesOk hok.lanesOk
    have hw : (s1.warps.get? w).isSome = true := (hread.present w).trans
      (State.formation_present hok.1 hform (w, l0) (List.mem_map.2 ⟨l0, hl0, rfl⟩))
    have hlive1 : ∀ l ∈ ls, (s1.lane w l).life = .live := fun l hl => by rw [hread.lane]; exact hlive l hl
    have hstart := State.startClause_noHeader hform hfetch hx
    rw [State.tableTrap_team hsome hs1 hw ((hread.holdsTraps w).trans hfree) hlive1, State.ledTad_team s1 w hsome, hread.lane]
      at hstart
    have hok2 : (s1.stopLanes w ls).lanesOk := State.lanesOk_modAll hs1 _ _
    have hw2 : ((s1.stopLanes w ls).warps.get? w).isSome = true := (State.present_modAll _ _ _ w).trans hw
    generalize htad : (if isHeader x then x.setWidth 64 else ((s'.lane w (ls.headD 0)).led).getD (x.setWidth 64)) = tad at hstart ⊢
    have htrap := State.trapTaken_enterHandler hok2 hw2 (tableTrapOf a tad ls)
    refine ⟨_, ?_, htrap.tcs.trans (Trap.tcs_plain rfl rfl rfl), htrap.tpc, htrap.tad, htrap.tlm, fun l hl => ?_⟩
    · rw [step_form hnext hform, hstart]
      rfl
    · have hlive2 : ((s1.stopLanes w ls).lane w l).life = .live := by
        rw [State.stopLanes_lane hs1 hw, if_pos hl]
        exact hlive1 l hl
      obtain ⟨hin, -⟩ := htrap.enters l hl hlive2
      exact hin.congr ((State.stopLanes_handlerAt _ _ _ _).trans (hread.handlerAt w 2))

end Sys2Proof.Machine
end

section
/-! SUPPORT. What an instruction that computes each lane by itself may change of it: D's registers and the named predicates
(06_registers_arithmetic R131 to R147; 02_encoding R26). -/

namespace Sys2Proof.Machine

/-! ## Destinations -/

theorem Lane.keeps_trans {L M N : Lane} {vs : List Nat} {ps : List (Fin 8)} (h1 : L.keeps M vs ps) (h2 : M.keeps N vs ps) :
    L.keeps N vs ps := by
  obtain ⟨hrest1, hv1, hp1⟩ := h1
  obtain ⟨hrest2, hv2, hp2⟩ := h2
  exact ⟨by rw [hrest2, hrest1], fun r hr => (hv2 r hr).trans (hv1 r hr), fun n hn => (hp2 n hn).trans (hp1 n hn)⟩

theorem Lane.keeps_mono {L M : Lane} {vs vs' : List Nat} {ps ps' : List (Fin 8)} (h : L.keeps M vs ps) (hv : vs ⊆ vs')
    (hp : ps ⊆ ps') : L.keeps M vs' ps' := by
  obtain ⟨hrest, hkv, hkp⟩ := h
  exact ⟨hrest, fun r hr => hkv r fun hin => hr (hv hin), fun n hn => hkp n fun hin => hn (hp hin)⟩

theorem Lane.keeps_setV {L : Lane} (h : AMap.sorted L.v = true) (n : Nat) (x : Word) : L.keeps (L.setV n x) [n] [] :=
  ⟨rfl, fun _ hr => Lane.getV_setV_other h x (by simpa using hr), fun _ _ => rfl⟩

theorem getLsbD_putBit (x : BitVec 8) (n k : Fin 8) (b : Bool) :
    (putBit x n.val b).getLsbD k.val = if k = n then b else x.getLsbD k.val := by
  have hk := k.isLt
  have htwo : (BitVec.twoPow 8 n.val).getLsbD k.val = decide (k = n) := by
    rw [BitVec.getLsbD_twoPow]
    simp [Fin.ext_iff, eq_comm]
  unfold putBit
  cases b with
  | true =>
    rw [if_pos rfl, BitVec.getLsbD_or, htwo]
    by_cases h : k = n <;> simp [h]
  | false =>
    rw [if_neg (by simp), BitVec.getLsbD_and, BitVec.getLsbD_not, htwo]
    by_cases h : k = n <;> simp [h]

theorem Lane.getP_setP (L : Lane) (n k : Fin 8) (b : Bool) (h : n ≠ 7) :
    (L.setP n b).getP k = if k = n then b else L.getP k := by
  rw [Lane.setP, if_neg h]
  exact getLsbD_putBit L.p n k b

theorem Lane.setP_seven (L : Lane) (b : Bool) : L.setP 7 b = L := rfl

theorem Lane.keeps_setP (L : Lane) (n : Fin 8) (b : Bool) : L.keeps (L.setP n b) [] [n] := by
  by_cases h : n = 7
  · subst h
    exact L.keeps_refl _ _
  · refine ⟨by rw [Lane.setP, if_neg h], fun r _ => by rw [Lane.setP, if_neg h]; rfl, fun k hk => ?_⟩
    rw [Lane.getP_setP L n k b h, if_neg (by simpa using hk)]

theorem Lane.keeps_putD {L : Lane} (h : AMap.sorted L.v = true) (d : Dst) (x : Word) : L.keeps (L.putD d x) (dstV d 1) [] := by
  cases d with
  | v n => exact Lane.keeps_setV h n.val x
  | s n => exact L.keeps_refl _ _
  | p n => exact L.keeps_refl _ _
  | none => exact L.keeps_refl _ _

theorem Lane.keeps_putDW {L : Lane} (h : AMap.sorted L.v = true) (d : Dst) (w64 : Bool) (x : DWord) :
    L.keeps (L.putDW d w64 x) (dstV d (wd w64)) [] := by
  cases w64 with
  | true => exact Lane.keeps_putD64 h d x
  | false => exact Lane.keeps_putD h d _

theorem Lane.keeps_putT {L : Lane} (h : AMap.sorted L.v = true) (d : Dst) (b : Bool) :
    L.keeps (L.putT d b) (dstV d 1) (dstP d) := by
  cases d with
  | v n => exact Lane.keeps_setV h n.val _
  | s n => exact L.keeps_refl _ _
  | p n => exact L.keeps_setP n b
  | none => exact L.keeps_refl _ _

theorem Lane.keeps_putCarry (L : Lane) (m : IMod) (c : Bool) :
    L.keeps (L.putCarry m c) [] (if m.ce then [m.co] else []) := by
  unfold Lane.putCarry
  split
  · exact L.keeps_setP _ _
  · exact L.keeps_refl _ _

/-- Registers that are set to 0 one after the other. -/
theorem Lane.keeps_zeroV {L : Lane} (h : AMap.sorted L.v = true) (rs : List Nat) :
    L.keeps (rs.foldl (fun l r => l.setV r 0) L) rs [] := by
  refine (List.foldlRecOn (motive := fun M : Lane => AMap.sorted M.v = true ∧ L.keeps M rs []) rs _ ⟨h, L.keeps_refl _ _⟩
    fun M hM r hr => ?_).2
  obtain ⟨hs, hk⟩ := hM
  exact ⟨Lane.sorted_setV hs r 0,
    Lane.keeps_trans hk (Lane.keeps_mono (Lane.keeps_setV hs r 0) (List.cons_subset.2 ⟨hr, List.nil_subset _⟩) (List.nil_subset _))⟩

theorem Lane.keeps_zeroD {L : Lane} (h : AMap.sorted L.v = true) (d : Dst) (width : Nat) :
    L.keeps (L.zeroD d width) (dstV d width) (dstP d) := by
  cases d with
  | v n => exact Lane.keeps_zeroV h _
  | s n => exact L.keeps_refl _ _
  | p n => exact L.keeps_setP n false
  | none => exact L.keeps_refl _ _

/-! ## Forms that compute each lane by itself -/

/-- An instruction's meaning computes each lane by itself, and changes D's registers and these predicates only. -/
structure LaneEffect (e : State → Out) (o : Ops) (wds : Widths) (ps : List (Fin 8)) (f : Warp → Nat → Lane → Lane) : Prop where
  exec : ∀ s, e s = lanewise s o wds f
  keeps : ∀ (W : Warp) (l : Nat) (L : Lane), AMap.sorted L.v = true →
    L.keeps (f W l L) (dstV o.d wds.d) (dstP o.d ++ ps)

section
variable {e : State → Out} {o : Ops} {wds : Widths}

theorem laneEffect_putD {v : Warp → Nat → Lane → Word} (hd : wds.d = 1)
    (h : ∀ s, e s = lanewise s o wds fun W l L => L.putD o.d (v W l L)) :
    LaneEffect e o wds [] fun W l L => L.putD o.d (v W l L) where
  exec := h
  keeps _ _ _ hs := by
    rw [hd]
    exact Lane.keeps_mono (Lane.keeps_putD hs _ _) (List.Subset.refl _) (List.nil_subset _)

theorem laneEffect_putD64 {v : Warp → Nat → Lane → DWord} (hd : wds.d = 2)
    (h : ∀ s, e s = lanewise s o wds fun W l L => L.putD64 o.d (v W l L)) :
    LaneEffect e o wds [] fun W l L => L.putD64 o.d (v W l L) where
  exec := h
  keeps _ _ _ hs := by
    rw [hd]
    exact Lane.keeps_mono (Lane.keeps_putD64 hs _ _) (List.Subset.refl _) (List.nil_subset _)

theorem laneEffect_putDW {w64 : Bool} {v : Warp → Nat → Lane → DWord} (hd : wds.d = wd w64)
    (h : ∀ s, e s = lanewise s o wds fun W l L => L.putDW o.d w64 (v W l L)) :
    LaneEffect e o wds [] fun W l L => L.putDW o.d w64 (v W l L) where
  exec := h
  keeps _ _ _ hs := by
    rw [hd]
    exact Lane.keeps_mono (Lane.keeps_putDW hs _ _ _) (List.Subset.refl _) (List.nil_subset _)

theorem laneEffect_putT {v : Warp → Nat → Lane → Bool} (hd : wds.d = 1)
    (h : ∀ s, e s = lanewise s o wds fun W l L => L.putT o.d (v W l L)) :
    LaneEffect e o wds [] fun W l L => L.putT o.d (v W l L) where
  exec := h
  keeps _ _ _ hs := by
    rw [hd, List.append_nil]
    exact Lane.keeps_putT hs _ _

/-- An I form: D, and the carry where CE asks for it. -/
theorem laneEffect_intForm {m : IMod} {ps : List (Fin 8)} {f : Lane → DWord → DWord → DWord × Bool}
    (h : ∀ s, e s = intForm o m ps f s) :
    ∃ g, LaneEffect e o ⟨wd m.w64, wd m.w64, wd m.w64, 1, false, ps⟩ (if m.ce then [m.co] else []) g := by
  refine ⟨_, h, fun W l L hs => ?_⟩
  exact Lane.keeps_trans
    (Lane.keeps_mono (Lane.keeps_putDW hs _ _ _) (List.Subset.refl _) (List.nil_subset _))
    (Lane.keeps_mono (Lane.keeps_putCarry _ _ _) (List.nil_subset _) (List.subset_append_right _ _))

/-- A shift: D alone. -/
theorem laneEffect_shForm {w64 : Bool} {f32 : Word → Nat → Word} {f64 : DWord → Nat → DWord}
    (h : ∀ s, e s = shForm o w64 f32 f64 s) : ∃ g, LaneEffect e o ⟨wd w64, wd w64, 1, 1, false, []⟩ [] g := by
  refine ⟨_, h, fun W l L hs => ?_⟩
  refine Lane.keeps_mono (vs := dstV o.d (wd w64)) (ps := []) ?_ (List.Subset.refl _) (List.nil_subset _)
  cases w64 with
  | true => exact Lane.keeps_putD64 hs _ _
  | false => exact Lane.keeps_putD hs _ _

end

/-- F.CLS: a v register, or a predicate. -/
theorem laneEffect_fCls (o : Ops) : ∃ g, LaneEffect (execFCls o) o {} [] g := by
  refine ⟨_, fun _ => rfl, fun W l L hs => ?_⟩
  rw [List.append_nil]
  obtain ⟨d, a, b, c, pr⟩ := o
  cases d with
  | v n => exact Lane.keeps_mono (Lane.keeps_putD hs _ _) (List.Subset.refl _) (List.nil_subset _)
  | s n => exact L.keeps_refl _ _
  | p n => exact L.keeps_setP n _
  | none => exact L.keeps_refl _ _

/-- A register of a run of registers is written. -/
theorem Lane.keeps_setV_span {L M : Lane} {n w k : Nat} (hM : AMap.sorted M.v = true) (h : L.keeps M (span n w) []) (hk : k < w)
    (x : Word) : L.keeps (M.setV (n + k) x) (span n w) [] := by
  have hin : [n + k] ⊆ span n w := by
    intro r hr
    rw [List.mem_singleton.1 hr]
    exact List.mem_map.2 ⟨k, by simpa using hk, rfl⟩
  exact Lane.keeps_trans h (Lane.keeps_mono (Lane.keeps_setV hM _ x) hin (List.Subset.refl _))

theorem Lane.keeps_setV_four {L : Lane} (h : AMap.sorted L.v = true) (n : Nat) (x y z u : Word) :
    L.keeps ((((L.setV n x).setV (n + 1) y).setV (n + 2) z).setV (n + 3) u) (span n 4) [] := by
  have h0 := Lane.sorted_setV h n x
  have h1 := Lane.sorted_setV h0 (n + 1) y
  have h2 := Lane.sorted_setV h1 (n + 2) z
  have k0 := Lane.keeps_setV_span (k := 0) h (L.keeps_refl (span n 4) []) (by omega) x
  have k1 := Lane.keeps_setV_span (k := 1) h0 k0 (by omega) y
  have k2 := Lane.keeps_setV_span (k := 2) h1 k1 (by omega) z
  exact Lane.keeps_setV_span (k := 3) h2 k2 (by omega) u

/-- M.SPC: four v registers. -/
theorem laneEffect_mSpc (o : Ops) (fmt : Fmt) : ∃ g, LaneEffect (execMSpc o fmt) o ⟨4, 4, 1, 1, false, []⟩ [] g := by
  refine ⟨_, fun _ => rfl, fun W l L hs => ?_⟩
  refine Lane.keeps_mono (vs := dstV o.d 4) (ps := []) ?_ (List.Subset.refl _) (List.nil_subset _)
  obtain ⟨d, a, b, c, pr⟩ := o
  cases d with
  | v n =>
    dsimp only
    generalize compress fmt L (vBase a) = r
    rw [Lane.setV64]
    exact Lane.keeps_setV_four hs n.val _ _ _ _
  | s n => exact L.keeps_refl _ _
  | p n => exact L.keeps_refl _ _
  | none => exact L.keeps_refl _ _

/-- Every form of lane arithmetic, by the shape of what it computes in a lane. -/
theorem laneForm_effect {i : Instr} {o : Ops} {wds : Widths} {ps : List (Fin 8)} (h : laneForm i = some (o, wds, ps)) :
    ∃ f, LaneEffect (fun s => exec i s) o wds ps f := by
  cases i with
  | iAdd o m | iSub o m | iNeg o m | iAbs o m | iMin o m | iMax o m | iAddc o m | iSubb o m =>
    cases h
    dsimp only [exec]
    exact laneEffect_intForm fun _ => rfl
  | shShl o w64 | shRot o w64 =>
    cases h
    dsimp only [exec]
    exact laneEffect_shForm fun _ => rfl
  | shShr o w64 arith =>
    cases h
    dsimp only [exec]
    cases arith with
    | true => exact laneEffect_shForm fun _ => rfl
    | false => exact laneEffect_shForm fun _ => rfl
  | iSad o m | imMad o p m | shFun o m | bfExt o m | bfIns o | bfPopc o | bfClz o | bfBrev o | bfFfs o | mvPrm o | fAdd o m
  | fSub o m | fMul o m | fFma o m | fMin o m | fMax o m | fhAdd2 o m | fhMul2 o m | fhFma2 o m | fhMin2 o m | fhMax2 o m
  | sfRcp o m | sfRsq o m | sfSqrt o m | sfExp2 o m | sfLog2 o m | sfSin o m | sfCos o m | sfTanh o m | pkUnp o p m
  | pkScl o m | dotI8x4 o m | dotI4x8 o m | dotE4m3x4 o m | dotE5m2x4 o m | dotE2m1x8 o m | pkCvt o m =>
    cases h
    dsimp only [exec]
    exact ⟨_, laneEffect_putD rfl fun _ => rfl⟩
  | imMadw o u | mvLea o sh u | dAdd o m | dMul o m | dFma o m | dMin o m | dMax o m | pkPl6 o j =>
    cases h
    dsimp only [exec]
    exact ⟨_, laneEffect_putD64 rfl fun _ => rfl⟩
  | imMul o p u | logAnd o w | logOr o w | logXor o w | logAndn o w | logNot o w | mvSel o p n w | mvMov o w | cvI2f o m a b
  | cvF2i o m a b | cvF2f o m a b | cvI2i o w a b =>
    cases h
    dsimp only [exec]
    exact ⟨_, laneEffect_putDW rfl fun _ => rfl⟩
  | prLog o a b c | cmpI o c w k | cmpF o c z k | cmpD o c z k =>
    cases h
    dsimp only [exec]
    exact ⟨_, laneEffect_putT rfl fun _ => rfl⟩
  | fCls o =>
    cases h
    dsimp only [exec]
    exact laneEffect_fCls o
  | mSpc o fmt =>
    cases h
    dsimp only [exec]
    exact laneEffect_mSpc o fmt
  | _ => cases h

end Sys2Proof.Machine
end

section
/-! SUPPORT. Values of lane forms: integer and FP32 operands as the statements read them (04_number_formats R73, R74;
06_registers_arithmetic R85, R138, R141, R142, R146). -/

namespace Sys2Proof.Machine

/-! ## Integer operands -/

theorem uval_srcW (m : IMod) (W : Warp) (L : Lane) (x : Src) : uval m.w64 (srcW m.w64 W L x) = intPat m W L x := by
  unfold uval intPat srcW lo32
  cases m.w64 with
  | true => rfl
  | false =>
    have hlt := (src32 W L x).isLt
    simp only [Bool.false_eq_true, if_false, BitVec.extractLsb'_toNat, BitVec.toNat_setWidth, Nat.shiftRight_zero]
    omega

theorem sval_srcW (m : IMod) (W : Warp) (L : Lane) (x : Src) : sval m.w64 (srcW m.w64 W L x) = intSgn m W L x := by
  unfold sval intSgn intPat intW srcW lo32
  cases m.w64 with
  | true =>
    simp only [if_true, BitVec.toInt_eq_toNat_cond]
    split <;> split <;> omega
  | false =>
    have hlt := (src32 W L x).isLt
    have hnat : ((src32 W L x).setWidth 64).toNat = (src32 W L x).toNat := by
      rw [BitVec.toNat_setWidth]
      omega
    have hset : ((src32 W L x).setWidth 64).extractLsb' 0 32 = src32 W L x := by
      apply BitVec.eq_of_toNat_eq
      rw [BitVec.extractLsb'_toNat, hnat, Nat.shiftRight_zero]
      omega
    simp only [Bool.false_eq_true, if_false, BitVec.toInt_eq_toNat_cond, hset, hnat]
    split <;> split <;> omega

/-- A condition of CMP.I on two operands, as numbers. -/
theorem icond_srcW (c : ICond) (m : Bool → IMod) (hu : ∀ u, (m u).u = u) {w64 : Bool} (hw : ∀ u, (m u).w64 = w64) (W : Warp)
    (L : Lane) (x y : Src) :
    icond c (sval w64 (srcW w64 W L x)) (sval w64 (srcW w64 W L y)) (uval w64 (srcW w64 W L x)) (uval w64 (srcW w64 W L y)) =
      match c with
      | .eq => decide (intNum (m true) W L x = intNum (m true) W L y)
      | .ne => decide (intNum (m true) W L x ≠ intNum (m true) W L y)
      | .lt => decide (intNum (m false) W L x < intNum (m false) W L y)
      | .le => decide (intNum (m false) W L x ≤ intNum (m false) W L y)
      | .gt => decide (intNum (m false) W L x > intNum (m false) W L y)
      | .ge => decide (intNum (m false) W L x ≥ intNum (m false) W L y)
      | .ltu => decide (intNum (m true) W L x < intNum (m true) W L y)
      | .leu => decide (intNum (m true) W L x ≤ intNum (m true) W L y)
      | .gtu => decide (intNum (m true) W L x > intNum (m true) W L y)
      | .geu => decide (intNum (m true) W L x ≥ intNum (m true) W L y) := by
  have hpat (z : Src) : intNum (m true) W L z = (uval w64 (srcW w64 W L z) : Int) := by
    rw [intNum, hu, if_pos rfl, ← hw true, uval_srcW]
  have hsgn (z : Src) : intNum (m false) W L z = sval w64 (srcW w64 W L z) := by
    rw [intNum, hu, if_neg (by simp), ← hw false, sval_srcW]
  simp only [hpat, hsgn]
  cases c with
  | eq | ne => simp [icond, beq_eq_decide, bne]
  | lt | le | gt | ge => rfl
  | ltu | leu | gtu | geu => simp [icond]

/-- COMB, R138. -/
theorem combine_eq (L : Lane) (k : Comb) (x : Bool) :
    L.combine k x =
      let y : Bool := if k.cn then !L.getP k.cp else L.getP k.cp
      match k.op with
      | .none => x
      | .and => x && y
      | .or => x || y
      | .xor => x != y := by
  have hy : (L.getP k.cp != k.cn) = if k.cn then !L.getP k.cp else L.getP k.cp := by
    cases k.cn <;> cases L.getP k.cp <;> rfl
  unfold Lane.combine
  cases k.op <;> rw [hy] <;> rfl

theorem sext_eq (n b : Nat) :
    sext n b = if 2 ^ (n - 1) ≤ b % 2 ^ n then ((b % 2 ^ n : Nat) : Int) - 2 ^ n else ((b % 2 ^ n : Nat) : Int) := by
  unfold sext
  by_cases h : b % 2 ^ n < 2 ^ (n - 1)
  · rw [if_pos h, if_neg (by omega)]
    push_cast
    rfl
  · rw [if_neg h, if_pos (by omega)]
    push_cast
    rfl

theorem tyVal_eq (t : ITy) (x : DWord) : tyVal t x = intOfType t x := by
  unfold tyVal intOfType
  cases t with
  | s8 | s16 | s32 | s64 => simp [tySigned, tyBits, sext_eq]
  | u8 | u16 | u32 | u64 => simp [tySigned, tyBits]

theorem tyLo_eq (t : ITy) : tyLo t = leastOf t := by cases t <;> rfl
theorem tyHi_eq (t : ITy) : tyHi t = mostOf t := by cases t <;> rfl

theorem leastOf_le_mostOf (t : ITy) : leastOf t ≤ mostOf t := by cases t <;> decide

theorem clampInt_eq {lo hi : Int} (h : lo ≤ hi) (x : Int) :
    clampInt lo hi x = if x < lo then lo else if hi < x then hi else x := by
  unfold clampInt
  split
  · omega
  · split <;> omega

/-- An element of DOT.I8X4. -/
theorem dotElem_eq (u : Bool) (x : Word) (j : Nat) :
    (if u then ((elemBits .i8 x j : Nat) : Int) else sext (fmtBits .i8) (elemBits .i8 x j)) =
      intOfType (if u then .u8 else .s8) (BitVec.ofNat 64 (x.toNat / 256 ^ j)) := by
  have hpow : 2 ^ (8 * j) = 256 ^ j := by rw [pow_mul]; norm_num
  have hbits : elemBits .i8 x j = x.toNat / 256 ^ j % 2 ^ 8 := by rw [← hpow]; rfl
  rw [hbits]
  generalize x.toNat / 256 ^ j = n
  cases u with
  | true =>
    simp only [if_true, intOfType, BitVec.toNat_ofNat, reduceCtorEq, false_or, false_and, if_false]
    omega
  | false =>
    simp [intOfType, BitVec.toNat_ofNat, sext_eq, fmtBits]

theorem dotVal_i8 {m : DotMod} (hsc : m.sc = false) (hsat : m.sat = false) (d a b c : Word) :
    dotVal .i8 m d a b c = BitVec.ofInt 32 (c.toInt + ((List.range 4).map fun j =>
      intOfType (if m.ua then .u8 else .s8) (BitVec.ofNat 64 (a.toNat / 256 ^ j)) *
        intOfType (if m.ub then .u8 else .s8) (BitVec.ofNat 64 (b.toNat / 256 ^ j))).sum) := by
  have hsum : dotInt .i8 m a b = ((List.range 4).map fun j =>
      intOfType (if m.ua then .u8 else .s8) (BitVec.ofNat 64 (a.toNat / 256 ^ j)) *
        intOfType (if m.ub then .u8 else .s8) (BitVec.ofNat 64 (b.toNat / 256 ^ j))).sum := by
    simp only [← dotElem_eq]
    rfl
  rw [← hsum]
  simp [dotVal, fmtF, hsc, hsat]

/-! ## FP32 operands -/

/-- An FP32 operand as an F form takes it. -/
def fpVal (fz neg : Bool) (x : Word) : FVal := (fp32.read fz x.toNat).neg neg

/-- A pattern with its sign flipped where the operand is negated. -/
def fpFlip (neg : Bool) (x : Word) : Word := if neg then x ^^^ 0x80000000 else x

theorem FVal.neg_false (v : FVal) : v.neg false = v := by
  cases v with
  | nan => rfl
  | inf n => simp [FVal.neg]
  | fin n m e => simp [FVal.neg]

theorem fpVal_eq (fz neg : Bool) (x : Word) : fpVal fz neg x = fp32.read fz (fpFlip neg x).toNat := by
  unfold fpVal fpFlip
  cases neg with
  | true => exact read32_neg fz x
  | false => exact FVal.neg_false _

theorem and_signBit (n : Nat) (h : n < 4294967296) : n &&& 2147483648 = n - mag32 n := by
  have hand := Nat.and_two_pow n 31
  have hpow : (2 : Nat) ^ 31 = 2147483648 := by norm_num
  rw [Nat.testBit_eq_decide_div_mod_eq, hpow] at hand
  rw [hand]
  unfold mag32
  by_cases hs : n / 2147483648 % 2 = 1
  · rw [decide_eq_true hs, Bool.toNat_true]
    omega
  · rw [decide_eq_false hs, Bool.toNat_false, Nat.zero_mul]
    omega

/-- The operand's pattern under FZ. -/
theorem fpArg_toNat (fz neg : Bool) (x : Word) : (fpArg fz neg x).toNat = flush32 fz (fpFlip neg x).toNat := by
  have hlt := (fpFlip neg x).isLt
  change (if fz = true ∧ mag32 (fpFlip neg x).toNat < 8388608 then fpFlip neg x &&& 0x80000000 else fpFlip neg x).toNat = _
  unfold flush32
  split
  · rw [BitVec.toNat_and]
    exact and_signBit _ hlt
  · rfl

section
variable (fz neg : Bool) (x : Word)

theorem fpNan_iff : fpNan (fpArg fz neg x) ↔ 0x7F800000 < mag32 (fpFlip neg x).toNat := by
  change 0x7F800000 < mag32 (fpArg fz neg x).toNat ↔ _
  rw [fpArg_toNat, flush32_mag]
  split <;> omega

theorem isNan_fpVal : (fpVal fz neg x).isNan = true ↔ fpNan (fpArg fz neg x) := by
  rw [fpVal_eq, read32_isNan, decide_eq_true_iff, fpNan_iff]

theorem isNeg_fpVal (h : ¬fpNan (fpArg fz neg x)) : (fpVal fz neg x).isNeg = decide (2147483648 ≤ (fpArg fz neg x).toNat) := by
  rw [fpNan_iff, not_lt] at h
  have hlt := (fpFlip neg x).isLt
  have hsign : decide (2147483648 ≤ (fpArg fz neg x).toNat) = ((fpFlip neg x).toNat / 2147483648 % 2 == 1) := by
    have hs := flush32_sign (fz := fz) (n := (fpFlip neg x).toNat)
    have hl : (fpArg fz neg x).toNat < 4294967296 := (fpArg fz neg x).isLt
    rw [fpArg_toNat] at hl ⊢
    rw [beq_eq_decide, decide_eq_decide, ← hs]
    omega
  rw [hsign, fpVal_eq]
  rcases Nat.lt_or_eq_of_le h with h | h
  · rw [read32_fin fz h]
    rfl
  · rw [read32_inf fz h]
    rfl

theorem fpRank_eq : fpRank (fpArg fz neg x) = rank32 (flush32 fz (fpFlip neg x).toNat) := by
  have hl : (fpArg fz neg x).toNat < 4294967296 := (fpArg fz neg x).isLt
  rw [← fpArg_toNat]
  unfold fpRank rank32 mag32
  norm_num
  omega

/-- A number that is no NaN goes back to its pattern. -/
theorem put_fpVal {c : RCtl} (hc : c.fz = fz) (hs : c.sat = false) (h : ¬fpNan (fpArg fz neg x)) :
    w32 (fp32.put c (fpVal fz neg x)) = fpArg fz neg x := by
  rw [fpNan_iff, not_lt] at h
  apply BitVec.eq_of_toNat_eq
  have hl : (fpArg fz neg x).toNat < 4294967296 := (fpArg fz neg x).isLt
  subst hc
  rw [fpVal_eq, put32_read c (fpFlip neg x).isLt h hs, ← fpArg_toNat, w32, BitVec.toNat_ofNat]
  exact Nat.mod_eq_of_lt hl

end

section
variable {fz neg neg' : Bool} {x y : Word} (hx : ¬fpNan (fpArg fz neg x)) (hy : ¬fpNan (fpArg fz neg' y))
include hx hy

theorem lt_fpVal : (fpVal fz neg x).lt (fpVal fz neg' y) = decide (fpRank (fpArg fz neg x) < fpRank (fpArg fz neg' y)) := by
  rw [fpNan_iff, not_lt] at hx hy
  rw [fpVal_eq, fpVal_eq, fpRank_eq, fpRank_eq]
  exact read32_lt fz (fpFlip neg x).isLt (fpFlip neg' y).isLt hx hy

theorem eqv_fpVal : (fpVal fz neg x).eqv (fpVal fz neg' y) = decide (fpRank (fpArg fz neg x) = fpRank (fpArg fz neg' y)) := by
  have hnx : (fpVal fz neg x).isNan = false := by rw [← Bool.not_eq_true, isNan_fpVal]; exact hx
  have hny : (fpVal fz neg' y).isNan = false := by rw [← Bool.not_eq_true, isNan_fpVal]; exact hy
  rw [FVal.eqv, hnx, hny, lt_fpVal hx hy, lt_fpVal hy hx, Bool.eq_iff_iff]
  simp only [Bool.not_false, Bool.true_and, Bool.and_eq_true, Bool.not_eq_true', decide_eq_false_iff_not, decide_eq_true_eq]
  omega

/-- Below, with -0 below +0 (R142). -/
theorem below_fpVal : (fpVal fz neg x).below (fpVal fz neg' y) = true ↔ fpBelow (fpArg fz neg x) (fpArg fz neg' y) := by
  unfold FVal.below fpBelow
  rw [lt_fpVal hx hy, eqv_fpVal hx hy, isNeg_fpVal fz neg x hx, isNeg_fpVal fz neg' y hy]
  simp only [Bool.or_eq_true, Bool.and_eq_true, Bool.not_eq_true', decide_eq_true_eq, decide_eq_false_iff_not, not_le]
  refine or_congr_right ?_
  rw [← BitVec.toNat_inj, ← BitVec.toNat_inj]
  have hlx : (fpArg fz neg x).toNat < 4294967296 := (fpArg fz neg x).isLt
  have hly : (fpArg fz neg' y).toNat < 4294967296 := (fpArg fz neg' y).isLt
  unfold fpRank
  generalize (fpArg fz neg x).toNat = a at hlx ⊢
  generalize (fpArg fz neg' y).toNat = b at hly ⊢
  change (_ ∧ _) ∧ _ ↔ a = 2147483648 ∧ b = 0
  norm_num
  split <;> split <;> omega

end

/-- A condition of CMP.F on two operands. -/
theorem fcond_fpVal (c : FCond) (fz neg neg' : Bool) (x y : Word) :
    (fpNan (fpArg fz neg x) ∨ fpNan (fpArg fz neg' y) →
      fcond c (fpVal fz neg x) (fpVal fz neg' y) = decide (c ∈ [.equ, .neu, .ltu, .leu, .gtu, .geu, .nan])) ∧
    (¬fpNan (fpArg fz neg x) → ¬fpNan (fpArg fz neg' y) →
      (fcond c (fpVal fz neg x) (fpVal fz neg' y) = true ↔ match c with
        | .eq | .equ => fpRank (fpArg fz neg x) = fpRank (fpArg fz neg' y)
        | .ne | .neu => fpRank (fpArg fz neg x) ≠ fpRank (fpArg fz neg' y)
        | .lt | .ltu => fpRank (fpArg fz neg x) < fpRank (fpArg fz neg' y)
        | .le | .leu => fpRank (fpArg fz neg x) ≤ fpRank (fpArg fz neg' y)
        | .gt | .gtu => fpRank (fpArg fz neg x) > fpRank (fpArg fz neg' y)
        | .ge | .geu => fpRank (fpArg fz neg x) ≥ fpRank (fpArg fz neg' y)
        | .num => True
        | .nan => False)) := by
  refine ⟨fun h => ?_, fun hx hy => ?_⟩
  · have hun : ((fpVal fz neg x).isNan || (fpVal fz neg' y).isNan) = true := by
      rw [Bool.or_eq_true, isNan_fpVal, isNan_fpVal]
      exact h
    have hlt : (fpVal fz neg x).lt (fpVal fz neg' y) = false ∧ (fpVal fz neg' y).lt (fpVal fz neg x) = false ∧
        (fpVal fz neg x).eqv (fpVal fz neg' y) = false := by
      unfold FVal.eqv
      generalize fpVal fz neg x = a at hun ⊢
      generalize fpVal fz neg' y = b at hun ⊢
      cases a <;> cases b <;> simp_all [FVal.lt, FVal.isNan]
    obtain ⟨hlt, hgt, heq⟩ := hlt
    simp only [fcond, hun, hlt, hgt, heq]
    cases c <;> rfl
  · have hnx : (fpVal fz neg x).isNan = false := by rw [← Bool.not_eq_true, isNan_fpVal]; exact hx
    have hny : (fpVal fz neg' y).isNan = false := by rw [← Bool.not_eq_true, isNan_fpVal]; exact hy
    simp only [fcond, hnx, hny, lt_fpVal hx hy, lt_fpVal hy hx, eqv_fpVal hx hy]
    cases c <;> simp

/-! ## F.MIN, F.MAX and F.CLS -/

/-- F.MIN and F.MAX on patterns: the other operand where one is NaN, else the operand that R142 chooses. -/
theorem fminmax_fpVal {c : RCtl} (hs : c.sat = false) (isMax neg neg' : Bool) (a b : Word) :
    let x := fpArg c.fz neg a
    let y := fpArg c.fz neg' b
    let r := w32 (fminmax fp32 c isMax (fpVal c.fz neg a) (fpVal c.fz neg' b))
    (fpNan x → fpNan y → r = 0x7FC00000) ∧ (fpNan x → ¬fpNan y → r = y) ∧ (¬fpNan x → fpNan y → r = x) ∧
      (¬fpNan x → ¬fpNan y → ((if isMax then fpBelow x y else fpBelow y x) → r = y) ∧
        (¬(if isMax then fpBelow x y else fpBelow y x) → r = x)) := by
  intro x y r
  have hx (h : ¬fpNan x) : w32 (fp32.put c (fpVal c.fz neg a)) = x := put_fpVal c.fz neg a rfl hs h
  have hy (h : ¬fpNan y) : w32 (fp32.put c (fpVal c.fz neg' b)) = y := put_fpVal c.fz neg' b rfl hs h
  have nan {n : Bool} {z : Word} (h : fpNan (fpArg c.fz n z)) : (fpVal c.fz n z).isNan = true := (isNan_fpVal _ _ _).2 h
  have num {n : Bool} {z : Word} (h : ¬fpNan (fpArg c.fz n z)) : (fpVal c.fz n z).isNan = false := by
    rw [← Bool.not_eq_true, isNan_fpVal]
    exact h
  refine ⟨fun h1 h2 => ?_, fun h1 h2 => ?_, fun h1 h2 => ?_, fun h1 h2 => ?_⟩
  · simp only [r, fminmax, nan h1, nan h2]
    rfl
  · simp only [r, fminmax, nan h1, num h2]
    exact hy h2
  · simp only [r, fminmax, num h1, nan h2]
    exact hx h1
  · simp only [r, fminmax, num h1, num h2]
    cases isMax with
    | true =>
      refine ⟨fun h => ?_, fun h => ?_⟩
      · rw [if_pos rfl] at h
        rw [if_pos rfl, if_pos ((below_fpVal h1 h2).2 h), hy h2]
      · rw [if_pos rfl] at h
        rw [if_pos rfl, if_neg fun hb => h ((below_fpVal h1 h2).1 hb), hx h1]
    | false =>
      refine ⟨fun h => ?_, fun h => ?_⟩
      · rw [if_neg (by simp)] at h
        rw [if_neg (by simp), if_pos ((below_fpVal h2 h1).2 h), hy h2]
      · rw [if_neg (by simp)] at h
        rw [if_neg (by simp), if_neg fun hb => h ((below_fpVal h2 h1).1 hb), hx h1]

/-- The class of an operand, by its magnitude and its sign. -/
theorem fclass_eq (x : Word) :
    fclass x =
      let mag := x.toNat % 2 ^ 31
      let neg := decide (2 ^ 31 ≤ x.toNat)
      if 0x7F800000 < mag then (if x.getLsbD 22 then 9 else 8)
      else if mag = 0x7F800000 then (if neg then 0 else 7)
      else if mag = 0 then (if neg then 3 else 4)
      else if mag < 2 ^ 23 then (if neg then 2 else 5)
      else (if neg then 1 else 6) := by
  extract_lets mag neg
  have hlt : x.toNat < 4294967296 := x.isLt
  have hmag : mag32 x.toNat = mag := rfl
  have hneg : (x.toNat / 2147483648 % 2 == 1) = neg := by
    rw [beq_eq_decide, decide_eq_decide]
    omega
  unfold fclass
  rcases lt_trichotomy mag 0x7F800000 with h | h | h
  · have hnan : ¬0x7F800000 < mag := by omega
    have hinf : mag ≠ 0x7F800000 := by omega
    rw [dec32_fin h, if_neg hnan, if_neg hinf, hneg, hmag]
    by_cases hlow : mag < 8388608
    · obtain ⟨hn, -⟩ := num32_low hlow
      simp only [hn]
    · obtain ⟨hn, -⟩ := num32_high (by omega : 8388608 ≤ mag)
      have h0 : num32 mag ≠ 0 := by omega
      have h1 : ¬num32 mag < 2 ^ 23 := by omega
      have h2 : mag ≠ 0 := by omega
      have h3 : ¬mag < 2 ^ 23 := hlow
      simp only [h0, h1, h2, h3, if_false]
  · have hnan : ¬0x7F800000 < mag := by omega
    rw [dec32_inf h, if_neg hnan, if_pos h, hneg]
    cases neg <;> rfl
  · rw [dec32_nan h, if_pos h]

end Sys2Proof.Machine
end

section
/-! PROOFS. O11: lane arithmetic completes, with its frame and the values of some forms. -/

namespace Sys2Proof.Machine

/-- A form that computes each lane by itself gives each executing lane what it computes. -/
theorem LaneEffect.exec_lanes {e : State → Out} {o : Ops} {wds : Widths} {ps : List (Fin 8)} {f : Warp → Nat → Lane → Lane}
    (h : LaneEffect e o wds ps f) {s : State} {g : Nat} {gr : Group} (hr : s.Ready g gr o wds) :
    e s = .next (s.lanes g gr o wds f) :=
  (h.exec s).trans (lanewise_ready hr f)

/-- A lane keeps all but D and the named predicates also where it reads a bad register (R103). -/
theorem LaneEffect.keeps_ifGood {e : State → Out} {o : Ops} {wds : Widths} {ps : List (Fin 8)} {f : Warp → Nat → Lane → Lane}
    (h : LaneEffect e o wds ps f) (W : Warp) (l : Nat) {L : Lane} (hs : AMap.sorted L.v = true) :
    L.keeps (ifGood o wds f W l L) (dstV o.d wds.d) (dstP o.d ++ ps) := by
  unfold ifGood
  split
  · exact h.keeps W l L hs
  · exact Lane.keeps_mono (Lane.keeps_zeroD hs _ _) (List.Subset.refl _) (List.subset_append_left _ _)

theorem State.onlyThreads_lanes (s : State) (g : Nat) (gr : Group) (o : Ops) (wds : Widths) (f : Warp → Nat → Lane → Lane) :
    s.onlyThreads (s.lanes g gr o wds f) :=
  State.onlyThreads_trans (s.onlyThreads_modGroup g _)
    (State.onlyThreads_trans (State.onlyThreads_eachLane _ _ _) (State.onlyThreads_retire _ _ _))

section
variable {o : Ops} {s : State} {g : Nat} {gr : Group}

/-- The result of CMP.I. -/
theorem exec_cmpI {c : ICond} {w64 : Bool} {k : Comb} (hr : s.Ready g gr o ⟨1, wd w64, wd w64, 1, false, combReads k⟩) :
    exec (.cmpI o c w64 k) s = .next (s.lanes g gr o ⟨1, wd w64, wd w64, 1, false, combReads k⟩ fun W _ L =>
      L.putT o.d (L.combine k (icond c (sval w64 (srcW w64 W L o.a)) (sval w64 (srcW w64 W L o.b))
        (uval w64 (srcW w64 W L o.a)) (uval w64 (srcW w64 W L o.b))))) :=
  lanewise_ready hr _

/-- The result of CMP.F. -/
theorem exec_cmpF {c : FCond} {fz : Bool} {k : Comb} (hr : s.Ready g gr o { ps := combReads k }) :
    exec (.cmpF o c fz k) s = .next (s.lanes g gr o { ps := combReads k } fun W _ L =>
      L.putT o.d (L.combine k (fcond c (f32 fz (src32 W L o.a)) (f32 fz (src32 W L o.b))))) :=
  lanewise_ready hr _

/-- The result of CV.I2I. -/
theorem exec_cvI2i {src dst : ITy} {wrap : Bool} (hr : s.Ready g gr o ⟨wd dst.wide, wd src.wide, 1, 1, false, []⟩) :
    exec (.cvI2i o wrap src dst) s = .next (s.lanes g gr o ⟨wd dst.wide, wd src.wide, 1, 1, false, []⟩ fun W _ L =>
      L.putDW o.d dst.wide (BitVec.ofInt 64 (if wrap then tyVal dst (BitVec.ofInt 64 (tyVal src (srcW src.wide W L o.a)))
        else clampInt (tyLo dst) (tyHi dst) (tyVal src (srcW src.wide W L o.a))))) :=
  lanewise_ready hr _

/-- What a lane form of two or three 32-bit operands gives. -/
theorem exec_fMin {m : FMod} (hr : s.Ready g gr o {}) :
    exec (.fMin o m) s = .next (s.lanes g gr o {} fun W _ L => L.putD o.d
      (w32 (fminmax fp32 (fctl m) false (fpVal m.fz m.na (src32 W L o.a)) (fpVal m.fz m.nb (src32 W L o.b))))) :=
  lanewise_ready hr _

theorem exec_fMax {m : FMod} (hr : s.Ready g gr o {}) :
    exec (.fMax o m) s = .next (s.lanes g gr o {} fun W _ L => L.putD o.d
      (w32 (fminmax fp32 (fctl m) true (fpVal m.fz m.na (src32 W L o.a)) (fpVal m.fz m.nb (src32 W L o.b))))) :=
  lanewise_ready hr _

theorem exec_fCls (hr : s.Ready g gr o {}) :
    exec (.fCls o) s = .next (s.lanes g gr o {} fun W _ L =>
      let x : Word := BitVec.twoPow 32 (fclass (src32 W L o.a)) &&& src32 W L o.b
      if o.d matches .v _ then L.putD o.d x else L.putT o.d (decide (x ≠ 0))) := by
  refine (lanewise_ready hr _).trans ?_
  obtain ⟨d, a, b, c, pr⟩ := o
  cases d with
  | v n => rfl
  | s n => rfl
  | p n => simp [State.lanes, bne, beq_eq_decide]
  | none => rfl

theorem exec_dotI8x4 {m : DotMod} (hsc : m.sc = false) (hsat : m.sat = false) (hr : s.Ready g gr o {}) :
    exec (.dotI8x4 o m) s = .next (s.lanes g gr o {} fun W _ L =>
      L.putD o.d (BitVec.ofInt 32 ((src32 W L o.c).toInt + ((List.range 4).map fun j =>
        intOfType (if m.ua then .u8 else .s8) (BitVec.ofNat 64 ((src32 W L o.a).toNat / 256 ^ j)) *
          intOfType (if m.ub then .u8 else .s8) (BitVec.ofNat 64 ((src32 W L o.b).toNat / 256 ^ j))).sum))) := by
  have hwds : (⟨1, 1, 1, 1, m.sc, []⟩ : Widths) = {} := by rw [hsc]
  have hexec : exec (.dotI8x4 o m) s = dotForm .i8 o m s := rfl
  rw [hexec, dotForm, hwds, lanewise_ready hr]
  simp only [dotVal_i8 hsc hsat] <;> rfl

end

/-- Settles O11: each form by its shape, the discarding destinations, and the values form by form. -/
theorem laneFormsComplete : Obligations.LaneFormsComplete := by
  refine ⟨fun i o wds ps hi => ?_, fun L x => rfl, fun L x w64 => ?_, fun L b => rfl, fun n L b k hn => L.getP_setP n k b hn,
    fun o s g gr => ⟨fun c w64 k hr => ?_, fun c fz k hr => ?_, fun hr => ⟨fun m hsat => ?_, ?_, fun m hsc hsat => ?_⟩,
      fun src dst hr wrap => ?_⟩⟩
  · obtain ⟨f, hf⟩ := laneForm_effect hi
    exact ⟨f, fun W l L hs => hf.keeps_ifGood W l hs, fun s g gr hr =>
      ⟨hf.exec_lanes hr, s.onlyThreads_lanes g gr o wds f⟩⟩
  · cases w64 <;> rfl
  · refine (exec_cmpI hr).trans ?_
    simp only [icond_srcW c (fun u => ⟨w64, u, false, false, 7, 7⟩) (fun _ => rfl) (fun _ => rfl), combine_eq] <;> rfl
  · refine ⟨fun W L => fcond c (fpVal fz false (src32 W L o.a)) (fpVal fz false (src32 W L o.b)), ?_, fun W L =>
      fcond_fpVal c fz false false _ _⟩
    refine (exec_cmpF hr).trans ?_
    simp only [combine_eq, f32, fpVal, FVal.neg_false] <;> rfl
  · refine ⟨_, _, exec_fMin hr, exec_fMax hr, fun W L => ?_⟩
    have hmin := fminmax_fpVal (c := fctl m) hsat false m.na m.nb (src32 W L o.a) (src32 W L o.b)
    have hmax := fminmax_fpVal (c := fctl m) hsat true m.na m.nb (src32 W L o.a) (src32 W L o.b)
    obtain ⟨nn1, ny1, yn1, yy1⟩ := hmin
    obtain ⟨nn2, ny2, yn2, yy2⟩ := hmax
    refine ⟨fun hx hy => ⟨nn1 hx hy, nn2 hx hy⟩, fun hx hy => ⟨ny1 hx hy, ny2 hx hy⟩, fun hx hy => ⟨yn1 hx hy, yn2 hx hy⟩,
      fun hx hy => ?_⟩
    obtain ⟨below1, above1⟩ := yy1 hx hy
    obtain ⟨below2, above2⟩ := yy2 hx hy
    exact ⟨below1, above1, below2, above2⟩
  · refine (exec_fCls hr).trans ?_
    simp only [fclass_eq] <;> rfl
  · exact exec_dotI8x4 hsc hsat hr
  · refine (exec_cvI2i hr).trans ?_
    simp only [tyVal_eq, tyLo_eq, tyHi_eq, clampInt_eq (leastOf_le_mostOf dst)]

end Sys2Proof.Machine
end

section
/-! SUPPORT. O5: the form of lanes, warps and states, and what keeps it whatever the function: an update of other
fields, a branch, a fold. -/

namespace Sys2Proof.Machine

theorem AMap.mem_putD {α : Type} [DecidableEq α] {m : AMap α} {i : Nat} {x d : α} {e : Nat × α}
    (h : e ∈ m.putD i x d) :
    e = (i, x) ∨ e ∈ m := by
  unfold AMap.putD at h
  split at h
  · exact .inr (AMap.mem_del h)
  · exact AMap.mem_set h

theorem AMap.sorted_map {α β : Type} {m : AMap α} {f : Nat × α → Nat × β} (hf : ∀ e, (f e).1 = e.1)
    (h : AMap.sorted m = true) : AMap.sorted (m.map f : AMap β) = true := by
  induction m with
  | nil => rfl
  | cons a m ih =>
    rw [AMap.sorted_cons] at h
    obtain ⟨hlt, hm⟩ := h
    rw [List.map_cons, AMap.sorted_cons]
    refine ⟨fun e he => ?_, ih hm⟩
    obtain ⟨x, hx, rfl⟩ := List.mem_map.1 he
    rw [hf, hf]
    exact hlt x hx

theorem ite_fst {α β : Type} {c : Prop} [Decidable c] {p q : α × β} {k : α} (hp : p.1 = k) (hq : q.1 = k) :
    (if c then p else q).1 = k := by
  split <;> assumption

theorem AMap.sorted_map_range {α : Type} (f : Nat → α) (n : Nat) :
    AMap.sorted ((List.range n).map fun l => (l, f l) : AMap α) = true := by
  rw [List.range_eq_range']
  generalize 0 = k
  induction n generalizing k with
  | zero => rfl
  | succ n ih =>
    rw [List.range'_succ, List.map_cons, AMap.sorted_cons]
    refine ⟨fun e he => ?_, ih (k + 1)⟩
    obtain ⟨l, hl, rfl⟩ := List.mem_map.1 he
    have := List.mem_range'_1.1 hl
    dsimp only
    omega

/-- A lane's form: its v registers are listed in rising order, and p7 reads true (R26). -/
def Lane.tidy (L : Lane) : Prop := AMap.sorted L.v = true ∧ L.getP 7 = true

/-- An outcome's next state, where it has one, keeps the form of its threads. -/
def Out.threadsOk (o : Out) : Prop :=
  match o with
  | .next s => s.threadsOk
  | .fault _ | .refused _ => True

/-- Lanes whose other fields change keep their form. -/
theorem Lane.tidy.update {L : Lane}
    {life : Life} {entry : Entry} {handler promoted : Bool} {pc rsp stkBase : DWord} {since depth : Nat}
    {led credit : Option DWord} {vBad opened : List Nat} {emask : Word} {stack : List RetEntry} {slots : List Slot}
    {oldCode : AMap (AMap Byte)} {batches : List (List Nat)} (h : L.tidy) :
    ({ L with
      life, entry, handler, pc, since, promoted, led, vBad, emask, depth, stack, rsp, stkBase, slots, oldCode,
      credit, opened, batches } : Lane).tidy :=
  h

/-- Warps whose other fields change keep their form. -/
theorem Warp.tidy.update {W : Warp}
    {block num core sub regs gwct stop tileNeed tileBase ordCount : Nat} {quarters flags stall : AMap Nat}
    {quarterSet sBad tileBad : List Nat} {q : BitVec 8} {guards : AMap Guard} {tcs tpc tad tch : DWord} {tlm : Word}
    {tsv : AMap DWord} {pending : List Trap} {tiles : AMap Word} {doubleTrap dbgHalt : Bool}
    {lsecc : Option (Nat × Nat)} {counts : List (DWord × Nat)} (h : W.tidy) :
    ({ W with
      block, num, core, sub, regs, quarters, quarterSet, q, sBad, flags, guards, gwct, tcs, tpc, tad, tlm, tch, tsv,
      stop, pending, stall, tileNeed, tileBase, tiles, tileBad, ordCount, doubleTrap, lsecc, counts,
      dbgHalt } : Warp).tidy :=
  h

/-- States whose fields other than the warps and the groups change keep the form of their threads. -/
theorem State.threadsOk.update {s : State}
    {clock time frac chip hrFails flipDone flipAt hdm erhead ertail erLost free ids : Nat}
    {dieOff monsAway : AMap Nat} {blocks : AMap Block} {launches : AMap Launch} {cbars : AMap Phase}
    {works : AMap Work} {ops : AMap Op} {remotes : AMap RemoteLs} {spills : AMap Spill} {cmds : AMap Cmd}
    {mem : List Host.Cell} {lines : AMap HLine} {caches : AMap CLine} {slices : AMap Slice} {msgs : AMap Msg}
    {hostReqs : AMap HostReq} {weir : AMap DWord} {tlb : List Tlb} {walks : AMap Walk} {shoots : AMap Shootdown}
    {mons : AMap Mon} {rels : AMap Rel} {cores : AMap Core} {ctxs : AMap Ctx} {parts : AMap Partn}
    {domain heldHost moved used : List Nat} {hrb btb bflip erbase : DWord}
    {hrErr flipOn flipErr flipSent erCorr : Bool} {flips : List DWord} {heldRegs : List HeldReg} {biWait : AMap Bool}
    {regReqs : AMap RegReq} {out : List HostMsg} {links : AMap Link} {joins : AMap JoinReq}
    {inbox heldMsgs : List Packet} {routes : AMap (List Nat)} {sync : TimeSync} {tally : List Tally}
    {fresh : List (W1c × DWord)} {mgmt : Mgmt} {agenda : List Choice} {focus : Focus} {need : List (Nat × Bool)}
    {fetched : AMap (AMap Byte)} (h : s.threadsOk) :
    ({ s with
      clock, time, frac, dieOff, blocks, launches, cbars, works, ops, remotes, spills, cmds, mem, lines, caches,
      slices, msgs, hostReqs, weir, tlb, walks, shoots, mons, monsAway, rels, cores, ctxs, parts, chip, domain, hrb,
      hrErr, hrFails, btb, flips, flipOn, flipDone, flipErr, bflip, heldHost, heldRegs, flipAt, flipSent, biWait,
      hdm, regReqs, out, links, joins, inbox, heldMsgs, routes, sync, erbase, erhead, ertail, erCorr, erLost, tally,
      moved, fresh, mgmt, agenda, focus, need, used, fetched, free, ids } : State).threadsOk :=
  h

section
variable {L M : Lane} {c : Prop} [Decidable c]

theorem Lane.tidy.ite (h : L.tidy) (h' : M.tidy) : (if c then L else M).tidy := by
  split <;> assumption

/-- The same under a pair, as the lists of warps and lanes hold them. -/
theorem Lane.tidy.ite_snd {k k' : Nat} (h : L.tidy) (h' : M.tidy) : (if c then (k, L) else (k', M)).2.tidy := by
  split <;> assumption

theorem Lane.tidy.foldl {α : Type} {f : Lane → α → Lane} {l : List α} (hf : ∀ L x, L.tidy → (f L x).tidy)
    (h : L.tidy) :
    (l.foldl f L).tidy :=
  List.foldlRecOn l f h fun M hM x _ => hf M x hM

theorem Lane.tidy.empty : ({} : Lane).tidy := ⟨rfl, rfl⟩

end

section
variable {W X : Warp} {c : Prop} [Decidable c]

theorem Warp.tidy.ite (h : W.tidy) (h' : X.tidy) : (if c then W else X).tidy := by
  split <;> assumption

theorem Warp.tidy.foldl {α : Type} {f : Warp → α → Warp} {l : List α} (hf : ∀ W x, W.tidy → (f W x).tidy)
    (h : W.tidy) :
    (l.foldl f W).tidy := by
  induction l generalizing W with
  | nil => exact h
  | cons x l ih => exact ih (hf W x h)

theorem Warp.tidy.ite_snd {k k' : Nat} (h : W.tidy) (h' : X.tidy) : (if c then (k, W) else (k', X)).2.tidy := by
  split <;> assumption

theorem Warp.tidy.foldl_mem {α : Type} {f : Warp → α → Warp} {l : List α} (hf : ∀ W, ∀ x ∈ l, W.tidy → (f W x).tidy)
    (h : W.tidy) : (l.foldl f W).tidy :=
  List.foldlRecOn l f h fun V hV x hx => hf V x hx hV

theorem Warp.tidy.empty : ({} : Warp).tidy := ⟨rfl, rfl, by simp⟩

theorem Lane.tidy.of_mem (h : W.tidy) {e : Nat × Lane} (he : e ∈ W.lanes) : e.2.tidy := by
  obtain ⟨-, -, hlanes⟩ := h
  exact hlanes e he

/-- Changing each lane where it is listed keeps a warp's form. -/
theorem Warp.tidy.mapLanes {f : Nat × Lane → Nat × Lane} (h : W.tidy) (hf : ∀ e, (f e).1 = e.1)
    (hL : ∀ e : Nat × Lane, e.2.tidy → (f e).2.tidy) : ({ W with lanes := W.lanes.map f } : Warp).tidy := by
  obtain ⟨hs, hl, hlanes⟩ := h
  refine ⟨hs, AMap.sorted_map hf hl, fun e he => ?_⟩
  obtain ⟨x, hx, rfl⟩ := List.mem_map.1 he
  exact hL x (hlanes x hx)

end

section
variable {s t : State} {c : Prop} [Decidable c]

theorem State.threadsOk.ite (h : s.threadsOk) (h' : t.threadsOk) : (if c then s else t).threadsOk := by
  split <;> assumption

theorem State.threadsOk.foldl {α : Type} {f : State → α → State} {l : List α}
    (hf : ∀ s x, s.threadsOk → (f s x).threadsOk) (h : s.threadsOk) : (l.foldl f s).threadsOk := by
  induction l generalizing s with
  | nil => exact h
  | cons x l ih => exact ih (hf s x h)

theorem State.threadsOk.foldl_fst {α β : Type} {f : State × β → α → State × β} {l : List α} {p : State × β}
    (hf : ∀ p x, p.1.threadsOk → (f p x).1.threadsOk) (h : p.1.threadsOk) : (l.foldl f p).1.threadsOk := by
  induction l generalizing p with
  | nil => exact h
  | cons x l ih => exact ih (hf p x h)

theorem State.threadsOk.foldl_snd {α β : Type} {f : β × State → α → β × State} {l : List α} {p : β × State}
    (hf : ∀ p x, p.2.threadsOk → (f p x).2.threadsOk) (h : p.2.threadsOk) : (l.foldl f p).2.threadsOk := by
  induction l generalizing p with
  | nil => exact h
  | cons x l ih => exact ih (hf p x h)

theorem State.threadsOk.of_fst {β : Type} {p : State × β} {x : β} (he : p = (s, x))
    (h : p.1.threadsOk) : s.threadsOk := by
  rwa [he] at h

theorem State.threadsOk.of_snd {β : Type} {p : β × State} {x : β} (he : p = (x, s))
    (h : p.2.threadsOk) : s.threadsOk := by
  rwa [he] at h

theorem Out.threadsOk.next (h : s.threadsOk) : Out.threadsOk (.next s) := h

theorem Out.threadsOk.ite {o o' : Out} (h : o.threadsOk) (h' : o'.threadsOk) : Out.threadsOk
    (if c then o else o') := by
  split <;> assumption

end

section
variable {s : State}

theorem State.threadsOk.sorted_warps (h : s.threadsOk) : AMap.sorted s.warps = true := by
  obtain ⟨hwarps, -, -⟩ := h
  exact hwarps

theorem State.threadsOk.sorted_groups (h : s.threadsOk) : AMap.sorted s.groups = true := by
  obtain ⟨-, hgroups, -⟩ := h
  exact hgroups

theorem Warp.tidy.of_mem (h : s.threadsOk) {e : Nat × Warp} (he : e ∈ s.warps) : e.2.tidy := by
  obtain ⟨-, -, htidy⟩ := h
  exact htidy e he

/-- Of the groups the form says only that they are listed in order. -/
theorem State.threadsOk.setGroups {gs : AMap Group} (h : s.threadsOk) (hg : AMap.sorted gs = true) :
    ({ s with groups := gs } : State).threadsOk :=
  ⟨h.sorted_warps, hg, fun _ he => .of_mem h he⟩

/-- A group is added, or set anew, and the focus moves. -/
theorem State.threadsOk.startGroup {n : Nat} {gr : Group} {f : Focus} (h : s.threadsOk) :
    ({ s with groups := s.groups.set n gr, focus := f } : State).threadsOk :=
  ⟨h.sorted_warps, AMap.sorted_set _ _ h.sorted_groups, fun _ he => .of_mem h he⟩

/-- Changing each warp where it is listed keeps the form. -/
theorem State.threadsOk.mapWarps {f : Nat × Warp → Nat × Warp} (h : s.threadsOk) (hf : ∀ e, (f e).1 = e.1)
    (hW : ∀ e : Nat × Warp, e.2.tidy → (f e).2.tidy) : ({ s with warps := s.warps.map f } : State).threadsOk := by
  refine ⟨AMap.sorted_map hf h.sorted_warps, h.sorted_groups, fun e he => ?_⟩
  obtain ⟨x, hx, rfl⟩ := List.mem_map.1 he
  exact hW x (.of_mem h hx)

theorem State.threadsOk.setWarp {w : Nat} {x : Warp} (h : s.threadsOk) (hW : x.tidy) :
    (s.setWarp w x).threadsOk := by
  refine ⟨AMap.sorted_set _ _ h.sorted_warps, h.sorted_groups, fun e he => ?_⟩
  obtain rfl | he := AMap.mem_set he
  · exact hW
  · exact .of_mem h he

theorem State.threadsOk.delWarp {w : Nat} (h : s.threadsOk) : ({ s with warps := s.warps.del w } : State).threadsOk :=
  ⟨AMap.sorted_del _ h.sorted_warps, h.sorted_groups, fun _ he => .of_mem h (AMap.mem_del he)⟩

theorem State.threadsOk.delWarps {ws : List Nat} (h : s.threadsOk) :
    ({ s with warps := ws.foldl (fun m w => m.del w) s.warps } : State).threadsOk := by
  induction ws generalizing s with
  | nil => exact h
  | cons w ws ih => exact ih (s := { s with warps := s.warps.del w }) h.delWarp

theorem State.threadsOk.of_next {o : Out} (he : o = .next s) (h : o.threadsOk) : s.threadsOk := by
  rwa [he] at h

end

/-- The event keeps the form of the threads. -/
def Event.KeepsThreads (i : Event) : Prop := ∀ s, s.threadsOk → Out.threadsOk (i s)

/-- What a meeting gives each lane keeps the lane's form. -/
def Meeting.KeepsLanes (m : Meeting) : Prop := ∀ W, W.tidy → ∀ ls l L, L.tidy → (m.eff W ls l L).tidy

/-- Every event of a list keeps the form of the threads. -/
def KeepThreads (is : List Event) : Prop := ∀ i ∈ is, Event.KeepsThreads i

section
variable {is js : List Event} {α : Type}

theorem KeepThreads.nil : KeepThreads [] := fun _ hi => absurd hi List.not_mem_nil

theorem KeepThreads.one {i : Event} (hi : Event.KeepsThreads i) : KeepThreads [i] := fun _ hj =>
  List.mem_singleton.1 hj ▸ hi

theorem KeepThreads.cons {i : Event} (hi : Event.KeepsThreads i) (his : KeepThreads is) : KeepThreads (i :: is) :=
  fun j hj => (List.mem_cons.1 hj).elim (fun h => h ▸ hi) (his j)

theorem KeepThreads.append (his : KeepThreads is) (hjs : KeepThreads js) : KeepThreads (is ++ js) := fun i hi =>
  (List.mem_append.1 hi).elim (his i) (hjs i)

theorem KeepThreads.flatMap {l : List α} {f : α → List Event} (hf : ∀ x, KeepThreads (f x)) : KeepThreads
    (l.flatMap f) :=
  fun i hi => let ⟨x, _, hx⟩ := List.mem_flatMap.1 hi; hf x i hx

theorem KeepThreads.map {l : List α} {f : α → Event} (hf : ∀ x, Event.KeepsThreads (f x)) : KeepThreads (l.map f) :=
  fun _ hi => let ⟨x, _, hx⟩ := List.mem_map.1 hi; hx ▸ hf x

theorem KeepThreads.ite {c : Prop} [Decidable c] (his : KeepThreads is) (hjs : KeepThreads js) :
    KeepThreads (if c then is else js) := by
  split <;> assumption

end

end Sys2Proof.Machine
end

section
/-! SUPPORT. O5: what keeps the form of threads in the state at reset. -/

namespace Sys2Proof.Machine

theorem State.threadsOk.reset : State.reset.threadsOk := ⟨rfl, rfl, by simp [State.reset]⟩

end Sys2Proof.Machine
end

section
/-! SUPPORT. O5: what keeps the form of threads in operations over registers, lanes and groups, and taking a trap. -/

namespace Sys2Proof.Machine

/-! ## Outcomes -/

theorem Out.threadsOk.andThen {o : Out} {k : State → Out} (h : Out.threadsOk o)
    (hk : ∀ s, s.threadsOk → Out.threadsOk (k s)) : Out.threadsOk (andThen o k) := by
  cases o with
  | next s => exact hk s h
  | fault f => trivial
  | refused r => trivial

theorem Out.threadsOk.when {c : Bool} {s : State} (h : s.threadsOk) : Out.threadsOk (when c s) :=
  .ite (.next h) trivial

theorem State.threadsOk.drawFree {s : State} (h : s.threadsOk) : s.drawFree.2.threadsOk :=
  .update h

theorem State.threadsOk.newId {s : State} (h : s.threadsOk) : s.newId.2.threadsOk :=
  .update h

/-! ## Access to the parts of the state -/

theorem State.threadsOk.setCore {s : State} {c : Nat} {x : Core} (h : s.threadsOk) : (s.setCore c x).threadsOk :=
  .update h

theorem State.threadsOk.modCore {s : State} {c : Nat} {f : Core → Core} (h : s.threadsOk) :
    (s.modCore c f).threadsOk :=
  .setCore h

theorem Warp.tidy.of_state {s : State} (h : s.threadsOk) {w : Nat} : (s.warp w).tidy := by
  cases hw : s.warps.get? w with
  | none => exact State.warp_of_none hw ▸ .empty
  | some W => exact State.warp_of_get? hw ▸ .of_mem h (AMap.mem_of_get? hw)

theorem State.threadsOk.modWarp {s : State} (h : s.threadsOk) {w : Nat} {f : Warp → Warp}
    (hf : ∀ W, W.tidy → (f W).tidy) : (s.modWarp w f).threadsOk := by
  unfold State.modWarp AMap.modify
  split
  · next W hW => exact .setWarp h (hf W (.of_mem h (AMap.mem_of_get? hW)))
  · exact h

theorem State.threadsOk.setBlock {s : State} {b : Nat} {x : Block} (h : s.threadsOk) : (s.setBlock b x).threadsOk :=
  .update h

theorem State.threadsOk.modBlock {s : State} {b : Nat} {f : Block → Block} (h : s.threadsOk) :
    (s.modBlock b f).threadsOk :=
  .update h

theorem State.threadsOk.modGroup {s : State} (h : s.threadsOk) {g : Nat} {f : Group → Group} :
    (s.modGroup g f).threadsOk :=
  .setGroups h (AMap.sorted_modify _ _ h.sorted_groups)

theorem State.threadsOk.delGroup {s : State} (h : s.threadsOk) {g : Nat} : (s.delGroup g).threadsOk :=
  .setGroups h (AMap.sorted_del _ h.sorted_groups)

theorem State.threadsOk.modCtx {s : State} {c : Nat} {f : Ctx → Ctx} (h : s.threadsOk) : (s.modCtx c f).threadsOk :=
  .update h

theorem State.threadsOk.modPart {s : State} {n : Nat} {f : Partn → Partn} (h : s.threadsOk) :
    (s.modPart n f).threadsOk :=
  .update h

theorem State.threadsOk.setHline {s : State} {l : Nat} {x : HLine} (h : s.threadsOk) : (s.setHline l x).threadsOk :=
  .update h

theorem State.threadsOk.setSlice {s : State} {n : Nat} {x : Slice} (h : s.threadsOk) : (s.setSlice n x).threadsOk :=
  .update h

theorem State.threadsOk.setLink {s : State} {k : Nat} {x : Link} (h : s.threadsOk) : (s.setLink k x).threadsOk :=
  .update h

theorem Lane.tidy.of_warp {w : Warp} (hW : w.tidy) {l : Nat} : (w.lane l).tidy := by
  unfold Warp.lane AMap.getD
  cases hl : w.lanes.get? l with
  | none => exact .empty
  | some L => exact .of_mem hW (AMap.mem_of_get? hl)

theorem Warp.tidy.setLane {w : Warp} (hW : w.tidy) {l : Nat} {x : Lane} (hL : x.tidy) : (w.setLane l x).tidy := by
  obtain ⟨hs, hl, hlanes⟩ := hW
  refine ⟨hs, AMap.sorted_putD _ _ _ hl, fun e he => ?_⟩
  obtain rfl | he := AMap.mem_putD he
  · exact hL
  · exact hlanes e he

theorem Warp.tidy.modLane {w : Warp} {l : Nat} {f : Lane → Lane} (hW : w.tidy) (hf : ∀ L, L.tidy → (f L).tidy) :
    (w.modLane l f).tidy :=
  .setLane hW (hf _ (.of_warp hW))

theorem Lane.tidy.of_state {s : State} {w l : Nat} (h : s.threadsOk) : (s.lane w l).tidy :=
  .of_warp (.of_state h)

theorem State.threadsOk.modLane {s : State} {w l : Nat} {f : Lane → Lane} (h : s.threadsOk)
    (hf : ∀ L, L.tidy → (f L).tidy) :
    (s.modLane w l f).threadsOk :=
  .modWarp h fun _ hW => .modLane hW fun _ hL => hf _ hL

theorem State.threadsOk.count {s : State} {core sub event n ctx : Nat} (h : s.threadsOk) :
    (s.count core sub event n ctx).threadsOk :=
  .update h

/-! ## Registers -/

theorem Lane.tidy.setV {l : Lane} (hL : l.tidy) {n : Nat} {x : Word} : (l.setV n x).tidy := by
  obtain ⟨hv, hp⟩ := hL
  exact ⟨AMap.sorted_putD _ _ _ hv, hp⟩

theorem Lane.tidy.setV64 {l : Lane} {n : Nat} {x : DWord} (hL : l.tidy) : (l.setV64 n x).tidy :=
  .setV (.setV hL)

theorem Lane.tidy.setP {l : Lane} (hL : l.tidy) {n : Fin 8} {b : Bool} : (l.setP n b).tidy := by
  by_cases hn : n = 7
  · subst hn
    exact hL
  · obtain ⟨hv, hp⟩ := hL
    refine ⟨by rwa [Lane.setP, if_neg hn], ?_⟩
    rwa [Lane.getP_setP l n 7 b hn, if_neg (Ne.symm hn)]

theorem Warp.tidy.setS {w : Warp} (hW : w.tidy) {n : Nat} {x : Word} : (w.setS n x).tidy := by
  obtain ⟨hs, hlanes⟩ := hW
  exact ⟨AMap.sorted_putD _ _ _ hs, hlanes⟩

theorem Warp.tidy.setS64 {w : Warp} {n : Nat} {x : DWord} (hW : w.tidy) : (w.setS64 n x).tidy :=
  .setS (.setS hW)

theorem Warp.tidy.setQ {w : Warp} {n : Fin 8} {b : Bool} (hW : w.tidy) : (w.setQ n b).tidy :=
  .update hW

theorem Lane.tidy.putD {l : Lane} {d : Dst} {x : Word} (hL : l.tidy) : (l.putD d x).tidy := by
  unfold Lane.putD
  split
  · exact .setV hL
  all_goals exact hL

theorem Lane.tidy.putD64 {l : Lane} {d : Dst} {x : DWord} (hL : l.tidy) : (l.putD64 d x).tidy := by
  unfold Lane.putD64
  split
  · exact .setV64 hL
  all_goals exact hL

theorem Lane.tidy.putDW {l : Lane} {d : Dst} {w64 : Bool} {x : DWord} (hL : l.tidy) : (l.putDW d w64 x).tidy :=
  .ite (.putD64 hL) (.putD hL)

theorem Lane.tidy.putT {l : Lane} {d : Dst} {b : Bool} (hL : l.tidy) : (l.putT d b).tidy := by
  unfold Lane.putT
  split
  · exact .setV hL
  · exact .setP hL
  all_goals exact hL

/-! ## The current group -/

theorem State.threadsOk.eachLane {s : State} {ls : List (Nat × Nat)} {f : Warp → Nat → Lane → Lane} (h : s.threadsOk)
    (hf : ∀ W, W.tidy → ∀ x L, L.tidy → (f W x L).tidy) :
    (s.eachLane ls f).threadsOk :=
  .foldl (fun _ _ h1 => .modWarp h1 fun _ hW => .setLane hW (hf _ hW _ _ (.of_warp hW))) h

theorem Lane.tidy.enter {l : Lane} {a : DWord} {led : Option DWord} {clock : Nat} (hL : l.tidy) :
    (l.enter a led clock).tidy :=
  .ite (.update hL) (.update hL)

theorem State.threadsOk.enterAll {s : State} {ls : List (Nat × Nat)} {target : Nat × Nat → DWord × Option DWord}
    (h : s.threadsOk) :
    (s.enterAll ls target).threadsOk :=
  .foldl (fun _ _ h1 => .modLane h1 fun _ hL => .enter hL) h

theorem State.threadsOk.unfocus {s : State} {g : Nat} (h : s.threadsOk) : (s.unfocus g).threadsOk :=
  .update h

theorem State.threadsOk.endClause {s : State} {g : Nat} {gr : Group} {target : Nat × Nat → DWord × Option DWord}
    (h : s.threadsOk) :
    (s.endClause g gr target).threadsOk :=
  .unfocus (.delGroup (.enterAll h))

theorem State.threadsOk.retire {s : State} {g : Nat} {gr : Group} (h : s.threadsOk) : (s.retire g gr).threadsOk :=
  .ite (.endClause h) (.modGroup h)

theorem State.threadsOk.parkGroup {s : State} {g : Nat} {p : Park} {m : Memo} (h : s.threadsOk) :
    (s.parkGroup g p m).threadsOk :=
  .unfocus (.modGroup h)

theorem State.threadsOk.splitOff {s : State} (h : s.threadsOk) {g : Nat} {gr : Group} {ls : List (Nat × Nat)}
    {p : Park}
    {m : Memo} : (s.splitOff g gr ls p m).2.threadsOk :=
  have hnew := State.threadsOk.startGroup (.newId h)
  .ite (.unfocus (.delGroup (.foldl (fun _ _ h1 => .modLane h1 fun _ hL => .update hL) hnew)))
    (.modGroup (.foldl (fun _ _ h1 => .modLane h1 fun _ hL => .update hL) hnew))

/-! ## Lines, as the device itself reads and writes them -/

theorem State.threadsOk.setCline {s : State} {agent line : Nat} {x : CLine} (h : s.threadsOk) :
    (s.setCline agent line x).threadsOk :=
  .update h

theorem State.threadsOk.delCline {s : State} {agent line : Nat} (h : s.threadsOk) :
    (s.delCline agent line).threadsOk :=
  .update h

theorem State.threadsOk.gwct {s : State} {w t : Nat} (h : s.threadsOk) : (s.gwct w t).threadsOk :=
  .modWarp h fun _ hW => .update hW

theorem State.threadsOk.gwctAll {s : State} {who : List (Nat × Nat)} {t : Nat} (h : s.threadsOk) :
    (s.gwctAll who t).threadsOk :=
  .foldl (fun _ _ h1 => .gwct h1) h

theorem State.threadsOk.send {s : State} {src dst line : Nat} {body : Body} (h : s.threadsOk) :
    (s.send src dst line body).threadsOk :=
  .update (.newId h)

theorem State.threadsOk.absorb {s : State} {line : Nat} (h : s.threadsOk) : (s.absorb line).threadsOk := by
  unfold State.absorb
  extract_lets -merge +onlyGivenNames s1 h2
  have h1 : s1.threadsOk := by
    unfold s1
    refine .foldl (fun _ _ h1 => .ite ?_ h1) h
    split
    · exact .update (.update h1)
    · exact .update (.gwctAll (.update h1))
    · exact h1
  split
  · exact .setHline (.foldl (fun _ _ h2 => .gwctAll (.update h2)) h1)
  · exact h1

theorem State.threadsOk.recalled {s : State} {a : Nat} (h : s.threadsOk) : (s.recalled a).threadsOk :=
  .ite (.count h) h

theorem State.threadsOk.settle {s : State} {line : Nat} {write : Bool} (h : s.threadsOk) :
    (s.settle line write).threadsOk := by
  unfold State.settle
  extract_lets -merge +onlyGivenNames s1 h2
  have h1 : s1.threadsOk := .absorb h
  split
  · exact h1
  · exact .ite (.setHline (.foldl (fun _ _ h2 => .delCline (.recalled h2)) h1)) h1
  · split
    · exact .ite h1 (.setHline h1)
    · exact .ite (.setHline (.delCline (.recalled (.update h1)))) (.setHline (.setCline (.recalled (.update h1))))
  · refine .setHline (.foldl (fun _ _ h2 => ?_) h1)
    dsimp only
    split
    · split
      · exact .delCline (.gwctAll (.update (.recalled h2)))
      · exact .delCline (.recalled h2)
    · exact .recalled h2

/-! ## Accesses that the device makes of its own accord -/

theorem State.threadsOk.reach {s : State} {line : Nat} {write : Bool} (h : s.threadsOk) :
    (s.reach line write).threadsOk :=
  .ite (.settle h) (.ite h (.ite (.update h) (.update h)))

theorem State.threadsOk.devRead {s : State} {pa n : Nat} (h : s.threadsOk) : (s.devRead pa n).1.threadsOk :=
  .foldl (fun _ _ h1 => .reach h1) h

theorem State.threadsOk.devSend {s : State} {pa n x line : Nat} (h : s.threadsOk) :
    (s.devSend pa n x line).threadsOk := by
  unfold State.devSend
  dsimp only
  split
  · exact .update (.send h)
  · exact .send h

theorem State.threadsOk.devWrite {s : State} {pa n x : Nat} (h : s.threadsOk) : (s.devWrite pa n x).threadsOk :=
  .ite (.update (.foldl (fun _ _ h1 => .reach h1) h)) (.foldl (fun _ _ h1 => .ite (.devSend h1) h1) h)

theorem State.threadsOk.devStore {s : State} {pa n x : Nat} (h : s.threadsOk) : (s.devStore pa n x).threadsOk :=
  .ite (.update (.foldl (fun _ _ h1 => .settle h1) h)) (.foldl (fun _ _ h1 => .ite (.devSend h1) h1) h)

theorem Out.threadsOk.askNeed {s : State} {need : List (Nat × Bool)} (h : s.threadsOk) :
    Out.threadsOk (s.askNeed need) := by
  unfold State.askNeed
  split
  · exact trivial
  · exact .next (.foldl (fun _ _ h1 => .send h1) h)

theorem Out.threadsOk.notNow {s : State} (h : s.threadsOk) : Out.threadsOk (s.notNow) :=
  .ite trivial (.next h)

theorem State.threadsOk.spend {s : State} (h : s.threadsOk) : s.spend.threadsOk :=
  .ite h (.update h)

theorem State.threadsOk.unasked {s : State} (h : s.threadsOk) : s.unasked.threadsOk :=
  .update h

theorem Out.threadsOk.needing {e : State → Out} {s : State} (he : ∀ s, s.threadsOk → Out.threadsOk (e s))
    (h : s.threadsOk) :
    Out.threadsOk (needing e s) := by
  unfold Machine.needing
  dsimp only
  split
  next t heq =>
    have h1 : t.threadsOk := .of_next heq (he _ (.unasked h))
    exact .ite (.next (.spend h1)) (.askNeed (.unasked h))
  all_goals exact trivial

/-! ## Reports -/

theorem State.threadsOk.msix {s : State} {fn vec : Nat} (h : s.threadsOk) : (s.msix fn vec).threadsOk :=
  .ite (.update h) h

theorem State.threadsOk.mark {s : State} {r : W1c} {bits : DWord} (h : s.threadsOk) : (s.mark r bits).threadsOk :=
  .update h

theorem State.threadsOk.report {s : State} {e : ErrRec} (h : s.threadsOk) : (s.report e).threadsOk :=
  .ite h (.ite (.mark (.update h)) (.msix (.update (.devStore h))))

theorem State.threadsOk.wakeUp {s : State} (h : s.threadsOk) : s.wakeUp.threadsOk :=
  .ite (.update h) h

theorem Out.threadsOk.awake {x : HeldReg} {k : State → Out} {s : State} (hk : ∀ s, s.threadsOk → Out.threadsOk (k s))
    (h : s.threadsOk) :
    Out.threadsOk (awake x k s) :=
  .ite (.next (.update (.wakeUp h))) (hk _ h)

/-! ## Messages to the homes -/

theorem State.threadsOk.pushPartial {s : State} {agent line : Nat} {c : CLine} (h : s.threadsOk) :
    (s.pushPartial agent line c).threadsOk := by
  unfold State.pushPartial
  split
  · exact .send (.delCline h)
  · exact .delCline h

theorem State.threadsOk.pushAll {s : State} {core : Nat} (h : s.threadsOk) : (s.pushAll core).threadsOk :=
  .foldl (fun _ _ h1 => .ite (.pushPartial h1) h1) h

/-! ## The end of lanes -/

theorem State.threadsOk.releaseQuarters {s : State} {w : Nat} (h : s.threadsOk) : (s.releaseQuarters w).threadsOk :=
  .ite h (.foldl (fun _ _ h1 => .ite (.modWarp h1 fun _ hW => .update hW) h1) h)

theorem State.threadsOk.leaveGroup {s : State} {w l : Nat} (h : s.threadsOk) : (s.leaveGroup w l).threadsOk := by
  unfold State.leaveGroup
  split
  · split
    · exact .ite (.unfocus (.delGroup h)) (.modGroup h)
    · exact h
  all_goals exact h

theorem State.threadsOk.relWaits {s : State} {r : Rel} {colour : Nat} (h : s.threadsOk) :
    (s.relWaits r colour).2.threadsOk :=
  .pushAll h

theorem State.threadsOk.beginRelease {s : State} {w l : Nat} {colours : List Nat} {wait : Option (Option Nat)}
    {group : Option Nat} (h : s.threadsOk) : (s.beginRelease w l colours wait group).threadsOk :=
  .update (.pushAll (.newId h))

theorem State.threadsOk.resumeFrom {s : State} {p : Park} {block : Nat} {done stay : List (Nat × Nat)}
    (h : s.threadsOk) :
    (s.resumeFrom p block done stay).threadsOk :=
  .foldl (fun _ _ h1 => .ite (.ite (.retire h1) (.retire (.splitOff h1))) h1) h

theorem State.threadsOk.checkBars {s : State} {b : Nat} (h : s.threadsOk) : (s.checkBars b).threadsOk :=
  .foldl (fun _ _ h1 => .ite (.resumeFrom (.modBlock h1)) h1) h

theorem State.threadsOk.checkCbars {s : State} {b : Nat} (h : s.threadsOk) : (s.checkCbars b).threadsOk := by
  refine .foldl (fun _ _ h1 => ?_) h
  split
  · exact .ite (.foldl (fun _ _ h2 => .resumeFrom h2) (.update h1)) h1
  · exact h1

theorem State.threadsOk.closeGuards {s : State} {w : Nat} (h : s.threadsOk) : (s.closeGuards w).threadsOk := by
  refine .ite (.foldl (fun _ _ h1 => ?_) h) h
  split
  · exact .ite (.modWarp h1 fun _ hW => .update hW) h1
  · exact h1

theorem State.threadsOk.wakeMeetings {s : State} (h : s.threadsOk) {w : Nat} : (s.wakeMeetings w).threadsOk :=
  .setGroups h (AMap.sorted_map (fun _ => ite_fst rfl rfl) h.sorted_groups)

theorem State.threadsOk.leaveQueues {s : State} {w l : Nat} (h : s.threadsOk) : (s.leaveQueues w l).threadsOk :=
  .update h

theorem State.threadsOk.markExited {s : State} {w l : Nat} (h : s.threadsOk) : (s.markExited w l).threadsOk :=
  .ite (.wakeMeetings (.modLane (.leaveGroup (.leaveQueues h)) fun _ hL => .update hL))
    (.beginRelease (.wakeMeetings (.modLane (.leaveGroup (.leaveQueues h)) fun _ hL => .update hL)))

theorem State.threadsOk.exitHelpers {s : State} {w l : Nat} (h : s.threadsOk) : (s.exitHelpers w l).threadsOk :=
  .ite (.foldl (fun _ _ h1 => .ite (.markExited h1) h1) h) h

theorem State.threadsOk.completing {s : State} {b : Nat} (h : s.threadsOk) : (s.completing b).threadsOk :=
  .ite (.modBlock h) h

theorem State.threadsOk.endLanes {s : State} {b : Nat} {ls : List (Nat × Nat)} (h : s.threadsOk) :
    (s.endLanes b ls).threadsOk :=
  .checkCbars (.checkBars (.completing (.foldl (fun _ _ h1 => .closeGuards (.releaseQuarters h1))
    (.foldl (fun _ _ h1 => .exitHelpers (.markExited h1)) h))))

/-! ## Block records, and a block that an LSECC ends -/

theorem State.threadsOk.blockRecord {s : State} {b status : Nat} (h : s.threadsOk) :
    (s.blockRecord b status).threadsOk := by
  unfold State.blockRecord
  split
  · exact .modPart (.devStore h)
  · exact h

theorem State.threadsOk.endBlock {s : State} {b word : Nat} (h : s.threadsOk) : (s.endBlock b word).threadsOk :=
  .ite h (.foldl (fun _ _ h1 => .modWarp h1 fun _ hW => .update hW) (.endLanes (.modBlock h)))

theorem State.threadsOk.tellEnd {s : State} {b : Nat} (h : s.threadsOk) : (s.tellEnd b).threadsOk :=
  .blockRecord (.report (.modBlock h))

/-! ## Taking a trap, and returning from one -/

theorem State.threadsOk.enterHandler {s : State} {w : Nat} {t : Trap} (h : s.threadsOk) :
    (s.enterHandler w t).threadsOk :=
  .modWarp (.ite (.modCore (.count h)) (.count h)) fun _ hW => .update
    (.foldl (fun _ _ h1 => .modLane h1 fun _ hL => .update (.enter hL)) hW)

theorem State.threadsOk.serveLsecc {s : State} {w : Nat} (h : s.threadsOk) : (s.serveLsecc w).threadsOk := by
  unfold State.serveLsecc
  dsimp only
  split
  · exact .ite h (.endBlock (.modWarp h fun _ hW => .update hW))
  · exact h

theorem State.threadsOk.doubleTrap {s : State} {w : Nat} {t : Trap} (h : s.threadsOk) :
    (s.doubleTrap w t).threadsOk :=
  .serveLsecc (.report (.endLanes (.modWarp h fun _ hW => .update hW)))

theorem State.threadsOk.takeTrap {s : State} {w : Nat} {t : Trap} (h : s.threadsOk) : (s.takeTrap w t).threadsOk :=
  .ite (.doubleTrap h) (.ite (.modWarp h fun _ hW => .update
    (.foldl (fun _ _ h1 => .modLane h1 fun _ hL => .update hL) hW)) (.enterHandler h))

theorem State.threadsOk.takePending {s : State} {w : Nat} (h : s.threadsOk) : (s.takePending w).threadsOk := by
  unfold State.takePending
  dsimp only
  split
  · exact .serveLsecc h
  · exact .ite (.serveLsecc h) (.enterHandler (.modWarp (.serveLsecc h) fun _ hW => .update hW))

theorem State.threadsOk.raise {s : State} {g : Nat} {gr : Group} {rs : List Raise} (h : s.threadsOk) :
    (s.raise g gr rs).1.threadsOk :=
  .foldl (fun _ _ h1 => .ite h1 (.takeTrap (.foldl (fun _ _ h2 => .leaveGroup h2) (.ite h1 (.splitOff h1))))) h

theorem Out.threadsOk.raising {s : State} {g : Nat} {gr : Group} {rs : List Raise} {k : Group → State → Out}
    (h : s.threadsOk) (hk : ∀ x s, s.threadsOk → Out.threadsOk (k x s)) :
    Out.threadsOk (s.raising g gr rs k) := by
  refine .ite (hk _ _ h) ?_
  split
  next s _ heq =>
    have h1 : s.threadsOk := .of_fst heq (.raise h)
    exact hk _ _ h1
  next s heq =>
    have h1 : s.threadsOk := .of_fst heq (.raise h)
    exact .next h1

end Sys2Proof.Machine
end

section
/-! SUPPORT. O5: what keeps the form of threads in the checks at issue. -/

namespace Sys2Proof.Machine

theorem State.threadsOk.reportRegs {s : State} {rs : List Raise} (h : s.threadsOk) : (s.reportRegs rs).threadsOk :=
  .foldl (fun _ _ h1 => .report h1) h

theorem Lane.tidy.zeroD {l : Lane} {d : Dst} {width : Nat} (hL : l.tidy) : (l.zeroD d width).tidy := by
  unfold Lane.zeroD
  split
  · exact .setP hL
  all_goals exact .foldl (fun _ _ h => .setV h) hL

theorem State.threadsOk.zeroHelpers {s : State} {gr : Group} {o : Ops} {width : Nat} (h : s.threadsOk) :
    (s.zeroHelpers gr o width).threadsOk :=
  .eachLane h fun _ _ _ _ hL => .zeroD hL

theorem Out.threadsOk.skipHelpers {s : State} {g : Nat} {gr : Group} {o : Ops} {width : Nat} (h : s.threadsOk) :
    Out.threadsOk (s.skipHelpers g gr o width) :=
  .next (.retire (.ite (.zeroHelpers h) h))

theorem Out.threadsOk.issueLane {s : State} {priv : Bool} {o : Ops} {wd : Widths} {k : Nat → Group → State → Out}
    {chk : Widths} (h : s.threadsOk) (hk : ∀ x x2 s, s.threadsOk → Out.threadsOk (k x x2 s)) :
    Out.threadsOk (issueLane s priv o wd k chk) := by
  unfold Machine.issueLane
  split
  · exact .next h
  · exact .ite (.raising (.modGroup h) fun _ _ h1 => .skipHelpers h1)
      (.ite (.raising (.modGroup h) fun _ _ h1 => .skipHelpers h1)
        (.raising (.reportRegs (.modGroup h)) fun _ _ h1 => hk _ _ _ h1))

theorem Out.threadsOk.issueLead {s : State} {priv : Bool} {o : Ops} {wd : Widths} {k : Nat → Group → State → Out}
    (h : s.threadsOk) (hk : ∀ x x2 s, s.threadsOk → Out.threadsOk (k x x2 s)) :
    Out.threadsOk (issueLead s priv o wd k) :=
  .issueLane h fun _ _ _ h1 => .raising (.reportRegs h1) fun _ _ h2 => hk _ _ _ h2

theorem Out.threadsOk.issueUnless {illegal : Group → State → Bool} {s : State} {o : Ops} {wd : Widths}
    {k : Nat → Group → State → Out} {chk : Widths} (h : s.threadsOk)
      (hk : ∀ x x2 s, s.threadsOk → Out.threadsOk (k x x2 s)) :
    Out.threadsOk (issueUnless illegal s o wd k chk) := by
  unfold Machine.issueUnless
  split
  · exact .next h
  · exact .ite (.raising (.modGroup h) fun _ _ h1 => .skipHelpers h1) (.issueLane h fun _ _ _ h1 => hk _ _ _ h1)

theorem Out.threadsOk.issueBare {s : State} {k : Nat → Group → State → Out} (h : s.threadsOk)
    (hk : ∀ x x2 s, s.threadsOk → Out.threadsOk (k x x2 s)) :
    Out.threadsOk (issueBare s k) := by
  unfold Machine.issueBare
  split
  · exact .next h
  · exact hk _ _ _ (.modGroup h)

theorem Out.threadsOk.issueBranch {s : State} {pr : Pred} {k : Nat → Group → State → Out} (h : s.threadsOk)
    (hk : ∀ x x2 s, s.threadsOk → Out.threadsOk (k x x2 s)) :
    Out.threadsOk (issueBranch s pr k) :=
  .issueBare h fun _ _ _ h1 => .raising (.reportRegs h1) fun _ _ h2 => hk _ _ _ h2

theorem Lane.tidy.ifGood {o : Ops} {wd : Widths} {f : Warp → Nat → Lane → Lane} {W : Warp} {l : Nat} {L : Lane}
    (hf : ∀ W, W.tidy → ∀ x L, L.tidy → (f W x L).tidy) (hW : W.tidy) (hL : L.tidy) :
    (ifGood o wd f W l L).tidy := by
  unfold Machine.ifGood
  split
  · exact hf _ hW _ _ hL
  · exact .zeroD hL

theorem Out.threadsOk.lanewise {s : State} {o : Ops} {wd : Widths} {f : Warp → Nat → Lane → Lane} (h : s.threadsOk)
    (hf : ∀ W, W.tidy → ∀ x L, L.tidy → (f W x L).tidy) :
    Out.threadsOk (lanewise s o wd f) :=
  .issueLane h fun _ _ _ h1 => .next (.retire
    (.eachLane h1 fun _ hW _ _ hL => .ifGood (fun _ hW1 _ _ hL1 => hf _ hW1 _ _ hL1) hW hL))

theorem Out.threadsOk.issueUni {s : State} {reads : List Nat} {k : Nat → Group → State → Out} (h : s.threadsOk)
    (hk : ∀ x x2 s, s.threadsOk → Out.threadsOk (k x x2 s)) :
    Out.threadsOk (issueUni s reads k) :=
  .issueBare h fun _ _ _ h1 => .raising (.reportRegs h1) fun _ _ h2 => hk _ _ _ h2

theorem Out.threadsOk.warpwise {s : State} {reads : List Nat} {f : Warp → Warp} (h : s.threadsOk)
    (hf : ∀ W, W.tidy → (f W).tidy) :
    Out.threadsOk (warpwise s reads f) :=
  .issueUni h fun _ _ _ h1 => .next (.retire (.foldl (fun _ _ h2 => .modWarp h2 fun _ hW => hf _ hW) h1))

end Sys2Proof.Machine
end

section
/-! SUPPORT. O5: what keeps the form of threads in conditions, carries and flags. -/

namespace Sys2Proof.Machine

/-! ## Carries and conditions -/

theorem Lane.tidy.putCarry {l : Lane} {m : IMod} {c : Bool} (hL : l.tidy) : (l.putCarry m c).tidy :=
  .ite (.setP hL) hL

/-! ## Completion flags -/

theorem State.threadsOk.attachTo {s : State} {f : Option Nat} {w left : Nat} (h : s.threadsOk) :
    (s.attachTo f w left).2.threadsOk := by
  unfold State.attachTo
  dsimp only
  split
  · exact .newId h
  · split
    · exact .modWarp (.update (.newId h)) fun _ hW => .update hW
    · exact .update (.newId h)

theorem State.threadsOk.attach {s : State} {gr : Group} {w : Nat} {fs : Bool} {left : Nat} (h : s.threadsOk) :
    (s.attach gr w fs left).2.threadsOk :=
  .attachTo h

theorem State.threadsOk.workDone {s : State} {work : Nat} (h : s.threadsOk) : (s.workDone work).threadsOk :=
  .update h

theorem State.threadsOk.unblock {s : State} (h : s.threadsOk) {w : Nat} : (s.unblock w).threadsOk := by
  refine .modWarp h fun W hW => .foldl_mem (fun V e he hV => ?_) hW
  dsimp only
  split
  · exact .ite (.setLane hV (.update (.of_mem hW he))) hV
  all_goals exact hV

theorem State.threadsOk.flagClear {s : State} {work : Nat} {x : Work} (h : s.threadsOk) :
    (s.flagClear work x).threadsOk := by
  unfold State.flagClear
  dsimp only
  split
  · exact .completing (.unblock (.modWarp (.update h) fun _ hW => .update hW))
  · exact .update h

theorem State.threadsOk.settleWork {s : State} {work : Nat} (h : s.threadsOk) : (s.settleWork work).threadsOk := by
  unfold State.settleWork
  split
  · exact .ite (.flagClear h) h
  · exact h

theorem Out.threadsOk.execFlagClear {work : Nat} {s : State} (h : s.threadsOk) :
    Out.threadsOk (execFlagClear work s) := by
  unfold Machine.execFlagClear
  split
  · exact .ite (.next (.flagClear h)) trivial
  · exact trivial

end Sys2Proof.Machine
end

section
/-! SUPPORT. O5: what keeps the form of threads in lane arithmetic. -/

namespace Sys2Proof.Machine

/-! ## Integers -/

theorem Out.threadsOk.intForm {o : Ops} {m : IMod} {ps : List (Fin 8)} {f : Lane → DWord → DWord → DWord × Bool}
    {s : State} (h : s.threadsOk) :
    Out.threadsOk (intForm o m ps f s) :=
  .lanewise h fun _ _ _ _ hL => .putCarry (.putDW hL)

theorem Out.threadsOk.execIAdd {o : Ops} {m : IMod} {s : State} (h : s.threadsOk) : Out.threadsOk (execIAdd o m s) :=
  .intForm h

theorem Out.threadsOk.execISub {o : Ops} {m : IMod} {s : State} (h : s.threadsOk) : Out.threadsOk (execISub o m s) :=
  .intForm h

theorem Out.threadsOk.execIAddc {o : Ops} {m : IMod} {s : State} (h : s.threadsOk) :
    Out.threadsOk (execIAddc o m s) :=
  .intForm h

theorem Out.threadsOk.execISubb {o : Ops} {m : IMod} {s : State} (h : s.threadsOk) :
    Out.threadsOk (execISubb o m s) :=
  .intForm h

theorem Out.threadsOk.execINeg {o : Ops} {m : IMod} {s : State} (h : s.threadsOk) : Out.threadsOk (execINeg o m s) :=
  .intForm h

theorem Out.threadsOk.execIAbs {o : Ops} {m : IMod} {s : State} (h : s.threadsOk) : Out.threadsOk (execIAbs o m s) :=
  .intForm h

theorem Out.threadsOk.execIMin {o : Ops} {m : IMod} {s : State} (h : s.threadsOk) : Out.threadsOk (execIMin o m s) :=
  .intForm h

theorem Out.threadsOk.execIMax {o : Ops} {m : IMod} {s : State} (h : s.threadsOk) : Out.threadsOk (execIMax o m s) :=
  .intForm h

theorem Out.threadsOk.execISad {o : Ops} {m : IMod} {s : State} (h : s.threadsOk) : Out.threadsOk (execISad o m s) :=
  .lanewise h fun _ _ _ _ hL => .putD hL

theorem Out.threadsOk.execImMul {o : Ops} {part : Sys2Proof.Part} {u : Bool} {s : State} (h : s.threadsOk) :
    Out.threadsOk (execImMul o part u s) :=
  .lanewise h fun _ _ _ _ hL => .putDW hL

theorem Out.threadsOk.execImMad {o : Ops} {part : Sys2Proof.Part} {u : Bool} {s : State} (h : s.threadsOk) :
    Out.threadsOk (execImMad o part u s) :=
  .lanewise h fun _ _ _ _ hL => .putD hL

theorem Out.threadsOk.execImMadw {o : Ops} {u : Bool} {s : State} (h : s.threadsOk) :
    Out.threadsOk (execImMadw o u s) :=
  .lanewise h fun _ _ _ _ hL => .putD64 hL

theorem Out.threadsOk.logForm {o : Ops} {w64 : Bool} {f : DWord → DWord → DWord} {s : State} (h : s.threadsOk) :
    Out.threadsOk (logForm o w64 f s) :=
  .lanewise h fun _ _ _ _ hL => .putDW hL

theorem Out.threadsOk.execLogAnd {o : Ops} {w64 : Bool} {s : State} (h : s.threadsOk) :
    Out.threadsOk (execLogAnd o w64 s) :=
  .logForm h

theorem Out.threadsOk.execLogOr {o : Ops} {w64 : Bool} {s : State} (h : s.threadsOk) :
    Out.threadsOk (execLogOr o w64 s) :=
  .logForm h

theorem Out.threadsOk.execLogXor {o : Ops} {w64 : Bool} {s : State} (h : s.threadsOk) :
    Out.threadsOk (execLogXor o w64 s) :=
  .logForm h

theorem Out.threadsOk.execLogAndn {o : Ops} {w64 : Bool} {s : State} (h : s.threadsOk) :
    Out.threadsOk (execLogAndn o w64 s) :=
  .logForm h

theorem Out.threadsOk.execLogNot {o : Ops} {w64 : Bool} {s : State} (h : s.threadsOk) :
    Out.threadsOk (execLogNot o w64 s) :=
  .logForm h

theorem Out.threadsOk.shForm {o : Ops} {w64 : Bool} {f32 : Word → Nat → Word} {f64 : DWord → Nat → DWord} {s : State}
    (h : s.threadsOk) :
    Out.threadsOk (shForm o w64 f32 f64 s) :=
  .lanewise h fun _ _ _ _ hL => .ite (.putD64 hL) (.putD hL)

theorem Out.threadsOk.execShShl {o : Ops} {w64 : Bool} {s : State} (h : s.threadsOk) :
    Out.threadsOk (execShShl o w64 s) :=
  .shForm h

theorem Out.threadsOk.execShShr {o : Ops} {w64 arith : Bool} {s : State} (h : s.threadsOk) :
    Out.threadsOk (execShShr o w64 arith s) :=
  .ite (.shForm h) (.shForm h)

theorem Out.threadsOk.execShRot {o : Ops} {w64 : Bool} {s : State} (h : s.threadsOk) :
    Out.threadsOk (execShRot o w64 s) :=
  .shForm h

theorem Out.threadsOk.execShFun {o : Ops} {left : Bool} {s : State} (h : s.threadsOk) :
    Out.threadsOk (execShFun o left s) :=
  .lanewise h fun _ _ _ _ hL => .putD hL

theorem Out.threadsOk.execBfExt {o : Ops} {sx : Bool} {s : State} (h : s.threadsOk) :
    Out.threadsOk (execBfExt o sx s) :=
  .lanewise h fun _ _ _ _ hL => .putD hL

theorem Out.threadsOk.execBfIns {o : Ops} {s : State} (h : s.threadsOk) : Out.threadsOk (execBfIns o s) :=
  .lanewise h fun _ _ _ _ hL => .putD hL

theorem Out.threadsOk.execBfPopc {o : Ops} {s : State} (h : s.threadsOk) : Out.threadsOk (execBfPopc o s) :=
  .lanewise h fun _ _ _ _ hL => .putD hL

theorem Out.threadsOk.execBfClz {o : Ops} {s : State} (h : s.threadsOk) : Out.threadsOk (execBfClz o s) :=
  .lanewise h fun _ _ _ _ hL => .putD hL

theorem Out.threadsOk.execBfBrev {o : Ops} {s : State} (h : s.threadsOk) : Out.threadsOk (execBfBrev o s) :=
  .lanewise h fun _ _ _ _ hL => .putD hL

theorem Out.threadsOk.execBfFfs {o : Ops} {s : State} (h : s.threadsOk) : Out.threadsOk (execBfFfs o s) :=
  .lanewise h fun _ _ _ _ hL => .putD hL

/-! ## Compares and predicates -/

theorem Out.threadsOk.execCmpI {o : Ops} {c : ICond} {w64 : Bool} {k : Comb} {s : State} (h : s.threadsOk) :
    Out.threadsOk (execCmpI o c w64 k s) :=
  .lanewise h fun _ _ _ _ hL => .putT hL

theorem Out.threadsOk.execCmpF {o : Ops} {c : FCond} {fz : Bool} {k : Comb} {s : State} (h : s.threadsOk) :
    Out.threadsOk (execCmpF o c fz k s) :=
  .lanewise h fun _ _ _ _ hL => .putT hL

theorem Out.threadsOk.execCmpD {o : Ops} {c : FCond} {fz : Bool} {k : Comb} {s : State} (h : s.threadsOk) :
    Out.threadsOk (execCmpD o c fz k s) :=
  .lanewise h fun _ _ _ _ hL => .putT hL

theorem Out.threadsOk.execPrLog {o : Ops} {pa pb pc : Fin 8} {s : State} (h : s.threadsOk) :
    Out.threadsOk (execPrLog o pa pb pc s) :=
  .lanewise h fun _ _ _ _ hL => .putT hL

/-! ## Moves -/

theorem Out.threadsOk.execMvMov {o : Ops} {w64 : Bool} {s : State} (h : s.threadsOk) :
    Out.threadsOk (execMvMov o w64 s) :=
  .lanewise h fun _ _ _ _ hL => .putDW hL

theorem Out.threadsOk.execMvSel {o : Ops} {ps : Fin 8} {sn w64 : Bool} {s : State} (h : s.threadsOk) :
    Out.threadsOk (execMvSel o ps sn w64 s) :=
  .lanewise h fun _ _ _ _ hL => .putDW hL

theorem Out.threadsOk.execMvPrm {o : Ops} {s : State} (h : s.threadsOk) : Out.threadsOk (execMvPrm o s) :=
  .lanewise h fun _ _ _ _ hL => .putD hL

theorem Out.threadsOk.execMvLea {o : Ops} {sh : Fin 8} {u : Bool} {s : State} (h : s.threadsOk) :
    Out.threadsOk (execMvLea o sh u s) :=
  .lanewise h fun _ _ _ _ hL => .putD64 hL

/-! ## Conversions -/

theorem Out.threadsOk.execCvI2f {o : Ops} {m : CvMod} {src : ITy} {dst : FTy} {s : State} (h : s.threadsOk) :
    Out.threadsOk (execCvI2f o m src dst s) :=
  .lanewise h fun _ _ _ _ hL => .putDW hL

theorem Out.threadsOk.execCvF2i {o : Ops} {m : CvMod} {src : FTy} {dst : ITy} {s : State} (h : s.threadsOk) :
    Out.threadsOk (execCvF2i o m src dst s) :=
  .lanewise h fun _ _ _ _ hL => .putDW hL

theorem Out.threadsOk.execCvF2f {o : Ops} {m : CvMod} {src dst : FTy} {s : State} (h : s.threadsOk) :
    Out.threadsOk (execCvF2f o m src dst s) :=
  .lanewise h fun _ _ _ _ hL => .putDW hL

theorem Out.threadsOk.execCvI2i {o : Ops} {wrap : Bool} {src dst : ITy} {s : State} (h : s.threadsOk) :
    Out.threadsOk (execCvI2i o wrap src dst s) :=
  .lanewise h fun _ _ _ _ hL => .putDW hL

/-! ## Floating point -/

theorem Out.threadsOk.fForm {op : FOp} {o : Ops} {m : FMod} {s : State} (h : s.threadsOk) :
    Out.threadsOk (fForm op o m s) :=
  .lanewise h fun _ _ _ _ hL => .putD hL

theorem Out.threadsOk.execFAdd {o : Ops} {m : FMod} {s : State} (h : s.threadsOk) : Out.threadsOk (execFAdd o m s) :=
  .fForm h

theorem Out.threadsOk.execFSub {o : Ops} {m : FMod} {s : State} (h : s.threadsOk) : Out.threadsOk (execFSub o m s) :=
  .fForm h

theorem Out.threadsOk.execFMul {o : Ops} {m : FMod} {s : State} (h : s.threadsOk) : Out.threadsOk (execFMul o m s) :=
  .fForm h

theorem Out.threadsOk.execFFma {o : Ops} {m : FMod} {s : State} (h : s.threadsOk) : Out.threadsOk (execFFma o m s) :=
  .fForm h

theorem Out.threadsOk.execFMin {o : Ops} {m : FMod} {s : State} (h : s.threadsOk) : Out.threadsOk (execFMin o m s) :=
  .fForm h

theorem Out.threadsOk.execFMax {o : Ops} {m : FMod} {s : State} (h : s.threadsOk) : Out.threadsOk (execFMax o m s) :=
  .fForm h

theorem Out.threadsOk.execFCls {o : Ops} {s : State} (h : s.threadsOk) : Out.threadsOk (execFCls o s) := by
  refine .lanewise h fun _ hW _ _ hL => ?_
  dsimp only
  split
  · exact .putD hL
  all_goals exact .putT hL

theorem Out.threadsOk.fhForm {op : FOp} {o : Ops} {m : FMod} {s : State} (h : s.threadsOk) :
    Out.threadsOk (fhForm op o m s) :=
  .lanewise h fun _ _ _ _ hL => .putD hL

theorem Out.threadsOk.execFhAdd2 {o : Ops} {m : FMod} {s : State} (h : s.threadsOk) :
    Out.threadsOk (execFhAdd2 o m s) :=
  .fhForm h

theorem Out.threadsOk.execFhMul2 {o : Ops} {m : FMod} {s : State} (h : s.threadsOk) :
    Out.threadsOk (execFhMul2 o m s) :=
  .fhForm h

theorem Out.threadsOk.execFhFma2 {o : Ops} {m : FMod} {s : State} (h : s.threadsOk) :
    Out.threadsOk (execFhFma2 o m s) :=
  .fhForm h

theorem Out.threadsOk.execFhMin2 {o : Ops} {m : FMod} {s : State} (h : s.threadsOk) :
    Out.threadsOk (execFhMin2 o m s) :=
  .fhForm h

theorem Out.threadsOk.execFhMax2 {o : Ops} {m : FMod} {s : State} (h : s.threadsOk) :
    Out.threadsOk (execFhMax2 o m s) :=
  .fhForm h

theorem Out.threadsOk.dForm {op : FOp} {o : Ops} {m : FMod} {s : State} (h : s.threadsOk) :
    Out.threadsOk (dForm op o m s) :=
  .lanewise h fun _ _ _ _ hL => .putD64 hL

theorem Out.threadsOk.execDAdd {o : Ops} {m : FMod} {s : State} (h : s.threadsOk) : Out.threadsOk (execDAdd o m s) :=
  .dForm h

theorem Out.threadsOk.execDMul {o : Ops} {m : FMod} {s : State} (h : s.threadsOk) : Out.threadsOk (execDMul o m s) :=
  .dForm h

theorem Out.threadsOk.execDFma {o : Ops} {m : FMod} {s : State} (h : s.threadsOk) : Out.threadsOk (execDFma o m s) :=
  .dForm h

theorem Out.threadsOk.execDMin {o : Ops} {m : FMod} {s : State} (h : s.threadsOk) : Out.threadsOk (execDMin o m s) :=
  .dForm h

theorem Out.threadsOk.execDMax {o : Ops} {m : FMod} {s : State} (h : s.threadsOk) : Out.threadsOk (execDMax o m s) :=
  .dForm h

/-! ## Special functions -/

theorem Out.threadsOk.sfForm {f : Bool → Word → Word} {o : Ops} {fz : Bool} {s : State} (h : s.threadsOk) :
    Out.threadsOk (sfForm f o fz s) :=
  .lanewise h fun _ _ _ _ hL => .putD hL

theorem Out.threadsOk.execSfRcp {o : Ops} {fz : Bool} {s : State} (h : s.threadsOk) :
    Out.threadsOk (execSfRcp o fz s) :=
  .sfForm h

theorem Out.threadsOk.execSfRsq {o : Ops} {fz : Bool} {s : State} (h : s.threadsOk) :
    Out.threadsOk (execSfRsq o fz s) :=
  .sfForm h

theorem Out.threadsOk.execSfSqrt {o : Ops} {fz : Bool} {s : State} (h : s.threadsOk) :
    Out.threadsOk (execSfSqrt o fz s) :=
  .sfForm h

theorem Out.threadsOk.execSfExp2 {o : Ops} {fz : Bool} {s : State} (h : s.threadsOk) :
    Out.threadsOk (execSfExp2 o fz s) :=
  .sfForm h

theorem Out.threadsOk.execSfLog2 {o : Ops} {fz : Bool} {s : State} (h : s.threadsOk) :
    Out.threadsOk (execSfLog2 o fz s) :=
  .sfForm h

theorem Out.threadsOk.execSfSin {o : Ops} {fz : Bool} {s : State} (h : s.threadsOk) :
    Out.threadsOk (execSfSin o fz s) :=
  .sfForm h

theorem Out.threadsOk.execSfCos {o : Ops} {fz : Bool} {s : State} (h : s.threadsOk) :
    Out.threadsOk (execSfCos o fz s) :=
  .sfForm h

theorem Out.threadsOk.execSfTanh {o : Ops} {fz : Bool} {s : State} (h : s.threadsOk) :
    Out.threadsOk (execSfTanh o fz s) :=
  .sfForm h

/-! ## Dot products -/

theorem Out.threadsOk.dotForm {f : Fmt} {o : Ops} {m : DotMod} {s : State} (h : s.threadsOk) :
    Out.threadsOk (dotForm f o m s) :=
  .lanewise h fun _ _ _ _ hL => .putD hL

theorem Out.threadsOk.execDotI8x4 {o : Ops} {m : DotMod} {s : State} (h : s.threadsOk) :
    Out.threadsOk (execDotI8x4 o m s) :=
  .dotForm h

theorem Out.threadsOk.execDotI4x8 {o : Ops} {m : DotMod} {s : State} (h : s.threadsOk) :
    Out.threadsOk (execDotI4x8 o m s) :=
  .dotForm h

theorem Out.threadsOk.execDotE4m3x4 {o : Ops} {m : DotMod} {s : State} (h : s.threadsOk) :
    Out.threadsOk (execDotE4m3x4 o m s) :=
  .dotForm h

theorem Out.threadsOk.execDotE5m2x4 {o : Ops} {m : DotMod} {s : State} (h : s.threadsOk) :
    Out.threadsOk (execDotE5m2x4 o m s) :=
  .dotForm h

theorem Out.threadsOk.execDotE2m1x8 {o : Ops} {m : DotMod} {s : State} (h : s.threadsOk) :
    Out.threadsOk (execDotE2m1x8 o m s) :=
  .dotForm h

/-! ## Packing -/

theorem Out.threadsOk.execPkCvt {o : Ops} {m : PkCvtMod} {s : State} (h : s.threadsOk) :
    Out.threadsOk (execPkCvt o m s) :=
  .lanewise h fun _ _ _ _ hL => .putD hL

theorem Out.threadsOk.execPkUnp {o : Ops} {fmt : Fmt} {fz : Bool} {s : State} (h : s.threadsOk) :
    Out.threadsOk (execPkUnp o fmt fz s) :=
  .lanewise h fun _ _ _ _ hL => .putD hL

theorem Out.threadsOk.execPkScl {o : Ops} {fmt : Fmt} {s : State} (h : s.threadsOk) :
    Out.threadsOk (execPkScl o fmt s) :=
  .lanewise h fun _ _ _ _ hL => .putD hL

theorem Out.threadsOk.execPkPl6 {o : Ops} {join : Bool} {s : State} (h : s.threadsOk) :
    Out.threadsOk (execPkPl6 o join s) :=
  .lanewise h fun _ _ _ _ hL => .putD64 hL

end Sys2Proof.Machine
end

section
/-! SUPPORT. O5: what keeps the form of threads in translation. -/

namespace Sys2Proof.Machine

/-! ## Walks -/

theorem State.threadsOk.startWalk {s : State} {ctx : Nat} {va : DWord} {n : Need} {lvl table : Nat} {fresh : Bool}
    (h : s.threadsOk) :
    (s.startWalk ctx va n lvl table fresh).2.threadsOk :=
  .update (.newId h)

theorem State.threadsOk.dropWalks {s : State} {ids : List Nat} (h : s.threadsOk) : (s.dropWalks ids).threadsOk :=
  .update h

theorem State.threadsOk.cacheEntry {s : State} {ctx lvl idx : Nat} {e : DWord} (h : s.threadsOk) :
    (s.cacheEntry ctx lvl idx e).threadsOk :=
  .update h

theorem State.threadsOk.fetchFault {s : State} {walk code : Nat} {tad : DWord} (h : s.threadsOk) :
    (s.fetchFault walk code tad).threadsOk := by
  refine .foldl (fun _ _ h1 => ?_) h
  dsimp only
  split
  · exact h1
  · exact .takeTrap (.foldl (fun _ _ h2 => .modLane h2 fun _ hL => .update hL) h1)

theorem State.threadsOk.fetchReady {s : State} {walk : Nat} (h : s.threadsOk) : (s.fetchReady walk).threadsOk :=
  .foldl (fun _ _ h1 => .foldl (fun _ _ h2 => .ite (.modLane h2 fun _ hL => .update hL) h2) h1) h

theorem State.threadsOk.walkFails {s : State} {k : Nat} {w : Walk} {c : Cause} (h : s.threadsOk) :
    (s.walkFails k w c).threadsOk :=
  .ite (.ite (.fetchFault (.update h)) (.update h)) (.update h)

theorem Out.threadsOk.execPageWalkRead {walk : Nat} {s : State} (h : s.threadsOk) :
    Out.threadsOk (execPageWalkRead walk s) := by
  refine .needing (fun _ h1 => ?_) h
  split
  · exact trivial
  · refine .ite trivial (.ite (.next (.walkFails h1))
      (.ite (.next (.walkFails (.devRead h1)))
        (.ite (.ite ?_ (.next (.walkFails (.cacheEntry (.devRead h1)))))
          (.next (.update (.cacheEntry (.devRead h1)))))))
    split
    · exact .next (.walkFails (.cacheEntry (.devRead h1)))
    · exact .next (.fetchReady (.update (.cacheEntry (.devRead h1))))

/-! ## Shootdowns -/

theorem State.threadsOk.beginShootdown {s : State} {ctx g lo n : Nat} {all domain : Bool} (h : s.threadsOk) :
    (s.beginShootdown ctx g lo n all domain).2.threadsOk := by
  have hpushed : (((List.range Config.nCore).filter s.partialsOut).foldl (fun s c => s.pushAll c) s).threadsOk :=
    .foldl (fun _ _ h1 => .pushAll h1) h
  exact ⟨hpushed.sorted_warps, AMap.sorted_map (fun _ => ite_fst rfl rfl) hpushed.sorted_groups, fun _ he =>
    .of_mem hpushed he⟩

end Sys2Proof.Machine
end

section
/-! SUPPORT. O5: what keeps the form of threads in lines and homes. -/

namespace Sys2Proof.Machine

/-! ## Messages -/

theorem State.threadsOk.request {s : State} {src line ctx : Nat} {body : Body} (h : s.threadsOk) :
    (s.request src line ctx body).threadsOk :=
  .update (.newId h)

/-! ## Flits -/

theorem State.threadsOk.intoLink {s : State} {k : Nat} {p : Packet} (h : s.threadsOk) : (s.intoLink k p).threadsOk :=
  .setLink h

theorem State.threadsOk.lose {s : State} {p : Packet} (h : s.threadsOk) : (s.lose p).threadsOk := by
  refine .ite (.update h) ?_
  split
  · exact .intoLink h
  · exact h

theorem State.threadsOk.route {s : State} {p : Packet} (h : s.threadsOk) : (s.route p).threadsOk := by
  unfold State.route
  split
  · exact .intoLink h
  · exact .lose h

theorem State.threadsOk.fabric {s : State} {chip : Nat} {m : FabMsg} (h : s.threadsOk) :
    (s.fabric chip m).threadsOk :=
  .route h

/-! ## Element operations -/

theorem Lane.tidy.putRes {l : Lane} {dst : Option Nat} {n : Nat} {x : DWord} (hL : l.tidy) :
    (l.putRes dst n x).tidy := by
  unfold Lane.putRes
  split
  · exact .ite (.setV64 hL) (.setV hL)
  · exact hL

theorem State.threadsOk.engineBytes {s : State} {cmd pos len : Nat} {x : DWord} {bad : Bool} (h : s.threadsOk) :
    (s.engineBytes cmd pos len x bad).threadsOk :=
  .update h

theorem State.threadsOk.opDone {s : State} {k : Nat} {op : Op} {x : DWord} (h : s.threadsOk) :
    (s.opDone k op x).threadsOk := by
  unfold State.opDone
  extract_lets -merge +onlyGivenNames s1 s2 s3 s4
  have h1 : s1.threadsOk := .update h
  have h2 : s2.threadsOk := by
    unfold s2
    split
    · exact .modGroup h1
    · exact .workDone (.modLane h1 fun _ hL => .putRes hL)
  have h3 : s3.threadsOk := by
    unfold s3
    split
    · exact .modGroup h2
    · exact .engineBytes h2
    all_goals exact h2
  have h4 : s4.threadsOk := by
    unfold s4
    split
    · exact .update h3
    · exact h3
  exact .ite (.releaseQuarters h4) h4

theorem State.threadsOk.resultsDone {s : State} {gr : Group} (h : s.threadsOk) : (s.resultsDone gr).threadsOk :=
  .foldl (fun _ _ h1 => .workDone h1) h

theorem State.threadsOk.putResults {s : State} {gr : Group} (h : s.threadsOk) : (s.putResults gr).threadsOk :=
  .foldl (fun _ _ h1 => .ite (.modLane h1 fun _ hL => .putRes hL) h1) h

theorem State.threadsOk.opBad {s : State} {k : Nat} {op : Op} (h : s.threadsOk) : (s.opBad k op).threadsOk := by
  unfold State.opBad
  extract_lets -merge +onlyGivenNames s1 s2 s3 s4 s5
  have h1 : s1.threadsOk := .update h
  have h2 : s2.threadsOk := .workDone h1
  have h3 : s3.threadsOk := by
    unfold s3
    split
    · exact .update h2
    · exact h2
  have h4 : s4.threadsOk := by
    unfold s4
    split
    · exact .modGroup h3
    · exact .engineBytes h3
    all_goals exact h3
  have h5 : s5.threadsOk := by
    unfold s5
    split
    · exact .modGroup h4
    · exact h4
  exact .ite (.releaseQuarters h5) h5

theorem State.threadsOk.performOwn {s : State} {k line : Nat} {op : Op} {c : CLine} (h : s.threadsOk) :
    (s.performOwn k line op c).threadsOk := by
  unfold State.performOwn
  dsimp only
  split
  · exact .opDone (.gwct (.setCline h))
  · exact .opDone h

/-! ## A request at its home -/

theorem State.threadsOk.colourKnown {s : State} {g slot c : Nat} (h : s.threadsOk) :
    (s.colourKnown g slot c).threadsOk :=
  .modGroup h

theorem State.threadsOk.recolourDone {s : State} {g key trap t : Nat} (h : s.threadsOk) :
    (s.recolourDone g key trap t).threadsOk :=
  .modGroup h

theorem State.threadsOk.poisonReply {s : State} {m : Msg} (h : s.threadsOk) : (s.poisonReply m).threadsOk := by
  unfold State.poisonReply
  split
  iterate 8 · exact .send h
  · exact .colourKnown h
  · exact .recolourDone h
  · exact .update h
  iterate 13 · exact h
  · exact .workDone h

theorem State.threadsOk.codeReady {s : State} {id line : Nat} (h : s.threadsOk) : (s.codeReady id line).threadsOk :=
  .fetchReady (.foldl (fun _ _ h1 => .modCore h1) h)

theorem State.threadsOk.codeFault {s : State} {id line : Nat}
    (h : s.threadsOk) : (s.codeFault id line).threadsOk := by
  unfold State.codeFault
  split
  · exact h
  · exact .fetchFault h

theorem State.threadsOk.begin {s : State} {id : Nat} {m : Msg} (h : s.threadsOk) : (s.begin id m).threadsOk := by
  unfold State.begin
  dsimp only
  split
  · exact .foldl (fun _ _ h1 => .send h1) (.setHline h)
  · refine .foldl (fun _ _ h1 => .send h1) ?_
    split
    · refine .update ?_
      split
      · exact .ite (.foldl (fun _ _ h1 => .fabric h1) (.setHline h))
          (.update (.foldl (fun _ _ h1 => .fabric h1) (.setHline h)))
      · exact .foldl (fun _ _ h1 => .fabric h1) (.setHline h)
    · split
      · exact .ite (.foldl (fun _ _ h1 => .fabric h1) (.setHline h))
          (.update (.foldl (fun _ _ h1 => .fabric h1) (.setHline h)))
      · exact .foldl (fun _ _ h1 => .fabric h1) (.setHline h)

theorem State.threadsOk.hostAnswer {s : State} {n : Nat} {half : Bool} {line : Nat} {h : HLine} {bias : Bool}
    (h1 : s.threadsOk) :
    (s.hostAnswer n half line h bias).threadsOk := by
  unfold State.hostAnswer
  split
  · exact h1
  · dsimp only
    split
    all_goals exact .update (.setHline (.update h1))

theorem State.threadsOk.deadlineWrite {s : State} {line off len : Nat} (h : s.threadsOk) :
    (s.deadlineWrite line off len).threadsOk :=
  .update h

theorem State.threadsOk.chipAnswer {s : State} {chip id line : Nat} {h : HLine} {r : ChipReq} (h1 : s.threadsOk) :
    (s.chipAnswer chip id line h r).threadsOk := by
  unfold State.chipAnswer
  dsimp only
  split
  · exact .ite (.fabric (.report (.setHline h1))) (.fabric (.setHline h1))
  · exact .fabric (.setHline h1)
  · exact .ite (.fabric (.report (.setHline h1))) (.fabric (.setHline h1))
  · exact .ite (.fabric (.report (.setHline h1))) (.fabric (.setHline h1))
  · refine .ite (.fabric (.report (.setHline h1))) ?_
    split
    all_goals exact .fabric (.setHline h1)
  · refine .ite (.fabric (.report (.setHline h1))) ?_
    split
    · exact .fabric (.setHline (.deadlineWrite (.update h1)))
    · exact .fabric (.setHline (.deadlineWrite (.update h1)))
    · split
      all_goals exact .fabric (.setHline (.deadlineWrite (.update h1)))
  · exact .ite (.fabric (.setHline (.update h1))) (.fabric (.setHline h1))
  · exact .fabric (.setHline h1)
  · exact .ite (.fabric (.setHline h1)) (.ite (.fabric (.setHline h1)) (.fabric (.setHline h1)))

theorem State.threadsOk.foldParts {s : State} {line : Nat} {h : HLine} {parts : AMap Partial} (h1 : s.threadsOk) :
    (s.foldParts line h parts).threadsOk :=
  .foldl (fun _ _ h2 => .gwctAll (.update h2)) h1

theorem State.threadsOk.finish {s : State} {line : Nat} {b : Busy}
    (h : s.threadsOk) : (s.finish line b).threadsOk := by
  unfold State.finish
  split
  · exact .setHline h
  · extract_lets -merge +onlyGivenNames h1 s1 k local_ h2
    have h1 : s1.threadsOk := .ite h (.foldParts h)
    refine .ite (.codeFault (.poisonReply (.setHline (.update h1)))) ?_
    extract_lets -merge +onlyGivenNames h2 s1 opOf there time
    have h2 : s1.threadsOk := .update h1
    split
    · exact .send (.setHline h2)
    · exact .send (.setHline h2)
    · dsimp only
      split
      · exact .send (.setHline h2)
      · exact .send (.setHline h2)
    · exact .send (.setHline h2)
    · dsimp only
      split
      · split
        · exact .send (.setHline (.deadlineWrite (.update h2)))
        · exact .send (.setHline (.deadlineWrite (.update h2)))
      all_goals exact .send (.setHline (.deadlineWrite (.update h2)))
    · exact .send (.setHline (.update h2))
    · exact .send (.setHline h2)
    · exact .colourKnown (.setHline h2)
    · exact .recolourDone (.setHline h2)
    · exact .codeReady (.ite (.setHline h2) (.update (.setHline h2)))
    · exact .update (.setHline (.workDone (.deadlineWrite h2)))
    · exact .setHline h2
    · exact .chipAnswer h2
    · exact .hostAnswer h2
    all_goals exact .setHline h2

theorem State.threadsOk.askHome {s : State} {line : Nat} {b : Busy} {r : ChipReq} (h : s.threadsOk) :
    (s.askHome line b r).threadsOk := by
  unfold State.askHome
  dsimp only
  split
  · exact .ite (.setHline h) (.fabric (.setHline h))
  · exact .setHline h

theorem State.threadsOk.pump {s : State} (h : s.threadsOk) {line x : Nat} : (s.pump line x).threadsOk := by
  induction x generalizing s with
  | zero => exact h
  | succ n ih =>
    unfold State.pump
    dsimp only
    split
    · refine .ite (ih ?_) h
      split
      · exact .askHome h
      · exact .finish h
    · split
      · exact h
      · split
        · exact ih (.begin (.setHline h))
        · exact ih (.setHline h)

theorem State.threadsOk.serve {s : State} {line : Nat} (h : s.threadsOk) : (s.serve line).threadsOk :=
  .pump h

theorem State.threadsOk.enqueue {s : State} {id line : Nat} (h : s.threadsOk) : (s.enqueue id line).threadsOk :=
  .serve (.setHline h)

/-! ## The Weir -/

theorem State.threadsOk.arrive {s : State} {id : Nat} {m : Msg} (h : s.threadsOk) : (s.arrive id m).threadsOk := by
  refine .ite ?_ (.enqueue h)
  split
  · exact .enqueue (.setSlice h)
  · exact .setSlice (.count h)

theorem State.threadsOk.portServe {s : State} {n : Nat} {ids : List Nat} (h : s.threadsOk) :
    (s.portServe n ids).threadsOk := by
  refine .foldl (fun _ _ h1 => ?_) h
  split
  · refine .ite h1 ?_
    split
    · exact .enqueue (.setSlice h1)
    · exact h1
  · exact h1

theorem Out.threadsOk.execWeirTick {slice : Nat} {s : State} (h : s.threadsOk) :
    Out.threadsOk (execWeirTick slice s) :=
  .ite (.next (.portServe (.setSlice h))) trivial

theorem Out.threadsOk.execPoolReset {slice : Nat} {s : State} (h : s.threadsOk) :
    Out.threadsOk (execPoolReset slice s) :=
  .ite (.next (.setSlice h)) trivial

/-! ## Events at the homes -/

theorem Out.threadsOk.withMsg {id : Nat} {s : State} {is : Body → Bool} {k : Msg → Out}
    (hk : ∀ x, Out.threadsOk (k x)) :
    Out.threadsOk (withMsg id s is k) := by
  unfold Machine.withMsg
  split
  · exact .ite (hk _) trivial
  · exact trivial

theorem Out.threadsOk.execOwnRequest {msg : Nat} {s : State} (h : s.threadsOk) :
    Out.threadsOk (execOwnRequest msg s) :=
  .withMsg fun _ => .next (.arrive h)

theorem Out.threadsOk.execThruRead {msg : Nat} {s : State} (h : s.threadsOk) : Out.threadsOk (execThruRead msg s) :=
  .withMsg fun _ => .next (.arrive h)

theorem Out.threadsOk.execLeaseRequest {msg : Nat} {s : State} (h : s.threadsOk) :
    Out.threadsOk (execLeaseRequest msg s) :=
  .withMsg fun _ => .next (.arrive h)

theorem Out.threadsOk.execTrackRequest {msg : Nat} {s : State} (h : s.threadsOk) :
    Out.threadsOk (execTrackRequest msg s) :=
  .withMsg fun _ => .next (.arrive h)

theorem Out.threadsOk.execApplyWrite {msg : Nat} {s : State} (h : s.threadsOk) :
    Out.threadsOk (execApplyWrite msg s) :=
  .withMsg fun _ => .next (.arrive h)

theorem Out.threadsOk.execRdLocRequest {msg : Nat} {s : State} (h : s.threadsOk) :
    Out.threadsOk (execRdLocRequest msg s) :=
  .withMsg fun _ => .next (.arrive h)

theorem Out.threadsOk.execRdThruRequest {msg : Nat} {s : State} (h : s.threadsOk) :
    Out.threadsOk (execRdThruRequest msg s) :=
  .withMsg fun _ => .next (.arrive h)

theorem Out.threadsOk.execColourQuery {msg : Nat} {s : State} (h : s.threadsOk) :
    Out.threadsOk (execColourQuery msg s) :=
  .withMsg fun _ => .next (.arrive h)

theorem Out.threadsOk.execPushedPartial {msg : Nat} {s : State} (h : s.threadsOk) :
    Out.threadsOk (execPushedPartial msg s) := by
  refine .withMsg fun _ => ?_
  split
  · dsimp only
    split
    · exact .ite (.next (.enqueue h)) (.ite (.next (.update (.setHline h)))
        (.next (.foldParts (.update (.setHline h)))))
    · split
      · exact .next (.enqueue h)
      all_goals exact .ite (.next (.enqueue h)) (.next (.foldParts (.update (.setHline h))))
  · exact trivial

theorem Out.threadsOk.execWriteBack {msg : Nat} {s : State} (h : s.threadsOk) :
    Out.threadsOk (execWriteBack msg s) := by
  refine .withMsg fun _ => ?_
  split
  · dsimp only
    split
    · exact .next (.workDone (.ite (.update (.setHline (.update h))) (.setHline (.update h))))
    · exact .next (.ite (.update (.setHline (.update h))) (.setHline (.update h)))
  · exact .next (.chipAnswer (.update h))
  · exact trivial

theorem Out.threadsOk.execRecallAck {msg : Nat} {s : State} (h : s.threadsOk) :
    Out.threadsOk (execRecallAck msg s) := by
  refine .withMsg fun _ => ?_
  dsimp only
  split
  · exact .next (.serve (.setHline (.update h)))
  · exact .next (.update h)

theorem Out.threadsOk.execL2Evict {line : Nat} {s : State} (h : s.threadsOk) : Out.threadsOk
    (execL2Evict line s) := by
  refine .ite ?_ trivial
  split
  · exact .next (.setHline (.setSlice h))
  all_goals exact .next (.enqueue (.update (.newId h)))

theorem Out.threadsOk.execProxyEvict {line : Nat} {s : State} (h : s.threadsOk) :
    Out.threadsOk (execProxyEvict line s) := by
  unfold Machine.execProxyEvict
  dsimp only
  split
  · refine .ite ?_ trivial
    split
    · exact .ite (.ite trivial (.next (.enqueue (.update (.newId h))))) (.next (.setHline h))
    all_goals exact .next (.settle h)
  · exact trivial

/-! ## Events at the cores -/

theorem State.threadsOk.giveUp {s : State} {agent line : Nat} {c : CLine} {work : Option Nat} (h : s.threadsOk) :
    (s.giveUp agent line c work).threadsOk := by
  unfold State.giveUp
  split
  · exact .send (.delCline h)
  · exact .send (.delCline h)
  · exact .pushPartial h
  all_goals exact .delCline h

theorem State.threadsOk.proxyGiveUp {s : State} {line chip : Nat} {all : Bool} (h : s.threadsOk) :
    (s.proxyGiveUp line chip all).threadsOk :=
  .fabric (.setHline (.settle h))

theorem Out.threadsOk.execRecall {msg : Nat} {s : State} (h : s.threadsOk) : Out.threadsOk (execRecall msg s) := by
  refine .withMsg fun _ => ?_
  split
  · refine .ite (.ite (.ite trivial (.next (.proxyGiveUp (.update h))))
      (.ite trivial (.next (.send (.delCline (.recalled (.update h))))))) (.next (.send ?_))
    split
    · exact .recalled (.update h)
    · exact .ite (.send (.setCline (.recalled (.update h))))
        (.ite (.recalled (.update h)) (.giveUp (.recalled (.update h))))
  · exact trivial

theorem Out.threadsOk.execInvalidate {msg : Nat} {s : State} (h : s.threadsOk) :
    Out.threadsOk (execInvalidate msg s) :=
  .withMsg fun _ => .ite (.ite trivial (.next (.proxyGiveUp (.update h))))
    (.next (.send (.delCline (.recalled (.update h)))))

theorem Out.threadsOk.execL1Drop {agent line : Nat} {s : State} (h : s.threadsOk) :
    Out.threadsOk (execL1Drop agent line s) := by
  unfold Machine.execL1Drop
  split
  · exact .ite (.next (.giveUp h)) trivial
  · exact trivial

theorem State.threadsOk.install {s : State} {k agent line : Nat} {c : Option CLine} (h : s.threadsOk) :
    (s.install k agent line c).threadsOk := by
  unfold State.install
  split
  · exact h
  · split
    · exact .ite (.setCline h) h
    · exact .ite (.setCline h) h
    all_goals exact h

theorem State.threadsOk.waitPush {s : State} {k id : Nat} (h : s.threadsOk) : (s.waitPush k id).threadsOk :=
  .update h

theorem State.threadsOk.mergeU {s : State} {agent line k : Nat} {op : Op} {c : CLine} {p : Partial}
    (h : s.threadsOk) :
    (s.mergeU agent line k op c p).threadsOk :=
  .foldl (fun _ _ h1 => .opDone h1) (.ite
    (.pushPartial (.ite (.foldl (fun _ _ h1 => .waitPush h1) (.setCline h)) (.setCline h)))
      (.ite (.foldl (fun _ _ h1 => .waitPush h1) (.setCline h)) (.setCline h)))

theorem State.threadsOk.performWaiting {s : State} {k agent line : Nat} (h : s.threadsOk) :
    (s.performWaiting k agent line).threadsOk := by
  refine .foldl (fun _ _ h1 => ?_) h
  split
  · exact .performOwn h1
  · exact h1

theorem Out.threadsOk.execDataReply {msg : Nat} {s : State} (h : s.threadsOk) :
    Out.threadsOk (execDataReply msg s) := by
  refine .withMsg fun _ => ?_
  extract_lets -merge +onlyGivenNames s1 a
  have h1 : s1.threadsOk := .update h
  split
  · split
    · exact .next (.opDone (.install h1))
    · exact .next (.install h1)
  · refine .ite ?_ ?_
    · dsimp only
      split
      · exact .next (.request (.ite (.setCline h1) h1))
      · exact .next (.performWaiting (.ite (.setCline h1) h1))
      · exact .next (.ite (.setCline h1) h1)
    · split
      · exact .next (.request h1)
      · exact .next h1
  · split
    · split
      · refine .ite (.next (.request h1)) ?_
        dsimp only
        split
        · exact .ite (.next (.mergeU h1)) (.next (.request (.pushPartial h1)))
        · exact .next (.mergeU h1)
      all_goals exact .next (.opDone h1)
    · exact .next h1
  · split
    · exact .next (.foldl (fun _ _ h2 => .opBad h2) h1)
    · exact .next h1
  · exact trivial

theorem State.threadsOk.dropShared {s : State} {agent line : Nat} {pol : Pol} (h : s.threadsOk) :
    (s.dropShared agent line pol).threadsOk := by
  unfold State.dropShared
  split
  · exact .ite (.delCline h) h
  · exact .ite (.delCline h) h
  all_goals exact h

theorem Out.threadsOk.execWriteAck {msg : Nat} {s : State} (h : s.threadsOk) : Out.threadsOk
    (execWriteAck msg s) := by
  refine .withMsg fun _ => ?_
  dsimp only
  split
  · split
    · exact .next (.foldl (fun _ _ h1 => .opDone (.gwct h1)) (.install (.dropShared (.update h))))
    · exact .next (.install (.update h))
  · exact trivial

/-! ## Sending an access off -/

theorem State.threadsOk.onPath {s : State} {k : Nat} {op : Op} {body : Body} (h : s.threadsOk) :
    (s.onPath k op body).threadsOk :=
  .count (.request (.update h))

theorem State.threadsOk.askOwn {s : State} {k : Nat} {op : Op} (h : s.threadsOk) : (s.askOwn k op).threadsOk :=
  .count (.request (.update h))

theorem State.threadsOk.expire {s : State} {op : Op} (h : s.threadsOk) : (s.expire op).threadsOk := by
  unfold State.expire
  dsimp only
  split
  · exact .ite (.count (.delCline h)) h
  · exact h

theorem State.threadsOk.issueOp {s : State} {k : Nat} {op : Op} (h : s.threadsOk) : (s.issueOp k op).threadsOk := by
  unfold State.issueOp
  extract_lets -merge +onlyGivenNames line op s1 c?
  have h1 : s1.threadsOk := .expire h
  clear_value c?
  split
  · split
    · refine .ite (.opDone (.count h1)) ?_
      extract_lets -merge +onlyGivenNames s1
      have h2 : s1.threadsOk := by
        unfold s1
        split
        · exact .pushPartial h1
        · exact .ite h1 (.send (.setCline h1))
        · exact .ite h1 (.send (.setCline h1))
        all_goals exact h1
      split
      · exact .askOwn h2
      all_goals exact .onPath h2
    · split
      · exact .askOwn h1
      all_goals exact .onPath h1
  · split
    · refine .ite (.opDone (.count h1)) ?_
      extract_lets -merge +onlyGivenNames s1
      have h2 : s1.threadsOk := by
        unfold s1
        split
        · exact .pushPartial h1
        · exact .ite h1 (.send (.setCline h1))
        · exact .ite h1 (.send (.setCline h1))
        all_goals exact h1
      split
      · exact .askOwn h2
      all_goals exact .onPath h2
    · split
      · exact .askOwn h1
      all_goals exact .onPath h1
  · split
    · refine .ite (.opDone (.count h1)) ?_
      extract_lets -merge +onlyGivenNames s1
      have h2 : s1.threadsOk := by
        unfold s1
        split
        · exact .pushPartial h1
        · exact .ite h1 (.send (.setCline h1))
        · exact .ite h1 (.send (.setCline h1))
        all_goals exact h1
      split
      · exact .askOwn h2
      all_goals exact .onPath h2
    · split
      · exact .askOwn h1
      all_goals exact .onPath h1
  · split
    · refine .ite (.opDone (.count h1)) ?_
      extract_lets -merge +onlyGivenNames s1
      have h2 : s1.threadsOk := by
        unfold s1
        split
        · exact .pushPartial h1
        · exact .ite h1 (.send (.setCline h1))
        · exact .ite h1 (.send (.setCline h1))
        all_goals exact h1
      split
      · exact .askOwn h2
      all_goals exact .onPath h2
    · split
      · exact .askOwn h1
      all_goals exact .onPath h1
  · split
    · split
      · exact .ite (.performOwn (.count h1)) (.askOwn (.ite (.pushPartial h1) h1))
      · exact .askOwn h1
    · refine .onPath ?_
      split
      · exact .ite (.setCline h1) (.giveUp h1)
      · exact h1
    · refine .onPath ?_
      split
      · exact .ite (.setCline h1) (.giveUp h1)
      · exact h1
    · refine .onPath ?_
      split
      · exact .ite (.setCline h1) (.giveUp h1)
      · exact h1
  · split
    · split
      · exact .ite (.performOwn (.count h1)) (.askOwn (.ite (.pushPartial h1) h1))
      · exact .askOwn h1
    · refine .onPath ?_
      split
      · exact .ite (.setCline h1) (.giveUp h1)
      · exact h1
    · refine .onPath ?_
      split
      · exact .ite (.setCline h1) (.giveUp h1)
      · exact h1
    · refine .onPath ?_
      split
      · exact .ite (.setCline h1) (.giveUp h1)
      · exact h1
  · split
    · refine .ite (.onPath ?_) ?_
      · split
        · exact .giveUp h1
        · exact h1
      · split
        · split
          · exact .ite (.mergeU h1) (.onPath (.pushPartial h1))
          · exact .onPath (.giveUp h1)
        · exact .onPath h1
    · refine .onPath ?_
      split
      · exact .giveUp h1
      · exact h1
    · refine .onPath ?_
      split
      · exact .giveUp h1
      · exact h1
    · refine .onPath ?_
      split
      · exact .giveUp h1
      · exact h1

theorem State.threadsOk.startOp {s : State} {op : Op} (h : s.threadsOk) : (s.startOp op).threadsOk :=
  .issueOp (.update (.newId h))

theorem State.threadsOk.startRed {s : State} {ops : List Op} (h : s.threadsOk) : (s.startRed ops).threadsOk := by
  unfold State.startRed
  split
  · exact h
  · exact .issueOp (.update (.foldl_fst (fun _ _ h1 => .update (.newId h1)) (.newId h)))

end Sys2Proof.Machine
end

section
/-! SUPPORT. O5: what keeps the form of threads in global accesses. -/

namespace Sys2Proof.Machine

/-! ## Translation of a group's addresses -/

theorem State.threadsOk.walkAll {s : State} {g : Nat} {gr : Group} {ctx : Nat}
    {misses : List (Acc × Nat × Nat × Bool)} (h : s.threadsOk) :
    (s.walkAll g gr ctx misses).threadsOk := by
  refine .parkGroup (.foldl_fst (fun _ _ h1 => ?_) h)
  dsimp only
  split
  · exact h1
  · exact .startWalk h1

theorem State.threadsOk.reportPoison {s : State} {ctx : Nat} {lines : List Nat} (h : s.threadsOk) :
    (s.reportPoison ctx lines).threadsOk :=
  .foldl (fun _ _ h1 => .report h1) h

theorem Out.threadsOk.accessing {s : State} {g : Nat} {gr : Group} {accs : List Acc} {align : Nat}
    {chk : Hit → Option Cause} {k : Group → List Hit → State → Out} {first : Bool} (h : s.threadsOk)
      (hk : ∀ x x2 s, s.threadsOk → Out.threadsOk (k x x2 s)) :
    Out.threadsOk (accessing s g gr accs align chk k first) :=
  .ite (.next (.walkAll (.dropWalks h))) (.raising (.reportPoison (.dropWalks h)) fun _ _ h1 => hk _ _ _ h1)

/-! ## Records -/

theorem State.threadsOk.wordOp {s : State} {g : Nat} {gr : Group} {h : Hit} {i : Nat} (h1 : s.threadsOk) :
    (s.wordOp g gr h i).threadsOk := by
  unfold State.wordOp
  dsimp only
  exact .settleWork (.startOp (.attachTo h1))

theorem Out.threadsOk.reading {s : State} {g : Nat} {gr : Group} {accs : List Acc} {n align : Nat}
    {k : Group → (Acc → Nat → DWord) → State → Out} (h : s.threadsOk)
      (hk : ∀ x x2 s, s.threadsOk → Out.threadsOk (k x x2 s)) :
    Out.threadsOk (reading s g gr accs n align k) := by
  refine .raising h fun _ _ h1 => .ite (hk _ _ _ h1)
    (.accessing h1 fun _ _ _ h2 => .ite (.next (.parkGroup h2)) (.next (.foldl (fun _ _ h3 => ?_) (.parkGroup h2))))
  split
  · exact .foldl (fun _ _ h4 => .modGroup h4) h3
  all_goals exact .foldl (fun _ _ h4 => .wordOp h4) h3

theorem Out.threadsOk.probing {s : State} {g : Nat} {gr : Group} {accs : List Acc} {align : Nat}
    {k : (Acc → Look) → State → Out} (h : s.threadsOk) (hk : ∀ x s, s.threadsOk → Out.threadsOk (k x s)) :
    Out.threadsOk (probing s g gr accs align k) := by
  refine .ite (hk _ _ h) (.next (.parkGroup (.foldl_fst (fun _ _ h1 => ?_) h)))
  dsimp only
  split
  · exact h1
  · exact .startWalk h1

theorem Out.threadsOk.recording {s : State} {g : Nat} {gr : Group} {accs : List Acc} {n align : Nat}
    {k : (Acc → Option Cause) → (Acc → Nat → DWord) → List Nat → State → Out} (h : s.threadsOk)
      (hk : ∀ x x2 x3 s, s.threadsOk → Out.threadsOk (k x x2 x3 s)) :
    Out.threadsOk (recording s g gr accs n align k) :=
  .probing h fun _ _ h1 => .ite (hk _ _ _ _ h1)
    (.ite (.next (.parkGroup (.dropWalks h1)))
      (.next (.foldl (fun _ _ h2 => .foldl (fun _ _ h3 => .wordOp h3) h2) (.parkGroup (.dropWalks h1)))))

theorem Out.threadsOk.reaching {g : Nat} {gr : Group} {e : State → Out} {s : State}
    (he : ∀ s, s.threadsOk → Out.threadsOk (e s)) (h : s.threadsOk) :
    Out.threadsOk (reaching g gr e s) := by
  unfold Machine.reaching
  dsimp only
  split
  next t heq =>
    have h1 : t.threadsOk := .of_next heq (he _ (.unasked h))
    refine .ite (.next (.spend h1)) ?_
    split
    next u heq1 =>
      have h2 : u.threadsOk := .of_next heq1 (.askNeed (.unasked h))
      exact .next (.parkGroup (.dropWalks h2))
    all_goals exact .next (.parkGroup (.dropWalks (.unasked h)))
  all_goals exact trivial

/-! ## Monitors -/

theorem State.threadsOk.setMon {s : State} {ctx colour : Nat} {m : Mon} (h : s.threadsOk) :
    (s.setMon ctx colour m).threadsOk :=
  .update h

theorem Lane.tidy.addSlot {l : Lane} {c depth : Nat} (hL : l.tidy) : (l.addSlot c depth).tidy :=
  .update hL

theorem State.threadsOk.dropLeases {s : State} {core colour : Nat} (h : s.threadsOk) :
    (s.dropLeases core colour).threadsOk :=
  .update h

theorem State.threadsOk.acquire {s : State} {ctx colour w l depth : Nat} (h : s.threadsOk) :
    (s.acquire ctx colour w l depth).threadsOk :=
  .count (.dropLeases (.modLane (.ite (.setMon h) h) fun _ hL => .addSlot hL))

theorem State.threadsOk.askMonitor {s : State} {ctx colour w l : Nat} (h : s.threadsOk) :
    (s.askMonitor ctx colour w l).2.threadsOk := by
  unfold State.askMonitor
  split
  · exact .fabric h
  · dsimp only
    split
    · exact .acquire h
    · exact .setMon h

theorem State.threadsOk.askAll {s : State} {g : Nat} {gr : Group} {ctx : Nat} {wants : List (Acc × Nat)} {memo : Memo}
    (h : s.threadsOk) :
    (s.askAll g gr ctx wants memo).1.threadsOk := by
  refine .foldl_fst (fun _ _ h1 => ?_) h
  dsimp only
  split
  next s heq =>
    exact .of_snd heq (.askMonitor h1)
  next s heq =>
    have h2 : s.threadsOk := .of_snd heq (.askMonitor h1)
    exact .splitOff h2
  next s heq =>
    exact .of_snd heq (.askMonitor h1)

theorem Out.threadsOk.colouring {s : State} {g : Nat} {gr : Group} {touches : List Hit} {serves : CLine → Bool}
    {k : Group → State → Out} {prot : Hit → Nat → Bool} {plain : Bool} (h : s.threadsOk)
      (hk : ∀ x s, s.threadsOk → Out.threadsOk (k x s)) :
    Out.threadsOk (colouring s g gr touches serves k prot plain) := by
  refine .ite (.next (.parkGroup h)) (.ite (.next (.parkGroup (.foldl_fst (fun _ _ h1 => ?_) h)))
    (.raising (.reportPoison h) fun _ _ h1 => .ite (hk _ _ h1) (.raising h1 fun _ _ h2 => .ite (hk _ _ h2) ?_)))
  · dsimp only
    split
    · split
      · exact h1
      · exact .request h1
    · exact .request h1
  · dsimp only
    split
    · exact .next (.parkGroup (.askAll h2))
    · exact .next (.askAll h2)

end Sys2Proof.Machine
end

section
/-! SUPPORT. O5: what keeps the form of threads in the local store. -/

namespace Sys2Proof.Machine

/-! ## Performing an access -/

theorem State.threadsOk.lsAccess {s : State} {gr : Group} {w l work : Nat} {act : LsAct} {e : LsElem}
    (h : s.threadsOk) :
    (s.lsAccess gr w l work act e).threadsOk := by
  unfold State.lsAccess
  split
  · exact h
  · exact .ite (.modLane (.setBlock h) fun _ hL => .putRes hL) (.update (.newId h))

theorem Out.threadsOk.lsClear {s : State} {g : Nat} {gr : Group} {who : List (Nat × Nat)} {ad : Nat × Nat → Word}
    {n : Nat} {reads : Bool} {k : Group → State → Out} (h : s.threadsOk)
      (hk : ∀ x s, s.threadsOk → Out.threadsOk (k x s)) :
    Out.threadsOk (s.lsClear g gr who ad n reads k) := by
  unfold State.lsClear
  split
  · exact .next (.parkGroup h)
  · exact .ite (.next (.parkGroup h)) (.raising h fun _ _ h1 => hk _ _ h1)

theorem Out.threadsOk.lsForm {o : Ops} {wd : Widths} {fs : Bool} {n : Nat} {act : LsAct}
    {elems : Warp → Lane → Word → List LsElem} {s : State} (h : s.threadsOk) :
    Out.threadsOk (lsForm o wd fs n act elems s) :=
  .issueLane h fun _ _ _ h1 => .raising h1 fun _ _ h2 => .lsClear h2 fun _ _ h3 => .ite (.next (.parkGroup h3))
    (.next (.retire (.zeroHelpers (.foldl
      (fun _ _ h4 => .foldl (fun _ _ h5 => .foldl (fun _ _ h6 => .lsAccess h6) h5) (.attach h4))
        (.foldl (fun _ _ h4 => .count h4) h3)))))

/-! ## Tiles -/

theorem Warp.tidy.putTile {W : Warp} {n e : Nat} {x : Word} (hW : W.tidy) : (W.putTile n e x).tidy :=
  .update hW

theorem Warp.tidy.putUnit {W : Warp} {k : Nat} {f : AccFmt} {x : Nat} (hW : W.tidy) : (W.putUnit k f x).tidy :=
  .foldl (fun _ _ h => .putTile h) hW

/-! ## LS -/

theorem Out.threadsOk.execLsLd {o : Ops} {w : LdW} {fs : Bool} {s : State} (h : s.threadsOk) :
    Out.threadsOk (execLsLd o w fs s) := by
  unfold Machine.execLsLd
  exact .lsForm h

theorem Out.threadsOk.execLsSt {o : Ops} {w : StW} {fs : Bool} {s : State} (h : s.threadsOk) :
    Out.threadsOk (execLsSt o w fs s) := by
  unfold Machine.execLsSt
  exact .lsForm h

theorem Out.threadsOk.execLsAt {o : Ops} {op : LsAtOp} {w64 fs : Bool} {s : State} (h : s.threadsOk) :
    Out.threadsOk (execLsAt o op w64 fs s) := by
  unfold Machine.execLsAt
  exact .lsForm h

theorem State.threadsOk.lsArrive {s : State} {k : Nat} {r : RemoteLs} (h : s.threadsOk) :
    (s.lsArrive k r).threadsOk := by
  refine .ite (.releaseQuarters (.workDone ?_)) (.workDone ?_)
  · split
    · exact .modWarp (.modLane (.update (.setBlock h)) fun _ hL => .putRes hL) fun _ hW => .putUnit hW
    · exact .modLane (.update (.setBlock h)) fun _ hL => .putRes hL
  · split
    · exact .modWarp (.modLane (.update (.setBlock h)) fun _ hL => .putRes hL) fun _ hW => .putUnit hW
    · exact .modLane (.update (.setBlock h)) fun _ hL => .putRes hL

theorem Out.threadsOk.execRemoteLsPerformed {msg : Nat} {s : State} (h : s.threadsOk) :
    Out.threadsOk (execRemoteLsPerformed msg s) := by
  unfold Machine.execRemoteLsPerformed
  split
  · exact trivial
  · exact .ite trivial (.next (.foldl (fun _ _ h1 => .lsArrive h1) h))

end Sys2Proof.Machine
end

section
/-! SUPPORT. O5: what keeps the form of threads in the Churn and the Spillway. -/

namespace Sys2Proof.Machine

/-! ## Claiming -/

theorem Out.threadsOk.claimRest {s : State} {g : Nat} {gr : Group} {ws : List Nat} {ctl : Nat → Nat}
    {hdr : Nat → DWord} (h : s.threadsOk) :
    Out.threadsOk (s.claimRest g gr ws ctl hdr) :=
  .raising h fun _ _ h1 => .ite (.next (.modGroup (.parkGroup h1))) (.next (.retire h1))

theorem State.threadsOk.again {s : State} {g : Nat} {gr : Group} (h : s.threadsOk) : (s.again g gr).threadsOk :=
  .parkGroup h

theorem Out.threadsOk.execHcClaim {o : UOps} {s : State} (h : s.threadsOk) : Out.threadsOk (execHcClaim o s) := by
  refine .issueUni h fun _ _ _ h1 => ?_
  dsimp only
  split
  · split
    · exact .raising h1 fun _ _ h2 => .next (.again h2)
    · exact .reading h1 fun _ _ _ h2 => .ite (.next (.again h2))
        (.ite (.raising h2 fun _ _ h3 => .next (.again h3)) (.claimRest (.modBlock (.newId h2))))
  · exact .claimRest h1

theorem Out.threadsOk.execChurnClearDone {block : Nat} {s : State} (h : s.threadsOk) :
    Out.threadsOk (execChurnClearDone block s) := by
  unfold Machine.execChurnClearDone
  dsimp only
  split
  · exact .ite (.next (.foldl (fun _ _ h1 => .ite (.ite (.endClause h1) (.modGroup h1)) h1) (.setBlock h))) trivial
  · exact trivial

theorem Out.threadsOk.execHcFree {s : State} (h : s.threadsOk) : Out.threadsOk (execHcFree s) :=
  .issueUni h fun _ _ _ h1 => .ite (.next (.parkGroup h1)) (.next (.retire (.modBlock h1)))

/-! ## The Spillway -/

theorem State.threadsOk.countSpills {s : State} {block claim spilled full : Nat} (h : s.threadsOk) :
    (s.countSpills block claim spilled full).threadsOk :=
  .modBlock h

theorem State.threadsOk.spillOff {s : State} {gr : Group} {w lead : Nat} {o : Ops} {f : HForm} {fs : Bool} {c : Churn}
    {pa : Option Nat} {pend : List (Nat × DWord × DWord)} (h : s.threadsOk) :
    (s.spillOff gr w lead o f fs c pa pend).threadsOk := by
  refine .ite h ?_
  dsimp only
  split
  · exact .countSpills (.foldl (fun _ _ h1 => .modLane h1 fun _ hL => .putD hL) (.count h))
  · exact .startOp (.update (.newId (.attach (.count h))))

theorem State.threadsOk.recordOp {s : State} {spill : Nat} {x : Spill} {lane pa : Nat} {va val : DWord}
    (h : s.threadsOk) :
    (s.recordOp spill x lane pa va val).threadsOk :=
  .startOp h

theorem Out.threadsOk.execSpillAtomicReturn {spill : Nat} {s : State} (h : s.threadsOk) :
    Out.threadsOk (execSpillAtomicReturn spill s) := by
  unfold Machine.execSpillAtomicReturn
  split
  · exact trivial
  next x _ =>
    have hd : (s.dropWalks x.walks).threadsOk := .dropWalks h
    split
    · exact trivial
    · refine .ite trivial ?_
      split
      refine .ite (.next (.update (.foldl_fst (fun _ _ h1 => .startWalk h1) hd))) (.next (.releaseQuarters (.workDone
        (.countSpills (.foldl (fun _ _ h1 => ?_) (.foldl (fun _ _ h1 => ?_) (.update (.update hd))))))))
      · split
        · exact .modLane h1 fun _ hL => .setV hL
        · exact h1
      · split
        · exact .recordOp (.recordOp (.recordOp (.recordOp h1)))
        · exact h1

/-! ## The H forms -/

theorem Out.threadsOk.tableForm {o : Ops} {wd : Widths} {f : HForm} {fs : Bool} {val : Warp → Lane → DWord}
    {put : HRes → Lane → Lane} {s : State} (hput : ∀ x L, L.tidy → (put x L).tidy) (h : s.threadsOk) :
    Out.threadsOk (tableForm o wd f fs val put s) := by
  refine .issueLane h fun _ _ _ h1 => ?_
  dsimp only
  split
  · exact .raising h1 fun _ _ h2 => .next (.retire (.zeroHelpers h2))
  · exact .ite (.next (.parkGroup h1)) (.accessing h1 fun _ _ _ h2 => .colouring h2 fun _ _ h3 => .raising h3
      fun _ _ h4 => .raising (.ite h4 (.reportPoison h4)) fun _ _ h5 => .ite (.next (.parkGroup h5))
        (.ite (.next (.parkGroup h5)) (.next
          (.retire (.zeroHelpers (.foldl (fun _ _ h6 => .spillOff
            (.foldl (fun _ _ h7 => .modLane h7 fun _ hL => hput _ _ hL) h6)) (.setBlock h5)))))))

theorem Out.threadsOk.execHIns {o : Ops} {vs : Vs} {fs : Bool} {s : State} (h : s.threadsOk) :
    Out.threadsOk (execHIns o vs fs s) :=
  .tableForm (fun _ _ hL => .putD hL) h

theorem Out.threadsOk.execHPrb {o : Ops} {fs : Bool} {s : State} (h : s.threadsOk) :
    Out.threadsOk (execHPrb o fs s) := by
  refine .tableForm (fun _ _ hL => ?_) h
  split
  · exact .setV (.setV (.setV64 hL))
  all_goals exact hL

theorem Out.threadsOk.execHDel {o : Ops} {fs : Bool} {s : State} (h : s.threadsOk) :
    Out.threadsOk (execHDel o fs s) :=
  .tableForm (fun _ _ hL => .putD hL) h

theorem Out.threadsOk.execHAcc {o : Ops} {vs : Vs} {op : AccOp} {ty : AccTy} {fs : Bool} {s : State}
    (h : s.threadsOk) :
    Out.threadsOk (execHAcc o vs op ty fs s) :=
  .tableForm (fun _ _ hL => .putD hL) h

/-! ## H.DRN, H.STA -/

theorem Out.threadsOk.execHDrn {o : Ops} {clr _fs : Bool} {s : State} (h : s.threadsOk) :
    Out.threadsOk (execHDrn o clr _fs s) := by
  refine .issueLane h fun _ _ _ h1 => ?_
  split
  · exact .raising h1 fun _ _ h2 => .next (.retire (.zeroHelpers h2))
  · refine .ite (.next (.parkGroup h1)) (.raising (.foldl_fst (fun _ _ h2 => ?_) h1) fun _ _ h2 => .next
      (.retire (.zeroHelpers h2)))
    dsimp only
    split
    · exact h2
    · refine .modWarp (.setBlock (.foldl (fun _ _ h3 => .modLane h3 fun _ hL => ?_) h2)) fun _ hW => .setS hW
      split
      · exact .setV64 (.setV64 hL)
      all_goals exact hL

theorem Out.threadsOk.execHSta {o : Ops} {s : State} (h : s.threadsOk) : Out.threadsOk (execHSta o s) := by
  refine .issueLane h fun _ _ _ h1 => ?_
  split
  · exact .next (.parkGroup h1)
  all_goals exact .next (.retire (.zeroHelpers (.eachLane h1 fun _ hW _ _ hL => .putD hL)))

end Sys2Proof.Machine
end

section
/-! SUPPORT. O5: what keeps the form of threads in fences and monitors. -/

namespace Sys2Proof.Machine

/-! ## What a fence waits for -/

theorem State.threadsOk.beginFence {s : State} {g : Nat} {gr : Group} {p : Park} {wide : Bool}
    {who : List (Nat × Nat)} (h : s.threadsOk) :
    (s.beginFence g gr p wide who).threadsOk :=
  .parkGroup (.ite (.pushAll h) h)

theorem Out.threadsOk.execFenceComplete {g : Nat} {s : State} (h : s.threadsOk) :
    Out.threadsOk (execFenceComplete g s) := by
  unfold Machine.execFenceComplete
  split
  · split
    · exact .ite (.next (.modGroup h)) trivial
    · exact trivial
  · exact trivial

/-! ## Releases -/

theorem State.threadsOk.freeMonitor {s : State} {ctx colour w l depth : Nat} {wait : Option (Option Nat)}
    (h : s.threadsOk) :
    (s.freeMonitor ctx colour w l depth wait).threadsOk :=
  .ite (.setMon h) (.fabric h)

theorem Out.threadsOk.execColourReleaseComplete {rel : Nat} {s : State} (h : s.threadsOk) :
    Out.threadsOk (execColourReleaseComplete rel s) := by
  unfold Machine.execColourReleaseComplete
  split
  · exact trivial
  · split
    · exact trivial
    · refine .ite ?_ trivial
      extract_lets -merge +onlyGivenNames depth wait freed dropped
      have h1 : dropped.threadsOk := .modLane (.freeMonitor h) fun _ hL => .update hL
      refine .ite ?_ (.next (.update (.pushAll h1)))
      extract_lets released
      have h2 : released.threadsOk := .update h1
      split
      · split
        · exact .next (.modGroup h2)
        · exact .ite (.next h2) (.next (.modGroup h2))
      · exact .next h2

theorem State.threadsOk.resumeGranted {s : State} {ctx colour w l : Nat} {back : Option (Nat × Bool)}
    (h : s.threadsOk) :
    (s.resumeGranted ctx colour w l back).threadsOk := by
  unfold State.resumeGranted
  dsimp only
  split
  · exact .modGroup (.acquire h)
  all_goals exact .acquire h

theorem Out.threadsOk.execMonitorGrant {ctx colour : Nat} {s : State} (h : s.threadsOk) :
    Out.threadsOk (execMonitorGrant ctx colour s) := by
  unfold Machine.execMonitorGrant
  dsimp only
  split
  · split
    · exact .next (.fabric (.setMon h))
    · exact .next (.resumeGranted (.setMon h))
  · exact trivial

theorem Out.threadsOk.execWaitDeadline {ctx colour w l : Nat} {s : State} (h : s.threadsOk) :
    Out.threadsOk (execWaitDeadline ctx colour w l s) := by
  unfold Machine.execWaitDeadline
  dsimp only
  split
  · split
    · exact .ite (.next (.setMon h)) trivial
    · exact trivial
  · exact trivial

/-! ## Records on other chips -/

theorem State.threadsOk.monAsked {s : State} {chip ctx colour : Nat} {r : MonReq} (h : s.threadsOk) :
    (s.monAsked chip ctx colour r).threadsOk := by
  unfold State.monAsked
  dsimp only
  split
  · exact .ite (.ite (.fabric h) (.fabric (.setMon h))) (.fabric (.setMon h))
  all_goals exact .setMon h

theorem State.threadsOk.monLost {s : State} {colour w l : Nat} (h : s.threadsOk) :
    (s.monLost colour w l).threadsOk := by
  unfold State.monLost
  split
  · split
    · exact .ite (.modGroup h) (.ite (.modGroup h) (.ite (.raise h) h))
    · exact h
  all_goals exact h

theorem State.threadsOk.monAnswered {s : State} {chip ctx colour : Nat} {a : MonAns} (h : s.threadsOk) :
    (s.monAnswered chip ctx colour a).threadsOk := by
  unfold State.monAnswered
  dsimp only
  split
  · refine .ite (.fabric h) ?_
    split
    · split
      · exact .ite (.modGroup (.acquire h)) (.resumeGranted h)
      · exact .resumeGranted h
    all_goals exact .resumeGranted h
  · split
    · split
      · exact .ite (.splitOff (.modGroup h)) h
      · exact h
    all_goals exact h
  · split
    · split
      · exact .ite (.modGroup h) h
      · exact h
    all_goals exact h
  · exact .monLost h

/-! ## The C family -/

theorem Out.threadsOk.execCGet {o : Ops} {s : State} (h : s.threadsOk) : Out.threadsOk (execCGet o s) :=
  .issueLane h fun _ _ _ h1 => .accessing h1 fun _ _ _ h2 => .ite (.next (.parkGroup h2))
    (.ite (.next (.parkGroup (.foldl (fun _ _ h3 => .request h3) h2)))
      (.raising (.reportPoison h2) fun _ _ h3 => .next
        (.retire (.foldl (fun _ _ h4 => .ite (.modLane h4 fun _ hL => .putD hL) h4) (.zeroHelpers h3)))))

theorem Out.threadsOk.execCHeld {o : Ops} {s : State} (h : s.threadsOk) : Out.threadsOk (execCHeld o s) :=
  .issueLane h fun _ _ _ h1 => .next (.retire (.eachLane (.zeroHelpers h1) fun _ _ _ _ hL => .putD hL))

theorem Out.threadsOk.notifyForm {o : Ops} {all : Bool} {s : State} (h : s.threadsOk) :
    Out.threadsOk (notifyForm o all s) :=
  .issueLane h fun _ _ _ h1 => .raising h1 fun _ _ h2 => .next
    (.retire (.foldl (fun _ _ h3 => .ite (.setMon h3) (.fabric h3)) h2))

theorem Out.threadsOk.execCNtf {o : Ops} {s : State} (h : s.threadsOk) : Out.threadsOk (execCNtf o s) :=
  .notifyForm h

theorem Out.threadsOk.execCNta {o : Ops} {s : State} (h : s.threadsOk) : Out.threadsOk (execCNta o s) :=
  .notifyForm h

theorem Out.threadsOk.execCWait {o : Ops} {s : State} (h : s.threadsOk) : Out.threadsOk (execCWait o s) := by
  refine .issueLane h fun _ _ _ h1 => .ite (.next (.retire (.eachLane h1 fun _ hW _ _ hL => .putD hL)))
    (.raising h1 fun _ _ h2 => ?_)
  dsimp only
  split
  · exact .next (.retire (.zeroHelpers (.foldl (fun _ _ h3 => .beginRelease (.splitOff h3)) h2)))
  · exact .next (.foldl (fun _ _ h3 => .beginRelease (.splitOff h3)) h2)

/-! ## UC.SET -/

theorem State.threadsOk.recolour {s : State} {m : Memo} {w l c : Nat} {x : List (Nat × DWord)} (h : s.threadsOk) :
    (s.recolour m w l c x).1.threadsOk := by
  fun_induction State.recolour s m w l c x
  case case2 ih => exact ih (.gwct h)
  case case6 ih => exact ih (.gwct h)
  case case9 ih => exact ih (.gwct (.setHline (.settle h)))
  all_goals exact h

theorem Out.threadsOk.execUcSet {o : UOps} {s : State} (h : s.threadsOk) : Out.threadsOk (execUcSet o s) := by
  refine .issueUni h fun _ _ _ h1 => ?_
  extract_lets -merge +onlyGivenNames ws va ctl n lead bad
  refine .raising h1 fun _ _ h2 => ?_
  extract_lets -merge +onlyGivenNames ws accs
  refine .accessing h2 fun _ _ _ h3 => ?_
  extract_lets -merge +onlyGivenNames ws lines
  refine .ite (.next (.parkGroup h3)) ?_
  extract_lets -merge +onlyGivenNames r
  have h4 : r.1.threadsOk := by
    unfold r
    refine .foldl_fst (fun _ _ h4 => ?_) h3
    split
    · exact h4
    · dsimp only
      split
      all_goals exact .recolour h4
  split
  · exact .next (.parkGroup h4)
  · exact .next (.parkGroup (.send h4))
  · exact .next (.parkGroup (.request h4))
  all_goals exact .raising h4 fun _ _ h5 => .ite (.next (.retire h5)) (.next (.parkGroup h5))

theorem Out.threadsOk.execUcSetWaitEnd {g : Nat} {s : State} (h : s.threadsOk) :
    Out.threadsOk (execUcSetWaitEnd g s) := by
  unfold Machine.execUcSetWaitEnd
  split
  · split
    · exact .ite (.next (.retire h)) trivial
    · exact trivial
  · exact trivial

end Sys2Proof.Machine
end

section
/-! SUPPORT. O5: what keeps the form of threads in copy engines and rings. -/

namespace Sys2Proof.Machine

/-! ## Ring records -/

theorem State.threadsOk.modRing {s : State} {b n : Nat} {f : Ring → Ring} (h : s.threadsOk) :
    (s.modRing b n f).threadsOk :=
  .modBlock h

/-! ## The checks of a command at issue -/

theorem State.threadsOk.queueCmd {s : State} {gr : Group} {w l work : Nat} {m : CpMod} {k : CmdKind}
    {arv : Option (Nat × Nat)} {xl : AMap Nat} {bound : List Nat} (h : s.threadsOk) :
    (s.queueCmd gr w l work m k arv xl bound).threadsOk :=
  .foldl (fun _ _ h1 => .request h1) (.modLane (.modCore (.update (.newId h))) fun _ hL => .update hL)

theorem Out.threadsOk.cpForm {form : CpForm} {o : Ops} {m : CpMod} {s : State} (h : s.threadsOk) :
    Out.threadsOk (cpForm form o m s) := by
  refine .issueLane h fun _ _ _ h1 => .recording h1 fun _ _ _ _ h2 => .probing h2 fun _ _ h3 => .ite
    (.next (.parkGroup (.dropWalks h3))) (.ite
      (.next (.parkGroup (.foldl (fun _ _ h4 => .request h4) (.dropWalks h3))))
        (.raising (.reportPoison (.dropWalks h3)) fun _ _ h4 => .ite (.next (.parkGroup h4))
          (.ite (.next (.parkGroup h4)) (.next
            (.retire (.foldl (fun _ _ h5 => .foldl (fun _ _ h6 => ?_) (.attach h5)) h4))))))
  split
  · exact .queueCmd h6
  · exact h6

theorem Out.threadsOk.execCpTile {o : Ops} {m : CpMod} {s : State} (h : s.threadsOk) :
    Out.threadsOk (execCpTile o m s) :=
  .cpForm h

theorem Out.threadsOk.execCpStore {o : Ops} {m : CpMod} {s : State} (h : s.threadsOk) :
    Out.threadsOk (execCpStore o m s) :=
  .cpForm h

theorem Out.threadsOk.execCpLin {o : Ops} {m : CpMod} {s : State} (h : s.threadsOk) :
    Out.threadsOk (execCpLin o m s) :=
  .cpForm h

theorem Out.threadsOk.execCpGath {o : Ops} {m : CpMod} {s : State} (h : s.threadsOk) :
    Out.threadsOk (execCpGath o m s) :=
  .cpForm h

/-! ## Batches -/

theorem Out.threadsOk.execCpSeal {o : Ops} {s : State} (h : s.threadsOk) : Out.threadsOk (execCpSeal o s) :=
  .issueLane h fun _ _ _ h1 => .ite (.next (.parkGroup h1))
    (.next (.retire (.foldl (fun _ _ h2 => .modLane h2 fun _ hL => .update hL) h1)))

theorem State.threadsOk.waitApart {s : State} {g : Nat} {gr : Group} {waits : List ((Nat × Nat) × Park)}
    (h : s.threadsOk) :
    (s.waitApart g gr waits).threadsOk := by
  unfold State.waitApart
  extract_lets -merge +onlyGivenNames s1
  have h1 : s1.threadsOk := by
    unfold s1
    refine .foldl (fun _ _ h1 => ?_) h
    dsimp only
    split
    · exact .ite (.parkGroup h1) (.splitOff h1)
    · exact h1
  split
  · exact .ite h1 (.retire h1)
  · exact h1

theorem Out.threadsOk.execCpWait {o : Ops} {s : State} (h : s.threadsOk) : Out.threadsOk (execCpWait o s) :=
  .issueLane h fun _ _ _ h1 => .next (.waitApart h1)

theorem State.threadsOk.cmdDone {s : State} {k : Nat} {c : Cmd} (h : s.threadsOk) : (s.cmdDone k c).threadsOk :=
  .count (.modLane (.workDone (.modCore (.update h))) fun _ hL => .update hL)

/-! ## The engine's events -/

theorem State.threadsOk.letIn {s : State} {c : Cmd} (h : s.threadsOk) : (s.letIn c).threadsOk := by
  unfold State.letIn
  split
  · exact h
  · exact .modRing h

theorem State.threadsOk.arriveFull {s : State} {c : Cmd} (h : s.threadsOk) : (s.arriveFull c).threadsOk := by
  unfold State.arriveFull
  split
  · exact h
  · exact .modRing h

theorem State.threadsOk.readStep {s : State} {k : Nat} {c : Cmd} {p : Nat × Move} (h : s.threadsOk) :
    (s.readStep k c p).threadsOk := by
  unfold State.readStep
  dsimp only
  split
  · exact .engineBytes h
  · split
    · exact .engineBytes h
    · exact h
  · exact .ite (.engineBytes h) (.ite h (.ite (.engineBytes h) (.startOp h)))

theorem State.threadsOk.readGlobals {s : State} {k : Nat} {c : Cmd} (h : s.threadsOk) :
    (s.readGlobals k c).threadsOk :=
  .foldl (fun _ _ h1 => .readStep h1) h

theorem State.threadsOk.readUnit {s : State} {k : Nat} {c : Cmd} {u : Nat × Nat} (h : s.threadsOk) :
    (s.readUnit k c u).threadsOk :=
  .foldl (fun _ _ h1 => .readStep h1) h

theorem Out.threadsOk.execEngineStart {core : Nat} {s : State} (h : s.threadsOk) :
    Out.threadsOk (execEngineStart core s) := by
  unfold Machine.execEngineStart
  split
  · exact trivial
  · exact .ite (.next (.update (.readGlobals (.letIn h)))) trivial

theorem State.threadsOk.engineRelease {s : State} {core : Nat} {lines : List Nat} (h : s.threadsOk) :
    (s.engineRelease core lines).threadsOk :=
  .foldl (fun _ _ h1 => .ite h1 (.send h1)) h

theorem Out.threadsOk.execEngineDiscard {core : Nat} {s : State} (h : s.threadsOk) :
    Out.threadsOk (execEngineDiscard core s) := by
  unfold Machine.execEngineDiscard
  split
  · exact trivial
  · exact .ite (.next (.engineRelease (.cmdDone h)))
      (.ite (.next (.engineRelease (.arriveFull (.cmdDone (.letIn h))))) trivial)

theorem State.threadsOk.writeLine {s : State} {k : Nat} {c : Cmd} {line : Nat} (h : s.threadsOk) :
    (s.writeLine k c line).threadsOk :=
  .ite (.update h) (.update (.setHline (.update h)))

theorem State.threadsOk.writeUnit {s : State} {k : Nat} {c : Cmd} {u : Nat × Nat} (h : s.threadsOk) :
    (s.writeUnit k c u).threadsOk :=
  .update (.modBlock h)

theorem State.threadsOk.reportEngine {s : State} {c : Cmd} (h : s.threadsOk) : (s.reportEngine c).threadsOk := by
  unfold State.reportEngine
  dsimp only
  split
  · exact .report h
  · exact h

theorem State.threadsOk.engineAll {s : State} {k : Nat} (h : s.threadsOk) : (s.engineAll k).threadsOk := by
  unfold State.engineAll
  split
  · exact h
  · exact .foldl (fun _ _ h1 => .ite (.writeUnit h1) h1)
      (.foldl (fun _ _ h1 => .ite (.writeLine h1) h1) (.foldl (fun _ _ h1 => .readUnit h1) h))

theorem Out.threadsOk.execEngineComplete {cmd : Nat} {s : State} (h : s.threadsOk) :
    Out.threadsOk (execEngineComplete cmd s) := by
  unfold Machine.execEngineComplete
  split
  · exact trivial
  · refine .ite ?_ trivial
    dsimp only
    split
    · exact .ite (.next (.cmdDone (.arriveFull (.reportEngine (.engineAll h))))) trivial
    · exact trivial

theorem Out.threadsOk.engineMoves {cmd : Nat} {s : State} (h : s.threadsOk) : Out.threadsOk (engineMoves cmd s) := by
  unfold Machine.engineMoves
  split
  · exact trivial
  · refine .ite trivial (.ite (.next (.readGlobals h)) ?_)
    split
    · exact .next (.writeLine h)
    · exact trivial

theorem Out.threadsOk.engineUnit {cmd : Nat} {write : Bool} {u : Nat × Nat} {s : State} (h : s.threadsOk) :
    Out.threadsOk (engineUnit cmd write u s) := by
  unfold Machine.engineUnit
  split
  · exact trivial
  · exact .ite (.when (.writeUnit h)) (.when (.readUnit h))

theorem Out.threadsOk.engineLine {cmd line : Nat} {s : State} (h : s.threadsOk) :
    Out.threadsOk (engineLine cmd line s) := by
  unfold Machine.engineLine
  split
  · exact trivial
  · exact .when (.writeLine h)

theorem State.threadsOk.readGranted {s : State} {core line : Nat} (h : s.threadsOk) :
    (s.readGranted core line).threadsOk := by
  refine .foldl (fun _ _ h1 => ?_) h
  split
  · split
    · exact .ite (.opDone h1) h1
    · exact h1
  all_goals exact h1

theorem Out.threadsOk.execOwnershipGrant {msg : Nat} {s : State} (h : s.threadsOk) :
    Out.threadsOk (execOwnershipGrant msg s) := by
  refine .withMsg fun _ => ?_
  dsimp only
  split
  · exact .next (.ite (.gwct (.update (.update h))) (.readGranted (.gwct (.update (.update h)))))
  · exact .next (.ite (.update h) (.engineRelease (.update h)))

/-! ## Guard slots -/

theorem Out.threadsOk.execGSet {slot : Fin 8} {v : GVal} {s : State} (h : s.threadsOk) :
    Out.threadsOk (execGSet slot v s) :=
  .warpwise h fun _ hW => .update hW

theorem Out.threadsOk.execGClr {slot : Fin 8} {s : State} (h : s.threadsOk) : Out.threadsOk (execGClr slot s) :=
  .issueUni h fun _ _ _ h1 => .ite (.next (.parkGroup h1))
    (.next (.retire (.foldl (fun _ _ h2 => .modWarp h2 fun _ hW => .update hW) h1)))

/-! ## RG -/

theorem Out.threadsOk.execRgInit {o : Ops} {s : State} (h : s.threadsOk) : Out.threadsOk (execRgInit o s) := by
  refine .issueLead h fun _ _ _ h1 => .raising (.foldl_fst (fun _ _ h2 => ?_) h1) fun _ _ h2 => .next (.retire h2)
  split
  · exact h2
  · split
    · exact h2
    · exact .modBlock h2

theorem Out.threadsOk.execRgArv {o : Ops} {bar : Bar} {s : State} (h : s.threadsOk) :
    Out.threadsOk (execRgArv o bar s) :=
  .issueLane h fun _ _ _ h1 => .raising h1 fun _ _ h2 => .ite
    (.next (.retire (.foldl (fun _ _ h3 => .modRing h3) h2)))
      (.next (.parkGroup (.foldl (fun _ _ h3 => .modRing h3) h2)))

theorem Out.threadsOk.execRgWait {o : Ops} {bar : Bar} {s : State} (h : s.threadsOk) :
    Out.threadsOk (execRgWait o bar s) :=
  .issueLane h fun _ _ _ h1 => .raising h1 fun _ _ h2 => .next (.waitApart h2)

end Sys2Proof.Machine
end

section
/-! SUPPORT. O5: what keeps the form of threads in groups, control transfers and exits. -/

namespace Sys2Proof.Machine

/-! ## Instruction fetch -/

theorem State.threadsOk.keepCode {s : State} {core line : Nat} {bytes : AMap Byte} (h : s.threadsOk) :
    (s.keepCode core line bytes).threadsOk :=
  .modCore h

theorem State.threadsOk.fetchLine {s : State} {core line : Nat} (h : s.threadsOk) :
    (s.fetchLine core line).1.threadsOk := by
  unfold State.fetchLine
  split
  · exact h
  · split
    · exact h
    · exact .keepCode h
  · split
    · exact h
    · split
      · exact .keepCode (.settle h)
      · exact h

theorem State.threadsOk.fetch {s : State} {core ctx : Nat} {old : AMap (AMap Byte)} {va : DWord} {x : Nat}
    (h : s.threadsOk) : (s.fetch core ctx old va x).1.threadsOk := by
  fun_induction State.fetch s core ctx old va x
  case case2 hline => exact .of_fst hline (by split; exacts [h, .fetchLine h])
  case case3 hline => exact .reportPoison (.of_fst hline (by split; exacts [h, .fetchLine h]))
  case case4 hline _ _ hrest ih => exact .of_fst hrest (ih (.of_fst hline (by split; exacts [h, .fetchLine h])))
  case case5 hline _ _ _ _ _ hrest ih => exact .of_fst hrest (ih (.of_fst hline (by split; exacts [h, .fetchLine h])))
  case case6 hline _ _ hrest ih => exact .of_fst hrest (ih (.of_fst hline (by split; exacts [h, .fetchLine h])))
  case case7 hline _ _ _ hrest ih => exact .of_fst hrest (ih (.of_fst hline (by split; exacts [h, .fetchLine h])))
  all_goals exact h

theorem State.threadsOk.dropCode {s : State} (h : s.threadsOk) {core : Nat} {lines : List Nat} :
    (s.dropCode core lines).threadsOk := by
  exact .ite h (.modCore (.mapWarps h (fun _ => ite_fst rfl rfl) fun _ hW =>
    .ite_snd (.mapLanes hW (fun _ => rfl) fun _ hL => .update hL) hW))

/-! ## Grouping -/

theorem State.threadsOk.endYields {s : State} {core sub b : Nat} {a : DWord} (h : s.threadsOk) :
    (s.endYields core sub b a).threadsOk := by
  refine .foldl (fun _ _ h1 => .ite (.foldl (fun _ _ h2 => ?_) h1) h1) h
  split
  · exact .ite h2 (.modLane h2 fun _ hL => .update hL)
  all_goals exact h2

theorem Out.threadsOk.execClauseHeader {h : ClauseHdr} {s : State} (h1 : s.threadsOk) :
    Out.threadsOk (execClauseHeader h s) := by
  unfold Machine.execClauseHeader
  split
  · exact .next h1
  · exact .next h1
  · split
    · exact .next (.update h1)
    · extract_lets ctx
      split
      next s _ heq =>
        have h2 : s.threadsOk := .of_fst heq (.fetch h1)
        extract_lets blocked go t
        have h3 : t.threadsOk := .foldl (fun _ _ h4 => .modLane h4 fun _ hL => .update hL) h2
        clear_value t
        refine .ite (.next (.update h3)) ?_
        dsimp only
        have h5 := h3.newId
        exact .next (.ite
          (.count (.count (.endYields (.foldl (fun _ _ h4 => .modLane h4 fun _ hL => .update hL) (.startGroup h5)))))
          (.count (.endYields (.foldl (fun _ _ h4 => .modLane h4 fun _ hL => .update hL) (.startGroup h5)))))
      all_goals exact .next (.update (.of_fst (by assumption) (.fetch h1)))

theorem Out.threadsOk.execPromoted {w l : Nat} {s : State} (h : s.threadsOk) : Out.threadsOk (execPromoted w l s) :=
  .ite (.next (.count (.modLane h fun _ hL => .update hL))) trivial

/-! ## Branches -/

theorem State.threadsOk.sawTransfer {s : State} {ls : List (Nat × Nat)} (h : s.threadsOk) :
    (s.sawTransfer ls).threadsOk :=
  .foldl (fun _ _ h1 => .ite h1 (.modLane h1 fun _ hL => .update hL)) h

theorem State.threadsOk.transfer {s : State} {g : Nat} {gr : Group} {ex : List (Nat × Nat)}
    {target : Nat × Nat → DWord} (h : s.threadsOk) :
    (s.transfer g gr ex target).threadsOk :=
  .endClause h

theorem Out.threadsOk.execBrRel {off : BitVec 24} {pr : Pred} {s : State} (h : s.threadsOk) :
    Out.threadsOk (execBrRel off pr s) :=
  .issueBranch h fun _ _ _ h1 => .next (.transfer h1)

theorem Out.threadsOk.execBrInd {o : Ops} {s : State} (h : s.threadsOk) : Out.threadsOk (execBrInd o s) :=
  .issueLane h fun _ _ _ h1 => .raising h1 fun _ _ h2 => .next (.transfer h2)

theorem Out.threadsOk.uniBranch {s : State} {reads : List Nat} {off : UOff} {take : Warp → Warp × Bool}
    (h : s.threadsOk) (htake : ∀ W, W.tidy → (take W).1.tidy) :
    Out.threadsOk (uniBranch s reads off take) :=
  .issueUni h fun _ _ _ h1 => .next (.sawTransfer
    (.transfer (.foldl (fun _ _ h2 => .modWarp h2 fun _ hW => htake _ hW) h1)))

theorem Out.threadsOk.execUbBra {cnd : Option (Fin 8)} {off : UOff} {s : State} (h : s.threadsOk) :
    Out.threadsOk (execUbBra cnd off s) :=
  .uniBranch h fun _ hW => hW

theorem Out.threadsOk.execUbLoop {sx : Fin 48} {off : UOff} {s : State} (h : s.threadsOk) :
    Out.threadsOk (execUbLoop sx off s) :=
  .uniBranch h fun _ hW => .setS hW

/-! ## Calls and returns -/

theorem Lane.tidy.push {l : Lane} {ret : DWord} (hL : l.tidy) : (l.push ret).tidy :=
  .update hL

theorem State.threadsOk.stackOp {s : State} {gr : Group} {h : Hit} {off : Nat} {act : Act} {val : DWord}
    (h1 : s.threadsOk) : (s.stackOp gr h off act val).threadsOk := by
  unfold State.stackOp
  dsimp only
  exact .settleWork (.startOp (.attachTo h1))

theorem State.threadsOk.stackTraps {s : State} {gr : Group} {ex : List (Nat × Nat)} (h : s.threadsOk) :
    (stackTraps s gr ex).2.threadsOk := by
  refine .foldl_snd (fun _ _ h1 => ?_) h
  split
  · dsimp only
    split
    · exact .drawFree h1
    · exact h1
  · exact h1

theorem Out.threadsOk.callForm {g : Nat} {gr : Group} {pr : Pred} {target : Nat × Nat → DWord} {s : State}
    (h : s.threadsOk) :
    Out.threadsOk (callForm g gr pr target s) := by
  refine .raising (.stackTraps h) fun _ _ h1 => .raising h1 fun _ _ h2 => ?_
  extract_lets -merge +onlyGivenNames spills accs
  refine .accessing h2 fun _ _ _ h3 => .colouring h3 fun _ _ h4 => ?_
  extract_lets -merge +onlyGivenNames hits
  refine .ite (.next (.parkGroup h4)) ?_
  extract_lets -merge +onlyGivenNames s1 ends ex dest s2 s3
  have h5 : s1.threadsOk := .foldl (fun _ _ h5 => .stackOp (.stackOp h5)) h4
  have h6 : s2.threadsOk := .eachLane h5 fun _ hW _ _ hL => .push hL
  have h7 : s3.threadsOk := .foldl (fun _ _ h7 => .markExited h7) h6
  split
  · exact .next (.transfer h7)
  · exact .next h7

theorem Out.threadsOk.execClCall {off : BitVec 24} {pr : Pred} {s : State} (h : s.threadsOk) :
    Out.threadsOk (execClCall off pr s) :=
  .issueBranch h fun _ _ _ h1 => .callForm h1

theorem Out.threadsOk.execClCalli {o : Ops} {s : State} (h : s.threadsOk) : Out.threadsOk (execClCalli o s) :=
  .issueLane h fun _ _ _ h1 => .callForm h1

/-! ## Leaving a handler -/

theorem State.threadsOk.resumePoint {s : State} {core ctx : Nat} {ids : List Nat} {old : AMap (AMap Byte)}
    {a h : DWord} (h1 : s.threadsOk) :
    (s.resumePoint core ctx ids old a h).1.threadsOk := by
  unfold State.resumePoint
  split
  · exact h1
  · dsimp only
    split
    next s _ _ _ _ heq =>
      exact .of_fst heq (.fetch h1)
    next s _ heq =>
      exact .of_fst heq (.fetch h1)
    next s _ _ heq =>
      exact .of_fst heq (.fetch h1)
    next s _ heq =>
      have h2 : s.threadsOk := .of_fst heq (.fetch h1)
      split
      · exact h2
      · split
        next s _ _ _ _ heq1 =>
          exact .of_fst heq1 (.fetch h2)
        next s _ heq1 =>
          exact .of_fst heq1 (.fetch h2)
        next s _ _ heq1 =>
          exact .of_fst heq1 (.fetch h2)
        next s _ heq1 =>
          exact .of_fst heq1 (.fetch h2)

theorem State.threadsOk.resumeAt {s : State} {w : Nat} {ls : List Nat} {a h : DWord} {r : Resume} (h1 : s.threadsOk) :
    (s.resumeAt w ls a h r).threadsOk := by
  refine .ite h1 ?_
  dsimp only
  split
  · exact .foldl (fun _ _ h2 => .modLane h2 fun _ hL => .enter hL) h1
  · exact .foldl (fun _ _ h2 => .modLane h2 fun _ hL => .update hL) (.startGroup (.newId h1))
  · exact .ite (.foldl (fun _ _ h2 => .modLane h2 fun _ hL => .update hL) h1)
      (.takeTrap (.foldl (fun _ _ h2 => .modLane h2 fun _ hL => .update hL) h1))
  · exact .ite (.foldl (fun _ _ h2 => .modLane h2 fun _ hL => .update hL) h1)
      (.takeTrap (.foldl (fun _ _ h2 => .modLane h2 fun _ hL => .update hL) h1))
  all_goals exact h1

theorem State.threadsOk.leaveHandler {s : State} {w : Nat} {ls : List Nat} {ends : Bool} {r : Resume}
    (h : s.threadsOk) :
    (s.leaveHandler w ls ends r).threadsOk :=
  .resumeAt (.ite (.takePending (.foldl (fun _ _ h1 => .leaveGroup h1)
    (.ite (.endLanes h) (.foldl (fun _ _ h1 => .modLane (.leaveGroup h1) fun _ hL => .update hL) h))))
      (.foldl (fun _ _ h1 => .leaveGroup h1)
        (.ite (.endLanes h) (.foldl (fun _ _ h1 => .modLane (.leaveGroup h1) fun _ hL => .update hL) h))))

theorem State.threadsOk.mergeResumed {s : State} {old : List Nat} {stopOf : Nat → Nat} (h : s.threadsOk) :
    (s.mergeResumed old stopOf).threadsOk := by
  refine .foldl (fun _ _ h1 => ?_) h
  split
  · exact h1
  · exact .ite h1 (.modGroup (.foldl (fun _ _ h2 => .delGroup h2)
      (.foldl (fun _ _ h2 => .modLane h2 fun _ hL => .update hL) h1)))

theorem Out.threadsOk.resuming {s : State} {g : Nat} {gr : Group} {ls : List (Nat × Nat)} {ends : Bool}
    {k : List (Nat × Resume) → State → Out} (h : s.threadsOk) (hk : ∀ x s, s.threadsOk → Out.threadsOk (k x s)) :
    Out.threadsOk (resuming s g gr ls ends k) := by
  unfold Machine.resuming
  extract_lets -merge +onlyGivenNames ctx pts s1 misses away
  have h1 : pts.1.threadsOk := by
    unfold pts
    refine .foldl_fst (fun _ _ h1 => ?_) h
    dsimp only
    split
    · exact h1
    · exact .resumePoint h1
  have h2 : s1.threadsOk := .dropWalks h1
  exact .ite (.next (.parkGroup (.foldl_fst (fun _ _ h3 => .startWalk h3) h2)))
    (.ite (.next (.parkGroup (.foldl (fun _ _ h3 => .send h3) h2))) (hk _ _ h2))

theorem State.threadsOk.leaveAll {s : State} {ls : List (Nat × Nat)} {ends : Bool} {pts : List (Nat × Resume)}
    (h : s.threadsOk) :
    (s.leaveAll ls ends pts).threadsOk :=
  .mergeResumed (.foldl (fun _ _ h1 => .leaveHandler h1) h)

theorem Out.threadsOk.exitForm {s : State} {g : Nat} {gr : Group} {ls : List (Nat × Nat)} (h : s.threadsOk) :
    Out.threadsOk (exitForm s g gr ls) := by
  refine .ite (.resuming h fun _ _ h1 => .next ?_) (.next ?_)
  · dsimp only
    split
    · exact .endClause (.leaveAll h1)
    · exact .leaveAll h1
  · dsimp only
    split
    · exact .endClause (.endLanes h)
    · exact .endLanes h

theorem Out.threadsOk.execClRet {o : Ops} {s : State} (h : s.threadsOk) : Out.threadsOk (execClRet o s) := by
  refine .issueLane h fun _ _ _ h1 => .raising h1 fun _ _ h2 => .ite
    (.accessing h2 fun _ _ _ h3 => .ite (.next (.parkGroup h3)) (.next (.foldl (fun _ _ h4 => ?_) (.parkGroup h3))))
      (.raising h2 fun _ _ h3 => .ite (.next (.foldl (fun _ _ h4 => .beginRelease h4) (.parkGroup h3)))
        (.ite (.next (.unfocus (.delGroup (.enterAll (.eachLane h3 fun _ hW _ _ hL => ?_)))))
          (.exitForm (.modGroup (.enterAll (.eachLane h3 fun _ hW _ _ hL => ?_))))))
  · split
    · exact .modGroup h4
    all_goals exact .stackOp h4
  · split
    · exact .update hL
    · exact .update hL
  · split
    · exact .update hL
    · exact .update hL

/-! ## Exit, yield, nap -/

theorem Out.threadsOk.execXExit {o : Ops} {s : State} (h : s.threadsOk) : Out.threadsOk (execXExit o s) :=
  .issueLane h fun _ _ _ h1 => .exitForm h1

theorem State.threadsOk.waitNext {s : State} {g : Nat} {gr : Group} {ex : List (Nat × Nat)} {e : Lane → Entry}
    (h : s.threadsOk) :
    (s.waitNext g gr ex e).threadsOk :=
  .foldl (fun _ _ h1 => .modLane h1 fun _ hL => .update hL) (.endClause h)

theorem Out.threadsOk.execXYield {o : Ops} {s : State} (h : s.threadsOk) : Out.threadsOk (execXYield o s) :=
  .issueLane h fun _ _ _ h1 => .next (.waitNext h1)

theorem Out.threadsOk.execXNap {o : Ops} {s : State} (h : s.threadsOk) : Out.threadsOk (execXNap o s) :=
  .issueLane h fun _ _ _ h1 => .next (.foldl (fun _ _ h2 => .modLane h2 fun _ hL => .update hL) (.endClause h1))

theorem Out.threadsOk.execNapWake {w l : Nat} {s : State} (h : s.threadsOk) : Out.threadsOk (execNapWake w l s) := by
  unfold Machine.execNapWake
  split
  · exact .ite (.next (.modLane h fun _ hL => .update hL)) trivial
  all_goals exact trivial

theorem Out.threadsOk.execYieldExpiry {w l : Nat} {s : State} (h : s.threadsOk) :
    Out.threadsOk (execYieldExpiry w l s) := by
  unfold Machine.execYieldExpiry
  split
  · exact .ite (.next (.modLane h fun _ hL => .update hL)) trivial
  all_goals exact trivial

end Sys2Proof.Machine
end

section
/-! SUPPORT. O5: what keeps the form of threads in work queues. -/

namespace Sys2Proof.Machine

/-! ## The device's own accesses by virtual address -/

theorem State.threadsOk.devWalk {s : State} {va : Nat} {need : Need} {lvl table : Nat} (h : s.threadsOk) :
    (s.devWalk va need lvl table).1.threadsOk := by
  fun_induction State.devWalk s va need lvl table
  case case1 => exact h
  case case9 hread _ _ _ ih => exact ih (.of_fst hread (.devRead h))
  all_goals exact .of_fst ‹State.devRead _ _ _ = _› (.devRead h)

theorem State.threadsOk.devPa {s : State} {ctx va : Nat} {need : Need} (h : s.threadsOk) :
    (s.devPa ctx va need).1.threadsOk := by
  unfold State.devPa
  split
  · exact h
  · exact .devWalk h

theorem State.threadsOk.vaRead {s : State} {ctx va n : Nat} (h : s.threadsOk) : (s.vaRead ctx va n).1.threadsOk := by
  unfold State.vaRead
  split
  · exact h
  · split
    next s heq =>
      exact .of_fst heq (.devPa h)
    next s _ heq =>
      have h1 : s.threadsOk := .of_fst heq (.devPa h)
      split
      · exact h1
      · exact .devRead h1

theorem State.threadsOk.vaBytes {s : State} {ctx va n : Nat}
    (h : s.threadsOk) : (s.vaBytes ctx va n).1.threadsOk := by
  refine .foldl_fst (fun _ _ h1 => ?_) h
  split
  · exact h1
  · split
    next s _ heq =>
      exact .of_fst heq (.vaRead h1)
    next s heq =>
      exact .of_fst heq (.vaRead h1)

/-! ## Queue descriptors -/

theorem State.threadsOk.queue {s : State} {ctx q : Nat} (h : s.threadsOk) : (s.queue ctx q).1.threadsOk := by
  unfold State.queue
  dsimp only
  split
  · exact h
  · split
    next s heq =>
      exact .of_fst heq (.devPa h)
    next s _ heq =>
      have h1 : s.threadsOk := .of_fst heq (.devPa h)
      exact .devRead h1

theorem State.threadsOk.queueFault {s : State} {d : QDesc} {cause idx : Nat} (h : s.threadsOk) :
    (s.queueFault d cause idx).threadsOk :=
  .devWrite (.devWrite h)

theorem State.threadsOk.pushEntry {s : State} {ctx : Nat} {d : QDesc} {image : Nat} (h : s.threadsOk) :
    (s.pushEntry ctx d image).threadsOk := by
  unfold State.pushEntry
  dsimp only
  split
  next s _ heq =>
    have h1 : s.threadsOk := .of_fst heq (.devPa (.devWrite h))
    exact .devWrite h1
  next s heq =>
    exact .of_fst heq (.devPa (.devWrite h))

theorem Out.threadsOk.execJoinPush {n : Nat} {s : State} (h : s.threadsOk) : Out.threadsOk (execJoinPush n s) := by
  refine .needing (fun _ h1 => ?_) h
  dsimp only
  split
  · exact trivial
  · split
    next s _ heq =>
      have h2 : s.threadsOk := .of_fst heq (.queue h1)
      exact .ite (.notNow h2) (.next (.pushEntry (.modCtx h2)))
    next s heq =>
      have h2 : s.threadsOk := .of_fst heq (.queue h1)
      exact .notNow h2

/-! ## Join records -/

theorem State.threadsOk.joinError {s : State} {ctx pa : Nat} {x : ℤ} (h : s.threadsOk) :
    (s.joinError ctx pa x).threadsOk :=
  .report h

theorem State.threadsOk.joinHere {s : State} {ctx pa : Nat} {n : Int} (h : s.threadsOk) :
    (s.joinHere ctx pa n).1.threadsOk := by
  unfold State.joinHere
  split
  next s old heq =>
    have h1 : s.threadsOk := .of_fst heq (.devRead h)
    extract_lets now wrapped t
    have h2 : t.threadsOk := .ite h1 (.devWrite h1)
    split
    · exact h2
    · split
      · exact .joinError h2
      · split
        · exact h2
        · split
          next s _ heq1 =>
            have h3 : s.threadsOk := .of_fst heq1 (.devRead h2)
            dsimp only
            split
            · exact h3
            · split
              next s heq2 =>
                have h4 : s.threadsOk := .of_fst heq2 (.queue h3)
                exact .joinError h4
              next s _ heq2 =>
                have h4 : s.threadsOk := .of_fst heq2 (.queue h3)
                split
                · exact .joinError h4
                · split
                  next s heq3 =>
                    have h5 : s.threadsOk := .of_fst heq3 (.vaRead h4)
                    exact .joinError h5
                  next s _ heq3 =>
                    have h5 : s.threadsOk := .of_fst heq3 (.vaRead h4)
                    split
                    · exact .modCtx h5
                    · exact .pushEntry h5

theorem State.threadsOk.joinChange {s : State} {ctx va : Nat} {n : ℤ} (h : s.threadsOk) :
    (s.joinChange ctx va n).threadsOk := by
  unfold State.joinChange
  split
  next s heq =>
    exact .of_fst heq (.devPa h)
  next s _ heq =>
    have h1 : s.threadsOk := .of_fst heq (.devPa h)
    exact .ite (.joinHere h1) (.fabric h1)

/-! ## Records -/

theorem State.threadsOk.recordFault {s : State} {L : Launch} {x : Nat} (h : s.threadsOk) :
    (s.recordFault L x).1.threadsOk := by
  unfold State.recordFault
  split
  · exact h
  · split
    · exact h
    · split
      next s ok heq =>
        have h1 : s.threadsOk := .of_fst heq (by
          split
          · exact h
          · exact .vaBytes h)
        split
        · exact h1
        · split <;> exact h1

/-! ## Placing a cluster -/

theorem Lane.tidy.startLane {L : Launch} {t blockIndex clock : Nat} : (startLane L t blockIndex clock).tidy :=
  .ite (.update .empty) (.update .empty)

theorem Warp.tidy.startWarp {L : Launch} {core b w block blockIndex clock : Nat} {at_ : AMap Nat × Nat} :
    (startWarp L core b w block blockIndex clock at_).tidy := by
  refine ⟨rfl, AMap.sorted_map_range _ _, fun e he => ?_⟩
  obtain ⟨l, -, rfl⟩ := List.mem_map.1 he
  exact Lane.tidy.startLane

theorem State.threadsOk.startBlock {s : State} (h : s.threadsOk) {id : Nat} {L : Launch} {k cb gx gy : Nat}
    {param : AMap Byte} {at_ : Nat × Spot} : (s.startBlock id L k cb gx gy param at_).threadsOk :=
  .foldl (fun _ _ h1 => .modBlock (State.threadsOk.setWarp (.newId h1) .startWarp)) (.update (.newId h))

theorem State.threadsOk.paramOf {s : State} {L : Launch} (h : s.threadsOk) : (s.paramOf L).1.threadsOk := by
  unfold State.paramOf
  split
  · exact h
  · exact .vaBytes h

theorem State.threadsOk.placeCluster {s : State} {id : Nat} {L : Launch} {spots : List (Nat × Spot)}
    (h : s.threadsOk) :
    (s.placeCluster id L spots).threadsOk :=
  .update (.foldl (fun _ _ h1 => .startBlock h1) (.paramOf h))

/-! ## Choosing what runs next -/

theorem State.threadsOk.headOf {s : State} {ctx q : Nat} {d : QDesc} (h : s.threadsOk) :
    (s.headOf ctx q d).1.threadsOk := by
  unfold State.headOf
  split
  · exact h
  · split
    next s heq =>
      exact .of_fst heq (.vaRead h)
    next s _ heq =>
      have h1 : s.threadsOk := .of_fst heq (.vaRead h)
      dsimp only
      split
      · exact h1
      · split
        · exact h1
        · split
          next s _ heq1 =>
            exact .of_fst heq1 (.recordFault h1)
          next s heq1 =>
            exact .of_fst heq1 (.recordFault h1)

theorem State.threadsOk.validHead {s : State} {ctx : Nat} {d : QDesc} (h : s.threadsOk) :
    (s.validHead ctx d).1.threadsOk := by
  unfold State.validHead
  split
  · exact h
  · split
    next s _ heq =>
      exact .of_fst heq (.vaRead h)
    next s heq =>
      exact .of_fst heq (.vaRead h)

theorem State.threadsOk.queueIsLate {s : State} {ctx q : Nat} {d : QDesc} (h : s.threadsOk) :
    (s.queueIsLate ctx q d).1.threadsOk := by
  unfold State.queueIsLate
  split
  · exact h
  · split
    · exact h
    · exact .validHead h

theorem State.threadsOk.noteLate {s : State} {ctx q : Nat} {d : QDesc} (h : s.threadsOk) :
    (s.noteLate ctx q d).threadsOk :=
  .modCtx (.ite (.devWrite (.queueIsLate h)) (.queueIsLate h))

theorem State.threadsOk.effPrio {s : State} {ctx q : Nat} {d : QDesc} {prio : Nat} (h : s.threadsOk) :
    (s.effPrio ctx q d prio).1.threadsOk := by
  unfold State.effPrio
  dsimp only
  split
  · exact .queueIsLate h
  · exact h

theorem State.threadsOk.heads {s : State} {ctx : Nat} (h : s.threadsOk) : (s.heads ctx).1.threadsOk := by
  refine .foldl_fst (fun _ _ h1 => ?_) h
  dsimp only
  split
  next s heq =>
    have h2 : s.threadsOk := .of_fst heq (.queue h1)
    exact h2
  next s _ heq =>
    have h2 : s.threadsOk := .of_fst heq (.queue h1)
    split
    next s heq1 =>
      have h3 : s.threadsOk := .of_fst heq1 (.headOf h2)
      exact h3
    next s _ _ heq1 =>
      have h3 : s.threadsOk := .of_fst heq1 (.headOf h2)
      dsimp only
      exact .effPrio h3

theorem State.threadsOk.activeJobs {s : State} {ctx : Nat} (h : s.threadsOk) : (s.activeJobs ctx).1.threadsOk := by
  refine .foldl_fst (fun _ _ h1 => ?_) h
  dsimp only
  split
  · dsimp only
    split
    · split
      next s _ heq =>
        have h2 : s.threadsOk := .of_fst heq (.queue h1)
        exact .effPrio h2
      next s heq =>
        exact .of_fst heq (.queue h1)
    · exact h1
  · exact h1

theorem State.threadsOk.takeHead {s : State} {ctx q eff : Nat} {d : QDesc} (h : s.threadsOk) :
    (s.takeHead ctx q eff d).threadsOk :=
  .modCtx (.devWrite h)

theorem State.threadsOk.refuseRecord {s : State} {ctx : Nat} {d : QDesc} {idx cause kind : Nat} (h : s.threadsOk) :
    (s.refuseRecord ctx d idx cause kind).threadsOk := by
  unfold State.refuseRecord
  dsimp only
  split
  next s _ heq =>
    have h1 : s.threadsOk := .of_fst heq (.devPa (.queueFault h))
    exact .devWrite h1
  next s heq =>
    exact .of_fst heq (.devPa (.queueFault h))

theorem State.threadsOk.beginLaunch {s : State} {ctx : Nat} {d : QDesc} {L : Launch} {image : Nat} (h : s.threadsOk) :
    (s.beginLaunch ctx d L image).threadsOk := by
  refine .ite (.update (.newId h)) (.ite (.refuseRecord ?_) (.foldl (fun _ _ h1 => .fabric h1) (.update ?_)))
  · split
    next s _ heq =>
      have h1 : s.threadsOk := .of_fst heq (.devPa (.modCtx (.newId h)))
      exact .devWrite h1
    next s heq =>
      exact .of_fst heq (.devPa (.modCtx (.newId h)))
  · split
    next s _ heq =>
      have h1 : s.threadsOk := .of_fst heq (.devPa (.modCtx (.newId h)))
      exact .devWrite h1
    next s heq =>
      exact .of_fst heq (.devPa (.modCtx (.newId h)))

theorem State.threadsOk.choose {s : State} {ctx : Nat} {j : Job} {req : BlockReq} (h : s.threadsOk) :
    (s.choose ctx j req).1.threadsOk := by
  unfold State.choose
  split
  · exact h
  · exact .modCtx h

theorem State.threadsOk.unchoose {s : State} {ctx : Nat} {j : Job} (h : s.threadsOk) :
    (s.unchoose ctx j).threadsOk :=
  .modCtx h

theorem State.threadsOk.noteJob {s : State} {ctx : Nat} {j : Job}
    (h : s.threadsOk) : (s.noteJob ctx j).threadsOk := by
  unfold State.noteJob
  split
  next s _ heq =>
    have h1 : s.threadsOk := .of_fst heq (.queue h)
    exact .noteLate h1
  next s heq =>
    exact .of_fst heq (.queue h)

theorem State.threadsOk.dispatchOnce {s : State} {part : Nat} (h : s.threadsOk) :
    (s.dispatchOnce part).1.threadsOk := by
  unfold State.dispatchOnce
  dsimp only
  split
  · exact h
  · split
    · split
      · exact .refuseRecord (.takeHead (.noteLate (.heads h)))
      · exact .beginLaunch (.takeHead (.noteLate (.heads h)))
      · exact .takeHead (.noteLate (.heads h))
    · split
      · exact .activeJobs (.heads h)
      · split
        · split
          · exact .placeCluster (.unchoose (.ite (.noteJob (.activeJobs (.heads h))) (.activeJobs (.heads h))))
          · exact .choose (.activeJobs (.heads h))
        · split
          · split
            · exact .placeCluster (.newId (.takeHead (.unchoose (.noteLate (.activeJobs (.heads h))))))
            · exact .choose (.activeJobs (.heads h))
          · exact .activeJobs (.heads h)

theorem Out.threadsOk.execDispatch {part : Nat} {s : State} (h : s.threadsOk) :
    Out.threadsOk (execDispatch part s) := by
  refine .needing (fun _ h1 => ?_) h
  split
  next s _ heq =>
    have h2 : s.threadsOk := .of_fst heq (.dispatchOnce h1)
    exact .next h2
  next s _ heq =>
    have h2 : s.threadsOk := .of_fst heq (.dispatchOnce h1)
    exact .notNow h2

theorem Out.threadsOk.execPlacementZeroingDone {launch cluster : Nat} {s : State} (h : s.threadsOk) :
    Out.threadsOk (execPlacementZeroingDone launch cluster s) :=
  .ite trivial (.next (.foldl (fun _ _ h1 => .modBlock h1) h))

theorem Out.threadsOk.execQueueLate {part q : Nat} {s : State} (h : s.threadsOk) :
    Out.threadsOk (execQueueLate part q s) := by
  refine .needing (fun _ h1 => ?_) h
  dsimp only
  split
  next s heq =>
    have h2 : s.threadsOk := .of_fst heq (.queue h1)
    exact .notNow h2
  next s _ heq =>
    have h2 : s.threadsOk := .of_fst heq (.queue h1)
    exact .ite (.next (.noteLate h2)) (.notNow (.noteLate h2))

/-! ## Compaction -/

theorem Out.threadsOk.execCompactorMove {core sub bank : Nat} {s : State} (h : s.threadsOk) :
    Out.threadsOk (execCompactorMove core sub bank s) := by
  unfold Machine.execCompactorMove
  split
  · exact trivial
  · refine .ite trivial ?_
    dsimp only
    split
    · exact .next (.update (.modWarp h fun _ hW => .update hW))
    · exact trivial

theorem Out.threadsOk.execLsCompaction {core : Nat} {s : State} (h : s.threadsOk) :
    Out.threadsOk (execLsCompaction core s) := by
  unfold Machine.execLsCompaction
  split
  · exact trivial
  · refine .ite trivial ?_
    dsimp only
    split
    · exact .next (.modBlock h)
    · exact trivial

theorem Out.threadsOk.execTileCompaction {core sub : Nat} {s : State} (h : s.threadsOk) :
    Out.threadsOk (execTileCompaction core sub s) := by
  unfold Machine.execTileCompaction
  split
  · exact trivial
  · refine .ite trivial ?_
    dsimp only
    split
    · exact .next (.update (.modWarp h fun _ hW => .update hW))
    · exact trivial

/-! ## Retirement -/

theorem State.threadsOk.finishLaunch {s : State} {id : Nat} {L : Launch} (h : s.threadsOk) :
    (s.finishLaunch id L).threadsOk :=
  .ite (.update h) (.joinChange (.update h))

theorem State.threadsOk.recordBlock {s : State} {b : Nat} (h : s.threadsOk) : (s.recordBlock b).threadsOk :=
  .ite h (.modBlock (.blockRecord h))

theorem State.threadsOk.retireBlock {s : State} (h : s.threadsOk) {b : Nat} : (s.retireBlock b).threadsOk :=
  have hgone := State.threadsOk.modBlock (.delWarps h)
  .ite (.update hgone) (.ite (.finishLaunch (.update hgone)) (.update (.update hgone)))

theorem Out.threadsOk.execBlockRetire {block : Nat} {s : State} (h : s.threadsOk) :
    Out.threadsOk (execBlockRetire block s) := by
  refine .needing (fun _ h1 => ?_) h
  split
  · exact trivial
  · exact .ite trivial (.ite (.next (.foldl (fun _ _ h2 => .pushPartial h2) h1))
      (.ite (.ite (.next (.retireBlock (.recordBlock h1))) (.ite trivial (.next (.recordBlock h1)))) trivial))

theorem Out.threadsOk.execOrdApply {block : Nat} {s : State} (h : s.threadsOk) :
    Out.threadsOk (execOrdApply block s) := by
  unfold Machine.execOrdApply
  split
  · exact trivial
  · exact .ite (.next (.update (.modBlock (.foldl (fun _ _ h1 => .startOp h1) h)))) trivial

/-! ## A block that an LSECC ended -/

theorem State.threadsOk.restartWarps {s : State} {b : Nat} {at_ : List (Nat × AMap Nat × Nat)} (h : s.threadsOk) :
    (s.restartWarps b at_).threadsOk :=
  .foldl (fun _ _ h1 => .modWarp h1 fun _ _ => .update .startWarp) h

theorem Out.threadsOk.execBlockRelaunch {block : Nat} {s : State} (h : s.threadsOk) :
    Out.threadsOk (execBlockRelaunch block s) := by
  unfold Machine.execBlockRelaunch
  split
  · exact trivial
  · refine .ite trivial (.ite (.ite (.next (.tellEnd h)) trivial)
      (.ite trivial (.ite ?_ (.next (.foldl (fun _ _ h1 => .releaseQuarters h1) (.modBlock h))))))
    split
    · exact trivial
    · exact .next (.modBlock (.restartWarps h))

/-! ## Launches on several chips -/

theorem State.threadsOk.launchRecord {s : State} {src ctx gen : Nat} {image : List Byte} (h : s.threadsOk) :
    (s.launchRecord src ctx gen image).threadsOk := by
  fun_cases State.launchRecord
  · exact .fabric h
  next heq => exact .fabric (.of_fst heq (.recordFault h))
  next t ht n u hu => exact .fabric (.update (.of_snd hu (.newId (.of_fst ht (.recordFault h)))))

theorem Out.threadsOk.execLaunchRecord {src ctx gen : Nat} {image : List Byte} {s : State} (h : s.threadsOk) :
    Out.threadsOk (execLaunchRecord src ctx gen image s) :=
  .needing (fun _ h1 => .next (.launchRecord h1)) h

theorem Out.threadsOk.execAccept {src ctx gen : Nat} {s : State} (h : s.threadsOk) :
    Out.threadsOk (execAccept src ctx gen s) := by
  unfold Machine.execAccept
  split
  · exact .next h
  · exact .ite (.next (.update h)) (.ite (.next (.update (.foldl (fun _ _ h1 => .fabric h1) h)))
      (.next (.update (.foldl (fun _ _ h1 => .fabric h1) h))))

theorem State.threadsOk.refuseLaunch {s : State} {src disp ctx gen cause : Nat} (h : s.threadsOk) :
    (s.refuseLaunch src disp ctx gen cause).threadsOk := by
  unfold State.refuseLaunch
  split
  · exact h
  · refine .ite (.update h) ?_
    dsimp only
    split
    next s _ heq =>
      have h1 : s.threadsOk := .of_fst heq (.queue (.foldl (fun _ _ h1 => .fabric h1) (.update h)))
      exact .refuseRecord h1
    next s heq =>
      exact .of_fst heq (.queue (.foldl (fun _ _ h1 => .fabric h1) (.update h)))

theorem Out.threadsOk.execRefuse {src : Refuser} {ctx gen cause : Nat} {s : State} (h : s.threadsOk) :
    Out.threadsOk (execRefuse src ctx gen cause s) :=
  .needing (fun _ h1 => .next (.refuseLaunch h1)) h

theorem Out.threadsOk.execStart {src ctx gen : Nat} {s : State} (h : s.threadsOk) :
    Out.threadsOk (execStart src ctx gen s) := by
  unfold Machine.execStart
  split
  · exact .next (.update h)
  · exact .next h

/-! ## Tail registers -/

theorem State.threadsOk.writeTail {s : State} {part q : Nat} {v : DWord} (h : s.threadsOk) :
    (s.writeTail part q v).threadsOk := by
  refine .ite h ?_
  split
  next s heq =>
    exact .of_fst heq (.queue h)
  next s _ heq =>
    have h1 : s.threadsOk := .of_fst heq (.queue h)
    exact .ite (.devWrite h1) (.queueFault h1)

theorem State.threadsOk.readTail {s : State} {part q : Nat} (h : s.threadsOk) : (s.readTail part q).1.threadsOk := by
  unfold State.readTail
  dsimp only
  split
  · exact h
  · split
    next s heq =>
      exact .of_fst heq (.queue h)
    next s _ heq =>
      exact .of_fst heq (.queue h)

theorem Out.threadsOk.execTailRegisterWrite {part q : Nat} {v : DWord} {s : State} (h : s.threadsOk) :
    Out.threadsOk (execTailRegisterWrite part q v s) :=
  .awake (fun _ h1 => .needing (fun _ h2 => .next (.writeTail h2)) h1) h

/-! ## W -/

theorem Out.threadsOk.awaitFence {s : State} {g : Nat} {gr : Group} {who : List (Nat × Nat)} {k : State → Out}
    (h : s.threadsOk) (hk : ∀ s, s.threadsOk → Out.threadsOk (k s)) :
    Out.threadsOk (s.awaitFence g gr who k) :=
  .ite (hk _ h) (.next (.beginFence h))

theorem State.threadsOk.queuesOf {s : State} {ctx : Nat} {qs : List Nat} (h : s.threadsOk) :
    (s.queuesOf ctx qs).1.threadsOk := by
  refine .foldl_fst (fun _ _ h1 => ?_) h
  split
  next s _ heq =>
    exact .of_fst heq (.queue h1)
  next s heq =>
    exact .of_fst heq (.queue h1)

theorem State.threadsOk.ownStores {s : State} {since : Nat} {gr : Group} {w : Nat} {fs : Bool} (h : s.threadsOk) :
    (s.ownStores since gr w fs).threadsOk :=
  .update (.attach h)

theorem State.threadsOk.pushLane {s : State} {ctx q : Nat} {d : Dst} {x : Nat × Nat} {image : Nat} (h : s.threadsOk) :
    (s.pushLane ctx q d x image).threadsOk := by
  unfold State.pushLane
  split
  next s heq =>
    exact .of_fst heq (.queue h)
  next s _ heq =>
    have h1 : s.threadsOk := .of_fst heq (.queue h)
    exact .ite (.modLane h1 fun _ hL => .putD hL) (.modLane (.pushEntry h1) fun _ hL => .putD hL)

theorem Out.threadsOk.pushForm {o : Ops} {kind : Nat} {fs : Bool} {s : State} (h : s.threadsOk) :
    Out.threadsOk (pushForm o kind fs s) :=
  .issueLane h fun _ _ _ h1 => .recording h1 fun _ _ _ _ h2 => .reaching
    (fun _ h3 => .raising (.reportPoison (.dropWalks (.queuesOf h3))) fun _ _ h4 => .awaitFence h4 fun _ h5 => .ite
      (.next (.parkGroup h5)) (.next (.retire
        (.zeroHelpers (.foldl (fun _ _ h6 => .ownStores (.foldl (fun _ _ h7 => .pushLane h7) h6)) h5))))) h2

theorem Out.threadsOk.execWSpawn {o : Ops} {fs : Bool} {s : State} (h : s.threadsOk) :
    Out.threadsOk (execWSpawn o fs s) :=
  .pushForm h

theorem Out.threadsOk.execWLaunch {o : Ops} {fs : Bool} {s : State} (h : s.threadsOk) :
    Out.threadsOk (execWLaunch o fs s) :=
  .pushForm h

theorem State.threadsOk.joinLane {s : State} {ctx work : Nat} {o : Ops} {h : Hit} (h1 : s.threadsOk) :
    (s.joinLane ctx work o h).threadsOk :=
  .ite (.modLane (.joinHere h1) fun _ hL => .putD hL) (.fabric (.update (.newId h1)))

theorem Out.threadsOk.execWJoin {o : Ops} {fs : Bool} {s : State} (h : s.threadsOk) :
    Out.threadsOk (execWJoin o fs s) :=
  .issueLane h fun _ _ _ h1 => .accessing h1 fun _ _ _ h2 => .colouring h2 fun _ _ h3 => .awaitFence h3 fun _ h4 =>
    .reaching (fun _ h5 => .ite (.next (.parkGroup h5))
      (.next (.retire (.zeroHelpers (.foldl
        (fun _ _ h6 => .ownStores (.foldl (fun _ _ h7 => .joinLane h7) (.attach h6))) h5))))) h4

theorem State.threadsOk.setDeadline {s : State} {ctx q : Nat} {t : DWord} (h : s.threadsOk) :
    (s.setDeadline ctx q t).threadsOk := by
  unfold State.setDeadline
  split
  next s heq =>
    exact .of_fst heq (.queue h)
  next s _ heq =>
    have h1 : s.threadsOk := .of_fst heq (.queue h)
    exact .modCtx (.devWrite (.noteLate h1))

theorem Out.threadsOk.execWDead {o : Ops} {s : State} (h : s.threadsOk) : Out.threadsOk (execWDead o s) :=
  .issueLane h fun _ _ _ h1 => .reaching (fun _ h2 => .raising (.queuesOf h2) fun _ _ h3 => .next
    (.retire (.foldl (fun _ _ h4 => .setDeadline h4) h3))) h1

theorem State.threadsOk.qstat {s : State} {ctx q : Nat} {d : QDesc} {sel : QSel} (h : s.threadsOk) :
    (s.qstat ctx q d sel).1.threadsOk := by
  unfold State.qstat
  split
  · exact h
  · exact h
  · split
    · exact h
    · exact .effPrio h
  all_goals exact h

theorem Out.threadsOk.execWQstat {o : Ops} {sel : QSel} {s : State} (h : s.threadsOk) :
    Out.threadsOk (execWQstat o sel s) := by
  refine .issueLane h fun _ _ _ h1 => .reaching
    (fun _ h2 => .raising (.queuesOf h2) fun _ _ h3 => .next
      (.retire (.zeroHelpers (.foldl (fun _ _ h4 => ?_) h3)))) h1
  dsimp only
  split
  next s heq =>
    exact .of_fst heq (.queue h4)
  next s _ heq =>
    have h5 : s.threadsOk := .of_fst heq (.queue h4)
    exact .modLane (.qstat h5) fun _ hL => .putD hL

end Sys2Proof.Machine
end

section
/-! SUPPORT. O5: what keeps the form of threads in contexts and partitions. -/

namespace Sys2Proof.Machine

/-! ## Commands -/

theorem State.threadsOk.partErr {s : State} {n : Nat} (h : s.threadsOk) : (s.partErr n).threadsOk :=
  .mark (.modPart h)

theorem State.threadsOk.haltCores {s : State} {n : Nat} {b : Bool} (h : s.threadsOk) : (s.haltCores n b).threadsOk :=
  .foldl (fun _ _ h1 => .modCore h1) h

theorem State.threadsOk.beginPreload {s : State} {n d x : Nat} (h : s.threadsOk) :
    (s.beginPreload n d x).threadsOk :=
  .modPart h

theorem State.threadsOk.runCmd {s : State} {n cmd d x : Nat} (h : s.threadsOk) : (s.runCmd n cmd d x).threadsOk := by
  unfold State.runCmd
  dsimp only
  split
  · exact .beginPreload h
  · exact .ite (.haltCores (.modPart h)) (.ite (.modPart h) (.beginPreload (.modPart h)))
  · exact .ite (.haltCores (.modPart h)) h
  · exact h

theorem State.threadsOk.readDesc {s : State} {n cmd d : Nat}
    (h : s.threadsOk) : (s.readDesc n cmd d).1.threadsOk := by
  unfold State.readDesc
  split
  · split
    · exact h
    · split
      · exact .devRead h
      · exact h
  · split
    · exact .devRead h
    · exact h

theorem State.threadsOk.startCmd {s : State} {n cmd d : Nat} (h : s.threadsOk) : (s.startCmd n cmd d).threadsOk :=
  .ite (.runCmd h) (.ite (.runCmd (.readDesc h)) (.partErr (.readDesc h)))

theorem State.threadsOk.command {s : State} {n cmd d : Nat} (h : s.threadsOk) : (s.command n cmd d).threadsOk :=
  .ite h (.ite (.modPart h) (.startCmd h))

theorem State.threadsOk.runWaiting {s : State} (h : s.threadsOk) {n : Nat} {x : List DWord} :
    (s.runWaiting n x).threadsOk := by
  induction x generalizing s with
  | nil => exact .modPart h
  | cons x rest ih => exact .ite (.modPart h) (ih (.startCmd h))

theorem State.threadsOk.wakeCmds {s : State} {n : Nat} (h : s.threadsOk) : (s.wakeCmds n).threadsOk :=
  .runWaiting h

theorem State.threadsOk.writePctl {s : State} {n : Nat} {v : DWord} (h : s.threadsOk) :
    (s.writePctl n v).threadsOk :=
  .ite (.modPart h) (.ite (.command (.modPart (.modPart h))) (.modPart (.command (.modPart (.modPart h)))))

theorem Out.threadsOk.execPreload {part desc : Nat} {s : State} (h : s.threadsOk) :
    Out.threadsOk (execPreload part desc s) :=
  .awake (fun _ h1 => .needing (fun _ h2 => .next (.writePctl h2)) h1) h

theorem Out.threadsOk.execSwitch {part desc : Nat} {s : State} (h : s.threadsOk) :
    Out.threadsOk (execSwitch part desc s) :=
  .awake (fun _ h1 => .needing (fun _ h2 => .next (.writePctl h2)) h1) h

theorem Out.threadsOk.execUnbind {part : Nat} {s : State} (h : s.threadsOk) : Out.threadsOk (execUnbind part s) :=
  .awake (fun _ h1 => .next (.writePctl h1)) h

theorem Out.threadsOk.execFunctionLevelReset {n : Nat} {s : State} (h : s.threadsOk) :
    Out.threadsOk (execFunctionLevelReset n s) :=
  .ite (.next (.command h)) trivial

theorem Out.threadsOk.execPreloadComplete {part : Nat} {s : State} (h : s.threadsOk) :
    Out.threadsOk (execPreloadComplete part s) := by
  refine .needing (fun _ h1 => ?_) h
  dsimp only
  split
  · exact .ite (.ite (.next (.haltCores (.modPart h1))) (.next (.wakeCmds (.modPart h1)))) trivial
  · exact trivial

/-! ## The switch -/

theorem State.threadsOk.saveImages {s : State} {ctx : Nat} (h : s.threadsOk) : (s.saveImages ctx).threadsOk :=
  .update (.foldl (fun _ _ h1 => .ite (.update h1) (.foldl (fun _ _ h2 => .send h2) h1)) h)

theorem State.threadsOk.takeOff {s : State} {part ctx : Nat} (h : s.threadsOk) : (s.takeOff part ctx).threadsOk :=
  .saveImages (.modCtx (.update (.foldl (fun _ _ h1 => .pushAll h1)
    (.foldl (fun _ _ h1 => .engineRelease (.modCore (.update h1))) h))))

theorem State.threadsOk.cleanCore {s : State} {core : Nat} (h : s.threadsOk) : (s.cleanCore core).threadsOk :=
  .modCore (.update h)

theorem State.threadsOk.bringOn {s : State} {part ctx : Nat} (h : s.threadsOk) : (s.bringOn part ctx).threadsOk := by
  unfold State.bringOn
  extract_lets new m at_ mine moveW moveG moveB t
  have ht : t.threadsOk := by
    refine ⟨AMap.sorted_map (fun _ => ite_fst rfl rfl) h.sorted_warps, AMap.sorted_map
      (fun _ => ite_fst rfl rfl) h.sorted_groups,
      fun e he => ?_⟩
    obtain ⟨x, hx, rfl⟩ := List.mem_map.1 he
    exact .ite_snd (.update (.of_mem h hx)) (.of_mem h hx)
  exact .modCtx (.foldl (fun _ _ h1 => .foldl (fun _ _ h2 => .request h2) h1)
    (.foldl (fun _ _ h1 => .modCore (.update h1)) (.foldl (fun _ _ h1 => .cleanCore h1) ht)))

theorem Out.threadsOk.execSwitchFlip {part : Nat} {s : State} (h : s.threadsOk) :
    Out.threadsOk (execSwitchFlip part s) := by
  refine .needing (fun _ h1 => .ite trivial ?_) h
  dsimp only
  split
  · exact .next (.wakeCmds (.haltCores (.modPart (.ite (.takeOff h1) h1))))
  · exact .next (.wakeCmds (.foldl (fun _ _ h2 => .ite (.takePending h2) h2)
      (.modPart (.bringOn (.update (.haltCores (.modPart (.ite (.takeOff h1) h1))))))))

theorem Out.threadsOk.execContextResumable {ctx : Nat} {s : State} (h : s.threadsOk) :
    Out.threadsOk (execContextResumable ctx s) := by
  refine .needing (fun _ h1 => ?_) h
  split
  · exact .ite (.next (.wakeCmds (.modPart (.modCtx h1)))) trivial
  all_goals exact trivial

/-! ## The cores of a partition -/

theorem State.threadsOk.writePcores {s : State} {n d : Nat} {v : DWord} (h : s.threadsOk) :
    (s.writePcores n d v).threadsOk :=
  .ite (.partErr h) (.modPart h)

theorem Out.threadsOk.execPcoresWrite {part die : Nat} {v : DWord} {s : State} (h : s.threadsOk) :
    Out.threadsOk (execPcoresWrite part die v s) :=
  .awake (fun _ h1 => .next (.writePcores h1)) h

end Sys2Proof.Machine
end

section
/-! SUPPORT. O5: what keeps the form of threads in meetings, barriers and special registers. -/

namespace Sys2Proof.Machine

/-! ## Meetings -/

theorem Out.threadsOk.issueMet {o : Ops} {wd : Widths} {k : Nat → Group → State → Out} {s : State}
    (hk : ∀ x x2 s, s.threadsOk → Out.threadsOk (k x x2 s)) (h : s.threadsOk) :
    Out.threadsOk (issueMet o wd k s) := by
  unfold Machine.issueMet
  split
  · exact .ite (.issueBare h fun _ _ _ h1 => hk _ _ _ h1) (.issueLane h fun _ _ _ h1 => hk _ _ _ h1)
  · exact .next h

theorem State.threadsOk.dropCounts {s : State} {block : Nat} {a : DWord} {pr : Pred} {m : Meeting} {w : Nat}
    (h : s.threadsOk) :
    (s.dropCounts block a pr m w).threadsOk :=
  .modWarp h fun _ hW => .update hW

theorem State.threadsOk.arriveMeet {s : State} {g : Nat} {gr : Group} {pr : Pred} {m : Meeting} (h : s.threadsOk) :
    (s.arriveMeet g gr pr m).threadsOk :=
  .foldl (fun _ _ h1 => .modWarp (.modWarp h1 fun _ hW => .foldl
    (fun _ _ h2 => .modLane h2 fun _ hL => .update hL) hW) fun _ hW => .update hW)
      (.ite (.eachLane (.foldl (fun _ _ h1 => .dropCounts h1) h) fun _ _ _ _ hL => .update hL)
        (.modGroup (.eachLane (.foldl (fun _ _ h1 => .dropCounts h1) h) fun _ _ _ _ hL => .update hL)))

theorem State.threadsOk.markMet {s : State} (h : s.threadsOk) {block : Nat} {a : DWord} {w : Nat} {ls : List Nat} :
    (s.markMet block a w ls).threadsOk :=
  .setGroups h (AMap.sorted_map (fun _ => ite_fst rfl rfl) h.sorted_groups)

theorem State.threadsOk.usedCounts {s : State} {a : DWord} {w : Nat} {mask : Word} (h : s.threadsOk) :
    (s.usedCounts a w mask).threadsOk :=
  .ite h (.wakeMeetings (.modWarp h fun _ hW => .update
    (.foldl (fun _ _ h1 => .modLane h1 fun _ hL => .update hL) hW)))

theorem State.threadsOk.raiseMet {s : State} {block : Nat} {a : DWord} {m : Meeting} {ls : List Nat} {r : Raise}
    (h : s.threadsOk) :
    (s.raiseMet block a m ls r).threadsOk :=
  .wakeMeetings (.foldl (fun _ _ h1 => .ite (.raise h1) h1) (.modWarp h fun _ hW => .update hW))

theorem State.threadsOk.tryMeet {s : State} {block : Nat} {a : DWord} {o : Ops} {wd : Widths} {m : Meeting}
    {w l : Nat} (h : s.threadsOk) (hm : m.KeepsLanes) :
    (s.tryMeet block a o wd m w l).threadsOk := by
  unfold State.tryMeet
  dsimp only
  split
  · exact h
  · split
    · exact .raiseMet h
    · refine .ite h ?_
      split
      · exact .raiseMet (.reportRegs h)
      · exact .ite (.markMet (.modWarp h fun _ hW => .foldl
          (fun _ _ h1 => .modLane h1 fun _ hL => hm _ (.of_state h) _ _ _ hL) hW))
            (.usedCounts (.markMet (.modWarp h fun _ hW => .foldl
              (fun _ _ h1 => .modLane h1 fun _ hL => hm _ (.of_state h) _ _ _ hL) hW)))

theorem State.threadsOk.resumeMet {s : State} {block : Nat} {a : DWord} {pr : Pred} {quad : Bool} (h : s.threadsOk) :
    (s.resumeMet block a pr quad).threadsOk :=
  .foldl (fun _ _ h1 => .ite (.retire h1) h1) h

theorem Out.threadsOk.meetForm {o : Ops} {wd : Widths} {m : Meeting} {s : State} (hm : m.KeepsLanes)
    (h : s.threadsOk) :
    Out.threadsOk (meetForm o wd m s) := by
  refine .issueMet (fun _ _ _ h1 => .raising h1 fun _ _ h2 => ?_) h
  extract_lets -merge +onlyGivenNames woken arrived parked tried
  have h3 : woken.threadsOk := .foldl (fun _ _ h => .wakeMeetings h) h2
  have h4 : arrived.threadsOk := .ite h2 (.ite (.modGroup h3) (.arriveMeet h3))
  have h5 : tried.threadsOk := .foldl (fun _ _ h => .tryMeet h hm) (.modGroup h4)
  exact .ite (.next (.retire h4)) (.next (.unfocus (.resumeMet (.ite h5 (.modGroup h5)))))

theorem Lane.tidy.withEmask {f : Warp → List Nat → Nat → Lane → Lane} {W : Warp} {e : List Nat} {l : Nat} {L : Lane}
    (hf : ∀ W, W.tidy → ∀ x x6 L, L.tidy → (f W x x6 L).tidy) (hW : W.tidy) (hL : L.tidy) :
    (withEmask f W e l L).tidy :=
  .update (hf _ hW _ _ _ hL)

/-! ## WV -/

theorem Out.threadsOk.execWvVote {o : Ops} {sp : Fin 8} {sn : Bool} {mode : VoteMode} {s : State} (h : s.threadsOk) :
    Out.threadsOk (execWvVote o sp sn mode s) :=
  .meetForm (fun _ hW _ _ _ hL => .withEmask (fun _ _ _ _ _ hL1 => .putT hL1) hW hL) h

theorem Out.threadsOk.execWvBallot {o : Ops} {sp : Fin 8} {sn : Bool} {s : State} (h : s.threadsOk) :
    Out.threadsOk (execWvBallot o sp sn s) :=
  .meetForm (fun _ hW _ _ _ hL => .withEmask (fun _ _ _ _ _ hL1 => .putD hL1) hW hL) h

theorem Out.threadsOk.execWvMatch {o : Ops} {all : Bool} {s : State} (h : s.threadsOk) :
    Out.threadsOk (execWvMatch o all s) :=
  .meetForm (fun _ hW _ _ _ hL => .withEmask (fun _ _ _ _ _ hL1 => .putD hL1) hW hL) h

theorem Out.threadsOk.execWvElect {o : Ops} {s : State} (h : s.threadsOk) : Out.threadsOk (execWvElect o s) :=
  .meetForm (fun _ hW _ _ _ hL => .withEmask (fun _ _ _ _ _ hL1 => .putT hL1) hW hL) h

/-! ## XL.SHFL -/

theorem Out.threadsOk.execXlShfl {o : Ops} {mode : ShflMode} {b64 : Bool} {s : State} (h : s.threadsOk) :
    Out.threadsOk (execXlShfl o mode b64 s) :=
  .meetForm (fun _ hW _ _ _ hL => .withEmask (fun _ _ _ _ _ hL1 => .putDW hL1) hW hL) h

/-! ## Q -/

theorem Out.threadsOk.quadForm {o : Ops} {from_ : Warp → Nat → Nat} {s : State} (h : s.threadsOk) :
    Out.threadsOk (quadForm o from_ s) :=
  .meetForm (fun _ _ _ _ _ hL => .putD hL) h

theorem Out.threadsOk.execQSwap {o : Ops} {dir : SwapDir} {s : State} (h : s.threadsOk) :
    Out.threadsOk (execQSwap o dir s) :=
  .quadForm h

theorem Out.threadsOk.execQBcast {o : Ops} {s : State} (h : s.threadsOk) : Out.threadsOk (execQBcast o s) :=
  .quadForm h

/-! ## WR -/

theorem Out.threadsOk.execWrRed {o : Ops} {op : WrOp} {s : State} (h : s.threadsOk) :
    Out.threadsOk (execWrRed o op s) :=
  .meetForm (fun _ hW _ _ _ hL => .withEmask (fun _ _ _ _ _ hL1 => .putD hL1) hW hL) h

theorem Out.threadsOk.execWrScan {o : Ops} {op : WrOp} {excl : Bool} {s : State} (h : s.threadsOk) :
    Out.threadsOk (execWrScan o op excl s) :=
  .meetForm (fun _ hW _ _ _ hL => .withEmask (fun _ _ _ _ _ hL1 => .putD hL1) hW hL) h

/-! ## Special registers -/

theorem Out.threadsOk.execSrRead {o : Ops} {r : SReg} {s : State} (h : s.threadsOk) :
    Out.threadsOk (execSrRead o r s) :=
  .issueLane h fun _ _ _ h1 => .next (.retire
    (.eachLane h1 fun _ hW _ _ hL => .ifGood (fun _ _ _ _ hL1 => .putDW hL1) hW hL))

/-! ## Barriers -/

theorem State.threadsOk.arriveBar {s : State} (h : s.threadsOk) {b id : Nat} {x : List ((Nat × Nat) × Nat)} :
    (s.arriveBar b id x).threadsOk := by
  induction x generalizing s with
  | nil => exact h
  | cons x rest ih => exact .ite (ih (.resumeFrom (.modBlock (.modBlock h)))) (ih (.modBlock h))

theorem Out.threadsOk.execBBar {o : Ops} {id : Fin 16} {s : State} (h : s.threadsOk) :
    Out.threadsOk (execBBar o id s) :=
  .issueLane h fun _ _ _ h1 => .ite (.next (.retire h1))
    (.ite (.next (.parkGroup h1)) (.next (.checkBars (.arriveBar (.parkGroup h1)))))

theorem Out.threadsOk.execBCbar {o : Ops} {id : Fin 4} {s : State} (h : s.threadsOk) :
    Out.threadsOk (execBCbar o id s) :=
  .issueLane h fun _ _ _ h1 => .ite (.next (.retire h1))
    (.ite (.next (.parkGroup (.ite (.pushAll h1) h1)))
      (.next (.checkCbars (.update (.parkGroup (.ite (.pushAll h1) h1))))))

end Sys2Proof.Machine
end

section
/-! SUPPORT. O5: what keeps the form of threads in the host link. -/

namespace Sys2Proof.Machine

/-! ## Requests of the host -/

theorem State.threadsOk.serveHost {s : State} {n line : Nat} {half : Bool} (h : s.threadsOk) :
    (s.serveHost n line half).threadsOk :=
  .enqueue (.update (.newId h))

theorem State.threadsOk.hostRequest {s : State} {pa : Nat} {r : HostReq} (h : s.threadsOk) :
    (s.hostRequest pa r).threadsOk :=
  .ite (.wakeUp (.update (.update (.newId h)))) (.serveHost (.update (.newId h)))

theorem State.threadsOk.releaseHost {s : State} (h : s.threadsOk)
    {held : List Nat} : (s.releaseHost held).threadsOk := by
  fun_induction State.releaseHost s held with
  | case1 s n pa rest t ih => exact ih (.ite (.update h) (.serveHost h))
  | case2 s held _ => exact h

theorem State.threadsOk.serveHeld {s : State} (h : s.threadsOk) : s.serveHeld.threadsOk :=
  .releaseHost (.update h)

theorem Out.threadsOk.memRequest {addr : Nat} {r : HostReq} {s : State} (h : s.threadsOk) :
    Out.threadsOk (memRequest addr r s) :=
  .ite (.next (.hostRequest h)) trivial

theorem Out.threadsOk.execMemrd {md : MemMeta} {addr : Nat} {s : State} (h : s.threadsOk) :
    Out.threadsOk (execMemrd md addr s) :=
  .memRequest h

theorem Out.threadsOk.execMemrddata {addr : Nat} {s : State} (h : s.threadsOk) :
    Out.threadsOk (execMemrddata addr s) :=
  .memRequest h

theorem Out.threadsOk.execMeminv {addr : Nat} {s : State} (h : s.threadsOk) : Out.threadsOk (execMeminv addr s) :=
  .memRequest h

theorem Out.threadsOk.execMemwr {addr : Nat} {data : List Byte} {s : State} (h : s.threadsOk) :
    Out.threadsOk (execMemwr addr data s) :=
  .memRequest h

theorem Out.threadsOk.execMemwrptl {addr : Nat} {mask : BitVec 64} {data : List Byte} {s : State} (h : s.threadsOk) :
    Out.threadsOk (execMemwrptl addr mask data s) :=
  .memRequest h

theorem Out.threadsOk.snoop {pa : Nat} {inval : Bool} {s : State} (h : s.threadsOk) :
    Out.threadsOk (snoop pa inval s) := by
  unfold Machine.snoop
  split
  · exact .next (.serveHost (.update (.newId h)))
  all_goals exact trivial

theorem Out.threadsOk.execSnpinv {pa : Nat} {s : State} (h : s.threadsOk) : Out.threadsOk (execSnpinv pa s) :=
  .snoop h

theorem Out.threadsOk.execSnpdata {pa : Nat} {s : State} (h : s.threadsOk) : Out.threadsOk (execSnpdata pa s) :=
  .snoop h

theorem Out.threadsOk.execSnpcur {pa : Nat} {s : State} (h : s.threadsOk) : Out.threadsOk (execSnpcur pa s) :=
  .snoop h

/-! ## Bias flips -/

theorem State.threadsOk.holdQueued {s : State} {page : Nat} (h : s.threadsOk) : (s.holdQueued page).threadsOk := by
  refine .foldl (fun _ _ h1 => ?_) h
  split
  · exact .update (.setHline h1)
  · exact h1

theorem State.threadsOk.flipNext {s : State} (h : s.threadsOk) : s.flipNext.threadsOk := by
  unfold State.flipNext
  split
  · refine .ite h ?_
    dsimp only
    split
    · exact .update h
    · exact .ite (.update h) (.update h)
  · exact h

theorem Out.threadsOk.execBisnpResponse {line : Nat} {wr : Option (List Byte)} {s : State} (h : s.threadsOk) :
    Out.threadsOk (execBisnpResponse line wr s) := by
  unfold Machine.execBisnpResponse
  split
  · exact trivial
  · extract_lets -merge +onlyGivenNames s1 s2 h3 mine h4 s3 s4
    have h1 : s1.threadsOk := by
      unfold s1
      split
      · exact .update h
      · exact h
    have h2 : s2.threadsOk := .update h1
    have h3 : s3.threadsOk := .ite (.update h2) h2
    have h4 : s4.threadsOk := by
      unfold s4
      split
      · exact .serve (.setHline h3)
      · exact .setHline h3
    exact .next (.flipNext h4)

theorem State.threadsOk.hostAnswers {s : State} {line : Nat} (h : s.threadsOk) : (s.hostAnswers line).threadsOk := by
  unfold State.hostAnswers
  dsimp only
  split
  · exact .ite (.serve (.setHline h)) h
  · exact h

theorem State.threadsOk.writeBflip {s : State} {v : DWord} (h : s.threadsOk) : (s.writeBflip v).threadsOk :=
  .ite (.mark (.update (.update h))) (.update (.update h))

theorem Out.threadsOk.execBflip {v : DWord} {s : State} (h : s.threadsOk) : Out.threadsOk (execBflip v s) :=
  .next (.writeBflip h)

theorem Out.threadsOk.execFlipStart {s : State} (h : s.threadsOk) : Out.threadsOk (execFlipStart s) := by
  unfold Machine.execFlipStart
  split
  · exact .ite (.next (.update (.holdQueued h)))
      (.ite (.next (.foldl (fun _ _ h1 => .ite h1 (.enqueue (.update (.newId h1)))) (.update (.holdQueued h))))
        (.next (.flipNext (.update (.holdQueued h)))))
  · exact .when (.flipNext h)
  · exact trivial

theorem Out.threadsOk.execFlipComplete {s : State} (h : s.threadsOk) : Out.threadsOk (execFlipComplete s) := by
  refine .needing (fun _ h1 => ?_) h
  split
  · exact .ite trivial (.next (.serveHeld (.msix (.update (.devWrite (.devRead h1))))))
  · exact trivial

/-! ## Host registers -/

theorem State.threadsOk.hostFail {s : State} (h : s.threadsOk) : s.hostFail.threadsOk :=
  .mark (.update h)

theorem Out.threadsOk.execHostRegCompletion {req : Nat} {ok : Bool} {data : DWord} {s : State} (h : s.threadsOk) :
    Out.threadsOk (execHostRegCompletion req ok data s) := by
  unfold Machine.execHostRegCompletion
  split
  · exact trivial
  · dsimp only
    split
    · exact .next (.ite (.update h) (.hostFail (.update h)))
    · exact .ite (.next (.ite (.opDone (.ite (.update h) (.hostFail (.update h))))
        (.opBad (.ite (.update h) (.hostFail (.update h))))))
          (.next (.opDone (.ite (.update h) (.hostFail (.update h)))))

theorem Out.threadsOk.execHostRegTimeout {req : Nat} {s : State} (h : s.threadsOk) :
    Out.threadsOk (execHostRegTimeout req s) := by
  unfold Machine.execHostRegTimeout
  split
  · exact trivial
  · refine .ite ?_ trivial
    dsimp only
    split
    · exact .next (.opBad (.hostFail (.update h)))
    · exact .next (.hostFail (.update h))

end Sys2Proof.Machine
end

section
/-! SUPPORT. O5: what keeps the form of threads in Rill links and global time. -/

namespace Sys2Proof.Machine

/-! ## Messages from other chips -/

theorem State.threadsOk.proxyAnswer {s : State} {id line : Nat} {a : ChipAns} (h : s.threadsOk) :
    (s.proxyAnswer id line a).threadsOk := by
  unfold State.proxyAnswer
  dsimp only
  split
  · exact .ite h (.serve (.setHline (.ite h (.update h))))
  · exact h

theorem State.threadsOk.proxyPoison {s : State} {id line : Nat} (h : s.threadsOk) :
    (s.proxyPoison id line).threadsOk := by
  unfold State.proxyPoison
  dsimp only
  split
  · exact .ite h (.serve (.setHline h))
  · exact h

theorem State.threadsOk.chipAcked {s : State} {line chip : Nat} {data : List Byte} (h : s.threadsOk) :
    (s.chipAcked line chip data).threadsOk := by
  unfold State.chipAcked
  dsimp only
  split
  · exact .ite (.serve (.setHline (.ite h (.update h)))) h
  · exact h

theorem State.threadsOk.chipDead {s : State} {line chip : Nat} (h : s.threadsOk) :
    (s.chipDead line chip).threadsOk :=
  .chipAcked (.ite (.setHline h) h)

theorem State.threadsOk.fromChip {s : State} {chip line : Nat} {body : Body} (h : s.threadsOk) :
    (s.fromChip chip line body).threadsOk :=
  .update (.newId h)

theorem State.threadsOk.joinAnswered {s : State} {id : Nat} {old : Option DWord} (h : s.threadsOk) :
    (s.joinAnswered id old).threadsOk := by
  unfold State.joinAnswered
  split
  · refine .ite (.releaseQuarters (.workDone ?_)) (.workDone ?_)
    · split
      · exact .modLane (.update h) fun _ hL => .putRes hL
      · exact .update h
    · split
      · exact .modLane (.update h) fun _ hL => .putRes hL
      · exact .update h
  · exact h

theorem State.threadsOk.shootFor {s : State} {chip id ctx lo n : Nat} {all : Bool} (h : s.threadsOk) :
    (s.shootFor chip id ctx lo n all).threadsOk :=
  .update (.beginShootdown h)

theorem State.threadsOk.shotAt {s : State} {id chip : Nat} (h : s.threadsOk) : (s.shotAt id chip).threadsOk :=
  .update h

theorem State.threadsOk.deliver {s : State} {p : Packet} (h : s.threadsOk) : (deliver s p).threadsOk := by
  refine .ite (.route h) ?_
  split
  · exact .ite (.fabric h) (.fromChip h)
  · exact .proxyAnswer h
  · exact .fromChip h
  · exact .fromChip h
  · exact .chipAcked h
  · exact .monAsked h
  · exact .monAnswered h
  · exact .update h
  · exact .update h
  · exact .update h
  · exact .update h
  · exact .update h
  · exact .joinAnswered h
  · exact .shootFor h
  · exact .shotAt h
  · exact .ite (.joinAnswered h) (.ite (.proxyPoison h) (.chipDead h))
  · exact h

theorem Out.threadsOk.execInbox {s : State} (h : s.threadsOk) : Out.threadsOk (execInbox s) := by
  unfold Machine.execInbox
  split
  · exact trivial
  · refine .needing (fun _ h1 => ?_) h
    extract_lets -merge +onlyGivenNames s1
    have h2 : s1.threadsOk := .update h1
    split
    · exact .next (.launchRecord h2)
    · exact .execAccept h2
    · exact .next (.refuseLaunch h2)
    · exact .execStart h2
    · exact .next (.ite (.joinHere h2) (.fabric (.joinHere h2)))
    all_goals exact .next (.deliver h2)

/-! ## Links -/

theorem State.threadsOk.linkStep {s : State} {k : Nat} {l : Link} (h : s.threadsOk) : (s.linkStep k l).threadsOk :=
  .mark (.setLink h)

theorem Out.threadsOk.execFlit {link : Nat} {head : Word × BitVec 16} {crc : BitVec 64} {slots : List FlitSlot}
    {s : State} (h : s.threadsOk) :
    Out.threadsOk (execFlit link head crc slots s) :=
  .ite trivial (.ite (.next (.ite (.setLink h) h))
    (.ite (.next h) (.next (.ite (.setLink
      (.ite (.update (.wakeUp (.linkStep h))) (.foldl (fun _ _ h1 => .deliver h1) (.linkStep h))))
        (.ite (.update (.wakeUp (.linkStep h))) (.foldl (fun _ _ h1 => .deliver h1) (.linkStep h)))))))

theorem State.threadsOk.loseRoutes {s : State} {lost : Nat → Bool} (h : s.threadsOk) :
    (s.loseRoutes lost).threadsOk := by
  refine .update (.foldl (fun _ _ h1 => .monLost h1)
    (.foldl (fun _ _ h1 => .ite (.joinAnswered h1) h1) (.foldl (fun _ _ h1 => ?_) h)))
  split
  · exact .ite (.proxyPoison h1) h1
  · exact .foldl (fun _ _ h2 => .chipDead h2) h1
  · exact h1

theorem State.threadsOk.abandon {s : State} {lost : Nat → Bool} (h : s.threadsOk) : (s.abandon lost).threadsOk := by
  refine .foldl (fun _ _ h1 => ?_) h
  split
  · exact .ite (.update h1) h1
  · exact h1

theorem Out.threadsOk.execLinkDown {link : Nat} {s : State} (h : s.threadsOk) :
    Out.threadsOk (execLinkDown link s) :=
  .ite (.next (.abandon (.loseRoutes (.foldl (fun _ _ h1 => .route h1)
    (.foldl (fun _ _ h1 => .lose h1) (.report (.setLink h))))))) trivial

theorem Out.threadsOk.execLinkTrained {link peer : Nat} {s : State} (h : s.threadsOk) :
    Out.threadsOk (execLinkTrained link peer s) :=
  .ite (.next (.ite (.update (.setLink h)) (.setLink h))) trivial

theorem State.threadsOk.writeRoute {s : State} {chip : Nat} {links : List Nat} (h : s.threadsOk) :
    (s.writeRoute chip links).threadsOk :=
  .ite h (.update h)

theorem Out.threadsOk.execRillWake {link : Nat} {s : State} (h : s.threadsOk) :
    Out.threadsOk (execRillWake link s) :=
  .ite (.next (.wakeUp h)) (.when (.setLink h))

/-! ## Global time -/

theorem State.threadsOk.measured {s : State} {offs : ℤ} (h : s.threadsOk) : (s.measured offs).threadsOk :=
  .mark (.update h)

theorem Out.threadsOk.execTimeExchange {s : State} (h : s.threadsOk) : Out.threadsOk (execTimeExchange s) :=
  .ite (.next (.ite (.measured (.update (.update h))) (.update (.update h)))) trivial

theorem State.threadsOk.newRate {s : State} (h : s.threadsOk) : s.newRate.threadsOk :=
  .update (.drawFree h)

theorem Out.threadsOk.execTimeMessage {link : Nat} {offs : ℤ} {fromMaster : Bool} {s : State} (h : s.threadsOk) :
    Out.threadsOk (execTimeMessage link offs fromMaster s) :=
  .ite trivial (.ite (.next (.newRate (.measured h))) (.next h))

theorem Out.threadsOk.execLockTimeout {s : State} (h : s.threadsOk) : Out.threadsOk (execLockTimeout s) :=
  .ite (.next (.mark (.update h))) trivial

end Sys2Proof.Machine
end

section
/-! SUPPORT. O5: what keeps the form of threads in matrix passes and tiles. -/

namespace Sys2Proof.Machine

/-! ## A pass -/

theorem Warp.tidy.apply {W : Warp} {ex : List Nat} {o : Ops} {f : FmtWord} {sparse : Bool} {tile : Nat}
    (hW : W.tidy) :
    (Pass.apply ⟨W, ex, o, f, sparse⟩ tile).tidy :=
  .foldl (fun _ _ h => .foldl (fun _ _ h1 => .putTile h1) h) hW

/-! ## The Sluice -/

theorem Out.threadsOk.execSluiceWindow {core : Nat} {s : State} (h : s.threadsOk) :
    Out.threadsOk (execSluiceWindow core s) := by
  have hroll : (s.modCore core (·.roll s.windowNow)).threadsOk := .modCore h
  exact .ite (.next (.setGroups hroll (AMap.sorted_map (fun _ => ite_fst rfl rfl) hroll.sorted_groups))) trivial

/-! ## M.MMA, M.SMMA -/

theorem State.threadsOk.mmaDone {s : State} (h : s.threadsOk) {block : Nat} {a : DWord} {w : Nat} :
    (s.mmaDone block a w).threadsOk :=
  .setGroups h (AMap.sorted_map (fun _ => ite_fst rfl rfl) h.sorted_groups)

theorem State.threadsOk.mmaTrap {s : State} {block : Nat} {a : DWord} {w : Nat} {ex : List Nat} {c : Cause}
    {tad : DWord} (h : s.threadsOk) :
    (s.mmaTrap block a w ex c tad).threadsOk :=
  .mmaDone (.foldl (fun _ _ h1 => .ite (.raise h1) h1) h)

theorem State.threadsOk.mmaDelay {s : State} {core block : Nat} {a : DWord} {w quarters : Nat} (h : s.threadsOk) :
    (s.mmaDelay core block a w quarters).threadsOk :=
  .foldl (fun _ _ h1 => .modGroup h1) (.ite h (.count (.mark (.modCore h))))

theorem State.threadsOk.tryMma {s : State} {core block : Nat} {a : DWord} {o : Ops} {tile : Nat} {sparse : Bool}
    {w : Nat}
    (h : s.threadsOk) : (s.tryMma core block a o tile sparse w).threadsOk := by
  refine .ite h (.ite (.mmaDone h) (.ite (.mmaTrap h) (.ite h ?_)))
  extract_lets report quarters redun units rolled charged word first fmtTad checked
  have hrolled : rolled.threadsOk := .modCore h
  have hcharged : charged.threadsOk := .count (.modCore hrolled)
  split
  · exact .mmaTrap (.report h)
  · refine .ite (.mmaDelay hrolled) ?_
    split
    · exact .mmaTrap hcharged
    · split
      · exact .mmaTrap hcharged
      · split
        · exact .mmaTrap hcharged
        · dsimp only
          split
          · exact .mmaTrap (.report hcharged)
          · split
            · exact .ite (.mmaTrap (.modCore hcharged))
                (.mmaDone (.setWarp (.modCore hcharged) (.apply (.of_state h))))
            · exact .mmaDone (.setWarp hcharged (.apply (.of_state h)))

theorem State.threadsOk.resumeMma {s : State} {block : Nat} {a : DWord} (h : s.threadsOk) :
    (s.resumeMma block a).threadsOk :=
  .foldl (fun _ _ h1 => .ite (.retire h1) h1) h

theorem Out.threadsOk.mmaForm {o : Ops} {tile : Nat} {sparse : Bool} {s : State} (h : s.threadsOk) :
    Out.threadsOk (mmaForm o tile sparse s) :=
  .issueMet (fun _ _ _ h1 => .ite (.next (.retire h1))
    (.ite (.next (.parkGroup h1)) (.raising h1 fun _ _ h2 => .next
      (.unfocus (.resumeMma (.modGroup (.foldl (fun _ _ h3 => .tryMma h3) (.modGroup h2)))))))) h

theorem Out.threadsOk.execMMma {o : Ops} {tile : Fin 64} {s : State} (h : s.threadsOk) :
    Out.threadsOk (execMMma o tile s) :=
  .mmaForm h

theorem Out.threadsOk.execMSmma {o : Ops} {tile : Fin 64} {s : State} (h : s.threadsOk) :
    Out.threadsOk (execMSmma o tile s) :=
  .mmaForm h

/-! ## M.SPC -/

theorem Out.threadsOk.execMSpc {o : Ops} {fmt : Fmt} {s : State} (h : s.threadsOk) :
    Out.threadsOk (execMSpc o fmt s) := by
  refine .lanewise h fun _ hW _ _ hL => ?_
  dsimp only
  split
  · exact .setV64 (.setV (.setV hL))
  all_goals exact hL

/-! ## M.ZERO, M.SCL -/

theorem Out.threadsOk.raisingTile {s : State} {g : Nat} {gr : Group} {els : Nat → List Nat} {tile : Nat}
    {k : Group → State → Out} (h : s.threadsOk) (hk : ∀ x s, s.threadsOk → Out.threadsOk (k x s)) :
    Out.threadsOk (s.raisingTile g gr els tile k) :=
  .raising (.reportRegs h) fun _ _ h1 => hk _ _ h1

theorem Out.threadsOk.tileForm {o : Ops} {wd : Widths} {tile : Nat} {k : Nat → Group → State → Out} {s : State}
    {lanes : Option (State → Group → Nat → List Nat)} (hk : ∀ x x2 s, s.threadsOk → Out.threadsOk (k x x2 s))
      (h : s.threadsOk) :
    Out.threadsOk (tileForm o wd tile k s lanes) :=
  .issueLane h fun _ _ _ h1 => .ite (.next (.parkGroup h1))
    (.raising (.reportRegs h1) fun _ _ h2 => .ite (.next (.parkGroup h2)) (.raising h2 fun _ _ h3 => hk _ _ _ h3))

theorem Out.threadsOk.execMZero {o : Ops} {tile : Fin 64} {s : State} (h : s.threadsOk) :
    Out.threadsOk (execMZero o tile s) :=
  .tileForm (fun _ _ _ h1 => .next (.retire
    (.foldl (fun _ _ h2 => .modWarp h2 fun _ hW => .foldl (fun _ _ h3 => .putTile h3) hW) h1))) h

theorem Out.threadsOk.execMScl {o : Ops} {tile : Fin 64} {m : SclMod} {s : State} (h : s.threadsOk) :
    Out.threadsOk (execMScl o tile m s) :=
  .tileForm (fun _ _ _ h1 => .raisingTile h1 fun _ _ h2 => .next
    (.retire (.foldl (fun _ _ h3 => .setWarp h3
      (.foldl (fun _ _ h4 => .foldl (fun _ _ h5 => .foldl (fun _ _ h6 => .putTile h6) h5) h4) (.of_state h3))) h2))) h

/-! ## ACC.LD, ACC.ST -/

theorem State.threadsOk.accMove {s : State} {gr : Group} {w l work tile j : Nat} {f : AccFmt} {x : Word}
    {store : Bool} {val : Nat → Nat} (h : s.threadsOk) :
    (s.accMove gr w l work tile j f x store val).threadsOk := by
  unfold State.accMove
  dsimp only
  split
  · exact h
  · exact .foldl (fun _ _ h1 => .ite (.ite (.modBlock h1) (.modWarp h1 fun _ hW => .putUnit hW))
      (.update (.newId h1))) h

theorem Out.threadsOk.accForm {o : Ops} {wd : Widths} {tile : Nat} {f : AccFmt} {fs store : Bool} {rm : RM}
    {s : State} (h : s.threadsOk) :
    Out.threadsOk (accForm o wd tile f fs store rm s) :=
  .tileForm (fun _ _ _ h1 => .raising h1 fun _ _ h2 => .lsClear h2 fun _ _ h3 => .raisingTile h3 fun _ _ h4 => .ite
    (.next (.parkGroup h4)) (.next (.retire
      (.foldl (fun _ _ h5 => .foldl (fun _ _ h6 => .accMove h6) (.attach h5)) h4)))) h

theorem Out.threadsOk.execAccLd {o : Ops} {tile : Fin 64} {f : AccFmt} {fs : Bool} {s : State} (h : s.threadsOk) :
    Out.threadsOk (execAccLd o tile f fs s) :=
  .accForm h

theorem Out.threadsOk.execAccSt {o : Ops} {tile : Fin 64} {f : AccFmt} {rm : RM} {fs : Bool} {s : State}
    (h : s.threadsOk) :
    Out.threadsOk (execAccSt o tile f rm fs s) :=
  .accForm h

/-! ## ACC.RD, ACC.WR -/

theorem Out.threadsOk.idxForm {o : Ops} {wd : Widths} {tile : Nat} {x4 reads : Bool} {k : Nat → Group → State → Out}
    {s : State} (hk : ∀ x x2 s, s.threadsOk → Out.threadsOk (k x x2 s)) (h : s.threadsOk) :
    Out.threadsOk (idxForm o wd tile x4 reads k s) :=
  .tileForm (fun _ _ _ h1 => .raising h1 fun _ _ h2 => .raisingTile h2 fun _ _ h3 => hk _ _ _ h3) h

theorem Out.threadsOk.execAccRd {o : Ops} {tile : Fin 64} {x4 : Bool} {s : State} (h : s.threadsOk) :
    Out.threadsOk (execAccRd o tile x4 s) := by
  refine .idxForm (fun _ _ _ h1 => .next (.retire
    (.eachLane h1 fun _ hW _ _ hL => .ifGood (fun _ hW1 _ _ hL1 => ?_) hW hL))) h
  dsimp only
  split
  · exact .foldl (fun _ _ h2 => .setV h2) hL1
  all_goals exact hL1

theorem Out.threadsOk.execAccWr {o : Ops} {tile : Fin 64} {x4 add : Bool} {s : State} (h : s.threadsOk) :
    Out.threadsOk (execAccWr o tile x4 add s) :=
  .idxForm (fun _ _ _ h1 => .next (.retire
    (.foldl (fun _ _ h2 => .modWarp h2 fun _ hW => .foldl (fun _ _ h3 => .putTile h3) hW) h1))) h

end Sys2Proof.Machine
end

section
/-! SUPPORT. O5: what keeps the form of threads in counters, stops and the passing of a cycle. -/

namespace Sys2Proof.Machine

/-! ## What an instruction names, and the interlock of R40 -/

theorem Out.threadsOk.execGatherSplit {g : Nat} {s : State} (h : s.threadsOk) :
    Out.threadsOk (execGatherSplit g s) := by
  unfold Machine.execGatherSplit
  split
  · exact trivial
  · split
    · exact .ite (.next (.modGroup (.splitOff h))) trivial
    all_goals exact trivial

/-! ## Stops -/

theorem State.threadsOk.haltSub {s : State} {core sub : Nat} {halt : Bool} (h : s.threadsOk) :
    (s.haltSub core sub halt).threadsOk :=
  .foldl (fun _ _ h1 => .ite (.ite (.modWarp h1 fun _ hW => .update hW)
    (.takePending (.modWarp h1 fun _ hW => .update hW))) h1) h

theorem State.threadsOk.stopSub {s : State} {core sub : Nat} (h : s.threadsOk) : (s.stopSub core sub).threadsOk :=
  .ite h (.ite (.haltSub (.modCore h)) (.modCore (.haltSub (.modCore h))))

theorem State.threadsOk.writeStop {s : State} {core : Nat} {mask : BitVec 4} (h : s.threadsOk) :
    (s.writeStop core mask).threadsOk :=
  .foldl (fun _ _ h1 => .ite (.stopSub h1) (.haltSub (.modCore h1))) h

theorem Out.threadsOk.execStop {core : Nat} {mask : BitVec 4} {s : State} (h : s.threadsOk) :
    Out.threadsOk (execStop core mask s) :=
  .when (.writeStop h)

theorem State.threadsOk.releaseHalted {s : State} {core sub : Nat} (h : s.threadsOk) :
    (s.releaseHalted core sub).threadsOk :=
  .foldl (fun _ _ h1 => .ite (.ite (.endClause h1) (.modGroup h1)) h1) h

theorem Out.threadsOk.execRelh {core : Nat} {mask : BitVec 4} {s : State} (h : s.threadsOk) :
    Out.threadsOk (execRelh core mask s) :=
  .when (.foldl (fun _ _ h1 => .ite (.releaseHalted h1) h1) h)

theorem Out.threadsOk.execDumpWritten {core sub : Nat} {s : State} (h : s.threadsOk) :
    Out.threadsOk (execDumpWritten core sub s) := by
  unfold Machine.execDumpWritten
  split
  · exact trivial
  · exact .ite (.ite trivial (.next (.modCore (.ite h (.devStore h))))) (.next (.modCore (.ite h (.devStore h))))

/-! ## Event counters -/

theorem Out.threadsOk.execStrig {core : Nat} {s : State} (h : s.threadsOk) : Out.threadsOk (execStrig core s) :=
  .when (.modCore h)

theorem Out.threadsOk.execEcmpMatch {core : Nat} {s : State} (h : s.threadsOk) :
    Out.threadsOk (execEcmpMatch core s) :=
  .when (.modCore h)

theorem State.threadsOk.countCycle {s : State} {core : Nat} {tally : List Tally} (h : s.threadsOk) :
    (s.countCycle core tally).threadsOk :=
  .modCore (.foldl (fun _ _ h1 => .stopSub h1) (.foldl (fun _ _ h1 => .ite (.msix h1) h1) (.modCore h)))

/-! ## Stall accounting -/

theorem State.threadsOk.stalls {s : State} (h : s.threadsOk)
    {issued : List (Nat × Nat)} : (s.stalls issued).threadsOk := by
  exact .mapWarps h (fun _ => ite_fst rfl rfl) fun _ hW => .ite_snd hW (.update hW)

/-! ## A cycle passes -/

theorem State.threadsOk.notWaiting {s : State} (h : s.threadsOk) : s.notWaiting.threadsOk := by
  exact .mapWarps h (fun _ => rfl) fun _ hW =>
    .mapLanes hW (fun _ => ite_fst rfl rfl) fun _ hL => .ite_snd (.update hL) hL

theorem State.threadsOk.tick {s : State} {issued : List (Nat × Nat)} (h : s.threadsOk) : (s.tick issued).threadsOk :=
  .update (.foldl (fun _ _ h1 => .ite (.countCycle h1) h1) (.notWaiting (.stalls h)))

end Sys2Proof.Machine
end

section
/-! SUPPORT. O5: what keeps the form of threads in the management processor. -/

namespace Sys2Proof.Machine

/-! ## Bring-up -/

theorem State.threadsOk.removed {s : State} {flash : List Byte} : (s.removed flash).threadsOk :=
  .update .reset

theorem State.threadsOk.bringUp {s : State} (h : s.threadsOk) : s.bringUp.threadsOk :=
  .update h

theorem State.threadsOk.verified {s : State} (h : s.threadsOk) : s.verified.threadsOk :=
  .ite (.update h) (.update h)

theorem Out.threadsOk.verifyEnds {s : State} (h : s.threadsOk) : Out.threadsOk (verifyEnds s) :=
  .ite (.next (.verified h)) trivial

theorem Out.threadsOk.execPowerOn {flash : List Byte} {s : State} (h : s.threadsOk) :
    Out.threadsOk (execPowerOn flash s) :=
  .ite (.next (.bringUp (.update h))) trivial

theorem Out.threadsOk.execPowerLoss {s : State} (_ : s.threadsOk) : Out.threadsOk (execPowerLoss s) :=
  .next .removed

theorem Out.threadsOk.execDiesReleased {ok : Bool} {s : State} (h : s.threadsOk) :
    Out.threadsOk (execDiesReleased ok s) :=
  .ite trivial (.ite (.next (.update .reset)) (.next (.update (.ite (.verified h) h))))

/-! ## Commands -/

theorem State.threadsOk.mgmtRefuse {s : State} (h : s.threadsOk) : s.mgmtRefuse.threadsOk :=
  .mark (.update h)

theorem State.threadsOk.argBlock {s : State} (h : s.threadsOk) : s.argBlock.1.threadsOk :=
  .devRead h

theorem State.threadsOk.takeImage {s : State} (h : s.threadsOk) : s.takeImage.1.threadsOk := by
  unfold State.takeImage
  dsimp only
  split
  · exact .devRead (.devRead (.argBlock h))
  · exact .devRead (.argBlock h)

theorem State.threadsOk.mgmtAccept {s : State} {cmd : Nat} {job : MJob} {err : Nat} {image : List Byte} {addr : Nat}
    (h : s.threadsOk) :
    (s.mgmtAccept cmd job err image addr).threadsOk :=
  .update h

theorem State.threadsOk.cmdLoadfw {s : State} (h : s.threadsOk) : s.cmdLoadfw.threadsOk :=
  .ite (.mgmtRefuse h) (.mgmtAccept (.takeImage h))

theorem Out.threadsOk.execLoadfw {s : State} (h : s.threadsOk) : Out.threadsOk (execLoadfw s) :=
  .needing (fun _ h1 => .next (.cmdLoadfw h1)) h

theorem State.threadsOk.cmdStagefw {s : State} (h : s.threadsOk) : s.cmdStagefw.threadsOk :=
  .ite (.mgmtRefuse h) (.mgmtAccept (.takeImage h))

theorem Out.threadsOk.execStagefw {s : State} (h : s.threadsOk) : Out.threadsOk (execStagefw s) :=
  .needing (fun _ h1 => .next (.cmdStagefw h1)) h

theorem State.threadsOk.cmdAttest {s : State} (h : s.threadsOk) : s.cmdAttest.threadsOk :=
  .ite (.mgmtRefuse h) (.ite (.mgmtAccept (.argBlock h)) (.update (.mgmtAccept (.argBlock h))))

theorem Out.threadsOk.execAttest {s : State} (h : s.threadsOk) : Out.threadsOk (execAttest s) :=
  .needing (fun _ h1 => .next (.cmdAttest h1)) h

theorem State.threadsOk.moduleReset {s : State} (_ : s.threadsOk) : s.moduleReset.threadsOk :=
  .bringUp .removed

theorem State.threadsOk.cmdReset {s : State} (h : s.threadsOk) : s.cmdReset.threadsOk :=
  .ite (.mgmtRefuse h) (.moduleReset h)

theorem Out.threadsOk.execReset {s : State} (h : s.threadsOk) : Out.threadsOk (execReset s) :=
  .next (.cmdReset h)

theorem State.threadsOk.writeReport {s : State} (h : s.threadsOk) : s.writeReport.threadsOk :=
  .ite (.devStore (.update h)) h

theorem Out.threadsOk.execCommandComplete {s : State} (h : s.threadsOk) : Out.threadsOk (execCommandComplete s) := by
  unfold Machine.execCommandComplete
  dsimp only
  split
  · exact trivial
  · refine .ite (.ite trivial (.next (.writeReport h))) (.next (.msix (.ite (.mark (.update (.writeReport h))) ?_)))
    split
    all_goals exact .update (.writeReport h)

theorem State.threadsOk.writeMcmd {s : State} {v : DWord} (h : s.threadsOk) : (s.writeMcmd v).threadsOk := by
  unfold State.writeMcmd
  split
  · exact .cmdLoadfw h
  · exact .cmdStagefw h
  · exact .cmdAttest h
  · exact .cmdReset h
  · exact .ite (.mgmtRefuse h) h

/-! ## Sensors -/

theorem Out.threadsOk.execSensorUpdate {readings : List (BitVec 16)} {s : State} (h : s.threadsOk) :
    Out.threadsOk (execSensorUpdate readings s) :=
  .ite trivial (.ite (.next (.update h)) (.next (.moduleReset (.update h))))

/-! ## Power states -/

theorem Out.threadsOk.execPowerIdleTimer {s : State} (h : s.threadsOk) : Out.threadsOk (execPowerIdleTimer s) :=
  .ite trivial (.ite (.next (.update h)) (.next (.update h)))

theorem Out.threadsOk.execWake {s : State} (h : s.threadsOk) : Out.threadsOk (execWake s) :=
  .next (.wakeUp h)

end Sys2Proof.Machine
end

section
/-! SUPPORT. O5: what keeps the form of threads in the device register block. -/

namespace Sys2Proof.Machine

/-! ## Reading -/

theorem State.threadsOk.regRead {s : State} {x : Reg} (h : s.threadsOk) : (s.regRead x).1.threadsOk := by
  unfold State.regRead
  split
  · exact h
  · exact h
  · exact h
  · exact h
  · exact h
  · exact h
  · exact h
  · exact h
  · exact h
  · exact h
  · exact h
  · exact h
  · exact h
  · exact h
  · exact h
  · exact h
  · exact h
  · exact .readTail h
  all_goals exact h

/-! ## Writing -/

theorem State.threadsOk.writeCore {s : State} {c : Nat} {r : CoreReg} {v : DWord} (h : s.threadsOk) :
    (s.writeCore c r v).threadsOk := by
  unfold State.writeCore
  split
  · exact .modCore h
  · exact .modCore h
  · exact .modCore h
  · exact .modCore h
  · exact .foldl (fun _ _ h1 => .ite (.releaseHalted h1) h1) (.writeStop (.modCore h))
  · exact h
  · exact .modCore h

theorem State.threadsOk.regWrite {s : State} {r : Reg} {v : DWord}
    (h : s.threadsOk) : (s.regWrite r v).threadsOk := by
  unfold State.regWrite
  split
  · exact .update h
  · exact .writeMcmd h
  · exact .update h
  · exact .update h
  · exact .writeCore h
  · exact .update h
  · exact .update h
  · exact .update h
  · exact .modPart h
  · exact .writePctl h
  · exact .modPart h
  · exact .writePcores h
  · exact .writeTail h
  · exact .ite (.update h) h
  · exact .writeBflip h
  · exact .update h
  · exact .setLink h
  · exact .update h
  · exact .update h
  · exact .update h
  all_goals exact h

theorem State.threadsOk.serveReg {s : State} {x : HeldReg} (h : s.threadsOk) : (s.serveReg x).threadsOk := by
  unfold State.serveReg
  split
  · exact .regWrite h
  · exact .update (.regRead h)

theorem Out.threadsOk.hostRegister {x : HeldReg} {s : State} (h : s.threadsOk) : Out.threadsOk (hostRegister x s) :=
  .ite (.next h) (.ite (.awake (fun _ h1 => .needing (fun _ h2 => .next (.serveReg h2)) h1) h)
    (.needing (fun _ h1 => .next (.serveReg h1)) h))

theorem Out.threadsOk.execRegisterWrite {at_ : BarAt} {v : DWord} {s : State} (h : s.threadsOk) :
    Out.threadsOk (execRegisterWrite at_ v s) :=
  .hostRegister h

theorem Out.threadsOk.hostRegRead {fn off len : Nat} {s : State} (h : s.threadsOk) :
    Out.threadsOk (hostRegRead fn off len s) :=
  .hostRegister h

theorem Out.threadsOk.execPowerExitComplete {s : State} (h : s.threadsOk) :
    Out.threadsOk (execPowerExitComplete s) :=
  .needing (fun _ h1 => .ite (.next (.serveHeld
    (.foldl (fun _ _ h2 => .serveReg h2) (.foldl (fun _ _ h2 => .deliver h2) (.update h1))))) trivial) h

end Sys2Proof.Machine
end

section
/-! SUPPORT. O5: what keeps the form of threads in loads, stores, atomics and the FN family. -/

namespace Sys2Proof.Machine

/-! ## One access form -/

theorem State.threadsOk.hostAccess {s : State} {op : Op} (h : s.threadsOk) : (s.hostAccess op).threadsOk :=
  .update (.newId (.newId h))

theorem State.threadsOk.startHit {s : State} {g : Nat} {gr : Group} {work : Nat} {act : Act} {pol : Pol}
    {hold whole : Bool} {els : List MemEl} {h : Hit} (h1 : s.threadsOk) :
    (s.startHit g gr work act pol hold whole els h).threadsOk :=
  .foldl (fun _ _ h2 => .ite (.hostAccess h2) (.startOp h2)) h1

theorem State.threadsOk.startReds {s : State} {g : Nat} {gr : Group} {work : Nat → Nat} {act : Act} {pol : Pol}
    {els : Hit → List MemEl} {hits : List Hit} (h : s.threadsOk) :
    (s.startReds g gr work act pol els hits).threadsOk :=
  .foldl (fun _ _ h1 => .startRed h1) h

theorem State.threadsOk.result {s : State} {g : Nat} {hold : Bool} {h : Hit} {e : MemEl} {v : DWord}
    (h1 : s.threadsOk) :
    (s.result g hold h e v).threadsOk :=
  .ite (.modGroup h1) (.modLane h1 fun _ hL => .putRes hL)

theorem State.threadsOk.atOnce {s : State} {g : Nat} {gr : Group} {act : Act} {hold : Bool} {els : List MemEl}
    {h : Hit} (h1 : s.threadsOk) :
    (s.atOnce g gr act hold els h).threadsOk := by
  unfold State.atOnce
  dsimp only
  split
  · exact .foldl (fun _ _ h2 => .result h2) h1
  · split
    · exact .foldl (fun _ _ h2 => .ite (.result (.regRead h2)) (.regWrite h2)) h1
    all_goals exact h1
  all_goals exact h1

theorem State.threadsOk.curePoison {s : State} {act : Act} {n : Nat} {hits : List Hit} (h : s.threadsOk) :
    (s.curePoison act n hits).threadsOk :=
  .ite (.foldl (fun _ _ h1 => .ite (.setHline h1) h1) h) h

theorem Out.threadsOk.memDone {s : State} {g : Nat} {gr : Group} {o : Ops} {d : Nat} {wr : Bool} (h : s.threadsOk) :
    Out.threadsOk (s.memDone g gr o d wr) :=
  .raising (.resultsDone h) fun _ _ h1 => .next (.retire (.zeroHelpers (.putResults h1)))

theorem Out.threadsOk.performAll {s : State} {g : Nat} {gr : Group} {o : Ops} {d : Nat} {fs : Bool} {act : Act}
    {pol : Pol}
    {n : Nat} {els : Hit → List MemEl} {hits : List Hit} (h : s.threadsOk) :
    Out.threadsOk (s.performAll g gr o d fs act pol n els hits) := by
  unfold State.performAll
  extract_lets -merge +onlyGivenNames flying count hold memo marked
  have h1 : marked.threadsOk := .modGroup (.curePoison h)
  split
  next s works heq =>
    have h2 : s.threadsOk := .of_fst heq (.foldl_fst (fun _ _ h => .attach h) h1)
    extract_lets -merge +onlyGivenNames work pas begun settled answered
    have h3 : begun.threadsOk := by
      unfold begun
      split
      · exact .startReds h2
      all_goals exact .foldl (fun _ _ h => .startHit h) h2
    have h4 : answered.threadsOk := .foldl (fun _ _ h => .atOnce h) (.foldl (fun _ _ h => .settleWork h) h3)
    refine .ite ?_ (.next (.retire (.zeroHelpers h4)))
    split
    · exact .ite (.memDone h4) (.next (.parkGroup h4))
    · exact .next h4

theorem Out.threadsOk.memGo {s : State} {g : Nat} {gr : Group} {o : Ops} {d : Nat} {fs : Bool} {act : Act} {pol : Pol}
    {n : Nat} {els : Hit → List MemEl} {hits : List Hit} (h : s.threadsOk) :
    Out.threadsOk (s.memGo g gr o d fs act pol n els hits) :=
  .colouring h fun _ _ h1 => .ite (.next (.parkGroup h1))
    (.ite (.next (.parkGroup h1)) (.reaching (fun _ h2 => .performAll h2) h1))

theorem Out.threadsOk.memForm {o : Ops} {wds : Widths} {fs : Bool} {pol : Pol} {n : Nat} {act : Act}
    {els : Warp → Lane → List MemEl} {s : State} (h : s.threadsOk) :
    Out.threadsOk (memForm o wds fs pol n act els s) := by
  unfold Machine.memForm
  dsimp only
  split
  · exact .ite (.memDone (.modGroup h)) (.issueLane h fun _ _ _ h1 => .accessing h1 fun _ _ _ h2 => .memGo h2)
  · exact .next h

/-! ## LD -/

theorem Out.threadsOk.loadForm {w : LdW} {o : Ops} {m : GMod} {s : State} (h : s.threadsOk) :
    Out.threadsOk (loadForm w o m s) := by
  unfold Machine.loadForm
  exact .memForm h

theorem Out.threadsOk.execLdU8 {o : Ops} {m : GMod} {s : State} (h : s.threadsOk) : Out.threadsOk (execLdU8 o m s) :=
  .loadForm h

theorem Out.threadsOk.execLdS8 {o : Ops} {m : GMod} {s : State} (h : s.threadsOk) : Out.threadsOk (execLdS8 o m s) :=
  .loadForm h

theorem Out.threadsOk.execLdU16 {o : Ops} {m : GMod} {s : State} (h : s.threadsOk) :
    Out.threadsOk (execLdU16 o m s) :=
  .loadForm h

theorem Out.threadsOk.execLdS16 {o : Ops} {m : GMod} {s : State} (h : s.threadsOk) :
    Out.threadsOk (execLdS16 o m s) :=
  .loadForm h

theorem Out.threadsOk.execLdB32 {o : Ops} {m : GMod} {s : State} (h : s.threadsOk) :
    Out.threadsOk (execLdB32 o m s) :=
  .loadForm h

theorem Out.threadsOk.execLdB64 {o : Ops} {m : GMod} {s : State} (h : s.threadsOk) :
    Out.threadsOk (execLdB64 o m s) :=
  .loadForm h

theorem Out.threadsOk.execLdB128 {o : Ops} {m : GMod} {s : State} (h : s.threadsOk) :
    Out.threadsOk (execLdB128 o m s) :=
  .loadForm h

/-! ## ST -/

theorem Out.threadsOk.storeForm {w : StW} {o : Ops} {m : GMod} {s : State} (h : s.threadsOk) :
    Out.threadsOk (storeForm w o m s) := by
  unfold Machine.storeForm
  exact .memForm h

theorem Out.threadsOk.execStB8 {o : Ops} {m : GMod} {s : State} (h : s.threadsOk) : Out.threadsOk (execStB8 o m s) :=
  .storeForm h

theorem Out.threadsOk.execStB16 {o : Ops} {m : GMod} {s : State} (h : s.threadsOk) :
    Out.threadsOk (execStB16 o m s) :=
  .storeForm h

theorem Out.threadsOk.execStB32 {o : Ops} {m : GMod} {s : State} (h : s.threadsOk) :
    Out.threadsOk (execStB32 o m s) :=
  .storeForm h

theorem Out.threadsOk.execStB64 {o : Ops} {m : GMod} {s : State} (h : s.threadsOk) :
    Out.threadsOk (execStB64 o m s) :=
  .storeForm h

theorem Out.threadsOk.execStB128 {o : Ops} {m : GMod} {s : State} (h : s.threadsOk) :
    Out.threadsOk (execStB128 o m s) :=
  .storeForm h

/-! ## AT -/

theorem Out.threadsOk.atomicForm {op : GOp} {o : Ops} {m : AtMod} {s : State} (h : s.threadsOk) :
    Out.threadsOk (atomicForm op o m s) := by
  unfold Machine.atomicForm
  exact .memForm h

theorem Out.threadsOk.execAtAdd {o : Ops} {m : AtMod} {s : State} (h : s.threadsOk) :
    Out.threadsOk (execAtAdd o m s) :=
  .atomicForm h

theorem Out.threadsOk.execAtMin {o : Ops} {m : AtMod} {s : State} (h : s.threadsOk) :
    Out.threadsOk (execAtMin o m s) :=
  .atomicForm h

theorem Out.threadsOk.execAtMax {o : Ops} {m : AtMod} {s : State} (h : s.threadsOk) :
    Out.threadsOk (execAtMax o m s) :=
  .atomicForm h

theorem Out.threadsOk.execAtAnd {o : Ops} {m : AtMod} {s : State} (h : s.threadsOk) :
    Out.threadsOk (execAtAnd o m s) :=
  .atomicForm h

theorem Out.threadsOk.execAtOr {o : Ops} {m : AtMod} {s : State} (h : s.threadsOk) :
    Out.threadsOk (execAtOr o m s) :=
  .atomicForm h

theorem Out.threadsOk.execAtXor {o : Ops} {m : AtMod} {s : State} (h : s.threadsOk) :
    Out.threadsOk (execAtXor o m s) :=
  .atomicForm h

theorem Out.threadsOk.execAtXchg {o : Ops} {m : AtMod} {s : State} (h : s.threadsOk) :
    Out.threadsOk (execAtXchg o m s) :=
  .atomicForm h

theorem Out.threadsOk.execAtCas {o : Ops} {m : AtMod} {s : State} (h : s.threadsOk) :
    Out.threadsOk (execAtCas o m s) :=
  .atomicForm h

theorem Out.threadsOk.execAtFadd {o : Ops} {m : AtMod} {s : State} (h : s.threadsOk) :
    Out.threadsOk (execAtFadd o m s) :=
  .atomicForm h

/-! ## RD -/

theorem State.threadsOk.appendOrds {s : State} {gr : Group} {op : GOp} {m : RdMod} {val : Hit → DWord}
    {hits : List Hit} (h : s.threadsOk) :
    (s.appendOrds gr op m val hits).threadsOk :=
  .foldl (fun _ _ h1 => .modWarp (.modBlock h1) fun _ hW => .update hW) h

theorem State.threadsOk.storeOrds {s : State} {recs : List Hit} (h : s.threadsOk) : (s.storeOrds recs).threadsOk :=
  .foldl (fun _ _ h1 => .devStore (.drawFree (.drawFree h1))) h

theorem Out.threadsOk.orderedForm {op : GOp} {o : Ops} {m : RdMod} {s : State} (h : s.threadsOk) :
    Out.threadsOk (orderedForm op o m s) := by
  unfold Machine.orderedForm
  exact .issueUnless h fun _ _ _ h1 => .accessing h1 fun _ _ _ h2 => .colouring h2 fun _ _ h3 => .raising h3
    fun _ _ h4 => .ite (.next (.parkGroup h4)) (.next (.retire (.storeOrds (.appendOrds h4))))

theorem Out.threadsOk.reduceForm {op : GOp} {o : Ops} {m : RdMod} {s : State} (h : s.threadsOk) :
    Out.threadsOk (reduceForm op o m s) :=
  .ite (.orderedForm h) (.memForm h)

theorem Out.threadsOk.execRdAdd {o : Ops} {m : RdMod} {s : State} (h : s.threadsOk) :
    Out.threadsOk (execRdAdd o m s) :=
  .reduceForm h

theorem Out.threadsOk.execRdMin {o : Ops} {m : RdMod} {s : State} (h : s.threadsOk) :
    Out.threadsOk (execRdMin o m s) :=
  .reduceForm h

theorem Out.threadsOk.execRdMax {o : Ops} {m : RdMod} {s : State} (h : s.threadsOk) :
    Out.threadsOk (execRdMax o m s) :=
  .reduceForm h

theorem Out.threadsOk.execRdAnd {o : Ops} {m : RdMod} {s : State} (h : s.threadsOk) :
    Out.threadsOk (execRdAnd o m s) :=
  .reduceForm h

theorem Out.threadsOk.execRdOr {o : Ops} {m : RdMod} {s : State} (h : s.threadsOk) :
    Out.threadsOk (execRdOr o m s) :=
  .reduceForm h

theorem Out.threadsOk.execRdXor {o : Ops} {m : RdMod} {s : State} (h : s.threadsOk) :
    Out.threadsOk (execRdXor o m s) :=
  .reduceForm h

theorem Out.threadsOk.execRdFadd {o : Ops} {m : RdMod} {s : State} (h : s.threadsOk) :
    Out.threadsOk (execRdFadd o m s) :=
  .reduceForm h

/-! ## FN -/

theorem Out.threadsOk.execFnFence {o : Ops} {scope : Sys2Proof.Scope} {s : State} (h : s.threadsOk) :
    Out.threadsOk (execFnFence o scope s) :=
  .issueLane h fun _ _ _ h1 => .ite (.next (.retire h1)) (.next (.beginFence h1))

theorem State.threadsOk.fnLine {s : State} {inv : Bool} {work core line : Nat} (h : s.threadsOk) :
    (s.fnLine inv work core line).threadsOk := by
  unfold State.fnLine
  split
  · exact h
  · exact .ite (.giveUp h) (.ite h (.send (.setCline h)))

theorem Out.threadsOk.flushForm {inv allc : Bool} {o : Ops} {fs : Bool} {s : State} (h : s.threadsOk) :
    Out.threadsOk (flushForm inv allc o fs s) :=
  .issueLane h fun _ _ _ h1 => .accessing h1 fun _ _ _ h2 => .ite (.next (.parkGroup h2))
    (.ite (.next (.parkGroup h2)) (.next (.retire
      (.ite (.foldl (fun _ _ h3 => .dropCode h3)
        (.foldl (fun _ _ h3 => .foldl (fun _ _ h4 => .fnLine h4) (.attach h3)) h2))
          (.foldl (fun _ _ h3 => .foldl (fun _ _ h4 => .fnLine h4) (.attach h3)) h2)))))

theorem Out.threadsOk.execFnInv {o : Ops} {allc fs : Bool} {s : State} (h : s.threadsOk) :
    Out.threadsOk (execFnInv o allc fs s) :=
  .flushForm h

theorem Out.threadsOk.execFnWb {o : Ops} {fs : Bool} {s : State} (h : s.threadsOk) :
    Out.threadsOk (execFnWb o fs s) :=
  .flushForm h

theorem Out.threadsOk.execFnPre {o : Ops} {pol : PrePol} {fs : Bool} {s : State} (h : s.threadsOk) :
    Out.threadsOk (execFnPre o pol fs s) :=
  .issueLane h fun _ _ _ h1 => .probing h1 fun _ _ h2 => .ite (.next (.parkGroup (.dropWalks h2)))
    (.ite (.next (.parkGroup (.dropWalks h2)))
      (.next (.retire (.foldl (fun _ _ h3 => .settleWork (.foldl (fun _ _ h4 => .startOp h4) (.attach h3)))
        (.dropWalks h2)))))

end Sys2Proof.Machine
end

section
/-! SUPPORT. O5: what keeps the form of threads in the TR family. -/

namespace Sys2Proof.Machine

/-! ## TR.TRAP, TR.BKPT -/

theorem Out.threadsOk.softTrap {o : Ops} {c : Cause} {s : State} (h : s.threadsOk) :
    Out.threadsOk (softTrap o c s) :=
  .issueLead h fun _ _ _ h1 => .raising h1 fun _ _ h2 => .next (.retire h2)

theorem Out.threadsOk.execTrTrap {o : Ops} {s : State} (h : s.threadsOk) : Out.threadsOk (execTrTrap o s) :=
  .softTrap h

theorem Out.threadsOk.execTrBkpt {o : Ops} {s : State} (h : s.threadsOk) : Out.threadsOk (execTrBkpt o s) :=
  .softTrap h

/-! ## TR.RETT -/

theorem Out.threadsOk.execTrRett {o : Ops} {endd : Bool} {s : State} (h : s.threadsOk) :
    Out.threadsOk (execTrRett o endd s) := by
  refine .issueLane h fun _ _ _ h1 => .resuming h1 fun _ _ h2 => ?_
  dsimp only
  split
  · exact .next (.retire (.leaveAll h2))
  · exact .next (.leaveAll h2)

/-! ## System registers -/

theorem Out.threadsOk.hostSlb {core : Nat} {v : Word} {s : State} (h : s.threadsOk) :
    Out.threadsOk (hostSlb core v s) :=
  .when (.modCore h)

theorem State.threadsOk.writeWeir {s : State} {n : Nat} {x : DWord} (h : s.threadsOk) :
    (s.writeWeir n x).threadsOk :=
  .update h

theorem State.threadsOk.setSysReg {s : State} {w : Nat} {r : SysReg} {x : DWord} (h : s.threadsOk) :
    (s.setSysReg w r x).threadsOk := by
  unfold State.setSysReg
  dsimp only
  split
  · exact .modCtx h
  · exact h
  · exact h
  · exact h
  · exact h
  · exact .modWarp h fun _ hW => .update hW
  · exact .modWarp h fun _ hW => .update hW
  · exact .modWarp h fun _ hW => .update hW
  · exact .modCtx h
  · exact .modCtx h
  · exact .ite (.modCore h) h
  · exact .ite (.modCore h) h
  · exact .ite (.modCore h) h
  · exact .ite (.writeWeir h) h

theorem Out.threadsOk.execTrMfs {o : Ops} {r : SysReg} {s : State} (h : s.threadsOk) :
    Out.threadsOk (execTrMfs o r s) :=
  .issueLane h fun _ _ _ h1 => .next (.retire
    (.foldl (fun _ _ h2 => .modLane h2 fun _ hL => .putD64 hL) (.zeroHelpers h1)))

theorem Out.threadsOk.execTrMts {o : Ops} {r : SysReg} {s : State} (h : s.threadsOk) :
    Out.threadsOk (execTrMts o r s) :=
  .issueLead h fun _ _ _ h1 => .next (.retire (.foldl (fun _ _ h2 => .setSysReg h2) h1))

/-! ## TR.TLBI -/

theorem State.threadsOk.shootDown {s : State} {ctx g lo n : Nat} {all domain : Bool} (h : s.threadsOk) :
    (s.shootDown ctx g lo n all domain).1.threadsOk :=
  .foldl (fun _ _ h1 => .fabric h1) (.update (.beginShootdown h))

theorem Out.threadsOk.execTrTlbi {o : Ops} {domain all : Bool} {s : State} (h : s.threadsOk) :
    Out.threadsOk (execTrTlbi o domain all s) :=
  .issueLead h fun _ _ _ h1 => .ite (.next (.retire h1))
    (.ite (.next (.retire h1)) (.next (.parkGroup (.foldl_fst (fun _ _ h2 => .shootDown h2) h1))))

theorem Out.threadsOk.execShootdownComplete {sd : Nat} {s : State} (h : s.threadsOk) :
    Out.threadsOk (execShootdownComplete sd s) := by
  unfold Machine.execShootdownComplete
  split
  · exact trivial
  · refine .ite ?_ trivial
    dsimp only
    split
    · exact .next (.fabric (.update h))
    · exact .ite (.next (.update h)) (.next (.modGroup (.update h)))

/-! ## TR.HALT -/

theorem Out.threadsOk.execTrHalt {o : Ops} {s : State} (h : s.threadsOk) : Out.threadsOk (execTrHalt o s) :=
  .issueLane h fun _ _ _ h1 => .ite (.next (.retire h1))
    (.next (.ite (.stopSub (.ite (.modGroup (.parkGroup (.modCore h1)))
      (.retire (.modGroup (.splitOff (.modCore h1))))))
        (.ite (.modGroup (.parkGroup (.modCore h1))) (.retire (.modGroup (.splitOff (.modCore h1)))))))

end Sys2Proof.Machine
end

section
/-! SUPPORT. O5: what keeps the form of threads in uniform arithmetic. -/

namespace Sys2Proof.Machine

theorem Warp.tidy.putU {W : Warp} {d : USrc} {x : Word} (hW : W.tidy) : (W.putU d x).tidy := by
  unfold Warp.putU
  split
  · exact .setS hW
  · exact .setQ hW
  all_goals exact hW

theorem Out.threadsOk.uForm {o : UOps} {f : Word → Word → Word} {s : State} (h : s.threadsOk) :
    Out.threadsOk (uForm o f s) :=
  .warpwise h fun _ hW => .putU hW

theorem Out.threadsOk.execUAdd {o : UOps} {s : State} (h : s.threadsOk) : Out.threadsOk (execUAdd o s) :=
  .uForm h

theorem Out.threadsOk.execUSub {o : UOps} {s : State} (h : s.threadsOk) : Out.threadsOk (execUSub o s) :=
  .uForm h

theorem Out.threadsOk.execUMul {o : UOps} {s : State} (h : s.threadsOk) : Out.threadsOk (execUMul o s) :=
  .uForm h

theorem Out.threadsOk.uLog {o : UOps} {f : Word → Word → Word} {g : Bool → Bool → Bool} {s : State}
    (h : s.threadsOk) :
    Out.threadsOk (uLog o f g s) := by
  refine .warpwise h fun _ hW => ?_
  split
  · exact .setQ hW
  all_goals exact .putU hW

theorem Out.threadsOk.execULogAnd {o : UOps} {s : State} (h : s.threadsOk) : Out.threadsOk (execULogAnd o s) :=
  .uLog h

theorem Out.threadsOk.execULogOr {o : UOps} {s : State} (h : s.threadsOk) : Out.threadsOk (execULogOr o s) :=
  .uLog h

theorem Out.threadsOk.execULogXor {o : UOps} {s : State} (h : s.threadsOk) : Out.threadsOk (execULogXor o s) :=
  .uLog h

theorem Out.threadsOk.execULogAndn {o : UOps} {s : State} (h : s.threadsOk) : Out.threadsOk (execULogAndn o s) :=
  .uLog h

theorem Out.threadsOk.execUShfShl {o : UOps} {s : State} (h : s.threadsOk) : Out.threadsOk (execUShfShl o s) :=
  .uForm h

theorem Out.threadsOk.execUShfShr {o : UOps} {s : State} (h : s.threadsOk) : Out.threadsOk (execUShfShr o s) :=
  .uForm h

theorem Out.threadsOk.execUShfSar {o : UOps} {s : State} (h : s.threadsOk) : Out.threadsOk (execUShfSar o s) :=
  .uForm h

theorem Out.threadsOk.execUShfRot {o : UOps} {s : State} (h : s.threadsOk) : Out.threadsOk (execUShfRot o s) :=
  .uForm h

theorem Out.threadsOk.uCmp {o : UOps} {c : ICond} {s : State} (h : s.threadsOk) : Out.threadsOk (uCmp o c s) := by
  refine .warpwise h fun _ hW => ?_
  dsimp only
  split
  · exact .setQ hW
  all_goals exact hW

theorem Out.threadsOk.execUCmpEq {o : UOps} {s : State} (h : s.threadsOk) : Out.threadsOk (execUCmpEq o s) :=
  .uCmp h

theorem Out.threadsOk.execUCmpNe {o : UOps} {s : State} (h : s.threadsOk) : Out.threadsOk (execUCmpNe o s) :=
  .uCmp h

theorem Out.threadsOk.execUCmpLt {o : UOps} {s : State} (h : s.threadsOk) : Out.threadsOk (execUCmpLt o s) :=
  .uCmp h

theorem Out.threadsOk.execUCmpLe {o : UOps} {s : State} (h : s.threadsOk) : Out.threadsOk (execUCmpLe o s) :=
  .uCmp h

theorem Out.threadsOk.execUCmpGt {o : UOps} {s : State} (h : s.threadsOk) : Out.threadsOk (execUCmpGt o s) :=
  .uCmp h

theorem Out.threadsOk.execUCmpGe {o : UOps} {s : State} (h : s.threadsOk) : Out.threadsOk (execUCmpGe o s) :=
  .uCmp h

theorem Out.threadsOk.execUCmpLtu {o : UOps} {s : State} (h : s.threadsOk) : Out.threadsOk (execUCmpLtu o s) :=
  .uCmp h

theorem Out.threadsOk.execUCmpGeu {o : UOps} {s : State} (h : s.threadsOk) : Out.threadsOk (execUCmpGeu o s) :=
  .uCmp h

theorem Out.threadsOk.execUMov {o : UOps} {s : State} (h : s.threadsOk) : Out.threadsOk (execUMov o s) :=
  .warpwise h fun _ hW => .putU hW

theorem Out.threadsOk.execUSel {o : UOps} {n : Fin 8} {s : State} (h : s.threadsOk) :
    Out.threadsOk (execUSel o n s) :=
  .warpwise h fun _ hW => .putU hW

theorem Out.threadsOk.execUldC {o : UOps} {s : State} (h : s.threadsOk) : Out.threadsOk (execUldC o s) :=
  .issueUni h fun _ _ _ h1 => .raising (.foldl
    (fun _ _ h2 => .ite (.ite h2 (.modWarp h2 fun _ hW => .putU hW)) (.modWarp h2 fun _ hW => .putU hW)) h1)
      fun _ _ h2 => .next (.retire h2)

theorem Out.threadsOk.execXlRdl {o : Ops} {b64 : Bool} {s : State} (h : s.threadsOk) :
    Out.threadsOk (execXlRdl o b64 s) := by
  refine .issueUnless h fun _ _ _ h1 => .raising (.reportRegs h1) fun _ _ h2 => .next
    (.retire (.foldl (fun _ _ h3 => ?_) h2))
  split
  · refine .modWarp h3 fun _ hW => ?_
    dsimp only
    split
    · exact .ite (.setS64 hW) (.setS hW)
    all_goals exact hW
  · exact h3

end Sys2Proof.Machine
end

section
/-! SUPPORT. O5: what keeps the form of threads in one arm for each instruction and event. -/

namespace Sys2Proof.Machine

theorem Out.threadsOk.exec {i : Instr} {s : State} (h : s.threadsOk) : Out.threadsOk (exec i s) := by
  unfold Machine.exec
  split
  · exact .execClauseHeader h
  · exact .execPromoted h
  · exact .execFlagClear h
  · exact .execIAdd h
  · exact .execISub h
  · exact .execIAddc h
  · exact .execISubb h
  · exact .execINeg h
  · exact .execIAbs h
  · exact .execIMin h
  · exact .execIMax h
  · exact .execISad h
  · exact .execImMul h
  · exact .execImMad h
  · exact .execImMadw h
  · exact .execLogAnd h
  · exact .execLogOr h
  · exact .execLogXor h
  · exact .execLogAndn h
  · exact .execLogNot h
  · exact .execShShl h
  · exact .execShShr h
  · exact .execShRot h
  · exact .execShFun h
  · exact .execBfExt h
  · exact .execBfIns h
  · exact .execBfPopc h
  · exact .execBfClz h
  · exact .execBfBrev h
  · exact .execBfFfs h
  · exact .execCmpI h
  · exact .execCmpF h
  · exact .execCmpD h
  · exact .execPrLog h
  · exact .execMvMov h
  · exact .execMvSel h
  · exact .execMvPrm h
  · exact .execMvLea h
  · exact .execCvI2f h
  · exact .execCvF2i h
  · exact .execCvF2f h
  · exact .execCvI2i h
  · exact .execFAdd h
  · exact .execFSub h
  · exact .execFMul h
  · exact .execFFma h
  · exact .execFMin h
  · exact .execFMax h
  · exact .execFCls h
  · exact .execFhAdd2 h
  · exact .execFhMul2 h
  · exact .execFhFma2 h
  · exact .execFhMin2 h
  · exact .execFhMax2 h
  · exact .execDAdd h
  · exact .execDMul h
  · exact .execDFma h
  · exact .execDMin h
  · exact .execDMax h
  · exact .execSfRcp h
  · exact .execSfRsq h
  · exact .execSfSqrt h
  · exact .execSfExp2 h
  · exact .execSfLog2 h
  · exact .execSfSin h
  · exact .execSfCos h
  · exact .execSfTanh h
  · exact .execDotI8x4 h
  · exact .execDotI4x8 h
  · exact .execDotE4m3x4 h
  · exact .execDotE5m2x4 h
  · exact .execDotE2m1x8 h
  · exact .execPkCvt h
  · exact .execPkUnp h
  · exact .execPkScl h
  · exact .execPkPl6 h
  · exact .execBrRel h
  · exact .execBrInd h
  · exact .execClCall h
  · exact .execClCalli h
  · exact .execClRet h
  · exact .execXExit h
  · exact .execXYield h
  · exact .execXNap h
  · exact .execNapWake h
  · exact .execYieldExpiry h
  · exact .execUbBra h
  · exact .execUbLoop h
  · exact .execWvVote h
  · exact .execWvBallot h
  · exact .execWvMatch h
  · exact .execWvElect h
  · exact .execXlShfl h
  · exact .execXlRdl h
  · exact .execQSwap h
  · exact .execQBcast h
  · exact .execWrRed h
  · exact .execWrScan h
  · exact .execSrRead h
  · exact .execBBar h
  · exact .execBCbar h
  · exact .execUAdd h
  · exact .execUSub h
  · exact .execUMul h
  · exact .execULogAnd h
  · exact .execULogOr h
  · exact .execULogXor h
  · exact .execULogAndn h
  · exact .execUShfShl h
  · exact .execUShfShr h
  · exact .execUShfSar h
  · exact .execUShfRot h
  · exact .execUCmpEq h
  · exact .execUCmpNe h
  · exact .execUCmpLt h
  · exact .execUCmpLe h
  · exact .execUCmpGt h
  · exact .execUCmpGe h
  · exact .execUCmpLtu h
  · exact .execUCmpGeu h
  · exact .execUMov h
  · exact .execUSel h
  · exact .execUldC h
  · exact .execLdU8 h
  · exact .execLdS8 h
  · exact .execLdU16 h
  · exact .execLdS16 h
  · exact .execLdB32 h
  · exact .execLdB64 h
  · exact .execLdB128 h
  · exact .execStB8 h
  · exact .execStB16 h
  · exact .execStB32 h
  · exact .execStB64 h
  · exact .execStB128 h
  · exact .execAtAdd h
  · exact .execAtMin h
  · exact .execAtMax h
  · exact .execAtAnd h
  · exact .execAtOr h
  · exact .execAtXor h
  · exact .execAtXchg h
  · exact .execAtCas h
  · exact .execAtFadd h
  · exact .execRdAdd h
  · exact .execRdMin h
  · exact .execRdMax h
  · exact .execRdAnd h
  · exact .execRdOr h
  · exact .execRdXor h
  · exact .execRdFadd h
  · exact .execFnFence h
  · exact .execFenceComplete h
  · exact .execFnInv h
  · exact .execFnWb h
  · exact .execFnPre h
  · exact .execLsLd h
  · exact .execLsSt h
  · exact .execLsAt h
  · exact .execRemoteLsPerformed h
  · exact .execHcClaim h
  · exact .execChurnClearDone h
  · exact .execHcFree h
  · exact .execHIns h
  · exact .execHPrb h
  · exact .execHDel h
  · exact .execHAcc h
  · exact .execSpillAtomicReturn h
  · exact .execHDrn h
  · exact .execHSta h
  · exact .execMMma h
  · exact .execMSmma h
  · exact .execSluiceWindow h
  · exact .execMSpc h
  · exact .execMZero h
  · exact .execMScl h
  · exact .execAccLd h
  · exact .execAccSt h
  · exact .execAccRd h
  · exact .execAccWr h
  · exact .execCGet h
  · exact .execCWait h
  · exact .execCNtf h
  · exact .execCNta h
  · exact .execCHeld h
  · exact .execWaitDeadline h
  · exact .execUcSet h
  · exact .execUcSetWaitEnd h
  · exact .execMonitorGrant h
  · exact .execColourReleaseComplete h
  · exact .execCpTile h
  · exact .execCpStore h
  · exact .execCpLin h
  · exact .execCpGath h
  · exact .execCpSeal h
  · exact .execCpWait h
  · exact .execEngineStart h
  · exact .execEngineDiscard h
  · exact .execEngineComplete h
  · exact .execOwnershipGrant h
  · exact .execGSet h
  · exact .execGClr h
  · exact .execRgInit h
  · exact .execRgArv h
  · exact .execRgWait h
  · exact .execGatherSplit h
  · exact .execWSpawn h
  · exact .execWLaunch h
  · exact .execWJoin h
  · exact .execWDead h
  · exact .execWQstat h
  · exact .execTrTrap h
  · exact .execTrBkpt h
  · exact .execTrRett h
  · exact .execTrMfs h
  · exact .execTrMts h
  · exact .execTrTlbi h
  · exact .execShootdownComplete h
  · exact .execTrHalt h
  · exact .execPageWalkRead h
  · exact .execOwnRequest h
  · exact .execThruRead h
  · exact .execLeaseRequest h
  · exact .execTrackRequest h
  · exact .execApplyWrite h
  · exact .execRdLocRequest h
  · exact .execRdThruRequest h
  · exact .execPushedPartial h
  · exact .execWriteBack h
  · exact .execRecall h
  · exact .execInvalidate h
  · exact .execRecallAck h
  · exact .execColourQuery h
  · exact .execDataReply h
  · exact .execWriteAck h
  · exact .execL1Drop h
  · exact .execL2Evict h
  · exact .execProxyEvict h
  · exact .execWeirTick h
  · exact .execPoolReset h
  · exact .execCompactorMove h
  · exact .execLsCompaction h
  · exact .execTileCompaction h
  · exact .execDispatch h
  · exact .execQueueLate h
  · exact .execBlockRetire h
  · exact .execJoinPush h
  · exact .execOrdApply h
  · exact .execLaunchRecord h
  · exact .execAccept h
  · exact .execRefuse h
  · exact .execStart h
  · exact .execTailRegisterWrite h
  · exact .execPreload h
  · exact .execSwitch h
  · exact .execUnbind h
  · exact .execSwitchFlip h
  · exact .execContextResumable h
  · exact .execPcoresWrite h
  · exact .execFunctionLevelReset h
  · exact .execBflip h
  · exact .execFlipStart h
  · exact .execFlipComplete h
  · exact .execMemrd h
  · exact .execMemrddata h
  · exact .execMeminv h
  · exact .execMemwr h
  · exact .execMemwrptl h
  · exact .execSnpinv h
  · exact .execSnpdata h
  · exact .execSnpcur h
  · exact .execBisnpResponse h
  · exact .execHostRegCompletion h
  · exact .execHostRegTimeout h
  · exact .execFlit h
  · exact .execLinkDown h
  · exact .execTimeExchange h
  · exact .execTimeMessage h
  · exact .execLockTimeout h
  · exact .execRillWake h
  · exact .execPowerIdleTimer h
  · exact .execWake h
  · exact .execPowerExitComplete h
  · exact .execPowerOn h
  · exact .execPowerLoss h
  · exact .execLoadfw h
  · exact .execStagefw h
  · exact .execAttest h
  · exact .execReset h
  · exact .execCommandComplete h
  · exact .execSensorUpdate h
  · exact .execStrig h
  · exact .execStop h
  · exact .execRelh h
  · exact .execDumpWritten h
  · exact .execBlockRelaunch h
  · exact .execRegisterWrite h
  · exact .execPreloadComplete h
  · exact .execLinkTrained h
  · exact .execDiesReleased h
  · exact .execEcmpMatch h
  · exact .execPlacementZeroingDone h

end Sys2Proof.Machine
end

section
/-! SUPPORT. O5: what keeps the form of threads in how a step comes about. -/

namespace Sys2Proof.Machine

/-! ## Issuing a word -/

theorem State.threadsOk.issued {s : State} (h : s.threadsOk) {g : Nat} {gr : Group} {i : Instr} {n : Nat} :
    (s.issued g gr i n).threadsOk :=
  have hword := State.threadsOk.startGroup h
  .ite (.count (.count hword)) hword

theorem Out.threadsOk.resting {s : State} (h : s.threadsOk) : Out.threadsOk (s.resting) :=
  .next (.update h)

theorem Out.threadsOk.badWord {s : State} {g : Nat} {gr : Group} {c : Cause} (h : s.threadsOk) :
    Out.threadsOk (s.badWord g gr c) :=
  .raising h fun _ _ h1 => .next (.parkGroup h1)

theorem Out.threadsOk.issue {s : State} {g : Nat} {gr : Group} (h : s.threadsOk) : Out.threadsOk (s.issue g gr) := by
  unfold State.issue
  split
  · exact .andThen (.badWord h) fun _ h1 => .resting h1
  · exact .andThen (.badWord h) fun _ h1 => .resting h1
  · exact .andThen (.badWord h) fun _ h1 => .resting h1
  · exact .andThen (.badWord h) fun _ h1 => .resting h1
  · exact .andThen (.exec (.issued h)) fun _ h1 => .resting h1

/-! ## Starting a clause -/

theorem State.threadsOk.tableTrap {s : State} {ls : List (Nat × Nat)} {a : DWord} {c : Cause} {fetch : Bool}
    {tad : Nat → DWord} (h : s.threadsOk) :
    (s.tableTrap ls a c fetch tad).threadsOk :=
  .foldl (fun _ _ h1 => .ite (.foldl (fun _ _ h2 => .modLane h2 fun _ hL => .update hL) h1)
    (.takeTrap (.foldl (fun _ _ h2 => .modLane h2 fun _ hL => .update hL) h1))) h

theorem State.threadsOk.fetchWait {s : State} {ls : List (Nat × Nat)} {ctx : Nat} {va : DWord} {lvl table : Nat}
    {fresh : Bool} (h : s.threadsOk) :
    (s.fetchWait ls ctx va lvl table fresh).threadsOk :=
  .foldl (fun _ _ h1 => .modLane h1 fun _ hL => .update hL) (.startWalk h)

theorem State.threadsOk.fetchAway {s : State} {ls : List (Nat × Nat)} {line : Nat} (h : s.threadsOk) :
    (s.fetchAway ls line).threadsOk :=
  .foldl (fun _ _ h1 => .modLane h1 fun _ hL => .update hL) (.send h)

theorem Out.threadsOk.startClause {s : State} {core sub : Nat} (h : s.threadsOk) :
    Out.threadsOk (s.startClause core sub) := by
  unfold State.startClause
  split
  · exact .resting h
  · dsimp only
    split
    next s _ _ _ _ heq =>
      have h1 : s.threadsOk := .of_fst heq (.fetch h)
      exact .next (.fetchWait h1)
    next s _ heq =>
      have h1 : s.threadsOk := .of_fst heq (.fetch h)
      exact .next (.fetchAway h1)
    next s _ _ heq =>
      have h1 : s.threadsOk := .of_fst heq (.fetch h)
      exact .next (.tableTrap h1)
    next s _ heq =>
      have h1 : s.threadsOk := .of_fst heq (.fetch h)
      refine .ite (.next (.tableTrap h1)) ?_
      split
      · exact .next (.tableTrap h1)
      · split
        next s _ _ _ _ heq1 =>
          have h2 : s.threadsOk := .of_fst heq1 (.fetch h1)
          exact .next (.fetchWait h2)
        next s _ heq1 =>
          have h2 : s.threadsOk := .of_fst heq1 (.fetch h1)
          exact .next (.fetchAway h2)
        next s _ _ heq1 =>
          have h2 : s.threadsOk := .of_fst heq1 (.fetch h1)
          exact .next (.tableTrap h2)
        next s _ heq1 =>
          have h2 : s.threadsOk := .of_fst heq1 (.fetch h1)
          exact .andThen (.exec (.update h2)) fun _ h3 => .resting h3

/-! ## Events that are due -/

theorem State.threadsOk.of_firstOf {s t : State} (h : s.threadsOk) {is : List Event} (his : KeepThreads is)
    (ht : s.firstOf is = some t) : t.threadsOk := by
  induction is with
  | nil => cases ht
  | cons i is ih =>
    have hi : Out.threadsOk (i s) := his i (List.mem_cons_self ..) s h
    unfold State.firstOf at ht
    split at ht
    · next u hu =>
      cases ht
      exact .of_next hu hi
    all_goals exact ih (fun j hj => his j (List.mem_cons_of_mem _ hj)) ht

theorem State.threadsOk.tryEvent {s : State} {i : Event} (h : s.threadsOk) (hi : Event.KeepsThreads i) :
    (s.tryEvent i).threadsOk := by
  unfold State.tryEvent
  split
  next t heq =>
    exact .of_next heq (hi _ h)
  all_goals exact h

/-! ## A cycle passes -/

theorem KeepThreads.overflow {s : State} : KeepThreads s.overflow := by
  refine .append (.flatMap fun _ => .map fun _ _ h => .execL1Drop h) (.flatMap fun _ => .map fun e => ?_)
  split
  · exact fun _ h => .execProxyEvict h
  · exact fun _ h => .execL2Evict h

theorem State.threadsOk.tryAll {s : State} {is : List Event} (h : s.threadsOk) (his : KeepThreads is) :
    (is.foldl State.tryEvent s).threadsOk :=
  List.foldlRecOn is State.tryEvent h fun _ ht i hi => .tryEvent ht (his i hi)

theorem State.threadsOk.clocked {s : State} (h : s.threadsOk) : s.clocked.threadsOk := by
  unfold State.clocked
  extract_lets slices s1 s2 s3 s4 s5
  have h1 : s1.threadsOk :=
    .foldl (fun _ _ h => .tryEvent (.tryEvent h fun _ h => .execPoolReset h) fun _ h => .execWeirTick h) h
  have h2 : s2.threadsOk := .foldl (fun _ _ h => .foldl
    (fun _ _ h => .ite (.tryEvent h fun _ h => .execPromoted h) h) h) h1
  have h3 : s3.threadsOk := .foldl (fun _ _ h => .ite
    (.foldl (fun _ _ h => .tryEvent h fun _ h => .execQueueLate h) h) h) h2
  have h4 : s4.threadsOk := .foldl (fun _ _ h => .ite (.tryEvent h fun _ h => .execLinkDown h) h) h3
  have h5 : s5.threadsOk := .tryAll h4 .overflow
  refine .foldl (fun s e h => ?_) h5
  have hwindow := State.threadsOk.ite (c := s.groups.any fun g => g.2.core == e.1 && g.2.park == .sluice)
    (.tryEvent h fun _ h => .execSluiceWindow (core := e.1) h) h
  exact .ite (.tryEvent hwindow fun _ h => .execEcmpMatch h) hwindow

theorem State.threadsOk.advance {s : State} {issued : List (Nat × Nat)} (h : s.threadsOk) :
    (s.advance issued).threadsOk :=
  .clocked (.tick h)

/-! ## What moves next -/

theorem State.threadsOk.hostWrites {s : State} {pa : Nat} {b : Byte} (h : s.threadsOk) :
    (s.hostWrites pa b).threadsOk := by
  unfold State.hostWrites
  dsimp only
  split
  · exact .ite (.update h) h
  all_goals exact h

theorem State.threadsOk.corrects {s : State} {kind unit ctx start len info : Nat} (h : s.threadsOk) :
    (s.corrects kind unit ctx start len info).threadsOk :=
  .ite (.report (.ite (.count h) h)) (.ite (.count h) h)

theorem Out.threadsOk.happens {s : State} {e : Event} (h : s.threadsOk) (he : Event.KeepsThreads e) :
    Out.threadsOk (s.happens e) := by
  unfold State.happens
  split
  next t heq =>
    have h1 : t.threadsOk := .of_next heq (he _ h)
    exact .next h1
  · exact trivial
  · exact .next h

theorem Out.threadsOk.take {s : State} {c : Choice} (h : s.threadsOk) : Out.threadsOk (s.take c) := by
  unfold State.take
  split
  · exact .happens h fun _ h1 => .exec h1
  · split
    · exact .ite (.andThen (.issue h) fun _ h1 => .next (.advance h1)) (.next h)
    · exact .next h
  · exact .ite (.andThen (.startClause h) fun _ h1 => .next (.advance h1)) (.next h)
  · exact .next (.advance h)
  · exact .next (.hostWrites h)
  · exact .next (.ite (.modLane h fun _ hL => .update hL) (.modWarp h fun _ hW => .update hW))
  · exact .next (.modWarp h fun _ hW => .update hW)
  · exact .next (.modBlock h)
  · exact .next (.setHline h)
  · exact .next (.modCore h)
  · exact .next (.corrects h)
  · exact .next (.update h)
  · exact .next (.setLink h)
  · exact .next (.hostAnswers h)
  · exact .happens h fun _ h1 => .hostRegRead h1
  · exact .next (.update h)
  · exact .next (.writeRoute h)
  · exact .happens h fun _ h1 => .hostSlb h1
  · exact .happens h fun _ h1 => .engineUnit h1
  · exact .happens h fun _ h1 => .engineLine h1
  · exact .next h

theorem KeepThreads.compactions {s : State} {q : BlockReq} {core : Nat} : KeepThreads (s.compactions q core) := by
  refine .flatMap fun e => ?_
  split
  · exact .one fun _ h => .execCompactorMove h
  · exact .one fun _ h => .execTileCompaction h
  · exact .one fun _ h => .execLsCompaction h
  · exact .nil

theorem Out.threadsOk.compact {part : Nat} {s : State} (h : s.threadsOk) : Out.threadsOk (compact part s) := by
  unfold Machine.compact
  split
  · exact trivial
  · split
    next t heq => exact .next (.of_firstOf h (.flatMap fun _ => .compactions) heq)
    · exact trivial

theorem KeepThreads.msgEvent {id : Nat} {m : Msg} : KeepThreads (msgEvent id m) := by
  unfold Machine.msgEvent
  split
  · exact .one fun _ h => .execOwnRequest h
  · exact .one fun _ h => .execOwnRequest h
  · exact .one fun _ h => .execThruRead h
  · exact .one fun _ h => .execThruRead h
  · exact .one fun _ h => .execLeaseRequest h
  · exact .one fun _ h => .execTrackRequest h
  · exact .one fun _ h => .execApplyWrite h
  · exact .one fun _ h => .execApplyWrite h
  · exact .one fun _ h => .execRdLocRequest h
  · exact .one fun _ h => .execRdThruRequest h
  · exact .one fun _ h => .execPushedPartial h
  · exact .one fun _ h => .execWriteBack h
  · exact .one fun _ h => .execRecallAck h
  · exact .one fun _ h => .execColourQuery h
  · exact .one fun _ h => .execColourQuery h
  · exact .one fun _ h => .execRecall h
  · exact .one fun _ h => .execInvalidate h
  · exact .one fun _ h => .execDataReply h
  · exact .one fun _ h => .execDataReply h
  · exact .one fun _ h => .execDataReply h
  · exact .one fun _ h => .execOwnershipGrant h
  · exact .ite (.one fun _ h => .execOwnershipGrant h) (.one fun _ h => .execDataReply h)
  · exact .one fun _ h => .execWriteAck h
  · split
    · exact .one fun _ h => .execOwnRequest h
    · exact .one fun _ h => .execOwnRequest h
    · exact .one fun _ h => .execThruRead h
    · exact .one fun _ h => .execLeaseRequest h
    · exact .one fun _ h => .execTrackRequest h
    · exact .one fun _ h => .execApplyWrite h
    · exact .one fun _ h => .execWriteBack h
    · exact .one fun _ h => .execColourQuery h
    · exact .one fun _ h => .execColourQuery h
  · exact .nil
  · exact .nil

theorem KeepThreads.accessEvents {s : State} : KeepThreads s.accessEvents :=
  .append (.append (.append (.append (.append
    (.flatMap fun _ => .ite (.one fun _ h => .execFlagClear h) .nil)
    (.flatMap fun _ => .msgEvent))
    (.flatMap fun _ => .ite (.one fun _ h => .execPageWalkRead h) .nil))
    (.map fun _ _ h => .execSpillAtomicReturn h))
    (.map fun _ _ h => .execRemoteLsPerformed h))
    (.map fun _ _ h => .execShootdownComplete h)

theorem KeepThreads.laneEvents {s : State} : KeepThreads s.laneEvents := by
  refine .append (.append (.append (.flatMap fun _ => ?_) (.map fun _ _ h => .execColourReleaseComplete h))
    (.flatMap fun _ => .cons (fun _ h => .execMonitorGrant h) (.flatMap fun _ => ?_)))
    (.flatMap fun _ => .flatMap fun _ => ?_)
  · split
    · exact .one fun _ h => .execFenceComplete h
    · exact .one fun _ h => .execUcSetWaitEnd h
    · exact .nil
  · split <;> exact .one fun _ h => .execWaitDeadline h
  · split
    · exact .one fun _ h => .execPromoted h
    · exact .one fun _ h => .execNapWake h
    · exact .one fun _ h => .execYieldExpiry h
    all_goals exact .nil

theorem KeepThreads.coreEvents {s : State} : KeepThreads s.coreEvents :=
  .append (.append
    (.flatMap fun _ => .append
      (.ite .nil (.cons (fun _ h => .execEngineStart h) (.one fun _ h => .execEngineDiscard h)))
      (.map fun _ _ h => .execDumpWritten h))
    (.flatMap fun _ =>
      .ite (.cons (fun _ h => .execEngineComplete h) (.one fun _ h => .engineMoves h)) .nil))
    (.flatMap fun _ => .append (.append (.append (.append
      (.ite (.one fun _ h => .execPlacementZeroingDone h) .nil)
      (.ite (.one fun _ h => .execChurnClearDone h) .nil))
      (.ite (.one fun _ h => .execOrdApply h) .nil))
      (.ite (.one fun _ h => .execBlockRelaunch h) .nil))
      (.ite .nil (.one fun _ h => .execBlockRetire h)))

theorem KeepThreads.ctxEvents {s : State} : KeepThreads s.ctxEvents := by
  refine .append (.flatMap fun _ => .append ?_ (.map fun _ _ h => .execJoinPush h))
    (.flatMap fun _ => .append (.append
    (.ite (.one fun _ h => .execPreloadComplete h) .nil)
    (.ite (.one fun _ h => .execSwitchFlip h) .nil))
    (.ite (.append (.map fun _ _ h => .execQueueLate h)
      (.cons (fun _ h => .execDispatch h) (.one fun _ h => .compact h))) .nil))
  split
  · exact .one fun _ h => .execContextResumable h
  all_goals exact .nil

theorem KeepThreads.moduleEvents {s : State} : KeepThreads s.moduleEvents :=
  .append (.append (.append (.append (.append (.append (.append
    (.ite .nil (.one fun _ h => .execInbox h))
    (.flatMap fun _ => .ite (.one fun _ h => .execLinkDown h) .nil))
    (.ite .nil (.cons (fun _ h => .execFlipComplete h) (.one fun _ h => .execFlipStart h))))
    (.ite (.one fun _ h => .execLockTimeout h) .nil))
    (.ite (.cons (fun _ h => .execTimeExchange h) (.one fun _ h => .execPowerIdleTimer h)) .nil))
    (.ite (.one fun _ h => .verifyEnds h) .nil))
    (.ite (.one fun _ h => .execPowerExitComplete h) .nil))
    (.ite (.one fun _ h => .execCommandComplete h) .nil)

/-- Every event that the model looks for by itself keeps the form of the threads. -/
theorem KeepThreads.events {s : State} : KeepThreads s.events :=
  .append (.append (.append (.append .accessEvents .laneEvents) .coreEvents) .ctxEvents) .moduleEvents


theorem Out.threadsOk.auto {s : State} (h : s.threadsOk) : Out.threadsOk s.auto := by
  unfold State.auto
  split
  next t heq => exact .next (.of_firstOf h .events heq)
  · dsimp only
    split
    · exact .take h
    · exact .next (.advance h)

theorem Out.threadsOk.act {s : State} {c : Choice} (h : s.threadsOk) : Out.threadsOk (s.act c) := by
  unfold State.act
  split
  · exact .auto h
  · exact .take h

end Sys2Proof.Machine
end

section
/-! SUPPORT. O5: what keeps the form of threads in one step. -/

namespace Sys2Proof.Machine

theorem Out.threadsOk.step {s : State} (h : s.threadsOk) : Out.threadsOk (step s) := by
  unfold Machine.step
  split
  · exact .act (.update h)
  · exact .auto h

end Sys2Proof.Machine
end

section
/-! PROOFS. O5: every step keeps registers listed in order and p7 true. -/

namespace Sys2Proof.Machine

/-- Settles O5: a step is an event, a choice or a cycle of the model, and each keeps the form of the threads. -/
theorem threadsOkKept : Obligations.ThreadsOkKept := fun _ _ h ht => .of_next ht (.step h)

end Sys2Proof.Machine
end

section
/-! PROOFS. O12: uniform arithmetic completes, with its frame and its values (05_threads_control R99;
06_registers_arithmetic R149). -/

namespace Sys2Proof.Machine

/-! ## What a form leaves of its warp -/

theorem Warp.keeps_refl (W : Warp) (ss : List Nat) (qs : List (Fin 8)) : W.keeps W ss qs := ⟨rfl, fun _ _ => rfl, fun _ _ => rfl⟩

theorem Warp.keeps_setS {W : Warp} (h : AMap.sorted W.s = true) (n : Nat) (x : Word) : W.keeps (W.setS n x) [n] [] :=
  ⟨rfl, fun _ hr => AMap.getD_putD_other _ _ _ _ _ h (by simpa using hr), fun _ _ => rfl⟩

theorem Warp.keeps_setQ (W : Warp) (n : Fin 8) (b : Bool) : W.keeps (W.setQ n b) [] [n] :=
  ⟨rfl, fun _ _ => rfl, fun k hk => (getLsbD_putBit W.q n k b).trans (if_neg (by simpa using hk))⟩

theorem Warp.keeps_putU {W : Warp} (h : AMap.sorted W.s = true) (d : USrc) (x : Word) :
    W.keeps (W.putU d x) (udstS d) (udstQ d) := by
  cases d with
  | s n => exact W.keeps_setS h n.val x
  | q n => exact W.keeps_setQ n _
  | k n => exact W.keeps_refl _ _
  | lit x => exact W.keeps_refl _ _
  | none => exact W.keeps_refl _ _

/-- An instruction's meaning computes each warp by itself, from these registers, and changes D of it only. -/
structure WarpEffect (e : State → Out) (o : UOps) (reads : List Nat) (f : Warp → Warp) : Prop where
  exec : ∀ s, e s = warpwise s reads f
  keeps : ∀ W : Warp, AMap.sorted W.s = true → W.keeps (f W) (udstS o.d) (udstQ o.d)

section
variable {e : State → Out} {o : UOps} {reads : List Nat}

theorem warpEffect_putU {v : Warp → Word} (h : ∀ s, e s = warpwise s reads fun W => W.putU o.d (v W)) :
    ∃ f, WarpEffect e o reads f := ⟨_, h, fun _ hs => Warp.keeps_putU hs _ _⟩

theorem warpEffect_uLog {f : Word → Word → Word} {g : Bool → Bool → Bool} (h : ∀ s, e s = uLog o f g s) :
    ∃ f, WarpEffect e o (uniReads o) f := by
  refine ⟨_, h, fun W hs => ?_⟩
  obtain ⟨d, a, b⟩ := o
  cases d with
  | q n => exact W.keeps_setQ n _
  | s n => exact W.keeps_setS hs n.val _
  | k n => exact W.keeps_refl _ _
  | lit x => exact W.keeps_refl _ _
  | none => exact W.keeps_refl _ _

theorem warpEffect_uCmp {c : ICond} (h : ∀ s, e s = uCmp o c s) : ∃ f, WarpEffect e o (uniReads o) f := by
  refine ⟨_, h, fun W hs => ?_⟩
  obtain ⟨d, a, b⟩ := o
  cases d with
  | q n => exact W.keeps_setQ n _
  | s n => exact W.keeps_refl _ _
  | k n => exact W.keeps_refl _ _
  | lit x => exact W.keeps_refl _ _
  | none => exact W.keeps_refl _ _

end

/-- Every form of uniform arithmetic, by the shape of what it computes in a warp. -/
theorem uniForm_effect {i : Instr} {o : UOps} {reads : List Nat} (h : uniForm i = some (o, reads)) :
    ∃ f, WarpEffect (fun s => exec i s) o reads f := by
  cases i with
  | uAdd o | uSub o | uMul o | uShfShl o | uShfShr o | uShfSar o | uShfRot o | uMov o =>
    cases h
    dsimp only [exec]
    exact warpEffect_putU fun _ => rfl
  | uSel o n =>
    cases h
    dsimp only [exec]
    exact warpEffect_putU fun _ => rfl
  | uLogAnd o | uLogOr o | uLogXor o | uLogAndn o =>
    cases h
    dsimp only [exec]
    exact warpEffect_uLog fun _ => rfl
  | uCmpEq o | uCmpNe o | uCmpLt o | uCmpLe o | uCmpGt o | uCmpGe o | uCmpLtu o | uCmpGeu o =>
    cases h
    dsimp only [exec]
    exact warpEffect_uCmp fun _ => rfl
  | _ => cases h

theorem State.onlyThreads_warpsOf (s : State) (g : Nat) (gr : Group) (f : Warp → Warp) : s.onlyThreads (s.warpsOf g gr f) :=
  State.onlyThreads_trans (s.onlyThreads_modGroup g _)
    (State.onlyThreads_trans (State.onlyThreads_foldl _ (fun s w => s.onlyThreads_modWarp w f) _ _)
      (State.onlyThreads_retire _ _ _))

/-! ## Shifts as arithmetic -/

theorem shl_eq_mul (a : Word) (n : Nat) : shl a n = if n < 32 then BitVec.ofNat 32 (a.toNat * 2 ^ n) else 0 := by
  unfold shl
  split
  · exact BitVec.eq_of_toNat_eq (by simp [Nat.shiftLeft_eq])
  · rfl

theorem shr_eq_div (a : Word) (n : Nat) : shr a n = if n < 32 then BitVec.ofNat 32 (a.toNat / 2 ^ n) else 0 := by
  unfold shr
  split
  · refine BitVec.eq_of_toNat_eq ?_
    have hlt : a.toNat / 2 ^ n < 2 ^ 32 := (Nat.div_le_self _ _).trans_lt a.isLt
    rw [BitVec.toNat_ushiftRight, Nat.shiftRight_eq_div_pow, BitVec.toNat_ofNat, Nat.mod_eq_of_lt hlt]
  · rfl

/-- A quotient by 2^32 or more of a signed 32-bit number says its sign alone. -/
theorem toInt_div_of_le (a : Word) {n : Nat} (h : 32 ≤ n) : a.toInt / 2 ^ n = a.toInt / 2 ^ 32 := by
  have hlo := BitVec.le_toInt a
  have hhi := BitVec.toInt_lt (x := a)
  have hpow : (2 : Int) ^ 32 ≤ 2 ^ n := by exact_mod_cast Nat.pow_le_pow_right (by omega) h
  norm_num at hlo hhi hpow
  by_cases hneg : a.toInt < 0
  · rw [Int.ediv_eq_neg_one_of_neg_of_le hneg (by omega), Int.ediv_eq_neg_one_of_neg_of_le hneg (by omega)]
  · rw [Int.ediv_eq_zero_of_lt (by omega) (by omega), Int.ediv_eq_zero_of_lt (by omega) (by omega)]

theorem sar_eq_div (a : Word) (n : Nat) : sar a n = BitVec.ofInt 32 (a.toInt / 2 ^ n) := by
  rw [sar, BitVec.sshiftRight_eq, Int.shiftRight_eq_div_pow]
  by_cases h : 32 ≤ n
  · rw [Nat.min_eq_right h, toInt_div_of_le a h]
    rfl
  · rw [Nat.min_eq_left (by omega)]
    norm_cast

/-- The bits that a rotation moves out at the top come in at the bottom. -/
theorem rol_eq (a : Word) (n : Nat) :
    rol a n = BitVec.ofNat 32 (a.toNat * 2 ^ (n % 32) + a.toNat / 2 ^ (32 - n % 32)) := by
  rw [rol, BitVec.rotateLeft_def, Nat.mod_mod]
  generalize hr : n % 32 = r
  have hlt : r < 32 := hr ▸ Nat.mod_lt n (by omega)
  have hpow : 2 ^ 32 = 2 ^ r * 2 ^ (32 - r) := by rw [← Nat.pow_add]; congr 1; omega
  have hlow : a.toNat / 2 ^ (32 - r) < 2 ^ r := Nat.div_lt_of_lt_mul (by rw [Nat.mul_comm, ← hpow]; exact a.isLt)
  have hhigh : a.toNat * 2 ^ r % 2 ^ 32 = 2 ^ r * (a.toNat % 2 ^ (32 - r)) := by
    rw [hpow, Nat.mul_comm, Nat.mul_mod_mul_left]
  have hsum : 2 ^ r * (a.toNat % 2 ^ (32 - r)) + a.toNat / 2 ^ (32 - r) < 2 ^ 32 := by
    have hmod : a.toNat % 2 ^ (32 - r) + 1 ≤ 2 ^ (32 - r) := Nat.mod_lt _ (Nat.two_pow_pos _)
    have hmul := Nat.mul_le_mul_left (2 ^ r) hmod
    rw [← hpow, Nat.mul_add] at hmul
    omega
  refine BitVec.eq_of_toNat_eq ?_
  rw [BitVec.toNat_or, BitVec.toNat_shiftLeft, BitVec.toNat_ushiftRight, Nat.shiftLeft_eq, Nat.shiftRight_eq_div_pow,
    BitVec.toNat_ofNat, hhigh, ← Nat.two_pow_add_eq_or_of_lt hlow, ← Nat.mod_add_mod, hhigh, Nat.mod_eq_of_lt hsum]

/-! ## Values -/

theorem State.ReadyU.mono {s : State} {g : Nat} {gr : Group} {rs rs' : List Nat} (h : s.ReadyU g gr rs) (hs : rs' ⊆ rs) :
    s.ReadyU g gr rs' := ⟨h.current, fun x hx hl r hr => h.sound x hx hl r (hs hr)⟩

section
variable {o : UOps} {s : State} {g : Nat} {gr : Group}

/-- A form of two numbers into an s register, where its operation gives this of them. -/
theorem uForm_s (h : s.ReadyU g gr (uniReads o)) {n : Fin 48} (hd : o.d = .s n) {f p : Word → Word → Word}
    (hf : ∀ a b, f a b = p a b) :
    uForm o f s = .next (s.warpsOf g gr fun W => W.setS n (p (usrc32 W o.a) (usrc32 W o.b))) := by
  refine (warpwise_ready h _).trans ?_
  simp only [hd, hf]
  rfl

theorem uLog_s (h : s.ReadyU g gr (uniReads o)) {n : Fin 48} (hd : o.d = .s n) (f : Word → Word → Word)
    (t : Bool → Bool → Bool) :
    uLog o f t s = .next (s.warpsOf g gr fun W => W.setS n (f (usrc32 W o.a) (usrc32 W o.b))) := by
  refine (warpwise_ready h _).trans ?_
  rw [hd]
  rfl

theorem uLog_q (h : s.ReadyU g gr (uniReads o)) {n : Fin 8} (hd : o.d = .q n) (f : Word → Word → Word)
    (t : Bool → Bool → Bool) :
    uLog o f t s = .next (s.warpsOf g gr fun W => W.setQ n (t (usrcT W o.a) (usrcT W o.b))) := by
  refine (warpwise_ready h _).trans ?_
  rw [hd]
  rfl

/-- A comparison into a q register, where its condition says this of the two numbers. -/
theorem uCmp_q (h : s.ReadyU g gr (uniReads o)) {n : Fin 8} (hd : o.d = .q n) {c : ICond} {p : Word → Word → Bool}
    (hc : ∀ a b : Word, icond c a.toInt b.toInt a.toNat b.toNat = p a b) :
    uCmp o c s = .next (s.warpsOf g gr fun W => W.setQ n (p (usrc32 W o.a) (usrc32 W o.b))) := by
  refine (warpwise_ready h _).trans ?_
  simp only [hd, hc]
  rfl

end

theorem icond_eq (a b : Word) : icond .eq a.toInt b.toInt a.toNat b.toNat = decide (a = b) := by
  rw [icond, Bool.beq_eq_decide_eq, decide_eq_decide, BitVec.toNat_inj]

theorem icond_ne (a b : Word) : icond .ne a.toInt b.toInt a.toNat b.toNat = decide (a ≠ b) := by
  rw [icond, bne, Bool.beq_eq_decide_eq, ← decide_not, decide_eq_decide, Ne, BitVec.toNat_inj]

theorem WarpEffect.exec_warpsOf {e : State → Out} {o : UOps} {reads : List Nat} {f : Warp → Warp}
    (h : WarpEffect e o reads f) {s : State} {g : Nat} {gr : Group} (hr : s.ReadyU g gr reads) :
    e s = .next (s.warpsOf g gr f) :=
  (h.exec s).trans (warpwise_ready hr f)

/-- Settles O12: each form by its shape, and its value by the shape and the arithmetic of its operation. -/
theorem uniformForms : Obligations.UniformForms := by
  refine ⟨fun i o reads hi => ?_, fun o s g gr h => ⟨fun n hd => ⟨?_, fun k hk => ?_, ?_⟩, fun n hd => ⟨?_, ?_, ?_⟩⟩⟩
  · obtain ⟨f, hf⟩ := uniForm_effect hi
    exact ⟨f, hf.keeps, fun s g gr hr => ⟨hf.exec_warpsOf hr, s.onlyThreads_warpsOf g gr f⟩⟩
  · have hshl := uForm_s h hd fun a b : Word => shl_eq_mul a b.toNat
    have hshr := uForm_s h hd fun a b : Word => shr_eq_div a b.toNat
    have hsar := uForm_s h hd fun a b : Word => sar_eq_div a b.toNat
    have hrol := uForm_s h hd fun a b : Word => rol_eq a b.toNat
    simp only [List.forall_mem_cons, List.not_mem_nil, false_implies, implies_true, and_true]
    exact ⟨uForm_s h hd fun _ _ => rfl, uForm_s h hd fun _ _ => rfl, uForm_s h hd fun _ _ => rfl, uLog_s h hd _ _,
      uLog_s h hd _ _, uLog_s h hd _ _, uLog_s h hd (fun a b => a &&& ~~~b) fun a b => a && !b, hshl, hshr, hsar, hrol⟩
  · refine (warpwise_ready (reads := (48 + k.val) :: uniReads o) ⟨h.current, fun x hx hl r hr => ?_⟩ _).trans ?_
    · rcases List.mem_cons.1 hr with rfl | hr
      · exact hk.sound x hx hl _ (by simp)
      · exact h.sound x hx hl r hr
    · rw [hd]
      rfl
  · refine (warpwise_ready (h.mono (List.subset_append_left _ _)) _).trans ?_
    rw [hd]
    rfl
  · have heq := uCmp_q h hd icond_eq
    have hne := uCmp_q h hd icond_ne
    have hlt := uCmp_q (c := .lt) h hd fun _ _ => rfl
    have hle := uCmp_q (c := .le) h hd fun _ _ => rfl
    have hgt := uCmp_q (c := .gt) h hd fun _ _ => rfl
    have hge := uCmp_q (c := .ge) h hd fun _ _ => rfl
    have hltu := uCmp_q (c := .ltu) h hd fun _ _ => rfl
    have hgeu := uCmp_q (c := .geu) h hd fun _ _ => rfl
    simp only [List.forall_mem_cons, List.not_mem_nil, false_implies, implies_true, and_true]
    exact ⟨heq, hne, hlt, hle, hgt, hge, hltu, hgeu⟩
  · simp only [List.forall_mem_cons, List.not_mem_nil, false_implies, implies_true, and_true]
    exact ⟨uLog_q h hd _ _, uLog_q h hd _ _, uLog_q h hd _ _, uLog_q h hd (fun a b => a &&& ~~~b) fun a b => a && !b⟩
  · refine (warpwise_ready (h.mono (List.subset_append_left _ _)) _).trans ?_
    simp only [hd, Warp.putU, bne, beq_eq_decide, ← decide_not]
    rfl

end Sys2Proof.Machine
end

section
/-! SUPPORT. Changes of lanes that are in the machine, whatever the order in which registers and lanes are listed: a lane
that is live, a helper or exited is listed, and a change that leaves it so is made in its place. -/

namespace Sys2Proof.Machine

theorem AMap.getD_putD_of_ne {α : Type} [DecidableEq α] (m : AMap α) (i j : Nat) {x d : α} (hx : x ≠ d) :
    (m.putD i x d).getD j d = if j = i then x else m.getD j d := by
  rw [AMap.putD, if_neg hx, AMap.getD, AMap.get?_set]
  split <;> rfl

/-- A lane that is in the machine: it is not absent. -/
def Lane.here (L : Lane) : Prop := L.life ≠ .absent

theorem Lane.here.ne_default {L : Lane} (h : L.here) : L ≠ {} := by
  rintro rfl
  exact h rfl

theorem State.present_of_ne_default {s : State} {w l : Nat} (h : s.lane w l ≠ {}) : (s.warps.get? w).isSome = true := by
  cases hw : s.warps.get? w with
  | none =>
    rw [State.lane, State.warp_of_none hw] at h
    exact absurd rfl h
  | some W => rfl

theorem Lane.here.present {s : State} {w l : Nat} (h : (s.lane w l).here) : (s.warps.get? w).isSome = true :=
  State.present_of_ne_default h.ne_default

theorem Warp.lane_setLane_of_ne (W : Warp) (l : Nat) {x : Lane} (hx : x ≠ {}) (k : Nat) :
    (W.setLane l x).lane k = if k = l then x else W.lane k :=
  AMap.getD_putD_of_ne _ _ _ hx

/-- A change of one lane, in a warp that is there, that does not make it absent. -/
theorem State.lane_modLane_of_ne {s : State} {w l : Nat} (hw : (s.warps.get? w).isSome = true) {f : Lane → Lane}
    (hf : f (s.lane w l) ≠ {}) (v k : Nat) :
    (s.modLane w l f).lane v k = if (v, k) = (w, l) then f (s.lane w l) else s.lane v k := by
  rw [State.lane, State.modLane]
  by_cases hv : v = w
  · subst hv
    rw [State.warp_modWarp_same _ hw]
    refine (Warp.lane_setLane_of_ne _ _ hf k).trans ?_
    simp [State.lane]
  · rw [State.warp_modWarp_other _ _ hv]
    simp [hv, State.lane]

/-! ## Lanes that change each in a way of its own -/

/-- Each of these lanes is changed by a function of its own. -/
def State.modEach (s : State) (xs : List (Nat × Nat)) (f : Nat × Nat → Lane → Lane) : State :=
  xs.foldl (fun s x => s.modLane x.1 x.2 (f x)) s

theorem State.modEach_rest (s : State) (xs : List (Nat × Nat)) (f : Nat × Nat → Lane → Lane) :
    s.modEach xs f = { s with warps := (s.modEach xs f).warps } :=
  List.foldlRecOn (motive := fun t : State => t = { s with warps := t.warps }) xs _ rfl fun t ht x _ => by
    rw [State.modLane, State.modWarp, ht]

theorem State.onlyThreads_modEach (s : State) (xs : List (Nat × Nat)) (f : Nat × Nat → Lane → Lane) :
    s.onlyThreads (s.modEach xs f) :=
  State.onlyThreads_foldl _ (fun s _ => s.onlyThreads_modWarp _ _) _ _

theorem State.warp_modEach (s : State) (xs : List (Nat × Nat)) (f : Nat × Nat → Lane → Lane) (v : Nat) :
    (s.modEach xs f).warp v = { s.warp v with lanes := ((s.modEach xs f).warp v).lanes } := by
  refine List.foldlRecOn (motive := fun t : State => t.warp v = { s.warp v with lanes := (t.warp v).lanes }) xs _ rfl ?_
  intro t ht x _
  rw [State.warp_modLane, ht]

/-- Each lane of the list is changed once. -/
theorem State.lane_modEach {s : State} {xs : List (Nat × Nat)} {f : Nat × Nat → Lane → Lane} (hn : xs.Nodup)
    (hx : ∀ x ∈ xs, (s.lane x.1 x.2).here) (hf : ∀ x L, L.here → (f x L).here) (y : Nat × Nat) :
    (s.modEach xs f).lane y.1 y.2 = if y ∈ xs then f y (s.lane y.1 y.2) else s.lane y.1 y.2 := by
  induction xs generalizing s with
  | nil => simp [State.modEach]
  | cons x xs ih =>
    obtain ⟨hnot, hn⟩ := List.nodup_cons.1 hn
    have hhere := hx x (by simp)
    have hstep (z : Nat × Nat) : (s.modLane x.1 x.2 (f x)).lane z.1 z.2 =
        if z = x then f x (s.lane x.1 x.2) else s.lane z.1 z.2 :=
      State.lane_modLane_of_ne hhere.present (hf x _ hhere).ne_default z.1 z.2
    have hcons : s.modEach (x :: xs) f = (s.modLane x.1 x.2 (f x)).modEach xs f := rfl
    rw [hcons, ih hn fun z hz => ?_, hstep]
    · by_cases hy : y = x
      · subst hy
        simp [hnot]
      · simp [hy]
    · rw [hstep, if_neg fun h : z = x => hnot (h ▸ hz)]
      exact hx z (List.mem_cons_of_mem _ hz)

/-- A change of lanes that asks for the time asks for one that these changes leave as it is. -/
theorem State.foldl_modLane_clock (f : Nat → Nat × Nat → Lane → Lane) (xs : List (Nat × Nat)) (s : State) :
    xs.foldl (fun s x => s.modLane x.1 x.2 (f s.clock x)) s = s.modEach xs (f s.clock) := by
  induction xs generalizing s with
  | nil => rfl
  | cons x xs ih => exact ih (s.modLane x.1 x.2 (f s.clock x))

/-! ## Lanes that end their clause -/

theorem State.enterAll_eq_modEach (s : State) (ls : List (Nat × Nat)) (target : Nat × Nat → DWord × Option DWord) :
    s.enterAll ls target = s.modEach ls fun x L => L.enter (target x).1 (target x).2 s.clock :=
  State.foldl_modLane_clock (fun clock x L => L.enter (target x).1 (target x).2 clock) ls s

theorem Lane.here_enter {L : Lane} (h : L.here) (a : DWord) (led : Option DWord) (clock : Nat) : (L.enter a led clock).here := by
  unfold Lane.enter
  split <;> exact h

/-- A lane that has not exited is runnable where it enters the table. -/
theorem Lane.enter_standing {L : Lane} (h : L.life = .live ∨ L.life = .helper) (a : DWord) (led : Option DWord) (clock : Nat) :
    L.enter a led clock = { L with
      entry := .runnable, pc := a, led := led, since := clock, promoted := false,
      oldCode := if led.isSome then [] else L.oldCode } := by
  rcases h with h | h <;> simp [Lane.enter, h]

theorem State.Stands.here {s : State} {gr : Group} (h : s.Stands gr) {x : Nat × Nat} (hx : x ∈ gr.lanes) :
    (s.lane x.1 x.2).here := by
  obtain ⟨-, hlife⟩ := h
  rcases hlife x hx with hl | hl <;> simp [Lane.here, hl]

/-- Each lane of a group that ends its clause enters the table at its target. -/
theorem State.lane_endClause {s : State} {gr : Group} (h : s.Stands gr) (g : Nat) (target : Nat × Nat → DWord × Option DWord)
    {x : Nat × Nat} (hx : x ∈ gr.lanes) :
    (s.endClause g gr target).lane x.1 x.2 = (s.lane x.1 x.2).enter (target x).1 (target x).2 s.clock := by
  have hlane : (s.endClause g gr target).lane x.1 x.2 = (s.enterAll gr.lanes target).lane x.1 x.2 := rfl
  have hnodup := h.1
  rw [hlane, State.enterAll_eq_modEach, State.lane_modEach hnodup (fun _ hy => h.here hy) (fun _ _ hL => Lane.here_enter hL _ _ _),
    if_pos hx]

theorem State.warp_endClause (s : State) (g : Nat) (gr : Group) (target : Nat × Nat → DWord × Option DWord) (v : Nat) :
    (s.endClause g gr target).warp v = { s.warp v with lanes := ((s.endClause g gr target).warp v).lanes } := by
  have hwarp : (s.endClause g gr target).warp v = (s.enterAll gr.lanes target).warp v := rfl
  rw [hwarp, State.enterAll_eq_modEach, ← State.warp_modEach]

theorem State.went_endClause {s : State} {gr : Group} (h : s.Stands gr) (g : Nat) (target : Nat × Nat → DWord × Option DWord)
    {x : Nat × Nat} (hx : x ∈ gr.lanes) : (s.endClause g gr target).Went x (target x).1 := by
  obtain ⟨-, hlife⟩ := id h
  rw [State.Went, State.lane_endClause h g target hx, Lane.enter_standing (hlife x hx)]
  exact ⟨rfl, rfl⟩

theorem State.Stands.atWord {s : State} {gr : Group} (h : s.Stands gr) (g : Nat) : (s.atWord g).Stands gr := h

theorem State.onlyThreads_atWord (s : State) (g : Nat) : s.onlyThreads (s.atWord g) := s.onlyThreads_modGroup g _

end Sys2Proof.Machine
end

section
/-! PROOFS. O15: branches end the clause at their targets (05_threads_control R112, R115). -/

namespace Sys2Proof.Machine

theorem issueBranch_guarded {s : State} {g : Nat} {gr : Group} {pr : Pred} (h : s.Guarded g gr pr)
    (k : Nat → Group → State → Out) : issueBranch s pr k = k g gr (s.atWord g) := by
  obtain ⟨hcur, hguard⟩ := h
  have hecc : regEcc (s.atWord g) gr pr [] [] = [] := regEcc_nil hguard (by simp)
  unfold issueBranch
  rw [issueBare_current hcur]
  simp [hecc, State.reportRegs]

/-- Where the code addresses of executing thread lanes are words', none of them is misaligned (R18). -/
theorem State.codeAlign_nil {s : State} {gr : Group} {ex : List (Nat × Nat)} {target : Nat × Nat → DWord}
    (h : ∀ x ∈ ex, s.isLive x = true → target x &&& 3 = 0) : s.codeAlign gr ex target = [] := by
  unfold State.codeAlign
  rw [List.filterMap_eq_nil_iff]
  intro w _
  rw [Option.map_eq_none_iff, List.find?_eq_none]
  intro x hx
  cases hl : s.isLive x with
  | false => simp
  | true =>
    have hzero := h x hx hl
    simp_all

section
variable {s : State} {g : Nat} {gr : Group}

theorem State.onlyThreads_transfer (s : State) (g : Nat) (gr : Group) (ex : List (Nat × Nat)) (target : Nat × Nat → DWord) :
    s.onlyThreads (s.transfer g gr ex target) := s.onlyThreads_endClause g gr _

/-- Lanes that branch are runnable at their targets, the others after the clause. -/
theorem State.went_transfer (h : s.Stands gr) (g : Nat) (ex : List (Nat × Nat)) (target : Nat × Nat → DWord)
    {x : Nat × Nat} (hx : x ∈ gr.lanes) :
    (s.transfer g gr ex target).Went x (if x ∈ ex then target x else gr.clauseEnd) := by
  refine (congrArg _ ?_).mp (State.went_endClause h g _ hx)
  simp only [List.contains_iff_mem, apply_ite Prod.fst]

theorem State.mem_execs {p : Pred} {x : Nat × Nat} (hx : x ∈ gr.lanes) : x ∈ s.execs gr p ↔ s.exec? p x = true := by
  simp [State.execs, hx]

/-- A lane's address in BR.IND and CL.CALLI, where it is a thread lane. -/
theorem State.indTarget_live (o : Ops) {x : Nat × Nat} (h : s.isLive x = true) :
    s.indTarget o x = src64 (s.warp x.1) (s.lane x.1 x.2) o.a := by
  unfold State.indTarget
  rw [if_pos h]
  rfl

/-! ## Uniform branches -/

/-- The same change of some warps. -/
def State.modWarps (s : State) (ws : List Nat) (f : Warp → Warp) : State := ws.foldl (fun s w => s.modWarp w f) s

theorem State.onlyThreads_modWarps (s : State) (ws : List Nat) (f : Warp → Warp) : s.onlyThreads (s.modWarps ws f) :=
  State.onlyThreads_foldl _ (fun s w => s.onlyThreads_modWarp w f) _ _

theorem State.warp_modWarps {s : State} {ws : List Nat} (hn : ws.Nodup) (f : Warp → Warp) {v : Nat}
    (hv : (s.warps.get? v).isSome = true) : (s.modWarps ws f).warp v = if v ∈ ws then f (s.warp v) else s.warp v := by
  induction ws generalizing s with
  | nil => simp [State.modWarps]
  | cons w ws ih =>
    obtain ⟨hnot, hn⟩ := List.nodup_cons.1 hn
    have hcons : s.modWarps (w :: ws) f = (s.modWarp w f).modWarps ws f := rfl
    rw [hcons, ih hn (by rw [State.isSome_modWarp]; exact hv)]
    by_cases hvw : v = w
    · subst hvw
      rw [State.warp_modWarp_same f hv]
      simp [hnot]
    · rw [State.warp_modWarp_other _ _ hvw]
      simp [hvw]

theorem Group.mem_warpIds {x : Nat × Nat} (hx : x ∈ gr.lanes) : x.1 ∈ gr.warpIds :=
  List.mem_dedup.2 (List.mem_map_of_mem hx)

theorem Group.nodup_warpIds (gr : Group) : gr.warpIds.Nodup := List.nodup_dedup _

/-- The warps of a group, each changed once. -/
theorem State.warp_modWarps_warpIds (h : s.Stands gr) (f : Warp → Warp) {x : Nat × Nat} (hx : x ∈ gr.lanes) :
    (s.modWarps gr.warpIds f).warp x.1 = f (s.warp x.1) := by
  rw [State.warp_modWarps gr.nodup_warpIds f (h.here hx).present, if_pos (Group.mem_warpIds hx)]

theorem State.Stands.modWarps (h : s.Stands gr) {f : Warp → Warp} (hf : ∀ W, (f W).lanes = W.lanes) :
    (s.modWarps gr.warpIds f).Stands gr := by
  have hlane {x : Nat × Nat} (hx : x ∈ gr.lanes) : (s.modWarps gr.warpIds f).lane x.1 x.2 = s.lane x.1 x.2 := by
    rw [State.lane, State.warp_modWarps_warpIds h f hx, Warp.lane, hf]
    rfl
  obtain ⟨hn, hlife⟩ := h
  exact ⟨hn, fun x hx => by rw [hlane hx]; exact hlife x hx⟩

theorem State.onlyThreads_sawTransfer (s : State) (ls : List (Nat × Nat)) : s.onlyThreads (s.sawTransfer ls) :=
  State.onlyThreads_foldl _ (fun s _ => by
    split
    · exact s.onlyThreads_refl
    · exact s.onlyThreads_modWarp _ _) _ _

theorem State.warp_sawTransfer (s : State) (ls : List (Nat × Nat)) (v : Nat) :
    (s.sawTransfer ls).warp v = { s.warp v with lanes := ((s.sawTransfer ls).warp v).lanes } := by
  refine List.foldlRecOn (motive := fun t : State => t.warp v = { s.warp v with lanes := (t.warp v).lanes }) ls _ rfl ?_
  intro t ht x _
  split
  · exact ht
  · rw [State.warp_modLane, ht]

/-- Lanes that fetch anew stand where they stood. -/
theorem State.went_sawTransfer {ls : List (Nat × Nat)} (h : ∀ y ∈ ls, (s.lane y.1 y.2).here) {x : Nat × Nat} {a : DWord}
    (hx : s.Went x a) : (s.sawTransfer ls).Went x a := by
  refine (List.foldlRecOn (motive := fun t : State => (∀ y ∈ ls, (t.lane y.1 y.2).here) ∧ t.Went x a) ls _ ⟨h, hx⟩
    fun t ht y hy => ?_).2
  obtain ⟨hhere, hwent⟩ := ht
  split
  · exact ⟨hhere, hwent⟩
  · have hne : ({ t.lane y.1 y.2 with oldCode := [] } : Lane) ≠ {} := Lane.here.ne_default (hhere y hy)
    have hlane (z : Nat × Nat) := State.lane_modLane_of_ne (hhere y hy).present
      (f := fun L => { L with oldCode := [] }) hne z.1 z.2
    refine ⟨fun z hz => ?_, ?_⟩
    · rw [hlane]
      split
      · exact hhere y hy
      · exact hhere z hz
    · rw [State.Went, hlane]
      split
      next heq =>
        have hxy : x = y := heq
        exact hxy ▸ hwent
      next => exact hwent

/-- A uniform branch whose operands may be read: each warp of the group becomes what the branch makes of it, and its lanes
go where it sends them. -/
theorem uniBranch_spec {reads : List Nat} (h : s.ReadyU g gr reads) (hs : s.Stands gr) (off : UOff)
    (take : Warp → Warp × Bool) (hlanes : ∀ W, (take W).1.lanes = W.lanes) :
    ∃ t, uniBranch s reads off take = .next t ∧ s.onlyThreads t ∧ ∀ x ∈ gr.lanes,
      t.warp x.1 = { (take (s.warp x.1)).1 with lanes := (t.warp x.1).lanes } ∧
        t.Went x (if (take (s.warp x.1)).2 then gr.pc + 4 * UOff.words off else gr.clauseEnd) := by
  let m := (s.atWord g).modWarps gr.warpIds fun W => (take W).1
  let ex := gr.lanes.filter fun x => (gr.warpIds.filter fun w => (take (s.warp w)).2).contains x.1
  have hm : m.Stands gr := (hs.atWord g).modWarps hlanes
  have hex {x : Nat × Nat} (hx : x ∈ gr.lanes) : x ∈ ex ↔ (take (s.warp x.1)).2 = true := by
    simp [ex, hx, Group.mem_warpIds hx]
  refine ⟨(m.transfer g gr ex fun _ => gr.pc + 4 * UOff.words off).sawTransfer gr.lanes, issueUni_ready h _, ?_,
    fun x hx => ⟨?_, ?_⟩⟩
  · exact State.onlyThreads_trans (s.onlyThreads_atWord g) (State.onlyThreads_trans (State.onlyThreads_modWarps _ _ _)
      (State.onlyThreads_trans (m.onlyThreads_transfer g gr _ _) (State.onlyThreads_sawTransfer _ _)))
  · have hwarp : m.warp x.1 = (take (s.warp x.1)).1 := State.warp_modWarps_warpIds (hs.atWord g) _ hx
    rw [State.warp_sawTransfer, State.transfer, State.warp_endClause, hwarp]
  · have hwent := State.went_transfer hm g ex (fun _ => gr.pc + 4 * UOff.words off) hx
    simp only [hex hx] at hwent
    refine State.went_sawTransfer (fun y hy => ?_) hwent
    rw [State.transfer, State.lane_endClause hm g _ hy]
    exact Lane.here_enter (hm.here hy) _ _ _

end

section
variable {s : State} {g : Nat} {gr : Group}

theorem exec_brRel {pr : Pred} (h : s.Guarded g gr pr) (off : BitVec 24) :
    exec (.brRel off pr) s =
      .next ((s.atWord g).transfer g gr (s.execs gr pr) fun _ => gr.pc + 4 * off.signExtend 64) :=
  issueBranch_guarded h _

theorem exec_brInd {o : Ops} (h : s.Ready g gr o ⟨1, 2, 1, 1, false, []⟩)
    (halign : ∀ x ∈ s.execThreads gr o.pr, src64 (s.warp x.1) (s.lane x.1 x.2) o.a &&& 3 = 0) :
    exec (.brInd o) s = .next ((s.atWord g).transfer g gr (s.execs gr o.pr) ((s.atWord g).indTarget o)) := by
  have hnil : (s.atWord g).codeAlign gr (s.execs gr o.pr) ((s.atWord g).indTarget o) = [] := by
    refine State.codeAlign_nil fun x hx hl => ?_
    rw [State.indTarget_live o hl]
    exact halign x (List.mem_filter.2 ⟨hx, hl⟩)
  refine (issueLane_ready h false (by simp) _).trans ?_
  rw [State.atWord_execs, hnil, State.raising_nil]
  rfl

theorem exec_ubBra_always (off : UOff) (s : State) : exec (.ubBra none off) s = uniBranch s [] off fun W => (W, true) := rfl

theorem exec_ubBra_cond (q : Fin 8) (off : UOff) (s : State) :
    exec (.ubBra (some q) off) s = uniBranch s [48 + q.val] off fun W => (W, W.getQ q) := rfl

theorem exec_ubLoop (sx : Fin 48) (off : UOff) (s : State) :
    exec (.ubLoop sx off) s =
      uniBranch s [sx.val] off fun W => (W.setS sx.val (W.getS sx.val - 1), W.getS sx.val - 1 != 0) := rfl

/-- Lanes that branch as one transfer of their group sends them. -/
theorem State.branched (hs : s.Stands gr) (g : Nat) (pr : Pred) (target : Nat × Nat → DWord) :
    s.onlyThreads ((s.atWord g).transfer g gr (s.execs gr pr) target) ∧ ∀ x ∈ gr.lanes,
      ((s.atWord g).transfer g gr (s.execs gr pr) target).Went x (if s.exec? pr x then target x else gr.clauseEnd) := by
  refine ⟨State.onlyThreads_trans (s.onlyThreads_atWord g) (State.onlyThreads_transfer _ g gr _ _), fun x hx => ?_⟩
  have hwent := State.went_transfer (hs.atWord g) g (s.execs gr pr) target hx
  simp only [State.mem_execs hx] at hwent
  exact hwent

end

/-- Settles O15: each branch is one transfer of its group, and a uniform branch one change of its warps before it. -/
theorem branchesComplete : Obligations.BranchesComplete := by
  refine fun s g gr hs => ⟨fun off pr h => ⟨_, exec_brRel h off, State.branched hs g pr _⟩, fun o h halign => ?_,
    fun cnd off h => ?_, fun sx off h hok => ?_⟩
  · obtain ⟨honly, hwent⟩ := State.branched hs g o.pr ((s.atWord g).indTarget o)
    refine ⟨_, exec_brInd h halign, honly, fun x hx hl => ?_⟩
    have htarget : (s.atWord g).indTarget o x = src64 (s.warp x.1) (s.lane x.1 x.2) o.a := State.indTarget_live o hl
    rw [← htarget]
    exact hwent x hx
  · cases cnd with
    | none =>
      obtain ⟨t, hexec, honly, hlanes⟩ := uniBranch_spec h hs off (fun W => (W, true)) fun _ => rfl
      exact ⟨t, (exec_ubBra_always off s).trans hexec, honly, fun x hx => (hlanes x hx).2⟩
    | some q =>
      obtain ⟨t, hexec, honly, hlanes⟩ := uniBranch_spec h hs off (fun W => (W, W.getQ q)) fun _ => rfl
      exact ⟨t, (exec_ubBra_cond q off s).trans hexec, honly, fun x hx => (hlanes x hx).2⟩
  · obtain ⟨t, hexec, honly, hlanes⟩ := uniBranch_spec h hs off
      (fun W => (W.setS sx.val (W.getS sx.val - 1), W.getS sx.val - 1 != 0)) fun _ => rfl
    refine ⟨t, (exec_ubLoop sx off s).trans hexec, honly, fun x hx => ?_⟩
    obtain ⟨hwarp, hwent⟩ := hlanes x hx
    have hsorted : AMap.sorted (s.warp x.1).s = true := (Warp.tidy.of_state hok).1
    refine ⟨?_, ?_⟩
    · rw [hwarp]
      exact AMap.getD_putD_same _ _ _ _ hsorted
    · simpa using hwent

end Sys2Proof.Machine
end

section
/-! PROOFS. O16: a call whose group still has the answer of a colour query to come does not go to its target
(05_threads_control R113; 11_colours_monitors R266). -/

namespace Sys2Proof.Machine

/-- A group of one lane at a call: it is not parked, and the answer of a colour query is still to come. The statement on
calls asks that the group is not parked, and nothing of what it remembers. -/
def queryingCaller : Group := { lanes := [(0, 0)], memo := { waiting := 1 } }

/-- The state in which `queryingCaller` issues. -/
def queryingCall : State :=
  { warps := [(0, { lanes := [(0, { life := .live, entry := .group 1 })] })], groups := [(1, queryingCaller)],
    focus := .group 1 }

theorem queryingCall_stands : queryingCall.Stands queryingCaller := ⟨by decide, by decide⟩

theorem queryingCall_guarded : queryingCall.Guarded 1 queryingCaller ⟨7, false⟩ := ⟨rfl, by decide⟩

/-- The call, which spills nothing, waits for that answer, and its lane stays at the word. -/
theorem clCall_queryingCall : exec (.clCall 0 ⟨7, false⟩) queryingCall =
    .next { queryingCall with groups := [(1, { queryingCaller with park := .colours })], focus := .none } := rfl

/-- Refutes O16: the lane of `queryingCall` executes the call, and is not runnable at its target afterwards. -/
theorem not_callsAndReturns : ¬ Obligations.CallsAndReturns := by
  rintro ⟨hcalls, -⟩
  obtain ⟨t, ht, -, hlanes⟩ := hcalls queryingCall 1 queryingCaller ⟨7, false⟩ queryingCall_stands rfl rfl (by decide)
    (.clCall 0 ⟨7, false⟩) _ (.inl ⟨0, rfl, queryingCall_guarded, rfl⟩)
  rw [clCall_queryingCall] at ht
  cases ht
  obtain ⟨⟨hrun, -⟩, -⟩ := (if_pos (by decide)).mp (hlanes (0, 0) (by decide))
  exact absurd hrun (by decide)

end Sys2Proof.Machine
end

section
/-! SUPPORT. O17: lanes that have exited stay so, and no warp goes, whatever ends lanes, barriers and handlers
(05_threads_control R101 to R103, R120; 14_translation_traps R331, R347). -/

namespace Sys2Proof.Machine

theorem AMap.get?_del_of_some {α : Type} {m : AMap α} {i j : Nat} {x : α} (hij : j ≠ i) (h : m.get? j = some x) :
    (m.del i).get? j = some x := by
  induction m with
  | nil => simp at h
  | cons a m ih =>
    obtain ⟨k, v⟩ := a
    by_cases hlt : j < k
    · simp [AMap.get?, hlt] at h
    by_cases hik : i = k
    · subst hik
      simpa [AMap.del, AMap.get?, hlt, hij] using h
    · by_cases hjk : j = k
      · simpa [AMap.del, hik, AMap.get?, hlt, hjk] using h
      · simp only [AMap.get?, hlt, hjk, if_false] at h
        simp [AMap.del, hik, AMap.get?, hlt, hjk, ih h]

/-- An entry that is no default stays where another one is written. -/
theorem AMap.getD_putD_keeps {α : Type} [DecidableEq α] {m : AMap α} {i j : Nat} {d : α} (x : α) (hij : j ≠ i)
    (h : m.getD j d ≠ d) : (m.putD i x d).getD j d = m.getD j d := by
  unfold AMap.putD
  split
  · cases hj : m.get? j with
    | none => simp [AMap.getD, hj] at h
    | some y => simp [AMap.getD, hj, AMap.get?_del_of_some hij hj]
  · rw [AMap.getD, AMap.get?_set_other _ _ _ _ hij, AMap.getD]

/-- Exited lanes of a warp stay exited. -/
def Warp.ExitsKept (W V : Warp) : Prop := ∀ l, (W.lane l).life = .exited → (V.lane l).life = .exited

/-- Warps stay, and exited lanes stay exited. -/
structure State.ExitsKept (s t : State) : Prop where
  present : ∀ w, (s.warps.get? w).isSome = true → (t.warps.get? w).isSome = true
  exited : ∀ w, (s.warp w).ExitsKept (t.warp w)

theorem Warp.ExitsKept.modLane (W : Warp) (l : Nat) {f : Lane → Lane} (hf : ∀ L, L.life = .exited → (f L).life = .exited) :
    W.ExitsKept (W.modLane l f) := by
  intro k hk
  by_cases hkl : k = l
  · subst hkl
    have hlife := hf _ hk
    have hne : f (W.lane k) ≠ {} := fun h => by simp [h] at hlife
    rw [Warp.modLane, Warp.lane_setLane_of_ne _ _ hne, if_pos rfl]
    exact hlife
  · have hne : W.lane k ≠ {} := fun h => by simp [h] at hk
    have hlane : (W.modLane l f).lane k = W.lane k := AMap.getD_putD_keeps _ hkl hne
    rw [hlane]
    exact hk

theorem Warp.ExitsKept.modLanes (W : Warp) (ls : List Nat) {f : Lane → Lane} (hf : ∀ L, L.life = .exited → (f L).life = .exited) :
    W.ExitsKept (W.modLanes ls f) :=
  List.foldlRecOn (motive := fun V : Warp => W.ExitsKept V) ls _ (fun _ h => h) fun V hV l _ k hk =>
    Warp.ExitsKept.modLane V l hf k (hV k hk)

namespace State.ExitsKept

section
variable {s t u : State}

theorem of_warps (h : t.warps = s.warps) : s.ExitsKept t :=
  ⟨fun w hw => h ▸ hw, fun w l hl => by rwa [State.warp, h]⟩

theorem refl (s : State) : s.ExitsKept s := of_warps rfl

theorem trans (h1 : s.ExitsKept t) (h2 : t.ExitsKept u) : s.ExitsKept u :=
  ⟨fun w hw => h2.present w (h1.present w hw), fun w l hl => h2.exited w l (h1.exited w l hl)⟩

theorem ite {c : Prop} [Decidable c] (h : s.ExitsKept t) (h' : s.ExitsKept u) : s.ExitsKept (if c then t else u) := by
  split <;> assumption

theorem same (h : s.ExitsKept t) (hw : u.warps = t.warps) : s.ExitsKept u := h.trans (of_warps hw)

theorem modGroup {g : Nat} {f : Group → Group} (h : s.ExitsKept t) : s.ExitsKept (t.modGroup g f) := h.same rfl
theorem delGroup {g : Nat} (h : s.ExitsKept t) : s.ExitsKept (t.delGroup g) := h.same rfl
theorem unfocus {g : Nat} (h : s.ExitsKept t) : s.ExitsKept (t.unfocus g) := h.same rfl
theorem modBlock {b : Nat} {f : Block → Block} (h : s.ExitsKept t) : s.ExitsKept (t.modBlock b f) := h.same rfl
theorem wakeMeetings {w : Nat} (h : s.ExitsKept t) : s.ExitsKept (t.wakeMeetings w) := h.same rfl
theorem leaveQueues {w l : Nat} (h : s.ExitsKept t) : s.ExitsKept (t.leaveQueues w l) := h.same rfl
theorem count {c u e n x : Nat} (h : s.ExitsKept t) : s.ExitsKept (t.count c u e n x) := h.same rfl
theorem modCore {c : Nat} {f : Core → Core} (h : s.ExitsKept t) : s.ExitsKept (t.modCore c f) := h.same rfl
theorem newId (h : s.ExitsKept t) : s.ExitsKept t.newId.2 := h.same rfl
theorem setGroups {gs : AMap Group} (h : s.ExitsKept t) : s.ExitsKept { t with groups := gs } := h.same rfl

theorem foldl {α : Type} {f : State → α → State} {l : List α} (hf : ∀ t x, s.ExitsKept t → s.ExitsKept (f t x))
    (h : s.ExitsKept t) : s.ExitsKept (l.foldl f t) :=
  List.foldlRecOn l f h fun u hu x _ => hf u x hu

theorem modWarp {w : Nat} {f : Warp → Warp} (h : s.ExitsKept t) (hf : ∀ W : Warp, W.ExitsKept (f W)) :
    s.ExitsKept (t.modWarp w f) := by
  refine h.trans ⟨fun v hv => (t.isSome_modWarp w v f).trans hv, fun v l hl => ?_⟩
  by_cases hv : v = w
  · subst hv
    cases hw : t.warps.get? v with
    | none => rwa [State.modWarp_absent _ hw]
    | some W =>
      rw [State.warp_modWarp_same _ (by simp [hw])]
      exact hf _ l hl
  · rwa [State.warp_modWarp_other _ _ hv]

theorem modLane {w l : Nat} {f : Lane → Lane} (h : s.ExitsKept t) (hf : ∀ L, L.life = .exited → (f L).life = .exited) :
    s.ExitsKept (t.modLane w l f) :=
  h.modWarp fun W => Warp.ExitsKept.modLane W l hf

theorem enter {w l : Nat} {a : DWord} {led : Option DWord} {clock : Nat} (h : s.ExitsKept t) :
    s.ExitsKept (t.modLane w l (·.enter a led clock)) :=
  h.modLane fun L hL => by simp [Lane.enter, hL]

end

section
variable {s t : State}

theorem endClause {g : Nat} {gr : Group} {target : Nat × Nat → DWord × Option DWord} (h : s.ExitsKept t) :
    s.ExitsKept (t.endClause g gr target) :=
  .unfocus (.delGroup (.foldl (fun _ _ hu => .enter hu) h))

theorem retire {g : Nat} {gr : Group} (h : s.ExitsKept t) : s.ExitsKept (t.retire g gr) := .ite (.endClause h) (.modGroup h)

theorem splitOff {g : Nat} {gr : Group} {ls : List (Nat × Nat)} {p : Park} {m : Memo} (h : s.ExitsKept t) :
    s.ExitsKept (t.splitOff g gr ls p m).2 :=
  have hnew := setGroups (newId h)
  .ite (.unfocus (.delGroup (.foldl (fun _ _ hu => .modLane hu fun _ hL => hL) hnew)))
    (.modGroup (.foldl (fun _ _ hu => .modLane hu fun _ hL => hL) hnew))

theorem resumeFrom {p : Park} {b : Nat} {done stay : List (Nat × Nat)} (h : s.ExitsKept t) : s.ExitsKept (t.resumeFrom p b done stay) :=
  .foldl (fun _ _ hu => .ite (.ite (.retire hu) (.retire (.splitOff hu))) hu) h

theorem checkBars {b : Nat} (h : s.ExitsKept t) : s.ExitsKept (t.checkBars b) :=
  .foldl (fun _ _ hu => .ite (.resumeFrom (.modBlock hu)) hu) h

theorem checkCbars {b : Nat} (h : s.ExitsKept t) : s.ExitsKept (t.checkCbars b) := by
  refine .foldl (fun u _ hu => ?_) h
  split
  · exact .ite (.foldl (fun _ _ hv => .resumeFrom hv) (hu.same rfl)) hu
  · exact hu

theorem leaveGroup {w l : Nat} (h : s.ExitsKept t) : s.ExitsKept (t.leaveGroup w l) := by
  unfold State.leaveGroup
  split
  · split
    · exact .ite (.unfocus (.delGroup h)) (.modGroup h)
    · exact h
  all_goals exact h

theorem pushAll {core : Nat} (h : s.ExitsKept t) : s.ExitsKept (t.pushAll core) := by
  refine .foldl (fun u _ hu => .ite ?_ hu) h
  unfold State.pushPartial
  split
  · exact hu.same rfl
  · exact hu.same rfl

theorem beginRelease {w l : Nat} {cs : List Nat} {wait : Option (Option Nat)} {g : Option Nat} (h : s.ExitsKept t) :
    s.ExitsKept (t.beginRelease w l cs wait g) :=
  .same (.pushAll (newId h)) rfl

theorem markExited {w l : Nat} (h : s.ExitsKept t) : s.ExitsKept (t.markExited w l) :=
  .ite (.wakeMeetings (.modLane (.leaveGroup (.leaveQueues h)) fun _ _ => rfl))
    (.beginRelease (.wakeMeetings (.modLane (.leaveGroup (.leaveQueues h)) fun _ _ => rfl)))

theorem exitHelpers {w l : Nat} (h : s.ExitsKept t) : s.ExitsKept (t.exitHelpers w l) :=
  .ite (.foldl (fun _ _ hu => .ite (.markExited hu) hu) h) h

theorem releaseQuarters {w : Nat} (h : s.ExitsKept t) : s.ExitsKept (t.releaseQuarters w) :=
  .ite h (.foldl (fun _ _ hu => .ite (.modWarp hu fun _ _ hl => hl) hu) h)

theorem closeGuards {w : Nat} (h : s.ExitsKept t) : s.ExitsKept (t.closeGuards w) := by
  refine .ite (.foldl (fun u _ hu => ?_) h) h
  split
  · exact .ite (.modWarp hu fun _ _ hl => hl) hu
  · exact hu

theorem completing {b : Nat} (h : s.ExitsKept t) : s.ExitsKept (t.completing b) := .ite (.modBlock h) h

/-- What follows once lanes have exited. -/
theorem endLanes_rest {b : Nat} {ws : List Nat} (h : s.ExitsKept t) :
    s.ExitsKept ((((ws.foldl (fun s w => (s.releaseQuarters w).closeGuards w) t).completing b).checkBars b).checkCbars b) :=
  .checkCbars (.checkBars (.completing (.foldl (fun _ _ hu => .closeGuards (.releaseQuarters hu)) h)))

theorem endLanes {b : Nat} {ls : List (Nat × Nat)} (h : s.ExitsKept t) : s.ExitsKept (t.endLanes b ls) :=
  .endLanes_rest (.foldl (fun _ _ hu => .exitHelpers (.markExited hu)) h)

theorem endBlock {b word : Nat} (h : s.ExitsKept t) : s.ExitsKept (t.endBlock b word) :=
  .ite h (.foldl (fun _ _ hu => .modWarp hu fun _ _ hl => hl) (.endLanes (.modBlock h)))

theorem serveLsecc {w : Nat} (h : s.ExitsKept t) : s.ExitsKept (t.serveLsecc w) := by
  unfold State.serveLsecc
  dsimp only
  split
  · exact .ite h (.endBlock (.modWarp h fun _ _ hl => hl))
  · exact h

theorem enterHandler {w : Nat} {x : Trap} (h : s.ExitsKept t) : s.ExitsKept (t.enterHandler w x) := by
  unfold State.enterHandler
  extract_lets W tvb entry counted noted
  have hnoted : s.ExitsKept noted := .ite (.modCore (.count h)) (.count h)
  refine hnoted.modWarp fun W l hl => ?_
  exact Warp.ExitsKept.modLanes W x.lanes (f := fun L => { L.enter entry none noted.clock with handler := true })
    (fun L hL => by simp [Lane.enter, hL]) l hl

theorem takePending {w : Nat} (h : s.ExitsKept t) : s.ExitsKept (t.takePending w) := by
  unfold State.takePending
  dsimp only
  split
  · exact .serveLsecc h
  · exact .ite (.serveLsecc h) (.enterHandler (.modWarp (.serveLsecc h) fun _ _ hl => hl))

/-- Helper lanes that a return takes to the clause's header. -/
theorem resumeAt_start {w : Nat} {ls : List Nat} {a hdr : DWord} (h : s.ExitsKept t) : s.ExitsKept (t.resumeAt w ls a hdr .start) :=
  .ite h (.foldl (fun _ _ hu => .enter hu) h)

/-- What follows once the lanes that leave a handler have ended. -/
theorem leaveHandler_ended {w : Nat} {ls : List Nat} :
    (t.endLanes (t.warp w).block (ls.map fun l => (w, l))).ExitsKept (t.leaveHandler w ls true .start) := by
  unfold State.leaveHandler
  extract_lets W a hdr ended last hs left pending
  have hended : (t.endLanes (t.warp w).block (ls.map fun l => (w, l))).ExitsKept ended := refl _
  have hleft : (t.endLanes (t.warp w).block (ls.map fun l => (w, l))).ExitsKept left :=
    .foldl (fun _ _ hu => .leaveGroup hu) hended
  exact .resumeAt_start (.ite (.takePending hleft) hleft)

theorem leaveHandler {w : Nat} {ls : List Nat} (h : s.ExitsKept t) : s.ExitsKept (t.leaveHandler w ls true .start) :=
  (endLanes h).trans leaveHandler_ended

theorem mergeResumed {old : List Nat} {stopOf : Nat → Nat} (h : s.ExitsKept t) : s.ExitsKept (t.mergeResumed old stopOf) := by
  unfold State.mergeResumed
  dsimp only
  refine .foldl (fun u e hu => ?_) h
  split
  · exact hu
  · exact .ite hu (.modGroup (.foldl (fun _ _ hv => .delGroup hv)
      (.foldl (fun _ _ hv => .modLane hv fun _ hL => hL) hu)))

end

end State.ExitsKept

/-! ## Lanes that end -/

section
variable {s : State}

/-- A lane of a warp that is there has exited once it is marked so. -/
theorem State.exited_markExited {w l : Nat} (hw : (s.warps.get? w).isSome = true) :
    ((s.markExited w l).lane w l).life = .exited := by
  let left := (s.leaveQueues w l).leaveGroup w l
  let mark (L : Lane) : Lane :=
    { L with life := .exited, entry := .gone, handler := false, slots := [], credit := none, promoted := false }
  have hleft : (left.warps.get? w).isSome = true := (State.ExitsKept.leaveGroup (State.ExitsKept.refl s).leaveQueues).present w hw
  have hne : mark (left.lane w l) ≠ {} := fun h => by simpa [mark] using congrArg Lane.life h
  have hmark : ((left.modLane w l mark).wakeMeetings w).lane w l = mark (left.lane w l) := by
    have hlane := State.lane_modLane_of_ne hleft hne w l
    rw [if_pos rfl] at hlane
    exact hlane
  have hkept : ((left.modLane w l mark).wakeMeetings w).ExitsKept (s.markExited w l) :=
    .ite (.refl _) (.beginRelease (.refl _))
  exact hkept.exited w l (by rw [← State.lane, hmark])

/-- What ends lanes makes each of them exited. -/
theorem State.exited_endLanes (b : Nat) {ls : List (Nat × Nat)} (hw : ∀ x ∈ ls, (s.warps.get? x.1).isSome = true)
    {x : Nat × Nat} (hx : x ∈ ls) : ((s.endLanes b ls).lane x.1 x.2).life = .exited := by
  obtain ⟨before, after, rfl⟩ := List.append_of_mem hx
  let endOne (s : State) (x : Nat × Nat) : State := (s.markExited x.1 x.2).exitHelpers x.1 x.2
  have hbefore : s.ExitsKept (before.foldl endOne s) := .foldl (fun _ _ hu => .exitHelpers (.markExited hu)) (.refl s)
  have hmarked := State.exited_markExited (l := x.2) (hbefore.present x.1 (hw x hx))
  have hafter : ((before.foldl endOne s).markExited x.1 x.2).ExitsKept (s.endLanes b (before ++ x :: after)) := by
    unfold State.endLanes
    rw [List.foldl_append, List.foldl_cons]
    exact .endLanes_rest (.foldl (fun _ _ hu => .exitHelpers (.markExited hu)) (.exitHelpers (.refl _)))
  exact hafter.exited x.1 x.2 hmarked

end

end Sys2Proof.Machine
end

section
/-! PROOFS. O17: yields, naps, exits, and the events of the program-counter table (05_threads_control R97, R101, R114). -/

namespace Sys2Proof.Machine

/-! ## Yields and naps -/

section
variable {s : State} {g : Nat} {gr : Group}

/-- Lanes of a group go to the next clause, and some of them wait there, each in a state of its own. -/
def State.waitEach (s : State) (g : Nat) (gr : Group) (ex : List (Nat × Nat)) (e : Nat × Nat → Entry) : State :=
  (s.endClause g gr fun _ => (gr.clauseEnd, none)).modEach ex fun x L => { L with entry := e x, oldCode := [] }

theorem State.onlyThreads_waitEach (s : State) (g : Nat) (gr : Group) (ex : List (Nat × Nat)) (e : Nat × Nat → Entry) :
    s.onlyThreads (s.waitEach g gr ex e) :=
  State.onlyThreads_trans (s.onlyThreads_endClause g gr _) (State.onlyThreads_modEach _ _ _)

/-- Executing lanes wait at the next clause, the others are runnable there. -/
theorem State.lane_waitEach (h : s.Stands gr) (g : Nat) (pr : Pred) (e : Nat × Nat → Entry) {x : Nat × Nat} (hx : x ∈ gr.lanes) :
    ((s.waitEach g gr (s.execs gr pr) e).lane x.1 x.2).pc = gr.clauseEnd ∧
      ((s.waitEach g gr (s.execs gr pr) e).lane x.1 x.2).entry = if s.exec? pr x then e x else .runnable := by
  let ended := s.endClause g gr fun _ => (gr.clauseEnd, none)
  have hnodup : (s.execs gr pr).Nodup := h.1.filter _
  have hended {y : Nat × Nat} (hy : y ∈ gr.lanes) : ended.Went y gr.clauseEnd := State.went_endClause h g _ hy
  have hhere (y : Nat × Nat) (hy : y ∈ s.execs gr pr) : (ended.lane y.1 y.2).here := by
    have hmem := List.mem_of_mem_filter hy
    rw [State.lane_endClause h g _ hmem]
    exact Lane.here_enter (h.here hmem) _ _ _
  obtain ⟨hentry, hpc⟩ := hended hx
  have hlane := State.lane_modEach (f := fun x L => { L with entry := e x, oldCode := [] }) hnodup hhere (fun _ _ hL => hL) x
  simp only [State.mem_execs hx] at hlane
  rw [State.waitEach, hlane]
  split <;> simp [ended, hentry, hpc]

theorem exec_xYield {o : Ops} (h : s.Ready g gr o {}) :
    exec (.xYield o) s = .next ((s.atWord g).waitEach g gr (s.execs gr o.pr) fun _ => .yielded (s.clock + 64)) :=
  (issueLane_ready h false (by simp) _).trans rfl

/-- The nanoseconds that a lane naps. -/
def State.napOf (s : State) (o : Ops) (x : Nat × Nat) : Nat := (src32 (s.warp x.1) (s.lane x.1 x.2) o.a).toNat

theorem exec_xNap {o : Ops} (h : s.Ready g gr o {}) :
    exec (.xNap o) s = .next ((s.atWord g).waitEach g gr (s.execs gr o.pr) fun x =>
      if s.napOf o x = 0 then .yielded (s.clock + 64) else .napping (s.timeAt gr.core + s.napOf o x)) := by
  let held (clock : Nat) (x : Nat × Nat) (L : Lane) : Lane :=
    { L with
      entry := if s.napOf o x = 0 then .yielded (clock + Config.yieldCycles) else .napping (s.timeAt gr.core + s.napOf o x)
      oldCode := [] }
  let ended := (s.atWord g).endClause g gr fun _ => (gr.clauseEnd, none)
  have hclock : ended.clock = (s.atWord g).clock :=
    (congrArg State.clock (State.onlyThreads_endClause (s.atWord g) g gr _)).trans rfl
  have hfold := State.foldl_modLane_clock held (s.execs gr o.pr) ended
  rw [hclock] at hfold
  refine (issueLane_ready h false (by simp) _).trans ?_
  dsimp only
  rw [List.foldl_map]
  exact congrArg _ hfold

/-! ## Exits -/

/-- What is left of a group that has lost lanes goes to the next clause. -/
theorem State.ExitsKept.goOn {t : State} (h : s.ExitsKept t) (g : Nat) :
    s.ExitsKept (match t.groups.get? g with
      | some gr => t.endClause g gr fun _ => (gr.clauseEnd, none)
      | none => t) := by
  split
  · exact .endClause h
  · exact h

/-- Warps that each lead to the start of their clause, found one after another. -/
theorem foldl_points {f : State × List (Nat × Resume) → Nat → State × List (Nat × Resume)} (s : State) (ws : List Nat)
    (hf : ∀ w ∈ ws, ∀ found, f (s, found) w = (s, found ++ [(w, .start)])) :
    ws.foldl f (s, []) = (s, ws.map fun w => (w, .start)) := by
  suffices h : ∀ found, ws.foldl f (s, found) = (s, found ++ ws.map fun w => (w, .start)) from h []
  induction ws with
  | nil => simp
  | cons w ws ih =>
    intro found
    rw [List.foldl_cons, hf w (by simp), ih fun v hv => hf v (List.mem_cons_of_mem _ hv)]
    simp

/-- Where no parked helper lane leaves with them, lanes that end in a handler wait for nothing. -/
theorem resuming_ends {ls : List (Nat × Nat)} (hls : ∀ x ∈ ls, s.parkedHelpers x.1 = []) (k : List (Nat × Resume) → State → Out) :
    resuming s g gr ls true k = k ((ls.map (·.1)).dedup.map fun w => (w, .start)) (s.dropWalks gr.walkIds) := by
  unfold resuming
  extract_lets ctx pts t misses away
  have hpts : pts = (s, (ls.map (·.1)).dedup.map fun w => (w, .start)) := foldl_points _ _ fun w hw found => by
    obtain ⟨x, hx, rfl⟩ := List.mem_map.1 (List.mem_dedup.1 hw)
    simp [hls x hx]
  have hmisses : misses = [] := by simp [misses, hpts]
  have haway : away = [] := by simp [away, hpts]
  simp [hmisses, haway, t, hpts]

/-- Each lane that ends with its warps' handlers has exited. -/
theorem State.exited_leaveAll {ls : List (Nat × Nat)} (hw : ∀ x ∈ ls, (s.warps.get? x.1).isSome = true) {x : Nat × Nat}
    (hx : x ∈ ls) :
    ((s.leaveAll ls true ((ls.map (·.1)).dedup.map fun w => (w, .start))).lane x.1 x.2).life = .exited := by
  let ws := (ls.map (·.1)).dedup
  let leave (t : State) (p : Nat × Resume) : State := t.leaveHandler p.1 ((ls.filter (·.1 == p.1)).map (·.2)) true p.2
  let start (w : Nat) : Nat × Resume := (w, .start)
  obtain ⟨before, after, hws⟩ := List.append_of_mem (List.mem_dedup.2 (List.mem_map_of_mem (f := (·.1)) hx))
  have hkept (vs : List Nat) (t : State) : t.ExitsKept ((vs.map start).foldl leave t) := by
    rw [List.foldl_map]
    exact .foldl (fun _ _ hu => .leaveHandler hu) (.refl t)
  let reached := (before.map start).foldl leave s
  have hpresent := (hkept before s).present x.1 (hw x hx)
  let mine := (ls.filter (·.1 == x.1)).map fun y => (x.1, y.2)
  have hmine : x ∈ mine := List.mem_map.2 ⟨x, List.mem_filter.2 ⟨hx, by simp⟩, rfl⟩
  have hended := State.exited_endLanes (s := reached) (reached.warp x.1).block (ls := mine) (fun y hy => by
    obtain ⟨z, -, rfl⟩ := List.mem_map.1 hy
    exact hpresent) hmine
  have hleft : (reached.endLanes (reached.warp x.1).block mine).ExitsKept (leave reached (x.1, .start)) := by
    have h := State.ExitsKept.leaveHandler_ended (t := reached) (w := x.1) (ls := (ls.filter (·.1 == x.1)).map (·.2))
    rw [List.map_map] at h
    exact h
  have hrest : (leave reached (x.1, .start)).ExitsKept
      (s.leaveAll ls true ((ls.map (·.1)).dedup.map fun w => (w, .start))) := by
    unfold State.leaveAll
    rw [hws, List.map_append, List.foldl_append, List.map_cons, List.foldl_cons]
    exact .mergeResumed (hkept after _)
  exact (hleft.trans hrest).exited x.1 x.2 hended

theorem exec_xExit {o : Ops} (h : s.Ready g gr o {}) :
    exec (.xExit o) s = exitForm (s.atWord g) g gr (s.execs gr o.pr) := issueLane_ready h false (by simp) _

/-- Lanes of a group that has stopped at its word are no parked helper lanes. -/
theorem State.parkedHelpers_atWord {w : Nat} (hcur : s.current = some (g, gr)) (h : s.parkedHelpers w = []) :
    (s.atWord g).parkedHelpers w = [] := by
  have hget := State.get?_of_current hcur
  unfold State.parkedHelpers at h ⊢
  rw [List.map_eq_nil_iff, List.filter_eq_nil_iff] at h ⊢
  intro e he
  have hno := h e he
  cases hentry : e.2.entry with
  | group k =>
    simp only [hentry] at hno ⊢
    by_cases hk : k = g
    · subst hk
      have hat : (s.atWord k).groups.get? k = some { gr with park := .run } := by
        simp [State.atWord, State.modGroup, AMap.get?_modify, hget]
      simp [hat]
    · have hat : (s.atWord g).groups.get? k = s.groups.get? k := by
        simp [State.atWord, State.modGroup, AMap.get?_modify, hk]
      rw [hat]
      exact hno
  | trapped =>
    simp only [hentry] at hno ⊢
    exact hno
  | runnable | flagBlocked | fetching | napping | yielded | gone => simp

theorem State.execs_present (hs : s.Stands gr) (pr : Pred) {x : Nat × Nat} (hx : x ∈ s.execs gr pr) :
    (s.warps.get? x.1).isSome = true := (hs.here (List.mem_of_mem_filter hx)).present

/-- X.EXIT ends the lanes that execute it. -/
theorem exitForm_execs (hcur : s.current = some (g, gr)) (hs : s.Stands gr) (pr : Pred)
    (hpark : gr.handler = true → ∀ w ∈ gr.warpIds, s.parkedHelpers w = []) :
    ∃ t, exitForm (s.atWord g) g gr (s.execs gr pr) = .next t ∧ ∀ x ∈ s.execs gr pr, (t.lane x.1 x.2).life = .exited := by
  have hpresent (x : Nat × Nat) (hx : x ∈ s.execs gr pr) := State.execs_present hs pr hx
  unfold exitForm
  extract_lets rest
  have hrest (u : State) : u.ExitsKept (rest u) := (State.ExitsKept.refl u).goOn g
  by_cases hh : gr.handler = true
  · have hnone (x : Nat × Nat) (hx : x ∈ s.execs gr pr) : (s.atWord g).parkedHelpers x.1 = [] :=
      State.parkedHelpers_atWord hcur (hpark hh x.1 (Group.mem_warpIds (List.mem_of_mem_filter hx)))
    rw [if_pos hh, resuming_ends hnone]
    refine ⟨_, rfl, fun x hx => ?_⟩
    exact (hrest _).exited x.1 x.2 (State.exited_leaveAll (s := (s.atWord g).dropWalks gr.walkIds) hpresent hx)
  · rw [if_neg hh]
    refine ⟨_, rfl, fun x hx => ?_⟩
    exact (hrest _).exited x.1 x.2 (State.exited_endLanes (s := s.atWord g) gr.block hpresent hx)

end

/-! ## Events of the program-counter table -/

section
variable {s : State} {w l : Nat}

/-- A lane that waits in the table, runnable from now on. -/
theorem State.went_woken (h : s.lane w l ≠ {}) :
    let t := s.modLane w l fun L => { L with entry := .runnable, since := s.clock }
    t.Went (w, l) (s.lane w l).pc ∧ (t.lane w l).since = s.clock ∧ s.onlyThreads t := by
  intro t
  have hne : ({ s.lane w l with entry := .runnable, since := s.clock } : Lane) ≠ {} := fun h => by
    simpa using congrArg Lane.entry h
  have hlane : t.lane w l = { s.lane w l with entry := .runnable, since := s.clock } := by
    have hmod := State.lane_modLane_of_ne (State.present_of_ne_default h)
      (f := fun L => { L with entry := .runnable, since := s.clock }) hne w l
    rwa [if_pos rfl] at hmod
  rw [State.Went, hlane]
  exact ⟨⟨rfl, rfl⟩, rfl, s.onlyThreads_modWarp _ _⟩

theorem Lane.ne_default_of_entry {L : Lane} (h : L.entry ≠ .gone) : L ≠ {} := by
  rintro rfl
  exact h rfl

theorem exec_napWake {n : Nat} (h : (s.lane w l).entry = .napping n) (hn : n ≤ s.timeAt (s.warp w).core) :
    exec (.napWake w l) s = .next (s.modLane w l fun L => { L with entry := .runnable, since := s.clock }) := by
  dsimp only [exec]
  unfold execNapWake
  rw [h]
  simp [hn]

theorem exec_yieldExpiry {c : Nat} (h : (s.lane w l).entry = .yielded c) (hc : c ≤ s.clock) :
    exec (.yieldExpiry w l) s = .next (s.modLane w l fun L => { L with entry := .runnable, since := s.clock }) := by
  dsimp only [exec]
  unfold execYieldExpiry
  rw [h]
  simp [hc]

theorem exec_promoted (h : (s.lane w l).entry = .runnable) (hp : (s.lane w l).promoted = false)
    (hc : (s.lane w l).since + 1024 < s.clock) :
    exec (.promoted w l) s = .next ((s.modLane w l fun L => { L with promoted := true }).count (s.warp w).core (s.warp w).sub
      0x05 1 (s.block (s.warp w).block).ctx) := by
  dsimp only [exec]
  unfold execPromoted
  simp [h, hp, Config.promoteCycles, hc, Entry.isRunnable]

/-- An entry that is promoted, with the count of it. -/
theorem State.promoted_counted (h : s.lane w l ≠ {}) (core sub event n ctx : Nat) :
    let t := (s.modLane w l fun L => { L with promoted := true }).count core sub event n ctx
    (t.lane w l).promoted = true ∧ t = { s with warps := t.warps, tally := t.tally } := by
  intro t
  have hne : ({ s.lane w l with promoted := true } : Lane) ≠ {} := fun h => by simpa using congrArg Lane.promoted h
  have hmod := State.lane_modLane_of_ne (State.present_of_ne_default h) (f := fun L => { L with promoted := true }) hne w l
  rw [if_pos rfl] at hmod
  refine ⟨(congrArg Lane.promoted hmod).trans rfl, rfl⟩

end

theorem waitsComplete {s : State} {g : Nat} {gr : Group} {o : Ops} (h : s.Ready g gr o {}) (hs : s.Stands gr) :
    (∃ t, exec (.xYield o) s = .next t ∧ s.onlyThreads t ∧ ∀ x ∈ gr.lanes,
      (t.lane x.1 x.2).pc = gr.clauseEnd ∧
        (t.lane x.1 x.2).entry = if s.exec? o.pr x then .yielded (s.clock + 64) else .runnable) ∧
    ∃ t, exec (.xNap o) s = .next t ∧ s.onlyThreads t ∧ ∀ x ∈ gr.lanes,
      (t.lane x.1 x.2).pc = gr.clauseEnd ∧
        (t.lane x.1 x.2).entry = if s.exec? o.pr x then
          (if s.napOf o x = 0 then .yielded (s.clock + 64) else .napping (s.timeAt gr.core + s.napOf o x)) else .runnable := by
  have honly (e : Nat × Nat → Entry) := State.onlyThreads_trans (s.onlyThreads_atWord g)
    (State.onlyThreads_waitEach (s.atWord g) g gr (s.execs gr o.pr) e)
  exact ⟨⟨_, exec_xYield h, honly _, fun x hx => State.lane_waitEach (hs.atWord g) g o.pr _ hx⟩,
    ⟨_, exec_xNap h, honly _, fun x hx => State.lane_waitEach (hs.atWord g) g o.pr _ hx⟩⟩

theorem tableEvents (s : State) (w l : Nat) :
    (∀ n, (s.lane w l).entry = .napping n → n ≤ s.timeAt (s.warp w).core →
      ∃ t, exec (.napWake w l) s = .next t ∧ t.Went (w, l) (s.lane w l).pc ∧ (t.lane w l).since = s.clock ∧ s.onlyThreads t) ∧
    (∀ c, (s.lane w l).entry = .yielded c → c ≤ s.clock →
      ∃ t, exec (.yieldExpiry w l) s = .next t ∧ t.Went (w, l) (s.lane w l).pc ∧ (t.lane w l).since = s.clock ∧
        s.onlyThreads t) ∧
    ((s.lane w l).entry = .runnable → (s.lane w l).promoted = false → (s.lane w l).since + 1024 < s.clock →
      ∃ t, exec (.promoted w l) s = .next t ∧ (t.lane w l).promoted = true ∧
        t = { s with warps := t.warps, tally := t.tally }) :=
  ⟨fun _ h hn => ⟨_, exec_napWake h hn, State.went_woken (Lane.ne_default_of_entry (by simp [h]))⟩,
    fun _ h hc => ⟨_, exec_yieldExpiry h hc, State.went_woken (Lane.ne_default_of_entry (by simp [h]))⟩,
    fun h hp hc => ⟨_, exec_promoted h hp hc, State.promoted_counted (Lane.ne_default_of_entry (by simp [h])) _ _ _ _ _⟩⟩

/-- Settles O17: the group ends its clause and its executing lanes wait; what ends lanes leaves them exited; and an event of
the table changes its lane. -/
theorem yieldsAndExits : Obligations.YieldsAndExits :=
  ⟨fun _ _ _ _ h hs => waitsComplete h hs,
    fun _ _ _ o h hs hpark =>
      have ⟨t, hexit, hlife⟩ := exitForm_execs h.current hs o.pr hpark
      ⟨t, (exec_xExit h).trans hexit, hlife⟩,
    tableEvents⟩

end Sys2Proof.Machine
end

section
/-! SUPPORT. Instructions that compute each lane by itself from what the warp's other lanes do not change; masks of lanes
(05_threads_control R108, R111). -/

namespace Sys2Proof.Machine

/-! ## Masks -/

theorem getLsbD_laneMask (ls : List Nat) (i : Nat) (hi : i < 32) : (laneMask ls).getLsbD i = decide (i ∈ ls) := by
  suffices h : ∀ m : Word, (ls.foldl (fun m l => m ||| BitVec.twoPow 32 l) m).getLsbD i = (m.getLsbD i || decide (i ∈ ls)) by
    rw [laneMask, h]
    simp
  induction ls with
  | nil => simp
  | cons l ls ih =>
    intro m
    rw [List.foldl_cons, ih, BitVec.getLsbD_or, BitVec.getLsbD_twoPow]
    by_cases h : i = l
    · subst h
      simp [hi]
    · simp [h, Ne.symm h]

/-- sr.live has a bit for each live lane. -/
theorem getLsbD_liveMask {W : Warp} (h : AMap.sorted W.lanes = true) {l : Nat} (hl : l < 32) :
    (liveMask W).getLsbD l = decide ((W.lane l).life = .live) := by
  rw [liveMask, getLsbD_laneMask _ _ hl, decide_eq_decide, List.mem_map]
  constructor
  · rintro ⟨e, he, rfl⟩
    obtain ⟨hmem, hlive⟩ := List.mem_filter.1 he
    rw [Warp.lane, AMap.getD, AMap.get?_of_mem h hmem]
    simpa using hlive
  · intro hlive
    cases hget : W.lanes.get? l with
    | none => simp [Warp.lane, AMap.getD, hget] at hlive
    | some L =>
      have hL : L.life = .live := by simpa [Warp.lane, AMap.getD, hget] using hlive
      exact ⟨(l, L), List.mem_filter.2 ⟨AMap.mem_of_get? hget, by simp [hL]⟩, rfl⟩

/-- sr.held has a low bit for each colour that the lane holds. -/
theorem getLsbD_heldBits (L : Lane) (h : L.slots.length ≤ 8) (n : Nat) (hn : n < 32) :
    (L.heldBits.setWidth 32).getLsbD n = decide (n < L.slots.length) := by
  rw [Lane.heldBits, BitVec.getLsbD_setWidth, BitVec.getLsbD_ofNat, Nat.testBit_two_pow_sub_one]
  by_cases hlt : n < L.slots.length
  · simp [hlt, hn, show n < 8 by omega]
  · simp [hlt]

/-! ## Lanes that each read their warp as it was -/

/-- What a warp is for its lanes while other lanes' registers change: the same, its lanes of the same life. -/
structure Warp.Seen (W V : Warp) : Prop where
  rest : V = { W with lanes := V.lanes }
  old : AMap.sorted W.lanes = true
  new : AMap.sorted V.lanes = true
  life : ∀ l, (V.lane l).life = (W.lane l).life

theorem State.modWarp_congr {s : State} {w : Nat} {f f' : Warp → Warp} (h : f (s.warp w) = f' (s.warp w)) :
    s.modWarp w f = s.modWarp w f' := by
  cases hw : s.warps.get? w with
  | none => rw [State.modWarp_absent _ hw, State.modWarp_absent _ hw]
  | some W =>
    rw [State.warp_of_get? hw] at h
    simp [State.modWarp, AMap.modify, hw, h]

/-- A change of one lane that keeps its life. -/
theorem State.seen_modLane {s : State} (hs : s.lanesOk) (w l : Nat) {f : Lane → Lane} (hf : ∀ L, (f L).life = L.life) (v : Nat) :
    (s.warp v).Seen ((s.modLane w l f).warp v) where
  rest := s.warp_modLane w l f v
  old := hs v
  new := State.lanesOk_modLane hs w l f v
  life k := by
    change ((s.modLane w l f).lane v k).life = (s.lane v k).life
    by_cases h : v = w ∧ k = l
    · obtain ⟨rfl, rfl⟩ := h
      cases hw : s.warps.get? v with
      | none => rw [State.modLane, State.modWarp_absent _ hw]
      | some W => rw [State.lane_modLane_same hs (by simp [hw]), hf]
    · rw [State.lane_modLane_other hs f fun hv hk => h ⟨hv, hk⟩]

/-- Lanes that compute each by itself do so from their warps as these were before the first of them. -/
theorem State.eachLane_eq_modEach {s : State} (hs : s.lanesOk) {f : Warp → Nat → Lane → Lane}
    (hlife : ∀ W l L, (f W l L).life = L.life) (hseen : ∀ W V l L, W.Seen V → f V l L = f W l L) (xs : List (Nat × Nat)) :
    s.eachLane xs f = s.modEach xs fun x => f (s.warp x.1) x.2 := by
  induction xs generalizing s with
  | nil => rfl
  | cons x xs ih =>
    let next := s.modLane x.1 x.2 (f (s.warp x.1) x.2)
    have hstep : s.modWarp x.1 (fun W => W.setLane x.2 (f W x.2 (W.lane x.2))) = next := State.modWarp_congr rfl
    have hrest : (fun y : Nat × Nat => f (next.warp y.1) y.2) = fun y => f (s.warp y.1) y.2 :=
      funext fun y => funext fun L => hseen _ _ _ _ (State.seen_modLane hs x.1 x.2 (hlife _ _) y.1)
    calc s.eachLane (x :: xs) f
      _ = next.eachLane xs f := by rw [State.eachLane, List.foldl_cons, hstep]; rfl
      _ = next.modEach xs fun y => f (next.warp y.1) y.2 := ih (State.lanesOk_modLane hs _ _ _)
      _ = s.modEach (x :: xs) fun y => f (s.warp y.1) y.2 := by rw [hrest]; rfl

theorem State.lanesOk_modEach {s : State} (h : s.lanesOk) (xs : List (Nat × Nat)) (f : Nat × Nat → Lane → Lane) :
    (s.modEach xs f).lanesOk :=
  List.foldlRecOn (motive := State.lanesOk) xs _ h fun _ ht x _ => State.lanesOk_modLane ht x.1 x.2 (f x)

theorem State.groups_modEach (s : State) (xs : List (Nat × Nat)) (f : Nat × Nat → Lane → Lane) :
    (s.modEach xs f).groups = s.groups := by rw [State.modEach_rest]

end Sys2Proof.Machine
end

section
/-! PROOFS. O14: SR.READ gives every special register (05_threads_control R111). -/

namespace Sys2Proof.Machine

/-- A lane without its place in the table, its registers and its predicates is the same. -/
theorem Lane.goneOn.getV {L L' : Lane} (h : L.goneOn L') (r : Nat) : L'.getV r = L.getV r := by
  rw [h]
  rfl

theorem Lane.life_putDW (L : Lane) (d : Dst) (w64 : Bool) (x : DWord) : (L.putDW d w64 x).life = L.life := by
  cases w64 <;> cases d <;> rfl

theorem Lane.life_zeroD (L : Lane) (d : Dst) (width : Nat) : (L.zeroD d width).life = L.life := by
  have hzero (rs : List Nat) : (rs.foldl (fun l r => l.setV r 0) L).life = L.life :=
    List.foldlRecOn (motive := fun M : Lane => M.life = L.life) rs _ rfl fun _ hM _ _ => hM
  cases d with
  | p n =>
    rw [Lane.zeroD, Lane.setP]
    split <;> rfl
  | v | s | none => exact hzero _

section
variable {s : State} {g : Nat} {gr : Group} {o : Ops} {r : SReg}

/-- What SR.READ makes of a lane. -/
def State.sregRead (s : State) (gr : Group) (o : Ops) (r : SReg) : Warp → Nat → Lane → Lane :=
  ifGood o ⟨wd r.wide, 1, 1, 1, false, []⟩ fun W l L => L.putDW o.d r.wide (s.sreg gr W l L r)

theorem State.keeps_sregRead (s : State) (gr : Group) (r : SReg) (hd : dstP o.d = []) (W : Warp) (l : Nat) {L : Lane}
    (h : AMap.sorted L.v = true) : L.keeps (s.sregRead gr o r W l L) (dstV o.d (wd r.wide)) [] := by
  unfold State.sregRead ifGood
  split
  · exact Lane.keeps_putDW h _ _ _
  · exact hd ▸ Lane.keeps_zeroD h o.d (wd r.wide)

theorem State.life_sregRead (s : State) (gr : Group) (r : SReg) (W : Warp) (l : Nat) (L : Lane) :
    (s.sregRead gr o r W l L).life = L.life := by
  unfold State.sregRead ifGood
  split
  · exact L.life_putDW _ _ _
  · exact L.life_zeroD _ _

/-- The lives of a warp's lanes are all that sr.live reads of them. -/
theorem liveMask_seen {W V : Warp} (h : W.Seen V) : liveMask V = liveMask W :=
  BitVec.eq_of_getLsbD_eq fun i hi => by rw [getLsbD_liveMask h.new hi, getLsbD_liveMask h.old hi, h.life]

theorem State.sreg_seen (s : State) (gr : Group) (r : SReg) {W V : Warp} (h : W.Seen V) (l : Nat) (L : Lane) :
    s.sreg gr V l L r = s.sreg gr W l L r := by
  have hlive := liveMask_seen h
  obtain ⟨hrest, -⟩ := h
  generalize V.lanes = lanes at hrest
  subst hrest
  cases r with
  | live => exact congrArg (·.setWidth 64) hlive
  | _ => rfl

theorem State.sregRead_seen (s : State) (gr : Group) (r : SReg) {W V : Warp} (h : W.Seen V) (l : Nat) (L : Lane) :
    s.sregRead gr o r V l L = s.sregRead gr o r W l L := by
  have hbad : V.sBad = W.sBad := by rw [h.rest]
  simp only [State.sregRead, ifGood, Warp.badReg, hbad, s.sreg_seen gr r h]

/-- SR.READ names D alone. -/
theorem srRead_operands (h : WellFormed (.srRead o r)) :
    dstP o.d = [] ∧ (⟨wd r.wide, 1, 1, 1, false, []⟩ : Widths).reads o = [] ∧
      (⟨wd r.wide, 1, 1, 1, false, []⟩ : Widths).readsS o = [] := by
  have hok : o.ok ⟨dk r.wide, .none, .none, .none⟩ = true := h
  simp only [Ops.ok, Bool.and_eq_true] at hok
  obtain ⟨⟨⟨⟨hd, ha⟩, hb⟩, hc⟩, -⟩ := hok
  have hdst : dstP o.d = [] := by
    cases hkind : o.d with
    | p n => cases hr : r.wide <;> simp [hkind, hr, dk, Dst.ok] at hd
    | v | s | none => rfl
  have hsrc {x : Src} (hx : x.ok .none = true) : x = .none := by
    cases x <;> simp [Src.ok] at hx
    rfl
  refine ⟨hdst, ?_, ?_⟩
  · simp [Widths.reads, Widths.readsV, hsrc ha, hsrc hb, hsrc hc, srcV]
  · simp [Widths.readsS, hsrc ha, hsrc hb, hsrc hc, srcS]

/-- The lanes as SR.READ leaves them, before their group goes on. -/
def State.sregDone (s : State) (g : Nat) (gr : Group) (o : Ops) (r : SReg) : State :=
  (s.atWord g).modEach (s.execs gr o.pr) fun x => s.sregRead gr o r (s.warp x.1) x.2

theorem exec_srRead (h : s.Ready g gr o ⟨wd r.wide, 1, 1, 1, false, []⟩) (hs : s.threadsOk) :
    exec (.srRead o r) s = .next ((s.sregDone g gr o r).retire g gr) := by
  have hok : (s.atWord g).lanesOk := hs.lanesOk
  have hdone : (s.atWord g).eachLane (s.execs gr o.pr) (s.sregRead gr o r) = s.sregDone g gr o r :=
    State.eachLane_eq_modEach hok (s.life_sregRead gr r) (fun W V l L h => s.sregRead_seen gr r h l L) _
  rw [← hdone]
  exact issueLane_ready h false (by simp) _

theorem State.lanesOk_sregDone (hs : s.threadsOk) : (s.sregDone g gr o r).lanesOk :=
  State.lanesOk_modEach (s := s.atWord g) hs.lanesOk _ _

theorem State.lane_sregDone (hst : s.Stands gr) (x : Nat × Nat) :
    (s.sregDone g gr o r).lane x.1 x.2 =
      if x ∈ s.execs gr o.pr then s.sregRead gr o r (s.warp x.1) x.2 (s.lane x.1 x.2) else s.lane x.1 x.2 := by
  have hnodup := hst.1
  refine State.lane_modEach (s := s.atWord g) (hnodup.filter _) (fun y hy => ?_) (fun y L hL => ?_) x
  · exact hst.here (List.mem_of_mem_filter hy)
  · rw [Lane.here, s.life_sregRead gr r]
    exact hL

/-- D of the executing lanes alone differs. -/
theorem State.changesOnly_sregDone (hs : s.threadsOk) (hst : s.Stands gr) (hd : dstP o.d = []) :
    s.changesOnly ((s.sregDone g gr o r).retire g gr)
      (fun x => if x ∈ s.execs gr o.pr then dstV o.d (wd r.wide) else []) (fun _ => []) := by
  intro w
  obtain ⟨hwarp, hlane⟩ := State.retire_movesOn (State.lanesOk_sregDone hs) g gr w
  refine ⟨hwarp.trans ?_, fun l => ⟨(s.sregDone g gr o r).lane w l, ?_, hlane l⟩⟩
  · rw [State.sregDone, State.warp_modEach]
    rfl
  · rw [State.lane_sregDone hst (w, l)]
    dsimp only
    split
    · exact s.keeps_sregRead gr r hd _ _ (hs.vSorted w l)
    · exact Lane.keeps_refl _ _ _

/-- A lane whose predicate is good has the register's value in D. -/
theorem State.goneOn_sregDone (hs : s.threadsOk) (hst : s.Stands gr) (hwf : WellFormed (.srRead o r)) {x : Nat × Nat}
    (hx : x ∈ s.execs gr o.pr) (hpr : ∀ n ∈ predReads o.pr, n ∉ (s.lane x.1 x.2).vBad) :
    ((s.lane x.1 x.2).putDW o.d r.wide (s.sreg gr (s.warp x.1) x.2 (s.lane x.1 x.2) r)).goneOn
      (((s.sregDone g gr o r).retire g gr).lane x.1 x.2) := by
  obtain ⟨-, hreads, hreadsS⟩ := srRead_operands hwf
  obtain ⟨-, hlane⟩ := State.retire_movesOn (State.lanesOk_sregDone (o := o) (r := r) (g := g) (gr := gr) hs) g gr x.1
  have hbad : (s.warp x.1).badReg (s.lane x.1 x.2) (predReads o.pr) [] = none := Warp.badReg_none hpr (by simp)
  have hgone := hlane x.2
  rw [State.lane_sregDone hst x, if_pos hx, State.sregRead, ifGood, hreads, hreadsS, List.append_nil, hbad] at hgone
  exact hgone

end

/-! ## Values of special registers -/

theorem extractLsb'_ofNat_word (n : Nat) : (BitVec.ofNat 64 n).extractLsb' 0 32 = BitVec.ofNat 32 n := by
  rw [← BitVec.setWidth_eq_extractLsb' (by omega), BitVec.setWidth_ofNat_of_le (by omega)]

theorem extractLsb'_setWidth_word {n : Nat} (x : BitVec n) : (x.setWidth 64).extractLsb' 0 32 = x.setWidth 32 := by
  rw [← BitVec.setWidth_eq_extractLsb' (by omega), BitVec.setWidth_setWidth_of_le x (by omega)]

/-- Settles O14: each executing lane's D receives what the register has, and the group is done with the word. -/
theorem specialRegisters : Obligations.SpecialRegisters := by
  intro o r s g gr hwf h hs hst
  refine ⟨_, exec_srRead h hs, ?_, State.retire_groups_congr ?_ g gr, ?_, ?_⟩
  · exact State.onlyThreads_trans (s.onlyThreads_atWord g)
      (State.onlyThreads_trans (State.onlyThreads_modEach _ _ _) (State.onlyThreads_retire _ _ _))
  · exact State.groups_modEach _ _ _
  · exact State.changesOnly_sregDone hs hst (srRead_operands hwf).1
  · intro x hx d hd hpr W B L word pair
    have hgone := State.goneOn_sregDone (g := g) hs hst hwf hx hpr
    have hv := hs.vSorted x.1 x.2
    have hword (hr : r.wide = false) : word = (s.sreg gr W x.2 L r).extractLsb' 0 32 := by
      rw [hd, hr] at hgone
      exact (hgone.getV d).trans (Lane.getV_setV_same hv d.val _)
    have hpair (hr : r.wide = true) : pair = s.sreg gr W x.2 L r := by
      rw [hd, hr] at hgone
      exact (hgone.getV64 d).trans (Lane.getV64_setV64 hv d.val _)
    have hnum {n : Nat} (hr : r.wide = false) (hval : s.sreg gr W x.2 L r = BitVec.ofNat 64 n) : word = BitVec.ofNat 32 n := by
      rw [hword hr, hval, extractLsb'_ofNat_word]
    have hmask {n : Nat} {m : BitVec n} (hr : r.wide = false) (hval : s.sreg gr W x.2 L r = m.setWidth 64) :
        word = m.setWidth 32 := by
      rw [hword hr, hval, extractLsb'_setWidth_word]
    iterate 16 refine ⟨fun hr => hnum (hr ▸ rfl) (hr ▸ rfl), ?_⟩
    refine ⟨fun hr k hk => ?_, fun hr => ?_, fun hr => ?_,
      fun hr => hnum (hr ▸ rfl) (hr ▸ rfl), fun hr hlen n hn => ?_,
      fun _ => ⟨fun hr => ?_, fun hr => ?_, fun hr => ?_, fun hr => ?_⟩⟩
    · have hval : word = (liveMask W).setWidth 32 := hmask (hr ▸ rfl) (hr ▸ rfl)
      rw [hval, BitVec.setWidth_eq, getLsbD_liveMask (hs.lanesOk x.1) hk]
      rfl
    · have hval : word = BitVec.ofNat 32 (if L.life == .helper then 1 else 0) := hnum (hr ▸ rfl) (hr ▸ rfl)
      rw [hval]
      by_cases hlife : L.life = .helper <;> simp [hlife]
    · have hval : word = L.emask.setWidth 32 := hmask (hr ▸ rfl) (hr ▸ rfl)
      rw [hval, BitVec.setWidth_eq]
    · have hval : word = L.heldBits.setWidth 32 := hmask (hr ▸ rfl) (hr ▸ rfl)
      rw [hval, getLsbD_heldBits L hlen n hn]
    · exact (hpair (hr ▸ rfl)).trans (hr ▸ rfl)
    · exact (hpair (hr ▸ rfl)).trans (hr ▸ rfl)
    · exact (hpair (hr ▸ rfl)).trans (hr ▸ rfl)
    · exact (hpair (hr ▸ rfl)).trans (hr ▸ rfl)

end Sys2Proof.Machine
end

section
/-! SUPPORT. Lanes that go on where they waited together; one entry among many (05_threads_control R120). -/

namespace Sys2Proof.Machine

/-! ## Folds in which one element acts -/

/-- A fold in which no element acts. -/
theorem foldl_same {α β : Type} {f : β → α → β} {l : List α} {b : β} (h : ∀ x ∈ l, f b x = b) : l.foldl f b = b :=
  List.foldlRecOn (motive := fun c : β => c = b) l f rfl fun _ hc x hx => hc ▸ h x hx

/-- A fold in which one element acts. -/
theorem foldl_once {α β : Type} {f : β → α → β} {l : List α} {b : β} {x : α} (hn : l.Nodup) (hx : x ∈ l)
    (hbefore : ∀ y ∈ l, y ≠ x → f b y = b) (hafter : ∀ y ∈ l, y ≠ x → f (f b x) y = f b x) : l.foldl f b = f b x := by
  obtain ⟨pre, post, rfl⟩ := List.append_of_mem hx
  rw [List.nodup_middle, List.nodup_cons, List.mem_append] at hn
  obtain ⟨hnot, -⟩ := hn
  rw [List.foldl_append, List.foldl_cons,
    foldl_same fun y hy => hbefore y (by simp [hy]) fun h => hnot (.inl (h ▸ hy)),
    foldl_same fun y hy => hafter y (by simp [hy]) fun h => hnot (.inr (h ▸ hy))]

theorem AMap.nodup_of_sorted {α : Type} {m : AMap α} (h : m.sorted = true) : m.Nodup := by
  induction m with
  | nil => exact List.nodup_nil
  | cons a m ih =>
    obtain ⟨hlt, hm⟩ := (AMap.sorted_cons a m).1 h
    exact List.nodup_cons.2 ⟨fun ha => (hlt a ha).false, ih hm⟩

/-- Another entry of a map has another key. -/
theorem AMap.key_ne {α : Type} {m : AMap α} (h : m.sorted = true) {i : Nat} {x : α} (hi : m.get? i = some x) {e : Nat × α}
    (he : e ∈ m) (hne : e ≠ (i, x)) : e.1 ≠ i := by
  rintro rfl
  have hx := (AMap.get?_of_mem h he).symm.trans hi
  exact hne (Prod.ext rfl (by simpa using hx))

theorem AMap.set_set {α : Type} (m : AMap α) (i : Nat) (x y : α) : (m.set i x).set i y = m.set i y := by
  induction m with
  | nil => simp [AMap.set]
  | cons a m ih =>
    obtain ⟨k, v⟩ := a
    by_cases hlt : i < k
    · simp [AMap.set, hlt]
    · by_cases heq : i = k
      · simp [AMap.set, heq]
      · simp [AMap.set, hlt, heq, ih]

theorem AMap.modify_modify {α : Type} (m : AMap α) (i : Nat) (f f' : α → α) :
    (m.modify i f).modify i f' = m.modify i fun x => f' (f x) := by
  cases h : m.get? i with
  | none => simp [AMap.modify, h]
  | some x => simp [AMap.modify, h, AMap.get?_set_same, AMap.set_set]

theorem AMap.mem_modify {α : Type} {m : AMap α} {i : Nat} {f : α → α} {e : Nat × α} (h : e ∈ m.modify i f) (hne : e.1 ≠ i) :
    e ∈ m := by
  unfold AMap.modify at h
  split at h
  · rcases AMap.mem_set h with rfl | hm
    · exact absurd rfl hne
    · exact hm
  · exact h

/-! ## Groups that go on -/

section
variable {s : State} {g : Nat} {gr : Group}

/-- Where one group waits at a place, and none of its lanes stays, that group goes on. -/
theorem State.resumeFrom_one {p : Park} {b : Nat} {done stay : List (Nat × Nat)} (hs : AMap.sorted s.groups = true)
    (hget : s.groups.get? g = some gr) (hp : gr.park = p) (hb : gr.block = b) (hdone : gr.lanes.any done.contains = true)
    (hstay : gr.lanes.filter stay.contains = []) (hothers : ∀ e ∈ s.groups, e.1 ≠ g → e.2.park ≠ p) :
    s.resumeFrom p b done stay = s.retire g gr := by
  have hno {e : Nat × Group} (he : e ∈ s.groups) (hne : e ≠ (g, gr)) : e.2.park ≠ p :=
    hothers e he (AMap.key_ne hs hget he hne)
  unfold State.resumeFrom
  rw [foldl_once (x := (g, gr)) (AMap.nodup_of_sorted hs) (AMap.mem_of_get? hget)]
  · simp [hp, hb, hdone, hstay]
  · intro e he hne
    simp [hno he hne]
  · intro e he hne
    simp [hno he hne]

/-- A group that is done with its word, whatever it waited for there. -/
theorem State.retire_groups_parked {t : State} {p : Park} {m : Memo}
    (h : t.groups = ((s.atWord g).parkGroup g p m).groups) :
    (t.retire g { gr with park := p, memo := m }).groups = ((s.atWord g).retire g gr).groups := by
  have hparked : t.groups = (s.atWord g).groups.modify g fun x => { x with park := p, memo := m } := h
  rw [State.retire_groups, State.retire_groups, hparked, AMap.del_modify, AMap.modify_modify]
  rfl

theorem State.get?_parked {p : Park} {m : Memo} (h : s.groups.get? g = some gr) :
    ((s.atWord g).parkGroup g p m).groups.get? g = some { gr with park := p, memo := m } := by
  simp [State.atWord, State.parkGroup, State.modGroup, State.unfocus, AMap.get?_modify, h]

theorem State.others_parked {p q : Park} {m : Memo} (h : ∀ e ∈ s.groups, e.1 ≠ g → e.2.park ≠ p) :
    ∀ e ∈ ((s.atWord g).parkGroup g q m).groups, e.1 ≠ g → e.2.park ≠ p := fun e he hne =>
  h e (AMap.mem_modify (AMap.mem_modify he hne) hne) hne

theorem State.onlyThreads_parkGroup (s : State) (g : Nat) (p : Park) (m : Memo) : s.onlyThreads (s.parkGroup g p m) := rfl

end

end Sys2Proof.Machine
end

section
/-! PROOFS. O27: barriers complete when all have arrived (05_threads_control R120). -/

namespace Sys2Proof.Machine

/-! ## The barriers of a block -/

/-- Of the module, only the barriers of a block may differ, and it has these. -/
structure State.Barred (s t : State) (b : Nat) (bars : AMap Phase) : Prop where
  rest : t = { s with blocks := t.blocks }
  present : (t.blocks.get? b).isSome = true
  block : t.block b = { s.block b with bars }

section
variable {s t : State} {b id n : Nat} {bars : AMap Phase}

theorem State.Barred.groups (h : s.Barred t b bars) : t.groups = s.groups := by rw [h.rest]

theorem State.Barred.start {B : Block} (h : s.blocks.get? b = some B) (hbars : B.bars = []) : s.Barred s b [] where
  rest := rfl
  present := by simp [h]
  block := by simp [State.block, AMap.getD, h, ← hbars]

theorem State.Barred.modBars (h : s.Barred t b bars) (f : AMap Phase → AMap Phase) :
    s.Barred (t.modBlock b fun B => { B with bars := f B.bars }) b (f bars) where
  rest := by
    rw [State.modBlock, h.rest]
  present := by
    have hpresent := h.present
    rw [State.modBlock, AMap.get?_modify]
    simpa using hpresent
  block := by
    obtain ⟨B, hB⟩ := Option.isSome_iff_exists.1 h.present
    have hblock := h.block
    rw [State.block, AMap.getD, hB] at hblock
    simp [State.block, State.modBlock, AMap.getD, AMap.get?_modify, hB] at hblock ⊢
    simp [hblock]

theorem State.Barred.liveOf (h : s.Barred t b bars) : t.liveOf b = s.liveOf b := by
  rw [State.liveOf, State.liveOf, h.block, h.rest]
  rfl

/-- The phase of a barrier, before anyone has arrived or with these. -/
def phaseOf (id n : Nat) (done : List (Nat × Nat)) : AMap Phase := if done = [] then [] else [(id, ⟨n, done⟩)]

theorem phaseOf_get (id n : Nat) (done : List (Nat × Nat)) : ((phaseOf id n done).get? id).getD { count := n } = ⟨n, done⟩ := by
  unfold phaseOf
  split
  next h => simp [h]
  next h => simp [AMap.get?]

theorem phaseOf_set (id n : Nat) (done : List (Nat × Nat)) (p : Phase) : (phaseOf id n done).set id p = [(id, p)] := by
  unfold phaseOf
  split
  next h => rfl
  next h => simp [AMap.set]

/-- One more lane arrives. -/
theorem State.Barred.arrive {done : List (Nat × Nat)} (h : s.Barred t b (phaseOf id n done)) (x : Nat × Nat) :
    s.Barred (t.modBlock b fun B => { B with bars := B.bars.set id ⟨n, done ++ [x]⟩ }) b (phaseOf id n (done ++ [x])) := by
  have hset := h.modBars fun m => m.set id ⟨n, done ++ [x]⟩
  rw [phaseOf_set] at hset
  simpa [phaseOf] using hset

/-- The phase that a lane finds as it arrives. -/
theorem State.Barred.phase {done : List (Nat × Nat)} (h : s.Barred t b (phaseOf id n done)) :
    ((t.block b).bars.get? id).getD { count := n } = ⟨n, done⟩ := by
  rw [h.block]
  exact phaseOf_get id n done

/-- Lanes that are fewer than the count, or that a barrier without a count waits for, arrive and wait. -/
theorem State.Barred.arriveBar {done : List (Nat × Nat)} (h : s.Barred t b (phaseOf id n done)) (xs : List (Nat × Nat))
    (hn : n = 0 ∨ done.length + xs.length < n) (rest : List ((Nat × Nat) × Nat)) :
    ∃ u, s.Barred u b (phaseOf id n (done ++ xs)) ∧ t.arriveBar b id (xs.map (fun x => (x, n)) ++ rest) = u.arriveBar b id rest := by
  induction xs generalizing t done with
  | nil => exact ⟨t, by simpa using h, rfl⟩
  | cons x xs ih =>
    have hopen : (n != 0 && decide (n ≤ (done ++ [x]).length)) = false := by
      rcases hn with rfl | hn
      · rfl
      · simp at hn ⊢
        omega
    obtain ⟨u, hu, harrive⟩ := ih (h.arrive x) (hn.imp_right fun hn => by simp at hn ⊢; omega)
    refine ⟨u, by simpa using hu, ?_⟩
    rw [List.map_cons, List.cons_append, State.arriveBar]
    simp only [h.phase, hopen]
    exact harrive

/-- The last of the lanes that a barrier counts arrives, and all go on. -/
theorem State.Barred.arriveLast {done : List (Nat × Nat)} (h : s.Barred t b (phaseOf id n done)) (x : Nat × Nat)
    (hn : done.length + 1 = n) :
    ∃ u, s.Barred u b [] ∧ t.arriveBar b id [(x, n)] = u.resumeFrom (.barrier id) b (done ++ [x]) [] := by
  have hdel := (h.arrive x).modBars fun m => m.del id
  refine ⟨_, by simpa [phaseOf, AMap.del] using hdel, ?_⟩
  have hfull : (n != 0 && decide (n ≤ (done ++ [x]).length)) = true := by
    simp
    omega
  rw [State.arriveBar]
  simp only [h.phase, hfull]
  rfl

/-- A barrier without a count that every live thread lane of its block waits at is complete. -/
theorem State.Barred.checkBars {done : List (Nat × Nat)} (h : s.Barred t b (phaseOf id 0 done)) (hdone : done ≠ [])
    (hlive : ∀ x ∈ s.liveOf b, x ∈ done) :
    ∃ u, s.Barred u b [] ∧ t.checkBars b = u.resumeFrom (.barrier id) b done [] := by
  have hbars : (t.block b).bars = [(id, ⟨0, done⟩)] := by simp [h.block, phaseOf, hdone]
  have hdel := h.modBars fun m => m.del id
  refine ⟨_, by simpa [phaseOf, hdone, AMap.del] using hdel, ?_⟩
  have hcomplete : phaseDone ⟨0, done⟩ (t.liveOf b) = true := by
    rw [h.liveOf]
    simpa [phaseDone] using hlive
  rw [State.checkBars, hbars]
  simp [hdone, hcomplete]

theorem State.checkBars_nil (h : (t.block b).bars = []) : t.checkBars b = t := by
  rw [State.checkBars, h]
  rfl

end

/-! ## B.BAR -/

section
variable {s : State} {g : Nat} {gr : Group} {w : Nat} {ls : List Nat} {o : Ops}

theorem State.Team.ne_nil {p : Pred} (h : s.Team g gr w ls p) : gr.lanes ≠ [] := by
  rw [h.lanes]
  simpa using h.someLane

/-- The group as it waits at a barrier's word. -/
def Group.waitingAt (gr : Group) (p : Park) : Group := { gr with park := p, memo := { who := gr.lanes, arrived := true } }

/-- The state in which the group waits at a barrier's word. -/
def State.waitingAt (s : State) (g : Nat) (gr : Group) (p : Park) : State :=
  (s.atWord g).parkGroup g p { who := gr.lanes, arrived := true }

theorem exec_bBar {n : Nat} (h : s.Ready g gr o {}) (ht : s.Team g gr w ls o.pr) (hm : gr.memo = {})
    (hf : s.fencedCore gr.lanes = true) (hn : ∀ l ∈ ls, (src32 (s.warp w) (s.lane w l) o.b).toNat = n) (id : Fin 16) :
    exec (.bBar o id) s = .next (((s.waitingAt g gr (.barrier id.val)).arriveBar gr.block id.val
      (gr.lanes.map fun x => (x, n))).checkBars gr.block) := by
  have hcount : (gr.lanes.map fun x : Nat × Nat => (x, (src32 (s.warp x.1) (s.lane x.1 x.2) o.b).toNat)) =
      gr.lanes.map fun x => (x, n) := List.map_congr_left fun x hx => by
    obtain ⟨rfl, hl⟩ := ht.mem_lanes hx
    rw [hn _ hl]
  have hfenced : (s.atWord g).fencedCore gr.lanes = true := hf
  refine (issueLane_ready h false (by simp) _).trans ?_
  dsimp only
  rw [State.atWord_execThreads, ht.execThreads, if_neg ht.ne_nil, hfenced, hm, ← hcount]
  rfl

/-- The group that waits at a barrier's word goes on with it, where the lanes that have arrived are its own. -/
theorem State.resumeFrom_waiting {p : Park} {t : State} (hcur : s.current = some (g, gr)) (hs : s.threadsOk)
    (hne : gr.lanes ≠ []) (hothers : ∀ e ∈ s.groups, e.1 ≠ g → e.2.park ≠ p)
    (ht : t.groups = (s.waitingAt g gr p).groups) :
    t.resumeFrom p gr.block gr.lanes [] = t.retire g (gr.waitingAt p) := by
  obtain ⟨-, hgroups, -⟩ := hs
  have hsorted : AMap.sorted (s.waitingAt g gr p).groups = true := AMap.sorted_modify _ _ (AMap.sorted_modify _ _ hgroups)
  have hget : (s.waitingAt g gr p).groups.get? g = some (gr.waitingAt p) := State.get?_parked (State.get?_of_current hcur)
  refine State.resumeFrom_one (ht ▸ hsorted) (ht ▸ hget) rfl rfl ?_ ?_ (ht ▸ State.others_parked hothers)
  · obtain ⟨x, hx⟩ := List.exists_mem_of_ne_nil _ hne
    exact List.any_eq_true.2 ⟨x, hx, by simpa using hx⟩
  · simp

/-- Where the group has gone on with the barrier's word, and the barriers stand at their start, B.BAR is complete. -/
theorem State.Barred.complete {t : State} {p : Park} (h : (s.waitingAt g gr p).Barred t gr.block []) :
    let u := t.retire g (gr.waitingAt p)
    u.groups = ((s.atWord g).retire g gr).groups ∧ (u.block gr.block).bars = [] ∧
      u = { s with warps := u.warps, groups := u.groups, focus := u.focus, blocks := u.blocks } := by
  intro u
  have hrest := h.rest
  have hu : t.onlyThreads u := State.onlyThreads_retire _ _ _
  have hgroups : t.groups = (s.waitingAt g gr p).groups := h.groups
  refine ⟨State.retire_groups_parked hgroups, ?_, ?_⟩
  · have hblock : u.block gr.block = t.block gr.block := by
      rw [hu]
      rfl
    rw [hblock, h.block]
  · rw [hu, hrest]
    rfl

/-- B.BAR is complete as the last lane of the group arrives, by its count or with every live lane of the block. -/
theorem bBar_completes {B : Block} (h : s.Ready g gr o {}) (ht : s.Team g gr w ls o.pr) (hm : gr.memo = {})
    (hB : s.blocks.get? gr.block = some B) (hbars : B.bars = []) (hf : s.fencedCore gr.lanes = true) (id : Fin 16)
    (hothers : ∀ e ∈ s.groups, e.1 ≠ g → e.2.park ≠ .barrier id.val)
    (hall : (∀ l ∈ ls, (src32 (s.warp w) (s.lane w l) o.b).toNat = ls.length) ∨
      ((∀ l ∈ ls, src32 (s.warp w) (s.lane w l) o.b = 0) ∧ ∀ x ∈ s.liveOf gr.block, x ∈ gr.lanes)) :
    ∃ t, (s.waitingAt g gr (.barrier id.val)).Barred t gr.block [] ∧
      exec (.bBar o id) s = .next (t.retire g (gr.waitingAt (.barrier id.val))) := by
  have hstart : (s.waitingAt g gr (.barrier id.val)).Barred (s.waitingAt g gr (.barrier id.val)) gr.block [] :=
    State.Barred.start hB hbars
  have hresume {t : State} (hbarred : (s.waitingAt g gr (.barrier id.val)).Barred t gr.block []) :
      t.resumeFrom (.barrier id.val) gr.block gr.lanes [] = t.retire g (gr.waitingAt (.barrier id.val)) :=
    State.resumeFrom_waiting h.current ht.forms ht.ne_nil hothers hbarred.groups
  rcases hall with hcount | ⟨hzero, hlive⟩
  · have hexec := exec_bBar h ht hm hf hcount id
    obtain ⟨front, last, hlanes⟩ := (List.eq_nil_or_concat' gr.lanes).resolve_left ht.ne_nil
    have hlen : front.length + 1 = ls.length := by
      simpa [ht.lanes] using (congrArg List.length hlanes).symm
    obtain ⟨u, hu, harrive⟩ := State.Barred.arriveBar (n := ls.length) (id := id.val) (done := []) hstart front
      (.inr (by simp; omega)) [(last, ls.length)]
    obtain ⟨t, hbarred, hlast⟩ := State.Barred.arriveLast hu last (by simpa using hlen)
    have hgone : (t.retire g (gr.waitingAt (.barrier id.val))).checkBars gr.block = t.retire g (gr.waitingAt (.barrier id.val)) :=
      State.checkBars_nil hbarred.complete.2.1
    refine ⟨t, hbarred, hexec.trans ?_⟩
    rw [hlanes, List.map_append, List.map_singleton, harrive, hlast, List.nil_append, ← hlanes, hresume hbarred, hgone]
  · have hexec := exec_bBar (n := 0) h ht hm hf (fun l hl => by rw [hzero l hl]; rfl) id
    obtain ⟨u, hu, harrive⟩ := State.Barred.arriveBar (n := 0) (id := id.val) (done := []) hstart gr.lanes (.inl rfl) []
    obtain ⟨t, hbarred, hcheck⟩ := State.Barred.checkBars hu ht.ne_nil hlive
    refine ⟨t, hbarred, hexec.trans ?_⟩
    rw [List.append_nil] at harrive
    rw [harrive, State.arriveBar, hcheck, ← hresume hbarred]
    rfl

/-! ## B.CBAR -/

/-- Where no line is held for a partial, none is pushed. -/
theorem State.pushAll_none {core : Nat} (h : ∀ e ∈ s.caches, e.2.st ≠ .u) : s.pushAll core = s :=
  foldl_same fun e he => if_neg fun hu => h e he hu.2

/-- The state in which the group's lanes have arrived at a cluster barrier. -/
def State.arrivedAt (s : State) (g : Nat) (gr : Group) (key id : Nat) : State :=
  { s.waitingAt g gr (.cbarrier id) with cbars := s.cbars.set key ⟨0, gr.lanes⟩ }

theorem exec_bCbar {B : Block} (h : s.Ready g gr o {}) (ht : s.Team g gr w ls o.pr) (hm : gr.memo = {})
    (hB : s.block gr.block = B) (hbars : s.cbars = []) (hrun : gr.park = .run) (hcaches : ∀ e ∈ s.caches, e.2.st ≠ .u)
    (hf : s.fencedWide gr.core gr.lanes (s.pushedBy gr.core) = true) (id : Fin 4) :
    exec (.bCbar o id) s =
      .next ((s.arrivedAt g gr (cbarKey B.launch B.cluster id.val) id.val).checkCbars gr.block) := by
  have hpush : (s.atWord g).pushAll gr.core = s.atWord g := State.pushAll_none hcaches
  have hfenced : (s.atWord g).fencedWide gr.core gr.lanes ((s.atWord g).pushedBy gr.core) = true := hf
  have hnone : (s.atWord g).cbars = [] := hbars
  have hblock : (s.atWord g).block gr.block = B := hB
  have hfirst : (Park.run != Park.arrive true) = true := rfl
  refine (issueLane_ready h false (by simp) _).trans ?_
  dsimp only
  rw [State.atWord_execThreads, ht.execThreads, if_neg ht.ne_nil, hrun, hfirst, if_pos rfl, if_pos rfl, hpush, hfenced, hnone,
    hblock, hm, Bool.not_true, if_neg Bool.false_ne_true]
  rfl

/-- The barriers of one cluster have keys of their own. -/
theorem cbarKey_inj {launch cluster i j : Nat} (h : cbarKey launch cluster i = cbarKey launch cluster j) : i = j := by
  unfold cbarKey at h
  omega

/-- One barrier of a cluster completes where every live thread lane of the cluster has arrived. -/
def State.checkCbar (launch cluster : Nat) (s : State) (id : Nat) : State :=
  match s.cbars.get? (cbarKey launch cluster id) with
  | some p =>
    if ((s.clusterOf launch cluster).flatMap s.liveOf).all p.arrived.contains then
      (s.clusterOf launch cluster).foldl (fun s b => s.resumeFrom (.cbarrier id) b p.arrived [])
        { s with cbars := s.cbars.del (cbarKey launch cluster id) }
    else s
  | none => s

theorem State.checkCbars_eq_foldl (s : State) (b : Nat) :
    s.checkCbars b = (List.range 4).foldl (State.checkCbar (s.block b).launch (s.block b).cluster) s := rfl

theorem State.checkCbar_none {launch cluster id : Nat} (h : s.cbars.get? (cbarKey launch cluster id) = none) :
    s.checkCbar launch cluster id = s := by
  rw [State.checkCbar, h]

/-- A barrier of a cluster of one block. -/
theorem State.checkCbar_all {launch cluster id b : Nat} {p : Phase} (h : s.cbars.get? (cbarKey launch cluster id) = some p)
    (hone : s.clusterOf launch cluster = [b]) (hlive : ∀ x ∈ s.liveOf b, x ∈ p.arrived) :
    s.checkCbar launch cluster id =
      ({ s with cbars := s.cbars.del (cbarKey launch cluster id) } : State).resumeFrom (.cbarrier id) b p.arrived [] := by
  have hall : ([b].flatMap s.liveOf).all p.arrived.contains = true := by simpa using hlive
  rw [State.checkCbar, h, hone]
  simp only [hall]
  rfl

/-- The only barrier of its cluster that anyone waits at is complete where every live thread lane does. -/
theorem State.checkCbars_one {t : State} {b id launch cluster : Nat} {done : List (Nat × Nat)} {u : State} (hid : id < 4)
    (hlaunch : (t.block b).launch = launch) (hcluster : (t.block b).cluster = cluster)
    (hbars : t.cbars = [(cbarKey launch cluster id, ⟨0, done⟩)]) (hone : t.clusterOf launch cluster = [b])
    (hlive : ∀ x ∈ t.liveOf b, x ∈ done)
    (hu : ({ t with cbars := [] } : State).resumeFrom (.cbarrier id) b done [] = u) (hnone : u.cbars = []) :
    t.checkCbars b = u := by
  have hact : t.checkCbar launch cluster id = u := by
    rw [State.checkCbar_all (p := ⟨0, done⟩) (by simp [hbars, AMap.get?]) hone hlive, hbars, ← hu]
    simp [AMap.del]
  rw [State.checkCbars_eq_foldl, hlaunch, hcluster, foldl_once List.nodup_range (List.mem_range.2 hid), hact]
  · intro j _ hj
    have hkey : cbarKey launch cluster j ≠ cbarKey launch cluster id := fun h => hj (cbarKey_inj h)
    exact State.checkCbar_none (by simp [hbars, AMap.get?, hkey])
  · intro j _ hj
    rw [hact]
    exact State.checkCbar_none (by simp [hnone])

/-- B.CBAR is complete as the last lanes of its cluster arrive. -/
theorem bCbar_completes {B : Block} (h : s.Ready g gr o {}) (ht : s.Team g gr w ls o.pr) (hm : gr.memo = {})
    (hB : s.block gr.block = B) (hbars : s.cbars = []) (hrun : gr.park = .run) (hcaches : ∀ e ∈ s.caches, e.2.st ≠ .u)
    (hf : s.fencedWide gr.core gr.lanes (s.pushedBy gr.core) = true) (id : Fin 4)
    (hothers : ∀ e ∈ s.groups, e.1 ≠ g → e.2.park ≠ .cbarrier id.val)
    (hone : s.clusterOf B.launch B.cluster = [gr.block]) (hlive : ∀ x ∈ s.liveOf gr.block, x ∈ gr.lanes) :
    exec (.bCbar o id) s =
      .next ((s.waitingAt g gr (.cbarrier id.val)).retire g (gr.waitingAt (.cbarrier id.val))) := by
  let waiting := s.waitingAt g gr (.cbarrier id.val)
  have hnone : waiting.cbars = [] := hbars
  have hback : ({ s.arrivedAt g gr (cbarKey B.launch B.cluster id.val) id.val with cbars := [] } : State) = waiting := by
    rw [← hnone]
    rfl
  have hresume : waiting.resumeFrom (.cbarrier id.val) gr.block gr.lanes [] =
      waiting.retire g (gr.waitingAt (.cbarrier id.val)) :=
    State.resumeFrom_waiting h.current ht.forms ht.ne_nil hothers rfl
  have hcbars : (waiting.retire g (gr.waitingAt (.cbarrier id.val))).cbars = [] := by
    rw [State.onlyThreads_retire waiting]
    exact hnone
  rw [exec_bCbar h ht hm hB hbars hrun hcaches hf id]
  refine congrArg _ (State.checkCbars_one (t := s.arrivedAt g gr (cbarKey B.launch B.cluster id.val) id.val) id.isLt
    (congrArg Block.launch hB) (congrArg Block.cluster hB) ?_ hone hlive ?_ hcbars)
  · change s.cbars.set _ _ = _
    rw [hbars]
    rfl
  · rw [hback, hresume]

end

/-- Settles O27: the group's arrival completes the barrier, and the group alone goes on. -/
theorem barriersComplete : Obligations.BarriersComplete := by
  intro o s g gr w ls B h ht hm hB _ hf
  refine ⟨fun id hbars hothers hall => ?_, fun id hbars hothers hone hlive hrun hcaches hwide => ?_⟩
  · obtain ⟨t, hbarred, hexec⟩ := bBar_completes h ht hm hB hbars hf id hothers hall
    exact ⟨_, hexec, hbarred.complete⟩
  · have hblock : s.block gr.block = B := by simp [State.block, AMap.getD, hB]
    refine ⟨_, bCbar_completes h ht hm hblock hbars hrun hcaches hwide id hothers hone hlive,
      State.retire_groups_parked rfl, ?_, ?_⟩
    · rw [State.onlyThreads_retire (s.waitingAt g gr (.cbarrier id.val))]
      exact hbars
    · exact State.onlyThreads_trans (s.onlyThreads_atWord g)
        (State.onlyThreads_trans ((s.atWord g).onlyThreads_parkGroup g _ _) (State.onlyThreads_retire _ _ _))

end Sys2Proof.Machine
end

section
/-! SUPPORT. A meeting that lanes of one warp complete among themselves (05_threads_control R105 to R108). -/

namespace Sys2Proof.Machine

/-! ## Numbers in order, and one entry of a map -/

theorem insertBy_eq_orderedInsert (x : Nat) (l : List Nat) : insertBy id x l = l.orderedInsert (· ≤ ·) x := by
  induction l with
  | nil => rfl
  | cons y l ih => simp [insertBy, List.orderedInsert, ih]

theorem sortNat_eq_insertionSort (l : List Nat) : sortNat l = l.insertionSort (· ≤ ·) := by
  induction l with
  | nil => rfl
  | cons x l ih => rw [List.insertionSort_cons, ← ih, ← insertBy_eq_orderedInsert]; rfl

theorem pairwise_of_sortNat {l : List Nat} (h : sortNat l = l) : l.Pairwise (· ≤ ·) := by
  rw [← h, sortNat_eq_insertionSort]
  exact List.pairwise_insertionSort _ _

theorem sortNat_filter {l : List Nat} (h : sortNat l = l) (p : Nat → Bool) : sortNat (l.filter p) = l.filter p := by
  rw [sortNat_eq_insertionSort]
  exact ((pairwise_of_sortNat h).filter p).insertionSort_eq

theorem AMap.filter_one {α : Type} {m : AMap α} {i : Nat} {x : α} {p : Nat × α → Bool} (h : m.sorted = true)
    (hi : m.get? i = some x) (hp : p (i, x) = true) (hothers : ∀ e ∈ m, e.1 ≠ i → p e = false) : m.filter p = [(i, x)] := by
  have hno {e : Nat × α} (he : e ∈ m) (hne : e ≠ (i, x)) : p e = false := hothers e he (AMap.key_ne h hi he hne)
  have hn := AMap.nodup_of_sorted h
  obtain ⟨pre, post, hm⟩ := List.append_of_mem (AMap.mem_of_get? hi)
  rw [hm, List.nodup_middle, List.nodup_cons, List.mem_append] at hn
  obtain ⟨hnot, -⟩ := hn
  have hpre : pre.filter p = [] := List.filter_eq_nil_iff.2 fun e he => by
    simp [hno (hm ▸ by simp [he]) fun heq => hnot (.inl (heq ▸ he))]
  have hpost : post.filter p = [] := List.filter_eq_nil_iff.2 fun e he => by
    simp [hno (hm ▸ by simp [he]) fun heq => hnot (.inr (heq ▸ he))]
  rw [hm, List.filter_append, List.filter_cons, if_pos hp, hpre, hpost]
  rfl

/-- The entry of a map whose entries each change in their places. -/
theorem AMap.get?_map_of_key {α : Type} {m : AMap α} {f : Nat × α → Nat × α} (hf : ∀ e, (f e).1 = e.1) (h : m.sorted = true)
    {i : Nat} {x : α} (hi : m.get? i = some x) : AMap.get? (m.map f) i = some (f (i, x)).2 := by
  have hmem : f (i, x) ∈ m.map f := List.mem_map_of_mem (AMap.mem_of_get? hi)
  have hkey : (i, (f (i, x)).2) = f (i, x) := Prod.ext (hf (i, x)).symm rfl
  exact AMap.get?_of_mem (AMap.sorted_map hf h) (hkey ▸ hmem)

/-! ## Lanes of a warp that change each in a way of its own -/

def Warp.modEach (W : Warp) (ls : List Nat) (f : Nat → Lane → Lane) : Warp := ls.foldl (fun V l => V.modLane l (f l)) W

theorem Warp.modEach_rest (W : Warp) (ls : List Nat) (f : Nat → Lane → Lane) :
    W.modEach ls f = { W with lanes := (W.modEach ls f).lanes } :=
  List.foldlRecOn (motive := fun V : Warp => V = { W with lanes := V.lanes }) ls _ rfl
    fun V hV l _ => by rw [Warp.modLane, Warp.setLane, hV]

theorem Warp.lane_modEach {W : Warp} {ls : List Nat} {f : Nat → Lane → Lane} (hn : ls.Nodup)
    (hf : ∀ l ∈ ls, f l (W.lane l) ≠ {}) (k : Nat) :
    (W.modEach ls f).lane k = if k ∈ ls then f k (W.lane k) else W.lane k := by
  induction ls generalizing W with
  | nil => simp [Warp.modEach]
  | cons l ls ih =>
    obtain ⟨hnot, hn⟩ := List.nodup_cons.1 hn
    have hstep (j : Nat) : (W.modLane l (f l)).lane j = if j = l then f l (W.lane l) else W.lane j :=
      Warp.lane_setLane_of_ne W l (hf l (by simp)) j
    have hcons : W.modEach (l :: ls) f = (W.modLane l (f l)).modEach ls f := rfl
    rw [hcons, ih hn fun j hj => ?_, hstep]
    · by_cases hk : k = l
      · subst hk
        simp [hnot]
      · simp [hk]
    · rw [hstep, if_neg fun h : j = l => hnot (h ▸ hj)]
      exact hf j (List.mem_cons_of_mem _ hj)

end Sys2Proof.Machine
end

section
/-! SUPPORT. What is so while lanes of a warp meet (05_threads_control R105 to R107, R404). -/

namespace Sys2Proof.Machine

/-! ## A meeting under way -/

/-- While a group's lanes meet: the group stands as G, no other of its block meets at its word, nothing is counted there, the
lanes of warp w that have met are as P says, and the others as they were but for their credits. -/
structure State.Underway (s : State) (g w : Nat) (P : Nat → Lane → Prop) (t : State) (G : Group) (met : List Nat) : Prop where
  only : s.onlyThreads t
  sorted : AMap.sorted t.groups = true
  group : t.groups.get? g = some G
  alone : ∀ e ∈ t.groups, e.1 ≠ g → e.2.block = G.block → e.2.atMeeting G.pc = false
  present : (t.warps.get? w).isSome = true
  warp : t.warp w = { s.warp w with lanes := (t.warp w).lanes, counts := (t.warp w).counts }
  uncounted : ∀ l, (G.pc, l) ∉ (t.warp w).counts
  fresh : ∀ l, l ∉ met → t.lane w l = { s.lane w l with credit := (t.lane w l).credit }
  done : ∀ l ∈ met, P l (t.lane w l)

namespace State.Underway

section
variable {s t : State} {g w : Nat} {P : Nat → Lane → Prop} {G : Group} {met : List Nat}

theorem modGroup (h : s.Underway g w P t G met) (f : Group → Group) (hpc : (f G).pc = G.pc) (hblock : (f G).block = G.block) :
    s.Underway g w P (t.modGroup g f) (f G) met where
  only := State.onlyThreads_trans h.only (State.onlyThreads_modGroup _ _ _)
  sorted := AMap.sorted_modify _ _ h.sorted
  group := by
    have hget := h.group
    simp [State.modGroup, AMap.get?_modify, hget]
  alone e he hne := by
    rw [hpc, hblock]
    exact h.alone e (AMap.mem_modify he hne) hne
  present := h.present
  warp := h.warp
  uncounted := hpc ▸ h.uncounted
  fresh := h.fresh
  done := h.done

/-- Groups that change in their places, the others so that they meet at the word no more than before. -/
theorem mapGroups (h : s.Underway g w P t G met) {f : Nat × Group → Nat × Group} (hkey : ∀ e, (f e).1 = e.1)
    (hpc : (f (g, G)).2.pc = G.pc) (hblock : (f (g, G)).2.block = G.block)
    (hf : ∀ e, e.1 ≠ g → (f e).2.block = e.2.block ∧ (e.2.atMeeting G.pc = false → (f e).2.atMeeting G.pc = false)) :
    s.Underway g w P { t with groups := t.groups.map f } (f (g, G)).2 met where
  only := State.onlyThreads_trans h.only rfl
  sorted := AMap.sorted_map hkey h.sorted
  group := AMap.get?_map_of_key hkey h.sorted h.group
  alone e he hne := by
    obtain ⟨d, hd, rfl⟩ := List.mem_map.1 he
    rw [hkey] at hne
    obtain ⟨hsame, hmeets⟩ := hf d hne
    rw [hpc, hblock, hsame]
    exact fun hb => hmeets (h.alone d hd hne hb)
  present := h.present
  warp := h.warp
  uncounted := hpc ▸ h.uncounted
  fresh := h.fresh
  done := h.done

theorem wakeMeetings (h : s.Underway g w P t G met) (hp : G.park ≠ .meeting) (v : Nat) :
    s.Underway g w P (t.wakeMeetings v) G met := by
  refine (congrArg (fun X => s.Underway g w P (t.wakeMeetings v) X met) ?_).mp (h.mapGroups (f := fun e =>
    if e.2.park = .meeting ∧ e.2.lanes.any (·.1 == v) then
      (e.1, { e.2 with park := .run, memo := { e.2.memo with asked := true } }) else e) (fun e => ?_) ?_ ?_ fun e _ => ?_)
  · simp [hp]
  · dsimp only
    split <;> rfl
  · simp [hp]
  · simp [hp]
  · dsimp only
    split
    next hm => simp [Group.atMeeting, Group.meets, hm.1]
    next => exact ⟨rfl, id⟩

/-- The warp changes in its lanes and its counts. -/
theorem modWarp (h : s.Underway g w P t G met) {met' : List Nat} {f : Warp → Warp}
    (hrest : f (t.warp w) = { t.warp w with lanes := (f (t.warp w)).lanes, counts := (f (t.warp w)).counts })
    (hcounts : ∀ l, (G.pc, l) ∉ (f (t.warp w)).counts)
    (hfresh : ∀ l, l ∉ met' → (f (t.warp w)).lane l = { s.lane w l with credit := ((f (t.warp w)).lane l).credit })
    (hdone : ∀ l ∈ met', P l ((f (t.warp w)).lane l)) : s.Underway g w P (t.modWarp w f) G met' := by
  have hwarp : (t.modWarp w f).warp w = f (t.warp w) := State.warp_modWarp_same f h.present
  have hlane (l : Nat) : (t.modWarp w f).lane w l = (f (t.warp w)).lane l := by rw [State.lane, hwarp]
  refine ⟨State.onlyThreads_trans h.only (t.onlyThreads_modWarp w f), h.sorted, h.group, h.alone, ?_, ?_, ?_, ?_, ?_⟩
  · rw [State.isSome_modWarp]
    exact h.present
  · rw [hwarp, hrest, h.warp]
  · rw [hwarp]
    exact hcounts
  · intro l hl
    rw [hlane]
    exact hfresh l hl
  · intro l hl
    rw [hlane]
    exact hdone l hl

/-- The lane is live and executes as it was and did before it met. -/
theorem exec?_eq (h : s.Underway g w P t G met) {l : Nat} (hl : l ∉ met) (pr : Pred) : t.exec? pr (w, l) = s.exec? pr (w, l) := by
  rw [State.exec?, h.fresh l hl]
  rfl

theorem isLive_eq (h : s.Underway g w P t G met) {l : Nat} (hl : l ∉ met) : t.isLive (w, l) = s.isLive (w, l) := by
  rw [State.isLive, h.fresh l hl]
  rfl

theorem meetingGroups (h : s.Underway g w P t G met) (hm : G.meets = true) : t.meetingGroups G.block G.pc = [(g, G)] := by
  refine AMap.filter_one h.sorted h.group (by simp [Group.atMeeting, hm]) fun e he hne => ?_
  cases hb : e.2.block == G.block with
  | false => rfl
  | true => simp [h.alone e he hne (by simpa using hb)]

/-- The lanes that a meeting at the word may gather are those that have not met. -/
theorem gathered (h : s.Underway g w P t G met) {ls : List Nat} {pr : Pred} (hm : G.meets = true)
    (hlanes : G.lanes = ls.map fun l => (w, l)) (hwho : G.memo.who = met.map fun l => (w, l)) (hrising : sortNat ls = ls)
    (hrun : ∀ l ∈ ls, s.isLive (w, l) = true ∧ s.exec? pr (w, l) = true) (quad : Bool) :
    t.gathered G.block G.pc pr quad w = ls.filter fun l => !met.contains l := by
  have hpart : (if quad then G.lanes else t.execThreads G pr).filter (fun x =>
      x.1 == w && !G.memo.who.contains x && (quad || !(t.warp w).counts.contains (G.pc, x.2))) =
      (ls.filter fun l => !met.contains l).map fun l => (w, l) := by
    have hmet (l : Nat) : (w, l) ∈ G.memo.who ↔ l ∈ met := by simp [hwho]
    cases quad with
    | true =>
      rw [if_pos rfl, hlanes, List.filter_map]
      exact congrArg _ (List.filter_congr fun l _ => by simp [hmet])
    | false =>
      rw [if_neg Bool.false_ne_true, State.execThreads, State.execs, hlanes, List.filter_filter, List.filter_filter, List.filter_map]
      refine congrArg _ (List.filter_congr fun l hl => ?_)
      obtain ⟨hlive, hexec⟩ := hrun l hl
      by_cases hin : l ∈ met
      · simp [hmet, hin]
      · simp [hmet, h.uncounted, hin, h.isLive_eq hin, h.exec?_eq hin, hlive, hexec]
  rw [State.gathered, h.meetingGroups hm, List.flatMap_singleton, hpart, List.map_map]
  simpa [Function.comp_def] using sortNat_filter hrising _

end

end State.Underway

end Sys2Proof.Machine
end

section
/-! SUPPORT. Lanes of one warp that complete a meeting as they arrive (05_threads_control R105 to R107, R118). -/

namespace Sys2Proof.Machine

/-! ## What a meeting does -/

/-- The lanes that a lane's mask names: those of its quad, or those that have met. -/
def meetNames (quad : Bool) (ls : List Nat) (l j : Nat) : Bool := if quad then j / 4 == l / 4 else ls.contains j

theorem meetNames_self {quad : Bool} {ls : List Nat} {l : Nat} (hl : l ∈ ls) : meetNames quad ls l l = true := by
  cases quad <;> simp [meetNames, hl]

theorem meetNames_symm {quad : Bool} {ls : List Nat} {l j : Nat} (hl : l ∈ ls) (h : meetNames quad ls l j = true) :
    meetNames quad ls j l = true := by
  cases quad
  · simp [meetNames, hl]
  · have hq : j / 4 = l / 4 := by simpa [meetNames] using h
    simp [meetNames, hq]

/-- Lanes that name one another name the same lanes. -/
theorem meetNames_congr {quad : Bool} {ls : List Nat} {l j : Nat} (h : meetNames quad ls l j = true) :
    meetNames quad ls j = meetNames quad ls l := by
  cases quad
  · rfl
  · have hq : j / 4 = l / 4 := by simpa [meetNames] using h
    funext k
    simp [meetNames, hq]

/-- Of a warp, its counts, these lanes' credits and other lanes may differ. -/
structure Warp.FreshOn (W V : Warp) (J : Nat → Bool) : Prop where
  rest : V = { W with lanes := V.lanes, counts := V.counts }
  lane : ∀ j, J j = true → V.lane j = { W.lane j with credit := (V.lane j).credit }

theorem Warp.FreshOn.src32_eq {W V : Warp} {J : Nat → Bool} (h : W.FreshOn V J) {j : Nat} (hj : J j = true) (x : Src) :
    src32 V (V.lane j) x = src32 W (W.lane j) x := by
  rw [h.lane j hj, h.rest]
  cases x <;> rfl

/-- What a meeting that lanes of a warp complete among themselves makes of each of them, as P says: their masks name the
same lanes, and what they read across is good and not still due. -/
structure State.Gives (s : State) (w : Nat) (ls : List Nat) (m : Meeting) (P : Nat → Lane → Prop) : Prop where
  mask : ∀ V l, l ∈ ls → (s.warp w).FreshOn V (meetNames m.quad ls l) →
    ∀ j, j < 32 → (m.mask V l).getLsbD j = meetNames m.quad ls l j
  same : m.quad = false → ∀ V l, l ∈ ls → (s.warp w).FreshOn V (meetNames m.quad ls l) → m.mask V l = laneMask ls
  named : ∀ l ∈ ls, ∀ j, meetNames m.quad ls l j = true → s.isLive (w, j) = true → j ∈ ls
  reads : ∀ V l, l ∈ ls → (s.warp w).FreshOn V (meetNames m.quad ls l) →
    ∀ x ∈ m.reads V l, x.2 ∉ s.pendingV w x.1 ∧ x.2 ∉ (V.lane x.1).vBad
  gives : ∀ V l, l ∈ ls → (s.warp w).FreshOn V (meetNames m.quad ls l) →
    P l (m.eff V (ls.filter (meetNames m.quad ls l)) l (V.lane l))
  live : ∀ l L, P l L → L.life = .live
  goes : ∀ l L L', P l L → L.goneOn L' → P l L'

/-- Lanes that have met have met with every lane that they name. -/
structure MetWhole (quad : Bool) (ls met : List Nat) : Prop where
  sub : met ⊆ ls
  whole : ∀ i ∈ met, ∀ j ∈ ls, meetNames quad ls i j = true → j ∈ met

theorem MetWhole.nil (quad : Bool) (ls : List Nat) : MetWhole quad ls [] := ⟨List.nil_subset _, fun _ hi => nomatch hi⟩

theorem MetWhole.append {quad : Bool} {ls met : List Nat} (h : MetWhole quad ls met) (l : Nat) :
    MetWhole quad ls (met ++ ls.filter (meetNames quad ls l)) where
  sub := List.append_subset.2 ⟨h.sub, List.filter_subset_self _⟩
  whole i hi j hj hij := by
    rcases List.mem_append.1 hi with hi | hi
    · exact List.mem_append_left _ (h.whole i hi j hj hij)
    · obtain ⟨-, hli⟩ := List.mem_filter.1 hi
      refine List.mem_append_right _ (List.mem_filter.2 ⟨hj, ?_⟩)
      rwa [← meetNames_congr hli]

/-- A lane that has not met names none that has. -/
theorem MetWhole.not_mem {quad : Bool} {ls met : List Nat} (h : MetWhole quad ls met) {l j : Nat} (hl : l ∈ ls) (hmet : l ∉ met)
    (hj : meetNames quad ls l j = true) : j ∉ met :=
  fun hin => hmet (h.whole j hin l hl (meetNames_symm hl hj))

/-- The group, parked in its meeting, of which these lanes have met. -/
def Group.metBy (gr : Group) (w : Nat) (met : List Nat) : Group :=
  { gr with park := .meeting, memo := { arrived := true, who := met.map fun l => (w, l) } }

/-- Masks that all name the same lanes gather these. -/
theorem meetTeam_all {all : List Nat} {mask : Nat → Word} {l : Nat} (hl : l ∈ all)
    (hmask : ∀ k ∈ all, ∀ j ∈ all, (mask k).getLsbD j = true) : meetTeam all mask l = all := by
  have hstep {team : List Nat} {k : Nat} (hk : k ∈ team) (hall : k ∈ all) :
      (all.filter fun j => team.any fun k => (mask k).getLsbD j || (mask j).getLsbD k) = all :=
    List.filter_eq_self.2 fun j hj => List.any_eq_true.2 ⟨k, hk, by simp [hmask k hall j hj]⟩
  have hfirst : l ∈ all.filter (· == l) := List.mem_filter.2 ⟨hl, by simp⟩
  have hrange : List.range 32 = 0 :: (List.range 31).map Nat.succ := List.range_succ_eq_map
  rw [meetTeam, hrange, List.foldl_cons, hstep hfirst hl]
  exact foldl_same fun _ _ => hstep hl hl

section
variable {s t : State} {g : Nat} {gr : Group} {w : Nat} {ls met more : List Nat} {o : Ops} {wds : Widths} {m : Meeting} {G : Group}
  {P : Nat → Lane → Prop}

theorem State.Meets.runs (h : s.Meets g gr o wds w ls) : ∀ l ∈ ls, s.isLive (w, l) = true ∧ s.exec? o.pr (w, l) = true :=
  fun l hl => ⟨h.team.isLive_of_mem hl, (h.team.run l hl).2.2⟩

theorem State.Underway.gathered_metBy (ht : s.Underway g w P t (gr.metBy w met) met) (h : s.Meets g gr o wds w ls) (quad : Bool) :
    t.gathered gr.block gr.pc o.pr quad w = ls.filter fun l => !met.contains l :=
  ht.gathered (G := gr.metBy w met) rfl h.team.lanes rfl h.rising h.runs quad

/-- The lanes that a lane which has not met names are as they were. -/
theorem State.Underway.freshOn (ht : s.Underway g w P t (gr.metBy w met) met) {quad : Bool} (hw : MetWhole quad ls met) {l : Nat}
    (hl : l ∈ ls) (hmet : l ∉ met) : (s.warp w).FreshOn (t.warp w) (meetNames quad ls l) :=
  ⟨ht.warp, fun j hj => ht.fresh j (hw.not_mem hl hmet hj)⟩

/-- A lane that has met takes part in no meeting any more. -/
theorem State.Underway.teamOf_met (ht : s.Underway g w P t (gr.metBy w met) met) (h : s.Meets g gr o wds w ls) {l : Nat}
    (hl : l ∈ met) : t.teamOf gr.block gr.pc o.pr m w l = none := by
  rw [State.teamOf, ht.gathered_metBy h]
  simp [hl]

/-- A lane that has not met meets with the lanes that it names. -/
theorem State.Underway.teamOf_open (ht : s.Underway g w P t (gr.metBy w met) met) (h : s.Meets g gr o wds w ls)
    (hm : s.Gives w ls m P) (hw : MetWhole m.quad ls met) {l : Nat} (hl : l ∈ ls) (hmet : l ∉ met) :
    t.teamOf gr.block gr.pc o.pr m w l =
      some (ls.filter (meetNames m.quad ls l), ls.filter (meetNames m.quad ls l)) := by
  have hfresh := ht.freshOn hw hl hmet
  have hmask := hm.mask _ l hl hfresh
  have hready : t.meetingReady gr.block gr.pc o.pr m.quad w (m.mask (t.warp w) l) = true := by
    rw [State.meetingReady, ht.gathered_metBy h]
    refine List.all_eq_true.2 fun j hj => ?_
    rw [hmask j (List.mem_range.1 hj)]
    cases hj : meetNames m.quad ls l j with
    | false => simp
    | true =>
      have hnot := hw.not_mem hl hmet hj
      cases hlive : t.isLive (w, j) with
      | false => simp
      | true =>
        rw [ht.isLive_eq hnot] at hlive
        simp [hm.named l hl j hj hlive, hnot]
  have hteam : (if m.quad then (ls.filter fun l => !met.contains l).filter fun j => (m.mask (t.warp w) l).getLsbD j
      else meetTeam (ls.filter fun l => !met.contains l) (m.mask (t.warp w)) l) = ls.filter (meetNames m.quad ls l) := by
    cases hq : m.quad with
    | true =>
      rw [if_pos rfl, List.filter_filter]
      refine List.filter_congr fun j hj => ?_
      rw [hmask j (h.small j hj), hq]
      cases hnames : meetNames true ls l j with
      | false => rfl
      | true =>
        have hnot : j ∉ met := hw.not_mem hl hmet (by rwa [hq])
        simp [hnot]
    | false =>
      have hnone : met = [] := List.eq_nil_iff_forall_not_mem.2 fun i hi =>
        hmet (hw.whole i hi l hl (by simp [hq, meetNames, hl]))
      subst hnone
      have hall : (ls.filter fun j => !([] : List Nat).contains j) = ls := List.filter_eq_self.2 fun _ _ => rfl
      have hnamed : ls.filter (meetNames false ls l) = ls := List.filter_eq_self.2 fun j hj => by simp [meetNames, hj]
      rw [if_neg Bool.false_ne_true, hall, hnamed]
      refine meetTeam_all hl fun k hk j hj => ?_
      rw [hm.same hq _ k hk (ht.freshOn hw hk List.not_mem_nil), getLsbD_laneMask _ _ (h.small j hj)]
      simp [hj]
  have hexec : (ls.filter (meetNames m.quad ls l)).filter (fun j => t.exec? o.pr (w, j)) = ls.filter (meetNames m.quad ls l) := by
    refine List.filter_eq_self.2 fun j hj => ?_
    obtain ⟨hin, hnames⟩ := List.mem_filter.1 hj
    rw [ht.exec?_eq (hw.not_mem hl hmet hnames)]
    exact (h.runs j hin).2
  rw [State.teamOf, ht.gathered_metBy h]
  simp only [hready, hteam, hexec]
  simp [hl, hmet]

/-- Nothing that a lane's meeting reads is in error. -/
theorem State.Underway.meetEcc_none (ht : s.Underway g w P t (gr.metBy w met) met) (h : s.Meets g gr o wds w ls)
    (hm : s.Gives w ls m P) (hw : MetWhole m.quad ls met) {ex : List Nat} (hex : ∀ j ∈ ex, j ∈ ls ∧ j ∉ met) :
    t.meetEcc o wds m w ex = none := by
  unfold State.meetEcc
  rw [Option.map_eq_none_iff, List.findSome?_eq_none_iff]
  intro l hin
  obtain ⟨hl, hmet⟩ := hex l (List.mem_of_mem_filter hin)
  have hlane : (w, l) ∈ gr.lanes := by
    rw [h.team.lanes]
    exact List.mem_map_of_mem hl
  have hthread : (w, l) ∈ s.execThreads gr o.pr := by rwa [h.team.execThreads]
  obtain ⟨hv, hs⟩ := h.ready.sound _ hthread
  have hfresh := ht.freshOn hw hl hmet
  have hbad : ((t.warp w).lane l).vBad = (s.lane w l).vBad := by
    rw [hfresh.lane l (meetNames_self hl)]
    rfl
  have hsbad : (t.warp w).sBad = (s.warp w).sBad := by rw [hfresh.rest]
  have hguard : (t.warp w).badReg ((t.warp w).lane l) (predReads o.pr) [] = none :=
    Warp.badReg_none (hbad ▸ h.ready.guard _ hlane (h.runs l hl).1) (by simp)
  have hown : (t.warp w).badReg ((t.warp w).lane l) (wds.reads o) (wds.readsS o) = none :=
    Warp.badReg_none (hbad ▸ hv) (hsbad ▸ hs)
  have hread : t.badRead o.pr (wds.reads o) (wds.readsS o) (w, l) = none := by
    simp only [State.badRead, hguard, hown]
    split <;> rfl
  have hcross : ((m.reads (t.warp w) l).findSome? fun x =>
      ((t.warp w).badReg ((t.warp w).lane x.1) [x.2] []).map (· + 256 * x.1)) = none := by
    refine List.findSome?_eq_none_iff.2 fun x hx => ?_
    obtain ⟨-, hgood⟩ := hm.reads _ l hl hfresh x hx
    rw [Warp.badReg_none (by simpa using hgood) (by simp)]
    rfl
  simp only [hread, hcross]

/-- No result that a lane's meeting reads is still due. -/
theorem State.Underway.meetNeeds_nil (ht : s.Underway g w P t (gr.metBy w met) met) (h : s.Meets g gr o wds w ls)
    (hm : s.Gives w ls m P) (hw : MetWhole m.quad ls met) {l : Nat} (hl : l ∈ ls) :
    t.meetNeeds gr.block gr.pc o.pr m w l = [] := by
  by_cases hmet : l ∈ met
  · rw [State.meetNeeds, ht.teamOf_met h hmet]
  · rw [State.meetNeeds, ht.teamOf_open h hm hw hl hmet]
    refine List.filterMap_eq_nil_iff.2 fun x hx => ?_
    obtain ⟨j, hj, hx⟩ := List.mem_flatMap.1 hx
    obtain ⟨hin, hnames⟩ := List.mem_filter.1 hj
    have hnot := hw.not_mem hl hmet hnames
    obtain ⟨hdue, -⟩ := hm.reads _ j hin (ht.freshOn hw hin hnot) x hx
    have hpending : t.pendingV w x.1 = s.pendingV w x.1 := by
      rw [ht.only]
      rfl
    simp [hpending, hdue]

/-- Lanes that have met, marked as such in their group. -/
theorem State.Underway.markMet (ht : s.Underway g w P t (gr.metBy w met) (met ++ more)) (h : s.Meets g gr o wds w ls)
    (hmore : more ⊆ ls) :
    s.Underway g w P (t.markMet gr.block gr.pc w more) (gr.metBy w (met ++ more)) (met ++ more) := by
  have hmine : (more.map fun l => (w, l)).filter gr.lanes.contains = more.map fun l => (w, l) := by
    refine List.filter_eq_self.2 fun x hx => ?_
    obtain ⟨l, hl, rfl⟩ := List.mem_map.1 hx
    simp [h.team.lanes, hmore hl]
  refine (congrArg (fun G => s.Underway g w P (t.markMet gr.block gr.pc w more) G (met ++ more)) ?_).mp
    (ht.mapGroups (f := fun e => if e.2.block == gr.block && e.2.atMeeting gr.pc then
      (e.1, { e.2 with memo := { e.2.memo with who := e.2.memo.who ++ (more.map fun l => (w, l)).filter e.2.lanes.contains } })
      else e) (fun e => ?_) ?_ ?_ fun e _ => ?_)
  · simp [Group.metBy, Group.atMeeting, Group.meets, hmine]
  · dsimp only
    split <;> rfl
  · dsimp only
    split <;> rfl
  · dsimp only
    split <;> rfl
  · dsimp only
    split
    · exact ⟨rfl, id⟩
    · exact ⟨rfl, id⟩

/-- Where nothing is counted at the word, nothing of it is used up. -/
theorem State.Underway.usedCounts (ht : s.Underway g w P t G met) (mask : Word) : t.usedCounts G.pc w mask = t := by
  have hused : ((List.range 32).filter fun j => mask.getLsbD j && (t.warp w).counts.contains (G.pc, j)) = [] :=
    List.filter_eq_nil_iff.2 fun j _ => by simp [ht.uncounted j]
  unfold State.usedCounts
  dsimp only
  rw [hused, if_pos rfl]

/-- Lanes of a meeting, each as the meeting makes it. -/
theorem State.Underway.effect (ht : s.Underway g w P t (gr.metBy w met) met) (h : s.Meets g gr o wds w ls)
    (hm : s.Gives w ls m P) (hw : MetWhole m.quad ls met) {l : Nat} (hl : l ∈ ls) (hmet : l ∉ met) :
    let team := ls.filter (meetNames m.quad ls l)
    s.Underway g w P (t.modWarp w fun V => V.modEach team (m.eff (t.warp w) team)) (gr.metBy w met) (met ++ team) := by
  intro team
  have hgives (j : Nat) (hj : j ∈ team) : P j (m.eff (t.warp w) team j ((t.warp w).lane j)) := by
    obtain ⟨hin, hnames⟩ := List.mem_filter.1 hj
    have hgives := hm.gives _ j hin (ht.freshOn hw hin (hw.not_mem hl hmet hnames))
    rwa [meetNames_congr hnames] at hgives
  have hne (j : Nat) (hj : j ∈ team) : m.eff (t.warp w) team j ((t.warp w).lane j) ≠ {} := fun hnone => by
    have hlive := hm.live _ _ (hgives j hj)
    rw [hnone] at hlive
    cases hlive
  have hlane (k : Nat) := Warp.lane_modEach (h.team.nodup.filter _) hne k
  have hrest := Warp.modEach_rest (t.warp w) team (m.eff (t.warp w) team)
  refine ht.modWarp (by rw [hrest]) (by rw [hrest]; exact ht.uncounted) (fun j hj => ?_) fun j hj => ?_
  · obtain ⟨hnot, hteam⟩ := not_or.1 fun hor => hj (List.mem_append.2 hor)
    rw [hlane, if_neg hteam]
    exact ht.fresh j hnot
  · rw [hlane]
    split
    next hteam => exact hgives j hteam
    next hteam => exact ht.done j ((List.mem_append.1 hj).resolve_right hteam)

/-- One lane's meeting: where it has not met, it meets with those that it names. -/
theorem State.Underway.tryMeet (ht : s.Underway g w P t (gr.metBy w met) met) (h : s.Meets g gr o wds w ls)
    (hm : s.Gives w ls m P) (hw : MetWhole m.quad ls met) {l : Nat} (hl : l ∈ ls) (hmet : l ∉ met) :
    let team := ls.filter (meetNames m.quad ls l)
    s.Underway g w P (t.tryMeet gr.block gr.pc o wds m w l) (gr.metBy w (met ++ team)) (met ++ team) := by
  intro team
  have hteam (j : Nat) (hj : j ∈ team) : j ∈ ls ∧ j ∉ met := by
    obtain ⟨hin, hnames⟩ := List.mem_filter.1 hj
    exact ⟨hin, hw.not_mem hl hmet hnames⟩
  have hfirst : team.headD l ∈ team := by
    have hown : l ∈ team := List.mem_filter.2 ⟨hl, meetNames_self hl⟩
    cases hcons : team with
    | nil => simp [hcons] at hown
    | cons k ks => simp
  have hagree : (team.find? fun j => !m.quad && m.mask (t.warp w) j != m.mask (t.warp w) (team.headD l)) = none := by
    refine List.find?_eq_none.2 fun j hj => ?_
    have hmask (hq : m.quad = false) (k : Nat) (hk : k ∈ team) : m.mask (t.warp w) k = laneMask ls :=
      hm.same hq _ k (hteam k hk).1 (ht.freshOn hw (hteam k hk).1 (hteam k hk).2)
    cases hq : m.quad with
    | true => simp
    | false =>
      rw [hmask hq j hj, hmask hq _ hfirst]
      simp
  have hdone := (ht.effect h hm hw hl hmet).markMet h (List.filter_subset_self _)
  unfold State.tryMeet
  rw [ht.teamOf_open h hm hw hl hmet]
  dsimp only
  rw [hagree]
  dsimp only
  rw [ht.meetNeeds_nil h hm hw hl, if_neg (not_not.2 rfl), ht.meetEcc_none h hm hw hteam]
  dsimp only
  split
  · exact hdone
  · exact (hdone.usedCounts _).symm ▸ hdone

/-- Lanes that try one after another have met in the end. -/
theorem State.Underway.tryAll (ht : s.Underway g w P t (gr.metBy w met) met) (h : s.Meets g gr o wds w ls)
    (hm : s.Gives w ls m P) (hw : MetWhole m.quad ls met) {xs : List Nat} (hxs : xs ⊆ ls) :
    ∃ met', s.Underway g w P (xs.foldl (fun t l => t.tryMeet gr.block gr.pc o wds m w l) t) (gr.metBy w met') met' ∧
      MetWhole m.quad ls met' ∧ met ⊆ met' ∧ xs ⊆ met' := by
  induction xs generalizing t met with
  | nil => exact ⟨met, ht, hw, List.Subset.refl _, List.nil_subset _⟩
  | cons l xs ih =>
    obtain ⟨hl, hxs⟩ := List.cons_subset.1 hxs
    by_cases hmet : l ∈ met
    · have hsame : t.tryMeet gr.block gr.pc o wds m w l = t := by
        unfold State.tryMeet
        rw [ht.teamOf_met h hmet]
      rw [List.foldl_cons, hsame]
      obtain ⟨met', ht', hw', hsub, hall⟩ := ih ht hw hxs
      exact ⟨met', ht', hw', hsub, List.cons_subset.2 ⟨hsub hmet, hall⟩⟩
    · obtain ⟨met', ht', hw', hsub, hall⟩ := ih (ht.tryMeet h hm hw hl hmet) (hw.append l) hxs
      obtain ⟨hbefore, hteam⟩ := List.append_subset.1 hsub
      have hown : l ∈ met' := hteam (List.mem_filter.2 ⟨hl, meetNames_self hl⟩)
      exact ⟨met', ht', hw', hbefore, List.cons_subset.2 ⟨hown, hall⟩⟩

/-! ## Arriving -/

theorem State.Meets.underway (h : s.Meets g gr o wds w ls) : s.Underway g w P (s.atWord g) { gr with park := .run } [] where
  only := s.onlyThreads_atWord g
  sorted := AMap.sorted_modify _ _ h.team.forms.2.1
  group := by
    have hget := State.get?_of_current h.ready.current
    simp [State.atWord, State.modGroup, AMap.get?_modify, hget]
  alone e he hne := h.alone e (AMap.mem_modify he hne) hne
  present := h.team.warp_isSome
  warp := rfl
  uncounted := h.uncounted
  fresh _ _ := rfl
  done _ hl := nomatch hl

theorem State.Underway.execThreads (ht : s.Underway g w P t G []) (h : s.Meets g gr o wds w ls) :
    t.execThreads gr o.pr = gr.lanes := by
  have hrun (x : Nat × Nat) (hx : x ∈ gr.lanes) : t.exec? o.pr x = true ∧ t.isLive x = true := by
    obtain ⟨hv, hl⟩ := h.team.mem_lanes hx
    obtain ⟨v, l⟩ := x
    subst hv
    obtain ⟨hlive, hexec⟩ := h.runs l hl
    exact ⟨(ht.exec?_eq List.not_mem_nil o.pr).trans hexec, (ht.isLive_eq List.not_mem_nil).trans hlive⟩
  rw [State.execThreads, State.execs, List.filter_eq_self.2 fun x hx => (hrun x hx).1,
    List.filter_eq_self.2 fun x hx => (hrun x hx).2]

theorem State.present_modEach (s : State) (xs : List (Nat × Nat)) (f : Nat × Nat → Lane → Lane) (v : Nat) :
    ((s.modEach xs f).warps.get? v).isSome = (s.warps.get? v).isSome :=
  List.foldlRecOn (motive := fun t : State => (t.warps.get? v).isSome = (s.warps.get? v).isSome) xs _ rfl
    fun t ht x _ => (t.isSome_modWarp x.1 v _).trans ht

/-- A lane whose credit has lapsed. -/
def Lane.lapsed (L : Lane) : Lane := { L with credit := none }

/-- The lanes' credits lapse. -/
theorem State.Underway.lapse (ht : s.Underway g w P t G []) (h : s.Meets g gr o wds w ls) :
    s.Underway g w P (t.eachLane gr.lanes fun _ _ => Lane.lapsed) G [] ∧
      ∀ l ∈ ls, ((t.eachLane gr.lanes fun _ _ => Lane.lapsed).lane w l).credit = none := by
  let lapsed := t.modEach gr.lanes fun _ => Lane.lapsed
  have heach : (t.eachLane gr.lanes fun _ _ => Lane.lapsed) = lapsed := rfl
  have hnodup : gr.lanes.Nodup := by
    rw [h.team.lanes]
    exact h.team.nodup.map fun _ _ heq => (Prod.mk.inj heq).2
  have hhere (x : Nat × Nat) (hx : x ∈ gr.lanes) : (t.lane x.1 x.2).here := by
    obtain ⟨hv, hl⟩ := h.team.mem_lanes hx
    rw [hv, ht.fresh x.2 List.not_mem_nil]
    simp [Lane.here, (h.team.run _ hl).1]
  have hlane (l : Nat) : lapsed.lane w l = if (w, l) ∈ gr.lanes then (t.lane w l).lapsed else t.lane w l :=
    State.lane_modEach (f := fun _ => Lane.lapsed) hnodup hhere (fun _ _ hL => hL) (w, l)
  have hwarp := State.warp_modEach t gr.lanes (fun _ => Lane.lapsed) w
  have hgroups : lapsed.groups = t.groups := State.groups_modEach _ _ _
  rw [heach]
  refine ⟨⟨State.onlyThreads_trans ht.only (State.onlyThreads_modEach _ _ _), hgroups ▸ ht.sorted, hgroups ▸ ht.group,
    hgroups ▸ ht.alone, ?_, ?_, ?_, fun l _ => ?_, fun _ hl => nomatch hl⟩, fun l hl => ?_⟩
  · exact (State.present_modEach _ _ _ _).trans ht.present
  · have hcounts : (lapsed.warp w).counts = (t.warp w).counts := by rw [hwarp]
    rw [hcounts]
    exact hwarp.trans (by rw [ht.warp])
  · rw [hwarp]
    exact ht.uncounted
  · rw [hlane, ht.fresh l List.not_mem_nil]
    split <;> rfl
  · have hin : (w, l) ∈ gr.lanes := by
      rw [h.team.lanes]
      exact List.mem_map_of_mem hl
    rw [hlane, if_pos hin]
    rfl

/-- The group parks in the meeting. -/
theorem State.Underway.park (ht : s.Underway g w P t G []) (hlanes : G = { gr with park := .run }) (h : s.Meets g gr o wds w ls) :
    s.Underway g w P (t.modGroup g fun gr => { gr with park := .meeting, memo := { gr.memo with arrived := true } })
      (gr.metBy w []) [] := by
  have hpark := ht.modGroup (fun gr => { gr with park := .meeting, memo := { gr.memo with arrived := true } }) rfl rfl
  have hmet : ({ G with park := .meeting, memo := { G.memo with arrived := true } } : Group) = gr.metBy w [] := by
    rw [hlanes, h.fresh]
    rfl
  exact hmet ▸ hpark

/-- A group of which all lanes execute counts none of them. -/
theorem State.Underway.counted_nil (ht : s.Underway g w P t (gr.metBy w []) []) (h : s.Meets g gr o wds w ls)
    (hm : s.Gives w ls m P) (hq : m.quad = false) (hcredit : ∀ l ∈ ls, (t.lane w l).credit = none) :
    ((List.range 32).filter fun j => ((t.warp w).lane j).credit == some gr.pc && !(t.warp w).counts.contains (gr.pc, j) &&
      t.pendingNames gr.block gr.pc o.pr m w j) = [] := by
  refine List.filter_eq_nil_iff.2 fun j hj hcounted => ?_
  simp only [Bool.and_eq_true] at hcounted
  obtain ⟨⟨hcred, -⟩, hnamed⟩ := hcounted
  rw [State.pendingNames, ht.gathered_metBy h] at hnamed
  obtain ⟨l, hl, hmask⟩ := List.any_eq_true.1 hnamed
  have hin : l ∈ ls := List.mem_of_mem_filter hl
  rw [hm.mask _ l hin (ht.freshOn (MetWhole.nil _ _) hin List.not_mem_nil) j (List.mem_range.1 hj), hq] at hmask
  have hj : j ∈ ls := by simpa [meetNames] using hmask
  have hnone : ((t.warp w).lane j).credit = none := hcredit j hj
  simp [hnone] at hcred

/-- What a group's arrival credits and counts in one warp of lanes that do not execute. -/
def State.creditIdle (s : State) (gr : Group) (pr : Pred) (m : Meeting) (w : Nat) : State :=
  let idle := (gr.lanesOf w).filter fun j => s.isLive (w, j) && !s.exec? pr (w, j)
  let s := s.modWarp w fun W => idle.foldl (fun W j => W.modLane j fun L => { L with credit := some gr.pc }) W
  let W := s.warp w
  let new := (List.range 32).filter fun j =>
    (W.lane j).credit == some gr.pc && !W.counts.contains (gr.pc, j) && s.pendingNames gr.block gr.pc pr m w j
  s.modWarp w fun W => { W with counts := W.counts ++ new.map fun j => (gr.pc, j) }

theorem State.arriveMeet_one {t : State} {pr : Pred} {m : Meeting} (hw : gr.warpIds = [w])
    (hex : ((t.dropCounts gr.block gr.pc pr m w).eachLane gr.lanes fun _ _ => Lane.lapsed).execThreads gr pr ≠ []) :
    t.arriveMeet g gr pr m =
      ((((t.dropCounts gr.block gr.pc pr m w).eachLane gr.lanes fun _ _ => Lane.lapsed).modGroup g fun gr =>
        { gr with park := .meeting, memo := { gr.memo with arrived := true } }).creditIdle gr pr m w) := by
  unfold State.arriveMeet
  extract_lets a dropped lapsed parked
  have hdropped : dropped = t.dropCounts gr.block gr.pc pr m w := by
    simp only [dropped, hw, List.foldl_cons, List.foldl_nil]
    rfl
  have hlapsed : lapsed = (t.dropCounts gr.block gr.pc pr m w).eachLane gr.lanes fun _ _ => Lane.lapsed := by
    simp only [lapsed, hdropped]
    rfl
  have hparked : parked = lapsed.modGroup g fun gr => { gr with park := .meeting, memo := { gr.memo with arrived := true } } :=
    if_neg (hlapsed ▸ hex)
  rw [hw, hparked, hlapsed]
  rfl

theorem State.Underway.creditIdle (ht : s.Underway g w P t (gr.metBy w []) []) (h : s.Meets g gr o wds w ls)
    (hm : s.Gives w ls m P) (hq : m.quad = false) (hcredit : ∀ l ∈ ls, (t.lane w l).credit = none) :
    s.Underway g w P (t.creditIdle gr o.pr m w) (gr.metBy w []) [] := by
  have hidle : ((gr.lanesOf w).filter fun j => t.isLive (w, j) && !t.exec? o.pr (w, j)) = [] := by
    rw [h.team.lanesOf]
    refine List.filter_eq_nil_iff.2 fun j hj => ?_
    rw [ht.exec?_eq List.not_mem_nil, (h.runs j hj).2]
    simp
  have hcredited : s.Underway g w P (t.modWarp w fun W => W) (gr.metBy w []) [] :=
    ht.modWarp rfl ht.uncounted ht.fresh fun _ hl => nomatch hl
  have hwarp : (t.modWarp w fun W => W).warp w = t.warp w := State.warp_modWarp_same (fun W => W) ht.present
  have hnew := hcredited.counted_nil h hm hq fun l hl => by
    rw [State.lane, hwarp]
    exact hcredit l hl
  have hall : s.Underway g w P ((t.modWarp w fun W => W).modWarp w fun W => { W with counts := W.counts ++ [] })
      (gr.metBy w []) [] :=
    hcredited.modWarp rfl (by simpa using hcredited.uncounted) hcredited.fresh fun _ hl => nomatch hl
  unfold State.creditIdle
  dsimp only
  rw [hidle]
  simp only [List.foldl_nil]
  rw [hnew]
  exact hall

theorem State.Underway.arriveMeet (ht : s.Underway g w P t { gr with park := .run } []) (h : s.Meets g gr o wds w ls)
    (hm : s.Gives w ls m P) (hq : m.quad = false) : s.Underway g w P (t.arriveMeet g gr o.pr m) (gr.metBy w []) [] := by
  let dropped := t.dropCounts gr.block gr.pc o.pr m w
  have hdropped : s.Underway g w P dropped { gr with park := .run } [] :=
    ht.modWarp rfl (fun l hl => ht.uncounted l (List.mem_of_mem_filter hl)) ht.fresh fun _ hl => nomatch hl
  let lapsed := dropped.eachLane gr.lanes fun _ _ => Lane.lapsed
  obtain ⟨hlapsed, hcredit⟩ := hdropped.lapse h
  let parked := lapsed.modGroup g fun gr => { gr with park := .meeting, memo := { gr.memo with arrived := true } }
  have hparked : s.Underway g w P parked (gr.metBy w []) [] := hlapsed.park rfl h
  have hthreads : lapsed.execThreads gr o.pr ≠ [] := by
    rw [hlapsed.execThreads h]
    exact h.team.ne_nil
  rw [State.arriveMeet_one h.team.warpIds hthreads]
  exact hparked.creditIdle h hm hq hcredit

end
end Sys2Proof.Machine
end

section
/-! SUPPORT. A meeting instruction that its group's lanes complete as they arrive (05_threads_control R105 to R107). -/

namespace Sys2Proof.Machine

section
variable {s t : State} {g : Nat} {gr : Group} {w : Nat} {ls met : List Nat} {o : Ops} {wds : Widths} {m : Meeting}
  {P : Nat → Lane → Prop}

theorem Warp.FreshOn.refl (W : Warp) (J : Nat → Bool) : W.FreshOn W J := ⟨rfl, fun _ _ => rfl⟩

/-- Each lane's own bit is set in its mask. -/
theorem State.Meets.ownBit_nil (h : s.Meets g gr o wds w ls) (hm : s.Gives w ls m P) :
    (s.atWord g).ownBit ((s.atWord g).execThreads gr o.pr) gr m = [] := by
  unfold State.ownBit
  split
  · rfl
  · refine List.filterMap_eq_nil_iff.2 fun v _ => ?_
    rw [Option.map_eq_none_iff, List.find?_eq_none]
    intro x hx
    rw [State.atWord_execThreads, h.team.execThreads] at hx
    obtain ⟨hv, hl⟩ := h.team.mem_lanes hx
    by_cases hxv : x.1 = v
    · have hown : (m.mask (s.warp w) x.2).getLsbD x.2 = true :=
        (hm.mask _ _ hl (Warp.FreshOn.refl _ _) _ (h.small _ hl)).trans (meetNames_self hl)
      have hvw : v = w := hxv.symm.trans hv
      simp [hvw, hown]
    · simp [hxv]

/-- The group has arrived. -/
theorem State.Meets.arrived (h : s.Meets g gr o wds w ls) (hm : s.Gives w ls m P) :
    s.Underway g w P (if m.quad then ((s.atWord g).wakeMeetings w).modGroup g fun gr =>
        { gr with park := .meeting, memo := { gr.memo with arrived := true } }
      else ((s.atWord g).wakeMeetings w).arriveMeet g gr o.pr m) (gr.metBy w []) [] := by
  have hwoken : s.Underway g w P ((s.atWord g).wakeMeetings w) { gr with park := .run } [] :=
    h.underway.wakeMeetings (by simp) w
  cases hq : m.quad with
  | true => exact hwoken.park rfl h
  | false => exact hwoken.arriveMeet h hm hq

/-- A group all of whose lanes have met goes on. -/
theorem State.Underway.resumeMet (ht : s.Underway g w P t (gr.metBy w met) met) (h : s.Meets g gr o wds w ls) (hall : ls ⊆ met)
    (quad : Bool) : t.resumeMet gr.block gr.pc o.pr quad = t.retire g (gr.metBy w met) := by
  have hmet (x : Nat × Nat) (hx : x ∈ gr.lanes) : (gr.metBy w met).memo.who.contains x = true := by
    obtain ⟨hv, hl⟩ := h.team.mem_lanes hx
    obtain ⟨v, l⟩ := x
    subst hv
    simpa [Group.metBy] using hall hl
  have hpart : (if quad then (gr.metBy w met).lanes else t.execThreads (gr.metBy w met) o.pr).all
      (gr.metBy w met).memo.who.contains = true := by
    refine List.all_eq_true.2 fun x hx => hmet x ?_
    cases quad with
    | true => exact hx
    | false => exact List.mem_of_mem_filter (List.mem_of_mem_filter hx)
  have hgroups : t.meetingGroups gr.block gr.pc = [(g, gr.metBy w met)] := ht.meetingGroups (G := gr.metBy w met) rfl
  rw [State.resumeMet, hgroups, List.foldl_cons, List.foldl_nil, if_pos hpart]

/-- Lanes that have met are as their meeting made them where their group goes on. -/
theorem State.Underway.retired (ht : s.Underway g w P t (gr.metBy w met) met) (h : s.Meets g gr o wds w ls)
    (hm : s.Gives w ls m P) (hall : ls ⊆ met) {l : Nat} (hl : l ∈ ls) : P l ((t.retire g (gr.metBy w met)).lane w l) := by
  have hP := ht.done l (hall hl)
  have hstands : t.Stands (gr.metBy w met) := by
    refine ⟨?_, fun x hx => ?_⟩
    · change gr.lanes.Nodup
      rw [h.team.lanes]
      exact h.team.nodup.map fun _ _ heq => (Prod.mk.inj heq).2
    · obtain ⟨hv, hin⟩ := h.team.mem_lanes hx
      rw [hv]
      exact .inl (hm.live _ _ (ht.done _ (hall hin)))
  have hin : (w, l) ∈ (gr.metBy w met).lanes := by
    change (w, l) ∈ gr.lanes
    rw [h.team.lanes]
    exact List.mem_map_of_mem hl
  unfold State.retire
  split
  · exact (State.lane_endClause hstands g _ hin).symm ▸ hm.goes _ _ _ hP (Lane.goneOn_enter _ _ _ _)
  · exact hP

/-- A meeting that its group's lanes complete as they arrive gives each of them its result. -/
theorem meetForm_completes (h : s.Meets g gr o wds w ls) (hm : s.Gives w ls m P) :
    ∃ t, meetForm o wds m s = .next t ∧ s.onlyThreads t ∧ ∀ l ∈ ls, P l (t.lane w l) := by
  have harrived := h.arrived hm
  have hnew : gr.memo.arrived = false := by rw [h.fresh]
  unfold meetForm issueMet
  rw [h.ready.current]
  dsimp only
  rw [hnew, if_neg Bool.false_ne_true, issueLane_ready h.ready false (by simp), h.ownBit_nil hm, State.raising_nil, hnew,
    if_neg Bool.false_ne_true, h.team.warpIds, List.foldl_cons, List.foldl_nil]
  generalize (if m.quad = true then _ else _ : State) = arrived at harrived ⊢
  have hparked : s.Underway g w P (arrived.modGroup g fun gr => { gr with park := .meeting }) (gr.metBy w []) [] :=
    harrived.modGroup (fun gr => { gr with park := .meeting }) rfl rfl
  obtain ⟨met, hmet, hwhole, -, hall⟩ := hparked.tryAll h hm (MetWhole.nil _ _) (List.Subset.refl ls)
  have hsome : (!m.quad && arrived.execThreads gr o.pr == []) = false := by
    rw [harrived.execThreads h]
    simp [h.team.ne_nil]
  have htries : gr.lanes.foldl (fun t x => t.tryMeet gr.block gr.pc o wds m x.1 x.2)
      (arrived.modGroup g fun gr => { gr with park := .meeting }) =
      ls.foldl (fun t l => t.tryMeet gr.block gr.pc o wds m w l) (arrived.modGroup g fun gr => { gr with park := .meeting }) := by
    rw [h.team.lanes, List.foldl_map]
  have hneeds (u : State) (hu : s.Underway g w P u (gr.metBy w met) met) :
      (gr.lanes.flatMap fun x => u.meetNeeds gr.block gr.pc o.pr m x.1 x.2) = [] := by
    refine List.flatMap_eq_nil_iff.2 fun x hx => ?_
    obtain ⟨hv, hl⟩ := h.team.mem_lanes hx
    rw [hv]
    exact hu.meetNeeds_nil h hm hwhole hl
  rw [hsome, if_neg Bool.false_ne_true, htries, hneeds _ hmet, if_pos rfl, hmet.resumeMet h hall]
  refine ⟨_, rfl, ?_, fun l hl => hmet.retired h hm hall hl⟩
  exact State.onlyThreads_trans hmet.only (State.onlyThreads_trans (State.onlyThreads_retire _ _ _) rfl)

end
end Sys2Proof.Machine
end

section
/-! PROOFS. O26: warp-wide and quad instructions complete (05_threads_control R105 to R108, R116 to R119). -/

namespace Sys2Proof.Machine

/-! ## Results in a lane's registers -/

/-- A result that a lane receives whatever its credit, and that leaves its life. -/
structure Receives (put : Lane → Lane) : Prop where
  regs : ∀ L c, (put L).regsAre (put { L with credit := c })
  life : ∀ L, (put L).life = L.life

theorem receives_putD (d : Dst) (x : Word) : Receives fun L => L.putD d x where
  regs _ _ := by cases d <;> exact ⟨rfl, rfl⟩
  life _ := by cases d <;> rfl

theorem receives_putDW (d : Dst) (w64 : Bool) (x : DWord) : Receives fun L => L.putDW d w64 x where
  regs _ _ := by cases w64 <;> cases d <;> exact ⟨rfl, rfl⟩
  life L := L.life_putDW d w64 x

theorem receives_putT (d : Dst) (b : Bool) : Receives fun L => L.putT d b where
  regs L c := by
    cases d with
    | p n =>
      by_cases hn : n = 7
      · simp [Lane.regsAre, Lane.putT, Lane.setP, hn]
      · simp [Lane.regsAre, Lane.putT, Lane.setP, hn]
    | v | s | none => exact ⟨rfl, rfl⟩
  life L := by
    cases d with
    | p n =>
      by_cases hn : n = 7
      · simp [Lane.putT, Lane.setP, hn]
      · simp [Lane.putT, Lane.setP, hn]
    | v | s | none => rfl

theorem Lane.goneOn.regsAre {K L L' : Lane} (h : K.regsAre L) (hgo : L.goneOn L') : K.regsAre L' := by
  rw [hgo]
  exact h

/-! ## Forms of R105 -/

section
variable {s : State} {g : Nat} {gr : Group} {w : Nat} {ls : List Nat} {o : Ops} {wds : Widths}

theorem filter_meetNames_team (l : Nat) (ls : List Nat) : ls.filter (meetNames false ls l) = ls :=
  List.filter_eq_self.2 fun j hj => by simp [meetNames, hj]

/-- A form of R105 of which every mask names the lanes that execute it. -/
theorem gives_team (h : s.Meets g gr o wds w ls) {mask : Warp → Nat → Word} {f : Warp → List Nat → Nat → Lane → Lane}
    {r : Nat → Lane → Lane} (hmask : ∀ V l, l ∈ ls → (s.warp w).FreshOn V ls.contains → mask V l = laneMask ls)
    (hf : ∀ V l, l ∈ ls → (s.warp w).FreshOn V ls.contains → f V ls l = r l) (hr : ∀ l, Receives (r l)) :
    s.Gives w ls ⟨false, mask, withEmask f, noCross⟩ fun l L =>
      (r l (s.lane w l)).regsAre L ∧ L.emask = laneMask ls ∧ L.life = .live where
  mask V l hl hV j hj := by
    change (mask V l).getLsbD j = ls.contains j
    rw [hmask V l hl hV, getLsbD_laneMask _ _ hj]
    simp
  same _ V l hl hV := hmask V l hl hV
  named l _ j hj _ := by simpa [meetNames] using hj
  reads _ _ _ _ _ hx := nomatch hx
  gives V l hl hV := by
    have hlane : V.lane l = { s.lane w l with credit := (V.lane l).credit } := hV.lane l (by simpa [meetNames] using hl)
    have hlive := (h.team.run l hl).1
    have heff : withEmask f V (ls.filter (meetNames false ls l)) l (V.lane l) =
        { r l { s.lane w l with credit := (V.lane l).credit } with emask := laneMask ls } := by
      rw [filter_meetNames_team, ← hlane, ← hf V l hl hV]
      rfl
    dsimp only
    rw [heff]
    exact ⟨(hr l).regs _ _, rfl, ((hr l).life _).trans hlive⟩
  live _ _ hP := hP.2.2
  goes _ _ _ hP hgo := by
    obtain ⟨hregs, hmask, hlive⟩ := hP
    exact ⟨hgo.regsAre hregs, by rw [hgo]; exact hmask, by rw [hgo]; exact hlive⟩

/-- An instruction gives each of these lanes of a warp its result, sr.emask names them, and only threads change. -/
def State.DoneBy (s : State) (w : Nat) (ls : List Nat) (i : Instr) (em : Bool) (r : Nat → Lane → Lane) : Prop :=
  ∃ t, exec i s = .next t ∧ s.onlyThreads t ∧ ∀ l ∈ ls,
    (r l (s.lane w l)).regsAre (t.lane w l) ∧ (em = true → (t.lane w l).emask = laneMask ls)

theorem team_done (h : s.Meets g gr o wds w ls) {i : Instr} {mask : Warp → Nat → Word}
    {f : Warp → List Nat → Nat → Lane → Lane} {r : Nat → Lane → Lane}
    (hexec : exec i s = meetForm o wds ⟨false, mask, withEmask f, noCross⟩ s)
    (hmask : ∀ V l, l ∈ ls → (s.warp w).FreshOn V ls.contains → mask V l = laneMask ls)
    (hf : ∀ V l, l ∈ ls → (s.warp w).FreshOn V ls.contains → ∀ L, f V ls l L = r l L) (hr : ∀ l, Receives (r l)) :
    s.DoneBy w ls i true r := by
  obtain ⟨t, hform, honly, hlanes⟩ := meetForm_completes h (gives_team h hmask (fun V l hl hV => funext (hf V l hl hV)) hr)
  refine ⟨t, hexec.trans hform, honly, fun l hl => ?_⟩
  obtain ⟨hregs, hemask, -⟩ := hlanes l hl
  exact ⟨hregs, fun _ => hemask⟩

/-- An operand of a lane that has met, as the statement reads it. -/
theorem Warp.FreshOn.operand {V : Warp} (hV : (s.warp w).FreshOn V ls.contains) {j : Nat} (hj : j ∈ ls) (x : Src) :
    src32 V (V.lane j) x = src32 (s.warp w) (s.lane w j) x := hV.src32_eq (by simpa using hj) x

theorem Warp.FreshOn.operandW {V : Warp} (hV : (s.warp w).FreshOn V ls.contains) {j : Nat} (hj : j ∈ ls) (w64 : Bool) (x : Src) :
    srcW w64 V (V.lane j) x = srcW w64 (s.warp w) (s.lane w j) x := by
  rw [hV.lane j (by simpa using hj), hV.rest]
  cases w64 <;> cases x <;> rfl

theorem Warp.FreshOn.votePred_eq {V : Warp} (hV : (s.warp w).FreshOn V ls.contains) {j : Nat} (hj : j ∈ ls) (sp : Fin 8) (sn : Bool) :
    votePred V sp sn j = ((s.lane w j).getP sp != sn) := by
  rw [votePred, hV.lane j (by simpa using hj)]
  rfl

/-- An accumulation over lanes that have met. -/
theorem Warp.FreshOn.wrFold_eq {V : Warp} (hV : (s.warp w).FreshOn V ls.contains) {xs : List Nat} (hxs : xs ⊆ ls) (op : WrOp) (x : Src) :
    wrFold op V x xs =
      (xs.map fun j => src32 (s.warp w) (s.lane w j) x).foldl (wrStep op) (wrIdentity op) := by
  have hmap : (xs.map fun j => src32 V (V.lane j) x) = xs.map fun j => src32 (s.warp w) (s.lane w j) x :=
    List.map_congr_left fun j hj => hV.operand (hxs hj) x
  rw [← hmap, List.foldl_map]
  rfl

/-- The first of lanes in rising order is the lowest. -/
theorem headD_eq_lowest (hrising : sortNat ls = ls) (hn : ls.Nodup) {l : Nat} (hl : l ∈ ls) :
    (ls.headD l == l) = decide (∀ j ∈ ls, l ≤ j) := by
  cases ls with
  | nil => simp at hl
  | cons k ks =>
    have hle : ∀ j ∈ ks, k ≤ j := (List.pairwise_cons.1 (pairwise_of_sortNat hrising)).1
    have hlow : k ≤ l := by
      rcases List.mem_cons.1 hl with rfl | hin
      · exact le_refl _
      · exact hle l hin
    rw [List.headD_cons, Bool.eq_iff_iff, beq_iff_eq, decide_eq_true_iff]
    constructor
    · rintro rfl j hj
      rcases List.mem_cons.1 hj with rfl | hin
      · exact le_refl _
      · exact hle j hin
    · exact fun hall => le_antisymm hlow (hall k (by simp))

end

/-! ## Votes, matches, elections, reductions and scans -/

section
variable {s : State} {g : Nat} {gr : Group} {w : Nat} {ls : List Nat} {o : Ops}

theorem maskB_team (hb : ∀ l ∈ ls, src32 (s.warp w) (s.lane w l) o.b = laneMask ls) (V : Warp) (l : Nat) (hl : l ∈ ls)
    (hV : (s.warp w).FreshOn V ls.contains) : maskB o V l = laneMask ls := (hV.operand hl o.b).trans (hb l hl)

/-- What a vote gives of its lanes' truth values (R116). -/
def voteOf (mode : VoteMode) (ls : List Nat) (x : Nat → Bool) : Bool :=
  match mode with
  | .all => decide (∀ j ∈ ls, x j = true)
  | .any => decide (∃ j ∈ ls, x j = true)
  | .uni => decide (∀ j ∈ ls, ∀ k ∈ ls, x j = x k)

theorem all_eq_voteOf {x y : Nat → Bool} (hxy : ∀ j ∈ ls, y j = x j) : ls.all y = voteOf .all ls x := by
  rw [Bool.eq_iff_iff, List.all_eq_true, voteOf, decide_eq_true_iff]
  exact forall₂_congr fun j hj => by rw [hxy j hj]

theorem any_eq_voteOf {x y : Nat → Bool} (hxy : ∀ j ∈ ls, y j = x j) : ls.any y = voteOf .any ls x := by
  rw [Bool.eq_iff_iff, List.any_eq_true, voteOf, decide_eq_true_iff]
  exact exists_congr fun j => and_congr_right fun hj => by rw [hxy j hj]

theorem uni_eq_voteOf {x y : Nat → Bool} (hxy : ∀ j ∈ ls, y j = x j) :
    (ls.all y || ls.all fun j => !y j) = voteOf .uni ls x := by
  rw [Bool.eq_iff_iff, Bool.or_eq_true, List.all_eq_true, List.all_eq_true, voteOf, decide_eq_true_iff]
  constructor
  · rintro (hall | hnone) j hj k hk
    · rw [← hxy j hj, ← hxy k hk, hall j hj, hall k hk]
    · have hj' : y j = false := by simpa using hnone j hj
      have hk' : y k = false := by simpa using hnone k hk
      rw [← hxy j hj, ← hxy k hk, hj', hk']
  · intro hsame
    by_cases hall : ∀ j ∈ ls, y j = true
    · exact .inl hall
    · push Not at hall
      obtain ⟨k, hk, hfalse⟩ := hall
      refine .inr fun j hj => ?_
      rw [hxy j hj, hsame j hj k hk, ← hxy k hk]
      simpa using hfalse

theorem vote_done {sp : Fin 8} {sn : Bool} (h : s.Meets g gr o { ps := [sp] } w ls)
    (hb : ∀ l ∈ ls, src32 (s.warp w) (s.lane w l) o.b = laneMask ls) (mode : VoteMode) :
    s.DoneBy w ls (.wvVote o sp sn mode) true fun _ L =>
      L.putT o.d (voteOf mode ls fun j => (s.lane w j).getP sp != sn) := by
  refine team_done h rfl (maskB_team hb) (fun V l hl hV L => ?_) fun _ => receives_putT o.d _
  have hx (j : Nat) (hj : j ∈ ls) : votePred V sp sn j = ((s.lane w j).getP sp != sn) := hV.votePred_eq hj sp sn
  cases mode with
  | all => exact congrArg (L.putT o.d) (all_eq_voteOf hx)
  | any => exact congrArg (L.putT o.d) (any_eq_voteOf hx)
  | uni => exact congrArg (L.putT o.d) (uni_eq_voteOf hx)

theorem ballot_done {sp : Fin 8} {sn : Bool} (h : s.Meets g gr o { ps := [sp] } w ls)
    (hb : ∀ l ∈ ls, src32 (s.warp w) (s.lane w l) o.b = laneMask ls) :
    s.DoneBy w ls (.wvBallot o sp sn) true fun _ L =>
      L.putD o.d (laneMask (ls.filter fun j => (s.lane w j).getP sp != sn)) := by
  refine team_done h rfl (maskB_team hb) (fun V l hl hV L => ?_) fun _ => receives_putD o.d _
  have hx : ls.filter (votePred V sp sn) = ls.filter fun j => (s.lane w j).getP sp != sn :=
    List.filter_congr fun j hj => hV.votePred_eq hj sp sn
  rw [← hx]

/-- The lanes whose values are one lane's. -/
theorem Warp.FreshOn.matching {V : Warp} (hV : (s.warp w).FreshOn V ls.contains) {l : Nat} (hl : l ∈ ls) (x : Src) :
    (ls.filter fun j => src32 V (V.lane j) x == src32 V (V.lane l) x) =
      ls.filter fun j => src32 (s.warp w) (s.lane w j) x = src32 (s.warp w) (s.lane w l) x :=
  List.filter_congr fun j hj => by
    rw [hV.operand hj, hV.operand hl, Bool.eq_iff_iff, beq_iff_eq, decide_eq_true_iff]

theorem match_done (h : s.Meets g gr o {} w ls) (hb : ∀ l ∈ ls, src32 (s.warp w) (s.lane w l) o.b = laneMask ls) :
    s.DoneBy w ls (.wvMatch o false) true fun l L => L.putD o.d (laneMask (ls.filter fun j =>
      src32 (s.warp w) (s.lane w j) o.a = src32 (s.warp w) (s.lane w l) o.a)) := by
  refine team_done h rfl (maskB_team hb) (fun V l hl hV L => ?_) fun _ => receives_putD o.d _
  dsimp only
  rw [hV.matching hl, if_neg Bool.false_ne_true]

theorem matchAll_done (h : s.Meets g gr o {} w ls) (hb : ∀ l ∈ ls, src32 (s.warp w) (s.lane w l) o.b = laneMask ls) :
    s.DoneBy w ls (.wvMatch o true) true fun l L => L.putD o.d
      (if ∀ j ∈ ls, src32 (s.warp w) (s.lane w j) o.a = src32 (s.warp w) (s.lane w l) o.a then laneMask ls else 0) := by
  refine team_done h rfl (maskB_team hb) (fun V l hl hV L => ?_) fun _ => receives_putD o.d _
  dsimp only
  rw [hV.matching hl, if_pos rfl]
  simp only [List.filter_eq_self, decide_eq_true_iff]

theorem elect_done (h : s.Meets g gr o {} w ls) (hb : ∀ l ∈ ls, src32 (s.warp w) (s.lane w l) o.b = laneMask ls) :
    s.DoneBy w ls (.wvElect o) true fun l L => L.putT o.d (decide (∀ j ∈ ls, l ≤ j)) := by
  refine team_done h rfl (maskB_team hb) (fun V l hl hV L => ?_) fun _ => receives_putT o.d _
  rw [headD_eq_lowest h.rising h.team.nodup hl]

theorem red_done (h : s.Meets g gr o {} w ls) (hb : ∀ l ∈ ls, src32 (s.warp w) (s.lane w l) o.b = laneMask ls) (op : WrOp) :
    s.DoneBy w ls (.wrRed o op) true fun _ L =>
      L.putD o.d ((ls.map fun j => src32 (s.warp w) (s.lane w j) o.a).foldl (wrStep op) (wrIdentity op)) := by
  refine team_done h rfl (maskB_team hb) (fun V l hl hV L => ?_) fun _ => receives_putD o.d _
  rw [hV.wrFold_eq (List.Subset.refl _)]

theorem scan_done (h : s.Meets g gr o {} w ls) (hb : ∀ l ∈ ls, src32 (s.warp w) (s.lane w l) o.b = laneMask ls) (op : WrOp)
    (excl : Bool) :
    s.DoneBy w ls (.wrScan o op excl) true fun l L =>
      L.putD o.d (((ls.filter fun j => decide (j < l) || (!excl && j == l)).map fun j =>
        src32 (s.warp w) (s.lane w j) o.a).foldl (wrStep op) (wrIdentity op)) := by
  refine team_done h rfl (maskB_team hb) (fun V l hl hV L => ?_) fun _ => receives_putD o.d _
  rw [hV.wrFold_eq (List.filter_subset_self _)]

/-! ## Shuffles -/

/-- The lane that a shuffle names. -/
def shflFrom (mode : ShflMode) (l : Nat) (b : Word) : Nat :=
  match mode with
  | .idx => b.toNat % 32
  | .up => if b.toNat ≤ l then l - b.toNat else l
  | .dn => if l + b.toNat < 32 then l + b.toNat else l
  | .bfly => l ^^^ (b.toNat % 32)

/-- Where a shuffle would read outside the warp, it names its own lane. -/
theorem shflFrom_eq_getD (mode : ShflMode) (l : Nat) (b : Word) : shflFrom mode l b = (shflLane mode l b).getD l := by
  cases mode with
  | idx | bfly => rfl
  | up => by_cases hb : b.toNat ≤ l <;> simp [shflLane, shflFrom, hb]
  | dn =>
    have hle : l + b.toNat < 32 ↔ l + b.toNat ≤ 31 := Nat.lt_succ_iff
    by_cases hb : l + b.toNat ≤ 31 <;> simp [shflLane, shflFrom, hle, hb]

theorem shfl_done {b64 : Bool} (h : s.Meets g gr o ⟨wd b64, wd b64, 1, 1, false, []⟩ w ls)
    (hc : ∀ l ∈ ls, src32 (s.warp w) (s.lane w l) o.c = laneMask ls) (mode : ShflMode) :
    s.DoneBy w ls (.xlShfl o mode b64) true fun l L =>
      let j := shflFrom mode l (src32 (s.warp w) (s.lane w l) o.b)
      L.putDW o.d b64 (srcW b64 (s.warp w) (s.lane w (if j ∈ ls then j else l)) o.a) := by
  refine team_done h rfl (fun V l hl hV => (hV.operand hl o.c).trans (hc l hl)) (fun V l hl hV L => ?_)
    fun _ => receives_putDW o.d b64 _
  have hin (j : Nat) : (if j ∈ ls then j else l) ∈ ls := by split <;> assumption
  dsimp only
  rw [← hV.operandW (hin _), ← hV.operand hl o.b, shflFrom_eq_getD]
  refine congrArg (fun j => L.putDW o.d b64 (srcW b64 V (V.lane j) o.a)) ?_
  cases shflLane mode l (src32 V (V.lane l) o.b) with
  | none => exact (ite_self l).symm
  | some j => exact if_congr List.contains_iff_mem rfl rfl

/-! ## Quads -/

theorem getLsbD_quadMask (V : Warp) {l j : Nat} (hj : j < 32) :
    (quadMask V l).getLsbD j = (j / 4 == l / 4) := by
  have hmask : (0xF : Word) = BitVec.ofNat 32 (2 ^ 4 - 1) := rfl
  rw [quadMask, BitVec.getLsbD_shiftLeft, hmask, BitVec.getLsbD_ofNat, Nat.testBit_two_pow_sub_one, Bool.eq_iff_iff]
  simp only [Bool.and_eq_true, Bool.not_eq_true', decide_eq_true_iff, decide_eq_false_iff_not, beq_iff_eq]
  omega

/-- The lane across a quad is of the quad. -/
theorem xor_quad {l k : Nat} (hk : k < 4) : (l ^^^ k) / 4 = l / 4 := by
  have hdiv := Nat.xor_div_two_pow (a := l) (b := k) (n := 2)
  simpa [Nat.div_eq_of_lt hk] using hdiv

/-- A quad form that reads the lane src l of its quad. -/
theorem gives_quad (h : s.Meets g gr o {} w ls) {from_ : Warp → Nat → Nat} {src : Nat → Nat}
    (hquad : ∀ l ∈ ls, ∀ j, j / 4 = l / 4 → (s.isLive (w, j) = true → j ∈ ls) ∧
      ∀ r ∈ srcV o.a 1, r ∉ (s.lane w j).vBad ∧ r ∉ s.pendingV w j)
    (hsrc : ∀ l ∈ ls, src l / 4 = l / 4)
    (hfrom : ∀ V l, l ∈ ls → (s.warp w).FreshOn V (meetNames true ls l) → from_ V l = src l) :
    s.Gives w ls ⟨true, quadMask, fun W _ l L =>
        let j := from_ W l
        let bad := (W.badReg (W.lane j) (srcV o.a 1) []).isSome ||
          (W.badReg (W.lane l) (predReads o.pr ++ ({} : Widths).reads o) (({} : Widths).readsS o)).isSome
        L.putD o.d (if bad then 0 else src32 W (W.lane j) o.a),
      fun W l => (srcV o.a 1).map fun r => (from_ W l, r)⟩ fun l L =>
      ((s.lane w l).putD o.d (src32 (s.warp w) (s.lane w (src l)) o.a)).regsAre L ∧ L.life = .live where
  mask V _ _ _ _ hj := getLsbD_quadMask V hj
  same hq := nomatch hq
  named l hl j hj := (hquad l hl j (by simpa [meetNames] using hj)).1
  reads V l hl hV x hx := by
    obtain ⟨r, hr, rfl⟩ := List.mem_map.1 hx
    have hnamed : meetNames true ls l (src l) = true := by simp [meetNames, hsrc l hl]
    obtain ⟨-, hgood⟩ := hquad l hl (src l) (hsrc l hl)
    obtain ⟨hbad, hdue⟩ := hgood r hr
    dsimp only
    rw [hfrom V l hl hV, hV.lane _ hnamed]
    exact ⟨hdue, hbad⟩
  gives V l hl hV := by
    have hnamed : meetNames true ls l (src l) = true := by simp [meetNames, hsrc l hl]
    have hown : V.lane l = { s.lane w l with credit := (V.lane l).credit } := hV.lane l (by simp [meetNames])
    have hsbad : V.sBad = (s.warp w).sBad := by rw [hV.rest]
    have hlane : (w, l) ∈ gr.lanes := by
      rw [h.team.lanes]
      exact List.mem_map_of_mem hl
    have hthread : (w, l) ∈ s.execThreads gr o.pr := by rwa [h.team.execThreads]
    obtain ⟨hv, hs⟩ := h.ready.sound _ hthread
    have hread : V.badReg (V.lane (src l)) (srcV o.a 1) [] = none := by
      refine Warp.badReg_none (fun r hr => ?_) (by simp)
      rw [hV.lane _ hnamed]
      exact ((hquad l hl (src l) (hsrc l hl)).2 r hr).1
    have hgood : V.badReg (V.lane l) (predReads o.pr ++ ({} : Widths).reads o) (({} : Widths).readsS o) = none := by
      refine Warp.badReg_none (fun r hr => ?_) (hsbad ▸ hs)
      rw [hown]
      exact (List.mem_append.1 hr).elim (h.ready.guard _ hlane (h.runs l hl).1 r) (hv r)
    have hvalue : src32 V (V.lane (src l)) o.a = src32 (s.warp w) (s.lane w (src l)) o.a := hV.src32_eq hnamed o.a
    dsimp only
    rw [hfrom V l hl hV, hread, hgood, hvalue, hown]
    exact ⟨(receives_putD o.d _).regs _ _, ((receives_putD o.d _).life _).trans (h.team.run l hl).1⟩
  live _ _ hP := hP.2
  goes _ _ _ hP hgo := by
    obtain ⟨hregs, hlive⟩ := hP
    exact ⟨hgo.regsAre hregs, by rw [hgo]; exact hlive⟩

theorem quad_done (h : s.Meets g gr o {} w ls) {i : Instr} {from_ : Warp → Nat → Nat} {src : Nat → Nat}
    (hexec : exec i s = quadForm o from_ s)
    (hquad : ∀ l ∈ ls, ∀ j, j / 4 = l / 4 → (s.isLive (w, j) = true → j ∈ ls) ∧
      ∀ r ∈ srcV o.a 1, r ∉ (s.lane w j).vBad ∧ r ∉ s.pendingV w j)
    (hsrc : ∀ l ∈ ls, src l / 4 = l / 4)
    (hfrom : ∀ V l, l ∈ ls → (s.warp w).FreshOn V (meetNames true ls l) → from_ V l = src l) :
    s.DoneBy w ls i false fun l L => L.putD o.d (src32 (s.warp w) (s.lane w (src l)) o.a) := by
  obtain ⟨t, hform, honly, hlanes⟩ := meetForm_completes h (gives_quad h hquad hsrc hfrom)
  exact ⟨t, hexec.trans hform, honly, fun l hl => ⟨(hlanes l hl).1, fun hno => nomatch hno⟩⟩

end

/-- Settles O26: all lanes that the masks name have arrived, so that the meeting is complete; its result is each form's. -/
theorem meetingsComplete : Obligations.MeetingsComplete := by
  intro o s g gr w ls a b done
  refine ⟨fun sp sn h hb => ⟨vote_done h hb .all, vote_done h hb .any, vote_done h hb .uni, ballot_done h hb⟩,
    fun h hb => ⟨match_done h hb, matchAll_done h hb, elect_done h hb, red_done h hb, scan_done h hb⟩,
    fun mode b64 h hc => shfl_done h hc mode, fun h hquad => ⟨?_, ?_, ?_, ?_⟩⟩
  · exact quad_done (src := fun l => l ^^^ 1) h rfl hquad (fun _ _ => xor_quad (by omega)) fun _ _ _ _ => rfl
  · exact quad_done (src := fun l => l ^^^ 2) h rfl hquad (fun _ _ => xor_quad (by omega)) fun _ _ _ _ => rfl
  · exact quad_done (src := fun l => l ^^^ 3) h rfl hquad (fun _ _ => xor_quad (by omega)) fun _ _ _ _ => rfl
  · refine quad_done (src := fun l => 4 * (l / 4) + (b l).toNat % 4) h rfl hquad (fun l hl => ?_) fun V l hl hV => ?_
    · have hlow : (b l).toNat % 4 < 4 := Nat.mod_lt _ (by omega)
      omega
    · rw [hV.src32_eq (by simp [meetNames]) o.b]
      rfl

end Sys2Proof.Machine
end

section
/-! PROOFS. O7: sums, differences, negations, minima and maxima of the I family (06_registers_arithmetic R133). -/

namespace Sys2Proof.Machine

/-- A form that computes each lane by itself, where it computes this of a warp and a lane. -/
theorem lanewise_lanes {s : State} {g : Nat} {gr : Group} {o : Ops} {wds : Widths} (hr : s.Ready g gr o wds)
    {f p : Warp → Nat → Lane → Lane} (hf : ∀ W l L, f W l L = p W l L) :
    lanewise s o wds f = .next (s.lanes g gr o wds p) := by
  have hfun : f = p := funext fun W => funext fun l => funext fun L => hf W l L
  rw [hfun]
  exact lanewise_ready hr p

/-! ## Results modulo 2^w -/

/-- Of a result, D takes the number modulo 2^w. -/
theorem putDW_ofInt_congr (L : Lane) (d : Dst) {w64 : Bool} {x y : Int} (h : x ≡ y [ZMOD 2 ^ bits w64]) :
    L.putDW d w64 (BitVec.ofInt 64 x) = L.putDW d w64 (BitVec.ofInt 64 y) := by
  unfold Lane.putDW
  cases w64 with
  | true =>
    have hword : BitVec.ofInt 64 x = BitVec.ofInt 64 y := by
      apply BitVec.eq_of_toNat_eq
      have h64 : x % 18446744073709551616 = y % 18446744073709551616 := h
      simp only [BitVec.toNat_ofInt]
      omega
    rw [hword]
  | false =>
    have hlow : (BitVec.ofInt 64 x).extractLsb' 0 32 = (BitVec.ofInt 64 y).extractLsb' 0 32 := by
      apply BitVec.eq_of_toNat_eq
      have h32 : x % 4294967296 = y % 4294967296 := h
      simp only [BitVec.extractLsb'_toNat, BitVec.toNat_ofInt, Nat.shiftRight_zero]
      omega
    simp only [Bool.false_eq_true, if_false, hlow]

/-- An operand's pattern is its signed or unsigned number modulo 2^w. -/
theorem intNum_modEq (m : IMod) (W : Warp) (L : Lane) (x : Src) :
    intNum m W L x ≡ intPat m W L x [ZMOD 2 ^ bits m.w64] := by
  have hw : intW m = bits m.w64 := rfl
  unfold intNum intSgn
  rw [hw]
  split
  · rfl
  · split
    · rfl
    · exact Int.sub_emod_right _ _

theorem ival_srcW (m : IMod) (W : Warp) (L : Lane) (x : Src) : ival m (srcW m.w64 W L x) = intNum m W L x := by
  rw [ival, uval_srcW, sval_srcW]
  rfl

theorem srcW_eq_ofInt (m : IMod) (W : Warp) (L : Lane) (x : Src) : srcW m.w64 W L x = BitVec.ofInt 64 (intPat m W L x) := by
  rw [BitVec.ofInt_natCast, intPat, BitVec.ofNat_toNat, BitVec.setWidth_eq]

theorem ofInt_sub {w : Nat} (x y : Int) : BitVec.ofInt w (x - y) = BitVec.ofInt w x - BitVec.ofInt w y := by
  rw [Int.sub_eq_add_neg, BitVec.ofInt_add, BitVec.ofInt_neg, BitVec.sub_eq_add_neg]

/-- The result of a form that does not saturate. -/
theorem satInt_of_not_sat {m : IMod} (h : m.sat = false) (x : Int) : satInt m x = BitVec.ofInt 64 x := by
  simp [satInt, h]

theorem intPut_eq (o : Ops) (m : IMod) (L : Lane) (x : Int) (c : Bool) :
    intPut o m L x c = (L.putDW o.d m.w64 (satInt m x)).putCarry m c := by
  unfold intPut satInt
  cases m.u <;> rfl

/-- Without a carry in. -/
theorem carryAdd_zero (w a b : Nat) : carryAdd w a b 0 = decide (2 ^ w ≤ a + b) := rfl
theorem borrowSub_zero (a b : Nat) : borrowSub a b 0 = decide (a < b) := rfl

section
variable {o : Ops} {m : IMod} {s : State} {g : Nat} {gr : Group}

/-- An I form whose result is the exact number x, wrapped or clamped, and whose carry is c. -/
theorem intForm_sat {ps : List (Fin 8)} (hr : s.Ready g gr o ⟨wd m.w64, wd m.w64, wd m.w64, 1, false, ps⟩)
    {f : Lane → DWord → DWord → DWord × Bool} {x : Warp → Lane → Int} {c : Warp → Lane → Bool}
    (hf : ∀ W L, f L (srcW m.w64 W L o.a) (srcW m.w64 W L o.b) = (satInt m (x W L), c W L)) :
    intForm o m ps f s =
      .next (s.lanes g gr o ⟨wd m.w64, wd m.w64, wd m.w64, 1, false, ps⟩ fun W _ L => intPut o m L (x W L) (c W L)) :=
  lanewise_lanes hr fun W _ L => by
    rw [hf, intPut_eq]

/-- An I form that does not saturate, whose result is x modulo 2^w. -/
theorem intForm_wrap {ps : List (Fin 8)} (hr : s.Ready g gr o ⟨wd m.w64, wd m.w64, wd m.w64, 1, false, ps⟩)
    (hsat : m.sat = false) {f : Lane → DWord → DWord → DWord × Bool} {x y : Warp → Lane → Int} {c : Warp → Lane → Bool}
    (hf : ∀ W L, f L (srcW m.w64 W L o.a) (srcW m.w64 W L o.b) = (BitVec.ofInt 64 (y W L), c W L))
    (hxy : ∀ W L, y W L ≡ x W L [ZMOD 2 ^ bits m.w64]) :
    intForm o m ps f s =
      .next (s.lanes g gr o ⟨wd m.w64, wd m.w64, wd m.w64, 1, false, ps⟩ fun W _ L => intPut o m L (x W L) (c W L)) :=
  lanewise_lanes hr fun W _ L => by
    rw [hf, intPut_eq, satInt_of_not_sat hsat, ← putDW_ofInt_congr L o.d (hxy W L)]

/-- An I form that takes one of its operands. -/
theorem intForm_pick (hr : s.Ready g gr o ⟨wd m.w64, wd m.w64, wd m.w64, 1, false, []⟩) (hsat : m.sat = false)
    {f : Lane → DWord → DWord → DWord × Bool} {x : Warp → Lane → Int} {y : Warp → Lane → Src}
    (hf : ∀ W L, f L (srcW m.w64 W L o.a) (srcW m.w64 W L o.b) = (srcW m.w64 W L (y W L), false))
    (hx : ∀ W L, x W L = intNum m W L (y W L)) :
    intForm o m [] f s =
      .next (s.lanes g gr o ⟨wd m.w64, wd m.w64, wd m.w64, 1, false, []⟩ fun W _ L => intPut o m L (x W L) false) :=
  intForm_wrap hr hsat (fun W L => by rw [hf, srcW_eq_ofInt]) fun W L => by
    rw [hx]
    exact (intNum_modEq m W L _).symm

/-! ## Each form -/

section
variable (hr : s.Ready g gr o ⟨wd m.w64, wd m.w64, wd m.w64, 1, false, []⟩)
include hr

theorem exec_iAdd : exec (.iAdd o m) s = .next (s.lanes g gr o ⟨wd m.w64, wd m.w64, wd m.w64, 1, false, []⟩ fun W _ L =>
    intPut o m L (intNum m W L o.a + intNum m W L o.b) (decide (2 ^ intW m ≤ intPat m W L o.a + intPat m W L o.b))) := by
  dsimp only [exec, execIAdd]
  refine intForm_sat hr fun W L => ?_
  rw [ival_srcW, ival_srcW, uval_srcW, uval_srcW, carryAdd_zero]
  rfl

theorem exec_iSub : exec (.iSub o m) s = .next (s.lanes g gr o ⟨wd m.w64, wd m.w64, wd m.w64, 1, false, []⟩ fun W _ L =>
    intPut o m L (intNum m W L o.a - intNum m W L o.b) (decide (intPat m W L o.a < intPat m W L o.b))) := by
  dsimp only [exec, execISub]
  refine intForm_sat hr fun W L => ?_
  rw [ival_srcW, ival_srcW, uval_srcW, uval_srcW, borrowSub_zero]

theorem exec_iNeg : exec (.iNeg o m) s = .next (s.lanes g gr o ⟨wd m.w64, wd m.w64, wd m.w64, 1, false, []⟩ fun W _ L =>
    intPut o m L (-(intSgn m W L o.a)) false) := by
  dsimp only [exec, execINeg]
  refine intForm_sat hr fun W L => ?_
  rw [sval_srcW]

theorem exec_iAbs : exec (.iAbs o m) s = .next (s.lanes g gr o ⟨wd m.w64, wd m.w64, wd m.w64, 1, false, []⟩ fun W _ L =>
    intPut o m L |intSgn m W L o.a| false) := by
  dsimp only [exec, execIAbs]
  refine intForm_sat hr fun W L => ?_
  rw [sval_srcW, Int.natCast_natAbs]

theorem exec_iMin (hsat : m.sat = false) :
    exec (.iMin o m) s = .next (s.lanes g gr o ⟨wd m.w64, wd m.w64, wd m.w64, 1, false, []⟩ fun W _ L =>
      intPut o m L (min (intNum m W L o.a) (intNum m W L o.b)) false) := by
  dsimp only [exec, execIMin]
  refine intForm_pick (y := fun W L => if intNum m W L o.b < intNum m W L o.a then o.b else o.a) hr hsat (fun W L => ?_)
    fun W L => ?_
  · rw [ival_srcW, ival_srcW, apply_ite (srcW m.w64 W L)]
  · rw [apply_ite (intNum m W L), min_def_lt']

theorem exec_iMax (hsat : m.sat = false) :
    exec (.iMax o m) s = .next (s.lanes g gr o ⟨wd m.w64, wd m.w64, wd m.w64, 1, false, []⟩ fun W _ L =>
      intPut o m L (max (intNum m W L o.a) (intNum m W L o.b)) false) := by
  dsimp only [exec, execIMax]
  refine intForm_pick (y := fun W L => if intNum m W L o.a < intNum m W L o.b then o.b else o.a) hr hsat (fun W L => ?_)
    fun W L => ?_
  · rw [ival_srcW, ival_srcW, apply_ite (srcW m.w64 W L)]
  · rw [apply_ite (intNum m W L), max_def_lt]

end

section
variable (hr : s.Ready g gr o ⟨wd m.w64, wd m.w64, wd m.w64, 1, false, [m.ci]⟩) (hsat : m.sat = false)
include hr hsat

theorem exec_iAddc :
    exec (.iAddc o m) s = .next (s.lanes g gr o ⟨wd m.w64, wd m.w64, wd m.w64, 1, false, [m.ci]⟩ fun W _ L =>
      intPut o m L (intNum m W L o.a + intNum m W L o.b + (L.getP m.ci).toNat)
        (decide (2 ^ intW m ≤ intPat m W L o.a + intPat m W L o.b + (L.getP m.ci).toNat))) := by
  dsimp only [exec, execIAddc]
  refine intForm_wrap (y := fun W L => (intPat m W L o.a : Int) + intPat m W L o.b + (L.getP m.ci).toNat) hr hsat
    (fun W L => ?_) fun W L => ?_
  · rw [uval_srcW, uval_srcW, srcW_eq_ofInt, srcW_eq_ofInt, BitVec.ofInt_add, BitVec.ofInt_add]
    rfl
  · exact (((intNum_modEq m W L o.a).add (intNum_modEq m W L o.b)).add_right _).symm

theorem exec_iSubb :
    exec (.iSubb o m) s = .next (s.lanes g gr o ⟨wd m.w64, wd m.w64, wd m.w64, 1, false, [m.ci]⟩ fun W _ L =>
      intPut o m L (intNum m W L o.a - intNum m W L o.b - (L.getP m.ci).toNat)
        (decide (intPat m W L o.a < intPat m W L o.b + (L.getP m.ci).toNat))) := by
  dsimp only [exec, execISubb]
  refine intForm_wrap (y := fun W L => (intPat m W L o.a : Int) - intPat m W L o.b - (L.getP m.ci).toNat) hr hsat
    (fun W L => ?_) fun W L => ?_
  · rw [uval_srcW, uval_srcW, srcW_eq_ofInt, srcW_eq_ofInt, ofInt_sub, ofInt_sub]
    rfl
  · exact (((intNum_modEq m W L o.a).sub (intNum_modEq m W L o.b)).sub_right _).symm

end

theorem exec_iSad (hr : s.Ready g gr o {}) (hw : m.w64 = false) :
    exec (.iSad o m) s = .next (s.lanes g gr o {} fun W _ L =>
      L.putD o.d (BitVec.ofInt 32 (|intNum m W L o.a - intNum m W L o.b| + (src32 W L o.c).toNat))) := by
  dsimp only [exec, execISad]
  refine lanewise_lanes hr fun W _ L => ?_
  rw [← hw, ival_srcW, ival_srcW, Int.natCast_natAbs]

end

/-- Settles O7: the saturating forms give the exact number clamped or wrapped, the others a number equal to it modulo 2^w. -/
theorem integerForms : Obligations.IntegerForms := by
  intro o m s g gr
  refine ⟨fun hr => ⟨fun _ => exec_iAdd hr, fun _ => exec_iSub hr, fun _ => exec_iNeg hr, fun _ => exec_iAbs hr,
    fun hwf => exec_iMin hr ?_, fun hwf => exec_iMax hr ?_⟩,
    fun hr => ⟨fun hwf => exec_iAddc hr ?_, fun hwf => exec_iSubb hr ?_⟩, fun hr hwf => exec_iSad hr ?_⟩
  all_goals simp_all [WellFormed, Instr.wf]

end Sys2Proof.Machine
end

section
/-! PROOFS. O8: products (06_registers_arithmetic R134). -/

namespace Sys2Proof.Machine

/-! ## Parts of a product -/

/-- The exact product as R134 says it, and the model's. -/
theorem prod_eq (u : Bool) (a b : Word) :
    prod u a b = if u then (a.toNat : Int) * b.toNat else a.toInt * b.toInt := by
  unfold prod
  push_cast
  rfl

theorem extractLsb'_setWidth (x : Word) : (x.setWidth 64).extractLsb' 0 32 = x := by
  have hlt := x.isLt
  apply BitVec.eq_of_toNat_eq
  simp only [BitVec.extractLsb'_toNat, BitVec.toNat_setWidth, Nat.shiftRight_zero]
  omega

theorem ofInt32_eq (x : Int) : BitVec.ofInt 32 x = (BitVec.ofInt 64 x).extractLsb' 0 32 := by
  apply BitVec.eq_of_toNat_eq
  simp only [BitVec.extractLsb'_toNat, BitVec.toNat_ofInt, Nat.shiftRight_zero]
  omega

/-- The low and the high part, in the low half of a double word. -/
theorem lo32_partOf {p : Part} (h : p ≠ .wide) (x : Int) :
    lo32 (partOf p x) = if p = .lo then (BitVec.ofInt 64 x).extractLsb' 0 32 else (BitVec.ofInt 64 x).extractLsb' 32 32 := by
  unfold lo32
  cases p with
  | lo => rw [partOf, extractLsb'_setWidth, ofInt32_eq, if_pos rfl]
  | hi => rw [partOf, extractLsb'_setWidth, if_neg (by simp)]
  | wide => exact absurd rfl h

/-- Settles O8: the exact product, of which each form takes its part. -/
theorem products : Obligations.Products := by
  intro o part u s g gr x word
  have hprod (W : Warp) (L : Lane) : prod u (src32 W L o.a) (src32 W L o.b) = x W L := prod_eq _ _ _
  refine ⟨fun hr => lanewise_lanes hr fun W _ L => ?_, fun hr hwf => lanewise_lanes hr fun W _ L => ?_,
    fun hr => lanewise_lanes hr fun W _ L => ?_⟩
  · rw [hprod]
    cases part with
    | lo => exact congrArg (L.putD o.d) (lo32_partOf (p := .lo) (by simp) _)
    | hi => exact congrArg (L.putD o.d) (lo32_partOf (p := .hi) (by simp) _)
    | wide => rfl
  · have hpart : part ≠ .wide := by simp_all [WellFormed, Instr.wf]
    rw [hprod, lo32_partOf hpart]
  · rw [hprod]

end Sys2Proof.Machine
end

section
/-! PROOFS. O9: bitwise logic and predicate tables (06_registers_arithmetic R135, R139). -/

namespace Sys2Proof.Machine

/-- A bitwise form whose operation is this one on every pair of bits. -/
theorem logForm_bits {s : State} {g : Nat} {gr : Group} {o : Ops} {w64 : Bool}
    (hr : s.Ready g gr o ⟨wd w64, wd w64, wd w64, 1, false, []⟩) {f : DWord → DWord → DWord} {op : Bool → Bool → Bool}
    (hf : ∀ a b n, n < 64 → (f a b).getLsbD n = op (a.getLsbD n) (b.getLsbD n)) :
    logForm o w64 f s = .next (s.lanes g gr o ⟨wd w64, wd w64, wd w64, 1, false, []⟩ fun W _ L =>
      L.putDW o.d w64 (BitVec.ofFnLE fun n => op ((srcW w64 W L o.a).getLsbD n.val) ((srcW w64 W L o.b).getLsbD n.val))) :=
  lanewise_lanes hr fun W _ L => by
    refine congrArg (L.putDW o.d w64) (BitVec.eq_of_getLsbD_eq fun n hn => ?_)
    rw [hf _ _ n hn, BitVec.getLsbD_ofFnLE, dif_pos hn]

/-- Settles O9: each bitwise form by its operation on bits, and the bit of the table as the model reads it. -/
theorem logicForms : Obligations.LogicForms := by
  refine ⟨fun o w64 s g gr hr i op h => ?_, fun o d pa pb pc s g gr hd hr => lanewise_lanes hr fun W _ L => ?_⟩
  · rcases h with ⟨rfl, rfl⟩ | ⟨rfl, rfl⟩ | ⟨rfl, rfl⟩ | ⟨rfl, rfl⟩ | ⟨rfl, rfl⟩
    · dsimp only [exec, execLogAnd]
      exact logForm_bits (op := fun a b => a && b) hr fun a b n _ => BitVec.getLsbD_and
    · dsimp only [exec, execLogOr]
      exact logForm_bits (op := fun a b => a || b) hr fun a b n _ => BitVec.getLsbD_or
    · dsimp only [exec, execLogXor]
      exact logForm_bits (op := fun a b => a != b) hr fun a b n _ => BitVec.getLsbD_xor
    · dsimp only [exec, execLogAndn]
      refine logForm_bits (op := fun a b => a && !b) hr fun a b n hn => ?_
      rw [BitVec.getLsbD_and, BitVec.getLsbD_not, decide_eq_true hn, Bool.true_and]
    · dsimp only [exec, execLogNot]
      refine logForm_bits (op := fun a _ => !a) hr fun a b n hn => ?_
      rw [BitVec.getLsbD_not, decide_eq_true hn, Bool.true_and]
  · rw [hd]
    rfl

end Sys2Proof.Machine
end

section
/-! PROOFS. O10: shifts, bit fields, counts and moves (06_registers_arithmetic R136, R137, R140). -/

namespace Sys2Proof.Machine

/-! ## Shifts of any width -/

section
variable {w : Nat} (a : BitVec w) (n : Nat)

theorem eq_ofInt_of_toNat {x : BitVec w} {i : Int} (h : (x.toNat : Int) = i) : x = BitVec.ofInt w i := by
  rw [← h, BitVec.ofInt_natCast, BitVec.ofNat_toNat, BitVec.setWidth_eq]

theorem shl_eq_ofInt : shl a n = BitVec.ofInt w (if n < w then (a.toNat : Int) * 2 ^ n % 2 ^ w else 0) := by
  unfold shl
  split
  · exact eq_ofInt_of_toNat (by rw [BitVec.toNat_shiftLeft, Nat.shiftLeft_eq]; push_cast; rfl)
  · exact eq_ofInt_of_toNat rfl

theorem shr_eq_ofInt : shr a n = BitVec.ofInt w (if n < w then (a.toNat : Int) / 2 ^ n else 0) := by
  unfold shr
  split
  · exact eq_ofInt_of_toNat (by rw [BitVec.toNat_ushiftRight, Nat.shiftRight_eq_div_pow]; push_cast; rfl)
  · exact eq_ofInt_of_toNat rfl

/-- A signed number of w bits shifted by w or more says its sign alone. -/
theorem toInt_div_two_pow_min : a.toInt / 2 ^ min n w = a.toInt / 2 ^ n := by
  rcases Nat.le_total n w with h | h
  · rw [Nat.min_eq_left h]
  · rw [Nat.min_eq_right h]
    have hpow : (2 : Int) ^ w ≤ 2 ^ n := by exact_mod_cast Nat.pow_le_pow_right (by omega) h
    have hpos : (0 : Int) < 2 ^ w := by positivity
    have hlo : -(2 : Int) ^ w ≤ a.toInt := by
      have hle := BitVec.le_two_mul_toInt (x := a)
      omega
    have hhi : a.toInt < (2 : Int) ^ w := by
      have hlt := BitVec.two_mul_toInt_lt (x := a)
      omega
    by_cases hneg : a.toInt < 0
    · rw [Int.ediv_eq_neg_one_of_neg_of_le hneg (by omega), Int.ediv_eq_neg_one_of_neg_of_le hneg (by omega)]
    · rw [Int.ediv_eq_zero_of_lt (by omega) hhi, Int.ediv_eq_zero_of_lt (by omega) (by omega)]

theorem toInt_eq_ite (hw : 0 < w) : a.toInt = if a.toNat < 2 ^ (w - 1) then (a.toNat : Int) else a.toNat - 2 ^ w := by
  have hpow : 2 ^ w = 2 * 2 ^ (w - 1) := by rw [← Nat.pow_succ']; congr 1; omega
  have hiff : 2 * a.toNat < 2 ^ w ↔ a.toNat < 2 ^ (w - 1) := by omega
  rw [BitVec.toInt_eq_toNat_cond, if_congr hiff rfl rfl]
  push_cast
  rfl

theorem sar_eq_ofInt (hw : 0 < w) :
    sar a n = BitVec.ofInt w ((if a.toNat < 2 ^ (w - 1) then (a.toNat : Int) else a.toNat - 2 ^ w) / 2 ^ n) := by
  rw [sar, BitVec.sshiftRight_eq, Int.shiftRight_eq_div_pow, ← toInt_eq_ite a hw, ← toInt_div_two_pow_min]
  push_cast
  rfl

/-- The bits that a rotation moves out at the top come in at the bottom. -/
theorem rol_eq_ofInt (hw : 0 < w) :
    rol a n = BitVec.ofInt w ((a.toNat : Int) * 2 ^ (n % w) % 2 ^ w + a.toNat / 2 ^ (w - n % w)) := by
  rw [rol, BitVec.rotateLeft_def, Nat.mod_mod]
  generalize hr : n % w = r
  have hlt : r < w := hr ▸ Nat.mod_lt n hw
  have hpow : 2 ^ w = 2 ^ r * 2 ^ (w - r) := by rw [← Nat.pow_add]; congr 1; omega
  have hlow : a.toNat / 2 ^ (w - r) < 2 ^ r := Nat.div_lt_of_lt_mul (by rw [Nat.mul_comm, ← hpow]; exact a.isLt)
  have hhigh : a.toNat * 2 ^ r % 2 ^ w = 2 ^ r * (a.toNat % 2 ^ (w - r)) := by
    rw [hpow, Nat.mul_comm, Nat.mul_mod_mul_left]
  apply eq_ofInt_of_toNat
  rw [BitVec.toNat_or, BitVec.toNat_shiftLeft, BitVec.toNat_ushiftRight, Nat.shiftLeft_eq, Nat.shiftRight_eq_div_pow,
    hhigh, ← Nat.two_pow_add_eq_or_of_lt hlow, ← hhigh]
  push_cast
  rfl

end

/-! ## Shift forms -/

/-- A shift form whose operation gives, at 32 and at 64 bits, this number of its operands. -/
theorem shForm_lanes {s : State} {g : Nat} {gr : Group} {o : Ops} {w64 : Bool}
    (hr : s.Ready g gr o ⟨wd w64, wd w64, 1, 1, false, []⟩) {f32 : Word → Nat → Word} {f64 : DWord → Nat → DWord}
    {r : Nat → Nat → Nat → Int} (h32 : ∀ a n, f32 a n = BitVec.ofInt 32 (r 32 a.toNat n))
    (h64 : ∀ a n, f64 a n = BitVec.ofInt 64 (r 64 a.toNat n)) :
    shForm o w64 f32 f64 s = .next (s.lanes g gr o ⟨wd w64, wd w64, 1, 1, false, []⟩ fun W _ L =>
      L.putDW o.d w64 (BitVec.ofInt 64 (r (if w64 then 64 else 32) (srcW w64 W L o.a).toNat (src32 W L o.b).toNat))) :=
  lanewise_lanes hr fun W _ L => by
    cases w64 with
    | true => exact congrArg (L.putD64 o.d) (h64 _ _)
    | false =>
      have hsrc : (srcW false W L o.a).toNat = (src32 W L o.a).toNat := by
        rw [srcW, if_neg (by simp), BitVec.toNat_setWidth_of_le (by omega)]
      rw [hsrc]
      exact congrArg (L.putD o.d) ((h32 _ _).trans (ofInt32_eq _))

/-- A pair of words as one number. -/
theorem toNat_append_eq_add {v w : Nat} (x : BitVec v) (y : BitVec w) : (x ++ y).toNat = x.toNat * 2 ^ w + y.toNat := by
  rw [BitVec.toNat_append, ← Nat.shiftLeft_add_eq_or_of_lt y.isLt, Nat.shiftLeft_eq]

/-- The funnel shift of b:a. -/
theorem funnel_eq_ofNat (left : Bool) (a b c : Word) :
    funnel left a b c = BitVec.ofNat 32 (if left then (b.toNat * 2 ^ 32 + a.toNat) * 2 ^ (c.toNat % 32) / 2 ^ 32
      else (b.toNat * 2 ^ 32 + a.toNat) / 2 ^ (c.toNat % 32)) := by
  have hpair : (b ++ a : DWord).toNat = b.toNat * 2 ^ 32 + a.toNat := toNat_append_eq_add b a
  have hpow : 2 ^ 64 = 2 ^ 32 * 2 ^ 32 := by norm_num
  apply BitVec.eq_of_toNat_eq
  unfold funnel
  cases left with
  | true =>
    rw [if_pos rfl, if_pos rfl, BitVec.extractLsb'_toNat, BitVec.toNat_shiftLeft, hpair, Nat.shiftLeft_eq,
      Nat.shiftRight_eq_div_pow, hpow, Nat.mod_mul_right_div_self, Nat.mod_mod, BitVec.toNat_ofNat]
  | false =>
    rw [if_neg (by simp), if_neg (by simp), BitVec.extractLsb'_toNat, BitVec.toNat_ushiftRight, hpair,
      Nat.shiftRight_zero, Nat.shiftRight_eq_div_pow, BitVec.toNat_ofNat]

/-! ## Bit fields -/

/-- Where the field lies outside the word, it is empty. -/
theorem fieldLen_eq_zero {pos len : Nat} (h : len = 0 ∨ 32 ≤ pos) : min len (32 - pos) = 0 := by omega

theorem bfExt_eq (sx : Bool) (a ctl : Word) :
    bfExt sx a ctl =
      let pos := ctl.toNat % 256
      let len := min (ctl.toNat / 256 % 256) (32 - pos)
      let f := a.toNat / 2 ^ pos % 2 ^ len
      if len = 0 then 0
      else if sx = true ∧ 2 ^ (len - 1) ≤ f then BitVec.ofInt 32 ((f : Int) - 2 ^ len) else BitVec.ofNat 32 f := by
  extract_lets pos len f
  have hpos : bfPos ctl = pos := rfl
  have hlen : min (bfLen ctl) (32 - pos) = len := rfl
  have hf : f % 2 ^ len = f := Nat.mod_mod _ _
  dsimp only [bfExt]
  rw [hpos, hlen]
  by_cases hout : bfLen ctl = 0 ∨ 32 ≤ pos
  · have hzero : len = 0 := fieldLen_eq_zero hout
    rw [if_pos hout, if_pos hzero]
  · have hsome : len ≠ 0 := by omega
    have hsext : sext len f = if 2 ^ (len - 1) ≤ f then (f : Int) - 2 ^ len else f := by rw [sext_eq, hf]
    rw [if_neg hout, if_neg hsome, hsext]
    cases sx with
    | true =>
      by_cases hneg : 2 ^ (len - 1) ≤ f
      · rw [if_pos rfl, if_pos hneg, if_pos ⟨rfl, hneg⟩]
      · rw [if_pos rfl, if_neg hneg, if_neg fun h => hneg h.2, BitVec.ofInt_natCast]
    | false => rw [if_neg (by simp), if_neg (by simp)]

theorem getLsbD_fieldMask {n pos i : Nat} (hi : i < 32) :
    (BitVec.ofNat 32 ((2 ^ n - 1) * 2 ^ pos)).getLsbD i = decide (pos ≤ i ∧ i < pos + n) := by
  rw [BitVec.getLsbD_ofNat, Nat.testBit_mul_two_pow, Nat.testBit_two_pow_sub_one, decide_eq_true hi]
  by_cases h : pos ≤ i
  · simp [h]
    omega
  · simp [h]

theorem bfIns_eq (a b ctl : Word) :
    bfIns a b ctl =
      let pos := ctl.toNat % 256
      let len := min (ctl.toNat / 256 % 256) (32 - pos)
      BitVec.ofFnLE fun i : Fin 32 =>
        if pos ≤ i.val ∧ i.val < pos + len then b.getLsbD (i.val - pos) else a.getLsbD i.val := by
  extract_lets pos len
  have hpos : bfPos ctl = pos := rfl
  have hlen : min (bfLen ctl) (32 - pos) = len := rfl
  refine BitVec.eq_of_getLsbD_eq fun i hi => ?_
  rw [BitVec.getLsbD_ofFnLE, dif_pos hi]
  dsimp only [bfIns]
  rw [hpos, hlen]
  by_cases hout : bfLen ctl = 0 ∨ 32 ≤ pos
  · have hzero : len = 0 := fieldLen_eq_zero hout
    rw [if_pos hout, if_neg (by omega)]
  · rw [if_neg hout, BitVec.getLsbD_or, BitVec.getLsbD_and, BitVec.getLsbD_and, BitVec.getLsbD_not, getLsbD_fieldMask hi,
      BitVec.getLsbD_shiftLeft]
    by_cases hin : pos ≤ i ∧ i < pos + len
    · simp [hin, hi]
    · simp [hin, hi]

/-! ## Bit counts -/

theorem popc_eq (a : Word) : popc a = (List.range 32).countP a.getLsbD := List.countP_eq_length_filter.symm

/-- How many of the numbers below n lie above k. -/
theorem countP_range_gt (k n : Nat) : (List.range n).countP (fun i => decide (k < i)) = n - 1 - k := by
  induction n with
  | zero => simp
  | succ n ih =>
    rw [List.range_succ, List.countP_append, ih, List.countP_singleton]
    simp only [decide_eq_true_eq]
    split <;> omega

theorem clz_eq (a : Word) : clz a = (List.range 32).countP fun i => decide (a.toNat < 2 ^ i) := by
  unfold clz
  by_cases h : a = 0
  · have hall : ∀ i ∈ List.range 32, decide (a.toNat < 2 ^ i) = true := by simp [h]
    rw [if_pos h, List.countP_eq_length.2 hall, List.length_range]
  · have hne : a.toNat ≠ 0 := fun h0 => h (BitVec.eq_of_toNat_eq h0)
    rw [if_neg h]
    simp only [← Nat.log2_lt hne]
    exact (countP_range_gt _ 32).symm

/-- One step of the reversal. -/
theorem getLsbD_brev_step (a x : Word) {n j : Nat} (hn : n < 32) (hj : j < 32) :
    (if a.getLsbD n then x ||| BitVec.twoPow 32 (31 - n) else x).getLsbD j =
      (x.getLsbD j || (a.getLsbD n && decide (31 - j = n))) := by
  have hplace : 31 - n = j ↔ 31 - j = n := by omega
  have hlt : 31 - n < 32 := by omega
  cases a.getLsbD n with
  | true => rw [if_pos rfl, BitVec.getLsbD_or, BitVec.getLsbD_twoPow, decide_eq_true hlt, decide_eq_decide.2 hplace]
  | false => rw [if_neg (by simp), Bool.false_and, Bool.or_false]

/-- The bits that its first n steps set. -/
theorem getLsbD_brev_fold (a : Word) {n j : Nat} (hn : n ≤ 32) (hj : j < 32) :
    ((List.range n).foldl (fun x i => if a.getLsbD i then x ||| BitVec.twoPow 32 (31 - i) else x) (0 : Word)).getLsbD j =
      (decide (31 - j < n) && a.getLsbD (31 - j)) := by
  induction n with
  | zero => simp
  | succ n ih =>
    rw [List.range_succ, List.foldl_append, List.foldl_cons, List.foldl_nil, getLsbD_brev_step _ _ (by omega) hj,
      ih (by omega)]
    rcases lt_trichotomy (31 - j) n with h | h | h
    · simp [h, h.ne, Nat.lt_succ_of_lt h]
    · simp [h]
    · have hlater : ¬31 - j < n + 1 := by omega
      simp [h.ne', h.not_gt, hlater]

theorem brev_eq (a : Word) : brev a = BitVec.ofFnLE fun i : Fin 32 => a.getLsbD (31 - i.val) := by
  refine BitVec.eq_of_getLsbD_eq fun i hi => ?_
  have hlt : 31 - i < 32 := by omega
  rw [BitVec.getLsbD_ofFnLE, dif_pos hi]
  refine (getLsbD_brev_fold a le_rfl hi).trans ?_
  rw [decide_eq_true hlt, Bool.true_and]

/-! ## Moves -/

/-- The sign of a byte in every bit of a byte. -/
theorem testBit_signByte {y j : Nat} (hy : y < 256) (hj : j < 8) : (if 128 ≤ y then 0xFF else 0).testBit j = y.testBit 7 := by
  have hsign : y.testBit 7 = decide (128 ≤ y) := by
    rw [Nat.testBit_eq_decide_div_mod_eq, decide_eq_decide]
    omega
  rw [hsign]
  by_cases h : 128 ≤ y
  · rw [if_pos h, decide_eq_true h, show 0xFF = 2 ^ 8 - 1 from rfl, Nat.testBit_two_pow_sub_one, decide_eq_true hj]
  · rw [if_neg h, decide_eq_false h, Nat.zero_testBit]

/-- A bit of a byte that MV.PRM selects. -/
theorem testBit_prmByte (a b c : Word) (i : Nat) {j : Nat} (hj : j < 8) :
    (prmByte a b c i).testBit j =
      let n := c.toNat / 16 ^ i % 16
      let k := 8 * (n % 8) + (if 8 ≤ n then 7 else j)
      if k < 32 then a.getLsbD k else b.getLsbD (k - 32) := by
  extract_lets n k
  have hbit {m : Nat} (hm : m < 8) : ((a.toNat + 2 ^ 32 * b.toNat) / 256 ^ (n % 8) % 256).testBit m =
      if 8 * (n % 8) + m < 32 then a.getLsbD (8 * (n % 8) + m) else b.getLsbD (8 * (n % 8) + m - 32) := by
    rw [show (256 : Nat) = 2 ^ 8 from rfl, Nat.testBit_mod_two_pow, decide_eq_true hm, Bool.true_and, ← pow_mul,
      Nat.testBit_div_two_pow, Nat.add_comm a.toNat, Nat.testBit_two_pow_mul_add _ a.isLt, Nat.add_comm m]
    rfl
  have hbyte : prmByte a b c i = if 8 ≤ n then (if 128 ≤ (a.toNat + 2 ^ 32 * b.toNat) / 256 ^ (n % 8) % 256 then 0xFF else 0)
    else (a.toNat + 2 ^ 32 * b.toNat) / 256 ^ (n % 8) % 256 := rfl
  by_cases h : 8 ≤ n
  · have hk : k = 8 * (n % 8) + 7 := by simp only [k, if_pos h]
    rw [hbyte, if_pos h, hk, ← hbit (by omega : 7 < 8)]
    exact testBit_signByte (Nat.mod_lt _ (by omega)) hj
  · have hk : k = 8 * (n % 8) + j := by simp only [k, if_neg h]
    rw [hbyte, if_neg h, hk, hbit hj]

theorem getLsbD_bytes {y : Nat → Nat} (hy : ∀ i, y i < 256) {i : Nat} (hi : i < 32) :
    (BitVec.ofNat 32 (y 0 + 256 * y 1 + 65536 * y 2 + 16777216 * y 3)).getLsbD i = (y (i / 8)).testBit (i % 8) := by
  have hsum : y 0 + 256 * y 1 + 65536 * y 2 + 16777216 * y 3 =
      2 ^ 8 * (2 ^ 8 * (2 ^ 8 * y 3 + y 2) + y 1) + y 0 := by ring
  have hbyte (x : Nat) {b : Nat} (hb : b < 256) (j : Nat) :
      (2 ^ 8 * x + b).testBit j = if j < 8 then b.testBit j else x.testBit (j - 8) := Nat.testBit_two_pow_mul_add x hb j
  rw [BitVec.getLsbD_ofNat, decide_eq_true hi, Bool.true_and, hsum, hbyte _ (hy 0), hbyte _ (hy 1), hbyte _ (hy 2)]
  obtain h | h | h | h : i / 8 = 0 ∨ i / 8 = 1 ∨ i / 8 = 2 ∨ i / 8 = 3 := by omega
  · rw [h, if_pos (by omega), show i % 8 = i by omega]
  · rw [h, if_neg (by omega), if_pos (by omega), show i % 8 = i - 8 by omega]
  · rw [h, if_neg (by omega), if_neg (by omega), if_pos (by omega), show i % 8 = i - 8 - 8 by omega]
  · rw [h, if_neg (by omega), if_neg (by omega), if_neg (by omega), show i % 8 = i - 8 - 8 - 8 by omega]

theorem shiftLeft_eq_ofInt_mul {w : Nat} (x : Int) (n : Nat) : BitVec.ofInt w x <<< n = BitVec.ofInt w (x * 2 ^ n) := by
  have hpow : BitVec.ofInt w (2 ^ n) = BitVec.twoPow w n := by
    apply BitVec.eq_of_toNat_eq
    rw [BitVec.toNat_twoPow, ← BitVec.toNat_ofNat, ← BitVec.ofInt_natCast]
    push_cast
    rfl
  rw [BitVec.ofInt_mul, hpow, BitVec.shiftLeft_eq_mul_twoPow]

theorem prmByte_lt (a b c : Word) (i : Nat) : prmByte a b c i < 256 := by
  have hmod (x : Nat) : x % 256 < 256 := Nat.mod_lt _ (by omega)
  dsimp only [prmByte]
  split
  · split <;> omega
  · exact hmod _

theorem prm_eq (a b c : Word) :
    BitVec.ofNat 32 (prmByte a b c 0 + 256 * prmByte a b c 1 + 65536 * prmByte a b c 2 + 16777216 * prmByte a b c 3) =
      BitVec.ofFnLE fun i : Fin 32 =>
        let n := c.toNat / 16 ^ (i.val / 8) % 16
        let k := 8 * (n % 8) + (if 8 ≤ n then 7 else i.val % 8)
        if k < 32 then a.getLsbD k else b.getLsbD (k - 32) := by
  refine BitVec.eq_of_getLsbD_eq fun i hi => ?_
  rw [getLsbD_bytes (prmByte_lt a b c) hi, testBit_prmByte a b c _ (Nat.mod_lt i (by omega)), BitVec.getLsbD_ofFnLE, dif_pos hi]

/-- Settles O10: each form by the number or the bits that its operation gives. -/
theorem shiftsFieldsMoves : Obligations.ShiftsFieldsMoves := by
  intro o s g gr
  refine ⟨fun w64 hr => ⟨?_, ?_, ?_, ?_, ?_⟩, fun ps sn w64 hr => ?_, fun sh u hr => ?_, fun hr => ⟨fun left => ?_, fun sx => ?_,
    ?_, ?_, ?_, ?_, ?_, ?_⟩⟩
  · dsimp only [exec, execShShl]
    exact shForm_lanes (r := fun w a n => if n < w then (a : Int) * 2 ^ n % 2 ^ w else 0) hr shl_eq_ofInt shl_eq_ofInt
  · dsimp only [exec, execShShr]
    exact shForm_lanes (r := fun w a n => if n < w then (a : Int) / 2 ^ n else 0) hr shr_eq_ofInt shr_eq_ofInt
  · dsimp only [exec, execShShr]
    exact shForm_lanes (r := fun w a n => (if a < 2 ^ (w - 1) then (a : Int) else a - 2 ^ w) / 2 ^ n) hr
      (fun a n => sar_eq_ofInt a n (by omega)) fun a n => sar_eq_ofInt a n (by omega)
  · dsimp only [exec, execShRot]
    exact shForm_lanes (r := fun w a n => (a : Int) * 2 ^ (n % w) % 2 ^ w + a / 2 ^ (w - n % w)) hr
      (fun a n => rol_eq_ofInt a n (by omega)) fun a n => rol_eq_ofInt a n (by omega)
  · exact lanewise_ready hr _
  · exact lanewise_lanes hr fun W _ L => congrArg (L.putDW o.d w64) (apply_ite _ _ _ _)
  · refine lanewise_lanes hr fun W _ L => congrArg (L.putD64 o.d) ?_
    rw [BitVec.ofInt_add, ← shiftLeft_eq_ofInt_mul, BitVec.ofInt_natCast, BitVec.ofNat_toNat, BitVec.setWidth_eq]
    cases u with
    | true => rw [if_pos rfl, if_pos rfl, BitVec.ofInt_natCast, BitVec.ofNat_toNat]
    | false => rfl
  · exact lanewise_lanes hr fun W _ L => congrArg (L.putD o.d) (funnel_eq_ofNat left _ _ _)
  · exact lanewise_lanes hr fun W _ L => congrArg (L.putD o.d) (bfExt_eq sx _ _)
  · exact lanewise_lanes hr fun W _ L => congrArg (L.putD o.d) (bfIns_eq _ _ _)
  · exact lanewise_lanes hr fun W _ L => congrArg (fun n => L.putD o.d (BitVec.ofNat 32 n)) (popc_eq _)
  · exact lanewise_lanes hr fun W _ L => congrArg (fun n => L.putD o.d (BitVec.ofNat 32 n)) (clz_eq _)
  · exact lanewise_lanes hr fun W _ L => congrArg (L.putD o.d) (brev_eq _)
  · exact lanewise_ready hr _
  · exact lanewise_lanes hr fun W _ L => congrArg (L.putD o.d) (prm_eq _ _ _)

end Sys2Proof.Machine
end

section
/-! PROOFS. O13: parameter reads and reads of one lane into uniform registers (06_registers_arithmetic R148, R150). -/

namespace Sys2Proof.Machine

/-! ## Changes of uniform registers, warp after warp -/

theorem Warp.getS_setS {W : Warp} (h : AMap.sorted W.s = true) (n : Nat) (x : Word) : (W.setS n x).getS n = x :=
  AMap.getD_putD_same _ _ _ _ h

/-- The blocks, the warps that are there, and their lanes are the same. -/
structure State.SameLanes (s t : State) : Prop where
  blocks : t.blocks = s.blocks
  present : ∀ w, (t.warps.get? w).isSome = (s.warps.get? w).isSome
  lanes : ∀ w, (t.warp w).lanes = (s.warp w).lanes

section
variable {s t : State}

theorem State.SameLanes.refl (s : State) : s.SameLanes s := ⟨rfl, fun _ => rfl, fun _ => rfl⟩

theorem State.SameLanes.modWarp (h : s.SameLanes t) (v : Nat) {f : Warp → Warp} (hf : ∀ W, (f W).lanes = W.lanes) :
    s.SameLanes (t.modWarp v f) := by
  obtain ⟨hblocks, hpresent, hlanes⟩ := h
  refine ⟨hblocks, fun w => by rw [State.isSome_modWarp, hpresent], fun w => ?_⟩
  cases hv : t.warps.get? v with
  | none => rw [State.modWarp_absent _ hv, hlanes]
  | some V =>
    by_cases hw : w = v
    · subst hw
      rw [State.warp_modWarp_same _ (by rw [hv]; rfl), hf, hlanes]
    · rw [State.warp_modWarp_other _ _ hw, hlanes]

theorem State.SameLanes.lane (h : s.SameLanes t) (w l : Nat) : t.lane w l = s.lane w l := by
  rw [State.lane, Warp.lane, h.lanes]
  rfl

theorem State.SameLanes.execs (h : s.SameLanes t) (gr : Group) (p : Pred) : t.execs gr p = s.execs gr p := by
  unfold State.execs
  refine congrArg (List.filter · _) (funext fun x => ?_)
  rw [State.exec?, h.lane]
  rfl

/-- Steps that change one warp each leave the warps that they do not name. -/
theorem State.warp_foldl_other {step : State → Nat → State} (hother : ∀ t v w, w ≠ v → (step t v).warp w = t.warp w)
    {ws : List Nat} {w : Nat} (hw : w ∉ ws) (s : State) : (ws.foldl step s).warp w = s.warp w :=
  List.foldlRecOn (motive := fun t : State => t.warp w = s.warp w) ws _ rfl fun t ht v hv =>
    (hother t v w fun heq => hw (heq ▸ hv)).trans ht

/-- Of steps that change one warp each, the one that names a warp finds it as it was at first, and makes what it is at
last. -/
theorem State.warp_foldl_once {step : State → Nat → State} (hother : ∀ t v w, w ≠ v → (step t v).warp w = t.warp w)
    (hsame : ∀ t v, s.SameLanes t → s.SameLanes (step t v)) {ws : List Nat} (hn : ws.Nodup) {w : Nat} (hw : w ∈ ws) :
    ∃ t, s.SameLanes t ∧ t.warp w = s.warp w ∧ (ws.foldl step s).warp w = (step t w).warp w := by
  obtain ⟨before, after, rfl⟩ := List.append_of_mem hw
  have hnot : w ∉ before ∧ w ∉ after := by
    rw [List.nodup_append] at hn
    obtain ⟨-, hafter, hapart⟩ := hn
    exact ⟨fun h => hapart w h w (by simp) rfl, (List.nodup_cons.1 hafter).1⟩
  obtain ⟨hbefore, hafter⟩ := hnot
  refine ⟨before.foldl step s, ?_, State.warp_foldl_other hother hbefore s, ?_⟩
  · exact List.foldlRecOn (motive := fun t : State => s.SameLanes t) before _ (.refl s) fun t ht v _ => hsame t v ht
  · rw [List.foldl_append, List.foldl_cons, State.warp_foldl_other hother hafter]

end

theorem State.getS_retire (s : State) (g : Nat) (gr : Group) (w n : Nat) :
    ((s.retire g gr).warp w).getS n = (s.warp w).getS n := by
  unfold State.retire
  split
  · rw [State.warp_endClause]
    rfl
  · rfl

/-- Steps that change threads only, and then retiring. -/
theorem State.onlyThreads_foldl_retire (s : State) (g : Nat) (gr : Group) {step : State → Nat → State}
    (hstep : ∀ (t : State) w, t.onlyThreads (step t w)) (ws : List Nat) : s.onlyThreads ((ws.foldl step (s.atWord g)).retire g gr) :=
  State.onlyThreads_trans (s.onlyThreads_atWord g)
    (State.onlyThreads_trans (State.onlyThreads_foldl _ hstep _ _) (State.onlyThreads_retire _ _ _))

/-! ## Parameter reads -/

/-- Four digits as one number, the first the lowest. -/
theorem sum_four_digits (x : Nat → Nat) :
    ((List.range 4).map fun i => x i * 256 ^ i).sum = ((x 3 * 2 ^ 8 + x 2) * 2 ^ 8 + x 1) * 2 ^ 8 + x 0 := by
  simp only [List.range_succ, List.range_zero, List.map_append, List.map_cons, List.map_nil, List.sum_append, List.sum_cons,
    List.sum_nil]
  ring

theorem ofNat_bytes_eq_append (p : Nat → Byte) :
    BitVec.ofNat 32 (((List.range 4).map fun i => (p i).toNat * 256 ^ i).sum) = (p 3 ++ p 2 ++ p 1 ++ p 0 : Word) := by
  rw [sum_four_digits fun i => (p i).toNat, ← toNat_append_eq_add, ← toNat_append_eq_add, ← toNat_append_eq_add,
    BitVec.ofNat_toNat, BitVec.setWidth_eq]

theorem Block.paramWord_eq (B : Block) (off : Nat) :
    B.paramWord off = if off + 4 ≤ B.paramLen then
      (B.param.getD (off + 3) 0 ++ B.param.getD (off + 2) 0 ++ B.param.getD (off + 1) 0 ++ B.param.getD off 0 : Word) else 0 := by
  unfold Block.paramWord
  rw [ofNat_bytes_eq_append fun i => B.param.getD (off + i) 0]
  rfl

theorem Warp.lanes_putU (W : Warp) (d : USrc) (x : Word) : (W.putU d x).lanes = W.lanes := by
  cases d <;> rfl

/-- The word that ULD.C reads for one warp, at its offset. -/
def State.uldStep (off : Nat → Word) (d : USrc) (t : State) (w : Nat) : State :=
  t.modWarp w fun W => W.putU d ((t.block W.block).paramWord (off w).toNat)

/-- The offset of ULD.C in a warp. -/
def State.uldOff (s : State) (o : UOps) (w : Nat) : Word := usrc32 (s.warp w) o.a + usrc32 (s.warp w) o.b

section
variable {s : State} {g : Nat} {gr : Group} {o : UOps}

/-- Where every offset is aligned, each warp reads its word. -/
theorem exec_uldC (hr : s.ReadyU g gr (uniReads o)) (halign : ∀ w ∈ gr.warpIds, (s.uldOff o w).toNat % 4 = 0) :
    exec (.uldC o) s = .next ((gr.warpIds.foldl (State.uldStep (s.uldOff o) o.d) (s.atWord g)).retire g gr) := by
  have hbad : (gr.warpIds.filter fun w => (s.uldOff o w).toNat % 4 != 0) = [] :=
    List.filter_eq_nil_iff.2 fun w hw => by simp [halign w hw]
  dsimp only [exec, execUldC]
  rw [issueUni_ready hr]
  unfold State.uldOff at hbad
  simp only [State.atWord_warp, hbad, List.map_nil, State.raising_nil, List.contains_nil, Bool.false_eq_true, if_false]
  rfl

theorem State.uldStep_other (off : Nat → Word) (d : USrc) (t : State) {v w : Nat} (h : w ≠ v) :
    (State.uldStep off d t v).warp w = t.warp w := State.warp_modWarp_other _ _ h

/-- What ULD.C leaves in its s register. -/
theorem getS_uldC (hok : s.threadsOk) {n : Fin 48} (off : Nat → Word) {w : Nat} (hw : w ∈ gr.warpIds)
    (hpresent : (s.warps.get? w).isSome = true) :
    (((gr.warpIds.foldl (State.uldStep off (.s n)) (s.atWord g)).retire g gr).warp w).getS n =
      (s.block (s.warp w).block).paramWord (off w).toNat := by
  obtain ⟨t, hsame, hwarp, hfold⟩ := State.warp_foldl_once (s := s.atWord g) (ws := gr.warpIds) (w := w)
    (fun t v w h => State.uldStep_other off (.s n) t h)
    (fun t v h => h.modWarp v fun W => W.lanes_putU _ _) gr.nodup_warpIds hw
  have hthere : (t.warps.get? w).isSome = true := (hsame.present w).trans hpresent
  have hblock (b : Nat) : t.block b = s.block b := by
    rw [State.block, hsame.blocks]
    rfl
  obtain ⟨hsorted, -, -⟩ := Warp.tidy.of_state hok (w := w)
  rw [State.getS_retire, hfold, State.uldStep, State.warp_modWarp_same _ hthere, hwarp, State.atWord_warp, hblock]
  exact Warp.getS_setS hsorted _ _

end

/-! ## Reads of one lane -/

/-- The executing lanes of a warp, in the group's order. -/
theorem State.execs_of_warp (s : State) (gr : Group) (p : Pred) (w : Nat) :
    ((s.execs gr p).filter (·.1 == w)).map (·.2) = (gr.lanesOf w).filter fun l => s.exec? p (w, l) := by
  unfold State.execs Group.lanesOf
  rw [List.filter_map, List.filter_filter, List.filter_filter]
  refine congrArg (List.map _) (List.filter_congr fun x _ => ?_)
  by_cases h : x.1 = w
  · subst h
    simp
  · simp [beq_eq_false_iff_ne.2 h]

section
variable {s t : State} {g : Nat} {gr : Group} {o : Ops} {w k : Nat}

theorem State.rdlLane_mem (h : s.rdlLane gr o w = some k) : (w, k) ∈ s.execs gr o.pr := by
  unfold State.rdlLane at h
  dsimp only at h
  generalize (if o.b = .none then _ else _ : Nat) = j at h
  split at h
  next hin =>
    cases h
    simpa using hin
  next => cases h

/-- The lane that B names, or without B the lowest executing one, is the one that is read. -/
theorem State.rdlLane_eq (hk : (w, k) ∈ s.execs gr o.pr)
    (hnamed : (o.b ≠ .none ∧ k = (src32 (s.warp w) {} o.b).toNat % 32) ∨
      (o.b = .none ∧ ∃ ls rest, gr.lanesOf w = ls ++ k :: rest ∧ ∀ l ∈ ls, s.exec? o.pr (w, l) = false)) :
    s.rdlLane gr o w = some k := by
  have hin : (((s.execs gr o.pr).filter (·.1 == w)).map (·.2)).contains k = true := by simpa using hk
  unfold State.rdlLane
  dsimp only
  rcases hnamed with ⟨hb, rfl⟩ | ⟨hb, ls, rest, hlanes, hidle⟩
  · rw [if_neg hb, if_pos hin]
  · have hexec : s.exec? o.pr (w, k) = true := by
      unfold State.execs at hk
      exact (List.mem_filter.1 hk).2
    have hnone : (ls.filter fun l => s.exec? o.pr (w, l)) = [] :=
      List.filter_eq_nil_iff.2 fun l hl => by simp [hidle l hl]
    have hlow : (((s.execs gr o.pr).filter (·.1 == w)).map (·.2)).headD 32 = k := by
      rw [State.execs_of_warp, hlanes, List.filter_append, hnone, List.nil_append,
        List.filter_cons_of_pos (p := fun l => s.exec? o.pr (w, l)) hexec]
      rfl
    rw [if_pos hb, hlow, if_pos hin]

theorem State.SameLanes.rdlLane (h : s.SameLanes t) (hw : t.warp w = s.warp w) : t.rdlLane gr o w = s.rdlLane gr o w := by
  unfold State.rdlLane
  rw [h.execs, hw]

/-- What XL.RDL does for one warp. -/
def State.rdlStep (gr : Group) (o : Ops) (t : State) (w : Nat) : State :=
  match t.rdlLane gr o w with
  | some k => t.modWarp w fun W =>
      let x := if (W.badReg (W.lane k) (srcV o.a 1) []).isSome then 0 else srcW false W (W.lane k) o.a
      match o.d with
      | .s n => W.setS n.val (lo32 x)
      | .v _ | .p _ | .none => W
  | none => t

theorem State.rdlStep_other (gr : Group) (o : Ops) (t : State) {v w : Nat} (h : w ≠ v) :
    (State.rdlStep gr o t v).warp w = t.warp w := by
  unfold State.rdlStep
  split
  · exact State.warp_modWarp_other _ _ h
  · rfl

theorem State.SameLanes.rdlStep (h : s.SameLanes t) (v : Nat) : s.SameLanes (State.rdlStep gr o t v) := by
  unfold State.rdlStep
  split
  · refine h.modWarp v fun W => ?_
    dsimp only
    split <;> rfl
  · exact h

theorem State.onlyThreads_rdlStep (gr : Group) (o : Ops) (t : State) (w : Nat) : t.onlyThreads (State.rdlStep gr o t w) := by
  unfold State.rdlStep
  split
  · exact t.onlyThreads_modWarp _ _
  · exact t.onlyThreads_refl

/-- Where no executing lane has an error in A's register, none is reported. -/
theorem State.rdlEcc_nil (hgood : ∀ x ∈ s.execs gr o.pr, ∀ r ∈ srcV o.a 1, r ∉ (s.lane x.1 x.2).vBad) :
    s.rdlEcc gr o false = [] := by
  unfold State.rdlEcc
  refine List.filterMap_eq_nil_iff.2 fun w _ => Option.bind_eq_none_iff.2 fun k hk => ?_
  have hnone : (s.warp w).badReg ((s.warp w).lane k) (srcV o.a (wd false)) [] = none :=
    Warp.badReg_none (hgood (w, k) (State.rdlLane_mem hk)) (by simp)
  rw [hnone]
  split <;> rfl

/-- A word that may read its operands may also leave A unread. -/
theorem State.Ready.withoutA (h : s.Ready g gr o {}) : s.Ready g gr { o with a := .none } {} := by
  obtain ⟨hcur, hfits, hguard, hsound⟩ := h
  have hreads : ({} : Widths).readsV { o with a := .none } ⊆ ({} : Widths).readsV o := by
    intro r hr
    simp only [Widths.readsV, srcV, List.nil_append, List.mem_append] at hr ⊢
    tauto
  refine ⟨hcur, fun w hw r hr => hfits w hw r ?_, hguard, fun x hx => ?_⟩
  · rcases List.mem_append.1 hr with hr | hr
    · exact List.mem_append_left _ hr
    · exact List.mem_append_right _ (hreads hr)
  · obtain ⟨hv, hs⟩ := hsound x hx
    refine ⟨fun r hr => hv r ?_, fun r hr => hs r ?_⟩
    · rcases List.mem_append.1 hr with hr | hr
      · exact List.mem_append_left _ (hreads hr)
      · exact List.mem_append_right _ hr
    · simp only [Widths.readsS, srcS, List.nil_append, List.mem_append] at hr ⊢
      tauto

theorem State.Ready.allocOk_a (h : s.Ready g gr o {}) : allocOk s gr (srcV o.a 1) = true :=
  allocOk_of_fits fun w hw r hr => h.fits w hw r (by simp [Widths.all, Widths.readsV, hr])

theorem exec_xlRdl (hr : s.Ready g gr o {})
    (hgood : ∀ x ∈ s.execs gr o.pr, ∀ r ∈ srcV o.a 1, r ∉ (s.lane x.1 x.2).vBad) :
    exec (.xlRdl o false) s = .next ((gr.warpIds.foldl (State.rdlStep gr o) (s.atWord g)).retire g gr) := by
  have halloc : allocOk s gr (srcV o.a (wd false)) = true := hr.allocOk_a
  have hecc : (s.atWord g).rdlEcc gr o false = [] := State.rdlEcc_nil (s := s.atWord g) hgood
  dsimp only [exec, execXlRdl]
  unfold issueUnless
  rw [hr.current]
  simp only [halloc, Bool.not_true, Bool.false_eq_true, if_false]
  rw [issueLane_ready hr.withoutA false (by simp), hecc, State.reportRegs, List.foldl_nil, State.raising_nil]
  rfl

/-- What XL.RDL leaves in its s register. -/
theorem getS_xlRdl (hok : s.threadsOk) {n : Fin 48} (hd : o.d = .s n) (hw : w ∈ gr.warpIds)
    (hpresent : (s.warps.get? w).isSome = true) (hk : s.rdlLane gr o w = some k)
    (hgood : ∀ r ∈ srcV o.a 1, r ∉ (s.lane w k).vBad) :
    (((gr.warpIds.foldl (State.rdlStep gr o) (s.atWord g)).retire g gr).warp w).getS n =
      src32 (s.warp w) (s.lane w k) o.a := by
  obtain ⟨t, hsame, hwarp, hfold⟩ := State.warp_foldl_once (s := s.atWord g) (ws := gr.warpIds) (w := w)
    (fun t v w h => State.rdlStep_other gr o t h) (fun t v h => h.rdlStep v) gr.nodup_warpIds hw
  have hthere : (t.warps.get? w).isSome = true := (hsame.present w).trans hpresent
  have hlane : t.rdlLane gr o w = some k := (hsame.rdlLane hwarp).trans hk
  have hnone : (s.warp w).badReg ((s.warp w).lane k) (srcV o.a 1) [] = none := Warp.badReg_none hgood (by simp)
  have hlow : lo32 (srcW false (s.warp w) ((s.warp w).lane k) o.a) = src32 (s.warp w) (s.lane w k) o.a :=
    extractLsb'_setWidth _
  obtain ⟨hsorted, -, -⟩ := Warp.tidy.of_state hok (w := w)
  rw [State.getS_retire, hfold, State.rdlStep, hlane]
  dsimp only
  rw [State.warp_modWarp_same _ hthere, hwarp, State.atWord_warp, hd, hnone]
  exact (Warp.getS_setS hsorted _ _).trans hlow

end

/-- Settles O13: each instruction is one change of each warp of the group, and what it puts into D is read before it. -/
theorem uniformReads : Obligations.UniformReads := by
  refine ⟨fun o s g gr n hr hd hok halign => ?_, fun o s g gr n w k hr hgood hd hok hpresent hw hk hnamed => ?_⟩
  · refine ⟨_, exec_uldC hr fun w hw => (halign w hw).2,
      s.onlyThreads_foldl_retire g gr (fun t w => t.onlyThreads_modWarp w _) _, fun w hw => ?_⟩
    obtain ⟨hpresent, -⟩ := halign w hw
    rw [hd, getS_uldC hok _ hw hpresent, Block.paramWord_eq]
    rfl
  · exact ⟨_, exec_xlRdl hr hgood, s.onlyThreads_foldl_retire g gr (State.onlyThreads_rdlStep gr o) _,
      getS_xlRdl hok hd hw hpresent (State.rdlLane_eq hk hnamed) (hgood (w, k) hk)⟩

end Sys2Proof.Machine
end

section
/-! PROOFS. O53: compaction moves one run (06_registers_arithmetic R129, R154; 07_matrix R175). -/

namespace Sys2Proof.Machine

theorem lowerPlace_lt {others : Runs} {base g a : Nat} (h : lowerPlace others base g = some a) : a < base := by
  have hfound := List.find?_some h
  simp only [Bool.and_eq_true, decide_eq_true_eq] at hfound
  exact hfound.1

/-- The runs beside the one of this owner. -/
def otherRuns (runs : List (Nat × Nat × Nat)) (w : Nat) : Runs := (runs.filter fun y => y.1 != w).map fun y => (y.2.1, y.2.2)

/-- The move that a compactor makes: of the runs that may move, the one of lowest base that can go to a lower place. -/
def lowestMove (runs : List (Nat × Nat × Nat)) (may : Nat × Nat × Nat → Bool) : Option (Nat × Nat) :=
  (sortBy (fun x => x.2.1) runs).findSome? fun x =>
    if may x then (lowerPlace (otherRuns runs x.1) x.2.1 x.2.2).map fun a => (x.1, a) else none

/-- The same, said by what keeps a run in its place. -/
theorem lowestMove_not (runs : List (Nat × Nat × Nat)) (stays : Nat × Nat × Nat → Bool) :
    lowestMove runs (fun x => !stays x) = (sortBy (fun x => x.2.1) runs).findSome? fun x =>
      if stays x then none else (lowerPlace (otherRuns runs x.1) x.2.1 x.2.2).map fun a => (x.1, a) := by
  unfold lowestMove
  refine congrArg (List.findSome? · _) (funext fun x => ?_)
  cases h : stays x <;> simp [h]

/-- Where some run that may move can, one that may moves to a lower base. -/
theorem lowestMove_spec {runs : List (Nat × Nat × Nat)} {may : Nat × Nat × Nat → Bool}
    (h : ∃ x, canSink runs x ∧ may x = true) :
    ∃ x a, x ∈ runs ∧ a < x.2.1 ∧ may x = true ∧ lowestMove runs may = some (x.1, a) := by
  obtain ⟨x, ⟨hx, hplace⟩, hmay⟩ := h
  change (lowerPlace (otherRuns runs x.1) x.2.1 x.2.2).isSome = true at hplace
  cases hmove : lowestMove runs may with
  | none =>
    have hnone := List.findSome?_eq_none_iff.1 hmove x ((mem_sortBy _ x runs).2 hx)
    rw [if_pos hmay, Option.map_eq_none_iff] at hnone
    rw [hnone] at hplace
    cases hplace
  | some y =>
    obtain ⟨z, hz, hfound⟩ := List.exists_of_findSome?_eq_some hmove
    split at hfound
    next hz' =>
      obtain ⟨a, ha, rfl⟩ := Option.map_eq_some_iff.1 hfound
      exact ⟨z, a, (mem_sortBy _ z runs).1 hz, lowerPlace_lt ha, hz', rfl⟩
    next => cases hfound

section
variable {s : State} {core : Nat} {q : BlockReq} (hq : s.wanted core = some q)
include hq

theorem exec_compactorMove {sub bank : Nat} (hshort : (s.shortOn core q).contains (.bank sub bank) = true) {w a : Nat}
    (hmove : lowestMove (s.bankRuns core sub bank) (fun x => s.quarterMoves x.1 bank) = some (w, a)) :
    exec (.compactorMove core sub bank) s =
      .next { s.modWarp w fun W => { W with quarters := W.quarters.set bank a } with moved := insertNat s.moved w } := by
  simp only [lowestMove, otherRuns, State.bankRuns] at hmove
  dsimp only [exec, execCompactorMove]
  rw [hq]
  simp only [hshort, Bool.not_true, Bool.false_eq_true, if_false, hmove]

theorem exec_lsCompaction (hshort : (s.shortOn core q).contains .store = true) {b a : Nat}
    (hmove : lowestMove (s.storeRuns core) (fun x => !(s.block x.1).warps.any s.pinned) = some (b, a)) :
    exec (.lsCompaction core) s = .next (s.modBlock b fun B => { B with lsBase := a }) := by
  simp only [lowestMove_not, otherRuns, State.storeRuns] at hmove
  dsimp only [exec, execLsCompaction]
  rw [hq]
  simp only [hshort, Bool.not_true, Bool.false_eq_true, if_false, hmove]

theorem exec_tileCompaction {sub : Nat} (hshort : (s.shortOn core q).contains (.tiles sub) = true) {w a : Nat}
    (hmove : lowestMove (s.tileRuns core sub) (fun x => !(s.pinned x.1 || s.tileBusy x.1)) = some (w, a)) :
    exec (.tileCompaction core sub) s =
      .next { s.modWarp w fun W => { W with tileBase := a } with moved := insertNat s.moved w } := by
  simp only [lowestMove_not, otherRuns, State.tileRuns] at hmove
  dsimp only [exec, execTileCompaction]
  rw [hq]
  simp only [hshort, Bool.not_true, Bool.false_eq_true, if_false, hmove]

end

/-- Settles O53: each compactor makes the lowest move of its runs, and that some run can sink says that there is one. -/
theorem compactorsMove : Obligations.CompactorsMove := by
  intro s core sub bank q hq
  refine ⟨fun hshort hsome => ?_, fun hshort hsome => ?_, fun hshort hsome => ?_⟩
  · obtain ⟨x, a, hx, ha, hmay, hmove⟩ := lowestMove_spec (may := fun x => s.quarterMoves x.1 bank) hsome
    exact ⟨x, a, hx, ha, hmay, exec_compactorMove hq hshort hmove⟩
  · have hfree (x : Nat × Nat × Nat) :
        (!(s.block x.1).warps.any s.pinned) = true ↔ ∀ w ∈ (s.block x.1).warps, s.pinned w = false := by
      simp [List.any_eq_false]
    obtain ⟨x, a, hx, ha, hmay, hmove⟩ := lowestMove_spec (runs := s.storeRuns core)
      (may := fun x => !(s.block x.1).warps.any s.pinned) (by simpa only [hfree] using hsome)
    exact ⟨x, a, hx, ha, (hfree x).1 hmay, exec_lsCompaction hq hshort hmove⟩
  · have hfree (x : Nat × Nat × Nat) :
        (!(s.pinned x.1 || s.tileBusy x.1)) = true ↔ s.pinned x.1 = false ∧ s.tileBusy x.1 = false := by simp
    obtain ⟨x, a, hx, ha, hmay, hmove⟩ := lowestMove_spec (runs := s.tileRuns core sub)
      (may := fun x => !(s.pinned x.1 || s.tileBusy x.1)) (by simpa only [hfree] using hsome)
    obtain ⟨hpinned, hbusy⟩ := (hfree x).1 hmay
    exact ⟨x, a, hx, ha, hpinned, hbusy, exec_tileCompaction hq hshort hmove⟩

end Sys2Proof.Machine
end

section
/-! SUPPORT. A block's local store while accesses are performed on it: the blocks that local addresses name, the lanes
that receive results, and the helper lanes of a group that has none (07_local_store_churn R155 to R159, R169). -/

namespace Sys2Proof.Machine

/-! ## Blocks after a change -/

theorem State.block_of_get? {s : State} {b : Nat} {B : Block} (h : s.blocks.get? b = some B) : s.block b = B := by
  simp [State.block, AMap.getD, h]

theorem State.block_setBlock (s : State) (b : Nat) (B : Block) (c : Nat) :
    (s.setBlock b B).block c = if c = b then B else s.block c := by
  rw [State.block, State.setBlock_blocks, AMap.getD, AMap.get?_set]
  split <;> rfl

theorem State.block_modBlock {s : State} {b : Nat} (h : (s.blocks.get? b).isSome = true) (f : Block → Block) (c : Nat) :
    (s.modBlock b f).block c = if c = b then f (s.block b) else s.block c := by
  obtain ⟨B, hB⟩ := Option.isSome_iff_exists.1 h
  rw [State.block_of_get? hB, State.modBlock, State.block, AMap.getD, AMap.get?_modify, hB]
  split <;> rfl

/-- Setting an entry that is there changes it in its place. -/
theorem AMap.set_eq_map {α : Type} {m : AMap α} (hs : m.sorted = true) {i : Nat} (h : (m.get? i).isSome = true) (x : α) :
    m.set i x = m.map fun e => if e.1 = i then (i, x) else e := by
  induction m with
  | nil => cases h
  | cons a m ih =>
    obtain ⟨k, v⟩ := a
    obtain ⟨hlt, hm⟩ := (AMap.sorted_cons _ _).1 hs
    by_cases hik : i < k
    · simp [AMap.get?, hik] at h
    by_cases heq : i = k
    · subst heq
      have hrest : (m.map fun e : Nat × α => if e.1 = i then (i, x) else e) = m :=
        (List.map_congr_left fun e he => if_neg (hlt e he).ne').trans (List.map_id m)
      simp [AMap.set, hrest]
    · simp only [AMap.get?, hik, heq, if_false] at h
      simp [AMap.set, hik, heq, ih hm h, Ne.symm heq]

/-- A block with other bytes in its store, and otherwise as it was. -/
def Block.storeOnly (B B' : Block) : Prop := B' = { B with ls := B'.ls, lsBad := B'.lsBad }

theorem Block.storeOnly_refl (B : Block) : B.storeOnly B := rfl

theorem Block.storeOnly_trans {B C D : Block} (h1 : B.storeOnly C) (h2 : C.storeOnly D) : B.storeOnly D := by
  unfold Block.storeOnly at *
  rw [h2, h1]

/-- An access changes bytes of the store alone. -/
theorem Block.storeOnly_lsPerform (B : Block) (act : LsAct) (off n : Nat) (val cmp : DWord) :
    B.storeOnly (B.lsPerform act off n val cmp).1 := by
  cases act <;> rfl

/-- Other bytes in a block's store leave the blocks that local addresses name (R155). -/
theorem State.lsTarget_setBlock {s : State} {b : Nat} (hs : AMap.sorted s.blocks = true)
    (hb : (s.blocks.get? b).isSome = true) {B : Block} (h : (s.block b).storeOnly B) (a x : Nat) :
    (s.setBlock b B).lsTarget a x = s.lsTarget a x := by
  have hblock (c : Nat) : ((s.setBlock b B).block c).launch = (s.block c).launch ∧
      ((s.setBlock b B).block c).cluster = (s.block c).cluster := by
    rw [State.block_setBlock]
    split
    next hc =>
      rw [hc, h]
      exact ⟨rfl, rfl⟩
    next => exact ⟨rfl, rfl⟩
  have hfind (l k cb : Nat) :
      ((s.setBlock b B).blocks.find? fun e => e.2.launch == l && e.2.cluster == k && e.2.cblock == cb).map (·.1) =
        (s.blocks.find? fun e => e.2.launch == l && e.2.cluster == k && e.2.cblock == cb).map (·.1) := by
    have hmap : s.blocks.set b B = s.blocks.map fun e => if e.1 = b then (b, B) else e := AMap.set_eq_map hs hb B
    have hkey (e : Nat × Block) (he : e ∈ s.blocks) : e.1 = b → e.2 = s.block b := fun heb => by
      rw [State.block, AMap.getD, ← heb, AMap.get?_of_mem hs he]
      rfl
    rw [State.setBlock_blocks, hmap, List.find?_map, Option.map_map]
    have hsame : ∀ e ∈ s.blocks, ((fun e : Nat × Block => e.2.launch == l && e.2.cluster == k && e.2.cblock == cb) ∘
        fun e => if e.1 = b then (b, B) else e) e = (e.2.launch == l && e.2.cluster == k && e.2.cblock == cb) := by
      intro e he
      by_cases heb : e.1 = b
      · simp only [Function.comp_apply, if_pos heb]
        rw [hkey e he heb, h]
      · simp only [Function.comp_apply, if_neg heb]
    rw [List.find?_congr hsame]
    refine congrArg (Option.map · _) (funext fun e => ?_)
    by_cases heb : e.1 = b
    · simp [heb]
    · simp [heb]
  obtain ⟨hlaunch, hcluster⟩ := hblock a
  unfold State.lsTarget
  dsimp only
  rw [hlaunch, hcluster, hfind]
  rfl

/-! ## What a change of threads leaves -/

section
variable {s t : State}

theorem State.onlyThreads.mem (h : s.onlyThreads t) : t.mem = s.mem := by
  unfold State.onlyThreads at h
  rw [h]

theorem State.onlyThreads.ops (h : s.onlyThreads t) : t.ops = s.ops := by
  unfold State.onlyThreads at h
  rw [h]

theorem State.onlyThreads.remotes (h : s.onlyThreads t) : t.remotes = s.remotes := by
  unfold State.onlyThreads at h
  rw [h]

theorem State.onlyThreads.spills (h : s.onlyThreads t) : t.spills = s.spills := by
  unfold State.onlyThreads at h
  rw [h]

theorem State.onlyThreads.blocks (h : s.onlyThreads t) : t.blocks = s.blocks := by
  unfold State.onlyThreads at h
  rw [h]

theorem State.onlyThreads.block (h : s.onlyThreads t) (b : Nat) : t.block b = s.block b := by
  rw [State.block, h.blocks]
  rfl

end

/-! ## Groups of thread lanes -/

/-- A group without helper lanes has none whose destinations receive 0. -/
theorem State.zeroHelpers_of_live {s : State} {gr : Group} (h : ∀ x ∈ gr.lanes, s.isLive x = true) (o : Ops) (width : Nat) :
    s.zeroHelpers gr o width = s := by
  have hnone : s.execHelpers gr o.pr = [] :=
    List.filter_eq_nil_iff.2 fun x hx => by simp [h x (List.mem_of_mem_filter hx)]
  rw [State.zeroHelpers, hnone]
  rfl

theorem Lane.life_putRes (L : Lane) (dst : Option Nat) (n : Nat) (x : DWord) : (L.putRes dst n x).life = L.life := by
  unfold Lane.putRes
  split
  · split <;> rfl
  · rfl

/-! ## Accesses to the own block's store -/

/-- What an access leaves of a block and of the registers of the lane that makes it. -/
def LsElem.perform (act : LsAct) (r : Block × Lane) (e : LsElem) : Block × Lane :=
  let q := r.1.lsPerform act (e.x.toNat % 2 ^ 19) e.n e.val e.cmp
  (q.1, r.2.putRes e.dst e.dstLen q.2)

/-- Accesses of lane l of warp w to block b have left this of them, and of everything else what it was. -/
structure State.LsDone (s t : State) (b w l : Nat) (r : Block × Lane) : Prop where
  rest : t = { s with blocks := t.blocks, warps := t.warps }
  sorted : AMap.sorted t.blocks = true
  present : (t.blocks.get? b).isSome = true
  block : t.block b = r.1
  store : (s.block b).storeOnly r.1
  others : ∀ c, c ≠ b → t.block c = s.block c
  targets : ∀ a x, t.lsTarget a x = s.lsTarget a x
  warp : (t.warps.get? w).isSome = true
  lanesOk : t.lanesOk
  lane : t.lane w l = r.2
  life : r.2.life = (s.lane w l).life

section
variable {s t : State} {b w l : Nat} {r : Block × Lane}

theorem State.LsDone.start {B : Block} (hb : s.blocks.get? b = some B) (hs : AMap.sorted s.blocks = true) (hl : s.lanesOk)
    (hw : (s.warps.get? w).isSome = true) : s.LsDone s b w l (B, s.lane w l) where
  rest := rfl
  sorted := hs
  present := by simp [hb]
  block := State.block_of_get? hb
  store := State.block_of_get? hb ▸ Block.storeOnly_refl _
  others _ _ := rfl
  targets _ _ := rfl
  warp := hw
  lanesOk := hl
  lane := rfl
  life := rfl

/-- One more access, at an address that names the block, on its own core. -/
theorem State.LsDone.access (h : s.LsDone t b w l r) {gr : Group} {e : LsElem} (ht : s.lsTarget gr.block e.x.toNat = some b)
    (hcore : (s.block b).core = gr.core) (work : Nat) (act : LsAct) :
    s.LsDone (t.lsAccess gr w l work act e) b w l (e.perform act r) := by
  have hstep : t.lsAccess gr w l work act e =
      (t.setBlock b (e.perform act r).1).modLane w l fun _ => (e.perform act r).2 := by
    have hr : (t.block b).core = gr.core := by rw [h.block, h.store]; exact hcore
    have hlane : (t.setBlock b (e.perform act r).1).lane w l = r.2 := h.lane
    unfold State.lsAccess
    rw [h.targets, ht]
    dsimp only
    rw [if_pos hr, h.block]
    refine State.modWarp_congr (congrArg (Warp.setLane _ l) ?_)
    exact congrArg (Lane.putRes · e.dst e.dstLen _) hlane
  have hstore : r.1.storeOnly (e.perform act r).1 := Block.storeOnly_lsPerform _ _ _ _ _ _
  have hwarps : ((t.setBlock b (e.perform act r).1).warps.get? w).isSome = true := h.warp
  have hblock (c : Nat) : (t.lsAccess gr w l work act e).block c = if c = b then (e.perform act r).1 else t.block c := by
    rw [hstep]
    exact State.block_setBlock t b _ c
  rw [hstep] at hblock ⊢
  refine ⟨?_, AMap.sorted_set _ _ h.sorted, ?_, ?_, Block.storeOnly_trans h.store hstore, fun c hc => ?_, fun a x => ?_, ?_, ?_, ?_, ?_⟩
  · rw [State.modLane, State.modWarp, State.setBlock, h.rest]
  · show ((t.blocks.set b _).get? b).isSome = true
    rw [AMap.get?_set_same]
    rfl
  · rw [hblock, if_pos rfl]
  · rw [hblock, if_neg hc, h.others c hc]
  · exact (State.lsTarget_setBlock h.sorted h.present (h.block ▸ hstore) a x).trans (h.targets a x)
  · rw [State.modLane, State.isSome_modWarp]
    exact hwarps
  · exact State.lanesOk_modLane (s := t.setBlock b _) h.lanesOk w l _
  · exact State.lane_modLane_same (s := t.setBlock b _) h.lanesOk hwarps l _
  · exact (Lane.life_putRes _ _ _ _).trans h.life

/-- Accesses one after another. -/
theorem State.LsDone.accesses (h : s.LsDone t b w l r) {gr : Group} {es : List LsElem}
    (ht : ∀ e ∈ es, s.lsTarget gr.block e.x.toNat = some b) (hcore : (s.block b).core = gr.core) (work : Nat) (act : LsAct) :
    s.LsDone (es.foldl (fun t e => t.lsAccess gr w l work act e) t) b w l (es.foldl (fun r e => e.perform act r) r) := by
  induction es generalizing t r with
  | nil => exact h
  | cons e es ih =>
    exact ih (h.access (ht e (by simp)) hcore work act) fun e he => ht e (List.mem_cons_of_mem _ he)

end

end Sys2Proof.Machine
end

section
/-! PROOFS. O37: accesses to the local store (07_local_store_churn R156 to R160, R169). -/

namespace Sys2Proof.Machine

/-! ## The checks before an access -/

theorem Block.badIn_nil {B : Block} (h : B.lsBad = []) (off n : Nat) : B.badIn off n = none := by
  simp [Block.badIn, h]

/-- An aligned access within the own block's store, without a Churn region, passes R156. -/
theorem State.lsCheck_own {s : State} {b n : Nat} {x : Word} (ht : s.lsTarget b x.toNat = some b) (halign : x.toNat % 2 ^ 19 % n = 0)
    (hsize : x.toNat % 2 ^ 19 + n ≤ (s.block b).lsSize) (hchurn : (s.block b).churn = none) (store : Bool) :
    s.lsCheck b x n n store = none := by
  have hfits : ¬(n ≠ 0 ∧ (s.block b).lsSize < lsOff x + n) := fun h => absurd h.2 (Nat.not_lt.2 hsize)
  have hlow : ¬lsOff x % n ≠ 0 := not_not.2 halign
  unfold State.lsCheck
  rw [ht]
  dsimp only
  rw [if_neg hlow, if_neg hfits]
  simp [Block.inChurn, hchurn]

/-- Nothing holds an access to the own block's store up, and no word of it is in error. -/
theorem State.lsClear_own {s : State} {g : Nat} {gr : Group} {who : List (Nat × Nat)} {ad : Nat × Nat → Word}
    (ht : ∀ x ∈ who, s.lsTarget gr.block (ad x).toNat = some gr.block) (hbad : (s.block gr.block).lsBad = []) (n : Nat)
    (reads : Bool) (k : Group → State → Out) : s.lsClear g gr who ad n reads k = k gr s := by
  have hheld : (who.findSome? fun x => s.lsHeld gr.block (ad x)) = none :=
    List.findSome?_eq_none_iff.2 fun x hx => by simp [State.lsHeld, ht x hx]
  have hgood : s.lsBad gr who ad n = [] :=
    List.filterMap_eq_nil_iff.2 fun x hx => by simp [State.lsEcc, ht x hx, Block.badIn_nil hbad]
  unfold State.lsClear
  rw [hheld, hgood]
  simp

/-- Events have been counted, and identifiers taken. -/
def State.counted (s : State) (tally : List Tally) (ids : Nat) : State := { s with tally, ids }

def State.onlyCounts (s t : State) : Prop := t = s.counted t.tally t.ids

theorem State.onlyCounts_foldl {step : State → Nat → State} (h : ∀ (t : State) c, t.onlyCounts (step t c)) (cs : List Nat) (s : State) :
    s.onlyCounts (cs.foldl step s) :=
  List.foldlRecOn (motive := fun t : State => s.onlyCounts t) cs _ rfl fun t ht c _ => by
    have hstep := h t c
    unfold State.onlyCounts at *
    rw [hstep, ht]
    rfl

theorem State.onlyCounts_count (s : State) (core sub event n ctx : Nat) : s.onlyCounts (s.count core sub event n ctx) := rfl

theorem State.onlyCounts.newId {s t : State} (h : s.onlyCounts t) : s.onlyCounts t.newId.2 := by
  unfold State.onlyCounts at *
  rw [State.newId, h]
  rfl

theorem State.onlyCounts.exists {s t : State} (h : s.onlyCounts t) : ∃ tally ids, t = s.counted tally ids := ⟨_, _, h⟩

/-- Work with nothing to complete takes an identifier alone (R40). -/
theorem State.attach_nothing (s : State) (gr : Group) (w : Nat) (fs : Bool) : s.attach gr w fs 0 = s.newId := by
  simp [State.attach, State.attachTo]

/-! ## An LS form of one lane -/

section
variable {s : State} {g : Nat} {gr : Group} {w l : Nat} {o : Ops} {wds : Widths} {n : Nat} {elems : Warp → Lane → Word → List LsElem}

/-- One lane's accesses to the own block's store are made one after another, and none is in flight. -/
theorem exec_lsForm (hr : s.Ready g gr o wds) (hteam : s.Team g gr w [l] o.pr) {x : Word}
    (haddr : lsAddr (s.warp w) ((s.warp w).lane l) o = x)
    (ht : ∀ y, y = x ∨ y ∈ (elems (s.warp w) (s.lane w l) x).map (·.x) → s.lsTarget gr.block y.toNat = some gr.block)
    (halign : x.toNat % 2 ^ 19 % n = 0) (hsize : x.toNat % 2 ^ 19 + n ≤ (s.block gr.block).lsSize)
    (hcore : (s.block gr.block).core = gr.core) (hchurn : (s.block gr.block).churn = none) (hbad : (s.block gr.block).lsBad = [])
    (fs : Bool) (act : LsAct) :
    ∃ work t, (s.atWord g).onlyCounts t ∧ lsForm o wds fs n act elems s = .next
      ((((elems (s.warp w) (s.lane w l) x).foldl (fun (t : State) e => t.lsAccess gr w l work act e) t).zeroHelpers gr o
        wds.d).retire g gr) := by
  have hcheck (store : Bool) : (s.atWord g).lsCheck gr.block x n n store = none :=
    State.lsCheck_own (s := s.atWord g) (ht x (.inl rfl)) halign hsize hchurn store
  have hclear := State.lsClear_own (s := s.atWord g) (g := g) (who := [(w, l)])
    (ad := fun y => lsAddr (s.warp y.1) ((s.warp y.1).lane y.2) o) (fun y hy => by
      rw [List.mem_singleton.1 hy, haddr]
      exact ht x (.inl rfl)) hbad n
    (act.readsWord n)
  have hnear : (elems (s.warp w) ((s.warp w).lane l) x).filter ((s.atWord g).lsRemote gr) = [] :=
    List.filter_eq_nil_iff.2 fun e he => by
      have hte : (s.atWord g).lsTarget gr.block e.x.toNat = some gr.block := ht e.x (.inr (List.mem_map_of_mem he))
      simp [State.lsRemote, hte, hcore]
  have hwho : (s.atWord g).execThreads gr o.pr = [(w, l)] := hteam.execThreads.trans hteam.lanes
  have hfree : Group.flagFull (s.atWord g) gr fs [] = false := by
    unfold Group.flagFull
    split <;> rfl
  unfold lsForm
  rw [issueLane_ready hr false (by simp)]
  dsimp only
  simp only [State.atWord_warp, hwho, hteam.warpIds, List.filterMap_cons, List.filterMap_nil, List.filter_cons, List.filter_nil,
    beq_self_eq_true, if_true, List.findSome?_cons, List.findSome?_nil, haddr, hcheck, Option.map_none, State.raising_nil]
  rw [hclear]
  simp only [State.atWord_warp, hwho, hteam.warpIds, List.filter_cons, List.filter_nil, beq_self_eq_true, if_true, haddr,
    List.map_cons, List.map_nil, hnear, List.length_nil, List.sum_cons, List.sum_nil, Nat.add_zero, bne_self_eq_false,
    Bool.false_eq_true, if_false, hfree, List.foldl_cons, List.foldl_nil, State.attach_nothing]
  exact ⟨_, _, (State.onlyCounts_foldl (fun t c => t.onlyCounts_count _ _ _ _ _) _ _).newId, rfl⟩

/-- What the accesses leave of the module, once they are made and the group is done with its word. -/
theorem State.LsDone.retired {t : State} {b : Nat} {r : Block × Lane} (h : s.LsDone t b w l r) (g : Nat) (gr : Group) :
    (t.retire g gr).mem = s.mem ∧ (t.retire g gr).ops = s.ops ∧ (t.retire g gr).remotes = s.remotes ∧
      (t.retire g gr).groups = (s.retire g gr).groups ∧ (t.retire g gr).block b = r.1 ∧
      r.2.regsAre ((t.retire g gr).lane w l) ∧ ∀ c, c ≠ b → (t.retire g gr).block c = s.block c := by
  have hthreads := t.onlyThreads_retire g gr
  obtain ⟨-, hgone⟩ := State.retire_movesOn h.lanesOk g gr w
  refine ⟨by rw [hthreads.mem, h.rest], by rw [hthreads.ops, h.rest], by rw [hthreads.remotes, h.rest],
    State.retire_groups_congr (by rw [h.rest]) g gr, by rw [hthreads.block, h.block],
    Lane.goneOn.regsAre ⟨rfl, rfl⟩ (h.lane ▸ hgone l), fun c hc => by rw [hthreads.block, h.others c hc]⟩

end

theorem exec_localForm {i : Instr} {A : LocalForm} (h : localForm i = some A) (s : State) :
    exec i s = lsForm A.o A.wds A.fs A.n A.act A.els s := by
  cases i with
  | lsLd o w fs | lsSt o w fs | lsAt o op w64 fs =>
    cases h
    rfl
  | _ => cases h

/-! ## A remote access at its core -/

/-- Registers that return to the pool leave the warps' lanes (R102). -/
theorem State.sameLanes_releaseQuarters (s : State) (w : Nat) : s.SameLanes (s.releaseQuarters w) := by
  unfold State.releaseQuarters
  dsimp only
  split
  · exact .refl s
  · refine List.foldlRecOn (motive := fun t : State => s.SameLanes t) _ _ (.refl s) fun t ht j _ => ?_
    split
    · exact ht.modWarp w fun _ => rfl
    · exact ht

theorem State.onlyThreads_releaseQuarters (s : State) (w : Nat) : s.onlyThreads (s.releaseQuarters w) := by
  unfold State.releaseQuarters
  dsimp only
  split
  · exact s.onlyThreads_refl
  · refine State.onlyThreads_foldl _ (fun t j => ?_) _ _
    split
    · exact t.onlyThreads_modWarp _ _
    · exact t.onlyThreads_refl

/-- What an access leaves at its core, before its part of the work is complete. -/
def State.lsArrived (s : State) (k : Nat) (r : RemoteLs) : State :=
  let q := (s.block r.block).lsPerform r.act r.addr r.len r.val r.cmp
  State.modLane { s.setBlock r.block q.1 with remotes := s.remotes.del k } r.warp r.lane (·.putRes r.dst r.dstLen q.2)

/-- Its part of the work is complete, and its warp's registers may return to the pool. -/
theorem State.lsArrive_eq (s : State) (k : Nat) {r : RemoteLs} (hacc : r.acc = none) :
    s.lsArrive k r = (s.lsArrived k r).workDone r.work ∨
      s.lsArrive k r = ((s.lsArrived k r).workDone r.work).releaseQuarters r.warp := by
  unfold State.lsArrive
  rw [hacc]
  dsimp only
  split
  · exact .inr rfl
  · exact .inl rfl

/-- The only access on its way comes after none (R159). -/
theorem exec_remoteLsPerformed {s : State} {k : Nat} {r : RemoteLs} (hr : s.remotes = [(k, r)])
    (hended : (s.block r.block).ended = false) : exec (.remoteLsPerformed k) s = .next (s.lsArrive k r) := by
  have hall : s.lsTogether k r = [(k, r)] := by
    unfold State.lsTogether
    dsimp only
    split
    next hinside => simp [hr, hinside]
    next => rfl
  dsimp only [exec, execRemoteLsPerformed]
  simp [hr, AMap.get?, hall, hended]

/-- Settles O37: an access passes its checks, its elements are made one after another on the block and the lane, and the
group is done with its word. -/
theorem localStoreForms : Obligations.LocalStoreForms := by
  refine ⟨fun i A s g gr w l B hi hr hteam hB hs hcore => ?_, fun k r s B hr hB hs hended hacc hok hw => ?_⟩
  · intro L x es ht halign hsize hchurn hbad
    have hblock := State.block_of_get? hB
    obtain ⟨work, t, hcounts, hexec⟩ := exec_lsForm (elems := A.els) (x := x) hr hteam rfl ht halign (hblock ▸ hsize)
      (hblock ▸ hcore) (hblock ▸ hchurn) (hblock ▸ hbad) A.fs A.act
    obtain ⟨tally, ids, rfl⟩ := hcounts.exists
    have hdone := (State.LsDone.start (s := (s.atWord g).counted tally ids) hB hs hteam.forms.lanesOk hteam.warp_isSome
      (l := l)).accesses (gr := gr) (fun e he => ht e.x (.inr (List.mem_map_of_mem he))) (hblock ▸ hcore) work A.act
    have hlive : ∀ y ∈ gr.lanes, (es.foldl (fun (t : State) e => t.lsAccess gr w l work A.act e)
        ((s.atWord g).counted tally ids)).isLive y = true := by
      intro y hy
      obtain ⟨hyw, hyl⟩ := hteam.mem_lanes hy
      obtain ⟨hl, -⟩ := hteam.run l (by simp)
      rw [State.isLive, hyw, List.mem_singleton.1 hyl, hdone.lane, hdone.life]
      exact beq_iff_eq.2 hl
    rw [State.zeroHelpers_of_live hlive] at hexec
    obtain ⟨hmem, hops, hremotes, hgroups, hstore, hregs, hothers⟩ := hdone.retired g gr
    exact ⟨_, (exec_localForm hi s).trans hexec, hmem, hops, hremotes,
      hgroups.trans (State.retire_groups_congr (s := s.atWord g) (t := (s.atWord g).counted tally ids) rfl g gr),
      hstore, hregs, hothers⟩
  · have hblock := State.block_of_get? hB
    have hdel : s.remotes.del k = [] := by simp [hr, AMap.del]
    obtain ⟨hthreads, hsame⟩ : ((s.lsArrived k r).workDone r.work).onlyThreads (s.lsArrive k r) ∧
        ((s.lsArrived k r).workDone r.work).SameLanes (s.lsArrive k r) := by
      rcases s.lsArrive_eq k hacc with heq | heq
      · rw [heq]
        exact ⟨State.onlyThreads_refl _, .refl _⟩
      · rw [heq]
        exact ⟨State.onlyThreads_releaseQuarters _ _, State.sameLanes_releaseQuarters _ _⟩
    refine ⟨_, exec_remoteLsPerformed hr (hblock ▸ hended), hthreads.mem, hthreads.remotes.trans hdel, ?_, ?_⟩
    · rw [hthreads.block, ← hblock]
      exact (State.block_setBlock s r.block _ r.block).trans (if_pos rfl)
    · have hlane : (s.lsArrived k r).lane r.warp r.lane = (s.lane r.warp r.lane).putRes r.dst r.dstLen
          ((s.block r.block).lsPerform r.act r.addr r.len r.val r.cmp).2 :=
        State.lane_modLane_same (s := { s.setBlock r.block _ with remotes := s.remotes.del k }) hok.lanesOk hw r.lane _
      rw [hsame.lane, ← hblock, ← hlane]
      exact ⟨rfl, rfl⟩

end Sys2Proof.Machine
end

section
/-! PROOFS. O39: a group that still waits for a line's colour does no table operation. -/

namespace Sys2Proof.Machine

/-- H.INS of the key EMPTY, which no entry may have, with its status in v0. -/
def insertEmpty : Ops := ⟨.v 0, .lit 0xFFFFFFFF, .lit 0, .none, ⟨7, false⟩⟩

/-- A group of one lane that has asked for the colour of a line, and waits for the answer. -/
def colourWaiter : Group := { block := 1, lanes := [(1, 0)], park := .colours, memo := { waiting := 1 } }

/-- A claimed region that is clear, without a Spillway. -/
def plainRegion : Churn := { off := 0, k := 0, hdr := 0, clearing := false }

/-- `colourWaiter` stands at its word in a block that holds `plainRegion`. -/
def tableBehindColour : State :=
  { warps := [(1, { block := 1, regs := 192, lanes := [(0, { life := .live, entry := .group 1 })] })]
    blocks := [(1, { warps := [1], churn := some plainRegion })]
    groups := [(1, colourWaiter)]
    focus := .group 1 }

theorem tableBehindColour_ready : tableBehindColour.Ready 1 colourWaiter insertEmpty ⟨1, 2, 2, 1, false, []⟩ where
  current := rfl
  fits := by decide
  guard := by decide
  sound := by decide

theorem tableBehindColour_team : tableBehindColour.Team 1 colourWaiter 1 [0] insertEmpty.pr where
  lanes := rfl
  someLane := by decide
  nodup := by decide
  block := rfl
  run := by decide
  forms := by
    unfold State.threadsOk Warp.tidy
    decide

/-- The v registers of a lane after an instruction that has gone on. -/
def regsAfter (w l : Nat) : Out → AMap Word
  | .next t => (t.lane w l).v
  | .fault _ | .refused _ => []

/-- The group only parks again: its lane has no status yet. -/
theorem regsAfter_tableBehindColour : regsAfter 1 0 (exec (.hIns insertEmpty .v64 false) tableBehindColour) = [] := by decide

/-- Refutes O39: in `tableBehindColour` H.INS of a key that is not live does not give the lane the status 5. -/
theorem not_tableForms : ¬ Obligations.TableForms := by
  intro h
  obtain ⟨-, hbad, -⟩ := h insertEmpty false tableBehindColour 1 colourWaiter 1 0 _ plainRegion tableBehindColour_team rfl
    (by decide) rfl rfl rfl rfl rfl
  obtain ⟨t, ht, -, -, -, hregs, -⟩ := hbad .v64 tableBehindColour_ready (by decide)
  have hnone : regsAfter 1 0 (.next t) = [] := ht ▸ regsAfter_tableBehindColour
  exact absurd (hregs.symm.trans hnone) (by decide)

end Sys2Proof.Machine
end

section
/-! SUPPORT. Bytes of a local store: what is read after a write, and a region that is cleared (07_local_store_churn R151,
R161, R165). -/

namespace Sys2Proof.Machine

/-! ## Reading after writing -/

theorem Block.storeOnly_lsWrite (B : Block) (off n x : Nat) : B.storeOnly (B.lsWrite off n x) := rfl

theorem Block.lsWrite_succ (B : Block) (off n x : Nat) :
    (B.lsWrite off (n + 1) x).ls = (B.lsWrite off n x).ls.putD (off + n) (BitVec.ofNat 8 (x / 256 ^ n)) 0 := by
  simp [Block.lsWrite, List.range_succ]

theorem Block.sorted_lsWrite {B : Block} (h : AMap.sorted B.ls = true) (off n x : Nat) :
    AMap.sorted (B.lsWrite off n x).ls = true :=
  List.foldlRecOn (motive := fun m : AMap Byte => AMap.sorted m = true) _ _ h fun _ hm _ _ => AMap.sorted_putD _ _ _ hm

/-- A byte after a write. -/
theorem Block.byte_lsWrite {B : Block} (h : AMap.sorted B.ls = true) (off n x i : Nat) :
    (B.lsWrite off n x).ls.getD i 0 =
      if off ≤ i ∧ i < off + n then BitVec.ofNat 8 (x / 256 ^ (i - off)) else B.ls.getD i 0 := by
  induction n with
  | zero =>
    rw [if_neg (by omega)]
    rfl
  | succ n ih =>
    rw [Block.lsWrite_succ]
    by_cases hi : i = off + n
    · subst hi
      rw [AMap.getD_putD_same _ _ _ _ (Block.sorted_lsWrite h off n x), if_pos (by omega), Nat.add_sub_cancel_left]
    · rw [AMap.getD_putD_other _ _ _ _ _ (Block.sorted_lsWrite h off n x) hi, ih]
      have hin : (off ≤ i ∧ i < off + n) ↔ (off ≤ i ∧ i < off + (n + 1)) := by omega
      simp only [hin]

theorem Block.lsRead_congr {B C : Block} {off n : Nat} (h : ∀ i, off ≤ i → i < off + n → C.ls.getD i 0 = B.ls.getD i 0) :
    C.lsRead off n = B.lsRead off n := by
  unfold Block.lsRead
  refine congrArg List.sum (List.map_congr_left fun i hi => ?_)
  have hlt := List.mem_range.1 hi
  rw [h (off + i) (by omega) (by omega)]

/-- A write leaves what lies beside it. -/
theorem Block.lsRead_lsWrite_other {B : Block} (h : AMap.sorted B.ls = true) {off n off' m : Nat}
    (hapart : off + n ≤ off' ∨ off' + m ≤ off) (x : Nat) : (B.lsWrite off n x).lsRead off' m = B.lsRead off' m :=
  Block.lsRead_congr fun i hlo hhi => by
    rw [Block.byte_lsWrite h, if_neg (by omega)]

/-- The low digits of a number to the base 256. -/
theorem sum_low_bytes (x n : Nat) : ((List.range n).map fun i => (BitVec.ofNat 8 (x / 256 ^ i)).toNat * 256 ^ i).sum = x % 256 ^ n := by
  induction n with
  | zero => simp [Nat.mod_one]
  | succ n ih =>
    rw [List.range_succ, List.map_append, List.sum_append, ih, Nat.mod_pow_succ, List.map_singleton, List.sum_singleton,
      BitVec.toNat_ofNat, Nat.mul_comm]

/-- What has been written is read. -/
theorem Block.lsRead_lsWrite_same {B : Block} (h : AMap.sorted B.ls = true) (off n x : Nat) :
    (B.lsWrite off n x).lsRead off n = x % 256 ^ n := by
  rw [← sum_low_bytes, Block.lsRead]
  refine congrArg List.sum (List.map_congr_left fun i hi => ?_)
  have hlt := List.mem_range.1 hi
  rw [Block.byte_lsWrite h, if_pos (by omega), Nat.add_sub_cancel_left]

/-! ## A region that is cleared -/

/-- The first positions of a region are made EMPTY. -/
def Block.clearTo (B : Block) (c : Churn) (n : Nat) : Block :=
  (List.range n).foldl (fun B p => (B.putKey c ⟨p / 8, p % 8, 0⟩ emptyKey).putValue c ⟨p / 8, p % 8, 0⟩ 0) B

theorem Block.clearTo_succ (B : Block) (c : Churn) (n : Nat) :
    B.clearTo c (n + 1) = ((B.clearTo c n).putKey c ⟨n / 8, n % 8, 0⟩ emptyKey).putValue c ⟨n / 8, n % 8, 0⟩ 0 := by
  simp [Block.clearTo, List.range_succ]

/-- Position p of a region lies 16 p bytes behind its start (R161). -/
theorem Churn.place_position (c : Churn) (p : Nat) : c.place ⟨p / 8, p % 8, 0⟩ = c.off + 16 * p := by
  simp only [Churn.place]
  omega

theorem Block.sorted_clearTo {B : Block} (h : AMap.sorted B.ls = true) (c : Churn) (n : Nat) :
    AMap.sorted (B.clearTo c n).ls = true :=
  List.foldlRecOn (motive := fun C : Block => AMap.sorted C.ls = true) _ _ h fun _ hC _ _ =>
    Block.sorted_lsWrite (Block.sorted_lsWrite hC _ _ _) _ _ _

/-- Each position that is cleared has KEY EMPTY and VALUE 0. -/
theorem Block.lsRead_clearTo {B : Block} (h : AMap.sorted B.ls = true) (c : Churn) {n p : Nat} (hp : p < n) :
    (B.clearTo c n).lsRead (c.off + 16 * p) 8 = 2 ^ 64 - 1 ∧ (B.clearTo c n).lsRead (c.off + 16 * p + 8) 8 = 0 := by
  induction n with
  | zero => omega
  | succ n ih =>
    have hsorted := Block.sorted_clearTo h c n
    have hkey := Block.sorted_lsWrite hsorted (c.off + 16 * n) 8 emptyKey.toNat
    rw [Block.clearTo_succ, Block.putValue, Block.putKey, Churn.place_position]
    by_cases hpn : p = n
    · subst hpn
      rw [Block.lsRead_lsWrite_other hkey (by omega), Block.lsRead_lsWrite_same hsorted, Block.lsRead_lsWrite_same hkey]
      exact ⟨rfl, rfl⟩
    · rw [Block.lsRead_lsWrite_other hkey (by omega), Block.lsRead_lsWrite_other hsorted (by omega),
        Block.lsRead_lsWrite_other hkey (by omega), Block.lsRead_lsWrite_other hsorted (by omega)]
      exact ih (by omega)

end Sys2Proof.Machine
end

section
/-! PROOFS. O38: Churn regions are claimed, cleared, freed and read (07_local_store_churn R165 to R167, R170, R172). -/

namespace Sys2Proof.Machine

/-! ## HC.CLAIM -/

/-- The fields of a ctl word that names a region. -/
theorem ctl_fields {off k : Nat} (hoff : off < 512) (hk : k ≤ 8) {ctl : Word} (h : ctl = BitVec.ofNat 32 (off + 2 ^ 16 * k)) :
    ctl.toNat % 65536 < 512 ∧ ctl.toNat < 1048576 ∧ ctlOff ctl.toNat = off ∧ ctlK ctl.toNat = k := by
  have hval : ctl.toNat = off + 2 ^ 16 * k := by
    rw [h, BitVec.toNat_ofNat]
    omega
  rw [hval, ctlOff, ctlK]
  omega

/-- A region that lies within the store and the budget passes the checks of R170, without a claim or with the same. -/
theorem claimTrap_none {B : Block} {off k : Nat} (hoff : off < 512) (hk : k ≤ 8) (halign : off % 2 ^ k = 0) {ctl : Word}
    (hctl : ctl = BitVec.ofNat 32 (off + 2 ^ 16 * k)) (hbudget : 1024 * 2 ^ k ≤ B.churnSize)
    (hsize : 1024 * (off + 2 ^ k) ≤ B.lsSize) (hheld : ∀ c, B.churn = some c → c.off = 1024 * off ∧ c.k = k ∧ c.hdr = 0) (w : Nat) :
    claimTrap B w ctl.toNat 0 = none := by
  obtain ⟨hlow, hhigh, hctlOff, hctlK⟩ := ctl_fields hoff hk hctl
  have hok : claimOk B ctl.toNat 0 = true := by
    cases hc : B.churn with
    | none => simp [claimOk, hc, hlow, hhigh, hctlOff, hctlK, hk, halign, hbudget, hsize]
    | some c =>
      obtain ⟨hcoff, hck, hchdr⟩ := hheld c hc
      simp [claimOk, hc, Churn.same, hcoff, hck, hchdr, hlow, hhigh, hctlOff, hctlK, hk, halign, hbudget, hsize]
  unfold claimTrap
  rw [hok]
  rfl

section
variable {s : State} {g : Nat} {gr : Group} {w : Nat} {ls : List Nat} {o : UOps} {p : Pred}

/-- The warps for which HC.CLAIM is made. -/
theorem State.Team.warpsWithThreads (h : s.Team g gr w ls p) :
    (gr.warpIds.filter fun v => (gr.lanesOf v).any fun l => s.isLive (v, l)) = [w] := by
  have hany : ((gr.lanesOf w).any fun l => s.isLive (w, l)) = true := by
    obtain ⟨l, hl⟩ := List.exists_mem_of_ne_nil _ h.someLane
    rw [h.lanesOf]
    exact List.any_eq_true.2 ⟨l, hl, h.isLive_of_mem hl⟩
  rw [h.warpIds, List.filter_cons, if_pos hany, List.filter_nil]

/-- A group that remembers nothing, and has nothing to read, goes on at once. -/
theorem reading_nothing (s : State) (g : Nat) {gr : Group} (hmemo : gr.memo = {}) (n align : Nat)
    (k : Group → (Acc → Nat → DWord) → State → Out) :
    reading s g gr [] n align k = k gr (fun a i => gr.memo.refill.getD (wordKey a i) 0) s := by
  have hbad : gr.badRaises false = [] := List.filterMap_eq_nil_iff.2 fun w _ => by simp [hmemo]
  unfold reading
  rw [hbad, State.raising_nil]
  rfl

/-- The group waits at the next word for a region to be cleared (R165). -/
def State.waitsCleared (s : State) (g : Nat) (gr : Group) : State :=
  (s.parkGroup g .claim { passed := true }).modGroup g fun x => { x with pc := gr.next }

/-- Where the one warp's claim stands, the group waits while the region is being cleared, or is done. -/
theorem State.claimRest_one (t : State) (hw : gr.warpIds = [w]) (ctl : Nat → Nat) (hdr : Nat → DWord)
    (htrap : claimTrap (t.block gr.block) w (ctl w) (hdr w) = none) :
    t.claimRest g gr [w] ctl hdr =
      if ((t.block gr.block).churn.map (·.clearing)).getD false then .next (t.waitsCleared g gr) else .next (t.retire g gr) := by
  unfold State.claimRest
  simp [htrap, hw, State.waitsCleared]

/-- A claim that is held is found again. -/
theorem exec_hcClaim_held (hr : s.ReadyU g gr (usrcS o.a 2 ++ usrcS o.b 1)) (hteam : s.Team g gr w ls p)
    (hheld : (s.block gr.block).churn ≠ none) :
    exec (.hcClaim o) s = (s.atWord g).claimRest g gr [w] (fun v => (usrc32 (s.warp v) o.b).toNat) fun v => usrc64 (s.warp v) o.a := by
  obtain ⟨c, hc⟩ := Option.ne_none_iff_exists'.1 hheld
  have hchurn : ((s.atWord g).block gr.block).churn = some c := hc
  dsimp only [exec, execHcClaim]
  rw [issueUni_ready hr, hteam.atWord.warpsWithThreads, hchurn]
  rfl

/-- The claim that HC.CLAIM makes, without a Spillway. -/
def newClaim (off k id : Nat) : Churn := { off := 1024 * off, k, hdr := 0, id }

/-- The block holds a claim that it has just been given. -/
def State.claimed (s : State) (b : Nat) (c : Churn) : State :=
  ({ s with ids := s.ids + 1 } : State).modBlock b fun B => { B with churn := some c }

/-- Without a Spillway a claim is made at once. -/
theorem exec_hcClaim_new (hr : s.ReadyU g gr (usrcS o.a 2 ++ usrcS o.b 1)) (hteam : s.Team g gr w ls p) (hmemo : gr.memo = {})
    (hfree : (s.block gr.block).churn = none) (hhdr : usrc64 (s.warp w) o.a = 0) {ctl : Nat} (hctl : (usrc32 (s.warp w) o.b).toNat = ctl)
    (htrap : claimTrap (s.block gr.block) w ctl 0 = none) :
    exec (.hcClaim o) s = ((s.atWord g).claimed gr.block (newClaim (ctlOff ctl) (ctlK ctl) (s.ids + 1))).claimRest g gr [w]
      (fun v => (usrc32 (s.warp v) o.b).toNat) fun v => usrc64 (s.warp v) o.a := by
  have hchurn : ((s.atWord g).block gr.block).churn = none := hfree
  have hin : gr.warpIds.contains w = true := by simp [hteam.warpIds]
  dsimp only [exec, execHcClaim]
  rw [issueUni_ready hr, hteam.atWord.warpsWithThreads, hchurn]
  dsimp only [State.atWord_warp, State.atWord_block]
  simp only [hhdr, hctl, htrap, if_true]
  rw [reading_nothing _ _ hmemo]
  simp only [hin, Bool.not_true, Bool.false_eq_true, if_false]
  rfl

theorem State.block_claimed {b : Nat} (h : (s.blocks.get? b).isSome = true) (c : Churn) :
    (s.claimed b c).block b = { s.block b with churn := some c } :=
  (State.block_modBlock (s := { s with ids := s.ids + 1 }) h _ b).trans (if_pos rfl)

theorem State.get?_waitsCleared {t : State} {x : Group} (h : t.groups.get? g = some x) (gr : Group) :
    (t.waitsCleared g gr).groups.get? g = some { x with park := .claim, memo := { passed := true }, pc := gr.next } := by
  simp [State.waitsCleared, State.parkGroup, State.modGroup, State.unfocus, AMap.get?_modify, h]

theorem State.ReadyU.get? {reads : List Nat} (h : s.ReadyU g gr reads) : s.groups.get? g = some gr := by
  have hcur := h.current
  unfold State.current at hcur
  split at hcur
  next g' _ =>
    obtain ⟨x, hx, heq⟩ := Option.map_eq_some_iff.1 hcur
    cases heq
    exact hx
  next => cases hcur
  next => cases hcur

/-- The group at its word, parked until a region is cleared. -/
theorem State.get?_atWord_waitsCleared {t : State} (h : s.groups.get? g = some gr) (ht : t.groups = (s.atWord g).groups) :
    (t.waitsCleared g gr).groups.get? g = some { gr with park := .claim, memo := { passed := true }, pc := gr.next } := by
  have hat : t.groups.get? g = some { gr with park := .run } := by
    rw [ht, State.atWord, State.modGroup_groups, AMap.get?_modify, if_pos rfl, h]
    rfl
  exact State.get?_waitsCleared hat gr

end

/-! ## CHURN_CLEAR_DONE -/

section
variable {s : State} {g : Nat} {gr : Group} {w : Nat} {ls : List Nat} {p : Pred}

/-- A block's region is clear. -/
def Block.cleared (B : Block) (c : Churn) : Block :=
  { B.clearTo c (8 * 2 ^ c.bits) with churn := some { c with clearing := false } }

theorem Block.churn_cleared (B : Block) (c : Churn) : (B.cleared c).churn = some { c with clearing := false } := rfl

/-- A group that waited for a region goes on (R165). -/
def State.goesOn (s : State) (g : Nat) (gr : Group) : State :=
  if gr.pc = gr.clauseEnd then s.endClause g gr fun _ => (gr.clauseEnd, none)
  else s.modGroup g fun x => { x with park := .run, memo := {} }

/-- The region is clear, and the one group that waited for it goes on. -/
theorem exec_churnClearDone {c : Churn} (hchurn : (s.block gr.block).churn = some c) (hclearing : c.clearing = true)
    (hs : AMap.sorted s.groups = true) (hg : s.groups.get? g = some gr) (hpark : gr.park = .claim)
    (hpassed : gr.memo.passed = true) (hothers : ∀ e ∈ s.groups, e.1 ≠ g → e.2.park ≠ .claim) :
    exec (.churnClearDone gr.block) s =
      .next ((s.setBlock gr.block ((s.block gr.block).cleared c)).goesOn g gr) := by
  have hno {e : Nat × Group} (he : e ∈ s.groups) (hne : e ≠ (g, gr)) : e.2.park ≠ .claim :=
    hothers e he (AMap.key_ne hs hg he hne)
  dsimp only [exec, execChurnClearDone]
  rw [hchurn]
  dsimp only
  rw [if_pos hclearing, State.setBlock_groups, foldl_once (x := (g, gr)) (AMap.nodup_of_sorted hs) (AMap.mem_of_get? hg)]
  · dsimp only
    rw [if_pos ⟨rfl, hpark, hpassed⟩]
    rfl
  · intro e he hne
    simp [hno he hne]
  · intro e he hne
    simp [hno he hne]

theorem State.Team.stands (h : s.Team g gr w ls p) : s.Stands gr := by
  refine ⟨?_, fun x hx => ?_⟩
  · rw [h.lanes]
    exact h.nodup.map fun _ _ heq => (Prod.ext_iff.1 heq).2
  · obtain ⟨rfl, hl⟩ := h.mem_lanes hx
    exact .inl (h.run _ hl).1

theorem State.onlyThreads_goesOn (s : State) (g : Nat) (gr : Group) : s.onlyThreads (s.goesOn g gr) := by
  unfold State.goesOn
  split
  · exact s.onlyThreads_endClause g gr _
  · exact s.onlyThreads_modGroup g _

/-- KEY and VALUE of a cleared region's slots. -/
theorem Block.lsRead_cleared {B : Block} (h : AMap.sorted B.ls = true) (c : Churn) {bk sl : Nat} (hbk : bk < 2 ^ (c.k + 3))
    (hsl : sl < 8) : (B.cleared c).lsRead (c.off + 128 * bk + 16 * sl) 8 = 2 ^ 64 - 1 ∧
      (B.cleared c).lsRead (c.off + 128 * bk + 16 * sl + 8) 8 = 0 := by
  have hpos : c.off + 128 * bk + 16 * sl = c.off + 16 * (8 * bk + sl) := by omega
  have hlt : 8 * bk + sl < 8 * 2 ^ c.bits := by
    rw [Churn.bits]
    omega
  rw [hpos]
  exact Block.lsRead_clearTo h c hlt

end

/-! ## HC.FREE -/

section
variable {s : State} {g : Nat} {gr : Group}

theorem exec_hcFree (hr : s.ReadyU g gr []) : exec .hcFree s =
    if (s.atWord g).freeWaits gr then .next ((s.atWord g).parkGroup g .claim { gr.memo with asked := true })
    else .next (((s.atWord g).modBlock gr.block fun B => { B with churn := none }).retire g gr) := by
  dsimp only [exec, execHcFree]
  rw [issueUni_ready hr]

end

/-! ## H.STA -/

section
variable {s : State} {g : Nat} {gr : Group} {w : Nat} {ls : List Nat} {o : Ops}

theorem src32_seen {W V : Warp} (h : W.Seen V) (L : Lane) (x : Src) : src32 V L x = src32 W L x := by
  have hs : V.s = W.s := by rw [h.rest]
  cases x with
  | s n => exact congrArg (AMap.getD · n.val 0) hs
  | v | k | lit | none => rfl

/-- What H.STA makes of a lane. -/
def Block.readStat (B : Block) (o : Ops) (W : Warp) (_ : Nat) (L : Lane) : Lane :=
  L.putD o.d (B.statValue (src32 W L o.a).toNat)

theorem Lane.life_putD (L : Lane) (d : Dst) (x : Word) : (L.putD d x).life = L.life := by
  cases d <;> rfl

theorem Lane.here_putD {L : Lane} (h : L.here) (d : Dst) (x : Word) : (L.putD d x).here := by
  rw [Lane.here, Lane.life_putD]
  exact h

/-- Each lane of some has read its statistic. -/
def State.statsRead (s : State) (B : Block) (o : Ops) (xs : List (Nat × Nat)) : State :=
  s.modEach xs fun x => B.readStat o (s.warp x.1) x.2

theorem State.lane_statsRead (h : s.Stands gr) (B : Block) (o : Ops) {x : Nat × Nat} (hx : x ∈ gr.lanes) :
    (s.statsRead B o gr.lanes).lane x.1 x.2 = (s.lane x.1 x.2).putD o.d (B.statValue (src32 (s.warp x.1) (s.lane x.1 x.2) o.a).toNat) :=
  (State.lane_modEach h.1 (fun _ hy => h.here hy) (fun _ _ hL => Lane.here_putD hL _ _) x).trans (if_pos hx)

/-- Where no region is being cleared, each lane reads its statistic at once. -/
theorem exec_hSta (hr : s.Ready g gr o {}) (hteam : s.Team g gr w ls o.pr)
    (hclear : ∀ c, (s.block gr.block).churn = some c → c.clearing = false) :
    exec (.hSta o) s = .next (((s.atWord g).statsRead (s.block gr.block) o gr.lanes).retire g gr) := by
  have heach : (s.atWord g).eachLane gr.lanes ((s.block gr.block).readStat o) =
      (s.atWord g).statsRead (s.block gr.block) o gr.lanes :=
    State.eachLane_eq_modEach (s := s.atWord g) hteam.forms.lanesOk (fun _ _ L => L.life_putD _ _)
      (fun W V l L h => by simp only [src32_seen h]) _
  have hlive : ∀ x ∈ gr.lanes, ((s.atWord g).statsRead (s.block gr.block) o gr.lanes).isLive x = true := fun x hx => by
    rw [State.isLive, State.lane_statsRead hteam.atWord.stands _ o hx, Lane.life_putD]
    exact hteam.isLive hx
  have hdone := congrArg (fun t : State => (t.zeroHelpers gr o 1).retire g gr) heach
  rw [State.zeroHelpers_of_live hlive] at hdone
  dsimp only [exec, execHSta]
  rw [issueLane_ready hr false (by simp), State.atWord_execThreads, hteam.execThreads]
  split
  next c heq => cases hclear _ heq
  · exact congrArg Host.Outcome.next hdone
  · exact congrArg Host.Outcome.next hdone

end

/-! ## A spill that is wholly FULL -/

section
variable {s : State}

/-- Where TAIL stands at LIMIT or above, no record has a place (R167). -/
theorem State.spillPlaces_full {x : Spill} {tail : Nat} (h : x.limit ≤ tail) :
    s.spillPlaces x tail = (List.replicate x.recs.length none, []) := by
  have hlook (i : Nat) : x.limit ≤ tail + i := by omega
  unfold State.spillPlaces
  simp [hlook, List.map_const']

/-- The lanes of records without a place receive FULL (R168). -/
def State.tellFull (s : State) (w : Nat) (dsts : List (Nat × Nat)) (recs : List (Nat × DWord × DWord × DWord)) : State :=
  recs.foldl (fun s r => match dsts.find? fun d => d.1 == r.1 with
    | some d => s.modLane w d.1 (·.setV d.2 4)
    | none => s) s

theorem State.tellFull_rest (s : State) (w : Nat) (dsts : List (Nat × Nat)) (recs : List (Nat × DWord × DWord × DWord)) :
    s.tellFull w dsts recs = { s with warps := (s.tellFull w dsts recs).warps } :=
  List.foldlRecOn (motive := fun t : State => t = { s with warps := t.warps }) recs _ rfl fun t ht r _ => by
    split
    · rw [State.modLane, State.modWarp, ht]
    · exact ht

/-- The spill is gone, and none of its records has been stored. -/
def State.spillTaken (s : State) (k : Nat) (x : Spill) : State :=
  { s with spills := s.spills.del k, works := s.works.modify x.work fun y => { y with left := y.left + 4 * 0 } }

/-- The spill is gone, and its lanes have been told that they are FULL. -/
def State.spilledFull (s : State) (k : Nat) (x : Spill) : State := (s.spillTaken k x).tellFull x.warp x.dsts x.recs

/-- A spill whose records all stand at LIMIT or above stores nothing. -/
theorem exec_spillAtomicReturn_full {k tail : Nat} {x : Spill} (hk : s.spills.get? k = some x) (htail : x.tail = some tail)
    (hlimit : x.limit ≤ tail) (hwalks : x.walks = []) :
    exec (.spillAtomicReturn k) s =
      .next ((((s.spilledFull k x).countSpills x.block x.claim 0 x.recs.length).workDone x.work).releaseQuarters x.warp) := by
  have hrecs : x.recs.zip (List.replicate x.recs.length (none : Option Nat)) = x.recs.map fun r => (r, none) := by
    induction x.recs with
    | nil => rfl
    | cons r rs ih => simp [List.replicate_succ, ih]
  have hplaced : ((x.recs.map fun r => (r, (none : Option Nat))).filter fun e => e.2.isSome) = [] :=
    List.filter_eq_nil_iff.2 fun e he => by
      obtain ⟨r, -, rfl⟩ := List.mem_map.1 he
      simp
  have hstored {n : Nat} {t : State} (f : State → Nat × (Nat × DWord × DWord × DWord) × Option Nat → State)
      (hf : ∀ t e, e.2.2 = none → f t e = t) :
      ((List.range n).zip (x.recs.map fun r => (r, (none : Option Nat)))).foldl f t = t :=
    foldl_same fun e he => by
      obtain ⟨r, -, hr⟩ := List.mem_map.1 (List.of_mem_zip he).2
      exact hf t e (hr ▸ rfl)
  dsimp only [exec, execSpillAtomicReturn]
  rw [hk]
  dsimp only
  rw [htail]
  dsimp only
  rw [hwalks, s.spillPlaces_full hlimit]
  dsimp only
  rw [if_neg (by simp), if_neg (by simp), hrecs, hplaced, hstored _ fun t e he => by rw [he], List.foldl_map]
  simp only [List.length_map, List.length_nil, Nat.sub_zero]
  rfl

theorem find?_key {dsts : List (Nat × Nat)} (hn : (dsts.map (·.1)).Nodup) {l r : Nat} (h : (l, r) ∈ dsts) :
    dsts.find? (fun d => d.1 == l) = some (l, r) := by
  induction dsts with
  | nil => cases h
  | cons d dsts ih =>
    obtain ⟨hnot, hn⟩ := List.nodup_cons.1 hn
    rcases List.mem_cons.1 h with rfl | hin
    · simp
    · have hne : d.1 ≠ l := fun heq => hnot (List.mem_map.2 ⟨(l, r), hin, heq.symm⟩)
      rw [List.find?_cons_of_neg (by simpa using hne)]
      exact ih hn hin

/-- A lane whose record has no place holds FULL in its status register. -/
theorem State.getV_tellFull {w l r : Nat} {dsts : List (Nat × Nat)} (hn : (dsts.map (·.1)).Nodup) (hd : (l, r) ∈ dsts)
    {recs : List (Nat × DWord × DWord × DWord)} (hok : s.threadsOk) (hw : (s.warps.get? w).isSome = true)
    (h : (∃ e ∈ recs, e.1 = l) ∨ (s.lane w l).getV r = 4) : ((s.tellFull w dsts recs).lane w l).getV r = 4 := by
  induction recs generalizing s with
  | nil => exact h.resolve_left (by simp)
  | cons e recs ih =>
    have hstep : s.tellFull w dsts (e :: recs) = (s.tellFull w dsts [e]).tellFull w dsts recs := rfl
    rw [hstep]
    cases hfind : dsts.find? fun d => d.1 == e.1 with
    | none =>
      have hsame : s.tellFull w dsts [e] = s := by simp [State.tellFull, hfind]
      rw [hsame]
      refine ih hok hw (h.imp_left ?_)
      rintro ⟨x, hx, rfl⟩
      rcases List.mem_cons.1 hx with rfl | hx
      · rw [find?_key hn hd] at hfind
        cases hfind
      · exact ⟨x, hx, rfl⟩
    | some d =>
      have hset : s.tellFull w dsts [e] = s.modLane w d.1 (·.setV d.2 4) := by simp [State.tellFull, hfind]
      have hde : d.1 = e.1 := by simpa using List.find?_some hfind
      rw [hset]
      refine ih (hok.modLane fun _ hL => hL.setV) (by rw [State.modLane, State.isSome_modWarp]; exact hw) ?_
      by_cases hel : e.1 = l
      · have heq : d = (l, r) := by
          rw [hel, find?_key hn hd] at hfind
          exact (Option.some.inj hfind).symm
        rw [heq, State.lane_modLane_same hok.lanesOk hw]
        exact .inr (Lane.getV_setV_same (hok.vSorted w l) r 4)
      · rw [State.lane_modLane_other hok.lanesOk _ fun _ hl => hel (hde ▸ hl.symm)]
        refine h.imp_left ?_
        rintro ⟨x, hx, rfl⟩
        exact ⟨x, (List.mem_cons.1 hx).resolve_left fun hxe => hel (hxe ▸ rfl), rfl⟩

/-- A claim that is still held counts its FULL results (R172). -/
theorem State.churn_countSpills {b n : Nat} {c : Churn} (hb : (s.blocks.get? b).isSome = true) (hc : (s.block b).churn = some c)
    (hfull : c.full + n < 2 ^ 32) (hspilled : c.spilled < 2 ^ 32) :
    ((s.countSpills b c.id 0 n).block b).churn = some { c with full := c.full + n } := by
  have hcount : min (c.spilled + 0) 0xFFFFFFFF = c.spilled ∧ min (c.full + n) 0xFFFFFFFF = c.full + n := by omega
  rw [State.countSpills, State.block_modBlock hb, if_pos rfl, hc]
  dsimp only
  rw [if_pos rfl, hcount.1, hcount.2]

end

/-! ## The statement -/

section
variable {s : State} {g : Nat} {gr : Group} {w : Nat} {ls : List Nat} {p : Pred}

/-- HC.CLAIM makes a claim, and the group waits at the next word. -/
theorem claims_new (hteam : s.Team g gr w ls p) (hthere : (s.blocks.get? gr.block).isSome = true) {o : UOps} {k off : Nat}
    (hr : s.ReadyU g gr (usrcS o.a 2 ++ usrcS o.b 1)) (hmemo : gr.memo = {}) (hhdr : usrc64 (s.warp w) o.a = 0) (hoff : off < 512)
    (hk : k ≤ 8) (halign : off % 2 ^ k = 0) (hctl : usrc32 (s.warp w) o.b = BitVec.ofNat 32 (off + 2 ^ 16 * k))
    (hbudget : 1024 * 2 ^ k ≤ (s.block gr.block).churnSize) (hsize : 1024 * (off + 2 ^ k) ≤ (s.block gr.block).lsSize)
    (hnone : (s.block gr.block).churn = none) :
    exec (.hcClaim o) s = .next (((s.atWord g).claimed gr.block (newClaim off k (s.ids + 1))).waitsCleared g gr) := by
  obtain ⟨-, -, hctlOff, hctlK⟩ := ctl_fields hoff hk hctl
  have htrap : claimTrap (s.block gr.block) w (usrc32 (s.warp w) o.b).toNat 0 = none :=
    claimTrap_none hoff hk halign hctl hbudget hsize (by simp [hnone]) w
  have hclaimed := State.block_claimed (s := s.atWord g) hthere (newClaim off k (s.ids + 1))
  have hchurn := congrArg Block.churn hclaimed
  have hagain : claimTrap (((s.atWord g).claimed gr.block (newClaim off k (s.ids + 1))).block gr.block) w
      (usrc32 (s.warp w) o.b).toNat (usrc64 (s.warp w) o.a) = none := by
    rw [hhdr]
    refine claimTrap_none hoff hk halign hctl (hclaimed ▸ hbudget) (hclaimed ▸ hsize) (fun c hc => ?_) w
    obtain rfl := Option.some.inj (hchurn.symm.trans hc)
    exact ⟨rfl, rfl, rfl⟩
  have hrest := State.claimRest_one (g := g) _ hteam.warpIds
    (fun v => (usrc32 (s.warp v) o.b).toNat) (fun v => usrc64 (s.warp v) o.a) hagain
  rw [hchurn, Option.map_some, Option.getD_some] at hrest
  rw [exec_hcClaim_new (ctl := (usrc32 (s.warp w) o.b).toNat) hr hteam hmemo hnone hhdr rfl htrap, hctlOff, hctlK, hrest]
  exact if_pos rfl

/-- Repeated, HC.CLAIM finds its claim. -/
theorem claims_held (hteam : s.Team g gr w ls p) {o : UOps} {k off : Nat} (hr : s.ReadyU g gr (usrcS o.a 2 ++ usrcS o.b 1))
    (hhdr : usrc64 (s.warp w) o.a = 0) (hoff : off < 512) (hk : k ≤ 8) (halign : off % 2 ^ k = 0)
    (hctl : usrc32 (s.warp w) o.b = BitVec.ofNat 32 (off + 2 ^ 16 * k)) (hbudget : 1024 * 2 ^ k ≤ (s.block gr.block).churnSize)
    (hsize : 1024 * (off + 2 ^ k) ≤ (s.block gr.block).lsSize) {c : Churn} (hc : (s.block gr.block).churn = some c)
    (hcoff : c.off = 1024 * off) (hck : c.k = k) (hchdr : c.hdr = 0) :
    exec (.hcClaim o) s = .next (if c.clearing then (s.atWord g).waitsCleared g gr else (s.atWord g).retire g gr) := by
  have htrap : claimTrap (s.block gr.block) w (usrc32 (s.warp w) o.b).toNat (usrc64 (s.warp w) o.a) = none := by
    rw [hhdr]
    refine claimTrap_none hoff hk halign hctl hbudget hsize (fun c' hc' => ?_) w
    obtain rfl : c = c' := Option.some.inj (hc.symm.trans hc')
    exact ⟨hcoff, hck, hchdr⟩
  have hheld : (s.block gr.block).churn ≠ none := by simp [hc]
  have hrest := (s.atWord g).claimRest_one (g := g) hteam.warpIds
    (fun v => (usrc32 (s.warp v) o.b).toNat) (fun v => usrc64 (s.warp v) o.a) htrap
  rw [State.atWord_block, hc, Option.map_some, Option.getD_some] at hrest
  rw [exec_hcClaim_held hr hteam hheld, hrest]
  exact (apply_ite Host.Outcome.next (c.clearing = true) _ _).symm

/-- Where one block changes, and then threads alone, blocks and threads are all that changes. -/
theorem State.onlyThreads.blocksToo {b : Nat} {B : Block} {t : State} (h : (s.setBlock b B).onlyThreads t) :
    t = { s with blocks := t.blocks, warps := t.warps, groups := t.groups, focus := t.focus } := by
  have hblocks : t.blocks = (s.setBlock b B).blocks := h.blocks
  unfold State.onlyThreads at h
  rw [hblocks]
  exact h

/-- What CHURN_CLEAR_DONE leaves of the module. -/
theorem clears_region (hteam : s.Team g gr w ls p) {c : Churn} (hls : AMap.sorted (s.block gr.block).ls = true)
    (hg : s.groups.get? g = some gr) :
    let t := (s.setBlock gr.block ((s.block gr.block).cleared c)).goesOn g gr
    t = { s with blocks := t.blocks, warps := t.warps, groups := t.groups, focus := t.focus } ∧
      (t.block gr.block).churn = some { c with clearing := false } ∧
      (gr.pc ≠ gr.clauseEnd → t.groups.get? g = some { gr with park := .run, memo := {} }) ∧
      (gr.pc = gr.clauseEnd → ∀ x ∈ gr.lanes, t.Went x gr.clauseEnd) ∧
      ∀ bk sl, bk < 2 ^ (c.k + 3) → sl < 8 → (t.block gr.block).lsRead (c.off + 128 * bk + 16 * sl) 8 = 2 ^ 64 - 1 ∧
        (t.block gr.block).lsRead (c.off + 128 * bk + 16 * sl + 8) 8 = 0 := by
  intro t
  have hthreads : (s.setBlock gr.block ((s.block gr.block).cleared c)).onlyThreads t := State.onlyThreads_goesOn _ g gr
  have hcleared : t.block gr.block = (s.block gr.block).cleared c := by
    rw [hthreads.block, State.block_setBlock, if_pos rfl]
  refine ⟨hthreads.blocksToo, (congrArg Block.churn hcleared).trans (Block.churn_cleared _ c),
    fun hpc => ?_, fun hpc x hx => ?_, fun bk sl hbk hsl => ?_⟩
  · show (State.goesOn _ g gr).groups.get? g = _
    rw [State.goesOn, if_neg hpc, State.modGroup_groups, AMap.get?_modify, if_pos rfl, State.setBlock_groups, hg]
    rfl
  · show (State.goesOn _ g gr).Went x _
    rw [State.goesOn, if_pos hpc]
    exact State.went_endClause (s := s.setBlock gr.block _) hteam.stands g _ hx
  · rw [hcleared]
    exact Block.lsRead_cleared hls c hbk hsl

/-- HC.FREE gives the region up, or its group waits. -/
theorem frees_region (hthere : (s.blocks.get? gr.block).isSome = true) (hr : s.ReadyU g gr []) :
    ((s.atWord g).freeWaits gr = false → ∃ t, exec .hcFree s = .next t ∧ t.mem = s.mem ∧
      t.block gr.block = { s.block gr.block with churn := none } ∧ t.groups = ((s.atWord g).retire g gr).groups) ∧
    ((s.atWord g).freeWaits gr = true → ∃ t, exec .hcFree s = .next t ∧ t.blocks = s.blocks ∧
      t.groups.get? g = some { gr with park := .claim, memo := { gr.memo with asked := true } }) := by
  refine ⟨fun hfree => ?_, fun hwaits => ?_⟩
  · have hthreads := ((s.atWord g).modBlock gr.block fun B => { B with churn := none }).onlyThreads_retire g gr
    refine ⟨_, (exec_hcFree hr).trans (if_neg (by simp [hfree])), hthreads.mem, ?_,
      State.retire_groups_congr (s := s.atWord g) (t := (s.atWord g).modBlock _ _) rfl g gr⟩
    rw [hthreads.block, State.block_modBlock (s := s.atWord g) hthere, if_pos rfl]
    rfl
  · exact ⟨_, (exec_hcFree hr).trans (if_pos hwaits), rfl, State.get?_parked hr.get?⟩

/-- H.STA gives each lane its statistic. -/
theorem reads_statistics {o : Ops} (hr : s.Ready g gr o {}) (hteam : s.Team g gr w ls o.pr)
    (hclear : ∀ c, (s.block gr.block).churn = some c → c.clearing = false) :
    ∃ t, exec (.hSta o) s = .next t ∧ s.onlyThreads t ∧ ∀ l ∈ ls,
      ((s.lane w l).putD o.d ((s.block gr.block).statValue (src32 (s.warp w) (s.lane w l) o.a).toNat)).regsAre (t.lane w l) := by
  refine ⟨_, exec_hSta hr hteam hclear, State.onlyThreads_trans (State.onlyThreads_trans (s.onlyThreads_atWord g)
    (State.onlyThreads_modEach _ _ _)) (State.onlyThreads_retire _ _ _), fun l hl => ?_⟩
  have hin : (w, l) ∈ gr.lanes := by simp [hteam.lanes, hl]
  have hok : ((s.atWord g).statsRead (s.block gr.block) o gr.lanes).lanesOk :=
    State.lanesOk_modEach (s := s.atWord g) hteam.forms.lanesOk gr.lanes _
  have hgone := (State.retire_movesOn hok g gr w).2 l
  rw [State.lane_statsRead hteam.atWord.stands (s.block gr.block) o hin] at hgone
  exact Lane.goneOn.regsAre ⟨rfl, rfl⟩ hgone

end

section
variable {s : State} {k tail : Nat} {x : Spill} {c : Churn}

/-- A spill without room for its records leaves its lanes FULL, counted in the claim. -/
theorem spills_full (hok : s.threadsOk) (hw : (s.warps.get? x.warp).isSome = true) (hthere : (s.blocks.get? x.block).isSome = true)
    (hk : s.spills.get? k = some x) (htail : x.tail = some tail) (hlimit : x.limit ≤ tail) (hwalks : x.walks = [])
    (hc : (s.block x.block).churn = some c) (hid : c.id = x.claim) (hfull : c.full + x.recs.length < 2 ^ 32)
    (hspilled : c.spilled < 2 ^ 32) (hrecs : ∀ l r, (l, r) ∈ x.dsts → ∃ e ∈ x.recs, e.1 = l) (hdsts : (x.dsts.map (·.1)).Nodup) :
    ∃ t, exec (.spillAtomicReturn k) s = .next t ∧ t.mem = s.mem ∧ t.ops = s.ops ∧ t.spills = s.spills.del k ∧
      (t.block x.block).churn = some { c with full := c.full + x.recs.length } ∧
      ∀ l r, (l, r) ∈ x.dsts → (t.lane x.warp l).getV r = 4 := by
  have hrest : s.spilledFull k x = { s.spillTaken k x with warps := (s.spilledFull k x).warps } :=
    (s.spillTaken k x).tellFull_rest _ _ _
  generalize hv : s.spilledFull k x = v at hrest
  have hthreads := ((v.countSpills x.block x.claim 0 x.recs.length).workDone x.work).onlyThreads_releaseQuarters x.warp
  have hblock : ((v.countSpills x.block x.claim 0 x.recs.length).block x.block).churn =
      some { c with full := c.full + x.recs.length } := by
    rw [← hid]
    exact State.churn_countSpills (by rw [hrest]; exact hthere) (by rw [hrest]; exact hc) hfull hspilled
  refine ⟨_, hv ▸ exec_spillAtomicReturn_full hk htail hlimit hwalks, hthreads.mem.trans (by rw [hrest]; rfl),
    hthreads.ops.trans (by rw [hrest]; rfl), ?_, ?_, fun l r hlr => ?_⟩
  · rw [State.onlyThreads.spills hthreads, hrest]
    rfl
  · rw [hthreads.block]
    exact hblock
  · rw [(State.sameLanes_releaseQuarters _ _).lane]
    show (v.lane x.warp l).getV r = 4
    rw [← hv]
    exact State.getV_tellFull (s := s.spillTaken k x) hdsts hlr hok hw (.inl (hrecs l r hlr))

end

/-- Settles O38, with one lemma for each of HC.CLAIM, CHURN_CLEAR_DONE, HC.FREE, H.STA and SPILL_ATOMIC_RETURN. -/
theorem churnClaims : Obligations.ChurnClaims := by
  intro s g gr w ls B hteam hB hs waits
  obtain rfl := State.block_of_get? hB
  have hthere : (s.blocks.get? gr.block).isSome = true := by simp [hB]
  refine ⟨fun o k off hr hmemo hpark hhdr hoff hk halign hctl hbudget hsize => ⟨fun hnone => ?_, fun c hc hcoff hck hchdr => ?_⟩,
    fun c hc hclearing hls hg hothers hpark hpassed => ?_, frees_region hthere, fun o hr hteam hclear =>
    reads_statistics hr hteam hclear, fun k x tail c hk htail hlimit hwalks hxb hc hid hfull hspilled hxw hss hrecs hdsts => ?_⟩
  · refine ⟨_, newClaim off k (s.ids + 1), claims_new hteam hthere hr hmemo hhdr hoff hk halign hctl hbudget hsize hnone, rfl, ?_,
      rfl, rfl, rfl, rfl, rfl, rfl, State.get?_atWord_waitsCleared hr.get? rfl⟩
    exact congrArg Block.churn (State.block_claimed (s := s.atWord g) hthere _)
  · have hexec := claims_held hteam hr hhdr hoff hk halign hctl hbudget hsize hc hcoff hck hchdr
    refine ⟨fun hclearing => ⟨(s.atWord g).waitsCleared g gr, ?_, rfl, State.get?_atWord_waitsCleared hr.get? rfl⟩, fun hclear => ?_⟩
    · rw [hexec, if_pos hclearing]
    · rw [hexec, if_neg (by simp [hclear])]
  · exact ⟨_, exec_churnClearDone hc hclearing hteam.forms.2.1 hg hpark hpassed hothers, clears_region hteam hls hg⟩
  · subst hxw
    rw [← hxb] at hthere hc ⊢
    exact spills_full hteam.forms hteam.warp_isSome hthere hk htail hlimit hwalks hc hid hfull hspilled hrecs hdsts

end Sys2Proof.Machine
end

section
/-! SUPPORT. O50: what the device's own accesses keep, and what they do not read (13_work_queues R300, R307 to R310). -/

namespace Sys2Proof.Machine

/-! ## The device's own accesses leave launches and blocks alone -/

/-- The launches and the blocks of the chip are the same. -/
structure State.SameUnits (s t : State) : Prop where
  launches : t.launches = s.launches
  blocks : t.blocks = s.blocks
  chip : t.chip = s.chip

namespace State.SameUnits

variable {s t : State}

theorem refl (s : State) : s.SameUnits s := ⟨rfl, rfl, rfl⟩

theorem trans {u : State} (h1 : s.SameUnits t) (h2 : t.SameUnits u) : s.SameUnits u :=
  ⟨h2.launches.trans h1.launches, h2.blocks.trans h1.blocks, h2.chip.trans h1.chip⟩

theorem of_fst {α : Type} {r : State × α} {x : α} (heq : r = (t, x)) (h : s.SameUnits r.1) : s.SameUnits t := by
  rw [heq] at h
  exact h

theorem of_codeRead (h : s.CodeRead t) : s.SameUnits t := by
  constructor <;> rw [h.rest]

theorem foldl {α : Type} {f : State → α → State} (hf : ∀ (t : State) (x : α), t.SameUnits (f t x)) (l : List α) (s : State) :
    s.SameUnits (l.foldl f s) :=
  List.foldlRecOn (motive := fun t => s.SameUnits t) l f (refl s) fun _ ht x _ => ht.trans (hf _ x)

theorem ite {c : Prop} [Decidable c] {a b : State} (ha : s.SameUnits a) (hb : s.SameUnits b) :
    s.SameUnits (if c then a else b) := by
  split
  · exact ha
  · exact hb

theorem reach (s : State) (line : Nat) (write : Bool) : s.SameUnits (s.reach line write) := by
  unfold State.reach
  split
  · exact of_codeRead (s.codeRead_settle line write)
  · split
    · exact refl s
    · split <;> exact ⟨rfl, rfl, rfl⟩

theorem devRead (s : State) (pa n : Nat) : s.SameUnits (s.devRead pa n).1 :=
  foldl (fun t line => reach t line false) _ s

theorem devSend (s : State) (pa n x line : Nat) : s.SameUnits (s.devSend pa n x line) := by
  unfold State.devSend
  dsimp only
  split <;> exact ⟨rfl, rfl, rfl⟩

theorem devWrite (s : State) (pa n x : Nat) : s.SameUnits (s.devWrite pa n x) := by
  unfold State.devWrite
  split
  · obtain ⟨hlaunches, hblocks, hchip⟩ := foldl (fun t line => reach t line true) (linesOf pa n) s
    exact ⟨hlaunches, hblocks, hchip⟩
  · refine foldl (fun t line => ?_) _ s
    split
    · exact devSend t pa n x line
    · exact refl t

theorem devWalk (s : State) (va : Nat) (need : Need) (lvl table : Nat) : s.SameUnits (s.devWalk va need lvl table).1 := by
  fun_induction State.devWalk s va need lvl table
  case case1 => exact refl _
  case case9 hread _ _ _ ih => exact (of_fst hread (devRead _ _ _)).trans ih
  all_goals exact of_fst ‹State.devRead _ _ _ = _› (devRead _ _ _)

theorem devPa (s : State) (ctx va : Nat) (need : Need) : s.SameUnits (s.devPa ctx va need).1 := by
  unfold State.devPa
  split
  · exact refl s
  · exact devWalk s va need _ _

theorem vaRead (s : State) (ctx va n : Nat) : s.SameUnits (s.vaRead ctx va n).1 := by
  unfold State.vaRead
  split
  · exact refl s
  · split
    next t heq => exact of_fst heq (devPa s ctx va _)
    next t a heq =>
      have hpa : s.SameUnits t := of_fst heq (devPa s ctx va _)
      split
      · exact hpa
      · exact hpa.trans (devRead t a n)

theorem validHead (s : State) (ctx : Nat) (d : QDesc) : s.SameUnits (s.validHead ctx d).1 := by
  unfold State.validHead
  split
  · exact refl s
  · split
    next t x heq => exact of_fst heq (vaRead s ctx _ _)
    next t heq => exact of_fst heq (vaRead s ctx _ _)

theorem queueIsLate (s : State) (ctx q : Nat) (d : QDesc) : s.SameUnits (s.queueIsLate ctx q d).1 := by
  unfold State.queueIsLate
  split
  · exact refl s
  · split
    · exact refl s
    · exact validHead s ctx d

theorem modCtx (s : State) (ctx : Nat) (f : Ctx → Ctx) : s.SameUnits (s.modCtx ctx f) := ⟨rfl, rfl, rfl⟩

theorem noteLate (s : State) (ctx q : Nat) (d : QDesc) : s.SameUnits (s.noteLate ctx q d) := by
  have hlate := queueIsLate s ctx q d
  exact (ite (hlate.trans (devWrite _ _ _ _)) hlate).trans (modCtx _ _ _)

theorem takeHead (s : State) (ctx q eff : Nat) (d : QDesc) : s.SameUnits (s.takeHead ctx q eff d) :=
  (devWrite s _ _ _).trans (modCtx _ _ _)

theorem refuseRecord (s : State) (ctx : Nat) (d : QDesc) (idx cause kind : Nat) :
    s.SameUnits (s.refuseRecord ctx d idx cause kind) := by
  unfold State.refuseRecord
  have hfault : s.SameUnits (s.queueFault d cause idx) := (devWrite s _ _ _).trans (devWrite _ _ _ _)
  dsimp only
  split
  next t a heq => exact (hfault.trans (of_fst heq (devPa _ _ _ _))).trans (devWrite _ _ _ _)
  next t heq => exact hfault.trans (of_fst heq (devPa _ _ _ _))

end State.SameUnits

/-! ## The device's own accesses do not read what has been chosen -/

section
variable (ctx : Nat) (j : Job)

theorem State.gwctAll_unchoose (s : State) (who : List (Nat × Nat)) (n : Nat) :
    (s.unchoose ctx j).gwctAll who n = (s.gwctAll who n).unchoose ctx j :=
  List.foldl_hom (fun t : State => t.unchoose ctx j) fun _ _ => rfl

theorem State.recalled_unchoose (s : State) (a : Nat) : (s.unchoose ctx j).recalled a = (s.recalled a).unchoose ctx j := by
  unfold State.recalled
  split <;> rfl

/-- A partial is folded into its line, and its warps may count it. -/
def State.takePartial (s : State) (line n : Nat) (p : Partial) : State :=
  ({ s with mem := applyPartial s.mem line p } : State).gwctAll p.who n

theorem State.takePartial_unchoose (s : State) (line n : Nat) (p : Partial) :
    (s.unchoose ctx j).takePartial line n p = (s.takePartial line n p).unchoose ctx j :=
  State.gwctAll_unchoose ctx j { s with mem := applyPartial s.mem line p } p.who n

theorem State.takePartial_all_unchoose (s : State) (line lx : Nat) (ps : AMap Partial) :
    ps.foldl (fun t e => State.takePartial t line (max t.time lx) e.2) (s.unchoose ctx j) =
      (ps.foldl (fun t e => State.takePartial t line (max t.time lx) e.2) s).unchoose ctx j :=
  List.foldl_hom (fun t : State => t.unchoose ctx j) fun t e => t.takePartial_unchoose ctx j line (max t.time lx) e.2

theorem State.absorb_unchoose (s : State) (line : Nat) : (s.unchoose ctx j).absorb line = (s.absorb line).unchoose ctx j := by
  unfold State.absorb
  extract_lets s1 h1 s2 h2
  have hmsgs : s1 = s2.unchoose ctx j := by
    refine List.foldl_hom (fun t : State => t.unchoose ctx j) fun t e => ?_
    dsimp only
    split
    · split
      · rfl
      next p drop ack _ =>
        exact congrArg (fun u : State => { u with
          msgs := u.msgs.set e.1 { e.2 with body := .pushed { p with vals := [], who := [] } drop ack } })
          (t.takePartial_unchoose ctx j line (max t.time (t.hline line).lx) p)
      · rfl
    · rfl
  have hline : h1 = h2 := by
    change s1.hline line = s2.hline line
    rw [hmsgs]
    rfl
  rw [hline, hmsgs]
  split
  next b _ =>
    exact congrArg (fun t : State => t.setHline line { h2 with busy := some { b with parts := [] } })
      (s2.takePartial_all_unchoose ctx j line h2.lx b.parts)
  · rfl

/-- A core's copy of a line is written back or folded in, and dropped. -/
def State.gaveUp (s : State) (line lx a : Nat) : State :=
  let t := s.recalled a
  match t.cline? a line with
  | some c =>
    match c.partial_ with
    | some p => (t.takePartial line (max t.time lx) p).delCline a line
    | none => t.delCline a line
  | none => t

theorem State.gaveUp_unchoose (s : State) (line lx a : Nat) :
    (s.unchoose ctx j).gaveUp line lx a = (s.gaveUp line lx a).unchoose ctx j := by
  unfold State.gaveUp
  rw [s.recalled_unchoose ctx j a]
  generalize s.recalled a = t
  dsimp only
  change (match t.cline? a line with | some c => _ | none => _) = _
  split
  · split
    · exact congrArg (State.delCline · a line) (t.takePartial_unchoose ctx j line _ _)
    · rfl
  · rfl

theorem State.settle_unchoose (s : State) (line : Nat) (write : Bool) :
    (s.unchoose ctx j).settle line write = (s.settle line write).unchoose ctx j := by
  unfold State.settle
  rw [s.absorb_unchoose ctx j line]
  generalize s.absorb line = t
  have hline : (t.unchoose ctx j).hline line = t.hline line := rfl
  have howns : (t.unchoose ctx j).engineOwns line = t.engineOwns line := rfl
  have hcline (a : Nat) : (t.unchoose ctx j).cline? a line = t.cline? a line := rfl
  dsimp only
  rw [hline]
  split
  case h_1 => rfl
  case h_2 who _ =>
    split
    · exact congrArg (fun u : State => u.setHline line { t.hline line with pkg := .i })
        (List.foldl_hom (fun u : State => u.unchoose ctx j) fun u a =>
          congrArg (fun v : State => v.delCline a line) (u.recalled_unchoose ctx j a))
    · rfl
  case h_3 a _ =>
    rw [hcline, howns]
    split
    · split <;> rfl
    next c _ =>
      have hback := State.recalled_unchoose ctx j { t with mem := applyWords t.mem line c.data c.dirty } a
      split
      · exact congrArg (fun u : State => (u.delCline a line).setHline line _) hback
      · exact congrArg (fun u : State => (u.setCline a line _).setHline line _) hback
  case h_4 who _ =>
    exact congrArg (fun u : State => u.setHline line { t.hline line with pkg := .i })
      (List.foldl_hom (fun u : State => u.unchoose ctx j) fun u a => u.gaveUp_unchoose ctx j line (t.hline line).lx a)

theorem State.reach_unchoose (s : State) (line : Nat) (write : Bool) :
    (s.unchoose ctx j).reach line write = (s.reach line write).unchoose ctx j := by
  unfold State.reach
  rw [s.settle_unchoose ctx j]
  have hhand : (s.unchoose ctx j).atHand line write = s.atHand line write := rfl
  have hfetched : (s.unchoose ctx j).fetched = s.fetched := rfl
  rw [hhand, hfetched]
  split
  · rfl
  · split
    · rfl
    · split <;> rfl

theorem State.devRead_unchoose (s : State) (pa n : Nat) :
    (s.unchoose ctx j).devRead pa n = ((s.devRead pa n).1.unchoose ctx j, (s.devRead pa n).2) := by
  have hlines : (linesOf pa n).foldl (fun t l => State.reach t l false) (s.unchoose ctx j) =
      ((linesOf pa n).foldl (fun t l => State.reach t l false) s).unchoose ctx j :=
    List.foldl_hom (fun t : State => t.unchoose ctx j) fun t l => t.reach_unchoose ctx j l false
  unfold State.devRead
  rw [hlines]
  rfl

/-- What a walk makes of an entry that it has read; `next` walks on from a table entry. -/
def State.walkEntry (t : State) (va : Nat) (need : Need) (lvl table x : Nat) (next : State → DWord → State × Option Nat) :
    State × Option Nat :=
  let e := BitVec.ofNat 64 x
  let i := vIndex lvl va % 4096
  let all := (List.range 16).map fun j => BitVec.ofNat 64 (memRead t.mem (table + 8 * (i / 16 * 16 + j)) 8)
  if !entryOk t.chip lvl e || (eCt e && !groupOk e (i % 16) all) then (t, none)
  else if eLeaf e then
    if permits need e then
      match t.checkPa (leafPa lvl e va) with
      | .pa a => (t, some a)
      | .config _ | .fault _ | .walk _ _ _ => (t, none)
    else (t, none)
  else next t e

theorem State.devWalk_zero (s : State) (va : Nat) (need : Need) (table : Nat) : s.devWalk va need 0 table =
    if !s.ownPa (table + 8 * (vIndex 0 va % 4096)) then (s, none)
    else
      let r := s.devRead (table + 8 * (vIndex 0 va % 4096)) 8
      r.1.walkEntry va need 0 table r.2 fun t _ => (t, none) := rfl

theorem State.devWalk_succ (s : State) (va : Nat) (need : Need) (lvl table : Nat) : s.devWalk va need (lvl + 1) table =
    if !s.ownPa (table + 8 * (vIndex (lvl + 1) va % 4096)) then (s, none)
    else
      let r := s.devRead (table + 8 * (vIndex (lvl + 1) va % 4096)) 8
      r.1.walkEntry va need (lvl + 1) table r.2 fun t e => t.devWalk va need lvl (eFrame e * 4096) := rfl

theorem State.walkEntry_unchoose (t : State) (va : Nat) (need : Need) (lvl table x : Nat)
    {next : State → DWord → State × Option Nat}
    (hnext : ∀ t e, next (t.unchoose ctx j) e = ((next t e).1.unchoose ctx j, (next t e).2)) :
    (t.unchoose ctx j).walkEntry va need lvl table x next =
      ((t.walkEntry va need lvl table x next).1.unchoose ctx j, (t.walkEntry va need lvl table x next).2) := by
  have hmem : (t.unchoose ctx j).mem = t.mem := rfl
  have hchip : (t.unchoose ctx j).chip = t.chip := rfl
  have hcheck (pa : Nat) : (t.unchoose ctx j).checkPa pa = t.checkPa pa := rfl
  unfold State.walkEntry
  dsimp only
  rw [hmem, hchip, hcheck]
  split
  · rfl
  · split
    · split
      · split <;> rfl
      · rfl
    · exact hnext t _

theorem State.devWalk_unchoose (s : State) (va : Nat) (need : Need) (lvl table : Nat) :
    (s.unchoose ctx j).devWalk va need lvl table =
      ((s.devWalk va need lvl table).1.unchoose ctx j, (s.devWalk va need lvl table).2) := by
  have hown (pa : Nat) : (s.unchoose ctx j).ownPa pa = s.ownPa pa := rfl
  induction lvl generalizing s table with
  | zero =>
    rw [State.devWalk_zero, State.devWalk_zero, hown, s.devRead_unchoose ctx j]
    split
    · rfl
    · exact State.walkEntry_unchoose ctx j _ va need 0 table _ fun _ _ => rfl
  | succ lvl ih =>
    rw [State.devWalk_succ, State.devWalk_succ, hown, s.devRead_unchoose ctx j]
    split
    · rfl
    · exact State.walkEntry_unchoose ctx j _ va need (lvl + 1) table _ fun t e => ih t _ fun _ => rfl

theorem State.root_unchoose (s : State) (k : Nat) : ((s.unchoose ctx j).ctx k).root = (s.ctx k).root := by
  rw [State.unchoose, State.modCtx, State.ctx, AMap.getD, AMap.get?_modify, State.ctx, AMap.getD]
  split
  next heq =>
    subst heq
    cases s.ctxs.get? k <;> rfl
  · rfl

theorem State.qcount_unchoose (s : State) (k : Nat) : ((s.unchoose ctx j).ctx k).qcount = (s.ctx k).qcount := by
  rw [State.unchoose, State.modCtx, State.ctx, AMap.getD, AMap.get?_modify, State.ctx, AMap.getD]
  split
  next heq =>
    subst heq
    cases s.ctxs.get? k <;> rfl
  · rfl

theorem State.devPa_unchoose (s : State) (k va : Nat) (need : Need) :
    (s.unchoose ctx j).devPa k va need = ((s.devPa k va need).1.unchoose ctx j, (s.devPa k va need).2) := by
  unfold State.devPa
  rw [s.root_unchoose ctx j, s.devWalk_unchoose ctx j]
  split <;> rfl

theorem State.configRead_unchoose (s : State) (k off len : Nat) :
    (s.unchoose ctx j).configRead k off len = s.configRead k off len := by
  have hword (o : Nat) : (s.unchoose ctx j).configWord k o = s.configWord k o := by
    unfold State.configWord
    rw [s.qcount_unchoose ctx j]
    rfl
  unfold State.configRead
  simp only [hword]

theorem State.vaRead_unchoose (s : State) (k va n : Nat) :
    (s.unchoose ctx j).vaRead k va n = ((s.vaRead k va n).1.unchoose ctx j, (s.vaRead k va n).2) := by
  unfold State.vaRead
  rw [s.configRead_unchoose ctx j, s.devPa_unchoose ctx j]
  generalize s.devPa k va { rd := true } = r
  obtain ⟨t, a⟩ := r
  split
  · rfl
  · cases a with
    | none => rfl
    | some a =>
      have hpoison : ((t.unchoose ctx j).hline (a / 128)).poison = (t.hline (a / 128)).poison := rfl
      dsimp only
      rw [hpoison, t.devRead_unchoose ctx j]
      split <;> rfl

/-- One word of `vaBytes`. -/
def State.vaWord (k va : Nat) (r : State × Option (AMap Byte)) (i : Nat) : State × Option (AMap Byte) :=
  match r.2 with
  | none => r
  | some m =>
    match r.1.vaRead k (va + 8 * i) 8 with
    | (s, some x) => (s, some (linePut m (8 * i) 8 x))
    | (s, none) => (s, none)

theorem State.vaWord_unchoose (k va i : Nat) (r : State × Option (AMap Byte)) :
    State.vaWord k va (r.1.unchoose ctx j, r.2) i = ((State.vaWord k va r i).1.unchoose ctx j, (State.vaWord k va r i).2) := by
  obtain ⟨s, m⟩ := r
  cases m with
  | none => rfl
  | some m =>
    unfold State.vaWord
    dsimp only
    rw [s.vaRead_unchoose ctx j]
    generalize s.vaRead k (va + 8 * i) 8 = r
    obtain ⟨t, x⟩ := r
    cases x <;> rfl

theorem State.vaBytes_unchoose (s : State) (k va n : Nat) :
    (s.unchoose ctx j).vaBytes k va n = ((s.vaBytes k va n).1.unchoose ctx j, (s.vaBytes k va n).2) :=
  List.foldl_hom (fun r : State × Option (AMap Byte) => (r.1.unchoose ctx j, r.2)) (g₁ := State.vaWord k va)
    (g₂ := State.vaWord k va) (init := (s, some [])) fun r i => State.vaWord_unchoose ctx j k va i r

/-- What a parameter block needs does not hang on what has been chosen. -/
theorem State.need_paramOf_unchoose (s : State) (L : Launch) : ((s.unchoose ctx j).paramOf L).1.need = (s.paramOf L).1.need := by
  unfold State.paramOf
  rw [s.vaBytes_unchoose ctx j]
  split <;> rfl

end

end Sys2Proof.Machine
end

section
/-! PROOFS. O50: Dispatch takes heads and places clusters (07_local_store_churn R153; 13_work_queues R300, R305, R307 to R310). -/

namespace Sys2Proof.Machine

/-! ## Taking a head -/

section
variable {u : State} {part ctx : Nat} {j : Job} {d : QDesc}

/-- A dispatch that does something, and needs no line, happens. -/
theorem exec_dispatch {s t : State} {req : Option BlockReq} (h : s.unasked.dispatchOnce part = (t, true, req)) (hneed : t.need = []) :
    exec (.dispatch part) s = .next t.spend := by
  dsimp only [exec, execDispatch]
  exact needing_next (by rw [h]) hneed

/-- The only head, a launch on this chip or on several, is taken. -/
theorem dispatchOnce_record {L : Launch} {x : Nat} (hruns : (u.part part).dispatches u = true) (hctx : (u.part part).ctx = ctx)
    (hheads : u.heads ctx = (u, [(j, d, .record L x)])) (hcont : L.cont = false) :
    u.dispatchOnce part =
      (((u.noteLate ctx j.queue d).takeHead ctx j.queue j.eff d).beginLaunch ctx d L x, true, none) := by
  unfold State.dispatchOnce
  simp [hruns, hctx, hheads, hcont, minJob]

/-- The only head, a record that is refused, is taken. -/
theorem dispatchOnce_refused {c k : Nat} (hruns : (u.part part).dispatches u = true) (hctx : (u.part part).ctx = ctx)
    (hheads : u.heads ctx = (u, [(j, d, .refused c k)])) :
    u.dispatchOnce part =
      (((u.noteLate ctx j.queue d).takeHead ctx j.queue j.eff d).refuseRecord ctx d d.head c k, true, none) := by
  unfold State.dispatchOnce
  simp [hruns, hctx, hheads, minJob]

/-- Where no head can be taken, the only active launch's next cluster is placed where it fits. -/
theorem dispatchOnce_active {id : Nat} {L : Launch} {spots : List (Nat × Spot)} (hruns : (u.part part).dispatches u = true)
    (hctx : (u.part part).ctx = ctx) (hheads : u.heads ctx = (u, [])) (hjobs : u.activeJobs ctx = (u, [j])) (hj : j.launch = some id)
    (hL : u.launches.get? id = some L) (hspots : u.spotsFor (u.part part).cores L = some spots) :
    u.dispatchOnce part =
      (((if L.src = u.chip then u.noteJob ctx j else u).unchoose ctx j).placeCluster id L spots, true, none) := by
  have hget (N : Launch) : u.launches.getD id N = L := by rw [AMap.getD, hL]; rfl
  unfold State.dispatchOnce
  simp [hruns, hctx, hheads, hjobs, minJob, hj, hget, hspots]

end

/-! ## Starting a block -/

section
variable {t : State} {L : Launch} {bid core : Nat} {B : Block} {ws : List Nat}

/-- The next warp of a block that starts. -/
def State.startNext (L : Launch) (core b bid index : Nat) (t : State) (x : (AMap Nat × Nat) × Nat) : State :=
  let n := t.newId
  ({ n.2 with warps := n.2.warps.set n.1 (startWarp L core b x.2 bid index n.2.clock x.1) } : State).modBlock bid fun B =>
    { B with warps := B.warps ++ [n.1] }

/-- The block has these warps so far, and they stand in it on its core. -/
structure State.Starting (t : State) (bid core : Nat) (B : Block) (ws : List Nat) : Prop where
  block : t.blocks.get? bid = some { B with warps := ws }
  warps : ∀ w ∈ ws, w ≤ t.ids ∧ ∃ W, t.warps.get? w = some W ∧ W.block = bid ∧ W.core = core

theorem State.Starting.next (h : t.Starting bid core B ws) (b index : Nat) (x : (AMap Nat × Nat) × Nat) :
    (t.startNext L core b bid index x).Starting bid core B (ws ++ [t.ids + 1]) := by
  refine ⟨?_, fun w hw => ?_⟩
  · have hblock : (t.startNext L core b bid index x).blocks.get? bid =
        (t.blocks.get? bid).map fun B => { B with warps := B.warps ++ [t.ids + 1] } :=
      (AMap.get?_modify _ _ _ _).trans (if_pos rfl)
    rw [hblock, h.block]
    rfl
  · have hwarp : (t.startNext L core b bid index x).warps.get? w =
        if w = t.ids + 1 then some (startWarp L core b x.2 bid index t.clock x.1) else t.warps.get? w :=
      AMap.get?_set _ _ _ _
    rcases List.mem_append.1 hw with hw | hw
    · obtain ⟨hle, hthere⟩ := h.warps w hw
      have hne : w ≠ t.ids + 1 := by omega
      rw [hwarp, if_neg hne]
      exact ⟨Nat.le_succ_of_le hle, hthere⟩
    · obtain rfl := List.mem_singleton.1 hw
      rw [hwarp, if_pos rfl]
      exact ⟨Nat.le_refl _, _, rfl, rfl, rfl⟩

/-- Warp after warp starts. -/
theorem State.Starting.all (h : t.Starting bid core B ws) (b index : Nat) (xs : List ((AMap Nat × Nat) × Nat)) :
    ∃ vs, vs.length = ws.length + xs.length ∧ (xs.foldl (State.startNext L core b bid index) t).Starting bid core B vs := by
  induction xs generalizing t ws with
  | nil => exact ⟨ws, rfl, h⟩
  | cons x xs ih =>
    obtain ⟨vs, hlength, hstarting⟩ := ih (h.next (L := L) b index x)
    refine ⟨vs, ?_, hstarting⟩
    rw [hlength, List.length_append, List.length_singleton, List.length_cons]
    omega

/-- A launch's block starts with its warps, one after another. -/
theorem State.startBlock_eq (s : State) (id : Nat) (L : Launch) (k cb gx gy : Nat) (param : AMap Byte) (core : Nat) (spot : Spot) :
    ∃ B index, s.startBlock id L k cb gx gy param (core, spot) =
        (spot.warps.zip (List.range spot.warps.length)).foldl (State.startNext L core spot.b (s.ids + 1) index)
          { s.newId.2 with blocks := s.blocks.set (s.ids + 1) B } ∧
      B.core = core ∧ B.launch = id ∧ B.cluster = k ∧ B.zeroing = true ∧ B.code = L.code ∧ B.lsBase = spot.lsBase ∧ B.warps = [] :=
  ⟨_, _, rfl, rfl, rfl, rfl, rfl, rfl, rfl, rfl⟩

/-- A launch's block stands on its core with a warp for each place found. -/
theorem State.startBlock_starting (s : State) (id : Nat) (L : Launch) (k cb gx gy : Nat) (param : AMap Byte) (core : Nat)
    (spot : Spot) : ∃ B vs, vs.length = spot.warps.length ∧ B.core = core ∧ B.launch = id ∧ B.cluster = k ∧ B.zeroing = true ∧
      B.code = L.code ∧ B.lsBase = spot.lsBase ∧
      (s.startBlock id L k cb gx gy param (core, spot)).Starting (s.ids + 1) core B vs := by
  obtain ⟨B, index, heq, hcore, hlaunch, hcluster, hzeroing, hcode, hbase, hnone⟩ := s.startBlock_eq id L k cb gx gy param core spot
  have hstart : ({ s.newId.2 with blocks := s.blocks.set (s.ids + 1) B } : State).Starting (s.ids + 1) core B [] := by
    refine ⟨?_, fun _ hw => nomatch hw⟩
    rw [← hnone]
    exact AMap.get?_set_same _ _ _
  obtain ⟨vs, hlength, hstarting⟩ := hstart.all (L := L) spot.b index (spot.warps.zip (List.range spot.warps.length))
  refine ⟨B, vs, ?_, hcore, hlaunch, hcluster, hzeroing, hcode, hbase, heq ▸ hstarting⟩
  rw [hlength, List.length_nil, Nat.zero_add, List.length_zip, List.length_range, Nat.min_self]

theorem State.need_startBlock (s : State) (id : Nat) (L : Launch) (k cb gx gy : Nat) (param : AMap Byte) (at_ : Nat × Spot) :
    (s.startBlock id L k cb gx gy param at_).need = s.need :=
  List.foldlRecOn (motive := fun t : State => t.need = s.need) _ _ rfl fun _ ht _ _ => ht

/-- The one block of a launch's next cluster is placed. -/
theorem State.placeCluster_one (s : State) (id : Nat) (L : Launch) (core : Nat) (spot : Spot) :
    ∃ b B vs, vs.length = spot.warps.length ∧ B.core = core ∧ B.launch = id ∧ B.cluster = L.nextK ∧ B.zeroing = true ∧
      B.code = L.code ∧ B.lsBase = spot.lsBase ∧ (s.placeCluster id L [(core, spot)]).Starting b core B vs ∧
      (s.placeCluster id L [(core, spot)]).need = (s.paramOf L).1.need ∧
      ((s.placeCluster id L [(core, spot)]).launches.get? id).map (·.nextK) = some (L.nextK + 1) := by
  obtain ⟨B, vs, hlength, hcore, hlaunch, hcluster, hzeroing, hcode, hbase, hblock, hwarps⟩ :=
    (s.paramOf L).1.startBlock_starting id L L.nextK 0 L.nextAt.2.1 L.nextAt.2.2 (s.paramOf L).2 core spot
  refine ⟨_, B, vs, hlength, hcore, hlaunch, hcluster, hzeroing, hcode, hbase, ⟨hblock, hwarps⟩, ?_, ?_⟩
  · exact State.need_startBlock _ id L L.nextK 0 _ _ _ (core, spot)
  · exact congrArg (Option.map Launch.nextK) (AMap.get?_set_same _ _ _)

end

/-! ## The statement -/

section
variable {s : State} {part : Nat} {j : Job} {d : QDesc}

/-- A launch of this chip alone at the only head is taken: HEAD is written, and the launch is active. -/
theorem takes_record {L : Launch} {x : Nat} (hruns : (s.part part).dispatches s = true)
    (hheads : s.unasked.heads (s.part part).ctx = (s.unasked, [(j, d, .record L x)])) (hcont : L.cont = false)
    (halone : s.others L = [])
    (hneed : ((s.unasked.noteLate (s.part part).ctx j.queue d).devWrite (d.pa + 16) 8 (d.head + 1)).need = []) :
    ∃ t id, exec (.dispatch part) s = .next t ∧ t.launches.get? id = some L ∧ t.blocks = s.blocks ∧
      t.mem = ((s.unasked.noteLate (s.part part).ctx j.queue d).devWrite (d.pa + 16) 8 (d.head + 1)).mem := by
  have hunits := (State.SameUnits.noteLate s.unasked (s.part part).ctx j.queue d).trans
    (.takeHead _ (s.part part).ctx j.queue j.eff d)
  have honce := dispatchOnce_record (u := s.unasked) (ctx := (s.part part).ctx) hruns rfl hheads hcont
  generalize hv : (s.unasked.noteLate (s.part part).ctx j.queue d).takeHead (s.part part).ctx j.queue j.eff d = v at hunits honce
  have hothers : v.others L = [] := by
    rw [State.others, hunits.chip]
    exact halone
  have hbegin : v.beginLaunch (s.part part).ctx d L x =
      { v with ids := v.ids + 1, launches := v.launches.set (v.ids + 1) L } := if_pos hothers
  rw [hbegin] at honce
  have hvneed : v.need = [] := hv ▸ hneed
  refine ⟨_, v.ids + 1, exec_dispatch honce hvneed, ?_, ?_, ?_⟩
  · rw [State.spend_eq]
    exact AMap.get?_set_same _ _ _
  · rw [State.spend_eq]
    exact hunits.blocks
  · rw [State.spend_mem, ← hv]
    rfl

/-- A head that is refused is taken, and its record says so. -/
theorem refuses_record {c k : Nat} (hruns : (s.part part).dispatches s = true)
    (hheads : s.unasked.heads (s.part part).ctx = (s.unasked, [(j, d, .refused c k)])) :
    let r := ((s.unasked.noteLate (s.part part).ctx j.queue d).takeHead (s.part part).ctx j.queue j.eff d).refuseRecord
      (s.part part).ctx d d.head c k
    r.need = [] → ∃ t, exec (.dispatch part) s = .next t ∧ t.launches = s.launches ∧ t.blocks = s.blocks ∧ t.mem = r.mem := by
  intro r hneed
  have hunits : s.unasked.SameUnits r :=
    ((State.SameUnits.noteLate s.unasked _ j.queue d).trans (.takeHead _ _ j.queue j.eff d)).trans (.refuseRecord _ _ d _ c k)
  have honce := dispatchOnce_refused (u := s.unasked) (ctx := (s.part part).ctx) hruns rfl hheads
  refine ⟨r.spend, exec_dispatch honce hneed, ?_, ?_, r.spend_mem⟩
  · rw [State.spend_eq]
    exact hunits.launches
  · rw [State.spend_eq]
    exact hunits.blocks

/-- An active launch's next cluster, of one block, is placed. -/
theorem places_cluster {id core : Nat} {L : Launch} {spot : Spot} (hruns : (s.part part).dispatches s = true)
    (hheads : s.unasked.heads (s.part part).ctx = (s.unasked, []))
    (hjobs : s.unasked.activeJobs (s.part part).ctx = (s.unasked, [j])) (hj : j.launch = some id) (hL : s.launches.get? id = some L)
    (hspots : s.unasked.spotsFor (s.part part).cores L = some [(core, spot)])
    (hneed : ((if L.src = s.chip then s.unasked.noteJob (s.part part).ctx j else s.unasked).paramOf L).1.need = []) :
    ∃ t b B, exec (.dispatch part) s = .next t ∧ (t.launches.get? id).map (·.nextK) = some (L.nextK + 1) ∧
      t.blocks.get? b = some B ∧ B.core = core ∧ B.launch = id ∧ B.cluster = L.nextK ∧ B.zeroing = true ∧
      B.code = L.code ∧ B.lsBase = spot.lsBase ∧ B.warps.length = spot.warps.length ∧
      ∀ w ∈ B.warps, ∃ W, t.warps.get? w = some W ∧ W.block = b ∧ W.core = core := by
  have honce := dispatchOnce_active (u := s.unasked) (ctx := (s.part part).ctx) hruns rfl hheads hjobs hj hL hspots
  have hchip : s.unasked.chip = s.chip := rfl
  rw [hchip] at honce
  generalize (if L.src = s.chip then s.unasked.noteJob (s.part part).ctx j else s.unasked) = v at hneed honce
  obtain ⟨b, B, vs, hlength, hcore, hlaunch, hcluster, hzeroing, hcode, hbase, hstarting, hplaced, hnext⟩ :=
    (v.unchoose (s.part part).ctx j).placeCluster_one id L core spot
  have hnone := (hplaced.trans (State.need_paramOf_unchoose _ j v L)).trans hneed
  refine ⟨_, b, { B with warps := vs }, exec_dispatch honce hnone, ?_, ?_, hcore, hlaunch, hcluster, hzeroing, hcode, hbase, hlength,
    fun w hw => ?_⟩
  · rw [State.spend_eq]
    exact hnext
  · rw [State.spend_eq]
    exact hstarting.block
  · rw [State.spend_eq]
    exact (hstarting.warps w hw).2

end

/-- The store of the only block is cleared, and its lanes may be grouped. -/
theorem exec_placementZeroingDone {s : State} {b : Nat} {B : Block} (hblocks : s.blocks = [(b, B)]) (hzeroing : B.zeroing = true) :
    exec (.placementZeroingDone B.launch B.cluster) s =
      .next { s with blocks := [(b, { B with zeroing := false, ls := [], lsBad := [] })] } := by
  have hblock : s.block b = B := by simp [State.block, hblocks, AMap.getD, AMap.get?]
  have hall : (s.clusterAll B.launch B.cluster).filter (fun b => (s.block b).zeroing) = [b] := by
    simp [State.clusterAll, hblocks, hblock, hzeroing]
  dsimp only [exec, execPlacementZeroingDone]
  rw [hall]
  simp [State.modBlock, hblocks, AMap.modify, AMap.get?, AMap.set]

/-- Settles O50: a head is taken or refused, an active launch's cluster is placed with its warps, and a block's store is
cleared. -/
theorem dispatchCompletes : Obligations.DispatchCompletes := by
  refine ⟨fun part s hruns _ _ _ => ⟨fun j d L x hheads hcont halone hneed => takes_record hruns hheads hcont halone hneed,
    fun j d c k hheads hneed => refuses_record hruns hheads hneed, fun j id L core spot hheads hjobs hj hL hspots hneed =>
    places_cluster hruns hheads hjobs hj hL hspots hneed⟩, fun launch cluster b B s hblocks hlaunch hcluster hzeroing => ?_⟩
  subst hlaunch hcluster
  exact exec_placementZeroingDone hblocks hzeroing

end Sys2Proof.Machine
end
